-- ==== Sys2Proof/Word.lean ====
section
/-! DEFINITION. Words and the plain data that instructions and device inputs carry: machine words, the three
word layouts of the instruction set (rules R65, R67, R68), the pair operations (R80), and the inputs that reach
the device from outside (bus accesses, power samples, engines). -/
namespace Sys2Proof

abbrev Byte := BitVec 8
abbrev W9 := BitVec 9
abbrev W32 := BitVec 32
abbrev W64 := BitVec 64

/-- An F-form word (R65, Table 03-1) without its opcode: the raw fields, legal or not. -/
structure FWord where
  s : Bool
  rgn : Bool
  gp : BitVec 3
  gn : Bool
  d : W9
  a : W9
  b : W9
  c : W9
  eph : Bool
  m : BitVec 11
deriving DecidableEq, Repr

/-- An I-form word (R67, Table 03-2) without its opcode. -/
structure IWord where
  s : Bool
  rgn : Bool
  gp : BitVec 3
  gn : Bool
  d : W9
  a : W9
  imm : W32
deriving DecidableEq, Repr

/-- The pair operations of Table 03-13 (R80). A name ending in `I5` is the form `d := a op imm5`. -/
inductive PairOp where
  | nop | iadd | isub | iaddI5 | isubI5 | andB | orB | xorB | andnB | mov | ineg | imin | imax
  | shlI5 | shrI5 | shraI5 | imul | popc | clz | fadd | fsub | fmul | fmin | fmax | fadd2 | fmul2
deriving DecidableEq, Repr

/-- One slot of a P-form word (R68, Table 03-3). -/
structure Slot where
  op : PairOp
  d : W9
  a : W9
  m : BitVec 5
deriving DecidableEq, Repr

/-- A P-form word whose two pair ops are assigned (R68). -/
structure PWord where
  s : Bool
  rgn : Bool
  pg : BitVec 2
  x : Slot
  y : Slot
deriving DecidableEq, Repr

/-- A powered engine instance (Table 24-1, R486, R488). -/
inductive Engine where
  | quadrant (core q : Nat)
  | array (core : Nat)
  | ray (core : Nat)
  | flue (i : Nat)
  | splitter (i : Nat)
  | slice (i : Nat)
  | tier (i : Nat)
deriving DecidableEq, Repr

/-- What the arbiter samples for one engine in an interval (R486): its floor and demand in tokens. -/
structure EngineSample where
  engine : Engine
  floor : Nat
  demand : Nat
deriving DecidableEq, Repr

/-- A place that holds an uncorrectable error (Table 10-2): the value of a lane of a register (of a slot of a core, by
absolute name), an aligned 64-bit word of a crew's scratch, a pair of elements of a tile, an aligned 64-bit word of a dirty L1
line or of memory (by PA div 8), a weight plane of a core, or a Kiln image. -/
inductive Upset where
  | reg (core slot name lane : Nat)
  | scratch (crew word : Nat)
  /-- an element pair of a tile: of its committed value, or of its pending one -/
  | acc (crew tile : Nat) (pending : Bool) (pair : Nat)
  | line (core key word : Nat)
  | mem (word : Nat)
  | plane (core p : Nat)
  /-- a 64-bit word of the lines that the weight buffer of a core has staged -/
  | buffer (core word : Nat)
  /-- a 2 KiB chunk of the weight stack that a remap step moved with such an error in it, and the mask of its 64-bit
  words that have been rewritten since (R481) -/
  | chunk (k done : Nat)
  | image (img : Nat)
  /-- a 64-bit word of a dirty line of the LLC -/
  | llc (word : Nat)
  /-- the GEN line of a context at a VA, in the LLC, where it is clean -/
  | gen (ctx line : Nat)
deriving DecidableEq, Repr

/-- What the sensors and engines report at the end of a power interval (R486, R487, Table 24-2), and the errors that
came up in it (R285): corrected ones by core and by bank of the weight stack (R479), and the places of uncorrectable ones.
Temperatures are in 1/16 degree, those of the weight tiers in their order. -/
structure PowerSample where
  draw : Nat
  tdie : Nat
  tiers : List Nat
  engines : List EngineSample
  coreErrors : List (Nat × Nat)
  bankErrors : List (Nat × Nat)
  upsets : List Upset
deriving DecidableEq, Repr

/-- What a bus agent asks of the device's memory (R447, R448). -/
inductive BusOp where
  /-- read `n` bytes -/
  | read (n : Nat)
  /-- write these bytes -/
  | write (bytes : List Byte)
  /-- an atomic of the op code of Table 06-3 on a location of `n` bytes -/
  | atomic (op n : Nat) (x y : W64)
deriving DecidableEq, Repr

/-- An access of the host or of a peer at a physical address (R447, R448). -/
structure BusAccess where
  pa : Nat
  op : BusOp
deriving DecidableEq, Repr

end Sys2Proof
end

