-- ==== Sys2Proof/Machine/Table.lean ====
section
/-! DEFINITION. Sparse tables: lists of (key, value) pairs with strictly rising keys. A table with a default value
lists no entry equal to the default, so equal tables are equal lists; memory is such a table with default zero. -/
namespace Sys2Proof.Machine

/-- The entry of a key. -/
def kvGet {α : Type} (t : List (Nat × α)) (k : Nat) : Option α :=
  match t with
  | [] => none
  | (j, v) :: r => if j = k then some v else kvGet r k

/-- The entry of a key, or the default. -/
def kvGetD {α : Type} (t : List (Nat × α)) (k : Nat) (d : α) : α := (kvGet t k).getD d

/-- Sets the entry of a key, keeping the keys rising. -/
def kvSet {α : Type} (t : List (Nat × α)) (k : Nat) (v : α) : List (Nat × α) :=
  match t with
  | [] => [(k, v)]
  | (j, w) :: r => if k < j then (k, v) :: (j, w) :: r else if j = k then (k, v) :: r else (j, w) :: kvSet r k v

/-- Removes the entry of a key. -/
def kvDel {α : Type} (t : List (Nat × α)) (k : Nat) : List (Nat × α) := t.filter fun p => p.1 ≠ k

/-- Sets the entry of a key in a table with default `d`: an entry equal to the default is removed. -/
def kvPut {α : Type} [DecidableEq α] (d : α) (t : List (Nat × α)) (k : Nat) (v : α) : List (Nat × α) :=
  if v = d then kvDel t k else kvSet t k v

/-- Applies a function to the entry of a key, if there is one. -/
def kvMod {α : Type} (t : List (Nat × α)) (k : Nat) (f : α → α) : List (Nat × α) :=
  match t with
  | [] => []
  | (j, w) :: r => if j = k then (j, f w) :: r else (j, w) :: kvMod r k f

/-- The keys rise strictly. -/
def kvSorted {α : Type} : List (Nat × α) → Bool
  | [] => true
  | [_] => true
  | (j, _) :: (k, v) :: r => decide (j < k) && kvSorted ((k, v) :: r)

/-- The canonical form of a table with a default: rising keys and no entry equal to the default. -/
def kvWf {α : Type} [DecidableEq α] (d : α) (t : List (Nat × α)) : Bool :=
  kvSorted t && t.all fun p => decide (p.2 ≠ d)

/-- Inserts before the first element that it is strictly before: `le` is a total preorder. -/
def insertBy {α : Type} (le : α → α → Bool) (x : α) : List α → List α
  | [] => [x]
  | y :: r => if le x y then x :: y :: r else y :: insertBy le x r

/-- A stable sort. -/
def sortBy {α : Type} (l : List α) (le : α → α → Bool) : List α := l.foldr (insertBy le) []

/-- Applies a function to one place of a list. -/
def listMod {α : Type} (l : List α) (i : Nat) (f : α → α) : List α :=
  match l, i with
  | [], _ => []
  | x :: r, 0 => f x :: r
  | x :: r, i + 1 => x :: listMod r i f

end Sys2Proof.Machine
end

