-- ==== Sys2Proof/Machine/Flags.lean ====
section
/-! DEFINITION. Number formats, exact values, rounding and the floating-point flags (chapter 01, R11 to R22). -/
namespace Sys2Proof.Machine
open Sys2Proof

/-! ### Flags (Table 05-5) -/

def flIV : Nat := 1
def flDZ : Nat := 2
def flOF : Nat := 4
def flUF : Nat := 8
def flNX : Nat := 16

/-! ### Formats (Table 01-2) -/

/-- A binary format: mantissa bits, exponent bits and bias. -/
structure Fmt where
  mbits : Nat
  ebits : Nat
  bias : Nat
deriving DecidableEq, Repr

def fp32 : Fmt := ⟨23, 8, 127⟩
def fp16 : Fmt := ⟨10, 5, 15⟩
def bf16 : Fmt := ⟨7, 8, 127⟩

def fmtEmax (f : Fmt) : Nat := 2 ^ f.ebits - 1
/-- The exponent of the smallest normal number. -/
def fmtEmin (f : Fmt) : Int := 1 - (f.bias : Int)
def fmtSign (f : Fmt) : Nat := 2 ^ (f.mbits + f.ebits)
/-- The canonical NaN (R12). -/
def fmtNaN (f : Fmt) : Nat := fmtEmax f * 2 ^ f.mbits + 2 ^ (f.mbits - 1)
def fmtInf (f : Fmt) (neg : Bool) : Nat := (if neg then fmtSign f else 0) + fmtEmax f * 2 ^ f.mbits
def fmtZero (f : Fmt) (neg : Bool) : Nat := if neg then fmtSign f else 0
/-- The largest finite value. -/
def fmtMax (f : Fmt) (neg : Bool) : Nat := fmtInf f neg - 1

/-- An exact value: a NaN (signalling or not), an infinity, or ± m·2^e; `sticky` says that the magnitude lies
strictly between m·2^e and (m+1)·2^e. -/
inductive FVal where
  | nan (sig : Bool)
  | inf (neg : Bool)
  | fin (neg : Bool) (m : Nat) (e : Int) (sticky : Bool)
deriving DecidableEq, Repr

/-- The value of a code (R11). -/
def fDecode (f : Fmt) (x : Nat) : FVal :=
  let man := x % 2 ^ f.mbits
  let ex := x / 2 ^ f.mbits % 2 ^ f.ebits
  let neg := (x / fmtSign f) % 2 = 1
  if ex = fmtEmax f then (if man = 0 then .inf neg else .nan (man < 2 ^ (f.mbits - 1)))
  else if ex = 0 then .fin neg man (fmtEmin f - f.mbits) false
  else .fin neg (man + 2 ^ f.mbits) ((ex : Int) - f.bias - f.mbits) false

/-- A code as an FTZ word reads it: a subnormal is a zero of its sign (R13). -/
def fRead (f : Fmt) (ftz : Bool) (x : Nat) : FVal :=
  match fDecode f x with
  | .fin neg m e st => if ftz ∧ m < 2 ^ f.mbits then .fin neg 0 e st else .fin neg m e st
  | v => v

/-! ### Rounding (R14) -/

/-- Rounds m·2^e (with sticky) to a multiple of 2^qe: the multiple and whether it is inexact. Modes: 0 RNE, 1 RZ,
2 RDN, 3 RUP. -/
def roundTo (mode : Nat) (neg : Bool) (m : Nat) (e : Int) (sticky : Bool) (qe : Int) : Nat × Bool :=
  if qe ≤ e then (m * 2 ^ (e - qe).toNat, sticky)
  else
    let sh := (qe - e).toNat
    let q := m / 2 ^ sh
    let r := m % 2 ^ sh
    let half := 2 ^ (sh - 1)
    let inexact : Bool := r != 0 || sticky
    let up : Bool := match mode with
      | 0 => decide (half < r) || (r == half && (sticky || q % 2 == 1))
      | 1 => false
      | 2 => neg && inexact
      | _ => !neg && inexact
    (if up then q + 1 else q, inexact)

/-- The exponent of the leading bit of m·2^e. -/
def topExp (m : Nat) (e : Int) : Int := e + Nat.log2 m

/-- Whether the value is tiny: rounded to full precision with the exponent unbounded below, it lies under the
smallest normal magnitude (Table 01-4). -/
def isTiny (mbits : Nat) (emin : Int) (mode : Nat) (neg : Bool) (m : Nat) (e : Int) (sticky : Bool) : Bool :=
  let qe := topExp m e - mbits
  let (q, _) := roundTo mode neg m e sticky qe
  if m = 0 then false else decide (topExp q qe < emin)

/-- round(x, fmt, mode) with SAT and FTZ (R13 to R17): the code and the flags of the rounding. -/
def fRound (f : Fmt) (mode : Nat) (sat ftz : Bool) (v : FVal) : Nat × Nat :=
  match v with
  | .nan _ => (fmtNaN f, 0)
  | .inf neg => if sat then (fmtMax f neg, flNX) else (fmtInf f neg, 0)
  | .fin neg m e sticky =>
    if m = 0 ∧ !sticky then (fmtZero f neg, 0)
    else
      let emin := fmtEmin f
      let tiny := isTiny f.mbits emin mode neg m e sticky
      if ftz ∧ tiny then (fmtZero f neg, flUF + flNX)
      else
        let qe := max (topExp m e) emin - f.mbits
        let (q, inexact) := roundTo mode neg m e sticky qe
        let (q, qe) := if q = 2 ^ (f.mbits + 1) then (2 ^ f.mbits, qe + 1) else (q, qe)
        let fl := if inexact then flNX + (if tiny then flUF else 0) else 0
        if q < 2 ^ f.mbits then (fmtZero f neg + q, fl)
        else
          let ex := qe + f.mbits + f.bias
          if ex ≥ fmtEmax f then
            let toInf := mode = 0 ∨ (mode = 2 ∧ neg) ∨ (mode = 3 ∧ !neg)
            (if toInf ∧ !sat then fmtInf f neg else fmtMax f neg, flOF + flNX)
          else (fmtZero f neg + ex.toNat * 2 ^ f.mbits + (q - 2 ^ f.mbits), fl)

/-! ### Exact arithmetic (R129, R16) -/

def fNeg : FVal → FVal
  | .nan s => .nan s
  | .inf n => .inf (!n)
  | .fin n m e st => .fin (!n) m e st

def isNan : FVal → Bool
  | .nan _ => true
  | _ => false

def isSnan : FVal → Bool
  | .nan s => s
  | _ => false

/-- The signed integer of a finite value at exponent `e0` (at most its own). -/
def fInt (neg : Bool) (m : Nat) (e e0 : Int) : Int :=
  let v : Int := (m : Int) * 2 ^ (e - e0).toNat
  if neg then -v else v

/-- The exact sum of two values with its flags; `mode` gives the sign of an exact zero (R16). -/
def fAdd (mode : Nat) (a b : FVal) : FVal × Nat :=
  match a, b with
  | .nan s, .nan t => (.nan false, if s || t then flIV else 0)
  | .nan s, _ => (.nan false, if s then flIV else 0)
  | _, .nan t => (.nan false, if t then flIV else 0)
  | .inf n, .inf k => if n = k then (.inf n, 0) else (.nan false, flIV)
  | .inf n, _ => (.inf n, 0)
  | _, .inf k => (.inf k, 0)
  | .fin n m e _, .fin k p g _ =>
    let e0 := min e g
    let v := fInt n m e e0 + fInt k p g e0
    if v = 0 then
      (.fin (if m = 0 ∧ p = 0 ∧ n = k then n else mode = 2) 0 e0 false, 0)
    else (.fin (v < 0) v.natAbs e0 false, 0)

/-- The exact product of two values with its flags. -/
def fMul (a b : FVal) : FVal × Nat :=
  match a, b with
  | .nan s, .nan t => (.nan false, if s || t then flIV else 0)
  | .nan s, _ => (.nan false, if s then flIV else 0)
  | _, .nan t => (.nan false, if t then flIV else 0)
  | .inf n, .inf k => (.inf (Bool.xor n k), 0)
  | .inf n, .fin k p _ _ => if p = 0 then (.nan false, flIV) else (.inf (Bool.xor n k), 0)
  | .fin n m _ _, .inf k => if m = 0 then (.nan false, flIV) else (.inf (Bool.xor n k), 0)
  | .fin n m e _, .fin k p g _ => (.fin (Bool.xor n k) (m * p) (e + g) false, 0)

/-- a × b + c, exact; a 0 × ∞ product raises IV even when c is a NaN (R129). -/
def fFma (mode : Nat) (a b c : FVal) : FVal × Nat :=
  let (p, f1) := fMul a b
  let (r, f2) := fAdd mode p c
  (r, f1 ||| f2)

/-- Rounds an exact result with its operation flags. -/
def fFinish (f : Fmt) (mode : Nat) (sat ftz : Bool) (r : FVal × Nat) : Nat × Nat :=
  let (x, fl) := fRound f mode sat ftz r.1
  (x, fl ||| r.2)

/-- f32(x op y) of two FP32 codes, .RNE without FTZ. -/
def f32Add (a b : Nat) : Nat × Nat := fFinish fp32 0 false false (fAdd 0 (fDecode fp32 a) (fDecode fp32 b))
def f32Mul (a b : Nat) : Nat × Nat := fFinish fp32 0 false false (fMul (fDecode fp32 a) (fDecode fp32 b))

/-- The exact order of two values that are no NaNs, −0 counting as smaller than +0 only where `zeros` says so. -/
def fLess (zeros : Bool) (a b : FVal) : Bool :=
  match a, b with
  | .nan _, _ => false
  | _, .nan _ => false
  | .inf n, .inf k => n && !k
  | .inf n, .fin _ _ _ _ => n
  | .fin _ _ _ _, .inf k => !k
  | .fin n m e _, .fin k p g _ =>
    let e0 := min e g
    let x := fInt n m e e0
    let y := fInt k p g e0
    if x = 0 ∧ y = 0 then zeros && n && !k else decide (x < y)

/-! ### FP4-E2M1 and E3M5 (R18 to R22) -/

/-- The magnitude of an FP4 code in halves (Table 01-5). -/
def fp4Halves (c : Nat) : Nat := [0, 1, 2, 3, 4, 6, 8, 12].getD (c % 8) 0

def fp4Val (c : Nat) : FVal := .fin (8 ≤ c % 16) (fp4Halves c) (-1) false

/-- Rounds an exact value to FP4: code and flags of R136 (used by FCVT); NaN gives 0 with IV. -/
def fp4Round (mode : Nat) (v : FVal) : Nat × Nat :=
  match v with
  | .nan _ => (0, flIV)
  | .inf neg => (if neg then 15 else 7, flOF + flNX)
  | .fin neg m e st =>
    let s := if neg then 8 else 0
    if m = 0 ∧ !st then (s, 0)
    else
      -- above 6: 6 = 12 halves
      let sat : Bool := decide (fInt false 12 (-1) (min e (-1)) < fInt false m e (min e (-1))) ||
        (st && decide (fInt false 12 (-1) (min e (-1)) ≤ fInt false m e (min e (-1))))
      if sat then (s + 7, flOF + flNX)
      else
        let qe := max (topExp m e) 0 - 1
        let (q, inexact) := roundTo mode neg m e st qe
        -- q·2^qe in halves
        let h := q * 2 ^ (qe + 1).toNat
        let c := ((List.range 8).find? fun i => fp4Halves i = h).getD 7
        (s + c, if inexact then flNX + (if isTiny 1 0 mode neg m e st then flUF else 0) else 0)

/-- The value of an E3M5 code (R21); 0xFF is a quiet NaN. -/
def e3m5Val (c : Nat) : FVal :=
  if c = 255 then .nan false
  else if c < 32 then .fin false (c % 32) (-7) false
  else .fin false (c % 32 + 32) ((c / 32 : Nat) - 3 - 5 : Int) false

/-- Rounds an exact value to E3M5 (R136). -/
def e3m5Round (mode : Nat) (v : FVal) : Nat × Nat :=
  match v with
  | .nan sig => (255, if sig then flIV else 0)
  | .inf neg => if neg then (0, flIV) else (254, flOF + flNX)
  | .fin neg m e st =>
    if m = 0 ∧ !st then (0, 0)
    else if neg then (0, flIV)
    else
      -- above 31: OF
      let e0 := min e 0
      let x := fInt false m e e0
      let lim := fInt false 31 0 e0
      if lim < x ∨ (st ∧ lim ≤ x) then (254, flOF + flNX)
      else
        let qe := max (topExp m e) (-2) - 5
        let (q, inexact) := roundTo mode neg m e st qe
        let (q, qe) := if q = 64 then (32, qe + 1) else (q, qe)
        let fl := if inexact then flNX + (if isTiny 5 (-2) mode neg m e st then flUF else 0) else 0
        (if q < 32 then q else ((qe + 8).toNat * 32 + (q - 32)), fl)

/-- rne_e2m1(q) (R20): the code, and whether the element saturates. A NaN has no code here and gives 0. -/
def rneE2m1 (v : FVal) : Nat × Bool :=
  match v with
  | .inf neg => (if neg then 15 else 7, true)
  | .nan _ => (0, false)
  | .fin neg m e st =>
    let (c, fl) := fp4Round 0 (.fin neg m e st)
    (c, fl / 4 % 2 = 1)

/-- e3m5_up(y) for y = n/d > 0 (R22): the smallest finite code not less than y, and whether it saturates. -/
def e3m5Up (n d : Nat) : Nat × Bool :=
  -- codes in units of 1/128: value(c) ≥ n/d
  let units (c : Nat) : Nat := if c < 32 then c else (c % 32 + 32) * 2 ^ (c / 32 - 1)
  match (List.range 255).find? fun c => n * 128 ≤ units c * d with
  | some c => (c, false)
  | none => (254, true)

/-! ### Integers (R15, R136) -/

/-- Rounds an exact value to an integer; the value and whether it is inexact. -/
def fToInt (mode : Nat) (v : FVal) : Option (Int × Bool) :=
  match v with
  | .fin neg m e st =>
    let (q, inexact) := roundTo mode neg m e st 0
    some (if neg then -(q : Int) else q, inexact)
  | _ => none

/-- Converts to an integer type of `w` bits, saturating (R15): the code in w bits and the flags. -/
def fToIntSat (mode w : Nat) (signed : Bool) (v : FVal) : Int × Nat :=
  let lo : Int := if signed then -(2 ^ (w - 1)) else 0
  let hi : Int := if signed then 2 ^ (w - 1) - 1 else 2 ^ w - 1
  match v with
  | .nan _ => (0, flIV)
  | .inf neg => (if neg then lo else hi, flIV + flNX)
  | v => match fToInt mode v with
    | some (i, inexact) =>
      if i < lo then (lo, flIV + flNX) else if hi < i then (hi, flIV + flNX)
      else (i, if inexact then flNX else 0)
    | none => (0, flIV)

/-- An exact integer as a value. -/
def fOfInt (i : Int) : FVal := .fin (i < 0) i.natAbs 0 false

end Sys2Proof.Machine
end

