-- ==== Sys2Proof/Machine/Convert.lean ====
section
/-! DEFINITION. Conversion through FP32 and the normalised formats (R31 to R34) over the element formats of Table
11-5, for transform pages and the Flue copy path. -/
namespace Sys2Proof.Machine
open Sys2Proof

/-- The bytes of an element format code of Table 11-5 (0 where the code is reserved). -/
def elemBytes (c : Nat) : Nat := [1, 2, 4, 8, 4, 2, 2, 1, 1, 4, 4].getD c 0

/-- f32 of an exact value: an FP32 code. -/
def f32Of (v : FVal) : Nat := (fRound fp32 0 false false v).1

/-- n/255 or n/127 as FP32 (R32). -/
def normToF32 (neg : Bool) (n d : Nat) : Nat :=
  if n = 0 then fmtZero fp32 false
  else
    let m := n * 2 ^ 100 / d
    f32Of (.fin neg m (-100) (m * d != n * 2 ^ 100))

/-- The FP32 code of an element of a format of codes 4 to 10. -/
def elemToF32 (c v : Nat) : Nat :=
  match c with
  | 4 => f32Of (fDecode fp32 v)
  | 5 => f32Of (fDecode fp16 v)
  | 6 => f32Of (fDecode bf16 v)
  | 7 => normToF32 false v 255
  | 9 => f32Of (fOfInt (if 2 ^ 31 ≤ v then (v : Int) - 2 ^ 32 else v))
  | 10 => f32Of (fOfInt v)
  | _ =>
    let s : Int := if 128 ≤ v then (v : Int) - 256 else v
    let s := max s (-127)
    normToF32 (s < 0) s.natAbs 127

/-- Writes an FP32 value to a format of codes 4 to 10 (R31, R32): integers by .RZ, saturated (R15). -/
def elemOfF32 (c x : Nat) : Nat :=
  let v := fDecode fp32 x
  match c with
  | 4 => f32Of v
  | 5 => (fRound fp16 0 false false v).1
  | 6 => (fRound bf16 0 false false v).1
  | 9 => ((fToIntSat 1 32 true v).1 % 2 ^ 32).toNat
  | 10 => ((fToIntSat 1 32 false v).1 % 2 ^ 32).toNat
  | 7 => match v with
    | .nan _ => 0
    | .inf neg => if neg then 0 else 255
    | .fin neg m e _ =>
      if neg ∨ m = 0 then 0
      else if 0 ≤ topExp m e then 255
      else (roundTo 0 false (m * 255) e false 0).1
  | _ => match v with
    | .nan _ => 0
    | .inf neg => if neg then 129 else 127
    | .fin neg m e _ =>
      let q := if m = 0 then 0 else if 0 ≤ topExp m e then 127 else (roundTo 0 neg (m * 127) e false 0).1
      if neg ∧ q ≠ 0 then 256 - q else q

/-- cvt_via_f32 between two formats of codes 4 to 10; equal formats pass through it too. -/
def elemConvert (src dst v : Nat) : Nat := elemOfF32 dst (elemToF32 src v)

end Sys2Proof.Machine
end

