-- ==== Sys2Proof/Config.lean ====
section
/-! DEFINITION. What the spec leaves open: free values. They are constants with no body, so no proof can see what
they are, and a claim holds whatever they are. -/
namespace Sys2Proof.Config

/-- A value the spec leaves open; the argument is the free-value counter of the state (log 2). -/
opaque freeValue : Nat → BitVec 64

/-- Which of the enabled agents moves next, as a number to be reduced by their count; the argument is the
free-value counter (log 2). -/
opaque choice : Nat → Nat

/-- Whether the hardware takes a choice that the spec allows it (log 2). -/
opaque allowed : Nat → Bool

/-- The digest (SHAKE256, 64 bytes) that the spec names by its algorithm only (R491, R492; log 10). -/
opaque shake256 : List Byte → List Byte

/-- The signature of the device identity key (Ed448, 114 bytes), whose bits the spec does not give (R492; log 10). -/
opaque ed448Sign : List Byte → List Byte

/-- Where the parts of an attestation report and its signature lie in the report's 512 bytes (R492; log 10). -/
opaque reportLayout : List (List Byte) → List Byte

/-- Whether a firmware image's signature verifies under the fused key (R491; log 10). -/
opaque ed448Verify : List Byte → Bool

/-- The correctly rounded digits of a transcendental function that the model's own interval arithmetic does not
decide: function number, argument bits (05 R136; log 11). -/
opaque transcendental : Nat → Nat → Int

/-- The second word of a waiter record (R369): it holds the core, slot and crew id of a batch, or the graph id and node
index, at places that the spec does not give (log 75). -/
opaque waiterName : Bool → Nat → Nat → Nat → BitVec 64

/-- Whether a trained DisplayPort link carries a mode, by the output's control, timing, sync and clock registers, the rate code
and the lane count (R449, which gives no formula; log 29). -/
opaque linkCarries : List (BitVec 64) → Nat → Nat → Bool

/-- Whether a mode needs another link rate or lane count than the trained ones (R450; log 29). -/
opaque linkRetrains : List (BitVec 64) → Nat → Nat → Bool

/-- Whether an access that an engine makes for itself counts as privileged in R433; the spec says it of the Hearth's
header read only (R381; log 13). -/
opaque enginePriv : Bool

/-- The LLC slice above which core holds a line of memory; the spec gives no map (log 27). -/
opaque sliceOf : Nat → Nat

/-- What the test of a column's pads at bring-up finds: a mask of failing pads; by the free-value counter and the column (R493;
log 86). -/
opaque padTest : Nat → Nat → Nat

/-- The retired banks of a column that firmware repairs at bring-up, as a mask; by the free-value counter and the column
(R479; log 86). -/
opaque bankRepair : Nat → Nat → Nat

end Sys2Proof.Config
end

