-- ==== Sys2Proof/Syntax.lean ====
section
/-! DEFINITION. The instruction type: one constructor for every row of the opcode table. The first 181 are
instruction words (chapters 04 to 08, 11, 17 and 18); the others are the hardware's and the host's own steps,
which the table lists beside them and which have no encoding (chapters 09, 16, 17, 19, 20, 24). -/
namespace Sys2Proof

inductive Instr where
  /-- IADD (R95) -/
  | iadd (w : FWord)
  /-- IADD_I (R94) -/
  | iaddI (w : IWord)
  /-- ISUB (R95) -/
  | isub (w : FWord)
  /-- IADDX (R97) -/
  | iaddx (w : FWord)
  /-- IMUL (R95) -/
  | imul (w : FWord)
  /-- IMUL_I (R94) -/
  | imulI (w : IWord)
  /-- IMULH (R96) -/
  | imulh (w : FWord)
  /-- IMAD (R95) -/
  | imad (w : FWord)
  /-- IMADW (R96) -/
  | imadw (w : FWord)
  /-- IDIV (R98) -/
  | idiv (w : FWord)
  /-- IREM (R98) -/
  | irem (w : FWord)
  /-- IMIN (R95) -/
  | imin (w : FWord)
  /-- IMAX (R95) -/
  | imax (w : FWord)
  /-- IABS (R95) -/
  | iabs (w : FWord)
  /-- INEG (R95) -/
  | ineg (w : FWord)
  /-- ICLAMP (R95) -/
  | iclamp (w : FWord)
  /-- LEA (R99) -/
  | lea (w : FWord)
  /-- ADD64 (R99) -/
  | add64 (w : FWord)
  /-- ADD64_I (R94) -/
  | add64I (w : IWord)
  /-- SUB64 (R99) -/
  | sub64 (w : FWord)
  /-- MOV (R100) -/
  | mov (w : FWord)
  /-- MOVI (R100) -/
  | movi (w : IWord)
  /-- MOVHI (R100) -/
  | movhi (w : IWord)
  /-- SEL (R101) -/
  | sel (w : FWord)
  /-- AND (R102) -/
  | andB (w : FWord)
  /-- AND_I (R94) -/
  | andBI (w : IWord)
  /-- OR (R102) -/
  | orB (w : FWord)
  /-- OR_I (R94) -/
  | orBI (w : IWord)
  /-- XOR (R102) -/
  | xorB (w : FWord)
  /-- XOR_I (R94) -/
  | xorBI (w : IWord)
  /-- ANDN (R102) -/
  | andnB (w : FWord)
  /-- LOP3 (R102) -/
  | lop3 (w : FWord)
  /-- SHL (R103) -/
  | shl (w : FWord)
  /-- SHL_I (R94) -/
  | shlI (w : IWord)
  /-- SHR (R103) -/
  | shr (w : FWord)
  /-- SHR_I (R94) -/
  | shrI (w : IWord)
  /-- SHRA (R103) -/
  | shra (w : FWord)
  /-- SHRA_I (R94) -/
  | shraI (w : IWord)
  /-- ROT (R103) -/
  | rot (w : FWord)
  /-- FSHF (R104) -/
  | fshf (w : FWord)
  /-- BFX (R105) -/
  | bfx (w : FWord)
  /-- BFI (R105) -/
  | bfi (w : FWord)
  /-- POPC (R106) -/
  | popc (w : FWord)
  /-- CLZ (R106) -/
  | clz (w : FWord)
  /-- BREV (R106) -/
  | brev (w : FWord)
  /-- BPERM (R107) -/
  | bperm (w : FWord)
  /-- ICMP (R108) -/
  | icmp (w : FWord)
  /-- ICMPI (R108) -/
  | icmpi (w : IWord)
  /-- PLOP (R109) -/
  | plop (w : FWord)
  /-- PMOVR (R110) -/
  | pmovr (w : FWord)
  /-- PMOVP (R110) -/
  | pmovp (w : FWord)
  /-- BRA (R113) -/
  | bra (w : IWord)
  /-- BRI (R113) -/
  | bri (w : FWord)
  /-- LOOP (R114) -/
  | loop (w : IWord)
  /-- CALL (R115) -/
  | call (w : IWord)
  /-- CALLI (R115) -/
  | calli (w : FWord)
  /-- RET (R116) -/
  | ret (w : FWord)
  /-- QUIT (R118) -/
  | quit (w : FWord)
  /-- FORK (R119) -/
  | fork (w : FWord)
  /-- GATHER (R120) -/
  | gather (w : FWord)
  /-- UNPIN (R121) -/
  | unpin (w : FWord)
  /-- YIELD (R122) -/
  | yield (w : FWord)
  /-- SLEEP (R123) -/
  | sleep (w : IWord)
  /-- NOP (R124) -/
  | nop (w : FWord)
  /-- PAIR (R68) -/
  | pair (w : PWord)
  /-- FADD (R129) -/
  | fadd (w : FWord)
  /-- FADD_I (R79) -/
  | faddI (w : IWord)
  /-- FSUB (R129) -/
  | fsub (w : FWord)
  /-- FMUL (R129) -/
  | fmul (w : FWord)
  /-- FMUL_I (R79) -/
  | fmulI (w : IWord)
  /-- FMA (R129) -/
  | fma (w : FWord)
  /-- FMIN (R130) -/
  | fmin (w : FWord)
  /-- FMAX (R130) -/
  | fmax (w : FWord)
  /-- FCMP (R131) -/
  | fcmp (w : FWord)
  /-- FCLASS (R132) -/
  | fclass (w : FWord)
  /-- FRND (R133) -/
  | frnd (w : FWord)
  /-- FSCALE (R134) -/
  | fscale (w : FWord)
  /-- FCVT (R136) -/
  | fcvt (w : FWord)
  /-- FPACK2 (R137) -/
  | fpack2 (w : FWord)
  /-- FUNPK2 (R137) -/
  | funpk2 (w : FWord)
  /-- FMA2 (R138) -/
  | fma2 (w : FWord)
  /-- FADD2 (R138) -/
  | fadd2 (w : FWord)
  /-- FMUL2 (R138) -/
  | fmul2 (w : FWord)
  /-- FDOT2 (R139) -/
  | fdot2 (w : FWord)
  /-- IDOT4 (R140) -/
  | idot4 (w : FWord)
  /-- FRCP (R141) -/
  | frcp (w : FWord)
  /-- FRSQ (R141) -/
  | frsq (w : FWord)
  /-- FSQRT (R141) -/
  | fsqrt (w : FWord)
  /-- FEX2 (R141) -/
  | fex2 (w : FWord)
  /-- FLG2 (R141) -/
  | flg2 (w : FWord)
  /-- FSIN (R141) -/
  | fsin (w : FWord)
  /-- FCOS (R141) -/
  | fcos (w : FWord)
  /-- FTANH (R141) -/
  | ftanh (w : FWord)
  /-- FPXRD (R152) -/
  | fpxrd (w : FWord)
  /-- FPXSET (R152) -/
  | fpxset (w : FWord)
  /-- SHFL (R144) -/
  | shfl (w : FWord)
  /-- VOTE (R145) -/
  | vote (w : FWord)
  /-- REDL (R146) -/
  | redl (w : FWord)
  /-- SCANL (R147) -/
  | scanl (w : FWord)
  /-- MATCH (R148) -/
  | matchL (w : FWord)
  /-- LD (R157) -/
  | ld (w : FWord)
  /-- ST (R157) -/
  | st (w : FWord)
  /-- LDL (R158) -/
  | ldl (w : FWord)
  /-- STL (R158) -/
  | stl (w : FWord)
  /-- LDSP (R159) -/
  | ldsp (w : FWord)
  /-- STSP (R159) -/
  | stsp (w : FWord)
  /-- LDA (R160) -/
  | lda (w : FWord)
  /-- STREL (R161) -/
  | strel (w : FWord)
  /-- ATOM (R163) -/
  | atom (w : FWord)
  /-- RED (R163) -/
  | red (w : FWord)
  /-- FENCE (R162) -/
  | fence (w : FWord)
  /-- PREF (R164) -/
  | pref (w : FWord)
  /-- BARINIT (R168) -/
  | barinit (w : FWord)
  /-- BARARR (R170) -/
  | bararr (w : FWord)
  /-- BARWAIT (R171) -/
  | barwait (w : FWord)
  /-- BARSYNC (R172) -/
  | barsync (w : FWord)
  /-- BAREXP (R173) -/
  | barexp (w : FWord)
  /-- BARQ (R167) -/
  | barq (w : FWord)
  /-- CBINIT (R175) -/
  | cbinit (w : FWord)
  /-- CBACQ (R176) -/
  | cbacq (w : FWord)
  /-- CBREL (R177) -/
  | cbrel (w : FWord)
  /-- CBPUT (R177) -/
  | cbput (w : FWord)
  /-- CBQ (R178) -/
  | cbq (w : FWord)
  /-- TLWAIT (R179) -/
  | tlwait (w : FWord)
  /-- TLQ (R179) -/
  | tlq (w : FWord)
  /-- FREEZE (R180) -/
  | freeze (w : FWord)
  /-- FREEZE_L (R258) -/
  | freezeL (w : FWord)
  /-- SHAPE (R181) -/
  | shape (w : FWord)
  /-- SHAPEG (R182) -/
  | shapeg (w : FWord)
  /-- XACQ (R183) -/
  | xacq (w : FWord)
  /-- XREL (R183) -/
  | xrel (w : FWord)
  /-- ACCGROW (R184) -/
  | accgrow (w : FWord)
  /-- ACCFREE (R184) -/
  | accfree (w : FWord)
  /-- WLOAD (R195) -/
  | wload (w : FWord)
  /-- WSWAP (R202) -/
  | wswap (w : FWord)
  /-- WTAB (R199) -/
  | wtab (w : FWord)
  /-- WWAIT (R203) -/
  | wwait (w : FWord)
  /-- MMQ (R205) -/
  | mmq (w : FWord)
  /-- ACCZ (R214) -/
  | accz (w : FWord)
  /-- ACCRD (R214) -/
  | accrd (w : FWord)
  /-- ACCWR (R214) -/
  | accwr (w : FWord)
  /-- DRAIN (R215) -/
  | drain (w : FWord)
  /-- DRAINST (R219) -/
  | drainst (w : FWord)
  /-- WSTAT (R220) -/
  | wstat (w : FWord)
  /-- WBMAP (R221) -/
  | wbmap (w : FWord)
  /-- FLUESUB (R292) -/
  | fluesub (w : FWord)
  /-- FLUESUB_RST (R314) -/
  | fluesubRst (w : FWord)
  /-- EVSIG (R233) -/
  | evsig (w : FWord)
  /-- EVSIG_I (R224) -/
  | evsigI (w : IWord)
  /-- EVSIG_CLR (R233) -/
  | evsigClr (w : FWord)
  /-- EVWAIT (R234) -/
  | evwait (w : FWord)
  /-- EVWAIT_I (R224) -/
  | evwaitI (w : IWord)
  /-- EVQ (R236) -/
  | evq (w : FWord)
  /-- SPAWN (R237) -/
  | spawn (w : FWord)
  /-- TLADV (R238) -/
  | tladv (w : FWord)
  /-- FILLARG (R395) -/
  | fillarg (w : FWord)
  /-- FILLPUT (R396) -/
  | fillput (w : FWord)
  /-- FILLDONE (R397) -/
  | filldone (w : FWord)
  /-- FILLFAIL (R397) -/
  | fillfail (w : FWord)
  /-- GENINV (R398) -/
  | geninv (w : FWord)
  /-- CUTSEL (R408) -/
  | cutsel (w : FWord)
  /-- CUTSEL_RST (R408) -/
  | cutselRst (w : FWord)
  /-- RAYQ (R426) -/
  | rayq (w : FWord)
  /-- RAYRD (R429) -/
  | rayrd (w : FWord)
  /-- SYSRD (R227) -/
  | sysrd (w : FWord)
  /-- CSRRD (R229) -/
  | csrrd (w : FWord)
  /-- CSRWR (R229) -/
  | csrwr (w : FWord)
  /-- CSRSWP (R229) -/
  | csrswp (w : FWord)
  /-- TRAP (R230) -/
  | trap (w : FWord)
  /-- BKPT (R230) -/
  | bkpt (w : FWord)
  /-- TRET (R231) -/
  | tret (w : FWord)
  /-- CLOCK (R239) -/
  | clock (w : FWord)
  /-- PERFRD (R240) -/
  | perfrd (w : FWord)
  /-- PGBUMP (R241) -/
  | pgbump (w : FWord)
  /-- PGNEW (R241) -/
  | pgnew (w : FWord)
  /-- TLBEPOCH (R242) -/
  | tlbepoch (w : FWord)
  /-- HALT (R243) -/
  | halt (w : FWord)
  /-- WSREMAP (R244) -/
  | wsremap (w : FWord)
  /-- MONCTL_CFG (R245) -/
  | monctlCfg (w : FWord)
  /-- MONCTL_CLR (R245) -/
  | monctlClr (w : FWord)
  /-- MONCTL_RD (R245) -/
  | monctlRd (w : FWord)
  /-- BATCH_MERGE (R252) -/
  | batchMerge (a b : Nat)
  /-- PARK_RESUME (R61) -/
  | parkResume (b : Nat)
  /-- XSET_REACQUIRE (R50) -/
  | xsetReacquire (b : Nat)
  /-- SLEEP_END (R123) -/
  | sleepEnd (b : Nat)
  /-- TRAP_ENTRY (R457) -/
  | trapEntry (b : Nat)
  /-- WATCHDOG (R465) -/
  | watchdog (b : Nat)
  /-- WLOAD_COMPLETE (R196) -/
  | wloadComplete (core : Nat)
  /-- WTAB_TABLE_ARRIVAL (R200) -/
  | wtabTableArrival (core idx : Nat)
  /-- PLANE_EXCHANGE (R202) -/
  | planeExchange (core : Nat)
  /-- PASS_CLOSE (R208) -/
  | passClose (core : Nat)
  /-- PASS_COMPLETE (R208) -/
  | passComplete (core : Nat)
  /-- PREEMPT_CLUSTER (R262) -/
  | preemptCluster (cl : Nat)
  /-- CLUSTER_RESTORE (R444) -/
  | clusterRestore
  /-- CLUSTER_PLACE (R374) -/
  | clusterPlace
  /-- CLASS_AGING (R375) -/
  | classAging (cl : Nat)
  /-- SLAB_CONVERT (R268) -/
  | slabConvert (core : Nat)
  /-- SLAB_RETURN (R270) -/
  | slabReturn (core : Nat)
  /-- TRIGGER_WRITE (R366) -/
  | triggerWrite (v : W64)
  /-- GRAPH_RUN_START (R367) -/
  | graphRunStart (ctx : Nat)
  /-- NODE_START (R368) -/
  | nodeStart (g n : Nat)
  /-- NODE_SUBMIT_DEFERRED (R365) -/
  | nodeSubmitDeferred (g n : Nat)
  /-- NODE_COMPLETE (R368) -/
  | nodeComplete (g n : Nat)
  /-- PIPELINE_REASSIGN (R373) -/
  | pipelineReassign (g n : Nat)
  /-- NODE_WAIT_RETRY (R370) -/
  | nodeWaitRetry (g n : Nat)
  /-- FLUE_STREAM (R297) -/
  | flueStream (c : Nat)
  /-- FLUE_COPY (R298) -/
  | flueCopy (c : Nat)
  /-- FLUE_GATHERROWS (R298) -/
  | flueGatherrows (c : Nat)
  /-- FLUE_STORE (R298) -/
  | flueStore (c : Nat)
  /-- FLUE_FILLV (R298) -/
  | flueFillv (c : Nat)
  /-- FLUE_LOOP (R299) -/
  | flueLoop (c : Nat)
  /-- FLUE_ENDLOOP (R299) -/
  | flueEndloop (c : Nat)
  /-- FLUE_TLWAIT (R300) -/
  | flueTlwait (c : Nat)
  /-- FLUE_TLADV (R300) -/
  | flueTladv (c : Nat)
  /-- FLUE_EVSIG (R300) -/
  | flueEvsig (c : Nat)
  /-- FLUE_BARARR (R300) -/
  | flueBararr (c : Nat)
  /-- FLUE_END (R300) -/
  | flueEnd (c : Nat)
  /-- FLUE_CMD_INVALID (R296) -/
  | flueCmdInvalid (c : Nat)
  /-- FLUE_WINDOW_DELIVERY (R305) -/
  | flueWindowDelivery (c : Nat)
  /-- FLUE_CONTEXT_RESUME (R311) -/
  | flueContextResume (c : Nat)
  /-- CUT_RUN (R415) -/
  | cutRun (c : Nat)
  /-- FILL_PLACE (R387) -/
  | fillPlace (depth core : Nat)
  /-- FILL_ARRAY_BORROW (R390) -/
  | fillArrayBorrow (b : Nat)
  /-- FILL_TIMEOUT (R391) -/
  | fillTimeout (r : Nat)
  /-- GEN_ENTRY_SUBMIT (R381) -/
  | genEntrySubmit (entry : Nat) (t1 : W64)
  /-- GEN_ENTRY_INVALIDATE (R381) -/
  | genEntryInvalidate (entry : Nat) (t1 : W64)
  /-- VICTIM_STORE_CONFIG (R383) -/
  | victimStoreConfig (cfg : Bool) (v : W64)
  /-- LINE_WRITEBACK (R331) -/
  | lineWriteback (core line : Nat)
  /-- REMAP_STEP_END (R481) -/
  | remapStepEnd (col : Nat)
  /-- BANK_RETIRE (R485) -/
  | bankRetire (col bank : Nat)
  /-- ENGINE_GATE (R488) -/
  | engineGate (e : Engine)
  /-- ENGINE_WAKE (R488) -/
  | engineWake (e : Engine)
  /-- THERMAL_TRIP (R463) -/
  | thermalTrip
  /-- CTX_HALT (R440) -/
  | ctxHalt (c : Nat)
  /-- CTX_HALTED (R440) -/
  | ctxHalted (c : Nat)
  /-- CTX_FREED (R440) -/
  | ctxFreed (c : Nat)
  /-- DEVICE_RESET (R493) -/
  | deviceReset
  /-- POWER_LOSS (R8) -/
  | powerLoss
  /-- NON_INSTRUCTION_ENCODING (R77) -/
  | nonInstructionEncoding (w : W64)
  /-- RECORD_LINE_ARRIVAL (R201) -/
  | recordLineArrival (core : Nat)
  /-- PAD_FAIL (R484) -/
  | padFail (col pad : Nat)
  /-- POWER_INTERVAL (R486) -/
  | powerInterval (p : PowerSample)
  /-- CTX_CREATE (R441) -/
  | ctxCreate (c : Nat)
  /-- CTX_RESUME (R440) -/
  | ctxResume (c : Nat)
  /-- CTX_DESTROY (R440) -/
  | ctxDestroy (c : Nat)
  /-- CTX_TLSET (R442) -/
  | ctxTlset (c id : Nat)
  /-- CTX_CMD_INVALID (R440) -/
  | ctxCmdInvalid (c code : Nat)
  /-- CMDERR_CLEAR (R440) -/
  | cmderrClear (c : Nat)
  /-- REGISTER_WRITE (R446) -/
  | registerWrite (off : Nat) (v : W64)
  /-- HOST_MEM_ACCESS (R447) -/
  | hostMemAccess (a : BusAccess)
  /-- PEER_ACCESS (R448) -/
  | peerAccess (a : BusAccess)
  /-- LINK_FAIL (R448) -/
  | linkFail (link : Nat)
  /-- VBLANK (R452) -/
  | vblank (o : Nat)
  /-- DP_LINK_TRAIN (R450) -/
  | dpLinkTrain (o : Nat) (rate lanes : Nat) (fits : Bool)
  /-- ATTGO (R492) -/
  | attgo
  /-- FIRMWARE_IMAGE (R491) -/
  | firmwareImage (img : List Byte)
  /-- LINK_RETRY (R335) -/
  | linkRetry (link : Nat) (up : Bool)
  /-- HPD_CHANGE (R450) -/
  | hpdChange (o : Nat) (present : Bool)
deriving DecidableEq, Repr

end Sys2Proof
end

