-- ==== Sys2Proof/Decode.lean ====
section
/-! DEFINITION. The decoder, total on every 64-bit word and on every list of bytes, and the encoder, written from
Tables 03-1 to 03-3 (layouts), 03-11 (op8), 03-12 (op6) and 03-13 (pair ops). A word that is no instruction
(R77) decodes to the row NON_INSTRUCTION_ENCODING with the word itself; its fate is that row's meaning. Reserved
field values stay in the word: they fault when the word executes in some lane (R75). -/
namespace Sys2Proof

/-- The byte at place `i` of a word, little-endian (R6). -/
def byteOf (x : W64) (i : Nat) : Byte := x.extractLsb' (8 * i) 8

/-- The eight bytes of a word as they stand in memory. -/
def wordBytes (x : W64) : List Byte := (List.range 8).map (byteOf x)

/-- A little-endian list of bytes as a number. -/
def leNat : List Byte → Nat
  | [] => 0
  | b :: bs => b.toNat + 256 * leNat bs

/-- The low `n` bytes of a number, little-endian. -/
def leBytes : Nat → Nat → List Byte
  | 0, _ => []
  | n + 1, v => BitVec.ofNat 8 v :: leBytes n (v / 256)

/-- A word of eight bytes. -/
def bytesWord (bs : List Byte) : W64 := BitVec.ofNat 64 (leNat bs)

def bitOf (x : W64) (i : Nat) : Bool := x.getLsbD i

/-- The fields of an F-form word (Table 03-1). -/
def fWordOf (x : W64) : FWord where
  s := bitOf x 63
  rgn := bitOf x 62
  gp := x.extractLsb' 49 3
  gn := bitOf x 48
  d := x.extractLsb' 39 9
  a := x.extractLsb' 30 9
  b := x.extractLsb' 21 9
  c := x.extractLsb' 12 9
  eph := bitOf x 11
  m := x.extractLsb' 0 11

/-- The fields of an I-form word (Table 03-2). -/
def iWordOf (x : W64) : IWord where
  s := bitOf x 63
  rgn := bitOf x 62
  gp := x.extractLsb' 51 3
  gn := bitOf x 50
  d := x.extractLsb' 41 9
  a := x.extractLsb' 32 9
  imm := x.extractLsb' 0 32

/-- The code of a pair op (Table 03-13). -/
def PairOp.code : PairOp → BitVec 6
  | .nop => 0x00#6
  | .iadd => 0x01#6
  | .isub => 0x02#6
  | .iaddI5 => 0x03#6
  | .isubI5 => 0x04#6
  | .andB => 0x05#6
  | .orB => 0x06#6
  | .xorB => 0x07#6
  | .andnB => 0x08#6
  | .mov => 0x09#6
  | .ineg => 0x0a#6
  | .imin => 0x0b#6
  | .imax => 0x0c#6
  | .shlI5 => 0x0d#6
  | .shrI5 => 0x0e#6
  | .shraI5 => 0x0f#6
  | .imul => 0x10#6
  | .popc => 0x11#6
  | .clz => 0x12#6
  | .fadd => 0x20#6
  | .fsub => 0x21#6
  | .fmul => 0x22#6
  | .fmin => 0x23#6
  | .fmax => 0x24#6
  | .fadd2 => 0x25#6
  | .fmul2 => 0x26#6

/-- The pair op of a code; none where Table 03-13 lists nothing. -/
def pairOpOf (c : BitVec 6) : Option PairOp :=
  match c.toNat with
  | 0x00 => some .nop
  | 0x01 => some .iadd
  | 0x02 => some .isub
  | 0x03 => some .iaddI5
  | 0x04 => some .isubI5
  | 0x05 => some .andB
  | 0x06 => some .orB
  | 0x07 => some .xorB
  | 0x08 => some .andnB
  | 0x09 => some .mov
  | 0x0a => some .ineg
  | 0x0b => some .imin
  | 0x0c => some .imax
  | 0x0d => some .shlI5
  | 0x0e => some .shrI5
  | 0x0f => some .shraI5
  | 0x10 => some .imul
  | 0x11 => some .popc
  | 0x12 => some .clz
  | 0x20 => some .fadd
  | 0x21 => some .fsub
  | 0x22 => some .fmul
  | 0x23 => some .fmin
  | 0x24 => some .fmax
  | 0x25 => some .fadd2
  | 0x26 => some .fmul2
  | _ => none

/-- A slot of a P-form word (Table 03-3). -/
def slotOf (x : BitVec 29) : Option Slot :=
  (pairOpOf (x.extractLsb' 23 6)).map fun op =>
    { op, d := x.extractLsb' 14 9, a := x.extractLsb' 5 9, m := x.extractLsb' 0 5 }

/-- The F-form instruction of an op8 (Table 03-11); none where the table marks the cell unassigned. Where two rows
of the opcode table share an op8, the modifier bits of the instruction's entry tell them apart. -/
def decodeF (op : Nat) (w : FWord) : Option Instr :=
  match op with
  | 0x01 => some (.iadd w)
  | 0x02 => some (.isub w)
  | 0x03 => some (.iaddx w)
  | 0x04 => some (.imul w)
  | 0x05 => some (.imulh w)
  | 0x06 => some (.imad w)
  | 0x07 => some (.imadw w)
  | 0x08 => some (.idiv w)
  | 0x09 => some (.irem w)
  | 0x0a => some (.imin w)
  | 0x0b => some (.imax w)
  | 0x0c => some (.iabs w)
  | 0x0d => some (.ineg w)
  | 0x0e => some (.iclamp w)
  | 0x10 => some (.lea w)
  | 0x11 => some (.add64 w)
  | 0x12 => some (.sub64 w)
  | 0x13 => some (.mov w)
  | 0x14 => some (.sel w)
  | 0x20 => some (.andB w)
  | 0x21 => some (.orB w)
  | 0x22 => some (.xorB w)
  | 0x23 => some (.andnB w)
  | 0x24 => some (.lop3 w)
  | 0x25 => some (.shl w)
  | 0x26 => some (.shr w)
  | 0x27 => some (.shra w)
  | 0x28 => some (.rot w)
  | 0x29 => some (.fshf w)
  | 0x2a => some (.bfx w)
  | 0x2b => some (.bfi w)
  | 0x2c => some (.popc w)
  | 0x2d => some (.clz w)
  | 0x2e => some (.brev w)
  | 0x2f => some (.bperm w)
  | 0x30 => some (.icmp w)
  | 0x31 => some (.plop w)
  | 0x32 => some (.pmovr w)
  | 0x33 => some (.pmovp w)
  | 0x40 => some (.bri w)
  | 0x41 => some (.calli w)
  | 0x42 => some (.ret w)
  | 0x48 => some (.quit w)
  | 0x49 => some (.fork w)
  | 0x4a => some (.gather w)
  | 0x4b => some (.unpin w)
  | 0x4c => some (.yield w)
  | 0x4d => some (.nop w)
  | 0x60 => some (.fadd w)
  | 0x61 => some (.fsub w)
  | 0x62 => some (.fmul w)
  | 0x63 => some (.fma w)
  | 0x64 => some (.fmin w)
  | 0x65 => some (.fmax w)
  | 0x66 => some (.fcmp w)
  | 0x67 => some (.fclass w)
  | 0x68 => some (.frnd w)
  | 0x69 => some (.fscale w)
  | 0x70 => some (.fcvt w)
  | 0x71 => some (.fpack2 w)
  | 0x72 => some (.funpk2 w)
  | 0x73 => some (.fma2 w)
  | 0x74 => some (.fadd2 w)
  | 0x75 => some (.fmul2 w)
  | 0x76 => some (.fdot2 w)
  | 0x77 => some (.idot4 w)
  | 0x80 => some (.frcp w)
  | 0x81 => some (.frsq w)
  | 0x82 => some (.fsqrt w)
  | 0x83 => some (.fex2 w)
  | 0x84 => some (.flg2 w)
  | 0x85 => some (.fsin w)
  | 0x86 => some (.fcos w)
  | 0x87 => some (.ftanh w)
  | 0x88 => some (.fpxrd w)
  | 0x89 => some (.fpxset w)
  | 0x90 => some (.shfl w)
  | 0x91 => some (.vote w)
  | 0x92 => some (.redl w)
  | 0x93 => some (.scanl w)
  | 0x94 => some (.matchL w)
  | 0xa0 => some (.ld w)
  | 0xa1 => some (.st w)
  | 0xa2 => some (.ldl w)
  | 0xa3 => some (.stl w)
  | 0xa4 => some (.ldsp w)
  | 0xa5 => some (.stsp w)
  | 0xa6 => some (.lda w)
  | 0xa7 => some (.strel w)
  | 0xa8 => some (.atom w)
  | 0xa9 => some (.red w)
  | 0xaa => some (.fence w)
  | 0xab => some (.pref w)
  | 0xb0 => some (.barinit w)
  | 0xb1 => some (.bararr w)
  | 0xb2 => some (.barwait w)
  | 0xb3 => some (.barsync w)
  | 0xb4 => some (.barexp w)
  | 0xb5 => some (.barq w)
  | 0xb8 => some (.cbinit w)
  | 0xb9 => some (.cbacq w)
  | 0xba => some (.cbrel w)
  | 0xbb => some (.cbput w)
  | 0xbc => some (.cbq w)
  | 0xc0 => some (.tlwait w)
  | 0xc1 => some (.tlq w)
  | 0xc2 => some (if w.m.getLsbD 0 then .freezeL w else .freeze w)
  | 0xc3 => some (.shape w)
  | 0xc4 => some (.shapeg w)
  | 0xc5 => some (.xacq w)
  | 0xc6 => some (.xrel w)
  | 0xc7 => some (.accgrow w)
  | 0xc8 => some (.accfree w)
  | 0xd0 => some (.wload w)
  | 0xd1 => some (.wswap w)
  | 0xd2 => some (.wtab w)
  | 0xd3 => some (.wwait w)
  | 0xd4 => some (.mmq w)
  | 0xd5 => some (.accz w)
  | 0xd6 => some (.accrd w)
  | 0xd7 => some (.accwr w)
  | 0xd8 => some (.drain w)
  | 0xd9 => some (.drainst w)
  | 0xda => some (.wstat w)
  | 0xdb => some (.wbmap w)
  | 0xe0 => some (if w.m.getLsbD 0 then .fluesubRst w else .fluesub w)
  | 0xe1 => some (if w.m.getLsbD 0 then .evsigClr w else .evsig w)
  | 0xe2 => some (.evwait w)
  | 0xe3 => some (.evq w)
  | 0xe4 => some (.spawn w)
  | 0xe5 => some (.tladv w)
  | 0xe6 => some (.fillarg w)
  | 0xe7 => some (.fillput w)
  | 0xe8 => some (.filldone w)
  | 0xe9 => some (.fillfail w)
  | 0xea => some (.geninv w)
  | 0xeb => some (if w.m.getLsbD 0 then .cutselRst w else .cutsel w)
  | 0xec => some (.rayq w)
  | 0xed => some (.rayrd w)
  | 0xf0 => some (.sysrd w)
  | 0xf1 => some (.csrrd w)
  | 0xf2 => some (.csrwr w)
  | 0xf3 => some (.csrswp w)
  | 0xf4 => some (.trap w)
  | 0xf5 => some (.tret w)
  | 0xf6 => some (.bkpt w)
  | 0xf7 => some (.clock w)
  | 0xf8 => some (.perfrd w)
  | 0xf9 => some (.pgbump w)
  | 0xfa => some (.pgnew w)
  | 0xfb => some (.tlbepoch w)
  | 0xfc => some (.halt w)
  | 0xfd => some (.wsremap w)
  -- the reserved code 3 is read as MONCTL.CFG (R76; log 92)
  | 0xfe => some (match (w.m.extractLsb' 0 2).toNat with | 1 => .monctlClr w | 2 => .monctlRd w | _ => .monctlCfg w)
  | _ => none

/-- The I-form instruction of an op6 (Table 03-12). -/
def decodeI (op : Nat) (w : IWord) : Option Instr :=
  match op with
  | 0x01 => some (.movi w)
  | 0x02 => some (.movhi w)
  | 0x03 => some (.iaddI w)
  | 0x04 => some (.imulI w)
  | 0x05 => some (.andBI w)
  | 0x06 => some (.orBI w)
  | 0x07 => some (.xorBI w)
  | 0x08 => some (.shlI w)
  | 0x09 => some (.shrI w)
  | 0x0a => some (.shraI w)
  | 0x0b => some (.add64I w)
  | 0x0c => some (.icmpi w)
  | 0x10 => some (.bra w)
  | 0x11 => some (.call w)
  | 0x12 => some (.loop w)
  | 0x13 => some (.sleep w)
  | 0x18 => some (.faddI w)
  | 0x19 => some (.fmulI w)
  | 0x20 => some (.evsigI w)
  | 0x21 => some (.evwaitI w)
  | _ => none

/-- The P-form instruction (R68): both pair ops must be assigned. -/
def decodeP (x : W64) : Option Instr :=
  match slotOf (x.extractLsb' 29 29), slotOf (x.extractLsb' 0 29) with
  | some sx, some sy => some (.pair ⟨bitOf x 63, bitOf x 62, x.extractLsb' 58 2, sx, sy⟩)
  | _, _ => none

/-- The instruction of a word, none where R77 says that the word is no instruction. -/
def instructionOf (x : W64) : Option Instr :=
  match (x.extractLsb' 60 2).toNat with
  | 0 => decodeF (x.extractLsb' 52 8).toNat (fWordOf x)
  | 1 => decodeP x
  | 2 => decodeI (x.extractLsb' 54 6).toNat (iWordOf x)
  | _ => none

/-- The row of the opcode table that a word runs. -/
def decodeWord (x : W64) : Instr := (instructionOf x).getD (.nonInstructionEncoding x)

/-- Why a list of bytes holds no word. -/
inductive DecodeError where
  /-- fewer than eight bytes are left -/
  | truncated (left : Nat)
deriving DecidableEq, Repr

/-- Decodes the first word of a list of bytes and answers the rest of the list. -/
def decode : List Byte → Except DecodeError (Instr × List Byte)
  | b0 :: b1 :: b2 :: b3 :: b4 :: b5 :: b6 :: b7 :: rest =>
    .ok (decodeWord (bytesWord [b0, b1, b2, b3, b4, b5, b6, b7]), rest)
  | short => .error (.truncated short.length)

/-- The decoder on a word of the opcode table: the words are little-endian bytes, the bits above `nbits` are zero. -/
def decodeTableWord (nbits w : Nat) : Option Instr :=
  match decode (leBytes 8 (w % 2 ^ min nbits 64)) with
  | .ok (i, _) => some i
  | .error _ => none

def bit1 (b : Bool) : BitVec 1 := BitVec.ofBool b

/-- An F-form word (Table 03-1). -/
def encodeF (op : BitVec 8) (w : FWord) : W64 :=
  bit1 w.s ++ bit1 w.rgn ++ 0#2 ++ op ++ w.gp ++ bit1 w.gn ++ w.d ++ w.a ++ w.b ++ w.c ++ bit1 w.eph ++ w.m

/-- An I-form word (Table 03-2). -/
def encodeI (op : BitVec 6) (w : IWord) : W64 :=
  bit1 w.s ++ bit1 w.rgn ++ 2#2 ++ op ++ w.gp ++ bit1 w.gn ++ w.d ++ w.a ++ w.imm

def encodeSlot (p : Slot) : BitVec 29 := p.op.code ++ p.d ++ p.a ++ p.m

/-- A P-form word (Table 03-3). -/
def encodeP (w : PWord) : W64 :=
  bit1 w.s ++ bit1 w.rgn ++ 1#2 ++ w.pg ++ encodeSlot w.x ++ encodeSlot w.y

/-- The word of an instruction; none for the hardware's and the host's own steps, which have no encoding. -/
def encode : Instr → Option W64
  | .iadd w => some (encodeF 0x01#8 w)
  | .iaddI w => some (encodeI 0x03#6 w)
  | .isub w => some (encodeF 0x02#8 w)
  | .iaddx w => some (encodeF 0x03#8 w)
  | .imul w => some (encodeF 0x04#8 w)
  | .imulI w => some (encodeI 0x04#6 w)
  | .imulh w => some (encodeF 0x05#8 w)
  | .imad w => some (encodeF 0x06#8 w)
  | .imadw w => some (encodeF 0x07#8 w)
  | .idiv w => some (encodeF 0x08#8 w)
  | .irem w => some (encodeF 0x09#8 w)
  | .imin w => some (encodeF 0x0a#8 w)
  | .imax w => some (encodeF 0x0b#8 w)
  | .iabs w => some (encodeF 0x0c#8 w)
  | .ineg w => some (encodeF 0x0d#8 w)
  | .iclamp w => some (encodeF 0x0e#8 w)
  | .lea w => some (encodeF 0x10#8 w)
  | .add64 w => some (encodeF 0x11#8 w)
  | .add64I w => some (encodeI 0x0b#6 w)
  | .sub64 w => some (encodeF 0x12#8 w)
  | .mov w => some (encodeF 0x13#8 w)
  | .movi w => some (encodeI 0x01#6 w)
  | .movhi w => some (encodeI 0x02#6 w)
  | .sel w => some (encodeF 0x14#8 w)
  | .andB w => some (encodeF 0x20#8 w)
  | .andBI w => some (encodeI 0x05#6 w)
  | .orB w => some (encodeF 0x21#8 w)
  | .orBI w => some (encodeI 0x06#6 w)
  | .xorB w => some (encodeF 0x22#8 w)
  | .xorBI w => some (encodeI 0x07#6 w)
  | .andnB w => some (encodeF 0x23#8 w)
  | .lop3 w => some (encodeF 0x24#8 w)
  | .shl w => some (encodeF 0x25#8 w)
  | .shlI w => some (encodeI 0x08#6 w)
  | .shr w => some (encodeF 0x26#8 w)
  | .shrI w => some (encodeI 0x09#6 w)
  | .shra w => some (encodeF 0x27#8 w)
  | .shraI w => some (encodeI 0x0a#6 w)
  | .rot w => some (encodeF 0x28#8 w)
  | .fshf w => some (encodeF 0x29#8 w)
  | .bfx w => some (encodeF 0x2a#8 w)
  | .bfi w => some (encodeF 0x2b#8 w)
  | .popc w => some (encodeF 0x2c#8 w)
  | .clz w => some (encodeF 0x2d#8 w)
  | .brev w => some (encodeF 0x2e#8 w)
  | .bperm w => some (encodeF 0x2f#8 w)
  | .icmp w => some (encodeF 0x30#8 w)
  | .icmpi w => some (encodeI 0x0c#6 w)
  | .plop w => some (encodeF 0x31#8 w)
  | .pmovr w => some (encodeF 0x32#8 w)
  | .pmovp w => some (encodeF 0x33#8 w)
  | .bra w => some (encodeI 0x10#6 w)
  | .bri w => some (encodeF 0x40#8 w)
  | .loop w => some (encodeI 0x12#6 w)
  | .call w => some (encodeI 0x11#6 w)
  | .calli w => some (encodeF 0x41#8 w)
  | .ret w => some (encodeF 0x42#8 w)
  | .quit w => some (encodeF 0x48#8 w)
  | .fork w => some (encodeF 0x49#8 w)
  | .gather w => some (encodeF 0x4a#8 w)
  | .unpin w => some (encodeF 0x4b#8 w)
  | .yield w => some (encodeF 0x4c#8 w)
  | .sleep w => some (encodeI 0x13#6 w)
  | .nop w => some (encodeF 0x4d#8 w)
  | .pair w => some (encodeP w)
  | .fadd w => some (encodeF 0x60#8 w)
  | .faddI w => some (encodeI 0x18#6 w)
  | .fsub w => some (encodeF 0x61#8 w)
  | .fmul w => some (encodeF 0x62#8 w)
  | .fmulI w => some (encodeI 0x19#6 w)
  | .fma w => some (encodeF 0x63#8 w)
  | .fmin w => some (encodeF 0x64#8 w)
  | .fmax w => some (encodeF 0x65#8 w)
  | .fcmp w => some (encodeF 0x66#8 w)
  | .fclass w => some (encodeF 0x67#8 w)
  | .frnd w => some (encodeF 0x68#8 w)
  | .fscale w => some (encodeF 0x69#8 w)
  | .fcvt w => some (encodeF 0x70#8 w)
  | .fpack2 w => some (encodeF 0x71#8 w)
  | .funpk2 w => some (encodeF 0x72#8 w)
  | .fma2 w => some (encodeF 0x73#8 w)
  | .fadd2 w => some (encodeF 0x74#8 w)
  | .fmul2 w => some (encodeF 0x75#8 w)
  | .fdot2 w => some (encodeF 0x76#8 w)
  | .idot4 w => some (encodeF 0x77#8 w)
  | .frcp w => some (encodeF 0x80#8 w)
  | .frsq w => some (encodeF 0x81#8 w)
  | .fsqrt w => some (encodeF 0x82#8 w)
  | .fex2 w => some (encodeF 0x83#8 w)
  | .flg2 w => some (encodeF 0x84#8 w)
  | .fsin w => some (encodeF 0x85#8 w)
  | .fcos w => some (encodeF 0x86#8 w)
  | .ftanh w => some (encodeF 0x87#8 w)
  | .fpxrd w => some (encodeF 0x88#8 w)
  | .fpxset w => some (encodeF 0x89#8 w)
  | .shfl w => some (encodeF 0x90#8 w)
  | .vote w => some (encodeF 0x91#8 w)
  | .redl w => some (encodeF 0x92#8 w)
  | .scanl w => some (encodeF 0x93#8 w)
  | .matchL w => some (encodeF 0x94#8 w)
  | .ld w => some (encodeF 0xa0#8 w)
  | .st w => some (encodeF 0xa1#8 w)
  | .ldl w => some (encodeF 0xa2#8 w)
  | .stl w => some (encodeF 0xa3#8 w)
  | .ldsp w => some (encodeF 0xa4#8 w)
  | .stsp w => some (encodeF 0xa5#8 w)
  | .lda w => some (encodeF 0xa6#8 w)
  | .strel w => some (encodeF 0xa7#8 w)
  | .atom w => some (encodeF 0xa8#8 w)
  | .red w => some (encodeF 0xa9#8 w)
  | .fence w => some (encodeF 0xaa#8 w)
  | .pref w => some (encodeF 0xab#8 w)
  | .barinit w => some (encodeF 0xb0#8 w)
  | .bararr w => some (encodeF 0xb1#8 w)
  | .barwait w => some (encodeF 0xb2#8 w)
  | .barsync w => some (encodeF 0xb3#8 w)
  | .barexp w => some (encodeF 0xb4#8 w)
  | .barq w => some (encodeF 0xb5#8 w)
  | .cbinit w => some (encodeF 0xb8#8 w)
  | .cbacq w => some (encodeF 0xb9#8 w)
  | .cbrel w => some (encodeF 0xba#8 w)
  | .cbput w => some (encodeF 0xbb#8 w)
  | .cbq w => some (encodeF 0xbc#8 w)
  | .tlwait w => some (encodeF 0xc0#8 w)
  | .tlq w => some (encodeF 0xc1#8 w)
  | .freeze w => some (encodeF 0xc2#8 w)
  | .freezeL w => some (encodeF 0xc2#8 w)
  | .shape w => some (encodeF 0xc3#8 w)
  | .shapeg w => some (encodeF 0xc4#8 w)
  | .xacq w => some (encodeF 0xc5#8 w)
  | .xrel w => some (encodeF 0xc6#8 w)
  | .accgrow w => some (encodeF 0xc7#8 w)
  | .accfree w => some (encodeF 0xc8#8 w)
  | .wload w => some (encodeF 0xd0#8 w)
  | .wswap w => some (encodeF 0xd1#8 w)
  | .wtab w => some (encodeF 0xd2#8 w)
  | .wwait w => some (encodeF 0xd3#8 w)
  | .mmq w => some (encodeF 0xd4#8 w)
  | .accz w => some (encodeF 0xd5#8 w)
  | .accrd w => some (encodeF 0xd6#8 w)
  | .accwr w => some (encodeF 0xd7#8 w)
  | .drain w => some (encodeF 0xd8#8 w)
  | .drainst w => some (encodeF 0xd9#8 w)
  | .wstat w => some (encodeF 0xda#8 w)
  | .wbmap w => some (encodeF 0xdb#8 w)
  | .fluesub w => some (encodeF 0xe0#8 w)
  | .fluesubRst w => some (encodeF 0xe0#8 w)
  | .evsig w => some (encodeF 0xe1#8 w)
  | .evsigI w => some (encodeI 0x20#6 w)
  | .evsigClr w => some (encodeF 0xe1#8 w)
  | .evwait w => some (encodeF 0xe2#8 w)
  | .evwaitI w => some (encodeI 0x21#6 w)
  | .evq w => some (encodeF 0xe3#8 w)
  | .spawn w => some (encodeF 0xe4#8 w)
  | .tladv w => some (encodeF 0xe5#8 w)
  | .fillarg w => some (encodeF 0xe6#8 w)
  | .fillput w => some (encodeF 0xe7#8 w)
  | .filldone w => some (encodeF 0xe8#8 w)
  | .fillfail w => some (encodeF 0xe9#8 w)
  | .geninv w => some (encodeF 0xea#8 w)
  | .cutsel w => some (encodeF 0xeb#8 w)
  | .cutselRst w => some (encodeF 0xeb#8 w)
  | .rayq w => some (encodeF 0xec#8 w)
  | .rayrd w => some (encodeF 0xed#8 w)
  | .sysrd w => some (encodeF 0xf0#8 w)
  | .csrrd w => some (encodeF 0xf1#8 w)
  | .csrwr w => some (encodeF 0xf2#8 w)
  | .csrswp w => some (encodeF 0xf3#8 w)
  | .trap w => some (encodeF 0xf4#8 w)
  | .bkpt w => some (encodeF 0xf6#8 w)
  | .tret w => some (encodeF 0xf5#8 w)
  | .clock w => some (encodeF 0xf7#8 w)
  | .perfrd w => some (encodeF 0xf8#8 w)
  | .pgbump w => some (encodeF 0xf9#8 w)
  | .pgnew w => some (encodeF 0xfa#8 w)
  | .tlbepoch w => some (encodeF 0xfb#8 w)
  | .halt w => some (encodeF 0xfc#8 w)
  | .wsremap w => some (encodeF 0xfd#8 w)
  | .monctlCfg w => some (encodeF 0xfe#8 w)
  | .monctlClr w => some (encodeF 0xfe#8 w)
  | .monctlRd w => some (encodeF 0xfe#8 w)
  | .batchMerge _ _ => none
  | .parkResume _ => none
  | .xsetReacquire _ => none
  | .sleepEnd _ => none
  | .trapEntry _ => none
  | .watchdog _ => none
  | .wloadComplete _ => none
  | .wtabTableArrival _ _ => none
  | .planeExchange _ => none
  | .passClose _ => none
  | .passComplete _ => none
  | .preemptCluster _ => none
  | .clusterRestore => none
  | .clusterPlace => none
  | .classAging _ => none
  | .slabConvert _ => none
  | .slabReturn _ => none
  | .triggerWrite _ => none
  | .graphRunStart _ => none
  | .nodeStart _ _ => none
  | .nodeSubmitDeferred _ _ => none
  | .nodeComplete _ _ => none
  | .pipelineReassign _ _ => none
  | .nodeWaitRetry _ _ => none
  | .flueStream _ => none
  | .flueCopy _ => none
  | .flueGatherrows _ => none
  | .flueStore _ => none
  | .flueFillv _ => none
  | .flueLoop _ => none
  | .flueEndloop _ => none
  | .flueTlwait _ => none
  | .flueTladv _ => none
  | .flueEvsig _ => none
  | .flueBararr _ => none
  | .flueEnd _ => none
  | .flueCmdInvalid _ => none
  | .flueWindowDelivery _ => none
  | .flueContextResume _ => none
  | .cutRun _ => none
  | .fillPlace _ _ => none
  | .fillArrayBorrow _ => none
  | .fillTimeout _ => none
  | .genEntrySubmit _ _ => none
  | .genEntryInvalidate _ _ => none
  | .victimStoreConfig _ _ => none
  | .lineWriteback _ _ => none
  | .remapStepEnd _ => none
  | .bankRetire _ _ => none
  | .engineGate _ => none
  | .engineWake _ => none
  | .thermalTrip => none
  | .ctxHalt _ => none
  | .ctxHalted _ => none
  | .ctxFreed _ => none
  | .deviceReset => none
  | .powerLoss => none
  | .nonInstructionEncoding w => some w
  | .recordLineArrival _ => none
  | .padFail _ _ => none
  | .powerInterval _ => none
  | .ctxCreate _ => none
  | .ctxResume _ => none
  | .ctxDestroy _ => none
  | .ctxTlset _ _ => none
  | .ctxCmdInvalid _ _ => none
  | .cmderrClear _ => none
  | .registerWrite _ _ => none
  | .hostMemAccess _ => none
  | .peerAccess _ => none
  | .linkFail _ => none
  | .vblank _ => none
  | .dpLinkTrain _ _ _ _ => none
  | .attgo => none
  | .firmwareImage _ => none
  | .linkRetry _ _ => none
  | .hpdChange _ _ => none

/-- The bytes of an instruction as they stand in memory. -/
def encodeBytes (i : Instr) : List Byte := ((encode i).map wordBytes).getD []

end Sys2Proof
end

