-- ==== Sys2Proof/Machine/State.lean ====
section
/-! DEFINITION. The state of the whole device as plain data: cores, batches, crews, clusters, contexts, engines,
memory at its homes, and the device's registers. Each field names the rule of the spec that gives it.
INVENTORY.md lists them with their reset values. -/
namespace Sys2Proof.Machine
open Sys2Proof

/-- A 54-bit virtual address (R64). -/
abbrev VA := BitVec 54

/-- The cause codes of Table 20-1 (R454) by name. -/
inductive Cause where
  | illOpcode | illForm | illField | illPair | priv | regRange | regWindow | xsetState | shape | shapeQuarter
  | xlaneUnpinned | xlaneDiverge | softTrap | breakpoint | fpx
  | pageAbsent | permRead | permWrite | permExec | align | attrSpan | genWrite | xformAtomic | checkedRace
  | checkedHistory | scratchRange | clusterAddr
  | barConfig | barOverflow | cbConfig | cbOrder | mcastOutside | tmrReserved | tmrRange | flueCmd | tlContext
  | evOverflow | evRange | cutDesc | rayNode
  | wFormat | wMeta | wtabMissing | accRange | drainFormat
  | fillNest | fillFailed | fillWait | fillTimeout | templateOverflow | freezeState | watchdog
  | eccUeReg | eccUeScratch | eccUeAcc | eccUeLine | eccUeWstack | linkFatal | thermalTrip | wstackRemap
deriving DecidableEq, Repr

/-- A register's shape tag with its value (Table 02-1, R41). A `t` register reads the Kiln image it names. -/
inductive RegVal where
  | u (v : W32)
  | a (base stride : W32)
  | g (lanes : List W32)
  | t (img : Nat)
deriving DecidableEq, Repr, Inhabited

/-- What a fibre carries beside its registers: PW (R39), WID (R246), the innermost template image it was stamped
from (R257, R258), and whether it is a kindling fibre (R256) or was made by FORK (R119). -/
structure Fibre where
  pw : W32 := 0
  wid : W64 := 0
  img : Option Nat := none
  kindling : Bool := false
  forked : Bool := false
deriving DecidableEq, Repr, Inhabited

/-- A leaf PTE with the VA and size of its page (R431). -/
structure Leaf where
  e : W64
  page : Nat
  size : Nat
deriving DecidableEq, Repr

/-- Where one lane's access lands. A GEN line is named with the bytes that serve it (R382). -/
inductive Loc where
  | scratch (crew off : Nat)
  | mem (pa : Nat) (leaf : Leaf) (fl : Option Nat)
  | checked (pa : Nat) (leaf : Leaf)
  | gen (va : Nat) (leaf : Leaf) (line : List Byte)
  | xform (va : Nat) (leaf : Leaf)
deriving DecidableEq, Repr

/-- One access of an outstanding load, which may still be performed later than its word issued (R318): the number of its
result in the return buffer, the lanes that it serves (all of them for a uniform load), its size code and bytes, the first
of the result's registers that it gives, and its place. -/
structure LoadSrc where
  entry : Nat
  lanes : List Nat
  code : Nat
  bytes : Nat
  reg : Nat
  loc : Loc
deriving DecidableEq, Repr

/-- One store that a word has issued and that is still to be performed (R318): the lanes that make it (all of them for a store of
the word, R216), bytes and colours, and its place. -/
structure StoreSrc where
  lanes : List Nat
  data : List Byte
  colour : Nat
  loc : Loc
  /-- when its word issued -/
  since : Nat
  /-- the number of an MMQ whose quarters read their activations here in the order (R209, R318); it stores nothing -/
  reads : Option Nat := none
deriving DecidableEq, Repr

/-- The FP flags that a word raises, by lane (R149, R150). -/
abbrev LaneFlags := List (Nat × W32)

/-- One word of the forwarding window (R58, R59): the absolute names it wrote (512 + n for k_n), with the value
of an ephemeral result, or none for a result that its register also holds. -/
abbrev WinEntry := List (Nat × Option RegVal)

/-- One entry of the return buffer (R60): a word's register results for the lanes of `mask` with its FP flags
(R150), or the change of SHAPEG (R182). -/
inductive Pending where
  | result (mask : W32) (vals : List (Nat × RegVal)) (flags : LaneFlags)
  | toGeneral (name : Nat)
deriving DecidableEq, Repr

/-- States of a fill record (Table 17-4). -/
inductive FillState where
  | queued | running | failed
deriving DecidableEq, Repr

/-- A fill record (R384, R386): its key (context, generator, unit VA, depth), the generation it fills, its class,
what it ended with, the lines put so far (by number in the unit), and the core, crew and start of its task. A FREE
record is not listed. -/
structure Fill where
  id : Nat
  state : FillState
  ctx : Nat
  gen : Nat
  unit : Nat
  /-- the bytes of its unit, by the entry's UNIT at its creation -/
  bytes : Nat := 4096
  /-- the index of the unit's first byte (R379), which FILLARG rounds down to the unit size (R395) -/
  idx : Nat
  depth : Nat
  ggen : Nat
  cls : Nat
  stale : Bool := false
  cause : Nat := 0xFF
  code : Nat := 0
  put : List (Nat × List Byte) := []
  core : Nat := 0
  crew : Nat := 0
  born : Nat := 0
  start : Nat := 0
deriving DecidableEq, Repr

/-- A GEN line that an access is parked on (R382, R384): the line's VA and leaf, the record, and what came of it: the
bytes that FILLDONE installed, or the record as it failed. -/
structure ParkLine where
  ctx : Nat
  line : Nat
  leaf : Leaf
  record : Option Nat
  bytes : Option (List Byte) := none
  failed : Option Fill := none
deriving DecidableEq, Repr

/-- A barrier (Table 06-5, R167). `arrived` is the arrival set; PEND is an integer. -/
structure Barrier where
  phase : W32 := 0
  arr : Nat := 0
  exp : Nat := 0
  mcdrop : Bool := false
  fault : Bool := false
  pend : Int := 0
  fcause : Nat := 0
  arrived : List Nat := []
  /-- the Flue context that set FAULT while it still holds the cause (R460) -/
  faultBy : Option Nat := none
deriving DecidableEq, Repr, Inhabited

/-- What a blocked word waits for (R165, R464). -/
inductive Block where
  /-- `sync` for BARSYNC, whose pre-empted wait restarts at its own word (R166); the barrier as it stood when it woke the
  batch: its phase had completed, or it had FAULT (R169, R171) -/
  | barrier (b : Nat) (phase : W32) (sync : Bool) (woken : Option Barrier)
  | buffer (cb n : Nat) (producer : Bool)
  | timeline (tl : Nat) (v : Nat)
  | event (id : Nat) (woken : Bool)
  | xset
  | gather (idx : Nat) (mask : W32)
  | fills (recs : List Nat) (lanes : W32)
  | home (line gen : Nat)
  /-- the fetch of the word itself waits at the home; the word has not issued -/
  | fetch (line gen : Nat)
  /-- a LOADING plane, and whether the word is WWAIT (R203) -/
  | plane (p : Nat) (wwait : Bool)
  | tiles (ts : List Nat)
  | swap
  /-- the array: 0 a load in progress, 1 lent to a fill, 2 passes before a borrow, 3 room for quarters -/
  | array (k : Nat)
  /-- the remap step of a column (R244) -/
  | remap (col : Nat)
deriving DecidableEq, Repr

/-- A raised cause with all that trap entry writes (Table 20-2). -/
structure TrapInfo where
  cause : Cause
  lanes : W32 := 0
  kind : Nat := 0
  code : Nat := 0
  addr : Nat := 0
  src : Nat := 0
  sidx : Nat := 0
  scause : Nat := 0
  sdepth : Nat := 0
  rpc : VA := 0
  word : W64 := 0
  /-- the weight-stack words (PA div 8) whose uncorrectable errors the word met (R485) -/
  words : List Nat := []
deriving DecidableEq, Repr

/-- A resident batch: a part of a slot (R111, R251). -/
structure Batch where
  id : Nat
  core : Nat
  slot : Nat
  crew : Nat
  row : Nat
  ctx : Nat
  /-- the live lanes, each with its fibre (R41, R251) -/
  fibres : List (Nat × Fibre)
  wb : Nat
  pc : VA
  /-- the base set (R47) -/
  regs : List RegVal
  /-- k0 to k31 (R40) -/
  kregs : List RegVal
  priv : Bool
  pin : Option Nat
  /-- the first word of the current region and whether the next word begins one (R259) -/
  regionStart : VA
  newRegion : Bool
  gatherAt : Option VA
  /-- newest first, at most 8 (R58) -/
  window : List WinEntry
  /-- oldest first, at most 16 (R60) -/
  retbuf : List Pending
  parked : Bool
  parkedAt : Nat
  block : Option Block
  blockedAt : Nat
  trap : Option TrapInfo
  wake : Nat
  lastIssue : Nat
  /-- the batch's extended set was evicted and must be re-acquired before its next word (R50) -/
  reacquire : Bool
  /-- whether it holds its pair's extended set (R49, R183), and its own values and tags of that set: a part has its own
  scalar table (R111) -/
  xheld : Bool := false
  xregs : List RegVal := []
  /-- the word that blocks (R465) -/
  word : W64 := 0
  /-- restored and not issued since: R53's check of WB is still to be made -/
  restored : Bool := false
  /-- when it issued its previous word; `lastIssue` is what R55 compares, which YIELD moves -/
  issued : Option Nat := none
  /-- how many of the first results of the return buffer are those of a closing word, which has taken effect (R163, R262) -/
  owed : Nat := 0
  /-- the accesses of outstanding loads that may still be performed (R318) -/
  loads : List LoadSrc := []
  /-- the stores that its words issued and that are still to be performed, oldest first, and whether the hardware holds its
  further stores so (R318) -/
  stores : List StoreSrc := []
  late : Bool := false
  /-- how many of the first of them are words' of a region before the current one (R259, R262) -/
  storesOwed : Nat := 0
  /-- the GEN lines that its word is parked on (R384) -/
  fillWait : List ParkLine := []
  /-- words fetched ahead of issue, by VA (R495) -/
  ahead : List (Nat × W64) := []
deriving DecidableEq, Repr, Inhabited

/-- The extended set of a pair (R48 to R50, R183). `holder` and `evicted` are slots; `waiters` are batch ids. A holder's
batches have the values; `regs` is what the last release left. -/
structure XSet where
  crew : Nat
  core : Nat
  pair : Nat
  regs : List RegVal
  holder : Option Nat
  evicted : Option Nat
  /-- the slot that held the set last (R49) -/
  last : Option Nat
  waiters : List Nat
deriving DecidableEq, Repr, Inhabited

/-- A circular buffer (Tables 06-6 and 06-7, R174, R175). -/
structure CBuf where
  base : Nat := 0
  depth : Nat := 0
  slot : Nat := 0
  /-- the BAR field that CBINIT configured, and the barrier that it binds -/
  bar : Nat := 0
  bind : Option Nat := none
  free : Nat := 0
  filled : Nat := 0
  rh : Nat := 0
  ph : Nat := 0
  init : Bool := false
  /-- the Flue context that feeds it -/
  flue : Option Nat := none
  pidx : Nat := 0
  ridx : Nat := 0
deriving DecidableEq, Repr, Inhabited

/-- An accumulator tile (R210, R283): committed and pending planes, sparse with default +0; `owner` is the batch
whose work is pending (R212). -/
structure Tile where
  com : List (Nat × W32) := []
  pend : List (Nat × W32) := []
  owner : Option Nat := none
deriving DecidableEq, Repr, Inhabited

/-- A member of a nested template that waits to be stamped (R258). -/
structure Waiting where
  fibre : Nat
  wid : W64
  level : Nat
  img : Nat
  /-- since when it waits (R265) -/
  since : Nat := 0
deriving DecidableEq, Repr

/-- A crew (R247, R249). The launch header is held as its words L0 to L31 (R360). -/
structure Crew where
  uid : Nat
  id : Nat
  ctx : Nat
  cluster : Nat
  rank : Nat
  core : Nat
  hdr : List W64
  epoch : Nat := 0
  hist : List (Nat × Nat) := []
  histOvf : Bool := false
  slots : List Nat := []
  granules : List Nat := []
  scratchBytes : Nat := 0
  scratch : List Host.Cell := []
  tiles : List Tile := []
  barriers : List Barrier := []
  cbs : List CBuf := []
  fpStat : W32 := 0
  drainStat : W32 := 0
  counters : List (Nat × Nat) := []
  flSlot : Nat := 0
  waiting : List Waiting := []
  /-- how many of them its save area holds (R258, R445) -/
  areaW : Nat := 0
  /-- the fill record of a fill task (R388) -/
  fill : Option Nat := none
  /-- the items of a pipeline crew (R372) -/
  items : Option (Nat × Nat) := none
  /-- the kernel-launch values of the crew's first fibre index: its WID fields at and above the crew level -/
  wid0 : W64 := 0
deriving DecidableEq, Repr, Inhabited

/-- A held cause with the fill record's part of the trap registers: cause, CODE, SCAUSE, SDEPTH (R197, R460). -/
structure Held where
  cause : Cause
  code : Nat := 0
  scause : Nat := 0
  sdepth : Nat := 0
deriving DecidableEq, Repr

/-- A weight plane (Tables 07-2, 07-8 and 07-9, R189, R190): the latched fields, the record it holds and the tables
of its columns, and what a reload needs (R222). -/
structure Plane where
  state : Nat := 0
  fmt : Nat := 0
  kseg : Nat := 0
  ncols : Nat := 0
  cgrp : Nat := 0
  path : Nat := 0
  ratio4 : Bool := false
  stall : Nat := 0
  held : Option Held := none
  recVA : Nat := 0
  ctx : Nat := 0
  bytes : List Byte := []
  tables : List (List Byte) := []
  tabList : List Nat := []
deriving DecidableEq, Repr, Inhabited

/-- A table requested by WTAB (R199, R200): its address, and the 32-byte block once it has been read. -/
structure WTabReq where
  va : Nat
  block : Option (List Byte)
  arrived : Bool
  /-- when it arrived -/
  at_ : Nat := 0
deriving DecidableEq, Repr

/-- A load in progress into a plane, 0 wA or 1 wS (R195 to R201, R222). -/
structure WLoad where
  target : Nat
  /-- the loader: crew and launch row -/
  loader : Option (Nat × Nat)
  ctx : Nat
  depth : Nat
  cls : Nat
  recVA : Nat
  /-- lines read so far; how many the record has, once its header is decoded -/
  lines : List (List Byte) := []
  /-- when each of them arrived (R200) -/
  lineAt : List Nat := []
  total : Option Nat := none
  horizontal : Bool := false
  ratio4 : Bool := false
  tables : List WTabReq := []
  /-- the stall ac at the fault that ended its reads (R197, R200) -/
  stall : Nat := 0
  held : Option Held := none
  /-- a reload at a restore, where a bad page-table read is fatal (R432, R461) -/
  atRestore : Bool := false
  /-- a reload at restore or at a fill's end: no batch of the cluster issues on the core before it ends -/
  reload : Bool := false
  fillWait : List ParkLine := []
deriving DecidableEq, Repr

/-- A quarter of a pass with its operands (R205 to R208): the activation rows as raw codes of their format by logical
row, and the plane as the quarter found it. -/
structure Quarter where
  batch : Nat
  crew : Nat
  tile : Nat
  zero : Bool
  fmt : Nat
  rows : List (List (Nat × W32))
  weights : Plane
  /-- the number of its MMQ while its activations are still to be read (R318), and where: by row, logical row and scratch
  offset -/
  reads : Option Nat := none
  places : List (List (Nat × Nat)) := []
deriving DecidableEq, Repr

/-- A pass of the array (R208): the plane it names, when it opened, and whether it has closed. -/
structure Pass where
  plane : Nat
  opened : Nat
  closed : Bool
  quarters : List Quarter
deriving DecidableEq, Repr

/-- An L1 line (R272, R324, R327, R329); masks of dirty bytes and colours are numbers. -/
structure L1Line where
  cls : Nat
  ros : Bool
  gen : Nat
  stale : Bool
  pgen : Nat
  dirty : Nat
  colours : Nat
  bytes : List Byte
  fl : Option Nat
  /-- the context and crew of its last store, which lose what a lost line loses (R448, R462) -/
  owner : Nat × Nat
  /-- when it first became dirty (R331) -/
  since : Nat := 0
deriving DecidableEq, Repr, Inhabited

/-- A translation: a leaf PTE and the virtual page it maps (R431, R434). -/
structure TlbEntry where
  ctx : Nat
  page : Nat
  size : Nat
  leaf : W64
  epoch : Nat
deriving DecidableEq, Repr

/-- A cached table entry of a walk (R434): its context, level and the VA's index down to that level, the entry, and the
context's TLB epoch at the walk. -/
structure PteEntry where
  ctx : Nat
  lvl : Nat
  idx : Nat
  e : W64
  epoch : Nat
deriving DecidableEq, Repr

/-- A core (R1). -/
structure Core where
  l1 : List (Nat × L1Line) := []
  genClus : Nat := 0
  genDev : Nat := 0
  genSys : Nat := 0
  utlb : List TlbEntry := []
  /-- the cached table entries of its walks (R434) -/
  ptes : List PteEntry := []
  scratchSlabs : Nat := 0
  half30 : Bool := false
  half31 : Bool := false
  array : Option Nat := none
  planeA : Plane := {}
  planeS : Plane := {}
  load : Option WLoad := none
  /-- an exchange that waits for the passes before it (R202) -/
  swap : Bool := false
  /-- planes still to be reloaded, by plane (R222), and the planes lent to a fill (R390) -/
  reloads : List (Nat × WLoad) := []
  lent : Option (Plane × Plane × Option WLoad) := none
  /-- the lent planes are those of a cluster restored meanwhile: its batches issue once they have been reloaded (R222) -/
  lentRestored : Bool := false
  passes : List Pass := []
  borrow : Option Nat := none
  quadLast : List (Nat × Nat) := []
  quadHold : List (Nat × Nat) := []
  cec : Nat := 0
  uec : Nat := 0
deriving DecidableEq, Repr, Inhabited

/-- A frozen template (R255, R258): register values, PW, WB, resume PC, scratch image, level, and for a nested
template the level s', the image it leaves and the leader's WID. -/
structure Image where
  regs : List W32
  pw : W32
  wb : Nat
  pc : VA
  scratch : List Byte
  offset : Nat
  level : Nat
  seed : Nat
  parent : Option Nat
  wid : W64
  crew : Nat
  ctx : Nat
  node : Nat
  bytes : Nat
deriving DecidableEq, Repr, Inhabited

/-- A timeline context of a context (R442): kind 1 software, 2 Flue, 3 Splitter. -/
structure Timeline where
  kind : Nat
  scope : Nat
  engine : Nat
  count : Nat
deriving DecidableEq, Repr

/-- Context slot states (Table 19-4). -/
inductive CtxState where
  | free | resident | halting | halted | destroying
deriving DecidableEq, Repr

/-- A queued trigger (R366): the register's word, the level and WID that SPAWN gave it (R237), and whether its graph
named a REALTIME kernel node when it was queued. -/
structure Trigger where
  word : W64
  level : Nat
  wid : W64
  realtime : Bool
  /-- its run has begun: the graph is RUNNING while the patch list is read (R367) -/
  begun : Bool := false
deriving DecidableEq, Repr

/-- A context slot (R440, R228, R441). -/
structure Context where
  state : CtxState := .free
  cmderr : Bool := false
  /-- the last value written to CMD (Table 19-6) -/
  cmd : W64 := 0
  recPA : Nat := 0
  tvec : W64 := 0
  ptroot : W64 := 0
  tlbep : Nat := 0
  evrange : W32 := 0
  evovfb : W64 := 0
  evovfn : Nat := 0
  wdog : W32 := 0
  dbgctl : W32 := 0
  sys : Bool := false
  savepa : Nat := 0
  nsave : Nat := 0
  savesz : Nat := 0
  timelines : List (Nat × Timeline) := []
  trigQ : List Trigger := []
  /-- save slots and fibre-local slots that clusters and crews hold (R443, R281) -/
  saveHeld : List Nat := []
  flHeld : List Nat := []
  nextCrew : Nat := 1
  /-- overflow entries held (R370) -/
  ovfHeld : Nat := 0
deriving DecidableEq, Repr, Inhabited

/-- Cluster states: waiting for placement, resident, leaving (a save is under way), saved. -/
inductive ClState where
  | waiting | resident | saved
deriving DecidableEq, Repr

/-- A cluster (R247, R249, R373 to R376, R443). A saved cluster holds the device's own copy of what its save area
mirrors (R445). -/
structure Cluster where
  id : Nat
  ctx : Nat
  /-- the run that it belongs to, and its node's index (R367) -/
  run : Nat
  node : Nat
  /-- its number among the node's clusters: the mixed-radix value of the fields at and above the cluster level -/
  index : Nat
  hdr : List W64
  cls : Nat
  /-- its effective class while it waits (R375) -/
  eff : Nat
  state : ClState
  /-- when it began to wait (R375) -/
  age : Nat
  /-- the compute cluster it stands on, 0 to 15 -/
  cc : Nat
  saveSlot : Nat
  saves : Nat
  kindling : Bool
  /-- the images its crews are stamped from, by rank (R257) -/
  stampFrom : List (Nat × Nat)
  liveCrews : Nat
  savedCrews : List Crew
  savedBatches : List Batch
  savedSets : List XSet
  /-- by core rank: wA, wS and a load in progress with its loader's rank and row (R222, Table 07-9) -/
  savedPlanes : List (Nat × (Plane × Plane × Option WLoad))
  /-- what the scratch of a fragment crew holds at its admission (R419) -/
  init : List Byte := []
  /-- the ranks of the crews that were placed (R257, R308) -/
  ranks : List Nat := []
deriving DecidableEq, Repr

/-- A release record (R333). -/
structure RelRec where
  core : Nat
  mask : Nat
  scope : Nat
deriving DecidableEq, Repr

/-- The last writer of a word of a CHECKED page (R341). -/
structure Writer where
  crew : Nat
  epoch : Nat
  atomic : Bool
deriving DecidableEq, Repr

/-- The stamp of a synchronisation location of `bytes` bytes, or of an event (R342). `fresh` says that the home of the location
holds the value of the release that last replaced or merged the stamp, or of an atomic that followed it; `core` and `cc` are
the core and cluster of that release, `scope` its scope. -/
structure Stamp where
  bytes : Nat
  pairs : List (Nat × Nat)
  ovf : Bool
  fresh : Bool
  scope : Nat
  core : Nat
  cc : Nat
  /-- the cores whose L1 copy of the location holds such a value -/
  copies : List Nat := []
deriving DecidableEq, Repr

/-- A generated line in the LLC (R382) or in the victim store (R383). -/
structure GenLine where
  ctx : Nat
  va : Nat
  gen : Nat
  ggen : Nat
  bytes : List Byte
deriving DecidableEq, Repr

/-- An open loop of a command list (R299): its first command, COUNT, STEP and the iteration. -/
structure LoopLevel where
  start : Nat
  count : Nat
  step : Nat
  iter : Nat
deriving DecidableEq, Repr

/-- A queued command list (R292, R294, R365): address, command count, the reference crew with its cluster and the
ranks of the crews of that cluster, and the Flue-list node that submitted it. -/
structure FlueList where
  va : Nat
  count : Nat
  crew : Option (Nat × Nat × List Nat)
  node : Option (Nat × Nat)
  /-- the barriers of the reference crew, which stay its count once it has exited (R292, R297) -/
  bars : Nat := 0
deriving DecidableEq, Repr

/-- The progress of a data command that takes several turns (R290): its words, FIRST with the loops' additions, the
windows, bytes or elements done and how many there are, its TMR, and the crews that are its targets. -/
structure FlueWork where
  words : List W64
  first : Nat
  at_ : Nat
  total : Nat
  tmr : List W64
  targets : List Nat
deriving DecidableEq, Repr

/-- A Flue context (R288, R289). State: 0 IDLE, 1 RUNNING, 2 BLOCKED, 3 STOPPED, 4 SUSPENDED. The head of `queue` is
the running list, `pos` its next command. -/
structure FlueCtx where
  ctx : Nat
  tl : Nat
  engine : Nat
  state : Nat := 0
  queue : List FlueList := []
  pos : Nat := 0
  loops : List LoopLevel := []
  work : Option FlueWork := none
  cause : Option Held := none
  causeAddr : Nat := 0
  /-- the barrier of a blocked BARARR (R313) -/
  binds : List (Nat × Nat) := []
  fillWait : List ParkLine := []
deriving DecidableEq, Repr, Inhabited

/-- A queued descriptor: its VA, or the words of a CUTSEL node with the node (R409). -/
structure SplitJob where
  va : Nat
  node : Option (Nat × Nat × List W64)
deriving DecidableEq, Repr

/-- A Splitter context (R406). State: 0 IDLE, 1 RUNNING, 2 waiting for a fill or a home, 3 STOPPED. The head of `queue`
is the running descriptor. -/
structure SplitCtx where
  ctx : Nat
  tl : Nat
  engine : Nat
  state : Nat := 0
  queue : List SplitJob := []
  cause : Option Held := none
  causeAddr : Nat := 0
  fillWait : List ParkLine := []
  /-- the input bytes that the run has read, each once (R416), and how many records it has written (R415) -/
  seen : List Host.Cell := []
  wrote : Nat := 0
deriving DecidableEq, Repr, Inhabited

/-- States of a node in a running graph (R368). -/
inductive NodeState where
  | pending | waiting | deferred | running | done
deriving DecidableEq, Repr

/-- A pipeline node's run (R371, R372): the stage headers with their VAs, queue shapes (Z, D), the items, and the
three counts of each queue; claimed, produced and freed of queue j count items of stage j. -/
structure Pipe where
  items : Nat
  stages : List (List W64)
  shapes : List (Nat × Nat)
  claimed : List Nat
  produced : List Nat
  freed : List Nat
  /-- the stage crews that have not exited: stage and first item (R373) -/
  busy : List (Nat × Nat) := []
deriving DecidableEq, Repr

/-- A CLUSTERDRAW node's run (R418, R419): how many output records are not yet drawn and where the next one lies, the
triangles of the record being drawn (INST, CLID, number), the fragments of the first of them so far, the fragments of
the crew being formed, the fragment header, target width and height, and the next value of F1. -/
structure Draw where
  left : Nat
  recVA : Nat
  instVA : Nat
  tris : List (Nat × Nat × Nat) := []
  cover : Nat := 0
  frags : List (List Byte) := []
  hdr : List W64
  width : Nat
  height : Nat
  f1 : Nat
deriving DecidableEq, Repr

/-- A node of a running graph (R367 to R372). -/
structure NodeRun where
  state : NodeState := .pending
  /-- when the node became ready (R375) -/
  readyAt : Nat := 0
  /-- wait entries not yet registered and not yet met (R369, R370) -/
  unreg : List Nat := []
  waiting : List Nat := []
  /-- numbers of kindling clusters and clusters in the node's queue, as (first, count) in rising order (R374) -/
  kready : List (Nat × Nat) := []
  ready : List (Nat × Nat) := []
  /-- clusters neither yielded nor dropped, and clusters yielded and not ended -/
  left : Nat := 0
  open_ : Nat := 0
  /-- groups that have frozen, with their images; none for a group without fibres (R257) -/
  kindlings : List (Nat × Option Nat) := []
  pipe : Option Pipe := none
  draw : Option Draw := none
  /-- the node's words as its start found them, with the base of a SPAWN (R237) -/
  hdr : List W64 := []
deriving DecidableEq, Repr, Inhabited

/-- A run of a graph (R367), with the level and WID of its SPAWN (R237). A failed run goes on until the nodes that it
has started are complete (R368), so it may stand beside a later run of its graph; `id` tells them apart. -/
structure Run where
  id : Nat
  graph : Nat
  ctx : Nat
  level : Nat
  wid : W64
  nodes : List (Nat × NodeRun)
  failed : Bool
  /-- a fatal error ended it: nothing further of it starts (R462) -/
  dead : Bool := false
deriving DecidableEq, Repr

/-- A crew that has left the machine while stores of it were still to reach their homes (R462): its identity, its id, and the
cluster and the node of the run that it belonged to. -/
structure Gone where
  uid : Nat
  id : Nat
  cluster : Nat
  run : Option (Nat × Nat)
deriving DecidableEq, Repr

/-- A waiter of an event (R369, R370): a batch (kind 0) or a node of a run (kind 1). -/
structure Waiter where
  ev : Nat
  ctx : Nat
  node : Bool
  who : Nat
  threshold : Nat
  /-- the number of its record in the overflow area, when it has no hardware entry -/
  overflow : Option Nat
deriving DecidableEq, Repr

/-- A monitor unit (R245, R490). -/
structure Monitor where
  src : Nat := 0
  en : Bool := false
  e0 : Nat := 0
  step : Nat := 0
  ctx : Nat := 0
  allctx : Bool := false
  min : Nat := 0xFFFFFFFFFFFFFFFF
  max : Nat := 0
  bins : List (Nat × Nat) := []
deriving DecidableEq, Repr, Inhabited

/-- A bank remap that runs or waits on a column (R481), with the cores whose vertical loads read the old layout
(R223). -/
structure Remap where
  col : Nat
  bank : Nat
  running : Bool
  readers : List Nat
  /-- the batch whose WSREMAP waits for its turn (R244); none for a retirement by firmware -/
  batch : Option Nat := none
deriving DecidableEq, Repr

/-- The power and health registers and the arbiter (R486 to R489). -/
structure Power where
  budget : Nat := 540
  pwr : Nat := 0
  tdie : Nat := 0
  ttier : Nat := 0
  /-- the sensors of the weight tiers, in their order (R485) -/
  tiers : List Nat := []
  ttrip : Nat := 1760
  tresume : Nat := 1520
  gdcore : Nat := 16
  gdcache : Nat := 16
  gdtier : Nat := 10
  grants : List (Engine × Nat) := []
  gated : List Engine := []
  /-- the last ac at which an engine was in use, by engine; 0 for one that has not been (R488) -/
  busyAt : List (Engine × Nat) := []
  tripped : Bool := false
deriving DecidableEq, Repr

/-- A scan-out output (R449 to R452): its register block by offset, FRAMES, the writes that take effect at the next
vertical blanking, and whether a mode error keeps it from sending video (R449). -/
structure Output where
  regs : List (Nat × W64) := []
  frames : Nat := 0
  pending : List (Nat × W64) := []
  stopped : Bool := false
  /-- firmware trains its link anew for a changed mode (R450) -/
  training : Bool := false
deriving DecidableEq, Repr, Inhabited

/-- The identity and firmware registers (R491, R492, R496). -/
structure Ident where
  ready : Bool := false
  fwver : Nat := 0
  fwsvn : Nat := 0
  recov : Bool := false
  rollback : Nat := 0
  lstate0 : Nat := 0
  lstate1 : Nat := 0
  lanes0 : Nat := 0
  lanes1 : Nat := 0
  nonce : List (Nat × W64) := []
  reppa : W64 := 0
  attgo : Bool := false
  digest : List Byte := []
  /-- the stored firmware image that the boot ROM verifies (R491) -/
  image : List Byte := []
deriving DecidableEq, Repr

/-- Why the machine stops. Nothing in the spec stops the device as a whole, so a fault marks a physical address
that the spec says does not exist and that no rule turns into a cause. -/
inductive Fault where
  /-- raised by an access of a bus agent at a physical address that Table 19-1 calls absent; safe: the spec gives
  the device no behaviour for it -/
  | absentPA (pa : Nat)
deriving DecidableEq, Repr

/-- Why an instruction has no meaning in a state. -/
inductive Refusal where
  /-- an instruction that the model does not yet give a meaning to; raised by exec's arms only; safe -/
  | notModelled (mnemonic : String)
  /-- raised by exec of an instruction word when no batch of the state is the one whose word executes (`cur`): a
  word executes only as the word of a batch, so the spec gives it no effect there; step never asks for it; safe -/
  | noBatch
deriving DecidableEq, Repr

/-- The device. -/
structure State where
  /-- nominal ac since device reset (R239) -/
  clock : Nat
  cores : List Core
  batches : List Batch
  xsets : List XSet
  crews : List Crew
  clusters : List Cluster
  ctxs : List Context
  /-- memory at its homes, by physical address, unlisted bytes zero (R430; log 4) -/
  mem : List Host.Cell
  pageGen : List (Nat × Nat)
  zeroMask : List (Nat × Nat)
  relRecs : List (Nat × List RelRec)
  writers : List (Nat × Writer)
  stamps : List (Nat × Stamp)
  evStamps : List (Nat × Stamp)
  events : List (Nat × W32)
  waiters : List Waiter
  genTab : List (Nat × W64)
  /-- the copies of the generators' launch headers (R381) -/
  genHdrs : List (Nat × List W64)
  /-- what a fill's first acquire synchronises with, by generator (R388) -/
  genStamps : List (Nat × Stamp)
  fills : List Fill
  /-- the GEN lines that the scheduler, the front ends and the Hearth are parked on, by agent (R384) -/
  parked : List (Nat × List ParkLine)
  genLines : List GenLine
  /-- how many lines requests have brought into the LLC (model field; R383, log 87) -/
  llcLines : Nat
  victims : List (Nat × GenLine)
  /-- the next way of a set of the victim store in rotation (R383) -/
  vsRot : List (Nat × Nat)
  vsBase : Nat
  vsCfg : Nat
  xpair : List (Nat × W64)
  kilnSize : Nat
  images : List (Nat × Image)
  graphTab : List (Nat × W64)
  nodeStore : List (Nat × W64)
  runs : List Run
  flues : List (Nat × FlueCtx)
  splits : List (Nat × SplitCtx)
  /-- the context that had the last turn, by engine: 0 to 63 Flue, 64 and 65 Splitter (R290) -/
  turns : List (Nat × Nat)
  /-- the context slot whose trigger queue was served last (R367) -/
  trigTurn : Nat
  bankDead : List (Nat × Nat)
  padsBad : List (Nat × Nat)
  cecol : List (Nat × Nat)
  /-- the corrected errors of the banks of the weight stack in the last 24 hours, as (ac, count), by bank (R485) -/
  bankCE : List (Nat × List (Nat × Nat))
  /-- the banks that firmware is to retire (R485) -/
  bankDue : List Nat
  remaps : List Remap
  monitors : List (Nat × Monitor)
  /-- copy faults by context and corrected errors in the current power interval (Table 24-3) -/
  ivCopy : List (Nat × Nat)
  ivCorr : Nat
  power : Power
  outs : List (Nat × Output)
  ident : Ident
  /-- fatal errors not yet delivered: context, crew, cause code (R448, R461; model field, log 1) -/
  posted : List (Nat × Nat × Nat)
  /-- the crews that have exited and whose lost lines are still fatal (R461, R462) -/
  gone : List Gone
  /-- the places that hold an uncorrectable error (R285, R286) -/
  upsets : List Upset
  /-- dirty lines on their way to a column of which a remap step runs, oldest first: core, line, contents (R482) -/
  backlog : List (Nat × Nat × L1Line)
  /-- the requests of engines that wait at a home, by agent: the line and the generation carried (R436, R482, R488) -/
  homeAsks : List (Nat × Nat × Nat)
  /-- the answer to the last read of a bus agent (R447) -/
  busReply : List Byte
  /-- inputs from outside and their order (model field, log 1) -/
  agenda : List Instr
  /-- the batch whose word executes (model field, log 1) -/
  cur : Nat
  /-- the counter of free values (model field, log 2) -/
  free : Nat
  /-- the next fresh identity of a batch, crew, cluster or image (model field, log 1) -/
  nextId : Nat
deriving DecidableEq, Repr

/-- The machine right after device reset: every field at the value the spec states, or at the value that
INVENTORY.md and the log name. Nothing runs before DEVICE_RESET's bring-up sets READY (R496). -/
def State.reset : State where
  clock := 0
  cores := List.replicate 128 {}
  batches := []
  xsets := []
  crews := []
  clusters := []
  ctxs := List.replicate 64 {}
  mem := []
  pageGen := []
  zeroMask := []
  relRecs := []
  writers := []
  stamps := []
  evStamps := []
  events := []
  waiters := []
  genTab := []
  genHdrs := []
  genStamps := []
  fills := []
  parked := []
  genLines := []
  llcLines := 0
  victims := []
  vsRot := []
  vsBase := 0
  vsCfg := 0
  xpair := []
  kilnSize := 0
  images := []
  graphTab := []
  nodeStore := []
  runs := []
  flues := []
  splits := []
  turns := []
  trigTurn := 63
  bankDead := []
  padsBad := []
  cecol := []
  bankCE := []
  bankDue := []
  remaps := []
  monitors := []
  ivCopy := []
  ivCorr := 0
  power := {}
  outs := []
  ident := {}
  posted := []
  gone := []
  upsets := []
  backlog := []
  homeAsks := []
  busReply := []
  agenda := []
  cur := 0
  free := 0
  nextId := 1

end Sys2Proof.Machine
end

