-- ==== Sys2Proof/Machine/Ops.lean ====
section
/-! DEFINITION. The named operations over the state: finding and changing batches, crews, cores and contexts; lane
masks; reading and writing registers with their shapes (chapter 02); results, parks and regions; and taking an
exception (R457) with the return from it (R231). -/
namespace Sys2Proof.Machine
open Sys2Proof

/-! ### Lanes -/

/-- The 32 lanes. -/
def lanes32 : List Nat := List.range 32

/-- The mask with the bits of the listed lanes. -/
def maskOf (ls : List Nat) : W32 := BitVec.ofNat 32 (ls.foldl (fun m l => m ||| (1 <<< l)) 0)

/-- The lanes of a mask, in increasing order. -/
def lanesOf (m : W32) : List Nat := lanes32.filter fun l => m.getLsbD l

/-- A list of 32 lane values. -/
def laneList (f : Nat → W32) : List W32 := lanes32.map f

/-! ### Finding and changing parts of the state -/

def findBatch (s : State) (id : Nat) : Option Batch := s.batches.find? fun b => b.id = id

/-- Changes the batch of an id. -/
def modBatch (s : State) (id : Nat) (f : Batch → Batch) : State :=
  { s with batches := s.batches.map fun b => if b.id = id then f b else b }

def setBatch (s : State) (b : Batch) : State := modBatch s b.id fun _ => b

def delBatch (s : State) (id : Nat) : State := { s with batches := s.batches.filter fun b => b.id ≠ id }

def findCrew (s : State) (uid : Nat) : Option Crew := s.crews.find? fun c => c.uid = uid

def crewD (s : State) (uid : Nat) : Crew := (findCrew s uid).getD default

def modCrew (s : State) (uid : Nat) (f : Crew → Crew) : State :=
  { s with crews := s.crews.map fun c => if c.uid = uid then f c else c }

def findCluster (s : State) (id : Nat) : Option Cluster := s.clusters.find? fun c => c.id = id

def modCluster (s : State) (id : Nat) (f : Cluster → Cluster) : State :=
  { s with clusters := s.clusters.map fun c => if c.id = id then f c else c }

def coreD (s : State) (i : Nat) : Core := s.cores.getD i default

def modCore (s : State) (i : Nat) (f : Core → Core) : State := { s with cores := listMod s.cores i f }

def ctxD (s : State) (i : Nat) : Context := s.ctxs.getD i default

def modCtx (s : State) (i : Nat) (f : Context → Context) : State := { s with ctxs := listMod s.ctxs i f }

/-- The next fresh identity. -/
def fresh (s : State) : Nat × State := (s.nextId, { s with nextId := s.nextId + 1 })

/-- A number for a new batch, which no batch has. -/
def freshBatch (s : State) : Nat × State :=
  let id := (s.batches.map (·.id + 1)).foldl max s.nextId
  (id, { s with nextId := id + 1 })

/-- The next free value (log 2). -/
def freeVal (s : State) : W64 × State := (Config.freeValue s.free, { s with free := s.free + 1 })

/-- Whether the hardware takes a choice the spec leaves it (log 2). -/
def freeBool (s : State) : Bool × State := (Config.allowed s.free, { s with free := s.free + 1 })

/-- One of `n` possibilities (log 2); with one possibility nothing is chosen. -/
def freePick (s : State) (n : Nat) : Nat × State :=
  if n ≤ 1 then (0, s) else (Config.choice s.free % n, { s with free := s.free + 1 })

/-! ### Uncorrectable errors (R285, R286) -/

/-- The errors that a condition names end. -/
def clearUpsets (s : State) (p : Upset → Bool) : State :=
  if s.upsets.isEmpty then s else { s with upsets := s.upsets.filter fun u => !p u }

/-- An error in one of the 64-bit words `lo` to `hi - 1` of a numbering. -/
def upsetIn (s : State) (word : Upset → Option Nat) (lo hi : Nat) : Bool :=
  s.upsets.any fun u => match word u with
    | some w => decide (lo ≤ w) && decide (w < hi)
    | none => false

/-- The slot that a register's line belongs to: an extended register belongs to the pair. -/
def regSlot (b : Batch) (i : Nat) : Nat := if i < 512 ∧ b.regs.length ≤ i then b.slot / 2 * 2 else b.slot

/-- An error of lane `l` of a slot lies with this part of the slot: no other part has the lane (R111; log 104). -/
def ownLane (s : State) (b : Batch) (l : Nat) : Bool :=
  s.batches.all fun c => c.id == b.id || c.core != b.core || c.slot != b.slot || !c.fibres.any fun p => p.1 == l

/-- The lanes of a batch's register that hold an error. -/
def regUpsets (s : State) (b : Batch) (i : Nat) : List Nat :=
  s.upsets.filterMap fun u => match u with
    | .reg c sl n l => if c = b.core ∧ sl = regSlot b i ∧ n = i ∧ ownLane s b l then some l else none
    | _ => none

/-! ### The launch header (Table 16-1) -/

/-- Bits of a header word. -/
def bitsOf (w : W64) (lo n : Nat) : Nat := (w.toNat / 2 ^ lo) % 2 ^ n

def hdrBits (h : List W64) (word lo n : Nat) : Nat := bitsOf (h.getD word 0) lo n

def hdrEntry (h : List W64) : Nat := hdrBits h 0 0 54
/-- the number of WID fields -/
def hdrFields (h : List W64) : Nat := hdrBits h 1 0 3 + 1
def hdrCrewLevel (h : List W64) : Nat := hdrBits h 1 3 3
def hdrClusLevel (h : List W64) : Nat := hdrBits h 1 6 3
def hdrSeed (h : List W64) : Nat := hdrBits h 1 9 3
def hdrWidReg (h : List W64) : Nat := hdrBits h 1 12 9
/-- N, the base-set size -/
def hdrN (h : List W64) : Nat := 8 * hdrBits h 1 21 6
/-- M, the extended-set size -/
def hdrM (h : List W64) : Nat := 8 * hdrBits h 1 27 6
def hdrPrio (h : List W64) : Nat := hdrBits h 1 33 2
def hdrAcc (h : List W64) : Nat := hdrBits h 1 35 7
def hdrBars (h : List W64) : Nat := hdrBits h 1 42 5
def hdrCbs (h : List W64) : Nat := hdrBits h 1 47 5
def hdrScratch (h : List W64) : Nat := hdrBits h 2 0 21
def hdrImage (h : List W64) : Nat := hdrBits h 2 21 17
def hdrWidth (h : List W64) (i : Nat) : Nat := hdrBits h 3 (7 * i) 7
def hdrBase (h : List W64) (i : Nat) : Nat := (h.getD (4 + i) 0).toNat
def hdrExt (h : List W64) (i : Nat) : Nat := (h.getD (10 + i) 0).toNat
def hdrConstp (h : List W64) : Nat := hdrBits h 16 0 54
def hdrFlb (h : List W64) : Nat := hdrBits h 17 0 54
def hdrSfl (h : List W64) : Nat := hdrBits h 18 0 32
/-- the timeline id that tl_j binds, 0xFFFF for none -/
def hdrTlb (h : List W64) (j : Nat) : Nat := hdrBits h (19 + j / 4) (16 * (j % 4)) 16
/-- wait entry i: event id and threshold -/
def hdrWait (h : List W64) (i : Nat) : Nat × Nat :=
  (hdrBits h (23 + i / 2) (32 * (i % 2)) 16, hdrBits h (23 + i / 2) (32 * (i % 2) + 16) 16)
/-- signal entry i: event id and addend -/
def hdrSig (h : List W64) (i : Nat) : Nat × Nat :=
  (hdrBits h (25 + i / 2) (32 * (i % 2)) 16, hdrBits h (25 + i / 2) (32 * (i % 2) + 16) 16)
def hdrNwait (h : List W64) : Nat := hdrBits h 27 0 3
def hdrNsig (h : List W64) : Nat := hdrBits h 27 3 3
def hdrKind (h : List W64) : Nat := hdrBits h 27 8 4

/-! ### Counters and monitors (R240, R245, R490) -/

/-- The largest 64-bit count: counts saturate there (R240, R490). -/
def satMax : Nat := 2 ^ 64 - 1

/-- Adds to a crew's performance counter (Table 08-6). -/
def perfAdd (s : State) (crew idx n : Nat) : State :=
  modCrew s crew fun c => { c with counters := kvPut 0 c.counters idx (min satMax (kvGetD c.counters idx 0 + n)) }

/-- The bin of a sample (R245): the lowest whose upper edge exceeds it, 15 when none does. -/
def monBin (m : Monitor) (x : Nat) : Nat :=
  ((List.range 15).find? fun i => x < 2 ^ (m.e0 + i * (m.step + 1))).getD 15

/-- One unit takes a sample (R245, R490). -/
def monTake (m : Monitor) (x : Nat) : Monitor :=
  let i := monBin m x
  { m with
    min := min m.min x
    max := max m.max x
    bins := kvPut 0 m.bins i (min satMax (kvGetD m.bins i 0 + 1)) }

/-- A sample of source `src`: every enabled unit of that source whose filter passes takes it (Table 24-3); the
device-wide sources 7 to 9 have no filter. -/
def monSample (s : State) (src ctx x : Nat) : State :=
  { s with monitors := s.monitors.map fun p =>
    if p.2.en ∧ p.2.src = src ∧ (7 ≤ src ∧ src ≤ 9 ∨ p.2.allctx ∨ p.2.ctx = ctx) then (p.1, monTake p.2 x) else p }

/-- A copy fault (R44): the crew's counter 1 and the interval's count. -/
def countCopy (s : State) (crew ctx : Nat) : State :=
  let s := perfAdd s crew 1 1
  { s with ivCopy := kvSet s.ivCopy ctx (kvGetD s.ivCopy ctx 0 + 1) }

/-! ### Registers (chapter 02) -/

/-- The register values that a batch's crew declares. -/
def batchHdr (s : State) (b : Batch) : List W64 := (crewD s b.crew).hdr

def findXSet (s : State) (core pair : Nat) : Option XSet := s.xsets.find? fun x => x.core = core ∧ x.pair = pair

def modXSet (s : State) (core pair : Nat) (f : XSet → XSet) : State :=
  { s with xsets := s.xsets.map fun x => if x.core = core ∧ x.pair = pair then f x else x }

/-- Whether the batch holds its pair's extended set (R49, R183): the lock belongs to the slot, and a fibre forked or
stamped into the slot later does not hold it (R119, R257). -/
def holdsXSet (s : State) (b : Batch) : Bool :=
  match findXSet s b.core (b.slot / 2) with
  | some x => b.xheld && x.holder == some b.slot
  | none => false

/-- The live lanes, in increasing order (R41). -/
def liveLanes (b : Batch) : List Nat := b.fibres.map (·.1)

def liveMask (b : Batch) : W32 := maskOf (liveLanes b)

def fibreOf (b : Batch) (l : Nat) : Fibre := kvGetD b.fibres l {}

/-- The frozen value of a register in a Kiln image (R255). -/
def imageReg (s : State) (img i : Nat) : W32 :=
  match kvGet s.images img with
  | some im => im.regs.getD i 0
  | none => 0

/-- The stored register of an absolute name (512 + n for k_n), with its tag. -/
def bankReg (_ : State) (b : Batch) (i : Nat) : RegVal :=
  if 512 ≤ i then b.kregs.getD (i - 512) (.u 0)
  else if i < b.regs.length then b.regs.getD i (.u 0)
  else b.xregs.getD (i - b.regs.length) (.u 0)

/-- The value of a name in the forwarding window: an ephemeral result hides the register until a later word of
the window writes it (R58, R59). -/
def windowReg (w : List WinEntry) (i : Nat) : Option RegVal :=
  match w with
  | [] => none
  | e :: r => match kvGetFirst e i with
    | some v => v
    | none => windowReg r i
where
  /-- the entry of a name in one word's results -/
  kvGetFirst (e : WinEntry) (i : Nat) : Option (Option RegVal) :=
    match e with
    | [] => none
    | (j, v) :: r => if j = i then some v else kvGetFirst r i

/-- A register as a word reads it, tag included (R59). -/
def rawReg (s : State) (b : Batch) (i : Nat) : RegVal := (windowReg b.window i).getD (bankReg s b i)

/-- A register as a word reads it, with T read as U (R41). -/
def readReg (s : State) (b : Batch) (i : Nat) : RegVal :=
  match rawReg s b i with
  | .t img => .u (imageReg s img i)
  | v => v

/-- The value of a register in a lane (Table 02-1). -/
def laneVal (v : RegVal) (l : Nat) : W32 :=
  match v with
  | .u x => x
  | .a base stride => base + stride * BitVec.ofNat 32 l
  | .g ls => ls.getD l 0
  | .t _ => 0

/-- Whether a value as read is uniform (U or T). -/
def isUni (v : RegVal) : Bool :=
  match v with
  | .u _ => true
  | .t _ => true
  | _ => false

/-- The shape code of Table 02-1. -/
def shapeCode (v : RegVal) : Nat :=
  match v with
  | .u _ => 0
  | .a _ _ => 1
  | .g _ => 2
  | .t _ => 3

/-- A write of `new` in the lanes of `act` over a register that holds `old` (R42, R43): every live lane gives the
result's shape; a partial write gives G, and the unwritten lanes keep their values. -/
def mergeReg (live act : List Nat) (old new : RegVal) : RegVal :=
  if live.all fun l => act.contains l then
    match new with
    | .g ls => .g (laneList fun l => if live.contains l then ls.getD l 0 else 0)
    | v => v
  else .g (laneList fun l => if act.contains l then laneVal new l else if live.contains l then laneVal old l else 0)

/-- The same over the register itself: a write to a G register keeps it G, whatever the shape of the result (R43). -/
def overReg (live act : List Nat) (old new : RegVal) : RegVal :=
  match old with
  | .g _ => .g (laneList fun l => if live.contains l then laneVal (mergeReg live act old new) l else 0)
  | _ => mergeReg live act old new

/-- Stores a register (R47, R48). -/
def storeReg (s : State) (b : Batch) (i : Nat) (v : RegVal) : State :=
  if 512 ≤ i then modBatch s b.id fun c => { c with kregs := c.kregs.set (i - 512) v }
  else if i < b.regs.length then modBatch s b.id fun c => { c with regs := c.regs.set i v }
  else modBatch s b.id fun c => { c with xregs := c.xregs.set (i - b.regs.length) v }

/-- Performs a register write (R42 to R44): `new` in the lanes of `act` of absolute name `i`. A T register takes
the copy fault and counts as U with its frozen value. -/
def putReg (s : State) (bid : Nat) (act : List Nat) (i : Nat) (new : RegVal) : State :=
  match findBatch s bid with
  | none => s
  | some b =>
    let old := bankReg s b i
    let (old', s) := match old with
      | .t img => (RegVal.u (imageReg s img i), countCopy s b.crew b.ctx)
      | v => (v, s)
    -- a written lane value is whole again, and so is a register that every live lane writes, or that is copied (R286)
    let whole := old != old' || (liveLanes b).all fun l => act.contains l
    let s := clearUpsets s fun u => match u with
      | .reg c sl n l => c == b.core && sl == regSlot b i && n == i && (act.contains l || (whole && ownLane s b l))
      | _ => false
    storeReg s b i (overReg (liveLanes b) act old' new)

/-- Writes a word's results to their registers in the word's lanes. -/
def putRegs (s : State) (bid : Nat) (act : List Nat) (vals : List (Nat × RegVal)) : State :=
  vals.foldl (fun s p => putReg s bid act p.1 p.2) s

/-- The tag recomputed from lane values (R45): U, else A with the smallest fitting stride, else G. -/
def retag (live : List Nat) (vals : List W32) : RegVal :=
  match live with
  | [] => .u 0
  | l0 :: rest =>
    let v0 := vals.getD l0 0
    if rest.all fun l => vals.getD l 0 = v0 then .u v0
    else
      -- the strides that fit: stride × (l − l0) = v_l − v_l0 for every live lane; lane distances are below 32, so
      -- a fitting stride is found among the solutions of one congruence, smallest first
      match rest with
      | [] => .u v0
      | l1 :: _ =>
        let d := l1 - l0
        let e := d &&& (2 ^ 32 - d)
        let diff := (vals.getD l1 0 - v0).toNat
        if diff % e ≠ 0 then .g (laneList fun l => if live.contains l then vals.getD l 0 else 0)
        else
          let odd := d / e
          let inv := (List.range 5).foldl (fun x _ => x * (2 + (2 ^ 32 - (odd * x) % 2 ^ 32)) % 2 ^ 32) odd
          let base := ((diff / e) * inv) % (2 ^ 32 / e)
          let cands := (List.range e).map fun t => base + t * (2 ^ 32 / e)
          let fits (st : Nat) : Bool := live.all fun l =>
            vals.getD l 0 = v0 + BitVec.ofNat 32 st * BitVec.ofNat 32 (l - l0)
          match cands.find? fits with
          | some st => .a (v0 - BitVec.ofNat 32 st * BitVec.ofNat 32 l0) (BitVec.ofNat 32 st)
          | none => .g (laneList fun l => if live.contains l then vals.getD l 0 else 0)

/-! ### Predicates -/

def predBit (pw : W32) (n : Nat) : Bool := pw.getLsbD n

/-- A PW with bit `n` set to `v`. -/
def pwSet (pw : W32) (n : Nat) (v : Bool) : W32 :=
  if v then pw ||| (1#32 <<< n) else pw &&& ~~~(1#32 <<< n)

/-- Writes predicate `n` of the fibres in `act` from the mask `v`. -/
def putPred (s : State) (bid : Nat) (act : List Nat) (n : Nat) (v : W32) : State :=
  let upd (p : Nat × Fibre) : Nat × Fibre :=
    if act.contains p.1 then (p.1, { p.2 with pw := pwSet p.2.pw n (v.getLsbD p.1) }) else p
  modBatch s bid fun b => { b with fibres := b.fibres.map upd }

/-! ### Outstanding work and parks (R60 to R62) -/

/-- Whether a pass of the batch's core holds a quarter of the batch (07, under R208). -/
def hasQuarters (s : State) (b : Batch) : Bool :=
  (coreD s b.core).passes.any fun p => p.quarters.any fun q => q.batch == b.id

/-- Whether a park of the batch has something to wait for: a result that has not returned, a store that is still to be
performed, or a pass. -/
def outstanding (s : State) (b : Batch) : Bool := !b.retbuf.isEmpty || !b.stores.isEmpty || hasQuarters s b

/-- Parks the batch (R61): it resumes by PARK_RESUME. -/
def park (s : State) (bid : Nat) : State := modBatch s bid fun b => { b with parked := true, parkedAt := s.clock }

/-- The flags that the lanes of a word raise, joined (R150). -/
def allFlags (fl : LaneFlags) : W32 := fl.foldl (fun m p => m ||| p.2) 0

/-- FP flags join the crew's FLAGS (R149, Table 05-5). -/
def raiseFlags (s : State) (crew : Nat) (fl : LaneFlags) : State :=
  if allFlags fl = 0 then s else modCrew s crew fun c => { c with fpStat := c.fpStat ||| allFlags fl }

/-- One returned result is written (R61): the shapes follow R42 to R44, and the name's ephemeral value ends. -/
def landPending (s : State) (bid : Nat) (p : Pending) : State :=
  match p with
  | .result mask vals fl =>
    let s := match findBatch s bid with
      | some b => raiseFlags s b.crew fl
      | none => s
    putRegs s bid (lanesOf mask) vals
  | .toGeneral i =>
    match findBatch s bid with
    | none => s
    | some b =>
      let v := match bankReg s b i with
        | .t img => RegVal.u (imageReg s img i)
        | v => v
      match v with
      | .g _ => s
      | v => putReg s bid (liveLanes b) i (.g (laneList (laneVal v)))

/-- The names that a pending result writes. -/
def pendingNames : Pending → List Nat
  | .result _ vals _ => vals.map (·.1)
  | .toGeneral i => [i]

/-- Writes every returned result in program order and empties the return buffer. Their names are forwarded no more (R37,
R58). -/
def landAll (s : State) (bid : Nat) : State :=
  match findBatch s bid with
  | none => s
  | some b =>
    let s := b.retbuf.foldl (fun s p => landPending s bid p) s
    modBatch s bid fun c => { c with
      retbuf := []
      owed := 0
      loads := []
      window := c.window.map fun e => e.filter fun p => !(b.retbuf.flatMap pendingNames).contains p.1 }

/-! ### Regions and tiles (R210, R259, R260) -/

/-- The errors of a crew's pending tiles become those of the committed ones as the tiles that `p` names commit (R210,
R286). -/
def commitUpsets (s : State) (crew : Nat) (p : Tile → Bool) : State :=
  if s.upsets.isEmpty then s
  else
    let mine (i : Nat) : Bool := ((crewD s crew).tiles[i]?).any p
    { s with upsets := s.upsets.filterMap fun u => match u with
      | .acc c i pend e => if c = crew ∧ mine i then (if pend then some (.acc c i false e) else none) else some u
      | u => some u }

/-- Commits the pending tiles that a batch owns (R210). -/
def commitTiles (s : State) (bid : Nat) : State :=
  match findBatch s bid with
  | none => s
  | some b =>
    let s := commitUpsets s b.crew fun t => t.owner == some bid
    let upd (t : Tile) : Tile := if t.owner == some bid then { com := t.pend, pend := [], owner := none } else t
    modCrew s b.crew fun c => { c with tiles := c.tiles.map upd }

/-- A region-closing instruction took effect (R259, R260): pending tiles commit and the next word begins a region. Its own
result, if it has one, is in the return buffer and is no longer discarded (R262), nor are the stores of the region. -/
def closeRegion (s : State) (bid : Nat) : State :=
  modBatch (commitTiles s bid) bid fun b =>
    { b with newRegion := true, gatherAt := none, owed := b.retbuf.length, storesOwed := b.stores.length }

/-! ### Causes (Table 20-1) -/

/-- The code of a cause. -/
def Cause.code : Cause → Nat
  | .illOpcode => 0x00 | .illForm => 0x01 | .illField => 0x02 | .illPair => 0x03 | .priv => 0x04
  | .regRange => 0x05 | .regWindow => 0x06 | .xsetState => 0x07 | .shape => 0x08 | .shapeQuarter => 0x09
  | .xlaneUnpinned => 0x0A | .xlaneDiverge => 0x0B | .softTrap => 0x0C | .breakpoint => 0x0D | .fpx => 0x0E
  | .pageAbsent => 0x10 | .permRead => 0x11 | .permWrite => 0x12 | .permExec => 0x13 | .align => 0x14
  | .attrSpan => 0x15 | .genWrite => 0x16 | .xformAtomic => 0x17 | .checkedRace => 0x18
  | .checkedHistory => 0x19 | .scratchRange => 0x1A | .clusterAddr => 0x1B
  | .barConfig => 0x20 | .barOverflow => 0x21 | .cbConfig => 0x22 | .cbOrder => 0x23 | .mcastOutside => 0x24
  | .tmrReserved => 0x25 | .tmrRange => 0x26 | .flueCmd => 0x27 | .tlContext => 0x28 | .evOverflow => 0x29
  | .evRange => 0x2A | .cutDesc => 0x2B | .rayNode => 0x2C
  | .wFormat => 0x30 | .wMeta => 0x31 | .wtabMissing => 0x32 | .accRange => 0x33 | .drainFormat => 0x34
  | .fillNest => 0x40 | .fillFailed => 0x41 | .fillWait => 0x42 | .fillTimeout => 0x43
  | .templateOverflow => 0x44 | .freezeState => 0x45 | .watchdog => 0x46
  | .eccUeReg => 0x50 | .eccUeScratch => 0x51 | .eccUeAcc => 0x52 | .eccUeLine => 0x53 | .eccUeWstack => 0x54
  | .linkFatal => 0x55 | .thermalTrip => 0x56 | .wstackRemap => 0x57

/-! ### Taking an exception (R457, R458) and the return from it (R231) -/

/-- The registers k0 to k9 that trap entry writes (Table 20-2). -/
def trapRegs (b : Batch) (t : TrapInfo) : List W32 :=
  let lane := (lanesOf t.lanes).headD 0
  let lanev := if t.lanes = 0 then 0 else 1
  [ BitVec.ofNat 32 t.rpc.toNat
  , BitVec.ofNat 32 (t.rpc.toNat / 2 ^ 32)
  , BitVec.ofNat 32 (b.wb + (if b.priv then 512 else 0))
  , BitVec.ofNat 32 (t.cause.code + 256 * lane + 8192 * lanev + 16384 * t.kind + 65536 * t.code)
  , BitVec.ofNat 32 t.addr
  , BitVec.ofNat 32 (t.addr / 2 ^ 32)
  , t.lanes
  , BitVec.ofNat 32 (t.src + 256 * t.sidx + 65536 * t.scause + 2 ^ 24 * t.sdepth)
  , BitVec.ofNat 32 t.word.toNat
  , BitVec.ofNat 32 (t.word.toNat / 2 ^ 32) ]

/-- The errors in the registers that trap entry writes end: each is written whole (R286). -/
def mendTrapRegs (s : State) (bid : Nat) : State :=
  match findBatch s bid with
  | none => s
  | some b => clearUpsets s fun u => match u with
    | .reg c sl n l => c == b.core && sl == b.slot && decide (512 ≤ n) && decide (n < 522) && ownLane s b l
    | _ => false

/-- Enters the context's trap handler (R457 steps 2 to 5): the region closes and pending tiles commit, the window
empties, k0 to k9 are written as U, and the batch goes on privileged at TVEC, 12 ac later. -/
def trapEntry (s : State) (bid : Nat) (t : TrapInfo) : State :=
  let s := mendTrapRegs (commitTiles s bid) bid
  modBatch s bid fun b => { b with
    kregs := ((trapRegs b t).map RegVal.u) ++ b.kregs.drop 10
    window := []
    priv := true
    pc := BitVec.ofNat 54 ((ctxD s b.ctx).tvec.toNat / 8 * 8)
    newRegion := true
    gatherAt := none
    owed := b.retbuf.length
    storesOwed := b.stores.length
    parked := false
    block := none
    trap := none
    fillWait := []
    wake := s.clock + 12 }

/-- A trap that has no handler to enter (R458): TVEC is 0, or the word stands at TVEC in privileged mode. -/
def trapFatal (s : State) (b : Batch) (t : TrapInfo) : Bool :=
  let tv := (ctxD s b.ctx).tvec.toNat % 2 ^ 54
  tv = 0 ∨ (b.priv ∧ (if t.cause == Cause.softTrap || t.cause == Cause.breakpoint then (t.rpc - 8).toNat else t.rpc.toNat) = tv / 8 * 8)

/-- The return from a handler (R231) to the mode, window and pc of k0 to k2, whose checks the instruction makes. -/
def trapReturn (s : State) (bid : Nat) (rpc : VA) (rwb : Nat) (rprv : Bool) : State :=
  modBatch s bid fun b => { b with pc := rpc, wb := rwb, priv := rprv, window := [], newRegion := true }

end Sys2Proof.Machine
end

