-- ==== Sys2Proof/Machine/Home.lean ====
section
/-! DEFINITION. Memory at its homes, by physical address (R430, R438), and the context record that lies in it
(Table 19-5). -/
namespace Sys2Proof.Machine
open Sys2Proof

/-- What a physical address holds (Table 19-1). -/
inductive PaKind where
  | gddr | reserved | stack (col : Nat) | peer (link : Nat) | host | absent
deriving DecidableEq, Repr

def paKind (pa : Nat) : PaKind :=
  if pa < 0x7F8000000 then .gddr
  else if pa < 0x800000000 then .reserved
  else if pa < 0x1000000000 then .stack ((pa - 0x800000000) / 0x10000000)
  else if pa < 0x1000000000000 then .absent
  else if pa < 0x1800000000000 then .peer 0
  else if pa < 0x2000000000000 then .peer 1
  else if pa < 0x4000000000000 then .host
  else .absent

/-- Frames that keep a page generation (R436): GDDR 7 below the reserved range and the weight stack. -/
def hasGen (pa : Nat) : Bool :=
  match paKind pa with
  | .gddr => true
  | .stack _ => true
  | _ => false

/-- Whether a remap step runs on the column of an address: accesses to it wait at the home (R482). -/
def remapBusy (s : State) (pa : Nat) : Bool :=
  match paKind pa with
  | .stack c => s.remaps.any fun r => r.col == c && r.running
  | _ => false

/-- Whether a line reads as zero by its frame's zero mask (R438). -/
def lineZero (s : State) (pa : Nat) : Bool :=
  Nat.testBit (kvGetD s.zeroMask (pa / 4096) 0) (pa / 128 % 32)

/-- A byte at its home. -/
def homeByte (s : State) (pa : Nat) : Byte := if lineZero s pa then 0 else kvGetD s.mem pa 0

def homeRead (s : State) (pa n : Nat) : List Byte := (List.range n).map fun i => homeByte s (pa + i)

def homeNat (s : State) (pa n : Nat) : Nat := leNat (homeRead s pa n)

def homeWord (s : State) (pa : Nat) : W64 := BitVec.ofNat 64 (homeNat s pa 8)

/-- Errors in memory that a write of `n` bytes ends: those of the words that it replaces whole (R286), and that of a
moved chunk once all of it has been rewritten (R481). -/
def mendWords (s : State) (pa n : Nat) : State :=
  if s.upsets.isEmpty then s
  else
    let whole (w : Nat) : Bool := decide (pa ≤ 8 * w) && decide (8 * w + 8 ≤ pa + n)
    let upd (u : Upset) : Upset := match u with
      | .chunk k m => .chunk k ((List.range 256).foldl (fun m i => if whole (256 * k + i) then m ||| 2 ^ i else m) m)
      | u => u
    let gone (u : Upset) : Bool := match u with
      | .mem w => whole w
      | .llc w => whole w
      | .chunk _ m => m == 2 ^ 256 - 1
      | _ => false
    { s with upsets := (s.upsets.map upd).filter fun u => !gone u }

/-- The first write to a line whose zero-mask bit is set makes the line zero and clears the bit (R438): the whole line is written,
and its errors end (R286). -/
def unzeroLine (s : State) (pa : Nat) : State :=
  if lineZero s pa then
    let lo := pa / 128 * 128
    let keep (c : Host.Cell) : Bool := c.1 < lo ∨ lo + 128 ≤ c.1
    let s := mendWords s lo 128
    { s with
      mem := s.mem.filter keep
      zeroMask := kvPut 0 s.zeroMask (pa / 4096) (kvGetD s.zeroMask (pa / 4096) 0 ^^^ 2 ^ (pa / 128 % 32)) }
  else s

def homePut (s : State) (pa : Nat) (v : Byte) : State :=
  let s := unzeroLine s pa
  { s with mem := kvPut 0 s.mem pa v }

/-- The copies of a location with a core's among them, or without it. -/
def withCopy (t : Stamp) (core : Nat) (holds : Bool) : Stamp :=
  { t with copies := if holds then core :: t.copies.filter (· != core) else t.copies.filter (· != core) }

/-- Two ranges of addresses, each a start and a length, share a byte. -/
def spansMeet (a b : Nat × Nat) : Bool := decide (a.1 < b.1 + b.2) && decide (b.1 < a.1 + a.2)

/-- Changes the stamps of the locations that share a byte with a range. -/
def modStamps (s : State) (pa n : Nat) (f : Nat × Stamp → Stamp) : State :=
  if s.stamps.isEmpty then s
  else { s with stamps := s.stamps.map fun p => if spansMeet (p.1, p.2.bytes) (pa, n) then (p.1, f p) else p }

/-- A write at the home ends the freshness of the stamps whose location it touches (R342). -/
def touchStamps (s : State) (pa n : Nat) : State :=
  modStamps s pa n fun p => { p.2 with fresh := false }

/-- Whether a Cordlink is DOWN (R448, Table 19-12). -/
def linkDown (s : State) (link : Nat) : Bool := (if link = 0 then s.ident.lstate0 else s.ident.lstate1) == 3

/-- Whether a physical address lies behind a link that is DOWN: a store there is lost (R448). -/
def paLost (s : State) (pa : Nat) : Bool :=
  match paKind pa with
  | .peer k => linkDown s k
  | _ => false

/-- Posts the fatal error of a lost store to the context of its crew (R448, R461). -/
def postLost (s : State) (owner : Nat × Nat) : State :=
  { s with posted := s.posted ++ [(owner.1, owner.2, Cause.code .linkFatal)] }

/-- What a read of `n` bytes at a physical address meets at the home: an error of a dirty line of the LLC or of memory
behind it is ECC_UE_LINE, one of the weight stack's own words ECC_UE_WSTACK (R285, R481; log 18). A line that reads as zero by its
mask is not read (R438). -/
def memBad (s : State) (pa n : Nat) : Option Cause :=
  if s.upsets.isEmpty then none
  else
    let ws := ((List.range ((pa % 8 + n + 7) / 8)).map (pa / 8 + ·)).filter fun w => !lineZero s (8 * w)
    let chunk (w : Nat) : Bool := s.upsets.any fun u => match u with
      | .chunk k _ => k == w / 256
      | _ => false
    if ws.any chunk then some .eccUeWstack
    else if ws.any fun w => s.upsets.contains (.llc w) then some .eccUeLine
    else if ws.any fun w => s.upsets.contains (.mem w) then
      some (match paKind pa with
        | .stack _ => .eccUeWstack
        | _ => .eccUeLine)
    else none

/-! ### The banks of the weight stack (R479, R480, R485) -/

/-- The live banks of a column in increasing number: those of the map (R479), and the one that a running step retires until
the step ends (R481). -/
def liveBanks (s : State) (c : Nat) : List Nat :=
  (List.range 128).filter fun b =>
    !(kvGetD s.bankDead c 0).testBit b || s.remaps.any fun r => r.col == c && r.running && r.bank == b

def colBanks (s : State) (c : Nat) : Nat := (liveBanks s c).length

/-- A column's capacity, 2 MiB a bank (R480). -/
def colCap (s : State) (c : Nat) : Nat := colBanks s c * 0x200000

/-- Where byte offset `o` of column `c` is stored under a live list (R480): the bank and the byte of it. -/
def wslocIn (live : List Nat) (o : Nat) : Option (Nat × Nat) :=
  let k := o / 2048
  (live[k % live.length]?).map fun b => (b, 2048 * (k / live.length) + o % 2048)

def wsloc (s : State) (c o : Nat) : Option (Nat × Nat) := wslocIn (liveBanks s c) o

/-- The bank of the weight stack that stores the byte at a physical address, numbered over all columns (R479). -/
def bankAt (s : State) (pa : Nat) : Option Nat :=
  match paKind pa with
  | .stack c => (wsloc s c ((pa - 0x800000000) % 0x10000000)).map fun q => 128 * c + q.1
  | _ => none

/-- Banks show uncorrectable errors in some of their 64-bit words: firmware is to retire them (R485). A word whose error came with
a moved chunk (R481) is none of its bank's (log 90). -/
def noteBanks (s : State) (words : List Nat) : State :=
  if s.upsets.isEmpty then s
  else { s with bankDue := words.foldl (fun t w =>
    match (if s.upsets.contains (.mem w) then bankAt s (8 * w) else none) with
    | some b => if t.contains b then t else t ++ [b]
    | none => t) s.bankDue }

/-! ### Use of the engines (R488) -/

def isGated (s : State) (e : Engine) : Bool := s.power.gated.contains e

/-- Engines are in use now: a gated one among them wakes, and how soon is timing (R488; log 27). -/
def useEngines (s : State) (es : List Engine) : State :=
  { s with power := { s.power with
      gated := s.power.gated.filter fun e => !es.contains e
      busyAt := es.map (fun e => (e, s.clock)) ++ s.power.busyAt.filter fun p => !es.contains p.1 } }

/-- The engines that serve a physical address: the LLC slice of its line, and the weight tier behind it. -/
def homeEngines (s : State) (pa : Nat) : List Engine :=
  .slice (Config.sliceOf (pa / 128) % 128) :: match bankAt s pa with
    | some b => [.tier (b % 128 / 32)]
    | none => []

/-- A request reaches the home of a physical address; the line may be brought into the LLC. -/
def useHome (s : State) (pa : Nat) : State := useEngines { s with llcLines := s.llcLines + 1 } (homeEngines s pa)

/-- The engines that serve the lines of a range are in use. -/
def touchHome (s : State) (pa n : Nat) : State :=
  useEngines s ((List.range ((pa % 128 + n + 127) / 128)).flatMap fun i => homeEngines s (128 * (pa / 128 + i))).eraseDups

/-- Writes bytes at their home. -/
def homeWrite (s : State) (pa : Nat) (bs : List Byte) : State :=
  if paLost s pa then s else
  let go := bs.foldl (fun (p : State × Nat) v => (homePut p.1 p.2 v, p.2 + 1)) (touchHome s pa bs.length, pa)
  touchStamps (mendWords go.1 pa bs.length) pa bs.length

def homeWriteNat (s : State) (pa n v : Nat) : State := homeWrite s pa (leBytes n v)

/-- The address of word x_i of a context's record (Table 19-5). -/
def recWordPA (s : State) (ctx i : Nat) : Nat := (ctxD s ctx).recPA + 8 * i

def recWord (s : State) (ctx i : Nat) : Nat := homeNat s (recWordPA s ctx i) 8

/-- Sets bits of word x_i of a context's record, with an OR (R441). -/
def recOr (s : State) (ctx i m : Nat) : State := homeWriteNat s (recWordPA s ctx i) 8 (recWord s ctx i ||| m)

/-- Writes a field of word x_i of a context's record. -/
def recField (s : State) (ctx i lo n v : Nat) : State :=
  let w := recWord s ctx i
  homeWriteNat s (recWordPA s ctx i) 8 (w - (w / 2 ^ lo % 2 ^ n) * 2 ^ lo + (v % 2 ^ n) * 2 ^ lo)

/-! ### The graph table (Table 16-4) -/

/-- g0 (which = 0) or g1 (which = 1) of a graph's entry. -/
def graphWord (s : State) (g which : Nat) : W64 := kvGetD s.graphTab (2 * g + which) 0

def setGraphWord (s : State) (g which : Nat) (v : W64) : State :=
  { s with graphTab := kvPut 0 s.graphTab (2 * g + which) v }

def graphFirst (s : State) (g : Nat) : Nat := bitsOf (graphWord s g 0) 0 14
def graphCount (s : State) (g : Nat) : Nat := bitsOf (graphWord s g 0) 14 14
def graphCtx (s : State) (g : Nat) : Nat := bitsOf (graphWord s g 0) 28 6
def graphState (s : State) (g : Nat) : Nat := bitsOf (graphWord s g 1) 0 2

/-- Whether a graph is resident (R364). -/
def graphResident (s : State) (g : Nat) : Bool :=
  (graphWord s g 0).getLsbD 34 ∧ 1 ≤ graphCount s g ∧ graphCount s g ≤ 12288 ∧
    graphFirst s g + graphCount s g ≤ 12288 ∧ bitsOf (graphWord s g 0) 35 29 = 0

/-- Sets STATE, CODE and NODE of a graph and keeps RUNS. -/
def setGraphStatus (s : State) (g st code node : Nat) : State :=
  let runs := bitsOf (graphWord s g 1) 24 40
  setGraphWord s g 1 (BitVec.ofNat 64 (st + 4 * code + 1024 * (node % 2 ^ 14) + 2 ^ 24 * runs))

/-- Word L_i of a node of the node store, and a node's 32 words (R363). -/
def nodeWord (s : State) (node i : Nat) : W64 := kvGetD s.nodeStore (32 * node + i) 0

def nodeWords (s : State) (node : Nat) : List W64 := (List.range 32).map (nodeWord s node)

def findRun (s : State) (g : Nat) : Option Run := s.runs.find? fun r => r.id = g

def modRun (s : State) (g : Nat) (f : Run → Run) : State :=
  { s with runs := s.runs.map fun r => if r.id = g then f r else r }

def modNode (s : State) (g n : Nat) (f : NodeRun → NodeRun) : State :=
  modRun s g fun r => { r with nodes := kvMod r.nodes n f }

/-- A run fails (R362, R368, R462): the entry takes FAILED with CODE and NODE unless the run had failed already,
and nothing further of the run starts. -/
def failRun (s : State) (g n code : Nat) : State :=
  match findRun s g with
  | none => s
  | some r => if r.failed then s
    else modRun (setGraphStatus s r.graph 3 code n) g fun r => { r with failed := true }

/-- A failed run whose started nodes are complete is gone. -/
def endFailed (s : State) (run : Nat) : State :=
  let started (p : Nat × NodeRun) : Bool := p.2.state == .running || p.2.state == .deferred
  { s with runs := s.runs.filter fun r => !(r.id == run && r.failed && !(r.nodes.any started)) }

end Sys2Proof.Machine
end

