-- ==== Sys2Proof/Machine/Cache.lean ====
section
/-! DEFINITION. Writing L1 lines back to their homes (R331, R332). -/
namespace Sys2Proof.Machine
open Sys2Proof

def setL1 (s : State) (core key : Nat) (l : L1Line) : State := modCore s core fun c => { c with l1 := kvSet c.l1 key l }

/-- The errors of an L1 line end with the line. -/
def clearLine (s : State) (core key : Nat) : State :=
  clearUpsets s fun u => match u with
    | .line c k _ => c == core && k == key
    | _ => false

def dropL1 (s : State) (core key : Nat) : State := modCore (clearLine s core key) core fun c => { c with l1 := kvDel c.l1 key }

/-- The runs of set bits of a line's dirty mask: places to write. -/
def dirtyBytes (l : L1Line) : List (Nat × Byte) :=
  ((List.range 128).zip l.bytes).filter fun p => l.dirty.testBit p.1

/-- The dirty bytes of the words of an L1 line that hold an error. -/
def badBytes (s : State) (core key : Nat) (l : L1Line) : Nat :=
  s.upsets.foldl (fun m u => match u with
    | .line c k w => if c = core ∧ k = key then m ||| (l.dirty &&& (255 * 2 ^ (8 * w))) else m
    | _ => m) 0

/-- A write-back that finds an uncorrectable error: the bad words are lost, and the error is fatal to the context and
crew that stored there (R286). -/
def loseBad (s : State) (core key : Nat) : State :=
  if s.upsets.isEmpty then s
  else match kvGet (coreD s core).l1 key with
    | none => s
    | some l =>
      let bad := badBytes s core key l
      if bad = 0 then s
      else
        let s := setL1 (clearLine s core key) core key { l with dirty := l.dirty - bad }
        modCore { s with posted := s.posted ++ [(l.owner.1, l.owner.2, Cause.code .eccUeLine)] } core fun k =>
          { k with uec := min (2 ^ 32 - 1) (k.uec + 1) }

/-- The dirty bytes of a line reach its home (R331). Bytes for a peer behind a link that is
DOWN are lost, which posts a fatal error (R448). The home of a synchronisation location whose bytes they replace then holds
what the line's copy held: the value of its release or of an atomic that follows it, or another (R342). -/
def flushLine (s : State) (core key : Nat) (l : L1Line) : State :=
  if paLost s (128 * key) then postLost s l.owner
  else
    let s' := (dirtyBytes l).foldl (fun s p => homePut s (128 * key + p.1) p.2) (touchHome s (128 * key) 128)
    let s' := (List.range 16).foldl (fun s w =>
      if l.dirty / 2 ^ (8 * w) % 256 = 255 then mendWords s (128 * key + 8 * w) 8 else s) s'
    let touched (p : Nat × Stamp) : Bool :=
      (dirtyBytes l).any fun q => decide (p.1 ≤ 128 * key + q.1) && decide (128 * key + q.1 < p.1 + p.2.bytes)
    let upd (p : Nat × Stamp) : Nat × Stamp :=
      if touched p then (p.1, { p.2 with fresh := p.2.copies.contains core }) else p
    { s' with stamps := s'.stamps.map upd }

/-- Writes a line back (R331): it becomes clean, and its dirty bytes reach their home, once no remap step runs on the home's
column (R482). -/
def writeBack (s : State) (core key : Nat) : State :=
  let s := loseBad s core key
  match kvGet (coreD s core).l1 key with
  | none => s
  | some l =>
    if l.dirty = 0 then s
    else
      let s' := setL1 s core key { l with dirty := 0, colours := 0 }
      if remapBusy s (128 * key) then { s' with backlog := s'.backlog ++ [(core, key, l)] } else flushLine s' core key l

/-- Writes back the lines of a core whose class is no wider than the scope and whose colours meet the mask (R332). -/
def drainCore (s : State) (core scope mask : Nat) : State :=
  if scope = 0 then s
  else
    let keys := ((coreD s core).l1.filter fun p =>
      p.2.dirty != 0 && decide (p.2.cls ≤ scope) && (p.2.colours &&& mask) != 0).map (·.1)
    keys.foldl (fun s k => writeBack s core k) s

/-- The lines of a core that never go stale leave its L1, written back (R327, R338). -/
def dropLasting (s : State) (core : Nat) : State :=
  (((coreD s core).l1.filter fun p => p.2.cls == 0 || p.2.ros).map (·.1)).foldl (fun s k =>
    dropL1 (writeBack s core k) core k) s

/-! ### The ways of the L1 (R272) -/

/-- The ways of each of the 64 sets: 4 for a slab and 2 for a half of slab 3 that no fill holds. -/
def l1Ways (k : Core) : Nat :=
  4 * (40 - k.scratchSlabs) - 2 * ((if k.half30 then 1 else 0) + (if k.half31 then 1 else 0))

/-- The L1 holds more lines than its ways: one leaves before anything else. -/
def l1Over (k : Core) : Bool := decide (64 * l1Ways k < k.l1.length)

/-- A line of the L1 may leave it to make room: which lines share a set is the hardware's, so any line may once the L1 holds
as many as one set's ways. -/
def l1Full (k : Core) : Bool := decide (l1Ways k < k.l1.length)

/-- One line leaves, written back (R272, R331). -/
def replaceLine (s : State) (core key : Nat) : State :=
  if l1Full (coreD s core) then dropL1 (writeBack s core key) core key else s

/-- Some lines of a core's L1 leave it, written back: those that lie in a slab or half slab which the L1 gives up
(R268, R271). Which lines lie there is the hardware's (R272; log 2). -/
def shedLines (s : State) (core : Nat) : State :=
  ((coreD s core).l1.map (·.1)).foldl (fun s k =>
    let (b, s) := freeBool s
    if b then dropL1 (writeBack s core k) core k else s) s

end Sys2Proof.Machine
end

