-- ==== Sys2Proof/Machine/Exit.lean ====
section
/-! DEFINITION. How fibres, crews and clusters end (R54, R250), how a fill ends with a failure (R392), fatal errors of
a context (R462), and raising a cause at a word (R456 to R458). -/
namespace Sys2Proof.Machine
open Sys2Proof

/-! ### Template images (R54) -/

/-- The image of a waiting member, a fibre or a crew still to be stamped keeps it live. -/
def imageUsed (s : State) (img : Nat) : Bool :=
  let inBatch (b : Batch) : Bool := b.fibres.any fun p => p.2.img == some img
  let inCrew (c : Crew) : Bool := c.waiting.any fun w => w.img == img
  s.batches.any inBatch || s.crews.any inCrew ||
    s.clusters.any fun k => k.savedBatches.any inBatch || k.savedCrews.any inCrew ||
      k.stampFrom.any (fun p => p.2 == img)

/-- Releases the images whose last fibre has quit (R54): a kindling group's image is kept until its crews are placed
(R257). -/
def reapImages (s : State) : State :=
  let seeds (i : Nat) : Bool := s.runs.any fun r => r.nodes.any fun n => n.2.kindlings.any fun k => k.2 == some i
  let kept := s.images.filter fun p => imageUsed s p.1 || seeds p.1
  let cut (p : Nat × Image) : Nat × Image :=
    (p.1, { p.2 with parent := p.2.parent.filter fun q => kept.any fun k => k.1 == q })
  { s with images := kept.map cut }

/-! ### Waits that end -/

/-- Whether the watchdog counts a wait (R464): of those on the array, a LOADING plane's only; a remap step's does not
count (R482). -/
def waitCounts (s : State) (k : Block) : Bool :=
  match k with
  | .barrier _ _ _ _ => true
  | .buffer _ _ _ => true
  | .timeline _ _ => true
  | .event _ _ => true
  | .xset => true
  | .gather _ _ => true
  | .plane _ _ => true
  | .swap => false
  | .array n => n == 0
  | .home i _ => !remapBusy s (128 * i)
  | .fetch i _ => !remapBusy s (128 * i)
  | .fills _ _ => false
  | .tiles _ => false
  | .remap _ => false

/-- A barrier, buffer, timeline or event wait (Table 08-6). -/
def timedWait (k : Block) : Bool :=
  match k with
  | .barrier _ _ _ _ => true
  | .buffer _ _ _ => true
  | .timeline _ _ => true
  | .event _ _ => true
  | _ => false

/-- A block ends its counted wait: the ac join counter 6 for barrier, buffer, timeline and event waits (Table 08-6),
and the wait is a sample of its monitor sources (Table 24-3). -/
def endWait (s : State) (b : Batch) : State :=
  match b.block with
  | none => s
  | some k =>
    let n := s.clock - b.blockedAt
    let timed (s : State) (src : Nat) : State := monSample (perfAdd s b.crew 6 n) src b.ctx n
    let s := match k with
      | .barrier _ _ _ _ => timed s 2
      | .buffer _ _ _ => timed s 3
      | .timeline _ _ => timed s 4
      | .event _ _ => timed s 4
      | _ => s
    if waitCounts s k then monSample s 10 b.ctx n else s

/-! ### Leaving a core -/

/-- The load in progress on a core ends: a remap step waits for it no longer (R223). -/
def endReads (s : State) (core : Nat) : State :=
  { s with remaps := s.remaps.map fun r => { r with readers := r.readers.filter fun c => c ≠ core } }

/-- The binding of a core's array ends when no crew of its cluster is left on the core; the planes are then EMPTY
and a load or exchange in progress is dropped (R188). An array lent to a fill stays with the fill, and so does the load that the
fill has in progress there. -/
def unbindArray (s : State) (core : Nat) : State :=
  match (coreD s core).array with
  | none => s
  | some k =>
    if s.crews.any fun c => c.core == core && c.cluster == k then s
    else if (coreD s core).borrow.isSome then modCore s core fun c => { c with
      array := none, lent := some ({}, {}, none), lentRestored := false, reloads := [] }
    else modCore (endReads s core) core fun c => { c with
      array := none, planeA := {}, planeS := {}, load := none, swap := false, reloads := [], lent := none, passes := [] }

/-- Drops a crew's batches, sets and quarters from its core: the part of leaving that an exit, a discard and a save
share. -/
def dropCrewWork (s : State) (c : Crew) : State :=
  let s := { s with
    batches := s.batches.filter fun b => b.crew ≠ c.uid
    xsets := s.xsets.filter fun x => x.crew ≠ c.uid }
  modCore s c.core fun k =>
    let strip (p : Pass) : Pass := { p with quarters := p.quarters.filter fun q => q.crew ≠ c.uid }
    { k with passes := (k.passes.map strip).filter fun p => !p.quarters.isEmpty }

/-- Drops a crew's fibre-local lines without write-back (R250, R282). -/
def dropFibreLocal (s : State) (c : Crew) : State :=
  modCore s c.core fun k => { k with l1 := k.l1.filter fun l => l.2.fl ≠ some c.uid }

/-- The errors in what a crew holds on its core end with the crew. -/
def clearCrew (s : State) (c : Crew) : State :=
  clearUpsets s fun u => match u with
    | .reg k sl _ _ => k == c.core && c.slots.contains sl
    | .scratch q _ => q == c.uid
    | .acc q _ _ _ => q == c.uid
    | _ => false

/-- What stays of a crew that leaves the machine. -/
def goneOf (s : State) (c : Crew) : Gone := ⟨c.uid, c.id, c.cluster, (findCluster s c.cluster).map fun k => (k.run, k.node)⟩

/-- Stores of a crew are still to reach their homes, or have been lost. -/
def owesStores (s : State) (uid : Nat) : Bool :=
  (s.cores.any fun k => k.l1.any fun p => p.2.dirty != 0 && p.2.owner.2 == uid) || (s.backlog.any fun p => p.2.2.owner.2 == uid) ||
    s.posted.any fun p => p.2.1 == uid

/-- A crew that leaves the machine is remembered while it owes stores, whose loss is fatal (R448, R461). -/
def keepGone (s : State) (c : Crew) : State := { s with gone := (goneOf s c :: s.gone).filter fun g => owesStores s g.uid }

/-- A crew leaves the machine: slots, granules, tiles, barriers and buffers are free (R250). The waits of its batches end
(R490). -/
def removeCrew (s : State) (uid : Nat) : State :=
  match findCrew s uid with
  | none => s
  | some c =>
    let s := clearCrew ((s.batches.filter fun b => b.crew = uid).foldl endWait s) c
    let s := keepGone (dropFibreLocal (dropCrewWork s c) c) c
    let s := { s with crews := s.crews.filter fun d => d.uid ≠ uid }
    let s := modCtx s c.ctx fun x => { x with flHeld := if c.fill.isSome then x.flHeld else x.flHeld.filter fun q => q ≠ c.flSlot }
    unbindArray s c.core

/-- A cluster ends when its last crew exits (R250): its save slot is free (R443) and its node has one fewer. -/
def endCluster (s : State) (id : Nat) : State :=
  match findCluster s id with
  | none => s
  | some k =>
    let s := { s with clusters := s.clusters.filter fun d => d.id ≠ id }
    let s := modCtx s k.ctx fun x => { x with saveHeld := x.saveHeld.filter fun q => q ≠ k.saveSlot }
    modNode s k.run k.node fun n => { n with open_ := n.open_ - 1 }

/-! ### Fill records ending (R392, Table 17-4) -/

def findFill (s : State) (id : Nat) : Option Fill := s.fills.find? fun f => f.id = id

def modFill (s : State) (id : Nat) (f : Fill → Fill) : State :=
  { s with fills := s.fills.map fun r => if r.id = id then f r else r }

def delFill (s : State) (id : Nat) : State := { s with fills := s.fills.filter fun r => r.id ≠ id }

/-- The accesses parked on a record, of every agent, change as it ends (R384). -/
def endParks (s : State) (id : Nat) (g : ParkLine → Option ParkLine) : State :=
  let upd (ps : List ParkLine) : List ParkLine := ps.filterMap fun p => if p.record = some id then g p else some p
  { s with
    batches := s.batches.map fun b => { b with fillWait := upd b.fillWait }
    flues := s.flues.map fun p => (p.1, { p.2 with fillWait := upd p.2.fillWait })
    splits := s.splits.map fun p => (p.1, { p.2 with fillWait := upd p.2.fillWait })
    cores := s.cores.map fun k => { k with load := k.load.map fun l => { l with fillWait := upd l.fillWait } }
    parked := s.parked.map fun p => (p.1, upd p.2) }

/-- A record becomes FAILED with a cause and a code, and every access parked on it takes FILL_FAILED (Table 17-4). -/
def failRecord (s : State) (id cause code : Nat) : State :=
  match findFill s id with
  | none => s
  | some f =>
    let f' := { f with state := .failed, cause := cause, code := code, put := [] }
    endParks (modFill s id fun _ => f') id fun p => some { p with failed := some f' }

/-- Word t_j of a generator's entry (Table 17-2). -/
def genWord (s : State) (g j : Nat) : W64 := kvGetD s.genTab (4 * g + j) 0

def setGenWord (s : State) (g j : Nat) (v : W64) : State := { s with genTab := kvPut 0 s.genTab (4 * g + j) v }

/-- The load that fills a plane again from its descriptor (R222): record and tables are read anew. -/
def reloadOf (target : Nat) (q : Plane) : WLoad :=
  { target := target, loader := none, ctx := q.ctx, depth := 0, cls := 1, recVA := q.recVA
    tables := q.tabList.map fun va => ⟨va, none, false, 0⟩, reload := true }

/-- The reloads of a core's planes: READY planes before any batch issues, a LOADING one as a load that goes on with the
tables recorded so far; an EMPTY or FAULTED plane needs none (R222). -/
def reloadList (qa qs : Plane) (l : Option WLoad) : List (Nat × WLoad) :=
  (if qa.state = 2 then [(0, reloadOf 0 qa)] else []) ++ (if qs.state = 2 then [(1, reloadOf 1 qs)] else []) ++
    (match l with
    | some l => if qs.state = 1 then [(1, { l with
        lines := [], lineAt := [], total := none, stall := 0, horizontal := false, ratio4 := false, held := none, reload := false
        fillWait := []
        tables := l.tables.map fun t => { t with block := none, arrived := false, at_ := 0 } })] else []
    | none => [])

/-- Puts planes back on a core and starts their reloads, at a restore or at a fill's end. -/
def restorePlanes (k : Core) (qa qs : Plane) (l : Option WLoad) (atRestore : Bool) : Core :=
  let rs := (reloadList qa qs l).map fun r => (r.1, { r.2 with atRestore := atRestore })
  { k with
    planeA := qa, planeS := qs, swap := false, passes := []
    load := (rs.head?).map (·.2)
    reloads := rs.tail }

/-- The planes and the weight buffer of a core are filled anew: the errors in them end (R285, R286). -/
def clearPlanes (s : State) (core : Nat) : State :=
  clearUpsets s fun u => match u with
    | .plane c _ => c == core
    | .buffer c _ => c == core
    | _ => false

/-- The half of slab 3, the slot and the array that a fill task held are given back (R271, R390): its L1 half holds
no lines, and both planes of a borrowed array are reloaded as at restore (R222). -/
def freeFillTask (s : State) (uid : Nat) : State :=
  match findCrew s uid with
  | none => s
  | some c =>
    let s := removeCrew s uid
    -- what the fill loaded into a borrowed array is given up, with its errors
    let s := if (coreD s c.core).borrow = some uid then endReads (clearPlanes s c.core) c.core else s
    modCore s c.core fun k =>
      let k := { k with
        half30 := if c.slots = [30] then false else k.half30
        half31 := if c.slots = [31] then false else k.half31 }
      if k.borrow = some uid then
        (match k.lent with
        | some (qa, qs, l) => { restorePlanes k qa qs l k.lentRestored with borrow := none, lent := none, lentRestored := false }
        | none => { k with borrow := none })
      else k

/-- FAILS of a generator's entry counts a failed fill: t2[63:32], saturating (Table 17-2). -/
def addFails (s : State) (g : Nat) : State :=
  let w := (genWord s g 2).toNat
  setGenWord s g 2 (BitVec.ofNat 64 (w % 2 ^ 32 + 2 ^ 32 * min (2 ^ 32 - 1) (w / 2 ^ 32 + 1)))

/-- A fill ends without FILLDONE: FAILED with cause and code, or back to FREE when it is stale (Table 17-4). A
record whose context is gone goes to FREE. The fill's latency is a monitor sample (Table 24-3). -/
def failFill (s : State) (id cause code : Nat) : State :=
  match findFill s id with
  | none => s
  | some f =>
    let s := freeFillTask s f.crew
    let s := monSample s 1 f.ctx (s.clock - f.born)
    if f.stale ∨ (ctxD s f.ctx).state = .destroying then delFill (endParks s id fun _ => none) id
    else addFails (failRecord s id cause code) f.gen

/-- Every pending tile of a crew commits (R250 step 1). -/
def commitCrew (s : State) (c : Crew) : State :=
  let upd (t : Tile) : Tile := if t.owner.isSome then { com := t.pend, pend := [], owner := none } else t
  modCrew (commitUpsets s c.uid fun t => t.owner.isSome) c.uid fun d => { d with tiles := d.tiles.map upd }

/-- The exit of a pipeline crew (R372): a release at DEVICE scope, and the counts of its stage's queue and of the
queue before it. -/
def pipeExit (s : State) (c : Crew) : State :=
  match c.items, findCluster s c.cluster with
  | some (stage, m), some k =>
    let s := drainCore s c.core 2 0xFF
    modNode s k.run k.node fun n => { n with pipe := n.pipe.map fun p =>
      { p with
        produced := listMod p.produced stage fun x => x + m
        freed := if stage = 0 then p.freed else listMod p.freed (stage - 1) fun x => x + m
        busy := p.busy.erase (stage, hdrBase c.hdr 0) } }
  | _, _ => s

/-- A crew exits (R250): a fill task that has not done FILLDONE fails with 0xFF and 0xFFFF (R392). -/
def exitCrew (s : State) (uid : Nat) : State :=
  match findCrew s uid with
  | none => s
  | some c =>
    match c.fill with
    | some id => failFill s id 0xFF 0xFFFF
    | none =>
      let s := pipeExit (commitCrew s c) c
      let s := removeCrew s uid
      let s := modCluster s c.cluster fun k => { k with liveCrews := k.liveCrews - 1 }
      let s := match findCluster s c.cluster with
        | some k => if k.liveCrews = 0 then endCluster s k.id else s
        | none => s
      reapImages s

/-- A crew with no live fibre and no waiting member exits (R250). -/
def exitIfEmpty (s : State) (uid : Nat) : State :=
  match findCrew s uid with
  | none => s
  | some c => if (s.batches.any fun b => b.crew = uid) ∨ !c.waiting.isEmpty then s else exitCrew s uid

/-! ### Fatal errors (R461, R462) -/

/-- Discards a cluster: its crews end without a save; a saved one gives back its slots of fibre-local memory. -/
def discardCluster (s : State) (id : Nat) : State :=
  let uids := (s.crews.filter fun c => c.cluster = id).map (·.uid)
  let s := match findCluster s id with
    | some k => modCtx s k.ctx fun x => { x with flHeld := x.flHeld.filter fun q => !k.savedCrews.any fun c => c.flSlot == q }
    | none => s
  reapImages (endCluster (uids.foldl removeCrew s) id)

/-- A crew saved with its cluster. -/
def savedCrew (s : State) (uid : Nat) : Option Crew :=
  s.clusters.findSome? fun k => k.savedCrews.find? fun c => c.uid = uid

/-- A crew that has not exited, resident or saved. -/
def anyCrew (s : State) (uid : Nat) : Option Crew := (findCrew s uid).or (savedCrew s uid)

/-- A fatal error would be the first of its halt (R462): its context is RESIDENT, or halts for another reason with FATAL = 0
(log 81). -/
def firstFatal (s : State) (ctx : Nat) : Bool :=
  match (ctxD s ctx).state with
  | .resident => true
  | .halting => !(recWord s ctx 8).testBit 3
  | .halted => !(recWord s ctx 8).testBit 3
  | _ => false

/-- A run ends by a fatal error of node n (R462): it fails with 0xFE, and nothing further of it starts. A cluster that still waits to
be placed, and a submission that waits, are dropped; a saved cluster is restored, and runs on. -/
def stopRun (s : State) (run n : Nat) : State :=
  let s := failRun s run n 0xFE
  let waits (k : Cluster) : Bool := k.run == run && k.state == .waiting
  let cut (p : Nat × NodeRun) : Nat × NodeRun := (p.1, { p.2 with
    state := if p.2.state == .deferred then .done else p.2.state
    open_ := p.2.open_ - s.clusters.countP fun k => waits k && k.node == p.1 })
  { modRun s run (fun r => { r with dead := true, nodes := r.nodes.map cut }) with clusters := s.clusters.filter fun k => !waits k }

/-- The crew that a fatal error names, which may have exited since. -/
def fatalCrew (s : State) (uid : Nat) : Option Gone :=
  ((anyCrew s uid).map (goneOf s)).or (s.gone.find? fun g => g.uid == uid)

/-- What a fatal error discards: the cluster of its crew, with the run that the cluster belongs to (R462). -/
def discardFor (s : State) (g : Gone) : State :=
  let s := match g.run with
    | some (r, n) => stopRun s r n
    | none => s
  let s := if (findCluster s g.cluster).isSome then discardCluster s g.cluster else s
  match g.run with
  | some (r, _) => endFailed (reapImages s) r
  | none => s

/-- A fatal error of a context (R462): the first of a halt is recorded, the cluster of the crew is discarded, its
node's run fails with 0xFE, and a RESIDENT context is HALTING. -/
def fatalError (s : State) (ctx crew cause : Nat) : State :=
  let who := fatalCrew s crew
  let s := if firstFatal s ctx then
      let s := recOr (recField s ctx 8 8 8 cause) ctx 8 8
      modCtx (recField s ctx 9 0 32 ((who.map (·.id)).getD 0)) ctx fun c => { c with
        state := if c.state = .resident then .halting else c.state }
    else s
  match who with
  | none => s
  | some g => discardFor s g

/-! ### Raising a cause at a word -/

/-- Takes a cause at its word once nothing is outstanding: a fill task's fill fails (R392), a trap without a handler
is fatal (R458), every other cause enters the handler (R457). -/
def takeTrap (s : State) (b : Batch) (t : TrapInfo) : State :=
  match (crewD s b.crew).fill with
  | some id => failFill s id t.cause.code 0
  | none =>
    if trapFatal s b t then fatalError s b.ctx b.crew t.cause.code
    else trapEntry s b.id t

/-- UEC of a core counts the uncorrectable errors found on it (Table 24-2), saturating. -/
def countUE (s : State) (core : Nat) (c : Cause) : State :=
  if c.code / 16 = 5 ∧ c.code < 0x55 then modCore s core fun k => { k with uec := min (2 ^ 32 - 1) (k.uec + 1) } else s

/-- An error that no word reads is counted on its core, and posted as fatal to the crew that held the data (R286). -/
def postUE (s : State) (b : Batch) (c : Cause) : State :=
  { countUE s b.core c with posted := s.posted ++ [(b.ctx, b.crew, c.code)] }

/-- Raises a cause at the word of batch `b`: an uncorrectable error is counted where it is found, a held one not again; with
results outstanding the batch parks first and TRAP_ENTRY follows (R457 step 1). -/
def raise (s : State) (bid : Nat) (t : TrapInfo) : State :=
  match findBatch s bid with
  | none => s
  | some b =>
    let s := noteBanks (if t.kind = 1 then s else countUE s b.core t.cause) t.words
    if outstanding s b then modBatch s bid fun b => { b with
      trap := some t, parked := true, parkedAt := s.clock, block := none, fillWait := [] }
    else takeTrap s b t

end Sys2Proof.Machine
end

