-- ==== Sys2Proof/Machine/Operands.lean ====
section
/-! DEFINITION. Operand forms and the frame of every instruction word: the guard (R66, R68), the decode checks in the
order of Table 03-7 (R75), the parks before a word (R62), and what retires with it (R58 to R62, R76). -/
namespace Sys2Proof.Machine
open Sys2Proof

/-- What a 9-bit register field holds (Table 03-4): `n` consecutive names from a multiple of `al`, or an index. -/
inductive Cls where
  | v (n al : Nat)
  | p | br | cb | acc | tl | wp
  | z
  /-- bits of an immediate or of a field the entry itself checks -/
  | any
deriving DecidableEq, Repr

/-- Names of the register fields. -/
inductive Fld where
  | d | a | b | c
deriving DecidableEq, Repr

/-- What the decode checks and the retirement need to know of a word (its entry's row). -/
structure Spec where
  /-- fields in the order d, a, b, c with their class and value -/
  fields : List (Fld × Cls × W9)
  /-- the modifier bits and the other field checks of the entry hold (step 5) -/
  legal : Bool := true
  /-- K = 1 (R74) -/
  k : Bool := false
  eph : Bool := false
  /-- the word has a fixed-latency register result, so eph may be set (R59) -/
  ephOk : Bool := false
  /-- its register result is variable-latency (R60) -/
  var : Bool := false
  priv : Bool := false
  /-- region-closing (Table 09-1) -/
  closes : Bool := false
  /-- the batch parks before the word although it closes no region (FENCE, GATHER, RAYQ, RAYRD, QUIT) -/
  parks : Bool := false
  /-- the word raises nothing past step 5 of Table 03-7 (PREF, R164) -/
  quiet : Bool := false
  /-- uniform slots (R46) -/
  uni : List Fld := []
  /-- quarter-uniform slots (R46) -/
  quarter : List Fld := []
  /-- the fields whose registers the word reads -/
  reads : List Fld := [.a, .b, .c]
  /-- SHFL reads field a in other lanes than its own, and checks them itself (R144, R286) -/
  cross : Bool := false
  /-- the fields whose registers it writes -/
  writes : List Fld := [.d]
  s : Bool
  rgn : Bool
  word : W64

/-- What a word's own part does, once every decode check has passed. -/
inductive Eff where
  /-- register and predicate results (absolute name, value; predicate number, lanes) and FP flags to raise -/
  | res (regs : List (Nat × RegVal)) (preds : List (Nat × W32)) (flags : LaneFlags)
  /-- the same on a state the word has changed -/
  | done (s : State) (regs : List (Nat × RegVal)) (preds : List (Nat × W32)) (flags : LaneFlags)
  /-- the word has set the pcs itself; the batches that come of it, the first for the word's own -/
  | jump (s : State) (parts : List Nat)
  /-- the word blocks and is issued again when its condition may hold -/
  | wait (s : State) (k : Block)
  /-- the word raises a cause -/
  | trap (s : State) (t : TrapInfo)

/-- The word being executed: the state, its batch and active lanes, and what its fields name. -/
structure Exec where
  s : State
  b : Batch
  act : List Nat
  sp : Spec

/-! ### Names -/

/-- The absolute name of name `n` of a field with value `f` (R35, R74): 512 + j is k_j. -/
def absName (b : Batch) (k : Bool) (f n : Nat) : Nat := if k ∧ 480 ≤ f then 512 + (f - 480 + n) else b.wb + f + n

/-- R38 for one absolute name. -/
def nameFault (s : State) (b : Batch) (i : Nat) : Option Cause :=
  if 512 ≤ i ∧ i < 544 then none
  else
    let n := b.regs.length
    let m := hdrM (batchHdr s b)
    if i < n then none
    else if i < n + m ∧ i < 512 then (if holdsXSet s b then none else some .xsetState)
    else some .regRange

/-- The register check of one field: names beyond v511 without K are out of range. -/
def fieldNames (b : Batch) (k : Bool) (c : Cls) (f : W9) : List (Option Nat) :=
  match c with
  | .v n _ => (List.range n).map fun j =>
      if k ∧ 480 ≤ f.toNat then some (absName b k f.toNat j)
      else let i := b.wb + f.toNat + j
        if i < 512 then some i else none
  | _ => []

/-- The first failing register resolution of a word (step 7). -/
def resolveFault (s : State) (b : Batch) (sp : Spec) : Option Cause :=
  (sp.fields.flatMap fun p => fieldNames b sp.k p.2.1 p.2.2).findSome? fun o =>
    match o with
    | some i => nameFault s b i
    | none => some .regRange

/-- Whether a field's value is legal for its class (R71). -/
def fieldOk (c : Cls) (f : W9) : Bool :=
  match c with
  | .v _ al => f.toNat % al == 0
  | .p => f.toNat < 32
  | .br => f.toNat < 16
  | .cb => f.toNat < 16
  | .acc => f.toNat < 64
  | .tl => f.toNat < 16
  | .wp => f.toNat < 2
  | .z => f.toNat == 0
  | .any => true

/-- Step 5 of Table 03-7. -/
def specLegal (sp : Spec) : Bool :=
  sp.legal && (sp.fields.all fun p => fieldOk p.2.1 p.2.2) && (!sp.eph || sp.ephOk)

def fieldOf (sp : Spec) (f : Fld) : Option (Cls × W9) := (sp.fields.find? fun p => p.1 = f).map (·.2)

/-- The value of a field (zero when the word has none). -/
def fieldVal (sp : Spec) (f : Fld) : Nat := ((fieldOf sp f).map fun p => p.2.toNat).getD 0

/-- The absolute name of register `j` of a field. -/
def nameOf (x : Exec) (f : Fld) (j : Nat) : Nat := absName x.b x.sp.k (fieldVal x.sp f) j

/-- Register `j` of a field as the word reads it, T as U. -/
def regOf (x : Exec) (f : Fld) (j : Nat) : RegVal := readReg x.s x.b (nameOf x f j)

/-- A lane's value of register `j` of a field. -/
def lane (x : Exec) (f : Fld) (j l : Nat) : W32 := laneVal (regOf x f j) l

/-- A lane's 64-bit value of a VE field. -/
def lane64 (x : Exec) (f : Fld) (l : Nat) : W64 := (lane x f 1 l) ++ (lane x f 0 l)

/-- The value of a uniform slot (R46); the tag is checked before. -/
def uniVal (x : Exec) (f : Fld) (j : Nat) : W32 := lane x f j (x.act.headD 0)

def uni64 (x : Exec) (f : Fld) : W64 := (uniVal x f 1) ++ (uniVal x f 0)

/-- The lanes of `act` in quarter `q`. -/
def quarterLanes (act : List Nat) (q : Nat) : List Nat := act.filter fun l => l / 8 = q

/-- A quarter-uniform register holds one value across the active lanes of each quarter (R46): the lanes that
break this. -/
def quarterBad (act : List Nat) (v : RegVal) : List Nat :=
  (List.range 4).flatMap fun q =>
    let ls := quarterLanes act q
    match v with
    | .u _ => []
    | .t _ => []
    | .a _ st => if st = 0 then [] else ls
    | .g _ =>
      if ls.all fun l => laneVal v l = laneVal v (ls.headD 0) then [] else ls

/-- Step 8 of Table 03-7: the shape checks in field order. -/
def shapeFault (s : State) (b : Batch) (act : List Nat) (sp : Spec) : Option (Cause × W32) :=
  sp.fields.findSome? fun p =>
    match p.2.1 with
    | .v n _ => (List.range n).findSome? fun j =>
        let v := rawReg s b (absName b sp.k p.2.2.toNat j)
        if sp.uni.contains p.1 && !isUni v then some (.shape, 0)
        else if sp.quarter.contains p.1 && !(quarterBad act v).isEmpty then some (.shapeQuarter, maskOf (quarterBad act v))
        else none
    | _ => none

/-! ### Uncorrectable errors in registers (R285 to R287) -/

/-- What a word meets in one register that it reads: an error in a lane that it reads of a general line, in the scalar of a
uniform or affine one, or in the Kiln image of a T one. An ephemeral result is read from the window and not from
its register (R59). -/
def regFault (s : State) (b : Batch) (act : List Nat) (i : Nat) : Option (Cause × W32) :=
  if (windowReg b.window i).isSome then none
  else match bankReg s b i with
    | .t img => if s.upsets.contains (.image img) then some (.eccUeLine, 0) else none
    | .g _ =>
      let bad := act.filter fun l => (regUpsets s b i).contains l
      if bad.isEmpty then none else some (.eccUeReg, maskOf bad)
    | _ => if (regUpsets s b i).isEmpty then none else some (.eccUeReg, maskOf act)

/-- What a write of some lanes meets in the register that it writes: a T one is copied from its Kiln image (R44, R287), and
the scalar of a uniform or affine one is read for the lanes that the word does not write (R43; log 83). An ephemeral result of
some lanes reads the register for the others, whose values it carries (R59; log 83). -/
def overFault (s : State) (b : Batch) (act : List Nat) (eph : Bool) (i : Nat) : Option (Cause × W32) :=
  let rest := (liveLanes b).filter fun l => !act.contains l
  if eph then (if rest.isEmpty then none else regFault s b rest i)
  else match bankReg s b i with
    | .t img => if s.upsets.contains (.image img) then some (.eccUeLine, 0) else none
    | .g _ => none
    | _ => if rest.isEmpty || (regUpsets s b i).isEmpty then none else some (.eccUeReg, maskOf act)

/-- The errors under the registers that the word writes at once. -/
def writeFault (s : State) (b : Batch) (act : List Nat) (sp : Spec) : Option (Cause × W32) :=
  if sp.var then none
  else sp.fields.findSome? fun p =>
    match p.2.1 with
    | .v n _ => if sp.writes.contains p.1 then
        (List.range n).findSome? fun j => overFault s b act sp.eph (absName b sp.k p.2.2.toNat j)
        else none
    | _ => none

/-- The first error among the registers that a word reads, and those that it writes. -/
def readFault (s : State) (b : Batch) (act : List Nat) (sp : Spec) : Option (Cause × W32) :=
  if s.upsets.isEmpty || sp.quiet then none
  else (sp.fields.findSome? fun p =>
    match p.2.1 with
    | .v n _ => if sp.reads.contains p.1 && !(sp.cross && p.1 == .a) then
        (List.range n).findSome? fun j => regFault s b act (absName b sp.k p.2.2.toNat j) else none
    | _ => none).or (writeFault s b act sp)

/-! ### Guards -/

/-- The guard of an F-form or I-form word in a lane (R66). -/
def guardFI (gp : BitVec 3) (gn : Bool) (pw : W32) : Bool :=
  if gp = 7#3 then !gn else Bool.xor (pw.getLsbD gp.toNat) gn

/-- The guard of a P-form word in a lane (R68). -/
def guardP (pg : BitVec 2) (pw : W32) : Bool :=
  match pg.toNat with
  | 0 => true
  | 1 => pw.getLsbD 0
  | 2 => !pw.getLsbD 0
  | _ => pw.getLsbD 1

/-- active(B): the live lanes whose guard is true. -/
def activeLanes (b : Batch) (guard : W32 → Bool) : List Nat :=
  (b.fibres.filter fun p => guard p.2.pw).map (·.1)

/-! ### Issue cost (R37) -/

/-- Extra ac of an F-form word: distinct general, banked source names in one bank beyond the first. -/
def bankCost (s : State) (b : Batch) (sp : Spec) : Nat :=
  let srcs := sp.fields.filter fun p => sp.reads.contains p.1
  let names := (srcs.flatMap fun p => match p.2.1 with
    | .v n _ => (List.range n).map fun j => absName b sp.k p.2.2.toNat j
    | _ => []).eraseDups
  let read (i : Nat) : Bool := i < 512 && (windowReg b.window i).isNone &&
    !(b.window.any fun e => e.any fun q => q.1 == i) && (match bankReg s b i with | .g _ => true | _ => false)
  let used := names.filter read
  ((List.range 4).map fun k => (used.filter fun i => i % 4 = k).length - 1).foldl max 0

/-! ### The region of a word (R259) -/

/-- The region starts at this word when it carries rgn or follows a closing word. What words before it have outstanding, results
and stores, is no part of it: a discard of the region does not bring it back, and it is not lost (R262, R338; log 95). -/
def startRegion (s : State) (b : Batch) (rgn : Bool) : State :=
  if rgn || b.newRegion then
    modBatch s b.id fun c => { c with
      regionStart := c.pc, newRegion := false, gatherAt := none, owed := c.retbuf.length, storesOwed := c.stores.length }
  else s

/-! ### Retirement -/

/-- A word enters the forwarding window (R58). -/
def pushWindow (s : State) (bid : Nat) (e : WinEntry) : State :=
  modBatch s bid fun b => { b with window := (e :: b.window).take 8 }

/-- Results reach their registers at once (R56), the ephemeral ones only the window (R59), the variable-latency
ones the return buffer (R60). A later write to some lanes of a name whose ephemeral value still stands in the window
merges with the banked value, which the other lanes then show (log 79). -/
def writeResults (s : State) (bid : Nat) (act : List Nat) (sp : Spec) (regs : List (Nat × RegVal)) (fl : LaneFlags) : State :=
  if sp.var then
    pushWindow (if regs.isEmpty then s
      else modBatch s bid fun b => { b with retbuf := b.retbuf ++ [.result (maskOf act) regs fl] }) bid []
  else if sp.eph then
    match findBatch s bid with
    | none => s
    | some b =>
      let val (p : Nat × RegVal) : Nat × Option RegVal := (p.1, some (mergeReg (liveLanes b) act (readReg s b p.1) p.2))
      pushWindow s bid (regs.map val)
  else pushWindow (putRegs s bid act regs) bid (regs.map fun p => (p.1, none))

/-- The pc moves past the word (R64). -/
def advance (s : State) (bid : Nat) : State := modBatch s bid fun b => { b with pc := b.pc + 8, block := none, fillWait := [] }

/-- What every retiring word does after its own part: a closing word closes the region (R76), S = 1 parks the batch
while something is outstanding (R61). -/
def retire (s : State) (bid : Nat) (sp : Spec) : State :=
  let s := if sp.closes then closeRegion s bid else s
  match findBatch s bid with
  | none => s
  | some b => if sp.s && outstanding s b then park s bid else s

/-- Two waits are of one kind. -/
def sameWait (j k : Block) : Bool :=
  match j, k with
  | .barrier _ _ _ _, .barrier _ _ _ _ => true
  | .buffer _ _ _, .buffer _ _ _ => true
  | .timeline _ _, .timeline _ _ => true
  | .event _ _, .event _ _ => true
  | .xset, .xset => true
  | .gather _ _, .gather _ _ => true
  | .fills _ _, .fills _ _ => true
  | .home _ _, .home _ _ => true
  | .fetch _ _, .fetch _ _ => true
  | .plane _ _, .plane _ _ => true
  | .tiles _, .tiles _ => true
  | .swap, .swap => true
  | .array _, .array _ => j == k
  | .remap _, .remap _ => true
  | _, _ => false

/-- The word blocks (R165): the watchdog counts from 0 at each new block (R464); a word that goes on waiting in the same
way stays in its block. -/
def blockOn (s : State) (bid : Nat) (k : Block) : State :=
  match findBatch s bid with
  | none => s
  | some b =>
    if b.block.any fun j => sameWait j k then modBatch s bid fun b => { b with block := some k }
    else modBatch (endWait s b) bid fun b => { b with block := some k, blockedAt := s.clock }

/-- The result of a word's own part becomes the next state. -/
def finish (x : Exec) (e : Eff) : State :=
  let bid := x.b.id
  let fin (s : State) (regs : List (Nat × RegVal)) (preds : List (Nat × W32)) (fl : LaneFlags) : State :=
    let s := if x.sp.var then s else raiseFlags s x.b.crew fl
    let s := preds.foldl (fun s p => putPred s bid x.act p.1 p.2) s
    let s := writeResults s bid x.act x.sp regs fl
    retire (advance (perfAdd s x.b.crew 0 1) bid) bid x.sp
  match e with
  | .res regs preds fl => fin (endWait x.s x.b) regs preds fl
  | .done s regs preds fl => fin (endWait s x.b) regs preds fl
  | .jump s parts => parts.foldl (fun s i => retire s i x.sp) (endWait (perfAdd s x.b.crew 0 1) x.b)
  | .wait s k => blockOn (modBatch s bid fun b => { b with word := x.sp.word }) bid k
  | .trap s t => raise (endWait s x.b) bid t

/-- A cause of the word itself, without lanes. -/
def wordTrap (x : Exec) (c : Cause) : TrapInfo := { cause := c, rpc := x.b.pc, word := x.sp.word }

/-- A cause found in some lanes, with the address of the lowest. -/
def laneTrap (x : Exec) (c : Cause) (ls : List Nat) (addr : Nat) : TrapInfo :=
  { cause := c, lanes := maskOf ls, addr := addr, rpc := x.b.pc, word := x.sp.word }

/-- Steps 4 to 8 of Table 03-7. -/
def decodeFault (s : State) (b : Batch) (act : List Nat) (sp : Spec) (pairOk : Bool) : Option (Cause × W32) :=
  if (sp.priv || sp.k) && !b.priv then some (.priv, 0)
  else if !specLegal sp then some (.illField, 0)
  else if !pairOk then some (.illPair, 0)
  else if sp.quiet then none
  else match resolveFault s b sp with
    | some c => some (c, 0)
    | none => shapeFault s b act sp

/-- Whether the batch must park before this word (R62): something is outstanding, and the word closes a region,
parks by its entry, or is a variable-latency word that finds 16 results. -/
def mustPark (s : State) (b : Batch) (act : List Nat) (sp : Spec) : Bool :=
  outstanding s b && (sp.closes || (!act.isEmpty && (sp.parks || (sp.var && 16 ≤ b.retbuf.length))))

/-- The word is the batch's blocked word, issued again: the checks and the reads of its registers were made as it issued
(R38, R56), and are not made anew on registers that an eviction has reloaded as G meanwhile (R50). -/
def issuedAgain (b : Batch) (sp : Spec) : Bool := b.block.isSome && b.word == sp.word

/-- Executes a word of the batch `cur`: parks first where R62 asks it; a word with no active lane only retires
(R75, R76); otherwise the first failing check of Table 03-7 is raised, or the word's own part runs. -/
def runWord (s : State) (guard : W32 → Bool) (sp : Spec) (pairOk : Bool) (body : Exec → Eff) :
    Host.Outcome State Fault Refusal :=
  match findBatch s s.cur with
  | none => .refused .noBatch
  | some b0 =>
    let act := activeLanes b0 guard
    if mustPark s b0 act sp then .next (park s b0.id)
    else
      let s := startRegion s b0 sp.rgn
      match findBatch s s.cur with
      | none => .refused .noBatch
      | some b =>
        if act.isEmpty then .next (retire (pushWindow (advance (perfAdd s b.crew 0 1) b.id) b.id []) b.id sp)
        else
          let x : Exec := ⟨s, b, act, sp⟩
          match if issuedAgain b sp then none else (decodeFault s b act sp pairOk).or (readFault s b act sp) with
          | some (c, ls) => .next (raise s b.id { cause := c, lanes := ls, rpc := b.pc, word := sp.word })
          | none => .next (finish x (body x))

/-! ### The three word forms -/

/-- An F-form word with opcode `op` (for the trap registers), its field classes and its entry's other properties. -/
def fSpec (op : Nat) (w : FWord) (d a b c : Cls) : Spec :=
  { fields := [(.d, d, w.d), (.a, a, w.a), (.b, b, w.b), (.c, c, w.c)]
    eph := w.eph, s := w.s, rgn := w.rgn, word := encodeF (BitVec.ofNat 8 op) w }

def iSpec (op : Nat) (w : IWord) (d a : Cls) : Spec :=
  { fields := [(.d, d, w.d), (.a, a, w.a)], s := w.s, rgn := w.rgn, word := encodeI (BitVec.ofNat 6 op) w }

/-- Extra source lines in a bank hold the quadrant (R37); a blocked word that is issued again has had its reads. -/
def holdQuad (s : State) (b : Batch) (sp : Spec) : State :=
  let n := bankCost s b sp
  if n = 0 ∨ b.block.isSome then s
  else modCore s b.core fun c => { c with quadHold := kvSet c.quadHold (b.slot / 8) (s.clock + n) }

/-- Runs an F-form word. -/
def runF (s : State) (w : FWord) (sp : Spec) (body : Exec → Eff) : Host.Outcome State Fault Refusal :=
  let s := match findBatch s s.cur with
    | none => s
    | some b => if mustPark s b (activeLanes b (guardFI w.gp w.gn)) sp then s else holdQuad s b sp
  runWord s (guardFI w.gp w.gn) sp true body

/-- Runs an I-form word. -/
def runI (s : State) (w : IWord) (sp : Spec) (body : Exec → Eff) : Host.Outcome State Fault Refusal :=
  runWord s (guardFI w.gp w.gn) sp true body

/-! ### Results -/

/-- The register result of a lane function (Table 02-2): U when every source is U or T and the result depends on
its operands alone, else G. `f` is asked only for active lanes. -/
def laneResult (x : Exec) (pure : Bool) (f : Nat → W32) : RegVal :=
  if pure then .u (f (x.act.headD 0)) else .g (laneList fun l => if x.act.contains l then f l else 0)

/-- Whether registers 0 to n-1 of a field are uniform as read. -/
def uniField (x : Exec) (f : Fld) (n : Nat) : Bool := (List.range n).all fun j => isUni (rawReg x.s x.b (nameOf x f j))

/-- Whether every source field (class V) of the word is uniform as read. -/
def uniSrcs (x : Exec) (fs : List Fld) : Bool :=
  fs.all fun f => match fieldOf x.sp f with
    | some (.v n _, _) => uniField x f n
    | _ => true

/-- The FP flags of a word's active lanes (R150). -/
def lanesFlags (x : Exec) (f : Nat → Nat) : LaneFlags := x.act.map fun l => (l, BitVec.ofNat 32 (f l))

/-- A lane predicate as the mask of its lanes. -/
def predMask (x : Exec) (f : Nat → Bool) : W32 := maskOf (x.act.filter f)

/-- imm18 of an F-form word, sign-extended (R71). -/
def imm18 (w : FWord) : Int := (w.b ++ w.c).toInt

end Sys2Proof.Machine
end

