-- ==== Sys2Proof/Machine/Translate.lean ====
section
/-! DEFINITION. Address translation (R430 to R435), permissions (R433) and page generations (R436). -/
namespace Sys2Proof.Machine
open Sys2Proof

/-! ### Leaf fields (Table 19-9) -/

def leafKind (e : W64) : Nat := bitsOf e 1 2
def leafSize (e : W64) : Nat := bitsOf e 3 3
def leafRd (e : W64) : Bool := e.getLsbD 6
def leafWr (e : W64) : Bool := e.getLsbD 7
def leafEx (e : W64) : Bool := e.getLsbD 8
def leafUser (e : W64) : Bool := e.getLsbD 9
def leafGlb (e : W64) : Bool := e.getLsbD 10
def leafChk (e : W64) : Bool := e.getLsbD 11
def leafPA (e : W64) : Nat := bitsOf e 12 38 * 4096
def leafPgen (e : W64) : Nat := bitsOf e 50 8
def leafCls (e : W64) : Nat := bitsOf e 58 2
def leafRos (e : W64) : Bool := e.getLsbD 60
def leafXpi (e : W64) : Nat := bitsOf e 61 3
/-- GENID and POFF of a GEN leaf (Table 17-1). -/
def leafGenId (e : W64) : Nat := bitsOf e 12 12
def leafPoff (e : W64) : Nat := bitsOf e 24 26

/-- The page size of a size code (Table 19-2), and its level. -/
def pageBytes (c : Nat) : Nat :=
  [4096, 65536, 262144, 2097152, 33554432, 1073741824, 17179869184].getD c 4096
def pageLevel (c : Nat) : Nat := [0, 0, 0, 1, 1, 2, 2].getD c 9

/-- Where tables may lie (R432). -/
def tablePA (pa : Nat) : Bool :=
  match paKind pa with
  | .gddr => true
  | .host => true
  | _ => false

/-- The index of a level (R432). -/
def walkIdx (va lvl : Nat) : Nat := if lvl = 4 then va / 2 ^ 48 % 64 else va / 2 ^ (9 * lvl + 12) % 512

/-- What an entry of level `lvl` comes to (R432): the next table, or the end of the walk; none is PAGE_ABSENT. -/
def entryStep (va lvl : Nat) (e : W64) : Nat ⊕ Option Leaf :=
  if !e.getLsbD 0 then .inr none
  else if leafKind e = 0 then
    if lvl = 0 ∨ bitsOf e 3 9 ≠ 0 ∨ bitsOf e 50 14 ≠ 0 then .inr none
    else .inl (leafPA e)
  else if 2 < lvl ∨ pageLevel (leafSize e) ≠ lvl then .inr none
  else if leafXpi e ≠ 0 ∧ leafKind e ≠ 3 then .inr none
  else
    let size := pageBytes (leafSize e)
    if leafKind e = 1 ∧ leafPA e % size ≠ 0 then .inr none
    else .inr (some ⟨e, va / size * size, size⟩)

/-- The walk from level `lvl` at table `t` (R432). `fuel` counts the levels left. -/
def walkFrom (s : State) (va : Nat) : Nat → Nat → Nat → Option Leaf
  | 0, _, _ => none
  | fuel + 1, lvl, t =>
    if !tablePA t then none
    else match entryStep va lvl (homeWord s (t + 8 * walkIdx va lvl)) with
      | .inl t => walkFrom s va fuel (lvl - 1) t
      | .inr r => r

/-- The walk meets a table outside the ranges where tables lie (R432). -/
def badTableFrom (s : State) (va : Nat) : Nat → Nat → Nat → Bool
  | 0, _, _ => false
  | fuel + 1, lvl, t =>
    if !tablePA t then true
    else match entryStep va lvl (homeWord s (t + 8 * walkIdx va lvl)) with
      | .inl t => badTableFrom s va fuel (lvl - 1) t
      | .inr _ => false

/-- The root table of a context. -/
def rootTable (s : State) (ctx : Nat) : Nat := bitsOf (ctxD s ctx).ptroot 12 38 * 4096

/-- The walk of a VA in a context. -/
def walk (s : State) (ctx va : Nat) : Option Leaf := walkFrom s va 5 4 (rootTable s ctx)

def badTable (s : State) (ctx va : Nat) : Bool := badTableFrom s va 5 4 (rootTable s ctx)

/-! ### Cached table entries (R434) -/

/-- A VA's index down to a level. -/
def tableIdx (va lvl : Nat) : Nat := va / 2 ^ (9 * lvl + 12)

/-- The cached table entries that a core's walk may use in place of memory's: of the context's current epoch. -/
def cachedEntries (s : State) (core ctx va lvl : Nat) : List W64 :=
  ((coreD s core).ptes.filter fun p =>
    p.ctx == ctx && p.lvl == lvl && p.idx == tableIdx va lvl && p.epoch == (ctxD s ctx).tlbep).map (·.e)

/-- Every walk that a core may make: at each level with memory's entry or a cached one. Each comes with the table entries
that it used. -/
def walksFrom (s : State) (core ctx va : Nat) : Nat → Nat → Nat → List PteEntry → List (Option Leaf × List PteEntry)
  | 0, _, _, used => [(none, used)]
  | fuel + 1, lvl, t, used =>
    let go (e : W64) : List (Option Leaf × List PteEntry) := match entryStep va lvl e with
      | .inl t => walksFrom s core ctx va fuel (lvl - 1) t (⟨ctx, lvl, tableIdx va lvl, e, (ctxD s ctx).tlbep⟩ :: used)
      | .inr r => [(r, used)]
    (if tablePA t then go (homeWord s (t + 8 * walkIdx va lvl)) else [(none, used)]) ++
      (cachedEntries s core ctx va lvl).flatMap go

/-- One walk for each result that a core's walks of a VA can have: first memory's. -/
def walksOf (s : State) (core ctx va : Nat) : List (Option Leaf × List PteEntry) :=
  (walksFrom s core ctx va 5 4 (rootTable s ctx) []).foldl (fun r w =>
    if r.any fun q => decide (q.1 = w.1) then r else r ++ [w]) []

/-! ### Micro-TLBs (R434) -/

/-- A valid micro-TLB entry for a VA: global, or of the context's current epoch. -/
def utlbFind (s : State) (core ctx va : Nat) : Option TlbEntry :=
  (coreD s core).utlb.find? fun t =>
    t.ctx == ctx && decide (t.page ≤ va) && decide (va < t.page + t.size) &&
      (leafGlb t.leaf || t.epoch == (ctxD s ctx).tlbep)

def utlbAdd (s : State) (core ctx : Nat) (l : Leaf) : State :=
  modCore s core fun c => { c with
    utlb := ⟨ctx, l.page, l.size, l.e, (ctxD s ctx).tlbep⟩ :: c.utlb.filter fun t => !(t.ctx == ctx && t.page == l.page) }

/-- A walk's leaf and table entries are cached (R434). -/
def cacheWalk (s : State) (core ctx : Nat) (w : Option Leaf × List PteEntry) : State × Option Leaf :=
  match w.1 with
  | none => (s, none)
  | some l =>
    let new (p : PteEntry) : Bool := w.2.all fun q => q.ctx != p.ctx || q.lvl != p.lvl || q.idx != p.idx
    (modCore (utlbAdd s core ctx l) core fun c => { c with ptes := w.2 ++ c.ptes.filter new }, w.1)

/-- A translation through the core's micro-TLB: a cached entry or a walk, whichever the hardware takes when they differ
(R434, R435; log 2). -/
def translate (s : State) (core ctx va : Nat) : State × Option Leaf :=
  let ws := walksOf s core ctx va
  let walked (s : State) (i : Nat) : State × Option Leaf := cacheWalk s core ctx (ws.getD i (none, []))
  match utlbFind s core ctx va with
  | none =>
    let (i, s) := freePick s ws.length
    walked s i
  | some t =>
    let cached : Leaf := ⟨t.leaf, t.page, t.size⟩
    if ws.all fun w => decide (w.1 = some cached) then (s, some cached)
    else
      let (i, s) := freePick s (ws.length + 1)
      if i = ws.length then (s, some cached) else walked s i

/-- A fresh walk after a refusal (R436): the micro-TLB is not used and its entry is replaced. -/
def retranslate (s : State) (core ctx va : Nat) : State × Option Leaf :=
  match walk s ctx va with
  | some l => (utlbAdd s core ctx l, some l)
  | none => (s, none)

/-! ### Permissions (R433) -/

/-- How an access uses a page. -/
inductive Use where
  | load | store | atomic | fetch
deriving DecidableEq, Repr

def useReads (u : Use) : Bool := u == .load || u == .atomic
def useWrites (u : Use) : Bool := u == .store || u == .atomic

/-- The pair entry of an XFORM leaf: storage format, view format, valid (Table 17-3). -/
def xformPair (s : State) (ctx : Nat) (e : W64) : Nat := (kvGetD s.xpair (8 * ctx + leafXpi e) 0).toNat

def xformOk (s : State) (ctx : Nat) (l : Leaf) : Bool :=
  let p := xformPair s ctx l.e
  let es := elem (p % 16)
  let ev := elem (p / 16 % 16)
  !leafChk l.e && p / 256 % 2 == 1 && decide (4 ≤ p % 16) && decide (p % 16 ≤ 8) && decide (4 ≤ p / 16 % 16) &&
    decide (p / 16 % 16 ≤ 8) && leafPA l.e % (l.size * es / ev) == 0
where
  /-- bytes of the element formats 4 to 8 -/
  elem (c : Nat) : Nat := if c = 4 then 4 else if c = 5 ∨ c = 6 then 2 else 1

/-- A GEN leaf must have WR and CHK 0, a VALID entry and the entry's context (R379, R381). -/
def genOk (s : State) (ctx : Nat) (e : W64) : Bool :=
  let t1 := genWord s (leafGenId e) 1
  !leafWr e && !leafChk e && t1.getLsbD 10 && bitsOf t1 4 6 == ctx

/-- The physical address of a VA on a memory page. -/
def leafAddr (l : Leaf) (va : Nat) : Nat := leafPA l.e + (va - l.page)

/-- Checks of R430 on a translated address. -/
def paFault (s : State) (pa : Nat) : Option Cause :=
  match paKind pa with
  | .absent => some .pageAbsent
  | .reserved => some .pageAbsent
  | .stack c => if colCap s c ≤ (pa - 0x800000000) % 0x10000000 then some .wstackRemap else none
  | _ => none

/-- The storage address of a byte of an XFORM page, rounded to its element (R400). -/
def xformAddr (s : State) (ctx : Nat) (l : Leaf) (va : Nat) : Nat :=
  let p := xformPair s ctx l.e
  let es := xformOk.elem (p % 16)
  let ev := xformOk.elem (p / 16 % 16)
  leafPA l.e + es * ((va - l.page) / ev)

/-- Step 4 of R156 and R433 for one access: the first failing check. -/
def permFault (s : State) (ctx : Nat) (priv : Bool) (u : Use) (va : Nat) (l : Leaf) : Option Cause :=
  if leafKind l.e = 2 ∧ !genOk s ctx l.e then some .pageAbsent
  else if leafKind l.e = 3 ∧ !xformOk s ctx l then some .pageAbsent
  else if !leafUser l.e ∧ !priv then
    some (match u with
      | .fetch => .permExec
      | .load => .permRead
      | _ => .permWrite)
  else if useReads u ∧ !leafRd l.e then some .permRead
  else if useWrites u ∧ !leafWr l.e ∧ leafKind l.e ≠ 2 then some .permWrite
  else if u = .fetch ∧ !(leafEx l.e ∧ leafKind l.e = 1) then some .permExec
  else if leafKind l.e = 2 then none
  else
    let pa := if leafKind l.e = 3 then xformAddr s ctx l va else leafAddr l va
    match paKind pa with
    | .host => if leafCls l.e ≠ 3 then some .pageAbsent else none
    | .peer k => if leafCls l.e ≠ 3 then some .pageAbsent else if u ≠ .store ∧ linkDown s k then some .linkFatal else none
    | _ => paFault s pa

/-! ### Page generations (R436) -/

/-- What the home answers to an access with a generation. -/
inductive HomeAns where
  | perform | waits | refused
deriving DecidableEq, Repr

/-- The table of R436. -/
def genAnswer (s : State) (pa pgen : Nat) : HomeAns :=
  if hasGen pa then
    let f := kvGetD s.pageGen (pa / 4096) 0
    if pgen = f then .perform else if pgen = (f + 1) % 256 then .waits else .refused
  else .perform

def homeAnswer (s : State) (pa pgen : Nat) : HomeAns := if remapBusy s pa then .waits else genAnswer s pa pgen

end Sys2Proof.Machine
end

