-- ==== Sys2Proof/Machine/Memory.lean ====
section
/-! DEFINITION. The core's view of memory: L1 lines, generation staleness and colours (R324 to R331), releases and
acquires (R332 to R337), CHECKED pages (R340 to R344), GEN lines (R382, R383), transform pages (R400, R401),
scratch (R159, R267, R277) and fibre-local addresses (R281). -/
namespace Sys2Proof.Machine
open Sys2Proof

/-! ### L1 lines -/

/-- A core's generation counter of a class (R327). -/
def coreGen (c : Core) (cls : Nat) : Nat :=
  match cls with
  | 1 => c.genClus
  | 2 => c.genDev
  | 3 => c.genSys
  | _ => 0

/-- Whether a line is stale (R327, R328). -/
def lineStale (c : Core) (l : L1Line) : Bool := l.cls != 0 && !l.ros && (l.stale || l.gen != coreGen c l.cls)

/-- A clean line holds an error, which its parity shows at an access: the line is dropped and fetched again (R285). -/
def lineBad (s : State) (core key : Nat) (l : L1Line) : Bool :=
  l.dirty == 0 && s.upsets.any fun u => match u with
    | .line c k _ => c == core && k == key
    | _ => false

/-- The L1 line that serves an access: present, whole, not stale, and of the carried page generation. -/
def l1Hit (s : State) (core key pgen : Nat) : Option L1Line :=
  match kvGet (coreD s core).l1 key with
  | some l => if lineStale (coreD s core) l || l.pgen != pgen || lineBad s core key l then none else some l
  | none => none

/-- An LLC miss is counted, with its latency as a sample (Table 08-6, Table 24-3). -/
def countLlcMiss (s : State) (crew ctx : Nat) : State :=
  let (lat, s) := freeVal s
  monSample (perfAdd s crew 5 1) 5 ctx lat.toNat

/-- A crew's request reaches the LLC at a physical address: whether it misses there is the hardware's (log 2), and a miss is counted
(Table 08-6). -/
def countHome (s : State) (crew ctx pa : Nat) : State :=
  let s := useHome s pa
  let (b, s) := freeBool s
  let (lat, s) := freeVal s
  if s.monitors.isEmpty then perfAdd s crew 5 (if b then 1 else 0)
  else
    let t := perfAdd s crew 5 1
    if b then monSample t 5 ctx lat.toNat else s

/-- An L1 miss on a line of memory is counted, and its request to the LLC (Table 08-6). -/
def countMiss (s : State) (crew ctx pa : Nat) : State := countHome (perfAdd s crew 4 1) crew ctx pa

/-- A line filled from its home holds what the home holds of the synchronisation locations in it (R342), but where the bytes of
its own stores stay. -/
def noteFill (s : State) (core key dirty : Nat) : State :=
  modStamps s (128 * key) 128 fun p =>
    if (List.range p.2.bytes).any fun i => dirty.testBit (p.1 % 128 + i) then p.2 else withCopy p.2 core p.2.fresh

/-- Fills or refills a line from its home (R329): dirty bytes of a stale line are kept. -/
def l1Fill (s : State) (core key : Nat) (leaf : W64) (home : List Byte) (fl : Option Nat) : State :=
  let c := coreD s core
  let old := kvGet c.l1 key
  let dirty : Nat := (old.map (·.dirty)).getD 0
  let s := noteFill (if dirty = 0 then clearLine s core key else s) core key dirty
  let bytes := match old with
    | none => home
    | some o => (List.range 128).map fun i => if o.dirty.testBit i then o.bytes.getD i 0 else home.getD i 0
  setL1 s core key {
    cls := leafCls leaf
    ros := leafRos leaf
    gen := coreGen c (leafCls leaf)
    stale := false
    pgen := leafPgen leaf
    dirty := dirty
    colours := (old.map (·.colours)).getD 0
    bytes := bytes
    fl := fl.or (old.bind (·.fl))
    owner := (old.map (·.owner)).getD (0, 0)
    since := (old.map (·.since)).getD 0 }

/-- Brings the line of a key into L1 if it does not serve there already; a fibre-local access marks it as its crew's (R282). -/
def l1Ensure (s : State) (core key crew ctx : Nat) (leaf : W64) (home : State → List Byte) (fl : Option Nat) : State :=
  match l1Hit s core key (leafPgen leaf) with
  | some l => if fl.isNone || l.fl == fl then s else setL1 s core key { l with fl := fl }
  | none => l1Fill (countMiss s crew ctx (128 * key)) core key leaf (home s) fl

def homeLine (key : Nat) (s : State) : List Byte := homeRead s (128 * key) 128

/-- Overwrites bytes of a line in place. -/
def lineBytes (old : List Byte) (off : Nat) (bs : List Byte) : List Byte :=
  (List.range 128).map fun i => if off ≤ i ∧ i < off + bs.length then bs.getD (i - off) 0 else old.getD i 0

/-- Bytes of a line. -/
def lineRead (bs : List Byte) (off n : Nat) : List Byte := (List.range n).map fun i => bs.getD (off + i) 0

/-- A store performed in L1 (R324): bytes, dirty mask and colour. -/
def l1Store (s : State) (core key off : Nat) (bs : List Byte) (colour : Nat) (owner : Nat × Nat) : State :=
  let s := clearUpsets s fun u => match u with
    | .line c k w => c == core && k == key && decide (off ≤ 8 * w) && decide (8 * w + 8 ≤ off + bs.length)
    | _ => false
  match kvGet (coreD s core).l1 key with
  | none => s
  | some l => setL1 s core key { l with
      bytes := lineBytes l.bytes off bs
      dirty := l.dirty ||| ((2 ^ bs.length - 1) * 2 ^ off)
      colours := l.colours ||| 2 ^ colour
      owner := owner
      since := if l.dirty = 0 then s.clock else l.since }

/-- A write performed at the home by a core, whose own copy is updated (R333). -/
def homeStore (s : State) (core pa : Nat) (bs : List Byte) : State :=
  let s := homeWrite s pa bs
  match kvGet (coreD s core).l1 (pa / 128) with
  | none => s
  | some l =>
    let m := (2 ^ bs.length - 1) * 2 ^ (pa % 128)
    setL1 s core (pa / 128) { l with
      bytes := lineBytes l.bytes (pa % 128) bs
      dirty := l.dirty - (l.dirty &&& m) }

/-! ### Acquires and releases -/

/-- One counter moves (R328) and lines sixteen steps old leave (R330). -/
def bumpGen (s : State) (core cls : Nat) : State :=
  modCore s core fun c =>
    let g := (coreGen c cls + 1) % 16
    let old (l : L1Line) : Bool := l.cls == cls && !l.ros && l.gen == (g + 1) % 16
    let l1 := (c.l1.filter fun p => !(old p.2 && p.2.dirty == 0)).map fun p =>
      if old p.2 then (p.1, { p.2 with stale := true }) else p
    { c with
      l1 := l1
      genClus := if cls = 1 then g else c.genClus
      genDev := if cls = 2 then g else c.genDev
      genSys := if cls = 3 then g else c.genSys }

/-- The counters of every class no wider than the scope move (R328). -/
def acquireBump (s : State) (core scope : Nat) : State :=
  (List.range scope).foldl (fun s i => bumpGen s core (i + 1)) s

/-- Drains the cores that a line's records name, but the acquirer, and removes the records (R334). -/
def drainRecords (s : State) (core pa : Nat) : State :=
  let recs := kvGetD s.relRecs (pa / 128) []
  let covers (r : RelRec) : Bool := r.core != core && (decide (2 ≤ r.scope) || r.core / 8 == core / 8)
  let s := (recs.filter covers).foldl (fun s r => drainCore s r.core r.scope r.mask) s
  { s with relRecs := kvPut [] s.relRecs (pa / 128) (recs.filter fun r => !covers r) }

/-- Writes a release record at a line's home (R333). -/
def addRecord (s : State) (core pa scope mask : Nat) : State :=
  let recs := kvGetD s.relRecs (pa / 128) []
  if recs.any fun r => r.core = core then
    let upd (r : RelRec) : RelRec :=
      if r.core = core then { r with mask := r.mask ||| mask, scope := max r.scope scope } else r
    { s with relRecs := kvSet s.relRecs (pa / 128) (recs.map upd) }
  else
    let (s, recs) := if recs.length < 4 then (s, recs)
      else match recs with
        | r :: rest => (drainCore s r.core r.scope r.mask, rest)
        | [] => (s, [])
    { s with relRecs := kvSet s.relRecs (pa / 128) (recs ++ [⟨core, mask, scope⟩]) }

/-- Whether two agents' scopes cover each other (R319). -/
def scopesCover (scope1 core1 scope2 core2 : Nat) : Bool :=
  let one (sc : Nat) : Bool := match sc with
    | 0 => core1 == core2
    | 1 => core1 / 8 == core2 / 8
    | _ => true
  one scope1 && one scope2

/-- Merges pairs, keeping for each crew the largest epoch; more than 32 crews overflow (R342). -/
def mergePairs (a b : List (Nat × Nat)) : List (Nat × Nat) × Bool :=
  let r := b.foldl (fun t p => kvSet t p.1 (max p.2 (kvGetD t p.1 0))) a
  if r.length ≤ 32 then (r, false) else (r.take 32, true)

/-- The release epoch of a crew moves (R341). -/
def bumpEpoch (s : State) (crew : Nat) : State := modCrew s crew fun c => { c with epoch := (c.epoch + 1) % 2 ^ 32 }

/-- The pair set a release stamps: the crew's own pair merged with its history (R342). -/
def releasePairs (c : Crew) : List (Nat × Nat) × Bool :=
  let (p, o) := mergePairs c.hist [(c.id, c.epoch)]
  (p, o || c.histOvf)

/-- STREL replaces a location's stamp; an atomic release merges into it (R342). -/
def stampLoc (s : State) (c : Crew) (pa n scope : Nat) (merge : Bool) : State :=
  let (p, o) := releasePairs c
  let old := if merge then (kvGet s.stamps pa).map fun t => (t.pairs, t.ovf) else none
  let (p, o) := match old with
    | some (q, oo) => let r := mergePairs q p; (r.1, r.2 || oo || o)
    | none => (p, o)
  { s with stamps := kvSet s.stamps pa ⟨n, p, o, true, scope, c.core, c.core / 8, [c.core]⟩ }

/-- A plain store of a core lies in its L1 over synchronisation locations (R342). -/
def overStamps (s : State) (core pa n : Nat) : State := modStamps s pa n fun p => withCopy p.2 core false

/-- An atomic access follows the release of the locations that it covers in their coherence order (R319, R322): at the home
its value stands at the home and in the core's copy, at CORE scope in that copy alone (log 100). -/
def atomStamps (s : State) (core pa n : Nat) (home : Bool) : State :=
  modStamps s pa n fun p =>
    if pa ≤ p.1 ∧ p.1 + p.2.bytes ≤ pa + n then withCopy { p.2 with fresh := p.2.fresh || home } core true else p.2

/-- A stamp joins the crew's acquire history when the acquire synchronises: it reads the value of the stamp's release, or of an
atomic that follows it, at the home or in its core's copy of the line (R342). -/
def acquireStamp (s : State) (crew scope : Nat) (copy : Bool) (t : Option Stamp) : State :=
  match t with
  | none => s
  | some t =>
    let c := crewD s crew
    if (if copy then t.copies.contains c.core else t.fresh) && scopesCover t.scope t.core scope c.core then
      let (h, o) := mergePairs c.hist t.pairs
      modCrew s crew fun d => { d with hist := h, histOvf := d.histOvf || o || t.ovf }
    else s

/-! ### Scratch (R159, R267, R277) -/

/-- The crew of a cluster rank, resident. -/
def crewOfRank (s : State) (c : Crew) (rank : Nat) : Option Crew :=
  if c.fill.isSome then none else s.crews.find? fun d => d.cluster == c.cluster && d.rank == rank && d.fill.isNone

/-- A scratch address: the crew and the offset, with the checks of R159 in their order. -/
def scratchLoc (s : State) (crew addr bytes : Nat) : Except Cause (Nat × Nat) :=
  let c := crewD s crew
  let off := addr % 2 ^ 21
  if addr / 2 ^ 30 % 4 ≠ 0 then .error .scratchRange
  else if off % bytes ≠ 0 then .error .align
  else
    let tgt := if addr.testBit 21 then crewOfRank s c (addr / 2 ^ 22 % 256) else some c
    match tgt with
    | none => .error .clusterAddr
    | some d => if d.scratchBytes < off + bytes then .error .scratchRange else .ok (d.uid, off)

def scratchRead (s : State) (crew off n : Nat) : List Byte :=
  let m := (crewD s crew).scratch
  (List.range n).map fun i => kvGetD m (off + i) 0

/-- The synchronisation location of a scratch offset, beyond every physical address. -/
def scratchKey (crew off : Nat) : Nat := 2 ^ 64 + 2 ^ 21 * crew + off

def scratchWrite (s : State) (crew off : Nat) (bs : List Byte) : State :=
  let s := touchStamps s (scratchKey crew off) bs.length
  let put (m : List Host.Cell) : List Host.Cell := (bs.foldl (fun p v => (kvPut 0 p.1 p.2 v, p.2 + 1)) (m, off)).1
  let s := clearUpsets s fun u => match u with
    | .scratch c w => c == crew && decide (off ≤ 8 * w) && decide (8 * w + 8 ≤ off + bs.length)
    | _ => false
  modCrew s crew fun c => { c with scratch := put c.scratch }

/-- The bytes of scratch that a word writes cover a protected word whole: its error ends (R286). -/
def coverScratch (s : State) (crew : Nat) (ranges : List (Nat × Nat)) : State :=
  clearUpsets s fun u => match u with
    | .scratch c w => c == crew && (List.range 8).all fun i => ranges.any fun r => decide (r.1 ≤ 8 * w + i) && decide (8 * w + i < r.1 + r.2)
    | _ => false

/-- They cover a protected word that holds an error only in part (R286; log 18). -/
def partScratch (s : State) (crew : Nat) (ranges : List (Nat × Nat)) : Bool :=
  (coverScratch s crew ranges).upsets.any fun u => match u with
    | .scratch c w => c == crew && ranges.any fun r => decide (r.1 < 8 * w + 8) && decide (8 * w < r.1 + r.2)
    | _ => false

/-- scratch_place of R274. -/
def scratchPlace (o m : Nat) : Nat :=
  let r := o / 128
  let c := o % 128 / 16
  128 * r + 16 * (c ^^^ ((r / 2 ^ (m / 4)) &&& [0, 1, 3, 7].getD (m % 4) 0)) + o % 16

/-! ### GEN lines (R382, R383) -/

/-- The depth of a batch's accesses: that of its fill task, else 0. -/
def accessDepth (s : State) (crew : Nat) : Nat :=
  match (crewD s crew).fill with
  | some id => ((findFill s id).map (·.depth)).getD 0
  | none => 0

/-- The class of a batch (R55): its cluster's, or its fill record's current class (R393). -/
def crewClass (s : State) (crew : Nat) : Nat :=
  let c := crewD s crew
  match c.fill with
  | some id => ((findFill s id).map (·.cls)).getD 1
  | none => hdrPrio c.hdr

def genGeneration (s : State) (g : Nat) : Nat := bitsOf (genWord s g 2) 0 32
def genUnitBytes (s : State) (g : Nat) : Nat := 4096 * 2 ^ bitsOf (genWord s g 1) 0 3

/-- Who is parked on GEN lines (R384). -/
inductive Who where
  | batch (id : Nat)
  | flue (k : Nat)
  | split (k : Nat)
  | load (core : Nat)
  | other (n : Nat)
deriving DecidableEq, Repr

/-- The lines that an agent is parked on. -/
def parkLines (s : State) (w : Who) : List ParkLine :=
  match w with
  | .batch id => ((findBatch s id).map (·.fillWait)).getD []
  | .flue k => ((kvGet s.flues k).map (·.fillWait)).getD []
  | .split k => ((kvGet s.splits k).map (·.fillWait)).getD []
  | .load c => ((coreD s c).load.map (·.fillWait)).getD []
  | .other n => kvGetD s.parked n []

def modParks (s : State) (w : Who) (f : List ParkLine → List ParkLine) : State :=
  match w with
  | .batch id => modBatch s id fun b => { b with fillWait := f b.fillWait }
  | .flue k => { s with flues := kvMod s.flues k fun c => { c with fillWait := f c.fillWait } }
  | .split k => { s with splits := kvMod s.splits k fun c => { c with fillWait := f c.fillWait } }
  | .load c => modCore s c fun k => { k with load := k.load.map fun l => { l with fillWait := f l.fillWait } }
  | .other n => { s with parked := kvPut [] s.parked n (f (kvGetD s.parked n [])) }

/-- What becomes of an access to a GEN line. -/
inductive GenAns where
  | served (bytes : List Byte)
  | parked (rec : Option Nat)
  | failed (f : Fill)
  | nest

/-- The line that an agent is parked on at a VA of a context, while its record runs on and once it has ended (R384): the access completes
as the record ends, whatever the page and the generator say by then. -/
def heldPark (s : State) (w : Who) (ctx va : Nat) : Option ParkLine :=
  (parkLines s w).find? fun p => p.ctx == ctx && p.line == va / 128 * 128 &&
    (p.bytes.isSome || p.failed.isSome || p.record.any fun r => (findFill s r).isSome)

/-- What a held access comes to now. -/
def parkAns (p : ParkLine) : GenAns :=
  match p.failed, p.bytes with
  | some f, _ => .failed f
  | none, some bs => .served bs
  | none, none => .parked p.record

/-- A line joins those that an agent's access keeps, in place of an older one of its address. -/
def keepLine (s : State) (w : Who) (p : ParkLine) : State :=
  modParks s w fun ps => ps.filter (fun q => !(q.ctx == p.ctx && q.line == p.line)) ++ [p]

/-- An access parks on a record, or waits for one (R382, R386). -/
def parkOn (s : State) (w : Who) (ctx va : Nat) (leaf : Leaf) (rec : Option Nat) : State := keepLine s w {
  ctx := ctx, line := va / 128 * 128, leaf := leaf, record := rec }

/-- A line that served a part of an access of which another part parks: the access completes with it (R382, R384). -/
def holdServed (s : State) (w : Who) (ctx va : Nat) (leaf : Leaf) (bs : List Byte) : State := keepLine s w {
  ctx := ctx, line := va / 128 * 128, leaf := leaf, record := none, bytes := some bs }

/-- Whether an access is already parked at a VA. -/
def isParked (s : State) (w : Who) (ctx va : Nat) : Bool := (parkLines s w).any fun p => p.ctx == ctx && p.line == va / 128 * 128

/-- A line of the current generation in the LLC. One that holds an error is clean, and is dropped and looked for anew: in the victim
store, or from its generator (R285). -/
def llcGen (s : State) (ctx va g : Nat) : Option (List Byte) :=
  if s.upsets.contains (.gen ctx (va / 128 * 128)) then none
  else (s.genLines.find? fun l => l.ctx == ctx && l.va == va / 128 * 128 && l.gen == g && l.ggen == genGeneration s g).map (·.bytes)

/-- vset (R383). -/
def victimSet (s : State) (va g : Nat) : Nat := ((va / 128) ^^^ g) % 2 ^ s.vsCfg

/-- An evicted line goes to its set: to a free or non-matching way, otherwise to the ways in rotation (R383). -/
def victimPut (s : State) (l : GenLine) : State :=
  if s.vsCfg = 0 then s
  else
    let set := victimSet s l.va l.gen
    let open' (w : Nat) : Bool := match kvGet s.victims (8 * set + w) with
      | none => true
      | some v => v.ggen != genGeneration s v.gen
    match (List.range 8).find? open' with
    | some w => { s with victims := kvSet s.victims (8 * set + w) l }
    | none =>
      let w := kvGetD s.vsRot set 0
      { s with victims := kvSet s.victims (8 * set + w) l, vsRot := kvPut 0 s.vsRot set ((w + 1) % 8) }

/-- The error of a GEN line in the LLC ends as the line leaves or is installed anew. -/
def mendGen (s : State) (ctx va : Nat) : State := clearUpsets s fun u => u == .gen ctx va

/-- How many lines the LLC holds: 768 MiB less the Kiln (R255). -/
def llcRoom (s : State) : Nat := (0x30000000 - s.kilnSize) / 128

/-- The LLC may give up a GEN line to make room, once requests and fills have brought in as many lines as it holds (R383, R478; log 87):
a current line of a KEEP generator goes to the victim store, any other is dropped. Whether and which line is the hardware's
(log 2). -/
def evictGen (s : State) : State :=
  if s.genLines.isEmpty ∨ s.llcLines + s.genLines.length < llcRoom s then s
  else
    let (b, s) := freeBool s
    if b then
      let (i, s) := freePick s s.genLines.length
      match s.genLines[i]? with
      | none => s
      | some l =>
        let bad := s.upsets.contains (.gen l.ctx l.va)
        let s := { mendGen s l.ctx l.va with genLines := s.genLines.eraseIdx i }
        if !bad ∧ (genWord s l.gen 1).getLsbD 3 ∧ l.ggen = genGeneration s l.gen then victimPut s l else s
    else s

/-- Installs a line in the LLC (R385). -/
def putGenLine (s : State) (l : GenLine) : State :=
  { mendGen s l.ctx l.va with genLines := l :: s.genLines.filter fun k => !(k.ctx == l.ctx && k.va == l.va && k.gen == l.gen) }

/-- The victim store's line of a GEN address; stale tags of its set that the lookup sees are freed (R383). -/
def victimGet (s : State) (ctx line g : Nat) : State × Option GenLine :=
  if s.vsCfg = 0 then (s, none)
  else
    let set := victimSet s line g
    let keep (p : Nat × GenLine) : Bool := p.1 / 8 != set || p.2.ggen == genGeneration s p.2.gen
    let s := { s with victims := s.victims.filter keep }
    (s, (s.victims.find? fun p => p.1 / 8 == set && p.2.ctx == ctx && p.2.va == line && p.2.gen == g).map (·.2))

/-- The index of a byte of a GEN page (R379). -/
def genIndex (l : Leaf) (va : Nat) : Nat := 4096 * leafPoff l.e + (va - l.page)

/-- The records that a fill's own accesses are parked on: those of its words and of its plane loads. -/
def deeperRecs (s : State) (id : Nat) : List Nat :=
  let mine (crew : Nat) : Bool := (crewD s crew).fill == some id
  ((s.batches.filter fun b => mine b.crew).flatMap fun b => b.fillWait.filterMap (·.record)) ++
    s.cores.flatMap fun k => match k.load with
      | some l => if l.loader.any fun q => mine q.1 then l.fillWait.filterMap (·.record) else []
      | none => []

/-- A class is raised at a record, and on the records its own fill waits on (R393). -/
def raiseClass (s : State) (id cls : Nat) : Nat → State
  | 0 => s
  | fuel + 1 => (deeperRecs s id).foldl (fun s r => raiseClass s r cls fuel) (modFill s id fun f => { f with cls := max f.cls cls })

/-- Whether a record of a depth can be created (R386): the last 4,096 of the 16,384 serve depth 2 only. With no free record
of its kind the oldest FAILED one that holds such a record is reclaimed. -/
def roomForFill (s : State) (depth : Nat) : Option State :=
  let d1 := s.fills.countP fun f => f.depth = 1
  let room (fs : List Fill) : Bool := decide (fs.length < 16384) && (depth != 1 || decide ((fs.countP fun f => f.depth = 1) < 12288))
  if room s.fills then some s
  else (s.fills.find? fun f => f.state = .failed ∧ (depth ≠ 1 ∨ d1 < 12288 ∨ f.depth = 1)).map fun f => delFill s f.id

/-- gen_access of R382, after its checks, by the agent `who`: an access that was parked completes as its record ended (R384). -/
def genAccess (s : State) (who : Who) (ctx depth cls va : Nat) (leaf : Leaf) : State × GenAns :=
  let g := leafGenId leaf.e
  let line := va / 128 * 128
  match heldPark s who ctx va with
  | some p => (s, parkAns p)
  | none =>
  match llcGen s ctx line g with
  | some bs => (s, .served bs)
  | none =>
    match victimGet s ctx line g with
    | (s, some v) => (putGenLine s v, .served v.bytes)
    | (s, none) =>
      if depth = 2 then (s, .nest)
      else
        let unit := va / genUnitBytes s g * genUnitBytes s g
        let at' (d : Nat) : Option Fill := s.fills.find? fun f => f.ctx == ctx && f.gen == g && f.unit == unit && f.depth == d
        let use (f : Fill) : State × GenAns := match f.state with
          | .failed => (s, .failed f)
          | _ => (raiseClass (parkOn s who ctx va leaf (some f.id)) f.id (max 1 cls) 3, .parked (some f.id))
        match at' (depth + 1) with
        | some f => use f
        | none =>
          match (if depth = 0 then at' 2 else none) with
          | some f => if f.state = .failed then create s g unit else use f
          | none => create s g unit
where
  /-- A new record, QUEUED (Table 17-4); without room the access waits without one. -/
  create (s : State) (g unit : Nat) : State × GenAns :=
    match roomForFill s (depth + 1) with
    | none => (parkOn s who ctx va leaf none, .parked none)
    | some s =>
      let (id, s) := fresh s
      let f : Fill := {
        id := id, state := .queued, ctx := ctx, gen := g, unit := unit, bytes := genUnitBytes s g
        idx := unitIndex unit, depth := depth + 1
        ggen := genGeneration s g, cls := max 1 cls, born := s.clock }
      (parkOn { s with fills := s.fills ++ [f] } who ctx va leaf (some id), .parked (some id))
  /-- The index of the unit's first byte (R379): that of the page through which the line missed, carried back to the unit's
  start. -/
  unitIndex (unit : Nat) : Nat := (genIndex leaf va + 2 ^ 38 - (va - unit)) % 2 ^ 38

/-! ### The places that a word's lanes access -/

/-- The L1 key of a GEN line: beyond every physical line, by context and virtual line. -/
def genKey (ctx va : Nat) : Nat := 2 ^ 60 + ctx * 2 ^ 47 + va / 128

/-- What stands in the way of a word's accesses. -/
inductive Acc where
  | ok (s : State) (locs : List (Nat × Loc))
  | trap (s : State) (t : TrapInfo)
  | wait (s : State) (k : Block)

/-- The window test of R277. -/
def inScratchWindow (va : Nat) : Bool := va / 2 ^ 32 == 0x3FFFFF

/-- Step 4 for one lane: a scratch address takes R159's checks (R277), a parked access completes as its record ends
(R384); else translation and permissions, a CHECKED page, then the home's answer where the access will
reach a home (R436); a refusal walks again. -/
def locateLane (x : Exec) (s : State) (u : Use) (bytes va : Nat) (atHome : Bool) (fl : Option Nat) :
    State × Except Cause (Loc ⊕ Block) :=
  let ctx := x.b.ctx
  let core := x.b.core
  if inScratchWindow va then (s, (scratchLoc s x.b.crew (va % 2 ^ 32) bytes).map fun q => .inl (.scratch q.1 q.2)) else
  match (if u = .load then heldPark s (.batch x.b.id) ctx va else none) with
  | some p => (s, .ok (.inl (.gen va p.leaf [])))
  | none =>
  let (s, w) := translate s core ctx va
  let classify (l : Leaf) : Except Cause (Loc ⊕ Block) :=
    match permFault s ctx x.b.priv u va l with
    | some c => .error c
    | none =>
      if leafKind l.e = 2 then .ok (.inl (.gen va l []))
      else if leafKind l.e = 3 then .ok (.inl (.xform va l))
      else if leafChk l.e then .ok (.inl (.checked (leafAddr l va) l))
      else .ok (.inl (.mem (leafAddr l va) l fl))
  let homePA (l : Leaf) : Option Nat :=
    if leafKind l.e = 2 then none
    else
      let pa := if leafKind l.e = 3 then xformAddr s ctx l va else leafAddr l va
      if atHome ∨ leafChk l.e ∨ (l1Hit s core (pa / 128) (leafPgen l.e)).isNone then some pa else none
  match w with
  | none => (s, .error .pageAbsent)
  | some l =>
    match classify l with
    | .error c => (s, .error c)
    | .ok r =>
      match homePA l with
      | none => (s, .ok r)
      | some pa =>
        match homeAnswer s pa (leafPgen l.e) with
        | .perform => (s, .ok r)
        | .waits => (useHome s pa, .ok (.inr (.home (pa / 128) (leafPgen l.e))))
        | .refused =>
          let (s, w) := retranslate s core ctx va
          match w with
          | none => (s, .error .pageAbsent)
          | some l =>
            match classify l with
            | .error c => (s, .error c)
            | .ok r => match homePA l with
              | none => (s, .ok r)
              | some pa => match homeAnswer s pa (leafPgen l.e) with
                | .perform => (s, .ok r)
                | .waits => (useHome s pa, .ok (.inr (.home (pa / 128) (leafPgen l.e))))
                | .refused => (s, .error .pageAbsent)

/-- Step 4 over the accesses of the lanes, in their order: (lane, VA). -/
def locateLanes (x : Exec) (u : Use) (bytes : Nat) (atHome : Bool) (fl : Option Nat) (s : State) :
    List (Nat × Nat) → State × List ((Nat × Nat) × Except Cause (Loc ⊕ Block))
  | [] => (s, [])
  | p :: rest =>
    let (s, r) := locateLane x s u bytes p.2 atHome fl
    let (s, rs) := locateLanes x u bytes atHome fl s rest
    (s, (p, r) :: rs)

/-- Step 5 of R156 for a located lane, with R401's ALIGN. -/
def kindFault (s : State) (ctx : Nat) (u : Use) (bytes : Nat) (loc : Loc) : Option Cause :=
  match loc with
  | .gen _ _ _ => if useWrites u then some .genWrite else none
  | .xform _ l =>
    if u = .atomic then some .xformAtomic
    else
      let ev := elemBytes (xformPair s ctx l.e / 16 % 16)
      if bytes % ev ≠ 0 then some .align else none
  | _ => none

/-- The faults of a check over the lanes, as the trap of the lowest. -/
def lanesFault (x : Exec) (addr : Nat → Nat) (bad : List (Nat × Cause)) : Option TrapInfo :=
  match bad with
  | [] => none
  | (l, c) :: _ => some (laneTrap x c (bad.map (·.1)) (addr l))

/-- The faults of a check over accesses (lane, VA), as the trap of the first. -/
def placesFault (x : Exec) (bad : List ((Nat × Nat) × Cause)) : Option TrapInfo :=
  match bad with
  | [] => none
  | (p, c) :: _ => some (laneTrap x c (bad.map (·.1.1)) p.2)

/-- The storage elements that a view range covers: their addresses, and the pair. -/
def xformElems (s : State) (ctx : Nat) (l : Leaf) (va n : Nat) : List Nat × Nat × Nat :=
  let p := xformPair s ctx l.e
  let ev := elemBytes (p / 16 % 16)
  ((List.range (n / ev)).map fun i => xformAddr s ctx l (va + ev * i), p % 16, p / 16 % 16)

/-! ### Uncorrectable errors (R285, R286, R481) -/

/-- The protected 64-bit words of a range that an access reads: all of them, but for a store only those that it does
not replace whole (R286). -/
def eccWords (u : Use) (a n : Nat) : List Nat :=
  ((List.range ((a % 8 + n + 7) / 8)).map (a / 8 + ·)).filter fun w =>
    u != .store || decide (8 * w < a) || decide (a + n < 8 * w + 8)

/-- An error in a 64-bit word of memory as a core sees it: in its own dirty line, or in the memory below where the line
does not hold the whole word as its own. -/
def wordBad (s : State) (core w : Nat) : Option Cause :=
  let dirty : Nat := ((kvGet (coreD s core).l1 (w / 16)).map (·.dirty)).getD 0
  if dirty ≠ 0 ∧ s.upsets.contains (.line core (w / 16) (w % 16)) then some .eccUeLine
  else if dirty / 2 ^ (8 * (w % 16)) % 256 ≠ 255 then memBad s (8 * w) 8
  else none

/-- An error in the words of a scratch range that an access reads. -/
def scratchBad (s : State) (u : Use) (crew off n : Nat) : Bool :=
  (eccWords u off n).any fun w => s.upsets.contains (.scratch crew w)

/-- What an access of `n` bytes at a place meets. -/
def eccLoc (s : State) (core ctx : Nat) (u : Use) (n : Nat) (loc : Loc) : Option Cause :=
  match loc with
  | .scratch c o => if scratchBad s u c o n then some .eccUeScratch else none
  | .checked pa _ => (eccWords u pa n).findSome? (wordBad s core)
  | .mem pa _ _ => (eccWords u pa n).findSome? (wordBad s core)
  | .gen _ _ _ => none
  | .xform va l =>
    let (els, sf, _) := xformElems s ctx l va n
    els.findSome? fun pa => (eccWords u pa (elemBytes sf)).findSome? (wordBad s core)

/-- The 64-bit words of memory that an access of `n` bytes at a place reads (PA div 8). -/
def locWords (s : State) (ctx : Nat) (u : Use) (n : Nat) (loc : Loc) : List Nat :=
  match loc with
  | .checked pa _ => eccWords u pa n
  | .mem pa _ _ => eccWords u pa n
  | .xform va l =>
    let (els, sf, _) := xformElems s ctx l va n
    els.flatMap fun pa => eccWords u pa (elemBytes sf)
  | _ => []

/-- The errors that the accesses meet, as the trap of the first. -/
def eccFault (x : Exec) (s : State) (u : Use) (n : Nat) (locs : List ((Nat × Nat) × Loc)) : Option TrapInfo :=
  if s.upsets.isEmpty then none
  else
    let bad := locs.filterMap fun p => (eccLoc s x.b.core x.b.ctx u n p.2).map fun c => (p.1, c)
    match bad with
    | [] => none
    | (_, c) :: _ => (placesFault x (bad.filter fun p => p.2 == c)).map fun t =>
      if c = .eccUeWstack then { t with words := locs.flatMap fun p => locWords s x.b.ctx u n p.2 } else t

/-- Steps 4 and 5 for accesses (lane, VA), each list in increasing lane order. -/
def checkMem (x : Exec) (s : State) (u : Use) (bytes : Nat) (atHome : Bool) (fl : Option Nat) (ls : List (Nat × Nat)) : Acc :=
  let (s, rs) := locateLanes x u bytes atHome fl s ls
  let bad := rs.filterMap fun r => match r.2 with
    | .error c => some (r.1, c)
    | .ok _ => none
  match placesFault x bad with
  | some t => .trap s t
  | none =>
    let locs := rs.filterMap fun r => match r.2 with
      | .ok (.inl l) => some (r.1, l)
      | _ => none
    let kbad := locs.filterMap fun p => (kindFault s x.b.ctx u bytes p.2).map fun c => (p.1, c)
    match placesFault x kbad with
    | some t => .trap s t
    | none =>
      match rs.findSome? fun r => match r.2 with
        | .ok (.inr k) => some k
        | _ => none with
      | some k => .wait s k
      | none =>
        match eccFault x s u bytes locs with
        | some t => .trap s t
        | none => .ok s (locs.map fun p => (p.1.1, p.2))

/-- A failed record as the trap of the lanes whose access met it (R392, R460). -/
def fillTrap (x : Exec) (f : Fill) (ls : List Nat) : TrapInfo :=
  { laneTrap x .fillFailed ls f.unit with kind := 1, code := f.code, src := 3, scause := f.cause, sdepth := f.depth }

/-- A word that was parked on a record which has failed takes FILL_FAILED in the lanes with an access to a line of that
record, whatever its page says by then (Table 17-4, R381). -/
def parkedFailure (x : Exec) (addrs : Nat → List Nat) : Option TrapInfo :=
  (x.b.fillWait.filterMap (·.failed)).findSome? fun f =>
    let met (l : Nat) : Bool := x.b.fillWait.any fun p =>
      p.failed == some f && (addrs l).any fun a => p.line == a / 128 * 128
    match x.act.filter met with
    | [] => none
    | ls => some (fillTrap x f ls)

/-- The checks of R156 over the active lanes, in their order: pointer bits, alignment, scratch, translation, kind; those of R159 are
made as one (log 94). -/
def checkAddrs (x : Exec) (u : Use) (bytes : Nat) (atHome : Bool) (addr : Nat → Nat) : Acc :=
  let s := x.s
  match parkedFailure x fun l => [addr l] with
  | some t => .trap s t
  | none =>
  let bad1 := (x.act.filter fun l => 2 ^ 54 ≤ addr l).map fun l => (l, Cause.pageAbsent)
  match lanesFault x addr bad1 with
  | some t => .trap s t
  | none =>
    let bad2 := (x.act.filter fun l => addr l % bytes ≠ 0).map fun l => (l, Cause.align)
    match lanesFault x addr bad2 with
    | some t => .trap s t
    | none =>
      let scr := (x.act.filter fun l => inScratchWindow (addr l)).map fun l =>
        (l, scratchLoc s x.b.crew (addr l % 2 ^ 32) bytes)
      let bad3 := scr.filterMap fun p => match p.2 with
        | .error c => some (p.1, c)
        | .ok _ => none
      match lanesFault x addr bad3 with
      | some t => .trap s t
      | none =>
        let sl := scr.filterMap fun p => match p.2 with
          | .ok q => some (p.1, Loc.scratch q.1 q.2)
          | .error _ => none
        let ml := (x.act.filter fun l => !inScratchWindow (addr l)).map fun l => (l, addr l)
        match eccFault x s u bytes (sl.map fun p => ((p.1, addr p.1), p.2)) with
        | some t => .trap s t
        | none =>
        match checkMem x s u bytes atHome none ml with
        | .ok s locs => .ok s (sortBy (sl ++ locs) fun p q => decide (p.1 ≤ q.1))
        | r => r

/-! ### Waiting for GEN lines, and CHECKED races, before any lane performs -/

/-- GEN loads: every lane's line must be served, by L1 unless the access is at the home; a failed record or a third level
faults; otherwise the word parks on the records (R382). The places come back with the lines that serve them. -/
def checkGen (x : Exec) (s : State) (atHome : Bool) (addr : Nat → Nat) (locs : List (Nat × Loc)) : Acc :=
  let d := accessDepth s x.b.crew
  let cls := crewClass s x.b.crew
  let who := Who.batch x.b.id
  let step (st : State × List (Nat × Loc) × List (Nat × Option Fill) × List Nat × List Nat) (p : Nat × Loc) :
      State × List (Nat × Loc) × List (Nat × Option Fill) × List Nat × List Nat :=
    let (s, out, bad, recs, ls) := st
    match p.2 with
    | .gen va l _ =>
      if !atHome && (l1Hit s x.b.core (genKey x.b.ctx va) (leafPgen l.e)).isSome then (s, out ++ [p], bad, recs, ls)
      else
        let was := (llcGen s x.b.ctx va (leafGenId l.e)).isSome || isParked s who x.b.ctx va
        let (s, r) := genAccess s who x.b.ctx d cls va l
        let s := if was then s else countLlcMiss s x.b.crew x.b.ctx
        match r with
        | .served bs => (s, out ++ [(p.1, .gen va l bs)], bad, recs, ls)
        | .parked r => (s, out, bad, (r.toList ++ recs).eraseDups, ls ++ [p.1])
        | .failed f => (s, out, bad ++ [(p.1, some f)], recs, ls)
        | .nest => (s, out, bad ++ [(p.1, none)], recs, ls)
    | _ => (s, out ++ [p], bad, recs, ls)
  let (s, out, bad, recs, ls) := locs.foldl step (s, [], [], [], [])
  match bad with
  | (_, none) :: _ =>
    let on := (bad.filter fun p => p.2.isNone).map (·.1)
    .trap s (laneTrap x .fillNest on (addr (on.headD 0)))
  | (_, some f) :: _ => .trap s (fillTrap x f ((bad.filter fun p => p.2 == some f).map (·.1)))
  | [] =>
    if ls.isEmpty then .ok s out
    else
      -- what was served stays with the word, which completes once its records are DONE (R382)
      let s := out.foldl (fun s p => match p.2 with
        | .gen va l bs =>
          let bs := if bs.isEmpty then ((kvGet (coreD s x.b.core).l1 (genKey x.b.ctx va)).map (·.bytes)).getD [] else bs
          if (heldPark s who x.b.ctx va).isSome then s else holdServed s who x.b.ctx va l bs
        | _ => s) s
      .wait s (.fills recs (maskOf ls))

/-- The CHECKED check of one access (R343, R344): `exempt` for LDA, STREL and ordered atomics. -/
def checkedFault (s : State) (crew pa n : Nat) (exempt atomic : Bool) : Option Cause :=
  let c := crewD s crew
  (List.range ((pa % 4 + n + 3) / 4)).findSome? fun i =>
    match kvGet s.writers (pa / 4 + i) with
    | none => none
    | some w =>
      if w.crew = c.id ∨ exempt ∨ (atomic ∧ w.atomic) then none
      else if c.histOvf then some .checkedHistory
      else match kvGet c.hist w.crew with
        | some e => if w.epoch < e then none else some .checkedRace
        | none => some .checkedRace

/-- CHECKED races over the lanes. -/
def checkRaces (x : Exec) (s : State) (bytes : Nat) (exempt atomic : Bool) (addr : Nat → Nat) (locs : List (Nat × Loc)) : Acc :=
  let bad := locs.filterMap fun p => match p.2 with
    | .checked pa _ => (checkedFault s x.b.crew pa bytes exempt atomic).map fun c => (p.1, c)
    | _ => none
  match lanesFault x addr bad with
  | some t => .trap s t
  | none => .ok s locs

/-- Records the writer of the words of a CHECKED write (R341). -/
def recordWriter (s : State) (crew pa n : Nat) (atomic : Bool) : State :=
  let c := crewD s crew
  { s with writers := (List.range ((pa % 4 + n + 3) / 4)).foldl (fun t i =>
      kvSet t (pa / 4 + i) ⟨c.id, c.epoch, atomic⟩) s.writers }

/-! ### Performing one lane's access -/

/-- A load of `n` bytes through the core (R157): L1 for memory, GEN and transform pages, the home for CHECKED. -/
def loadLoc (s : State) (b : Batch) (n : Nat) (loc : Loc) : State × List Byte :=
  match loc with
  | .scratch c o => (s, scratchRead s c o n)
  | .checked pa _ => (countHome s b.crew b.ctx pa, homeRead s pa n)
  | .mem pa l fl =>
    let s := l1Ensure s b.core (pa / 128) b.crew b.ctx l.e (homeLine (pa / 128)) fl
    let bs := ((kvGet (coreD s b.core).l1 (pa / 128)).map (·.bytes)).getD []
    (s, lineRead bs (pa % 128) n)
  | .gen va l line =>
    let k := genKey b.ctx va
    let s := match l1Hit s b.core k (leafPgen l.e) with
      | some _ => s
      | none => l1Fill (perfAdd s b.crew 4 1) b.core k l.e line none
    let bs := ((kvGet (coreD s b.core).l1 k).map (·.bytes)).getD []
    (s, lineRead bs (va % 128) n)
  | .xform va l =>
    let (els, sf, vf) := xformElems s b.ctx l va n
    let es := elemBytes sf
    els.foldl (fun st pa =>
      let s := l1Ensure st.1 b.core (pa / 128) b.crew b.ctx l.e (homeLine (pa / 128)) none
      let bs := ((kvGet (coreD s b.core).l1 (pa / 128)).map (·.bytes)).getD []
      (s, st.2 ++ leBytes (elemBytes vf) (elemConvert sf vf (leNat (lineRead bs (pa % 128) es))))) (s, [])

/-- A store through the core: L1 with allocation, or the home for CHECKED; a transform page converts (R401). -/
def storeLoc (s : State) (b : Batch) (bs : List Byte) (colour : Nat) (loc : Loc) : State :=
  match loc with
  | .scratch c o => scratchWrite s c o bs
  | .checked pa _ =>
    let s := countHome s b.crew b.ctx pa
    if paLost s pa then postLost s (b.ctx, b.crew) else homeWrite (recordWriter s b.crew pa bs.length false) pa bs
  | .mem pa l fl =>
    let s := l1Ensure s b.core (pa / 128) b.crew b.ctx l.e (homeLine (pa / 128)) fl
    overStamps (l1Store s b.core (pa / 128) (pa % 128) bs colour (b.ctx, b.crew)) b.core pa bs.length
  | .gen _ _ _ => s
  | .xform va l =>
    let (els, sf, vf) := xformElems s b.ctx l va bs.length
    let ev := elemBytes vf
    let put (st : State × List Byte) (pa : Nat) : State × List Byte :=
      let s := l1Ensure st.1 b.core (pa / 128) b.crew b.ctx l.e (homeLine (pa / 128)) none
      let v := elemConvert vf sf (leNat (st.2.take ev))
      (overStamps (l1Store s b.core (pa / 128) (pa % 128) (leBytes (elemBytes sf) v) colour (b.ctx, b.crew)) b.core pa
        (elemBytes sf), st.2.drop ev)
    (els.foldl put (s, bs)).1

/-- Writes a line's own dirty bytes home before an access at the home (R157, R334). -/
def settle (s : State) (core pa : Nat) : State := writeBack s core (pa / 128)

/-- The core's own copy of bytes read at the home is brought up to date: no later load of the core reads older ones (R322). -/
def refreshCopy (s : State) (core pa : Nat) (bs : List Byte) : State :=
  match kvGet (coreD s core).l1 (pa / 128) with
  | none => s
  | some l => setL1 (modStamps s pa bs.length fun p => withCopy p.2 core p.2.fresh) core (pa / 128) { l with bytes := lineBytes l.bytes (pa % 128) bs }

/-- A read at the home (R334, R336), after the core's own dirty bytes reach it. -/
def homeLoad (s : State) (b : Batch) (n : Nat) (loc : Loc) : State × List Byte :=
  match loc with
  | .mem pa _ _ =>
    let s := settle (countHome s b.crew b.ctx pa) b.core pa
    let bs := homeRead s pa n
    (refreshCopy s b.core pa bs, bs)
  | _ => loadLoc s b n loc

/-- The location that synchronisation state is kept for, with its bytes at the home. -/
def locPA (s : State) (ctx n : Nat) (loc : Loc) : Option (Nat × Nat) :=
  match loc with
  | .mem pa _ _ => some (pa, n)
  | .checked pa _ => some (pa, n)
  | .xform va l =>
    let (els, sf, _) := xformElems s ctx l va n
    els.head?.map fun pa => (pa, els.length * elemBytes sf)
  | .scratch c o => some (scratchKey c o, n)
  | .gen _ _ _ => none

/-! ### Loads performed after their words (R318) -/

/-- The bytes that an access touches, as ranges of the synchronisation keys' numbering. -/
def locSpan (s : State) (ctx n : Nat) (loc : Loc) : Nat × Nat := (locPA s ctx n loc).getD (0, 0)

/-- Two outstanding loads serve one fibre and touch a common byte (R322). -/
def loadsMeet (s : State) (ctx : Nat) (q r : LoadSrc) : Bool :=
  (q.lanes.any fun l => r.lanes.contains l) && spansMeet (locSpan s ctx q.bytes q.loc) (locSpan s ctx r.bytes r.loc)

/-- The fibre of lane `lane` accesses a place in its program order (R157, R322): its earlier loads of those bytes are
performed, and before them the loads that may not be performed after one of those. -/
def settleLoads (s : State) (b : Batch) (lane n : Nat) (loc : Loc) : State :=
  if b.loads.isEmpty then s
  else
    let at' := locSpan s b.ctx n loc
    let meets (r : LoadSrc) : Bool := r.lanes.contains lane && spansMeet (locSpan s b.ctx r.bytes r.loc) at'
    let done := b.loads.foldr (fun r t => if meets r || t.any (loadsMeet s b.ctx r) then r :: t else t) []
    modBatch s b.id fun c => { c with loads := c.loads.filter fun r => !done.contains r }

/-! ### Stores and activation reads performed after their words (R209, R318) -/

/-- Bytes of an activation in a scratch layout format (R206). -/
def actBytes (fmt : Nat) : Nat := if fmt = 2 then 4 else 2

/-- Activations read from scratch, by row and logical row. -/
def readPlaces (s : State) (crew fmt : Nat) (ps : List (List (Nat × Nat))) : List (List (Nat × W32)) :=
  ps.map fun r => r.map fun p => (p.1, BitVec.ofNat 32 (leNat (scratchRead s crew p.2 (actBytes fmt))))

/-- The quarters of an MMQ read their activations. -/
def readQuarters (s : State) (core t : Nat) : State :=
  let upd (q : Quarter) : Quarter :=
    if q.reads = some t then { q with rows := readPlaces s q.crew q.fmt q.places, reads := none, places := [] } else q
  modCore s core fun k => { k with passes := k.passes.map fun p => { p with quarters := p.quarters.map upd } }

/-- One entry of a batch's held stores is performed: a store, or the reads of an MMQ. -/
def performStore (s : State) (b : Batch) (r : StoreSrc) : State :=
  match r.reads with
  | some t => readQuarters s b.core t
  | none => storeLoc s b r.data r.colour r.loc

/-- The held stores of a batch without those at the places that `done` names. -/
def dropStores (b : Batch) (done : Nat → Bool) : Batch :=
  let left := b.stores.zipIdx.filter fun p => !done p.2
  { b with stores := left.map (·.1), storesOwed := left.countP fun p => decide (p.2 < b.storesOwed) }

/-- Performs the held stores of a batch at the places that `pick` names, oldest first. -/
def performThose (s : State) (b : Batch) (pick : Nat → Bool) : State :=
  let go := b.stores.zipIdx.filter fun p => pick p.2
  if go.isEmpty then s else modBatch (go.foldl (fun s p => performStore s b p.1) s) b.id fun c => dropStores c pick

/-- Performs the first `n` stores that a batch still has to perform, oldest first. -/
def performStores (s : State) (b : Batch) (n : Nat) : State := performThose s b fun i => decide (i < n)

/-- The fibre of lane `lane` accesses a place in its program order (R157): its stores to those bytes are performed first, and
with them those that came before. -/
def settleStores (s : State) (b : Batch) (lane n : Nat) (loc : Loc) : State :=
  match findBatch s b.id with
  | none => s
  | some c =>
    if c.stores.isEmpty then s
    else
      let at' := locSpan s b.ctx n loc
      let meets (r : StoreSrc) : Bool := r.lanes.contains lane && spansMeet (locSpan s b.ctx r.data.length r.loc) at'
      performStores s c ((c.stores.zipIdx.filter fun p => meets p.1).map (·.2 + 1) |>.foldl max 0)

/-- A store of scratch, or the reads of an MMQ: they keep the order of their words (R209). -/
def inScratch (r : StoreSrc) : Bool :=
  match r.loc with
  | .scratch _ _ => true
  | _ => false

/-- The reads of the MMQs of a batch that `p` names happen, after the stores of scratch before them (R209). -/
def settleReads (s : State) (bid : Nat) (p : Nat → Bool) : State :=
  match findBatch s bid with
  | none => s
  | some b =>
    let last := ((b.stores.zipIdx.filter fun r => r.1.reads.any p).map (·.2 + 1)).foldl max 0
    performThose s b fun i => decide (i < last) && (b.stores[i]?).any inScratch

/-- The held stores of scratch of a batch are performed, and the reads of its MMQs happen. -/
def settleScratch (s : State) (bid : Nat) : State :=
  match findBatch s bid with
  | none => s
  | some b => performThose s b fun i => (b.stores[i]?).any inScratch

/-- A held store's home performs it, or its line stands in L1: a remap step is waited out (R436, R482). -/
def storeReady (s : State) (b : Batch) (r : StoreSrc) : Bool :=
  match r.loc with
  | .mem pa l _ => (l1Hit s b.core (pa / 128) (leafPgen l.e)).isSome || homeAnswer s pa (leafPgen l.e) == .perform
  | .xform va l => let pa := xformAddr s b.ctx l va
      (l1Hit s b.core (pa / 128) (leafPgen l.e)).isSome || homeAnswer s pa (leafPgen l.e) == .perform
  | _ => true

/-- Every held store is performed, as a park of its batch asks. -/
def drainStores (s : State) (bid : Nat) : State :=
  match findBatch s bid with
  | none => s
  | some b => if b.stores.isEmpty then s else performStores s b b.stores.length

/-- The home at which a held store of a batch waits, if one does. -/
def storeWait (s : State) (b : Batch) : Option Block :=
  ((b.stores.filter fun r => !storeReady s b r).head?).bind fun r => match r.loc with
    | .mem pa l _ => some (.home (pa / 128) (leafPgen l.e))
    | .xform va l => some (.home (xformAddr s b.ctx l va / 128) (leafPgen l.e))
    | _ => none

/-- Whether an access of an outstanding load may be performed now: its home answers and it meets no error. -/
def canPerform (s : State) (b : Batch) (r : LoadSrc) : Bool :=
  (match r.loc with
    | .mem pa l _ => (l1Hit s b.core (pa / 128) (leafPgen l.e)).isSome || homeAnswer s pa (leafPgen l.e) == .perform
    | .xform va l => let pa := xformAddr s b.ctx l va
        (l1Hit s b.core (pa / 128) (leafPgen l.e)).isSome || homeAnswer s pa (leafPgen l.e) == .perform
    | .scratch c _ => (findCrew s c).isSome
    | _ => false) && (s.upsets.isEmpty || (eccLoc s b.core b.ctx .load r.bytes r.loc).isNone)

end Sys2Proof.Machine
end

