-- ==== Sys2Proof/Machine/Engine.lean ====
section
/-! DEFINITION. Reads and writes of memory by the device's own agents (engines, plane loads, the scheduler, the front
ends): translation and permissions (R433), page kinds (R402, R494), page generations (R436), GEN lines (R382) and the
homes of the bytes (R293, R308). -/
namespace Sys2Proof.Machine
open Sys2Proof

/-- Who accesses: the context, the depth and class of its GEN accesses, the cause it meets on a CHECKED page
(Table 12-12), the crew that scratch-window addresses resolve against, whether it counts as privileged, and the core
whose own dirty lines its reads follow. -/
structure Agent where
  ctx : Nat
  depth : Nat := 0
  cls : Nat := 1
  chk : Cause := .flueCmd
  crew : Option Nat := none
  priv : Bool := Config.enginePriv
  core : Option Nat := none
  /-- a vertical load that a remap step lets finish from the old layout (R223) -/
  skip : Bool := false
  /-- whose accesses park on GEN lines (R384) -/
  who : Who := .other 0
  /-- reads a part of a larger access, whose ends `spanFault` has checked (R402) -/
  inner : Bool := false
  /-- a vertical load, which reads its column past the LLC (R196) -/
  vert : Bool := false

/-- What an access of an agent comes to: done, a cause with the fill record that holds it, or a wait. -/
inductive Eng (α : Type) where
  | ok (s : State) (v : α)
  | bad (s : State) (c : Cause) (f : Option Fill) (va : Nat)
  | wait (s : State) (k : Block)

/-- The pieces of a range, none of which crosses a line. `fuel` bounds their number. -/
def lineSpans : Nat → Nat → Nat → List (Nat × Nat)
  | 0, _, _ => []
  | fuel + 1, va, n =>
    if n = 0 then []
    else
      let k := min n (128 - va % 128)
      (va, k) :: lineSpans fuel (va + k) (n - k)

def spansOf (va n : Nat) : List (Nat × Nat) := lineSpans (n / 128 + 2) va n

/-- Where a piece lies. -/
inductive Piece where
  | scratch (crew off : Nat)
  | mem (pa : Nat)
  | gen (leaf : Leaf) (line : List Byte)
  | xform (leaf : Leaf)

/-- The scratch bytes of a range of the scratch window (R277), inside one crew's scratch. -/
def scratchSpan (s : State) (crew : Option Nat) (addr n : Nat) : Except Cause (Nat × Nat) :=
  match crew with
  | none => .error .clusterAddr
  | some u =>
    match scratchLoc s u (addr % 2 ^ 32) 1 with
    | .error c => .error c
    | .ok (d, off) => if (crewD s d).scratchBytes < off + n then .error .scratchRange else .ok (d, off)

/-- R402's ATTR_SPAN for a whole access: only its two ends can lie inside a view element, since pages end with one. -/
def spanFault (s : State) (a : Agent) (u : Use) (va n : Nat) : Option Cause :=
  let cut (at' edge : Nat) : Bool := match walk s a.ctx at' with
    | none => false
    | some l => !inScratchWindow at' && leafKind l.e == 3 && (permFault s a.ctx a.priv u at' l).isNone &&
        edge % elemBytes (xformPair s a.ctx l.e / 16 % 16) != 0
  if cut va va || cut (va + n - 1) (va + n) then some .attrSpan else none

/-- The view elements that a range of a transform page meets, as a range. -/
def coverElems (s : State) (ctx : Nat) (l : Leaf) (va n : Nat) : Nat × Nat :=
  let ev := elemBytes (xformPair s ctx l.e / 16 % 16)
  (va / ev * ev, (va + n + ev - 1) / ev * ev - va / ev * ev)

/-- A piece of a range: a scratch address takes R159's checks (R277), a parked access completes as its record ends (R384), else
a translated piece of a memory, GEN or transform page after the checks that name its page; the second walk of
R436 is the same walk, since an agent keeps no translation. -/
def pieceAt (s : State) (a : Agent) (u : Use) (va n : Nat) : Except Cause (Piece ⊕ Block) :=
  if inScratchWindow va then (scratchSpan s a.crew va n).map fun q => .inl (.scratch q.1 q.2) else
  match (if u = .load then heldPark s a.who a.ctx va else none) with
  | some p => .ok (.inl (.gen p.leaf []))
  | none =>
  match walk s a.ctx va with
  | none => .error .pageAbsent
  | some l =>
    match permFault s a.ctx a.priv u va l with
    | some c => .error c
    | none =>
      if leafChk l.e then .error a.chk
      else if leafKind l.e = 2 then (if useWrites u then .error .genWrite else .ok (.inl (.gen l [])))
      else
        let ev := elemBytes (xformPair s a.ctx l.e / 16 % 16)
        if leafKind l.e = 3 ∧ !a.inner ∧ (va % ev ≠ 0 ∨ (va + n) % ev ≠ 0) then .error .attrSpan
        else
          let pa := if leafKind l.e = 3 then xformAddr s a.ctx l va else leafAddr l va
          match (if a.skip then genAnswer s pa (leafPgen l.e) else homeAnswer s pa (leafPgen l.e)) with
          | .waits => .ok (.inr (.home (pa / 128) (leafPgen l.e)))
          | .refused => .error .pageAbsent
          | .perform => .ok (.inl (if leafKind l.e = 3 then .xform l else .mem pa))

/-- An uncorrectable error that an access of one piece meets: a read, or a write that covers a protected word in part (R286,
R481). -/
def pieceBad (s : State) (a : Agent) (u : Use) (p : Nat × Nat × Piece) : Option Cause :=
  let (va, n, q) := p
  let home (pa n : Nat) : Option Cause := (eccWords u pa n).findSome? fun w => memBad s (8 * w) 8
  match q with
  | .scratch c off => if scratchBad s u c off n then some .eccUeScratch else none
  | .mem pa => home pa n
  | .gen _ _ => none
  | .xform l =>
    let c := coverElems s a.ctx l va n
    let (els, sf, _) := xformElems s a.ctx l c.1 c.2
    els.findSome? fun pa => home pa (elemBytes sf)

/-- The first such error of a range. -/
def piecesBad (s : State) (a : Agent) (u : Use) (ps : List (Nat × Nat × Piece)) : Option (Cause × Nat) :=
  if s.upsets.isEmpty then none else ps.findSome? fun p => (pieceBad s a u p).map fun c => (c, p.1)

/-- An error that an agent met is counted on the core whose scratch held it (Table 24-2), or shows in its bank (R485). -/
def noteBad (s : State) (a : Agent) (u : Use) (p : Nat × Nat × Piece) : State :=
  match pieceBad s a u p, p with
  | none, _ => s
  | some c, (_, _, .scratch d _) => countUE s (crewD s d).core c
  | some _, (_, n, .mem pa) => noteBanks s (eccWords u pa n)
  | some _, (va, n, .xform l) =>
    let c := coverElems s a.ctx l va n
    let (els, sf, _) := xformElems s a.ctx l c.1 c.2
    noteBanks s (els.flatMap fun pa => eccWords u pa (elemBytes sf))
  | some _, _ => s

/-- The crew that an agent's misses count for (Table 08-6): that of a plane load. -/
def missCrew (a : Agent) : Nat := if a.core.isSome then a.crew.getD 0 else 0

/-- The pieces that reach a home request its line of the LLC (Tables 08-6 and 24-3, R488); a vertical load uses the tier alone
(R196). -/
def pieceUse (a : Agent) (s : State) (p : Nat × Nat × Piece) : State :=
  let ask (pa : Nat) : State :=
    if a.vert then useEngines s (homeEngines s pa).tail else countHome s (missCrew a) a.ctx pa
  match p.2.2 with
  | .mem pa => ask pa
  | .xform l => ask (xformAddr s a.ctx l p.1)
  | _ => s

/-- The number of an agent among those whose requests wait at homes. -/
def askKey : Who → Nat
  | .flue k => 4 * k
  | .split k => 4 * k + 1
  | .load c => 4 * c + 2
  | .other n => 4 * n + 3
  | .batch _ => 0

/-- An agent's request has reached a home and waits there (R436, R482); the engines that serve it wake (R488). -/
def askHome (s : State) (a : Agent) (k : Block) : State :=
  match k with
  | .home i g =>
    if kvGet s.homeAsks (askKey a.who) = some (i, g) then s
    else
      let s := useHome s (128 * i)
      { s with homeAsks := kvSet s.homeAsks (askKey a.who) (i, g) }
  | _ => s

/-- An agent's request waits at no home any more. -/
def askedHome (s : State) (a : Agent) : State :=
  if s.homeAsks.isEmpty then s else { s with homeAsks := kvDel s.homeAsks (askKey a.who) }

/-- The pieces of a range, in address order, with the first fault or wait. -/
def piecesOf (s : State) (a : Agent) (u : Use) (va n : Nat) : Eng (List (Nat × Nat × Piece)) :=
  if n = 0 then .ok s []
  else if 2 ^ 54 < va + n then .bad s .pageAbsent none va
  else
    let ps := (spansOf va n).map fun p => (p, pieceAt s a u p.1 p.2)
    match ps.find? fun p => match p.2 with | .error _ => true | .ok _ => false with
    | some (p, .error c) => .bad (askedHome s a) c none p.1
    | _ =>
      match ps.findSome? fun p => match p.2 with | .ok (.inr k) => some k | _ => none with
      | some k => .wait (askHome s a k) k
      | none => .ok (askedHome s a) (ps.filterMap fun p => match p.2 with
          | .ok (.inl q) => some (p.1.1, p.1.2, q)
          | _ => none)

/-- The GEN lines of the pieces are served, or the access waits on their records (R382): the pieces come back with them. -/
def pieceGen (a : Agent) (s : State) : List (Nat × Nat × Piece) → List (Nat × Nat × Piece) → List Nat → Bool →
    Eng (List (Nat × Nat × Piece))
  | [], out, recs, waits =>
    if waits then
      -- what was served stays with the access, which completes once its records are DONE (R382)
      .wait (out.foldl (fun s p => match p.2.2 with
        | .gen l bs => if (heldPark s a.who a.ctx p.1).isSome then s else holdServed s a.who a.ctx p.1 l bs
        | _ => s) s) (.fills recs 0)
    else .ok s out
  | (va, n, .gen l _) :: rest, out, recs, waits =>
    -- a miss counts once, as it parks (Table 08-6)
    let was := (llcGen s a.ctx va (leafGenId l.e)).isSome || isParked s a.who a.ctx va
    (match genAccess (if was then s else countLlcMiss s (missCrew a) a.ctx) a.who a.ctx a.depth a.cls va l with
    | (s, .served bs) => pieceGen a s rest (out ++ [(va, n, .gen l bs)]) recs waits
    | (s, .parked r) => pieceGen a s rest out (r.toList ++ recs).eraseDups true
    | (s, .failed f) => .bad s .fillFailed (some f) f.unit
    | (s, .nest) => .bad s .fillNest none va)
  | p :: rest, out, recs, waits => pieceGen a s rest (out ++ [p]) recs waits

/-- The bytes of one piece, at its home. -/
def pieceRead (s : State) (a : Agent) (p : Nat × Nat × Piece) : List Byte :=
  let (va, n, q) := p
  match q with
  | .scratch c off => scratchRead s c off n
  | .mem pa => homeRead s pa n
  | .gen _ line => (line.drop (va % 128)).take n
  | .xform l =>
    let c := coverElems s a.ctx l va n
    let (els, sf, vf) := xformElems s a.ctx l c.1 c.2
    let bs := els.flatMap fun pa => leBytes (elemBytes vf) (elemConvert sf vf (homeNat s pa (elemBytes sf)))
    (bs.drop (va - c.1)).take n

/-- An agent on a core follows that core's own stores: their dirty bytes reach the home first. -/
def pieceSettle (a : Agent) (s : State) (p : Nat × Nat × Piece) : State :=
  match a.core, p.2.2 with
  | some k, .mem pa => writeBack s k (pa / 128)
  | some k, .xform l =>
    let c := coverElems s a.ctx l p.1 p.2.1
    (xformElems s a.ctx l c.1 c.2).1.foldl (fun s pa => writeBack s k (pa / 128)) s
  | _, _ => s

/-- A read by an agent. -/
def engineRead (s : State) (a : Agent) (va n : Nat) : Eng (List Byte) :=
  match piecesOf s a .load va n with
  | .bad s c f v => .bad s c f v
  | .wait s k => .wait s k
  | .ok s ps =>
    match pieceGen a s ps [] [] false with
    | .bad s c f v => .bad s c f v
    | .wait s k => .wait s k
    | .ok s ps =>
      let s := ps.foldl (pieceUse a) (ps.foldl (pieceSettle a) s)
      match piecesBad s a .load ps with
      | some (c, v) => .bad (ps.foldl (fun s p => noteBad s a .load p) s) c none v
      | none => .ok s (ps.flatMap (pieceRead s a))

/-- Bytes of an agent reach their home; for a peer behind a link that is DOWN they are lost, which is fatal to its context
(R448). -/
def agentWrite (a : Agent) (s : State) (pa : Nat) (bs : List Byte) : State :=
  if paLost s pa then postLost s (a.ctx, a.crew.getD 0) else homeWrite s pa bs

/-- Writes one piece at its home, storing through a transform page as R401 says. -/
def pieceWrite (a : Agent) (s : State) (p : Nat × Nat × Piece) (bs : List Byte) : State :=
  let (va, n, q) := p
  match q with
  | .scratch c off => scratchWrite s c off bs
  | .mem pa => agentWrite a s pa bs
  | .gen _ _ => s
  | .xform l =>
    let (els, sf, vf) := xformElems s a.ctx l va n
    let ev := elemBytes vf
    (els.foldl (fun (st : State × List Byte) pa =>
      (agentWrite a st.1 pa (leBytes (elemBytes sf) (elemConvert vf sf (leNat (st.2.take ev)))), st.2.drop ev)) (s, bs)).1

/-- A write by an agent: every check comes before any byte (R402). -/
def engineWrite (s : State) (a : Agent) (va : Nat) (bs : List Byte) : Eng Unit :=
  match piecesOf s a .store va bs.length with
  | .bad s c f v => .bad s c f v
  | .wait s k => .wait s k
  | .ok s ps =>
    let s := ps.foldl (pieceUse a) (ps.foldl (pieceSettle a) s)
    match piecesBad s a .store ps with
    | some (c, v) => .bad (ps.foldl (fun s p => noteBad s a .store p) s) c none v
    | none => .ok (ps.foldl (fun s p => pieceWrite a s p ((bs.drop (p.1 - va)).take p.2.1)) s) ()

/-- The little-endian 64-bit words of a byte string. -/
def wordsOf (bs : List Byte) (n : Nat) : List W64 := (List.range n).map fun i => bytesWord ((bs.drop (8 * i)).take 8)

end Sys2Proof.Machine
end

