-- ==== Sys2Proof/Machine/Events.lean ====
section
/-! DEFINITION. The event table and its wait lists (R232 to R236, R369, R370), for the event words, the scheduler's
nodes and the Flue engines. -/
namespace Sys2Proof.Machine
open Sys2Proof

/-- The entry of the event table that id `n` of a context names (R232); none is EV_RANGE. -/
def eventIdx (s : State) (ctx n : Nat) : Option Nat :=
  let r := (ctxD s ctx).evrange.toNat
  if n < r / 65536 + 1 then some (r % 65536 + n) else none

def eventCount (s : State) (i : Nat) : Nat := (kvGetD s.events i 0).toNat

/-! ### Waiters (R369) -/

/-- What names a node's wait entry in the wait lists. -/
def nodeWho (g n i : Nat) : Nat := 4 * (16384 * g + n) + i

/-- A waiter's batch or node still waits: the batch is there, the node's run is there. -/
def waiterLive (s : State) (w : Waiter) : Bool :=
  if w.node then (findRun s (w.who / 65536)).isSome else (findBatch s w.who).isSome

/-- Hardware entries that are taken, of 8,192. -/
def entriesHeld (s : State) : Nat := s.waiters.countP fun w => w.overflow.isNone && waiterLive s w

/-- The agent of the event table's own accesses to a context's overflow area. -/
def tableAgent (ctx : Nat) : Agent := { ctx := ctx, who := .other (64 + ctx) }

def recordVA (s : State) (ctx k : Nat) : Nat := (ctxD s ctx).evovfb.toNat + 16 * k

/-- The waiter's name in its record (R369): core, slot and crew id, or graph id and node index. -/
def recordName (s : State) (w : Waiter) : W64 :=
  if w.node then
    Config.waiterName true (((findRun s (w.who / 65536)).map (·.graph)).getD 0) (w.who / 4 % 16384) 0
  else
    match findBatch s w.who with
    | some b => Config.waiterName false b.core b.slot (crewD s b.crew).id
    | none => Config.waiterName false 0 0 0

/-- The two words of a waiter's record. -/
def recordWords (s : State) (w : Waiter) (valid : Bool) : List W64 :=
  let ev := w.ev - (ctxD s w.ctx).evrange.toNat % 65536
  [BitVec.ofNat 64 (ev % 65536 + (if w.node then 65536 else 0) + (if valid then 131072 else 0) + 2 ^ 32 * (w.threshold % 2 ^ 32)),
    recordName s w]

/-- Writes a waiter record as device stores. -/
def putRecord (s : State) (w : Waiter) (k : Nat) (valid : Bool) : Eng Unit :=
  engineWrite s (tableAgent w.ctx) (recordVA s w.ctx k) ((recordWords s w valid).flatMap fun v => leBytes 8 v.toNat)

/-- Reads a record as device loads. -/
def getRecord (s : State) (ctx k : Nat) : Eng (List W64) :=
  match engineRead s (tableAgent ctx) (recordVA s ctx k) 16 with
  | .ok s bs => .ok (modParks s (.other (64 + ctx)) fun _ => []) (wordsOf bs 2)
  | .bad s c f v => .bad s c f v
  | .wait s k => .wait s k

/-- A record that is woken, or whose waiter is gone, is invalidated (R370). -/
def freeRecord (s : State) (w : Waiter) : State :=
  match w.overflow with
  | some k => match putRecord s w k false with
    | .ok s _ => s
    | _ => s
  | none => s

/-- The entries and records of waiters that are gone are freed. -/
def reapWaiters (s : State) : State :=
  let dead := s.waiters.filter fun w => !waiterLive s w
  if dead.isEmpty then s
  else dead.foldl freeRecord { s with waiters := s.waiters.filter (waiterLive s) }

/-- The waiters that meet a condition are dropped. -/
def dropWaiters (s : State) (p : Waiter → Bool) : State :=
  (s.waiters.filter p).foldl freeRecord { s with waiters := s.waiters.filter fun w => !p w }

/-- Writes a waiter's record into the first free one of its context's area, `k` of them passed; a full area is EV_OVERFLOW. -/
def spillWaiter (s : State) (w : Waiter) (k : Nat) : Nat → Eng Unit
  | 0 => .bad s .evOverflow none (recordVA s w.ctx k)
  | fuel + 1 =>
    match getRecord s w.ctx k with
    | .bad s c f v => .bad s c f v
    | .wait s b => .wait s b
    | .ok s r =>
      if (r.getD 0 0).getLsbD 17 then spillWaiter s w (k + 1) fuel
      else match putRecord s w k true with
        | .ok s _ => .ok { s with waiters := s.waiters ++ [{ w with overflow := some k }] } ()
        | r => r

/-- A new waiter takes a hardware entry, else the first free record of its context's area (R369); an area that is full,
absent or cannot be accessed is EV_OVERFLOW (R370; log 75). -/
def addWaiter (s : State) (w : Waiter) : Eng Unit :=
  let s := reapWaiters s
  if entriesHeld s < 8192 then .ok { s with waiters := s.waiters ++ [{ w with overflow := none }] } ()
  else spillWaiter s w 0 (8 * (ctxD s w.ctx).evovfn)

/-- Wakes one waiter: a batch acquires the event's stamp (R234, R342), a node has one wait entry fewer. -/
def wakeWaiter (s : State) (w : Waiter) : State :=
  if w.node then
    modNode s (w.who / 65536) (w.who / 4 % 16384) fun n => { n with
      waiting := n.waiting.filter fun i => i ≠ w.who % 4
      readyAt := s.clock }
  else
    match findBatch s w.who with
    | none => s
    | some b =>
      modBatch (acquireStamp s b.crew 2 false (kvGet s.evStamps w.ev)) b.id fun b =>
        if b.block.isSome then { b with block := some (.event w.ev true) } else b

/-- Whether a count meets a waiter: an entry by its threshold, a record as it reads in memory (R369); a record that cannot be
read stands as it was written (log 75). -/
def waiterMet (s : State) (w : Waiter) (count : Nat) : State × Bool :=
  match w.overflow with
  | none => (s, decide (w.threshold ≤ count))
  | some k =>
    match getRecord s w.ctx k with
    | .ok s r =>
      let same := (r.getD 0 0).extractLsb' 0 18 == ((recordWords s w true).getD 0 0).extractLsb' 0 18 && r.getD 1 0 == recordName s w
      (s, same && decide (bitsOf (r.getD 0 0) 32 32 ≤ count))
    | _ => (s, decide (w.threshold ≤ count))

/-- The waiters of an event whose thresholds its count meets are woken, hardware entries first, then records (R370). -/
def wakeMet (s : State) (i : Nat) : State :=
  let s := reapWaiters s
  let n := eventCount s i
  let ws := s.waiters.filter fun w => w.ev == i
  let order := (ws.filter fun w => w.overflow.isNone) ++
    sortBy (ws.filter fun w => w.overflow.isSome) fun a b => decide (a.overflow.getD 0 ≤ b.overflow.getD 0)
  order.foldl (fun s w => match waiterMet s w n with
    | (s, true) => wakeWaiter (freeRecord { s with waiters := s.waiters.erase w } w) w
    | (s, false) => s) s

/-- A signal (R233): the count saturates, and every waiter that it meets is woken. -/
def signalEvent (s : State) (i add : Nat) : State :=
  let n := min (2 ^ 32 - 1) (eventCount s i + add)
  wakeMet { s with events := kvPut 0 s.events i (BitVec.ofNat 32 n) } i

/-- EVSIG.CLR: the count and the stamp are emptied, and no waiter is woken (R233, R342, Table 16-5). -/
def clearEvent (s : State) (i : Nat) : State :=
  { s with events := kvPut 0 s.events i 0, evStamps := kvDel s.evStamps i }

/-- A crew's signal merges its pairs into the event's stamp (R342). -/
def stampEvent (s : State) (c : Crew) (i : Nat) : State :=
  let (p, o) := releasePairs c
  let (p, o) := match kvGet s.evStamps i with
    | some t => let r := mergePairs t.pairs p; (r.1, r.2 || t.ovf || o)
    | none => (p, o)
  { s with evStamps := kvSet s.evStamps i ⟨0, p, o, true, 2, c.core, c.core / 8, []⟩ }

end Sys2Proof.Machine
end

