-- ==== Sys2Proof/Machine/Integer.lean ====
section
/-! DEFINITION. Integer arithmetic, addresses and moves (chapter 04, R89 to R101). -/
namespace Sys2Proof.Machine
open Sys2Proof

/-! ### Types (Table 03-6, R90) -/

/-- The width in bits of a type code. -/
def typeBits (t : Nat) : Nat :=
  match t with
  | 0 | 1 | 8 => 32
  | 2 | 3 | 9 => 64
  | 4 | 5 | 10 => 16
  | 6 | 7 | 11 => 8
  | _ => 128

/-- Whether a type code is one of the .S types. -/
def typeSigned (t : Nat) : Bool := t = 0 || t = 2 || t = 4 || t = 6

/-- ext(x, T): the low bits of a source as an exact integer (R90). -/
def extInt (t : Nat) (x : W32) : Int :=
  let w := typeBits t
  let n : Nat := x.toNat % 2 ^ w
  if typeSigned t ∧ 2 ^ (w - 1) ≤ n then (n : Int) - 2 ^ w else n

/-- fit(v, T): wrapped or, with SAT, clamped into the type, then extended to 32 bits (R90, R10). -/
def fitInt (t : Nat) (sat : Bool) (v : Int) : W32 :=
  let w := typeBits t
  let lo : Int := if typeSigned t then -(2 ^ (w - 1)) else 0
  let hi : Int := if typeSigned t then 2 ^ (w - 1) - 1 else 2 ^ w - 1
  let v := if sat then min (max v lo) hi else v
  let m : Int := v % 2 ^ w
  BitVec.ofInt 32 (if typeSigned t ∧ 2 ^ (w - 1) ≤ m then m - 2 ^ w else m)

/-- The type code of layout A: mod11 [3:0] (Table 03-5). -/
def modType (m : BitVec 11) : Nat := m.toNat % 16
def modSat (m : BitVec 11) : Bool := m.getLsbD 4
/-- The sub-op of layout A: mod11 [9:5]. -/
def modSub (m : BitVec 11) : Nat := m.toNat / 32 % 32

/-- A word of layout A whose entry admits these types, SAT or not, and no sub-op. -/
def specA (op : Nat) (w : FWord) (d a b c : Cls) (types : List Nat) (sat : Bool) : Spec :=
  { fSpec op w d a b c with
    legal := types.contains (modType w.m) && (sat || !modSat w.m) && modSub w.m = 0
    k := w.m.getLsbD 10
    ephOk := true }

/-- The types that the column "32" admits, and those of IADD (Table 04-1). -/
def types32 : List Nat := [0, 1, 8]
def typesAdd : List Nat := [0, 1, 4, 5, 6, 7]
def typesSN : List Nat := [0, 1]

/-- One 32-bit name. -/
def v1 : Cls := .v 1 1
/-- A 64-bit value (VE) and a 128-bit value (VQ). -/
def ve : Cls := .v 2 2
def vq : Cls := .v 4 4

/-- Runs a word whose one register result is a function of its register sources in each lane. -/
def alu (s : State) (w : FWord) (sp : Spec) (srcs : List Fld) (f : Exec → Nat → W32) :
    Host.Outcome State Fault Refusal :=
  runF s w sp fun x => .res [(nameOf x .d 0, laneResult x (uniSrcs x srcs) (f x))] [] []

/-- Runs an I-form word of one source and its immediate. -/
def aluI (s : State) (op : Nat) (w : IWord) (f : W32 → W32 → W32) : Host.Outcome State Fault Refusal :=
  runI s w (iSpec op w v1 v1) fun x =>
    .res [(nameOf x .d 0, laneResult x (uniSrcs x [.a]) fun l => f (lane x .a 0 l) w.imm)] [] []

/-! ### Affine results (Table 02-2) -/

/-- IADD of A and U in either order, without SAT and of a 32-bit type. -/
def affineAdd (a b : RegVal) : Option RegVal :=
  match a, b with
  | .a p st, .u y => some (.a (p + y) st)
  | .u x, .a p st => some (.a (x + p) st)
  | _, _ => none

/-- ISUB of A and U in either order. -/
def affineSub (a b : RegVal) : Option RegVal :=
  match a, b with
  | .a p st, .u y => some (.a (p - y) st)
  | .u x, .a p st => some (.a (x - p) (0 - st))
  | _, _ => none

/-- IMUL of A and U in either order. -/
def affineMul (a b : RegVal) : Option RegVal :=
  match a, b with
  | .a p st, .u y => some (.a (p * y) (st * y))
  | .u x, .a p st => some (.a (x * p) (x * st))
  | _, _ => none

/-- The result of IADD, ISUB or IMUL with its shape: `aff` gives the affine case. -/
def arithResult (x : Exec) (t : Nat) (sat : Bool) (a b : RegVal) (aff : RegVal → RegVal → Option RegVal)
    (f : Int → Int → Int) : RegVal :=
  let g (l : Nat) : W32 := fitInt t sat (f (extInt t (laneVal a l)) (extInt t (laneVal b l)))
  match (if typeBits t = 32 ∧ !sat then aff a b else none) with
  | some r => r
  | none => laneResult x (isUni a && isUni b) g

/-- Runs IADD, ISUB or IMUL in the F-form. -/
def arithF (s : State) (op : Nat) (w : FWord) (aff : RegVal → RegVal → Option RegVal) (f : Int → Int → Int) :
    Host.Outcome State Fault Refusal :=
  runF s w (specA op w v1 v1 v1 .z typesAdd true) fun x =>
    .res [(nameOf x .d 0, arithResult x (modType w.m) (modSat w.m) (regOf x .a 0) (regOf x .b 0) aff f)] [] []

/-- Runs IADD or IMUL in the I-form (R94). -/
def arithI (s : State) (op : Nat) (w : IWord) (aff : RegVal → RegVal → Option RegVal) (f : Int → Int → Int) :
    Host.Outcome State Fault Refusal :=
  runI s w (iSpec op w v1 v1) fun x =>
    .res [(nameOf x .d 0, arithResult x 0 false (regOf x .a 0) (.u w.imm) aff f)] [] []

/-! ### R95 -/

def execIadd (w : FWord) (s : State) : Host.Outcome State Fault Refusal := arithF s 0x01 w affineAdd (· + ·)
def execIaddI (w : IWord) (s : State) : Host.Outcome State Fault Refusal := arithI s 0x03 w affineAdd (· + ·)
def execIsub (w : FWord) (s : State) : Host.Outcome State Fault Refusal := arithF s 0x02 w affineSub (· - ·)
def execImul (w : FWord) (s : State) : Host.Outcome State Fault Refusal := arithF s 0x04 w affineMul (· * ·)
def execImulI (w : IWord) (s : State) : Host.Outcome State Fault Refusal := arithI s 0x04 w affineMul (· * ·)

/-- The lane value of an instruction of R95 on three sources. -/
def intLane (w : FWord) (f : Int → Int → Int → Int) (x : Exec) (l : Nat) : W32 :=
  let t := modType w.m
  fitInt t (modSat w.m) (f (extInt t (lane x .a 0 l)) (extInt t (lane x .b 0 l)) (extInt t (lane x .c 0 l)))

def execImad (w : FWord) (s : State) : Host.Outcome State Fault Refusal :=
  alu s w (specA 0x06 w v1 v1 v1 v1 typesSN true) [.a, .b, .c] (intLane w fun a b c => a * b + c)
def execImin (w : FWord) (s : State) : Host.Outcome State Fault Refusal :=
  alu s w (specA 0x0A w v1 v1 v1 .z typesAdd false) [.a, .b] (intLane w fun a b _ => min a b)
def execImax (w : FWord) (s : State) : Host.Outcome State Fault Refusal :=
  alu s w (specA 0x0B w v1 v1 v1 .z typesAdd false) [.a, .b] (intLane w fun a b _ => max a b)
def execIabs (w : FWord) (s : State) : Host.Outcome State Fault Refusal :=
  alu s w (specA 0x0C w v1 v1 .z .z [0, 4, 6] true) [.a] (intLane w fun a _ _ => if a < 0 then -a else a)
def execIneg (w : FWord) (s : State) : Host.Outcome State Fault Refusal :=
  alu s w (specA 0x0D w v1 v1 .z .z [0, 4, 6] true) [.a] (intLane w fun a _ _ => -a)
def execIclamp (w : FWord) (s : State) : Host.Outcome State Fault Refusal :=
  alu s w (specA 0x0E w v1 v1 v1 v1 typesAdd false) [.a, .b, .c] (intLane w fun a b c => min (max a b) c)

/-! ### R96 to R98 -/

def execImulh (w : FWord) (s : State) : Host.Outcome State Fault Refusal :=
  alu s w (specA 0x05 w v1 v1 v1 .z typesSN false) [.a, .b] fun x l =>
    let t := modType w.m
    BitVec.ofInt 32 ((extInt t (lane x .a 0 l) * extInt t (lane x .b 0 l)) / 2 ^ 32)

/-- A 64-bit result in its two names (R10): uniform in each name when every source name is uniform (R42). -/
def result64 (x : Exec) (srcs : List Fld) (f : Nat → W64) : List (Nat × RegVal) :=
  let u := uniSrcs x srcs
  [ (nameOf x .d 0, laneResult x u fun l => (f l).extractLsb' 0 32)
  , (nameOf x .d 1, laneResult x u fun l => (f l).extractLsb' 32 32) ]

def execImadw (w : FWord) (s : State) : Host.Outcome State Fault Refusal :=
  runF s w (specA 0x07 w ve v1 v1 ve typesSN false) fun x =>
    let t := modType w.m
    .res (result64 x [.a, .b, .c] fun l =>
      BitVec.ofInt 64 (extInt t (lane x .a 0 l) * extInt t (lane x .b 0 l)) + lane64 x .c l) [] []

/-- IADDX: add with the carry predicate that the sub-op names; the result depends on a predicate, so it is G (R91). -/
def execIaddx (w : FWord) (s : State) : Host.Outcome State Fault Refusal :=
  let sp := { fSpec 0x03 w v1 v1 v1 .z with
    legal := modType w.m = 1 && !modSat w.m, k := w.m.getLsbD 10, ephOk := true }
  runF s w sp fun x =>
    let p := modSub w.m
    let sum (l : Nat) : Nat :=
      (lane x .a 0 l).toNat + (lane x .b 0 l).toNat + (if predBit (fibreOf x.b l).pw p then 1 else 0)
    .res [(nameOf x .d 0, laneResult x false fun l => BitVec.ofNat 32 (sum l))]
      [(p, predMask x fun l => 2 ^ 32 ≤ sum l)] []

/-- IDIV of one lane, borderline cases included (R98). -/
def idivLane (t : Nat) (sat : Bool) (a b : W32) : W32 :=
  if b = 0 then 0xFFFFFFFF else fitInt t sat ((extInt t a).tdiv (extInt t b))

/-- IREM of one lane (R98). -/
def iremLane (t : Nat) (a b : W32) : W32 :=
  if b = 0 then a else fitInt t false ((extInt t a).tmod (extInt t b))

def execIdiv (w : FWord) (s : State) : Host.Outcome State Fault Refusal :=
  alu s w { specA 0x08 w v1 v1 v1 .z typesSN true with ephOk := false, var := true } [.a, .b]
    fun x l => idivLane (modType w.m) (modSat w.m) (lane x .a 0 l) (lane x .b 0 l)
def execIrem (w : FWord) (s : State) : Host.Outcome State Fault Refusal :=
  alu s w { specA 0x09 w v1 v1 v1 .z typesSN false with ephOk := false, var := true } [.a, .b]
    fun x l => iremLane (modType w.m) (lane x .a 0 l) (lane x .b 0 l)

/-! ### Addresses and moves (R99 to R101) -/

/-- LEA (R99): a 64-bit result in d and d + 1 (log 102). -/
def execLea (w : FWord) (s : State) : Host.Outcome State Fault Refusal :=
  let sp := { fSpec 0x10 w ve ve v1 .z with legal := w.m.toNat < 16, ephOk := true }
  runF s w sp fun x =>
    .res (result64 x [.a, .b] fun l =>
      lane64 x .a l + (BitVec.ofInt 64 (extInt (if w.m.getLsbD 3 then 0 else 1) (lane x .b 0 l)) <<< (w.m.toNat % 8))) [] []

def execAdd64 (w : FWord) (s : State) : Host.Outcome State Fault Refusal :=
  runF s w (specA 0x11 w ve ve ve .z [2, 3, 9] false) fun x =>
    .res (result64 x [.a, .b] fun l => lane64 x .a l + lane64 x .b l) [] []
def execSub64 (w : FWord) (s : State) : Host.Outcome State Fault Refusal :=
  runF s w (specA 0x12 w ve ve ve .z [2, 3, 9] false) fun x =>
    .res (result64 x [.a, .b] fun l => lane64 x .a l - lane64 x .b l) [] []
def execAdd64I (w : IWord) (s : State) : Host.Outcome State Fault Refusal :=
  runI s w (iSpec 0x0B w ve ve) fun x =>
    .res (result64 x [.a] fun l => lane64 x .a l + w.imm.signExtend 64) [] []

/-- MOV copies 1, 2 or 4 names; each keeps its source's shape (R100). -/
def execMov (w : FWord) (s : State) : Host.Outcome State Fault Refusal :=
  let n := if modType w.m = 9 then 2 else if modType w.m = 12 then 4 else 1
  runF s w (specA 0x13 w (.v n n) (.v n n) .z .z [0, 1, 8, 9, 12] false) fun x =>
    .res ((List.range n).map fun j => (nameOf x .d j, regOf x .a j)) [] []

def execMovi (w : IWord) (s : State) : Host.Outcome State Fault Refusal :=
  runI s w (iSpec 0x01 w v1 .z) fun x => .res [(nameOf x .d 0, .u w.imm)] [] []
def execMovhi (w : IWord) (s : State) : Host.Outcome State Fault Refusal :=
  runI s w { iSpec 0x02 w v1 .z with legal := w.imm.toNat < 2 ^ 22 } fun x => .res [(nameOf x .d 0, .u w.imm)] [] []

def execSel (w : FWord) (s : State) : Host.Outcome State Fault Refusal :=
  runF s w (specA 0x14 w v1 v1 v1 .p types32 false) fun x =>
    .res [(nameOf x .d 0, laneResult x false fun l =>
      if predBit (fibreOf x.b l).pw w.c.toNat then lane x .a 0 l else lane x .b 0 l)] [] []

end Sys2Proof.Machine
end

