-- ==== Sys2Proof/Machine/Logic.lean ====
section
/-! DEFINITION. Logic and bit operations, compares and predicates (chapter 04, R102 to R110). -/
namespace Sys2Proof.Machine
open Sys2Proof

/-- A two-source word of the "32" types. -/
def logic2 (s : State) (op : Nat) (w : FWord) (f : W32 → W32 → W32) : Host.Outcome State Fault Refusal :=
  alu s w (specA op w v1 v1 v1 .z types32 false) [.a, .b] fun x l => f (lane x .a 0 l) (lane x .b 0 l)

/-- A one-source word of the "32" types. -/
def logic1 (s : State) (op : Nat) (w : FWord) (f : W32 → W32) : Host.Outcome State Fault Refusal :=
  alu s w (specA op w v1 v1 .z .z types32 false) [.a] fun x l => f (lane x .a 0 l)

/-! ### Bitwise (R102) -/

def execAndB (w : FWord) (s : State) : Host.Outcome State Fault Refusal := logic2 s 0x20 w (· &&& ·)
def execOrB (w : FWord) (s : State) : Host.Outcome State Fault Refusal := logic2 s 0x21 w (· ||| ·)
def execXorB (w : FWord) (s : State) : Host.Outcome State Fault Refusal := logic2 s 0x22 w (· ^^^ ·)
def execAndnB (w : FWord) (s : State) : Host.Outcome State Fault Refusal := logic2 s 0x23 w fun a b => a &&& ~~~b
def execAndBI (w : IWord) (s : State) : Host.Outcome State Fault Refusal := aluI s 0x05 w (· &&& ·)
def execOrBI (w : IWord) (s : State) : Host.Outcome State Fault Refusal := aluI s 0x06 w (· ||| ·)
def execXorBI (w : IWord) (s : State) : Host.Outcome State Fault Refusal := aluI s 0x07 w (· ^^^ ·)

/-- LOP3: bit i is table[a_i + 2 b_i + 4 c_i], written as the union of the table's minterms. -/
def lop3 (tab : Nat) (a b c : W32) : W32 :=
  let term (k : Nat) : W32 :=
    if tab.testBit k then
      (if k.testBit 0 then a else ~~~a) &&& (if k.testBit 1 then b else ~~~b) &&& (if k.testBit 2 then c else ~~~c)
    else 0
  (List.range 8).foldl (fun r k => r ||| term k) 0

def execLop3 (w : FWord) (s : State) : Host.Outcome State Fault Refusal :=
  alu s w { fSpec 0x24 w v1 v1 v1 v1 with legal := w.m.toNat < 256, ephOk := true } [.a, .b, .c]
    fun x l => lop3 w.m.toNat (lane x .a 0 l) (lane x .b 0 l) (lane x .c 0 l)

/-! ### Shifts (R103, R104): all 32 bits of the count are significant -/

def shlLane (a n : W32) : W32 := if n.toNat < 32 then a <<< n.toNat else 0
def shrLane (a n : W32) : W32 := if n.toNat < 32 then a >>> n.toNat else 0
def shraLane (a n : W32) : W32 := a.sshiftRight (min 32 n.toNat)
def rotLane (a n : W32) : W32 := a.rotateLeft (n.toNat % 32)

def execShl (w : FWord) (s : State) : Host.Outcome State Fault Refusal := logic2 s 0x25 w shlLane
def execShr (w : FWord) (s : State) : Host.Outcome State Fault Refusal := logic2 s 0x26 w shrLane
def execShra (w : FWord) (s : State) : Host.Outcome State Fault Refusal := logic2 s 0x27 w shraLane
def execRot (w : FWord) (s : State) : Host.Outcome State Fault Refusal := logic2 s 0x28 w rotLane
def execShlI (w : IWord) (s : State) : Host.Outcome State Fault Refusal := aluI s 0x08 w shlLane
def execShrI (w : IWord) (s : State) : Host.Outcome State Fault Refusal := aluI s 0x09 w shrLane
def execShraI (w : IWord) (s : State) : Host.Outcome State Fault Refusal := aluI s 0x0A w shraLane

def execFshf (w : FWord) (s : State) : Host.Outcome State Fault Refusal :=
  let sp := { specA 0x29 w v1 v1 v1 v1 types32 false with
    legal := types32.contains (modType w.m) && !modSat w.m && modSub w.m < 2 }
  alu s w sp [.a, .b, .c] fun x l =>
    let y : W64 := (lane x .b 0 l) ++ (lane x .a 0 l)
    let n := (lane x .c 0 l).toNat % 64
    if modSub w.m = 1 then (y <<< n).extractLsb' 32 32 else (y >>> n).extractLsb' 0 32

/-! ### Fields and counts (R105 to R107) -/

/-- BFX of one lane. -/
def bfxLane (signed : Bool) (a b c : W32) : W32 :=
  let pos := min (b.toNat % 256) 32
  let len := min (c.toNat % 256) 32
  let x : W64 := if signed then a.signExtend 64 else a.zeroExtend 64
  let f := (x >>> pos).toNat % 2 ^ len
  if len = 0 then 0
  else if signed ∧ 2 ^ (len - 1) ≤ f then BitVec.ofInt 32 ((f : Int) - 2 ^ len) else BitVec.ofNat 32 f

/-- BFI of one lane; bits shifted past 31 are dropped. -/
def bfiLane (d a b c : W32) : W32 :=
  let pos := min (b.toNat % 256) 32
  let len := min (c.toNat % 256) 32
  let mask : W64 := BitVec.ofNat 64 (2 ^ len - 1)
  let y : W64 := (d.zeroExtend 64 &&& ~~~(mask <<< pos)) ||| ((a.zeroExtend 64 &&& mask) <<< pos)
  y.extractLsb' 0 32

def execBfx (w : FWord) (s : State) : Host.Outcome State Fault Refusal :=
  alu s w (specA 0x2A w v1 v1 v1 v1 typesSN false) [.a, .b, .c]
    fun x l => bfxLane (modType w.m = 0) (lane x .a 0 l) (lane x .b 0 l) (lane x .c 0 l)
def execBfi (w : FWord) (s : State) : Host.Outcome State Fault Refusal :=
  alu s w { specA 0x2B w v1 v1 v1 v1 types32 false with reads := [.d, .a, .b, .c] } [.d, .a, .b, .c]
    fun x l => bfiLane (lane x .d 0 l) (lane x .a 0 l) (lane x .b 0 l) (lane x .c 0 l)

def popLane (a : W32) : W32 := BitVec.ofNat 32 ((List.range 32).countP fun i => a.getLsbD i)
/-- The leading zero bits; 32 for zero. -/
def clzLane (a : W32) : W32 := if a = 0 then 32 else BitVec.ofNat 32 (31 - Nat.log2 a.toNat)
def brevLane (a : W32) : W32 :=
  BitVec.ofNat 32 ((List.range 32).foldl (fun r i => 2 * r + (if a.getLsbD i then 1 else 0)) 0)

def execPopc (w : FWord) (s : State) : Host.Outcome State Fault Refusal := logic1 s 0x2C w popLane
def execClz (w : FWord) (s : State) : Host.Outcome State Fault Refusal := logic1 s 0x2D w clzLane
def execBrev (w : FWord) (s : State) : Host.Outcome State Fault Refusal := logic1 s 0x2E w brevLane

/-- BPERM: each byte selected from the eight bytes of b·2^32 + a, or its sign spread (R107). -/
def bpermLane (a b c : W32) : W32 :=
  let y : Nat := b.toNat * 2 ^ 32 + a.toNat
  let byte (i : Nat) : Nat :=
    let v := y / 2 ^ (8 * (c.toNat / 2 ^ (4 * i) % 8)) % 256
    if c.getLsbD (4 * i + 3) then (if 128 ≤ v then 255 else 0) else v
  BitVec.ofNat 32 (byte 0 + 256 * byte 1 + 65536 * byte 2 + 2 ^ 24 * byte 3)

def execBperm (w : FWord) (s : State) : Host.Outcome State Fault Refusal :=
  alu s w (specA 0x2F w v1 v1 v1 v1 types32 false) [.a, .b, .c]
    fun x l => bpermLane (lane x .a 0 l) (lane x .b 0 l) (lane x .c 0 l)

/-! ### Compares and predicates (R108 to R110) -/

/-- A condition of Table 03-6 on two values of `n` bits. -/
def condHolds {n : Nat} (c : Nat) (a b : BitVec n) : Bool :=
  match c with
  | 0 => a == b
  | 1 => a != b
  | 2 => decide (a.toInt < b.toInt)
  | 3 => decide (a.toInt ≤ b.toInt)
  | 4 => decide (a.toInt > b.toInt)
  | 5 => decide (a.toInt ≥ b.toInt)
  | 6 => decide (a.toNat < b.toNat)
  | 7 => decide (a.toNat ≤ b.toNat)
  | 8 => decide (a.toNat > b.toNat)
  | _ => decide (a.toNat ≥ b.toNat)

def execIcmp (w : FWord) (s : State) : Host.Outcome State Fault Refusal :=
  let wide := w.m.getLsbD 4
  let c := w.m.toNat % 16
  let cls := if wide then ve else v1
  let sp := { fSpec 0x30 w .p cls cls .z with legal := decide (c < 10) && decide (w.m.toNat < 32) }
  runF s w sp fun x =>
    .res [] [(w.d.toNat, predMask x fun l =>
      if wide then condHolds c (lane64 x .a l) (lane64 x .b l) else condHolds c (lane x .a 0 l) (lane x .b 0 l))] []

def execIcmpi (w : IWord) (s : State) : Host.Outcome State Fault Refusal :=
  let c := w.d.toNat / 32
  runI s w { iSpec 0x0C w .any v1 with legal := decide (c < 10) } fun x =>
    .res [] [(w.d.toNat % 32, predMask x fun l => condHolds c (lane x .a 0 l) w.imm)] []

def execPlop (w : FWord) (s : State) : Host.Outcome State Fault Refusal :=
  runF s w { fSpec 0x31 w .p .p .p .p with legal := w.m.toNat < 256 } fun x =>
    let bit (l : Nat) (f : W9) : Nat := if predBit (fibreOf x.b l).pw f.toNat then 1 else 0
    .res [] [(w.d.toNat, predMask x fun l => w.m.toNat.testBit (bit l w.a + 2 * bit l w.b + 4 * bit l w.c))] []

def execPmovr (w : FWord) (s : State) : Host.Outcome State Fault Refusal :=
  runF s w (specA 0x32 w v1 .z .z .z types32 false) fun x =>
    .res [(nameOf x .d 0, laneResult x false fun l => (fibreOf x.b l).pw)] [] []

def execPmovp (w : FWord) (s : State) : Host.Outcome State Fault Refusal :=
  runF s w { specA 0x33 w .z v1 v1 .z types32 false with ephOk := false } fun x =>
    .res [] ((List.range 32).map fun i =>
      (i, predMask x fun l =>
        if (lane x .b 0 l).getLsbD i then (lane x .a 0 l).getLsbD i else predBit (fibreOf x.b l).pw i)) []

end Sys2Proof.Machine
end

