-- ==== Sys2Proof/Machine/Control.lean ====
section
/-! DEFINITION. Branches, loops and calls, and the words that only move their batch (chapter 04, R111 to R117, R120 to
R124): splits, links, GATHER, UNPIN, YIELD, SLEEP, NOP. -/
namespace Sys2Proof.Machine
open Sys2Proof

/-! ### Splitting a batch (R111, R253) -/

/-- The part of a batch that keeps the listed lanes, with its tags, window, pending results and stores: a word of which it has
no lane has no result for it (R60; log 69), and an access that serves lanes of two parts is not performed again (log 34). -/
def partOf (b : Batch) (id : Nat) (ls : List Nat) : Batch :=
  let cut (p : Pending) : Option Pending := match p with
    | .result m v fl => if m &&& maskOf ls = 0 then none
      else some (.result (m &&& maskOf ls) v (fl.filter fun q => ls.contains q.1))
    | .toGeneral i => some (.toGeneral i)
  let kept (n : Nat) : Nat := ((b.retbuf.take n).filterMap cut).length
  -- the loads after the last one that serves lanes of two parts
  let whole (r : LoadSrc) : Bool := (r.lanes.all fun l => ls.contains l) || !(r.lanes.any fun l => ls.contains l)
  let mine (r : StoreSrc) : Bool := r.lanes.any fun l => ls.contains l
  { b with
    id := id
    fibres := b.fibres.filter fun p => ls.contains p.1
    retbuf := b.retbuf.filterMap cut
    owed := kept b.owed
    loads := ((b.loads.reverse.takeWhile whole).reverse.filter fun r => r.lanes.all fun l => ls.contains l).map fun r => { r with entry := kept r.entry }
    stores := b.stores.filter mine
    storesOwed := (b.stores.take b.storesOwed).countP mine }

/-- Whether a register is a scalar that stands for every lane. -/
def isScalar (v : RegVal) : Bool :=
  match v with
  | .u _ => true
  | .a _ _ => true
  | _ => false

/-- The scalar table of a batch goes to its parts, by their lanes, with the errors in it (R111, R286): each part has its own
(log 104). -/
def spreadScalars (s : State) (b : Batch) (parts : List (List Nat)) : State :=
  if s.upsets.isEmpty then s
  else
    let mine (n : Nat) : Bool := decide (512 ≤ n) || decide (n < b.regs.length) || b.xheld
    { s with upsets := (s.upsets.flatMap fun u => match u with
      | .reg c sl n l =>
        if c = b.core ∧ sl = regSlot b n ∧ mine n ∧ ownLane s b l ∧ isScalar (bankReg s b n) then
          parts.filterMap fun ls => ls.head?.map fun h => .reg c sl n h
        else [u]
      | u => [u]).eraseDups }

/-- The held stores of a batch up to the last that its word makes as one, or that orders an MMQ's reads: they are performed before
the batch splits (log 34). -/
def wordStores (b : Batch) : Nat :=
  ((b.stores.zipIdx.filter fun p => p.1.reads.isSome || p.1.lanes.length != 1).map (·.2 + 1)).foldl max 0

/-- Replaces a batch by its parts: the first keeps the batch's id. Each part is given by its lanes and what it
changes. -/
def splitBatch (s : State) (b : Batch) (parts : List (List Nat × (Batch → Batch))) : State × List Nat :=
  match parts with
  | [] => (s, [])
  | (ls, f) :: rest =>
    let s := if rest.isEmpty then s else spreadScalars s b (ls :: rest.map (·.1))
    let s := modBatch s b.id fun c => f (partOf c b.id ls)
    rest.foldl (fun r p =>
      let (id, s) := freshBatch r.1
      ({ s with batches := s.batches ++ [p.2 (partOf b id p.1)] }, r.2 ++ [id])) (s, [b.id])

/-- Whether the batch owns a pending tile (R212). -/
def ownsTile (s : State) (b : Batch) : Bool := (crewD s b.crew).tiles.any fun t => t.owner == some b.id

/-- Where a live lane goes: taken or not, its pc and its window base. -/
abbrev Dest := Bool × VA × Nat

/-- Sends each live lane to its destination (R111): one part for each distinct one, the batch itself when there is
only one, after what the word does to the whole batch. More than one in a pinned batch (R112) or in one that owns a pending tile
(R212) is XLANE_DIVERGE, raised after the checks of targets and window (log 12). -/
def branchTo (x : Exec) (first : State → State) (dest : Nat → Dest) (onPart : State → Nat → Dest → State) : Eff :=
  let live := liveLanes x.b
  let dests := (live.map dest).eraseDups
  if 1 < dests.length ∧ (x.b.pin.isSome ∨ ownsTile x.s x.b) then .trap x.s (wordTrap x .xlaneDiverge)
  else
    let s := first (if 1 < dests.length then performStores x.s x.b (wordStores x.b) else x.s)
    match findBatch s x.b.id with
    | none => .jump s []
    | some b =>
      let part (d : Dest) : List Nat × (Batch → Batch) :=
        (live.filter fun l => dest l = d, fun c => { c with pc := d.2.1, wb := d.2.2, block := none })
      let (s, ids) := splitBatch s b (dests.map part)
      .jump ((ids.zip dests).foldl (fun s p => onPart s p.1 p.2) s) ids

/-- A word without a result enters the batch's window (R58). -/
def passWindow (x : Exec) (s : State) : State := pushWindow s x.b.id []

/-- PC + 8 × sext(imm32) (R113). -/
def relTarget (x : Exec) (imm : W32) : VA := x.b.pc + (imm.signExtend 54) * 8

/-- Where a lane outside active(B) goes: PC + 8 under its window (R111). -/
def fallThrough (x : Exec) : Dest := (false, x.b.pc + 8, x.b.wb)

def laneDest (x : Exec) (taken : Nat → Dest) (l : Nat) : Dest := if x.act.contains l then taken l else fallThrough x

/-- An indirect target's checks (R113): the low three bits, then the bits above 53. -/
def targetFault (x : Exec) (t : Nat → W64) : Option TrapInfo :=
  match x.act.filter fun l => (t l).toNat % 8 ≠ 0 with
  | l :: ls => some (laneTrap x .align (l :: ls) (t l).toNat)
  | [] => match x.act.filter fun l => 2 ^ 54 ≤ (t l).toNat with
    | l :: ls => some (laneTrap x .pageAbsent (l :: ls) (t l).toNat)
    | [] => none

def noPart (s : State) (_ : Nat) (_ : Dest) : State := s

def execBra (w : IWord) (s : State) : Host.Outcome State Fault Refusal :=
  runI s w (iSpec 0x10 w .z .z) fun x =>
    branchTo x (passWindow x) (laneDest x fun _ => (true, relTarget x w.imm, x.b.wb)) noPart

def execBri (w : FWord) (s : State) : Host.Outcome State Fault Refusal :=
  runF s w { fSpec 0x40 w .z ve .z .z with legal := w.m = 0 } fun x =>
    match targetFault x (lane64 x .a) with
    | some t => .trap x.s t
    | none => branchTo x (passWindow x)
        (laneDest x fun l => (true, (lane64 x .a l).extractLsb' 0 54, x.b.wb)) noPart

/-- LOOP's counter after the decrement: U stays U and A stays A (R42, R114). -/
def loopCounter (x : Exec) : RegVal :=
  match regOf x .d 0 with
  | .u v => .u (v - 1)
  | .a p st => .a (p - 1) st
  | v => .g (laneList fun l => laneVal v l - 1)

def execLoop (w : IWord) (s : State) : Host.Outcome State Fault Refusal :=
  runI s w { iSpec 0x12 w v1 .z with reads := [.d, .a] } fun x =>
    let c := loopCounter x
    let i := nameOf x .d 0
    let first (s : State) : State := pushWindow (putRegs s x.b.id x.act [(i, c)]) x.b.id [(i, none)]
    branchTo x first (laneDest x fun l =>
      if lane x .d 0 l - 1 ≠ 0 then (true, relTarget x w.imm, x.b.wb) else fallThrough x) noPart

/-! ### Calls (R115, R116) -/

/-- Lim of R115. -/
def windowLimit (s : State) (b : Batch) : Nat :=
  if holdsXSet s b then b.regs.length + hdrM (batchHdr s b) else b.regs.length

/-- The link of a call: the return address with the frame count above it. -/
def callLink (pc : VA) (frame : Nat) : W64 := (pc + 8).zeroExtend 64 ||| (BitVec.ofNat 64 (frame / 8) <<< 54)

/-- A taken part of a call writes its link to v0 and v1 under the new window base. -/
def writeLink (x : Exec) (frame : Nat) (s : State) (id : Nat) (d : Dest) : State :=
  if d.1 then
    match findBatch s id with
    | none => s
    | some b =>
      let link := callLink x.b.pc frame
      let vals : List (Nat × RegVal) := [(d.2.2, .u (link.extractLsb' 0 32)), (d.2.2 + 1, .u (link.extractLsb' 32 32))]
      pushWindow (putRegs s id (liveLanes b) vals) id (vals.map fun p => (p.1, none))
  else pushWindow s id []

/-- The effect of CALL and CALLI once their targets are known. -/
def callEff (x : Exec) (frame : Nat) (target : Nat → VA) : Eff :=
  if windowLimit x.s x.b < x.b.wb + frame + 8 then .trap x.s (wordTrap x .regWindow)
  else branchTo x id (laneDest x fun l => (true, target l, x.b.wb + frame)) (writeLink x frame)

def execCall (w : IWord) (s : State) : Host.Outcome State Fault Refusal :=
  let f := w.a.toNat
  runI s w { iSpec 0x11 w .z .any with legal := decide (f ≤ 504) && f % 8 == 0, closes := true } fun x =>
    callEff x f fun _ => relTarget x w.imm

def execCalli (w : FWord) (s : State) : Host.Outcome State Fault Refusal :=
  runF s w { fSpec 0x41 w .z ve .z .z with legal := w.m.toNat < 64, closes := true } fun x =>
    match targetFault x (lane64 x .a) with
    | some t => .trap x.s t
    | none => callEff x (8 * (w.m.toNat % 64)) fun l => (lane64 x .a l).extractLsb' 0 54

def execRet (w : FWord) (s : State) : Host.Outcome State Fault Refusal :=
  runF s w { fSpec 0x42 w .z ve .z .z with legal := w.m = 0, closes := true } fun x =>
    let link (l : Nat) : Nat := (lane64 x .a l).toNat
    let shift (l : Nat) : Nat := 8 * (link l / 2 ^ 54 % 64)
    match x.act.filter fun l => link l % 8 ≠ 0 with
    | l :: ls => .trap x.s (laneTrap x .align (l :: ls) (link l))
    | [] => match x.act.filter fun l => x.b.wb < shift l ∨ windowLimit x.s x.b < x.b.wb - shift l + 8 with
      | l :: ls => .trap x.s { wordTrap x .regWindow with lanes := maskOf (l :: ls) }
      | [] => branchTo x (passWindow x)
          (laneDest x fun l => (true, BitVec.ofNat 54 (link l), x.b.wb - shift l)) noPart

/-! ### GATHER and UNPIN (R120, R121, R254) -/

/-- The crew fibre index of a lane of a batch (R251). -/
def fibreIndex (b : Batch) (l : Nat) : Nat := 32 * b.row + l

/-- The live fibres of a crew: (batch, lane). -/
def crewFibres (s : State) (crew : Nat) : List (Batch × Nat) :=
  (s.batches.filter fun b => b.crew = crew).flatMap fun b => (liveLanes b).map fun l => (b, l)

/-- The batches of a crew that stand in a GATHER for an index. -/
def gatherers (s : State) (crew idx : Nat) : List Batch :=
  s.batches.filter fun b => b.crew == crew && (match b.block with | some (.gather i _) => i == idx | _ => false)

/-- Whether every named live fibre stands at the GATHER. -/
def gatherReady (s : State) (b : Batch) (idx : Nat) (mask : W32) : Bool :=
  (crewFibres s b.crew).all fun p =>
    !(p.1.row == idx && mask.getLsbD p.2) || p.1.id == b.id ||
      (p.1.block == some (.gather idx mask) && p.1.pc == b.pc)

/-- One register of the batches that join, in the new lane order (R45). -/
def joinReg (s : State) (bs : List Batch) (i : Nat) : RegVal :=
  let vals (l : Nat) : W32 := match bs.find? fun b => (liveLanes b).contains l with
    | some b => match bankReg s b i with
      | .t img => imageReg s img i
      | v => laneVal v l
    | none => 0
  let tags := bs.map fun b => bankReg s b i
  match tags with
  | .t img :: rest => if rest.all fun t => t = .t img then .t img else retag (sortBy (bs.flatMap liveLanes) fun a b => decide (a ≤ b)) (laneList vals)
  | _ => retag (sortBy (bs.flatMap liveLanes) fun a b => decide (a ≤ b)) (laneList vals)

/-- The error that the new tags of joining batches meet: the hardware reads every lane value, but of a register that stays T
(R45, R286, R287; log 104). -/
def joinFault (s : State) (bs : List Batch) : Option (Cause × W32) :=
  if s.upsets.isEmpty then none
  else
    let names (b : Batch) : List Nat := List.range (b.regs.length + if b.xheld then b.xregs.length else 0) ++ List.range' 512 32
    let stays (i : Nat) : Bool := match bs.map fun b => bankReg s b i with
      | .t img :: rest => rest.all fun t => t == .t img
      | _ => false
    bs.findSome? fun b => (names b).findSome? fun i =>
      if stays i then none else regFault s { b with window := [] } (liveLanes b) i

/-- The batches that stand in the same GATHER as one that completes the set. -/
def gatherOthers (s : State) (b : Batch) (idx : Nat) (mask : W32) : List Batch :=
  (gatherers s b.crew idx).filter fun o => o.id ≠ b.id ∧ o.block = some (.gather idx mask) ∧ o.pc = b.pc

/-- Joins batches of one slot into the first of them (R45, R252, GATHER). -/
def joinBatches (s : State) (b : Batch) (others : List Batch) : State :=
  let bs := b :: others
  let regs := (List.range b.regs.length).map (joinReg s bs)
  let kregs := (List.range 32).map fun j => joinReg s bs (512 + j)
  let xregs := (List.range ((bs.map (·.xregs.length)).foldl max 0)).map fun j => joinReg s bs (b.regs.length + j)
  let fibres := (others.flatMap (·.fibres)).foldr (fun p t => kvSet t p.1 p.2) b.fibres
  let s := others.foldl (fun s o => delBatch s o.id) s
  modBatch s b.id fun c => { c with
    regs := regs
    kregs := kregs
    fibres := fibres
    window := []
    xregs := xregs
    xheld := bs.any (·.xheld)
    ahead := []
    late := bs.any (·.late)
    issued := (bs.filterMap (·.issued)).max?
    lastIssue := (bs.map (·.lastIssue)).foldl max 0 }

/-- Every fibre named by the GATHER has arrived: the waits of the others end, the pinned batch is formed and issues from PC + 8, under the window base and
in the mode of the batch that completes the set (log 70). -/
def formPinned (s : State) (b : Batch) (idx : Nat) (mask : W32) : State :=
  let others := gatherOthers s b idx mask
  let s := joinBatches (others.foldl endWait s) b others
  modBatch s b.id fun c => { c with
    pin := some idx, gatherAt := some c.pc, pc := c.pc + 8, block := none, regionStart := b.regionStart }

/-- The checks of GATHER that raise XLANE_DIVERGE. Where one of them fails in a batch that owns a pending tile, which R254 makes
ACC_RANGE, XLANE_DIVERGE is raised: the model's choice (log 12). -/
def gatherBad (x : Exec) (idx : Nat) (mask : W32) : Bool :=
  31 < idx || x.b.pin.isSome || x.b.row != idx || (x.act.any fun l => !mask.getLsbD l) ||
    (gatherers x.s x.b.crew idx).any fun o =>
      o.id != x.b.id && (o.pc != x.b.pc || o.block != some (.gather idx mask))

def execGather (w : FWord) (s : State) : Host.Outcome State Fault Refusal :=
  let sp := { fSpec 0x4A w .z v1 v1 .z with legal := w.m = 0, uni := [.a, .b], parks := true }
  runF s w sp fun x =>
    let mask := uniVal x .a 0
    let idx := (uniVal x .b 0).toNat
    if gatherBad x idx mask then .trap x.s (wordTrap x .xlaneDiverge)
    else if ownsTile x.s x.b then .trap x.s (wordTrap x .accRange)
    else
      let rest := (liveLanes x.b).filter fun l => !x.act.contains l
      let parts : List (List Nat × (Batch → Batch)) := if rest.isEmpty then [(x.act, id)]
        else [(x.act, id), (rest, fun c => { c with pc := c.pc + 8, block := none, window := ([] :: c.window).take 8 })]
      let s := (splitBatch x.s x.b parts).1
      match findBatch s x.b.id with
      | none => .jump s []
      | some b =>
        if gatherReady s b idx mask then
          match joinFault s (b :: gatherOthers s b idx mask) with
          | some (c, ls) => .trap x.s { wordTrap x c with lanes := ls }
          | none => .jump (formPinned s b idx mask) [b.id]
        else .wait s (.gather idx mask)

/-- A word with an own layout of all zeros and no operand. -/
def bareSpec (op : Nat) (w : FWord) : Spec := { fSpec op w .z .z .z .z with legal := w.m = 0 }

def execUnpin (w : FWord) (s : State) : Host.Outcome State Fault Refusal :=
  runF s w (bareSpec 0x4B w) fun x => .done (modBatch x.s x.b.id fun b => { b with pin := none }) [] [] []

/-! ### Waiting by count (R122 to R124) -/

def execYield (w : FWord) (s : State) : Host.Outcome State Fault Refusal :=
  runF s w (bareSpec 0x4C w) fun x =>
    .done (modBatch x.s x.b.id fun b => { b with lastIssue := x.s.clock + 64 }) [] [] []

def execNop (w : FWord) (s : State) : Host.Outcome State Fault Refusal :=
  runF s w (bareSpec 0x4D w) fun _ => .res [] [] []

def execSleep (w : IWord) (s : State) : Host.Outcome State Fault Refusal :=
  runI s w (iSpec 0x13 w .z .z) fun x =>
    if w.imm = 0 then .res [] [] []
    else .done (modBatch x.s x.b.id fun b => { b with wake := x.s.clock + w.imm.toNat }) [] [] []

end Sys2Proof.Machine
end

