-- ==== Sys2Proof/Machine/Float.lean ====
section
/-! DEFINITION. Floating-point arithmetic, comparison, conversion, packed forms and the FP status word (chapter 05,
R125 to R140, R149 to R152). -/
namespace Sys2Proof.Machine
open Sys2Proof

/-! ### The modifier fields of layout F (Table 03-5) -/

def modFt (m : BitVec 11) : Nat := m.toNat % 8
def modRnd (m : BitVec 11) : Nat := m.toNat / 8 % 8
def modFSat (m : BitVec 11) : Bool := m.getLsbD 6
def modFtz (m : BitVec 11) : Bool := m.getLsbD 7
def modFSub (m : BitVec 11) : Nat := m.toNat / 256 % 4

/-- The format of a float type code (Table 03-6). -/
def fmtOf (t : Nat) : Fmt := if t = 1 then fp16 else if t = 2 then bf16 else fp32

/-- The raw bits of a scalar floating-point source (R126). -/
def fSrc (t : Nat) (x : W32) : Nat := if t = 0 then x.toNat else x.toNat % 65536

/-- A word of layout F: admitted types, and whether rounding, SAT and FTZ may be set (Table 05-1). -/
def specF (op : Nat) (w : FWord) (d a b c : Cls) (types : List Nat) (rnd sat ftz : Bool) : Spec :=
  { fSpec op w d a b c with
    legal := types.contains (modFt w.m) && (if rnd then decide (modRnd w.m < 4) else modRnd w.m == 0) &&
      (sat || !modFSat w.m) && (ftz || !modFtz w.m) && modFSub w.m == 0
    k := w.m.getLsbD 10
    ephOk := true }

def typesF : List Nat := [0, 1, 2]
def types16 : List Nat := [1, 2]

/-- One register result with flags per lane: the flags of the active lanes join (R150). -/
def fpu (s : State) (w : FWord) (sp : Spec) (srcs : List Fld) (f : Exec → Nat → Nat × Nat) :
    Host.Outcome State Fault Refusal :=
  runF s w sp fun x =>
    let r := laneResult x (uniSrcs x srcs) fun l => BitVec.ofNat 32 (f x l).1
    .res [(nameOf x .d 0, r)] [] (lanesFlags x fun l => (f x l).2)

/-- A lane's operand of a scalar word as FTZ has it read. -/
def fOperand (w : FWord) (x : Exec) (f : Fld) (l : Nat) : FVal :=
  let t := modFt w.m
  fRead (fmtOf t) (modFtz w.m) (fSrc t (lane x f 0 l))

/-- Rounds a scalar result in the word's format and mode. -/
def fOut (w : FWord) (r : FVal × Nat) : Nat × Nat :=
  fFinish (fmtOf (modFt w.m)) (modRnd w.m) (modFSat w.m) (modFtz w.m) r

/-! ### R129 -/

def execFadd (w : FWord) (s : State) : Host.Outcome State Fault Refusal :=
  fpu s w (specF 0x60 w v1 v1 v1 .z typesF true true true) [.a, .b] fun x l =>
    fOut w (fAdd (modRnd w.m) (fOperand w x .a l) (fOperand w x .b l))
def execFsub (w : FWord) (s : State) : Host.Outcome State Fault Refusal :=
  fpu s w (specF 0x61 w v1 v1 v1 .z typesF true true true) [.a, .b] fun x l =>
    fOut w (fAdd (modRnd w.m) (fOperand w x .a l) (fNeg (fOperand w x .b l)))
def execFmul (w : FWord) (s : State) : Host.Outcome State Fault Refusal :=
  fpu s w (specF 0x62 w v1 v1 v1 .z typesF true true true) [.a, .b] fun x l =>
    fOut w (fMul (fOperand w x .a l) (fOperand w x .b l))
def execFma (w : FWord) (s : State) : Host.Outcome State Fault Refusal :=
  fpu s w (specF 0x63 w v1 v1 v1 v1 typesF true true true) [.a, .b, .c] fun x l =>
    fOut w (fFma (modRnd w.m) (fOperand w x .a l) (fOperand w x .b l) (fOperand w x .c l))

/-- An I-form FADD or FMUL: FP32, .RNE, without FTZ (Table 03-12). -/
def fpuI (s : State) (op : Nat) (w : IWord) (f : Nat → Nat → Nat × Nat) : Host.Outcome State Fault Refusal :=
  runI s w (iSpec op w v1 v1) fun x =>
    let g (l : Nat) : Nat × Nat := f (lane x .a 0 l).toNat w.imm.toNat
    .res [(nameOf x .d 0, laneResult x (uniSrcs x [.a]) fun l => BitVec.ofNat 32 (g l).1)] []
      (lanesFlags x fun l => (g l).2)

def execFaddI (w : IWord) (s : State) : Host.Outcome State Fault Refusal := fpuI s 0x18 w f32Add
def execFmulI (w : IWord) (s : State) : Host.Outcome State Fault Refusal := fpuI s 0x19 w f32Mul

/-! ### R130 to R132 -/

/-- FMIN (min) or FMAX of two codes (R130): the code, with IV for a signalling NaN. -/
def fMinMax (f : Fmt) (ftz isMax : Bool) (a b : Nat) : Nat × Nat :=
  let va := fRead f ftz a
  let vb := fRead f ftz b
  let fl := if isSnan va || isSnan vb then flIV else 0
  let code (v : FVal) (c : Nat) : Nat := match v with
    | .fin neg 0 _ _ => fmtZero f neg
    | _ => c
  if isNan va then (if isNan vb then fmtNaN f else code vb b, fl)
  else if isNan vb then (code va a, fl)
  else
    let pickB := if isMax then fLess true va vb else fLess true vb va
    (if pickB then code vb b else code va a, fl)

def minMaxLane (w : FWord) (isMax : Bool) (x : Exec) (l : Nat) : Nat × Nat :=
  let t := modFt w.m
  fMinMax (fmtOf t) (modFtz w.m) isMax (fSrc t (lane x .a 0 l)) (fSrc t (lane x .b 0 l))

def execFmin (w : FWord) (s : State) : Host.Outcome State Fault Refusal :=
  fpu s w (specF 0x64 w v1 v1 v1 .z typesF false false true) [.a, .b] (minMaxLane w false)
def execFmax (w : FWord) (s : State) : Host.Outcome State Fault Refusal :=
  fpu s w (specF 0x65 w v1 v1 v1 .z typesF false false true) [.a, .b] (minMaxLane w true)

/-- A comparison of R131: its truth and its flags. -/
def fCompare (c : Nat) (a b : FVal) : Bool × Nat :=
  let un := isNan a || isNan b
  let sig := isSnan a || isSnan b
  let lt := fLess false a b
  let gt := fLess false b a
  let eq := !un && !lt && !gt
  let r := match c with
    | 0 => eq
    | 1 => !eq
    | 2 => lt
    | 3 => lt || eq
    | 4 => gt
    | 5 => gt || eq
    | 6 => un
    | _ => !un
  (r, if (if 2 ≤ c ∧ c ≤ 5 then un else sig) then flIV else 0)

def execFcmp (w : FWord) (s : State) : Host.Outcome State Fault Refusal :=
  let t := w.m.toNat % 8
  let c := w.m.toNat / 8 % 16
  let sp := { fSpec 0x66 w .p v1 v1 .z with legal := decide (t < 3) && decide (c < 8) && decide (w.m.toNat < 256) }
  runF s w sp fun x =>
    let f := fmtOf t
    let ftz := w.m.getLsbD 7
    let g (l : Nat) : Bool × Nat :=
      fCompare c (fRead f ftz (fSrc t (lane x .a 0 l))) (fRead f ftz (fSrc t (lane x .b 0 l)))
    .res [] [(w.d.toNat, predMask x fun l => (g l).1)] (lanesFlags x fun l => (g l).2)

/-- The class mask of R132. -/
def fClass (f : Fmt) (x : Nat) : Nat :=
  match fDecode f x with
  | .inf neg => if neg then 1 else 128
  | .nan sig => if sig then 256 else 512
  | .fin neg m _ _ =>
    if m = 0 then (if neg then 8 else 16)
    else if m < 2 ^ f.mbits then (if neg then 4 else 32)
    else if neg then 2 else 64

def execFclass (w : FWord) (s : State) : Host.Outcome State Fault Refusal :=
  alu s w (specF 0x67 w v1 v1 .z .z typesF false false false) [.a] fun x l =>
    BitVec.ofNat 32 (fClass (fmtOf (modFt w.m)) (fSrc (modFt w.m) (lane x .a 0 l)))

/-! ### R133, R134 -/

/-- FRND: an integral value of the same format; never NX. -/
def fRndInt (f : Fmt) (mode : Nat) (v : FVal) : Nat × Nat :=
  match v with
  | .nan sig => (fmtNaN f, if sig then flIV else 0)
  | .inf neg => (fmtInf f neg, 0)
  | .fin neg m e st =>
    let (q, _) := roundTo mode neg m e st 0
    let (c, _) := fRound f 1 false false (.fin neg q 0 false)
    (c, 0)

def execFrnd (w : FWord) (s : State) : Host.Outcome State Fault Refusal :=
  fpu s w (specF 0x68 w v1 v1 .z .z typesF true false true) [.a] fun x l =>
    fRndInt (fmtOf (modFt w.m)) (modRnd w.m) (fOperand w x .a l)

/-- a × 2^n, exact; a count past every format's range is cut to one that rounds alike. -/
def fScale (a : FVal) (n : Int) : FVal × Nat :=
  match a with
  | .nan sig => (.nan false, if sig then flIV else 0)
  | .inf neg => (.inf neg, 0)
  | .fin neg m e st => (.fin neg m (e + max (-1000) (min 1000 n)) st, 0)

def execFscale (w : FWord) (s : State) : Host.Outcome State Fault Refusal :=
  fpu s w (specF 0x69 w v1 v1 v1 .z typesF true true true) [.a, .b] fun x l =>
    fOut w (fScale (fOperand w x .a l) (lane x .b 0 l).toInt)

/-! ### FCVT (R135, R136) -/

def cvtIsInt (c : Nat) : Bool := decide (8 ≤ c) && decide (c ≤ 13)
def cvtOk (c : Nat) : Bool := decide (c < 5) || cvtIsInt c
/-- The integer type code (Table 03-6) of a format code of Table 05-3. -/
def cvtType (c : Nat) : Nat := [0, 1, 4, 5, 6, 7].getD (c - 8) 0

/-- The exact source value of FCVT. -/
def cvtSource (c : Nat) (x : W32) : FVal :=
  match c with
  | 0 => fDecode fp32 x.toNat
  | 1 => fDecode fp16 (x.toNat % 65536)
  | 2 => fDecode bf16 (x.toNat % 65536)
  | 3 => fp4Val (x.toNat % 16)
  | 4 => e3m5Val (x.toNat % 256)
  | c => fOfInt (extInt (cvtType c) x)

/-- The destination of FCVT: code and flags. -/
def cvtDest (c mode : Nat) (sat : Bool) (v : FVal) : W32 × Nat :=
  let fl := if isSnan v then flIV else 0
  let float (f : Fmt) : W32 × Nat :=
    let (x, g) := fRound f mode sat false v
    (BitVec.ofNat 32 x, g ||| fl)
  match c with
  | 0 => float fp32
  | 1 => float fp16
  | 2 => float bf16
  | 3 => let (x, g) := fp4Round mode v; (BitVec.ofNat 32 x, g)
  | 4 => let (x, g) := e3m5Round mode v; (BitVec.ofNat 32 x, g)
  | c =>
    let t := cvtType c
    let (i, g) := fToIntSat mode (typeBits t) (typeSigned t) v
    (fitInt t false i, g)

def execFcvt (w : FWord) (s : State) : Host.Outcome State Fault Refusal :=
  let cd := w.m.toNat % 16
  let cs := w.m.toNat / 16 % 16
  let mode := w.m.toNat / 256 % 4
  let sp := { fSpec 0x70 w v1 v1 .z .z with
    legal := cvtOk cd && cvtOk cs && !(cvtIsInt cd && cvtIsInt cs), ephOk := true }
  fpu s w sp [.a] fun x l =>
    let (r, fl) := cvtDest cd mode (w.m.getLsbD 10) (cvtSource cs (lane x .a 0 l))
    (r.toNat, fl)

/-! ### Packed forms and dot products (R137 to R140) -/

/-- Element e of a packed source as FTZ has it read. -/
def fElem (w : FWord) (x : Exec) (f : Fld) (l e : Nat) : FVal :=
  fRead (fmtOf (modFt w.m)) (modFtz w.m) ((lane x f 0 l).toNat / 65536 ^ e % 65536)

/-- A packed result from its two elements. -/
def pack2 (e0 e1 : Nat × Nat) : Nat × Nat := (e0.1 + 65536 * e1.1, e0.2 ||| e1.2)

def execFpack2 (w : FWord) (s : State) : Host.Outcome State Fault Refusal :=
  fpu s w (specF 0x71 w v1 v1 v1 .z types16 true true true) [.a, .b] fun x l =>
    let src (f : Fld) : FVal × Nat :=
      let v := fRead fp32 (modFtz w.m) (lane x f 0 l).toNat
      (v, if isSnan v then flIV else 0)
    pack2 (fOut w (src .a)) (fOut w (src .b))

def execFunpk2 (w : FWord) (s : State) : Host.Outcome State Fault Refusal :=
  let sp := { specF 0x72 w v1 v1 .z .z types16 false false false with
    legal := types16.contains (modFt w.m) && modRnd w.m == 0 && !modFSat w.m && !modFtz w.m && decide (modFSub w.m < 2) }
  fpu s w sp [.a] fun x l =>
    let v := fElem w x .a l (modFSub w.m)
    fFinish fp32 0 false false (v, if isSnan v then flIV else 0)

def execFma2 (w : FWord) (s : State) : Host.Outcome State Fault Refusal :=
  fpu s w (specF 0x73 w v1 v1 v1 v1 types16 true true true) [.a, .b, .c] fun x l =>
    let el (e : Nat) : Nat × Nat := fOut w (fFma (modRnd w.m) (fElem w x .a l e) (fElem w x .b l e) (fElem w x .c l e))
    pack2 (el 0) (el 1)
def execFadd2 (w : FWord) (s : State) : Host.Outcome State Fault Refusal :=
  fpu s w (specF 0x74 w v1 v1 v1 .z types16 true true true) [.a, .b] fun x l =>
    let el (e : Nat) : Nat × Nat := fOut w (fAdd (modRnd w.m) (fElem w x .a l e) (fElem w x .b l e))
    pack2 (el 0) (el 1)
def execFmul2 (w : FWord) (s : State) : Host.Outcome State Fault Refusal :=
  fpu s w (specF 0x75 w v1 v1 v1 .z types16 true true true) [.a, .b] fun x l =>
    let el (e : Nat) : Nat × Nat := fOut w (fMul (fElem w x .a l e) (fElem w x .b l e))
    pack2 (el 0) (el 1)

/-- Whether infinities of opposite sign stand among the terms of a sum (R17, R139). -/
def opposed (vs : List FVal) : Bool := vs.contains (.inf true) && vs.contains (.inf false)

/-- The exact sum of the two products and c (R139); any NaN operand gives the NaN, and opposite infinities among the terms raise
IV beside one. -/
def fDot (mode : Nat) (a0 b0 a1 b1 c : FVal) : FVal × Nat :=
  let (p0, f0) := fMul a0 b0
  let (p1, f1) := fMul a1 b1
  let (t, f2) := fAdd mode p0 p1
  let (r, f3) := fAdd mode t c
  -- three terms: an exact zero sum keeps a sign only where all the terms are zeros of that sign (R16)
  let zeroOf (v : FVal) : Option Bool := match v with
    | .fin n 0 _ _ => some n
    | _ => none
  let r := match r with
    | .fin _ 0 e _ =>
      (match zeroOf p0, zeroOf p1, zeroOf c with
        | some x, some y, some z => FVal.fin (if x = y ∧ y = z then x else decide (mode = 2)) 0 e false
        | _, _, _ => FVal.fin (decide (mode = 2)) 0 e false)
    | v => v
  (r, f0 ||| f1 ||| f2 ||| f3 ||| (if opposed [p0, p1, c] then 1 else 0))

def execFdot2 (w : FWord) (s : State) : Host.Outcome State Fault Refusal :=
  fpu s w (specF 0x76 w v1 v1 v1 v1 types16 true true true) [.a, .b, .c] fun x l =>
    let c := fDecode fp32 (lane x .c 0 l).toNat
    fFinish fp32 (modRnd w.m) (modFSat w.m) (modFtz w.m)
      (fDot (modRnd w.m) (fElem w x .a l 0) (fElem w x .b l 0) (fElem w x .a l 1) (fElem w x .b l 1) c)

/-- IDOT4 of one lane. -/
def idot4Lane (sa sb sat : Bool) (a b c : W32) : W32 :=
  let byte (sg : Bool) (x : W32) (i : Nat) : Int :=
    let n := x.toNat / 256 ^ i % 256
    if sg ∧ 128 ≤ n then (n : Int) - 256 else n
  let sum := (List.range 4).foldl (fun (v : Int) i => v + byte sa a i * byte sb b i) c.toInt
  fitInt 0 sat sum

def execIdot4 (w : FWord) (s : State) : Host.Outcome State Fault Refusal :=
  let sp := { specA 0x77 w v1 v1 v1 v1 [0] true with legal := modType w.m == 0 && decide (modSub w.m < 4) }
  alu s w sp [.a, .b, .c] fun x l =>
    idot4Lane (w.m.getLsbD 5) (w.m.getLsbD 6) (modSat w.m) (lane x .a 0 l) (lane x .b 0 l) (lane x .c 0 l)

/-! ### The FP status word (R149 to R152) -/

/-- Writes FLAGS and EN under a mask (R152); an RPT bit clears when its flag becomes 0 (Table 05-5). -/
def fpStatWrite (old a mask : W32) : W32 :=
  let m := mask &&& 0x1F1F#32
  let st := (old &&& ~~~m) ||| (a &&& m)
  let fl := st &&& 0x1F#32
  (st &&& 0x1F1F#32) ||| (old &&& 0x1F0000#32 &&& (fl <<< 16))

def execFpxrd (w : FWord) (s : State) : Host.Outcome State Fault Refusal :=
  runF s w { fSpec 0x88 w v1 .z .z .z with legal := w.m = 0, ephOk := true } fun x =>
    .res [(nameOf x .d 0, .u (crewD x.s x.b.crew).fpStat)] [] []

def execFpxset (w : FWord) (s : State) : Host.Outcome State Fault Refusal :=
  runF s w { fSpec 0x89 w .z v1 v1 .z with legal := w.m = 0, closes := true, uni := [.a, .b] } fun x =>
    .done (modCrew x.s x.b.crew fun c => { c with fpStat := fpStatWrite c.fpStat (uniVal x .a 0) (uniVal x .b 0) }) [] [] []

/-- The FPX check of R151, made by barrier words and FENCE before their own checks; a blocked word that is issued
again has passed it. -/
def fpxCheck (x : Exec) : Option (State × TrapInfo) :=
  let st := (crewD x.s x.b.crew).fpStat
  let pend := st &&& (st >>> 8) &&& ~~~(st >>> 16) &&& 0x1F#32
  if pend = 0 ∨ x.b.block.isSome then none
  else some (modCrew x.s x.b.crew fun c => { c with fpStat := c.fpStat ||| (pend <<< 16) },
    { wordTrap x .fpx with kind := 2, scause := pend.toNat })

end Sys2Proof.Machine
end

