-- ==== Sys2Proof/Machine/MemInstr.lean ====
section
/-! DEFINITION. Loads and stores, acquire and release, fences, atomics and prefetch (chapter 06, R153 to R164). -/
namespace Sys2Proof.Machine
open Sys2Proof

/-! ### Layout M (Table 03-5) -/

def modSize (m : BitVec 11) : Nat := m.toNat % 8
def modScope (m : BitVec 11) : Nat := m.toNat / 8 % 4
def modOrder (m : BitVec 11) : Nat := m.toNat / 32 % 4
def modColour (m : BitVec 11) : Nat := m.toNat / 128 % 8

/-- The bytes of a size code (R155). -/
def sizeBytes (c : Nat) : Nat := [4, 8, 1, 1, 2, 2, 16].getD c 4

/-- The register class of the data (R153). -/
def sizeCls (c : Nat) : Cls := if c = 1 then ve else if c = 6 then vq else v1

/-- The names of the data. -/
def sizeNames (c : Nat) : Nat := if c = 1 then 2 else if c = 6 then 4 else 1

/-- A loaded value in its registers: narrow values are extended by R10. -/
def loadWords (c : Nat) (bs : List Byte) : List W32 :=
  match c with
  | 2 => [BitVec.ofNat 32 (leNat bs)]
  | 3 => [(BitVec.ofNat 8 (leNat bs)).signExtend 32]
  | 4 => [BitVec.ofNat 32 (leNat bs)]
  | 5 => [(BitVec.ofNat 16 (leNat bs)).signExtend 32]
  | _ => (List.range (bs.length / 4)).map fun i => BitVec.ofNat 32 (leNat ((bs.drop (4 * i)).take 4))

/-- The bytes that a lane stores from its data registers. -/
def storeBytes (x : Exec) (c l : Nat) : List Byte :=
  ((List.range (sizeNames c)).flatMap fun j => leBytes 4 (lane x .d j l).toNat).take (sizeBytes c)

/-- The registers of a load from each lane's bytes: U from one reading when `uni`, else G. -/
def loadRegs (x : Exec) (c : Nat) (uni : Bool) (vals : List (Nat × List Byte)) : List (Nat × RegVal) :=
  (List.range (sizeNames c)).map fun j =>
    (nameOf x .d j, laneResult x uni fun l => (loadWords c (kvGetD vals l [])).getD j 0)

/-- Reads every lane's place in increasing lane order. -/
def loadAll (s : State) (read : State → Loc → State × List Byte) (locs : List (Nat × Loc)) :
    State × List (Nat × List Byte) :=
  locs.foldl (fun st p =>
    let r := read st.1 p.2
    (r.1, kvSet st.2 p.1 r.2)) (s, [])

/-- Runs the checks of a load and then its body on the places. -/
def withLoad (x : Exec) (bytes : Nat) (atHome exempt : Bool) (addr : Nat → Nat)
    (body : State → List (Nat × Loc) → Eff) : Eff :=
  match checkAddrs x .load bytes atHome addr with
  | .trap s t => .trap s t
  | .wait s k => .wait s k
  | .ok s locs =>
    match checkGen x s atHome addr locs with
    | .trap s t => .trap s t
    | .wait s k => .wait s k
    | .ok s locs =>
      match checkRaces x s bytes exempt false addr locs with
      | .trap s t => .trap s t
      | .wait s k => .wait s k
      | .ok s locs => body s locs

/-- Runs the checks of a store. -/
def withStore (x : Exec) (u : Use) (bytes : Nat) (atHome exempt atomic : Bool) (addr : Nat → Nat)
    (body : State → List (Nat × Loc) → Eff) : Eff :=
  match checkAddrs x u bytes atHome addr with
  | .trap s t => .trap s t
  | .wait s k => .wait s k
  | .ok s locs =>
    match checkRaces x s bytes exempt atomic addr locs with
    | .trap s t => .trap s t
    | .wait s k => .wait s k
    | .ok s locs => body s locs

/-! ### LD and ST (R155, R157) -/

/-- The address of a lane (Table 06-2), a 64-bit sum. -/
def ldAddr (x : Exec) (w : FWord) (bytes l : Nat) : Nat :=
  let base := lane64 x .a l
  (match modScope w.m with
    | 0 => base + BitVec.ofInt 64 (imm18 w)
    | 1 => base + BitVec.ofInt 64 (imm18 w) + BitVec.ofNat 64 (l * bytes)
    | _ => base + (lane x .b 0 l).signExtend 64 * BitVec.ofNat 64 bytes).toNat

/-- The spec of LD and ST: address modes 0 to 2, no order. -/
def specLd (op : Nat) (w : FWord) (store : Bool) : Spec :=
  let idx := modScope w.m = 2
  { fSpec op w (sizeCls (modSize w.m)) ve (if idx then v1 else .any) (if idx then .z else .any) with
    legal := decide (modSize w.m < 7) && decide (modScope w.m < 3) && modOrder w.m == 0 && (store || modColour w.m == 0)
    k := w.m.getLsbD 10
    var := !store
    reads := if store then [.d, .a, .b, .c] else [.a, .b, .c]
    uni := if modScope w.m = 0 then [] else [.a] }

/-- Whether every place is ordinary or CHECKED memory (the page kind of R42's load row). -/
def allMemory (locs : List (Nat × Loc)) : Bool :=
  locs.all fun p => match p.2 with
    | .mem _ _ _ => true
    | .checked _ _ => true
    | _ => false

/-- The accesses of one place, for the lanes that it serves, that may be performed later (R318): one for each 8 bytes of a wide access (R323). GEN lines
and CHECKED pages are accessed with the word (R340, R346). -/
def loadSrcs (b : Batch) (lanes : List Nat) (c n reg : Nat) (loc : Loc) : List LoadSrc :=
  let one (k m : Nat) (l : Loc) : LoadSrc := ⟨b.retbuf.length, lanes, c, m, reg + k / 4, l⟩
  let parts : List (Nat × Nat) := if n = 16 then [(0, 8), (8, 8)] else [(0, n)]
  match loc with
  | .scratch q o => parts.map fun p => one p.1 p.2 (.scratch q (o + p.1))
  | .mem pa l fl => parts.map fun p => one p.1 p.2 (.mem (pa + p.1) l fl)
  | .xform va l => parts.map fun p => one p.1 p.2 (.xform (va + p.1) l)
  | _ => []

/-- The accesses of a load's word join those that may still be performed (R318). -/
def deferLoads (s : State) (b : Batch) (srcs : List LoadSrc) : State :=
  if srcs.isEmpty then s else modBatch s b.id fun c => { c with loads := c.loads ++ srcs }

/-- The places of a word's lanes are accessed in program order (R157): earlier loads of those bytes are performed. -/
def orderLoads (s : State) (b : Batch) (n : Nat) (locs : List (Nat × Loc)) : State :=
  locs.foldl (fun s p => settleLoads s b p.1 n p.2) s

/-- The same for its earlier stores of those bytes, where they are still to be performed. -/
def orderStores (s : State) (b : Batch) (n : Nat) (locs : List (Nat × Loc)) : State :=
  locs.foldl (fun s p => settleStores s b p.1 n p.2) s

/-- A place whose store may be performed after its word (R318). CHECKED pages are written with the word (R340; log 34). -/
def holdable (loc : Loc) : Bool :=
  match loc with
  | .scratch _ _ => true
  | .mem _ _ _ => true
  | .xform _ _ => true
  | _ => false

/-- The stores of one place: one for each 8 bytes of a wide access (R323). -/
def storeSrcs (clock : Nat) (lanes : List Nat) (colour : Nat) (bs : List Byte) (loc : Loc) : List StoreSrc :=
  let parts (f : Nat → Loc) : List StoreSrc :=
    if bs.length = 16 then [⟨lanes, bs.take 8, colour, f 0, clock, none⟩, ⟨lanes, bs.drop 8, colour, f 8, clock, none⟩]
    else [⟨lanes, bs, colour, f 0, clock, none⟩]
  match loc with
  | .scratch q o => parts fun i => .scratch q (o + i)
  | .mem pa l fl => parts fun i => .mem (pa + i) l fl
  | .xform va l => parts fun i => .xform (va + i) l
  | _ => []

/-- Whether the hardware holds a word's stores, to perform them later (R318; log 34). -/
def holdsStores (b : Batch) (locs : List Loc) : Bool := b.late && locs.all holdable

/-- The stores of a word, each with the lanes that make it, its bytes and its place: performed now, or held (R157, R318). An MMQ
before them has read its activations before a store of scratch (R209). -/
def placeStores (s : State) (b : Batch) (colour : Nat) (ps : List (List Nat × List Byte × Loc)) : State :=
  let each (f : State → Batch → Nat → Nat → Loc → State) (s : State) : State :=
    ps.foldl (fun s p => p.1.foldl (fun s l => f s b l p.2.1.length p.2.2) s) s
  let s := if b.loads.isEmpty then s else each settleLoads s
  if holdsStores b (ps.map (·.2.2)) then
    modBatch s b.id fun c => { c with stores := c.stores ++ ps.flatMap fun p => storeSrcs s.clock p.1 colour p.2.1 p.2.2 }
  else
    let s := if b.stores.isEmpty then s else each settleStores (settleReads s b.id fun _ => true)
    ps.foldl (fun s p => storeLoc s b p.2.1 colour p.2.2) s

def execLd (w : FWord) (s : State) : Host.Outcome State Fault Refusal :=
  runF s w (specLd 0xA0 w false) fun x =>
    let c := modSize w.m
    let n := sizeBytes c
    let addr := ldAddr x w n
    withLoad x n false false addr fun s locs =>
      let uni := modScope w.m != 1 && uniField x .a 2 && (modScope w.m == 0 || uniField x .b 1) && allMemory locs
      let s := orderStores s x.b n locs
      let locs := if uni then locs.take 1 else locs
      let (s, vals) := loadAll s (fun s l => loadLoc s x.b n l) locs
      let srcs := locs.flatMap fun p => loadSrcs x.b (if uni then x.act else [p.1]) c n 0 p.2
      .done (deferLoads s x.b srcs) (loadRegs x c uni vals) [] []

def execSt (w : FWord) (s : State) : Host.Outcome State Fault Refusal :=
  runF s w (specLd 0xA1 w true) fun x =>
    let c := modSize w.m
    let n := sizeBytes c
    let addr := ldAddr x w n
    withStore x .store n false false false addr fun s locs =>
      .done (placeStores s x.b (modColour w.m) (locs.map fun p => ([p.1], storeBytes x c p.1, p.2))) [] [] []

/-! ### LDL and STL (R158, R281) -/

def specLocal (op : Nat) (w : FWord) (store : Bool) : Spec :=
  { fSpec op w (sizeCls (modSize w.m)) v1 .any .any with
    legal := decide (modSize w.m < 7) && modScope w.m == 0 && modOrder w.m == 0 && (store || modColour w.m == 0)
    k := w.m.getLsbD 10
    reads := if store then [.d, .a, .b, .c] else [.a, .b, .c]
    var := !store }

/-- The 32-bit offset of a lane: a + imm18. -/
def offAddr (x : Exec) (w : FWord) (l : Nat) : Nat := (lane x .a 0 l + BitVec.ofInt 32 (imm18 w)).toNat

/-- fl_addr of R281. -/
def flAddr (h : List W64) (q f o : Nat) : Nat :=
  let p := hdrSfl h + 4 * hdrM h
  hdrFlb h + 1024 * p * q + 32 * p * (f / 32) + 128 * (o / 4) + 4 * (f % 32) + o % 4

/-- The VAs of the words of one lane's fibre-local access. -/
def flVA (x : Exec) (w : FWord) (i l : Nat) : Nat :=
  let c := crewD x.s x.b.crew
  flAddr c.hdr c.flSlot (32 * x.b.row + l) (offAddr x w l + 4 * i) % 2 ^ 64

/-- The checks of R158, each over every active lane, and the places of the words of each lane, in lane order. -/
def flPlaces (x : Exec) (w : FWord) (u : Use) : Acc :=
  let n := sizeBytes (modSize w.m)
  let addr := offAddr x w
  let bad1 := (x.act.filter fun l => addr l % n ≠ 0).map fun l => (l, Cause.align)
  match parkedFailure x fun l => (List.range ((n + 3) / 4)).map fun i => flVA x w i l with
  | some t => .trap x.s t
  | none =>
  match lanesFault x addr bad1 with
  | some t => .trap x.s t
  | none =>
    let sfl := hdrSfl (batchHdr x.s x.b)
    let bad2 := (x.act.filter fun l => sfl < addr l + n).map fun l => (l, Cause.pageAbsent)
    match lanesFault x addr bad2 with
    | some t => .trap x.s t
    | none =>
      let words := x.act.flatMap fun l => (List.range ((n + 3) / 4)).map fun i => (l, flVA x w i l)
      match checkMem x x.s u (min n 4) false (some x.b.crew) words with
      | .trap s t => .trap s t
      | .wait s k => .wait s k
      | .ok s locs => if u = .load then checkGen x s false (flVA x w 0) locs else .ok s locs

/-- The number of a place among the words of its lane, which stand together. -/
def flIndexed (locs : List (Nat × Loc)) : List (Nat × Nat × Loc) :=
  locs.zipIdx.map fun p => (p.1.1, ((locs.take p.2).filter fun q => q.1 = p.1.1).length, p.1.2)

/-- The stop of a failed or waiting access. -/
def accEff (a : Acc) : Eff :=
  match a with
  | .trap s t => .trap s t
  | .wait s k => .wait s k
  | .ok s _ => .done s [] [] []

/-- Reads the words of each lane's access, one after another. -/
def flRead (s : State) (b : Batch) (n : Nat) (locs : List (Nat × Loc)) : State × List (Nat × List Byte) :=
  locs.foldl (fun st p =>
    let r := loadLoc st.1 b n p.2
    (r.1, kvSet st.2 p.1 (kvGetD st.2 p.1 [] ++ r.2))) (s, [])

def execLdl (w : FWord) (s : State) : Host.Outcome State Fault Refusal :=
  runF s w (specLocal 0xA2 w false) fun x =>
    let c := modSize w.m
    let n := min 4 (sizeBytes c)
    match flPlaces x w .load with
    | .ok s locs =>
      let (s, vals) := flRead (orderStores s x.b n locs) x.b n locs
      let srcs := (flIndexed locs).flatMap fun p => loadSrcs x.b [p.1] (if sizeBytes c < 4 then c else 0) n p.2.1 p.2.2
      .done (deferLoads s x.b srcs) (loadRegs x c false vals) [] []
    | a => accEff a

def execStl (w : FWord) (s : State) : Host.Outcome State Fault Refusal :=
  runF s w (specLocal 0xA3 w true) fun x =>
    let c := modSize w.m
    match flPlaces x w .store with
    | .ok s locs =>
      .done (placeStores s x.b (modColour w.m) ((flIndexed locs).map fun p =>
        ([p.1], ((storeBytes x c p.1).drop (4 * p.2.1)).take 4, p.2.2))) [] [] []
    | a => accEff a

/-! ### LDSP and STSP (R159) -/

/-- The checks of R159, lane by lane within each check: range bits, alignment, rank, bounds (log 94). -/
def spPlaces (x : Exec) (w : FWord) (u : Use) : Except TrapInfo (List (Nat × Loc)) :=
  let n := sizeBytes (modSize w.m)
  let addr := offAddr x w
  let res := x.act.map fun l => (l, scratchLoc x.s x.b.crew (addr l) n)
  let failing (c : Cause) (f : Nat → Bool) : List (Nat × Cause) :=
    (res.filter fun p => (match p.2 with | .error e => e == c | .ok _ => false) && f (addr p.1)).map fun p => (p.1, c)
  let top (a : Nat) : Bool := a / 2 ^ 30 % 4 != 0
  let checks := [failing .scratchRange top, failing .align fun _ => true, failing .clusterAddr fun _ => true,
    failing .scratchRange fun a => !top a]
  match checks.findSome? (lanesFault x addr) with
  | some t => .error t
  | none =>
    let locs := res.filterMap fun p => match p.2 with
      | .ok q => some (p.1, Loc.scratch q.1 q.2)
      | .error _ => none
    match eccFault x x.s u n (locs.map fun p => ((p.1, addr p.1), p.2)) with
    | some t => .error t
    | none => .ok locs

def execLdsp (w : FWord) (s : State) : Host.Outcome State Fault Refusal :=
  runF s w (specLocal 0xA4 w false) fun x =>
    let c := modSize w.m
    match spPlaces x w .load with
    | .error t => .trap x.s t
    | .ok locs =>
      let n := sizeBytes c
      let (s, vals) := loadAll (orderStores x.s x.b n locs) (fun s l => loadLoc s x.b n l) locs
      .done (deferLoads s x.b (locs.flatMap fun p => loadSrcs x.b [p.1] c n 0 p.2)) (loadRegs x c false vals) [] []

def execStsp (w : FWord) (s : State) : Host.Outcome State Fault Refusal :=
  runF s w (specLocal 0xA5 w true) fun x =>
    let c := modSize w.m
    match spPlaces x w .store with
    | .error t => .trap x.s t
    | .ok locs => .done (placeStores x.s x.b (modColour w.m)
        (locs.map fun p => ([p.1], storeBytes x c p.1, p.2))) [] [] []

/-! ### Acquires and releases (R160 to R162, R328 to R334) -/

/-- An access at a scope reads the place in its core's L1, and not at its home (R333, R334). -/
def readsCopy (scope : Nat) (loc : Loc) : Bool :=
  scope == 0 && (match loc with
    | .mem _ _ _ => true
    | .xform _ _ => true
    | _ => false)

/-- The stamp of a place joins the crew's history when an acquire reads it (R342). -/
def stampIn (s : State) (b : Batch) (n scope : Nat) (loc : Loc) : State :=
  acquireStamp s b.crew scope (readsCopy scope loc) ((locPA s b.ctx n loc).bind fun p => kvGet s.stamps p.1)

/-- The storage addresses of a place on a transform page, one for each line that it touches. -/
def xformLines (s : State) (ctx : Nat) (l : Leaf) (va n : Nat) : List Nat :=
  ((xformElems s ctx l va n).1.map fun pa => pa / 128 * 128).eraseDups

/-- The place and those behind its transform leave the core's L1, written back: the access reads them at their home. -/
def leaveL1 (s : State) (b : Batch) (n : Nat) (loc : Loc) : State :=
  match loc with
  | .xform va l => (xformElems s b.ctx l va n).1.foldl (fun s pa =>
      dropL1 (writeBack s b.core (pa / 128)) b.core (pa / 128)) s
  | .gen va _ _ => dropL1 s b.core (genKey b.ctx va)
  | _ => s

/-- One acquiring read: at the home for CLUSTER and wider, with the drains of the line's records and the merge of its
stamp; through L1 at CORE. -/
def acquireLoad (s : State) (b : Batch) (n scope : Nat) (loc : Loc) : State × List Byte :=
  if scope = 0 then
    let (s, bs) := loadLoc s b n loc
    (stampIn s b n scope loc, bs)
  else
    match loc with
    | .mem pa _ _ =>
      let (s, bs) := homeLoad s b n loc
      (drainRecords (stampIn s b n scope loc) b.core pa, bs)
    | .xform va l =>
      let (s, bs) := loadLoc (leaveL1 s b n loc) b n loc
      ((xformLines s b.ctx l va n).foldl (fun s pa => drainRecords s b.core pa) (stampIn s b n scope loc), bs)
    | _ =>
      let (s, bs) := loadLoc (leaveL1 s b n loc) b n loc
      (stampIn s b n scope loc, bs)

/-- A batch acquires: the counters of every class no wider than the scope move (R328), and words that it fetched ahead are
fetched again (R495). -/
def acquire (s : State) (b : Batch) (scope : Nat) : State :=
  let s := acquireBump s b.core scope
  if b.ahead.isEmpty then s else modBatch s b.id fun c => { c with ahead := [] }

def execLda (w : FWord) (s : State) : Host.Outcome State Fault Refusal :=
  let sp := { fSpec 0xA6 w (sizeCls (modSize w.m)) ve .any .any with
    legal := decide (modSize w.m < 6) && modOrder w.m == 1 && modColour w.m == 0, k := w.m.getLsbD 10, var := true }
  runF s w sp fun x =>
    let c := modSize w.m
    let n := sizeBytes c
    let scope := modScope w.m
    let addr (l : Nat) : Nat := (lane64 x .a l + BitVec.ofInt 64 (imm18 w)).toNat
    withLoad x n (decide (1 ≤ scope)) true addr fun s locs =>
      let uni := uniField x .a 2 && allMemory locs
      let (s, vals) := loadAll (orderStores (orderLoads s x.b n locs) x.b n locs) (fun s l => acquireLoad s x.b n scope l) (if uni then locs.take 1 else locs)
      .done (acquire s x.b scope) (loadRegs x c uni vals) [] []

/-- The release of an operation at a location of `n` bytes (R333): eager at CORE (step 1 alone), at SYSTEM, on a CHECKED page
and in scratch, which has no home line; else a record at the line, for a transform page at the line of its storage. The epoch
moves before any stamp (R341). -/
def releaseAt (s : State) (b : Batch) (scope mask n : Nat) (loc : Loc) : State :=
  let s := bumpEpoch s b.crew
  let lines : List Nat := match loc with
    | .mem pa _ _ => [pa]
    | .xform va l => xformLines s b.ctx l va n
    | _ => []
  if scope = 0 then s
  else if scope = 3 ∨ lines.isEmpty then drainCore s b.core scope mask
  else lines.foldl (fun s pa => addRecord s b.core pa scope mask) s

/-- STREL's own store after its release, with the stamp (R161, R342). -/
def releaseStore (s : State) (b : Batch) (bs : List Byte) (scope mask colour : Nat) (loc : Loc) : State :=
  let s := releaseAt s b scope mask bs.length loc
  let s := match loc with
    | .mem pa _ _ =>
      if scope = 0 then storeLoc s b bs colour loc
      else
        let s := countHome s b.crew b.ctx pa
        if paLost s pa then postLost s (b.ctx, b.crew) else homeStore s b.core pa bs
    | .xform va l =>
      let s := storeLoc s b bs colour loc
      if scope = 0 then s else (xformElems s b.ctx l va bs.length).1.foldl (fun s pa => writeBack s b.core (pa / 128)) s
    | _ => storeLoc s b bs colour loc
  match locPA s b.ctx bs.length loc with
  | some p => stampLoc s (crewD s b.crew) p.1 p.2 scope false
  | none => s

/-- The colour mask of a CM field is nonzero with bit 8 zero (R153). -/
def maskOk (c : W9) : Bool := decide (c.toNat < 256) && c.toNat != 0

def execStrel (w : FWord) (s : State) : Host.Outcome State Fault Refusal :=
  let sp := { fSpec 0xA7 w (sizeCls (modSize w.m)) ve .z .any with
    legal := decide (modSize w.m < 6) && modOrder w.m == 2 && maskOk w.c, k := w.m.getLsbD 10, closes := true
    reads := [.d, .a] }
  runF s w sp fun x =>
    let c := modSize w.m
    let n := sizeBytes c
    let scope := modScope w.m
    let addr (l : Nat) : Nat := (lane64 x .a l).toNat
    withStore x .store n (decide (1 ≤ scope)) true false addr fun s locs =>
      .done (locs.foldl (fun s p =>
        releaseStore s x.b (storeBytes x c p.1) scope w.c.toNat (modColour w.m) p.2) s) [] [] []

/-- FENCE (R162): one release of the whole word, which adds 1 to the epoch (R341; log 43). -/
def execFence (w : FWord) (s : State) : Host.Outcome State Fault Refusal :=
  let ord := modOrder w.m
  let sp := { fSpec 0xAA w .z .z .z .any with
    legal := modSize w.m == 0 && ord != 0 && modColour w.m == 0 && maskOk w.c && (ord != 1 || w.c.toNat == 255)
    k := w.m.getLsbD 10, closes := decide (2 ≤ ord), parks := true }
  runF s w sp fun x =>
    match fpxCheck x with
    | some (s, t) => .trap s t
    | none =>
      let scope := modScope w.m
      let s := if 2 ≤ ord then drainCore (bumpEpoch x.s x.b.crew) x.b.core scope w.c.toNat else x.s
      .done (if ord = 2 then s else acquire s x.b scope) [] [] []

/-! ### Atomics (R163, R336) -/

/-- The new value of an atomic (Table 06-3) on a location of `n` bytes. -/
def atomNew (op n : Nat) (old b c : Nat) : Nat :=
  let m := 2 ^ (8 * n)
  let sgn (v : Nat) : Int := if m / 2 ≤ v then (v : Int) - m else v
  match op with
  | 0 => (old + b) % m
  | 1 => if sgn b < sgn old then b else old
  | 2 => min old b
  | 3 => if sgn old < sgn b then b else old
  | 4 => max old b
  | 5 => old &&& b
  | 6 => old ||| b
  | 7 => old ^^^ b
  | 8 => b
  | 9 => if old = c then b else old
  | 10 => (f32Add old b).1
  | 11 => if b ≤ old then 0 else old + 1
  | _ => if old = 0 ∨ b < old then b else old - 1

/-- Performs one lane's read-modify-write and answers the old value. An atomic follows the release of the location's stamp
(R319); a release merges into it (R342). -/
def atomLane (s : State) (b : Batch) (n scope ord : Nat) (f : Nat → Nat) (loc : Loc) : State × Nat :=
  let rel := decide (2 ≤ ord)
  let acq := ord == 1 || ord == 3
  let s := if rel then releaseAt s b scope 255 n loc else s
  -- an atomic at the home finds the core's own bytes there
  let s := match loc with
    | .mem pa _ _ => if scope = 0 then s else settle s b.core pa
    | _ => s
  let stamp := (locPA s b.ctx n loc).bind fun p => kvGet s.stamps p.1
  let (s, old) := match loc with
    | .mem pa _ _ =>
      if scope = 0 then
        let (s, bs) := loadLoc s b n loc
        (storeLoc s b (leBytes n (f (leNat bs))) 0 loc, leNat bs)
      else
        let s := countHome s b.crew b.ctx pa
        let old := homeNat s pa n
        (homeStore s b.core pa (leBytes n (f old)), old)
    | .checked pa _ =>
      let s := countHome s b.crew b.ctx pa
      let old := homeNat s pa n
      (homeWrite (recordWriter s b.crew pa n true) pa (leBytes n (f old)), old)
    | _ =>
      let (s, bs) := loadLoc s b n loc
      (storeLoc s b (leBytes n (f (leNat bs))) 0 loc, leNat bs)
  let s := match locPA s b.ctx n loc with
    | some p => if rel then stampLoc s (crewD s b.crew) p.1 n scope true else atomStamps s b.core p.1 n (!readsCopy scope loc)
    | none => s
  let s := if acq then
      let s := acquireStamp s b.crew scope (readsCopy scope loc) stamp
      match loc with
      | .mem pa _ _ => if scope = 0 then s else drainRecords s b.core pa
      | _ => s
    else s
  (s, old)

/-- The word part of ATOM and RED: lanes in increasing order; the acquire's counters move after the last. -/
def atomEff (x : Exec) (w : FWord) (result : Bool) : Eff :=
  let wide := w.m.getLsbD 0
  let op := w.m.toNat / 2 % 16
  let scope := w.m.toNat / 32 % 4
  let ord := w.m.toNat / 128 % 4
  let n := if wide then 8 else 4
  let addr (l : Nat) : Nat := (lane64 x .a l).toNat
  let val (f : Fld) (l : Nat) : Nat := if wide then (lane64 x f l).toNat else (lane x f 0 l).toNat
  withStore x .atomic n (decide (1 ≤ scope)) (ord != 0) true addr fun s locs =>
    let step (st : State × List (Nat × List Byte)) (p : Nat × Loc) : State × List (Nat × List Byte) :=
      let r := atomLane st.1 x.b n scope ord
        (fun old => atomNew op n old (val .b p.1) (if op = 9 then val .c p.1 else 0)) p.2
      (r.1, kvSet st.2 p.1 (leBytes n r.2))
    let (s, vals) := locs.foldl step (s, [])
    let s := if ord = 1 ∨ ord = 3 then acquire s x.b scope else s
    .done s (if result then loadRegs x (if wide then 1 else 0) false vals else []) [] []

/-- The spec of ATOM and RED: reserved codes, .FADD with width 1, .CAS in RED raise ILL_FIELD. -/
def specAtom (op8 : Nat) (w : FWord) (red : Bool) : Spec :=
  let op := w.m.toNat / 2 % 16
  let cls := if w.m.getLsbD 0 then ve else v1
  { fSpec op8 w (if red then .z else cls) ve cls (if op = 9 ∧ !red then cls else .z) with
    legal := decide (op < 13) && decide (w.m.toNat < 512) && !(op == 10 && w.m.getLsbD 0) && !(op == 9 && red)
    var := !red
    closes := true }

def execAtom (w : FWord) (s : State) : Host.Outcome State Fault Refusal :=
  runF s w (specAtom 0xA8 w false) fun x => atomEff x w true

def execRed (w : FWord) (s : State) : Host.Outcome State Fault Refusal :=
  runF s w (specAtom 0xA9 w true) fun x => atomEff x w false

/-! ### PREF (R164) -/

/-- One lane's prefetch, into L1 or, as a request for its line, into the LLC: any failing check, and any page but plain memory, makes it
do nothing. R164 says that of PREF and names no lane; that the other lanes' lines are still brought in is the model's choice
(log 105). -/
def prefLane (x : Exec) (llc : Bool) (s : State) (va : Nat) : State :=
  if 2 ^ 54 ≤ va ∨ va % 4 ≠ 0 ∨ inScratchWindow va then s
  else
    match locateLane x s .load 4 va llc none with
    | (s, .ok (.inl (.mem pa l fl))) =>
      if llc then countHome s x.b.crew x.b.ctx pa
      else l1Ensure s x.b.core (pa / 128) x.b.crew x.b.ctx l.e (homeLine (pa / 128)) fl
    | (s, _) => s

def execPref (w : FWord) (s : State) : Host.Outcome State Fault Refusal :=
  let sp := { fSpec 0xAB w .z ve .any .any with
    legal := modSize w.m == 0 && modScope w.m % 2 == 0 && modOrder w.m == 0 && modColour w.m == 0
    k := w.m.getLsbD 10, quiet := true }
  runF s w sp fun x =>
    if (resolveFault x.s x.b x.sp).isSome then .res [] [] []
    else .done (x.act.foldl (fun s l =>
      prefLane x (modScope w.m == 2) s (lane64 x .a l + BitVec.ofInt 64 (imm18 w)).toNat) x.s) [] [] []

end Sys2Proof.Machine
end

