-- ==== Sys2Proof/Machine/Sync.lean ====
section
/-! DEFINITION. Barriers, circular buffers, timelines, shapes, extended sets and accumulator counts (chapter 06, R165
to R184; eviction R50). -/
namespace Sys2Proof.Machine
open Sys2Proof

/-- Every cause, for the reading of a held code. -/
def allCauses : List Cause :=
  [.illOpcode, .illForm, .illField, .illPair, .priv, .regRange, .regWindow, .xsetState, .shape, .shapeQuarter,
   .xlaneUnpinned, .xlaneDiverge, .softTrap, .breakpoint, .fpx] ++
  [.pageAbsent, .permRead, .permWrite, .permExec, .align, .attrSpan, .genWrite, .xformAtomic, .checkedRace,
   .checkedHistory, .scratchRange, .clusterAddr] ++
  [.barConfig, .barOverflow, .cbConfig, .cbOrder, .mcastOutside, .tmrReserved, .tmrRange, .flueCmd, .tlContext,
   .evOverflow, .evRange, .cutDesc, .rayNode] ++
  [.wFormat, .wMeta, .wtabMissing, .accRange, .drainFormat, .fillNest, .fillFailed, .fillWait, .fillTimeout,
   .templateOverflow, .freezeState, .watchdog] ++
  [.eccUeReg, .eccUeScratch, .eccUeAcc, .eccUeLine, .eccUeWstack, .linkFatal, .thermalTrip, .wstackRemap]

/-- The cause of a code of Table 20-1. -/
def causeOf (n : Nat) : Cause := (allCauses.find? fun c => c.code = n).getD .flueCmd

/-- An own-layout word of chapter 06 with these modifier bits allowed. -/
def ownSpec (op : Nat) (w : FWord) (d a b c : Cls) (ok : Bool) : Spec := { fSpec op w d a b c with legal := ok }

/-! ### Barriers (R167 to R173) -/

def barrierOf (x : Exec) (i : Nat) : Option Barrier := (crewD x.s x.b.crew).barriers[i]?

/-- A batch that waits on a barrier is woken, with the barrier as it then stands, once the phase it waits for has completed or
FAULT is set (R169, R171). -/
def wakeBatch (s : State) (b : Batch) : Batch :=
  match b.block with
  | some (.barrier i ph sync none) => match (crewD s b.crew).barriers[i]? with
    | some q => if q.phase ≠ ph ∨ q.fault then { b with block := some (.barrier i ph sync (some q)) } else b
    | none => b
  | _ => b

/-- Every batch whose barrier wait has ended is woken. -/
def wakeWaiters (s : State) : State := { s with batches := s.batches.map (wakeBatch s) }

/-- A barrier changes, and wakes those that wait on it. -/
def setBarrier (s : State) (crew i : Nat) (f : Barrier → Barrier) : State :=
  wakeWaiters (modCrew s crew fun c => { c with barriers := listMod c.barriers i f })

/-- A phase completes when ARR = EXP and PEND = 0 (R169). -/
def barSettle (b : Barrier) : Barrier :=
  if b.exp ≠ 0 ∧ b.arr = b.exp ∧ b.pend = 0 then { b with phase := b.phase + 1, arr := 0, arrived := [] } else b

/-- An engine is bound to a barrier through an attached buffer that is bound to it (R168, R306). -/
def barBound (s : State) (crew i : Nat) : Bool :=
  (crewD s crew).cbs.any fun c => c.bind == some i && c.flue.isSome

/-- A batch of the crew waits on the barrier and has not been woken (R169). -/
def barWaited (s : State) (crew i : Nat) : Bool :=
  s.batches.any fun b => b.crew == crew && (match b.block with
    | some (.barrier k _ _ none) => k == i
    | _ => false)

def execBarinit (w : FWord) (s : State) : Host.Outcome State Fault Refusal :=
  runF s w { ownSpec 0xB0 w .z .br v1 .z (w.m = 0) with closes := true, uni := [.b] } fun x =>
    let i := w.a.toNat
    let v := (uniVal x .b 0).toNat
    match barrierOf x i with
    | none => .trap x.s (wordTrap x .barConfig)
    | some b =>
      if v = 0 ∨ 4096 ≤ v ∨ (b.exp ≠ 0 ∧ !b.fault ∧ (b.arr ≠ 0 ∨ b.pend ≠ 0)) ∨ barWaited x.s x.b.crew i ∨ barBound x.s x.b.crew i
      then .trap x.s (wordTrap x .barConfig)
      else .done (setBarrier x.s x.b.crew i fun _ => { exp := v }) [] [] []

/-- An initialised barrier, else BAR_CONFIG (R167). -/
def liveBarrier (x : Exec) (i : Nat) : Option Barrier := (barrierOf x i).filter fun b => b.exp ≠ 0

/-- The arrival of the active fibres (R170): none when ARR would pass EXP. -/
def arriveAll (x : Exec) (b : Barrier) : Option Barrier :=
  let new := (x.act.map (fibreIndex x.b)).filter fun f => !b.arrived.contains f
  if b.exp < b.arr + new.length then none
  else some (barSettle { b with arr := b.arr + new.length, arrived := b.arrived ++ new })

/-- The arrivals of a word are releases at CORE scope, each of its fibre (Table 12-2, R341). -/
def bumpArrivals (x : Exec) (b : Barrier) (s : State) : State :=
  (x.act.filter fun l => !b.arrived.contains (fibreIndex x.b l)).foldl (fun s _ => bumpEpoch s x.b.crew) s

def execBararr (w : FWord) (s : State) : Host.Outcome State Fault Refusal :=
  runF s w { ownSpec 0xB1 w v1 .br .z .z (w.m = 0) with closes := true, ephOk := true } fun x =>
    match fpxCheck x with
    | some (s, t) => .trap s t
    | none => match liveBarrier x w.a.toNat with
      | none => .trap x.s (wordTrap x .barConfig)
      | some b => match arriveAll x b with
        | none => .trap x.s (wordTrap x .barOverflow)
        | some b' => .done (setBarrier (bumpArrivals x b x.s) x.b.crew w.a.toNat fun _ => b') [(nameOf x .d 0, .u b.phase)] [] []

/-- The tl index of a crew that binds a timeline id; 0xFF for none. -/
def tlIndex (h : List W64) (id : Nat) : Nat := ((List.range 16).find? fun j => hdrTlb h j = id).getD 0xFF

/-- The trap of a barrier's held cause (R171, R460). -/
def barFaultTrap (x : Exec) (b : Barrier) : TrapInfo :=
  let t := { wordTrap x (causeOf b.fcause) with kind := 1, src := 1, sidx := 0xFF }
  match b.faultBy.bind fun k => kvGet x.s.flues k with
  | some f => match f.cause with
    | some h => { t with
        addr := f.causeAddr, sidx := tlIndex (batchHdr x.s x.b) f.tl, code := h.code, scause := h.scause, sdepth := h.sdepth }
    | none => t
  | none => t

/-- The wait of R171 for a phase; its return is an acquire (Table 12-2). -/
def barWait (x : Exec) (s : State) (i : Nat) (phase : W32) (b : Barrier) (sync : Bool) : Eff :=
  if b.phase ≠ phase then .done (acquire s x.b 0) [] [] []
  else if b.fault then .trap s (barFaultTrap x b)
  else .wait s (.barrier i phase sync none)

/-- The barrier that woke the batch out of the wait of this word: its phase completed, or its FAULT was set, during the block,
whatever a BARINIT has made of it since (R169, R171). -/
def wokenBy (x : Exec) (i : Nat) : Option Barrier :=
  match x.b.block with
  | some (.barrier k _ _ (some q)) => if k = i then some q else none
  | _ => none

def execBarwait (w : FWord) (s : State) : Host.Outcome State Fault Refusal :=
  runF s w { ownSpec 0xB2 w .z .br v1 .z (w.m = 0) with parks := true, uni := [.b] } fun x =>
    match fpxCheck x with
    | some (s, t) => .trap s t
    | none => match liveBarrier x w.a.toNat with
      | none => .trap x.s (wordTrap x .barConfig)
      | some b => barWait x x.s w.a.toNat (uniVal x .b 0) ((wokenBy x w.a.toNat).getD b) false

def execBarsync (w : FWord) (s : State) : Host.Outcome State Fault Refusal :=
  runF s w { ownSpec 0xB3 w .z .br v1 .z (w.m = 0) with closes := true, uni := [.b] } fun x =>
    match fpxCheck x with
    | some (s, t) => .trap s t
    | none => match liveBarrier x w.a.toNat with
      | none => .trap x.s (wordTrap x .barConfig)
      | some b =>
        let phase := uniVal x .b 0
        match wokenBy x w.a.toNat with
        | some q => barWait x x.s w.a.toNat phase q true
        | none =>
          if b.phase ≠ phase then .done (acquire x.s x.b 0) [] [] []
          else match arriveAll x b with
            | none => .trap x.s (wordTrap x .barOverflow)
            | some b' => barWait x (setBarrier (bumpArrivals x b x.s) x.b.crew w.a.toNat fun _ => b') w.a.toNat phase b' true

def execBarexp (w : FWord) (s : State) : Host.Outcome State Fault Refusal :=
  runF s w { ownSpec 0xB4 w .z .br ve .z (w.m = 0) with closes := true } fun x =>
    match liveBarrier x w.a.toNat with
    | none => .trap x.s (wordTrap x .barConfig)
    | some b =>
      let n := (uni64 x .b).toNat
      let p := b.pend + n
      if 2 ^ 47 ≤ n ∨ 2 ^ 47 - 1 < p ∨ p < -(2 ^ 47 - 1) then .trap x.s (wordTrap x .barOverflow)
      else .done (setBarrier x.s x.b.crew w.a.toNat fun b => barSettle { b with pend := p }) [] [] []

/-- The words d to d+3 of Table 06-5. -/
def barWords (b : Barrier) : List W32 :=
  let p : Nat := (b.pend % 2 ^ 48).toNat
  [ b.phase
  , BitVec.ofNat 32 (b.arr + 65536 * b.exp + (if b.mcdrop then 2 ^ 28 else 0) + (if b.fault then 2 ^ 29 else 0))
  , BitVec.ofNat 32 p
  , BitVec.ofNat 32 (p / 2 ^ 32 + 65536 * (if b.fault then b.fcause else 0)) ]

/-- Word results to consecutive names, as U. -/
def uRegs (x : Exec) (ws : List W32) : List (Nat × RegVal) := ws.zipIdx.map fun p => (nameOf x .d p.2, .u p.1)

def execBarq (w : FWord) (s : State) : Host.Outcome State Fault Refusal :=
  runF s w { ownSpec 0xB5 w vq .br .z .z (w.m = 0) with ephOk := true } fun x =>
    match barrierOf x w.a.toNat with
    | none => .trap x.s (wordTrap x .barConfig)
    | some b => .res (uRegs x (barWords b)) [] []

/-! ### Circular buffers (R174 to R178) -/

def bufferOf (x : Exec) (i : Nat) : Option CBuf := (crewD x.s x.b.crew).cbs[i]?
def liveBuffer (x : Exec) (i : Nat) : Option CBuf := (bufferOf x i).filter fun c => c.init
def setBuffer (s : State) (crew i : Nat) (f : CBuf → CBuf) : State :=
  modCrew s crew fun c => { c with cbs := listMod c.cbs i f }

def execCbinit (w : FWord) (s : State) : Host.Outcome State Fault Refusal :=
  runF s w { ownSpec 0xB8 w .z .cb v1 v1 (w.m = 0) with closes := true, uni := [.c] } fun x =>
    let off := (uniVal x .b 0).toNat
    let cfg := (uniVal x .c 0).toNat
    let depth := cfg % 256 + 1
    let slot := cfg / 256 % 4096
    let bar := cfg / 2 ^ 20 % 16
    let bind := cfg / 2 ^ 24 % 2 = 1
    let c := crewD x.s x.b.crew
    match bufferOf x w.a.toNat with
    | none => .trap x.s (wordTrap x .cbConfig)
    | some cb =>
      if off % 16 ≠ 0 ∨ 2 ^ 25 ≤ cfg ∨ slot = 0 ∨ c.scratchBytes < off + 16 * slot * depth ∨
          (bind ∧ c.barriers.length ≤ bar) ∨ (cb.init ∧ cb.free ≠ cb.depth)
      then .trap x.s (wordTrap x .cbConfig)
      else .done (setBuffer x.s x.b.crew w.a.toNat fun cb => {
        base := off, depth := depth, slot := slot, bar := bar, bind := if bind then some bar else none
        free := depth, init := true, flue := cb.flue }) [] [] []

/-- The trap of a stopped Flue context that feeds a buffer or moves a timeline (R313, R460). -/
def flueTrap (x : Exec) (f : FlueCtx) (h : Held) : TrapInfo :=
  { wordTrap x h.cause with
    kind := 1, src := 1, addr := f.causeAddr, sidx := tlIndex (batchHdr x.s x.b) f.tl
    code := h.code, scause := h.scause, sdepth := h.sdepth }

/-- The cause held by the Flue context of a buffer. -/
def bufferFault (s : State) (cb : CBuf) : Option (FlueCtx × Held) :=
  match cb.flue.bind fun k => kvGet s.flues k with
  | some f => f.cause.map fun c => (f, c)
  | none => none

def execCbacq (w : FWord) (s : State) : Host.Outcome State Fault Refusal :=
  runF s w { ownSpec 0xB9 w v1 .cb v1 .z (w.m.toNat < 2) with closes := true, ephOk := true, uni := [.b] } fun x =>
    let n := (uniVal x .b 0).toNat
    let prod := w.m.getLsbD 0
    match liveBuffer x w.a.toNat with
    | none => .trap x.s (wordTrap x .cbConfig)
    | some cb =>
      if n = 0 ∨ cb.depth < n then .trap x.s (wordTrap x .cbConfig)
      else if prod ∧ cb.flue.isSome then .trap x.s (wordTrap x .cbOrder)
      else
        let offset (i : Nat) : W32 := BitVec.ofNat 32 (cb.base + 16 * cb.slot * i)
        if prod then
          if cb.free < n then .wait x.s (.buffer w.a.toNat n true)
          else .done (setBuffer (acquire x.s x.b 0) x.b.crew w.a.toNat fun c =>
            { c with free := c.free - n, ph := c.ph + n, pidx := (c.pidx + n) % c.depth })
            [(nameOf x .d 0, .u (offset cb.pidx))] [] []
        else if cb.filled < n then
          match bufferFault x.s cb with
          | some (f, c) => .trap x.s (flueTrap x f c)
          | none => .wait x.s (.buffer w.a.toNat n false)
        else .done (setBuffer (acquire x.s x.b 0) x.b.crew w.a.toNat fun c =>
            { c with filled := c.filled - n, rh := c.rh + n, ridx := (c.ridx + n) % c.depth })
            [(nameOf x .d 0, .u (offset cb.ridx))] [] []

/-- CBREL and CBPUT: n slots move on, from the count `held`; each is a release at CORE scope (Table 12-2, R341). -/
def cbMove (x : Exec) (w : FWord) (flueBad : Bool) (held : CBuf → Nat) (move : Nat → CBuf → CBuf) : Eff :=
  let n := (uniVal x .b 0).toNat
  match liveBuffer x w.a.toNat with
  | none => .trap x.s (wordTrap x .cbConfig)
  | some cb =>
    if n = 0 ∨ cb.depth < n then .trap x.s (wordTrap x .cbConfig)
    else if held cb < n ∨ (flueBad ∧ cb.flue.isSome) then .trap x.s (wordTrap x .cbOrder)
    else .done (setBuffer (bumpEpoch x.s x.b.crew) x.b.crew w.a.toNat (move n)) [] [] []

def execCbrel (w : FWord) (s : State) : Host.Outcome State Fault Refusal :=
  runF s w { ownSpec 0xBA w .z .cb v1 .z (w.m = 0) with closes := true, uni := [.b] } fun x =>
    cbMove x w false (·.rh) fun n c => { c with rh := c.rh - n, free := c.free + n }

def execCbput (w : FWord) (s : State) : Host.Outcome State Fault Refusal :=
  runF s w { ownSpec 0xBB w .z .cb v1 .z (w.m = 0) with closes := true, uni := [.b] } fun x =>
    cbMove x w true (·.ph) fun n c => { c with ph := c.ph - n, filled := c.filled + n }

/-- The words of Table 06-7. -/
def cbWords (c : CBuf) : List W32 :=
  [ BitVec.ofNat 32 (c.free + 512 * c.filled + 2 ^ 18 * c.rh)
  , BitVec.ofNat 32 (c.ph + (if c.init then 512 else 0) + (if c.flue.isSome then 1024 else 0) +
      (if c.bind.isSome then 2048 else 0) + 4096 * c.bar + 65536 * c.pidx + 2 ^ 24 * c.ridx) ]

def execCbq (w : FWord) (s : State) : Host.Outcome State Fault Refusal :=
  runF s w { ownSpec 0xBC w ve .cb .z .z (w.m = 0) with ephOk := true } fun x =>
    match bufferOf x w.a.toNat with
    | none => .trap x.s (wordTrap x .cbConfig)
    | some c => .res (uRegs x (cbWords c)) [] []

/-! ### Timelines (R179) -/

/-- The timeline that tl_j of the crew binds: its id and state. -/
def boundTimeline (s : State) (b : Batch) (j : Nat) : Option (Nat × Timeline) :=
  let id := hdrTlb (batchHdr s b) j
  (kvGet (ctxD s b.ctx).timelines id).map fun t => (id, t)

/-- The key of a timeline's Flue or Splitter context. -/
def tlKey (ctx id : Nat) : Nat := 256 * ctx + id

/-- The cause that a stopped context of a timeline delivers at a wait (R313, R417). -/
def timelineFault (x : Exec) (j id : Nat) : Option TrapInfo :=
  let key := tlKey x.b.ctx id
  match kvGet x.s.flues key with
  | some f => f.cause.map fun c => { flueTrap x f c with sidx := j }
  | none => match kvGet x.s.splits key with
    | some f => f.cause.map fun h => { wordTrap x h.cause with
        kind := 1, src := 2, sidx := j, addr := f.causeAddr, code := h.code, scause := h.scause, sdepth := h.sdepth }
    | none => none

def isFill (x : Exec) : Bool := (crewD x.s x.b.crew).fill.isSome

/-- TLWAIT (R178, R179): while its count is too low, the cause of an engine context that has stopped is raised, and else the word
blocks. A word that is issued again only after FLUESUB.RST or CUTSEL.RST has ended the stop finds no cause and waits on: R313 and
R314 do not say, and that is the model's choice (log 35). -/
def execTlwait (w : FWord) (s : State) : Host.Outcome State Fault Refusal :=
  runF s w { ownSpec 0xC0 w .z .tl ve .z (w.m = 0) with uni := [.b] } fun x =>
    let j := w.a.toNat
    if isFill x then .trap x.s (wordTrap x .fillWait)
    else match boundTimeline x.s x.b j with
      | none => .trap x.s (wordTrap x .tlContext)
      | some (id, t) =>
        let v := (uni64 x .b).toNat
        if v ≤ t.count then .done (acquire x.s x.b t.scope) [] [] []
        else match timelineFault x j id with
          | some tr => .trap x.s tr
          | none => .wait x.s (.timeline id v)

def execTlq (w : FWord) (s : State) : Host.Outcome State Fault Refusal :=
  runF s w { ownSpec 0xC1 w ve .tl .z .z (w.m = 0) with ephOk := true } fun x =>
    match boundTimeline x.s x.b w.a.toNat with
    | none => .trap x.s (wordTrap x .tlContext)
    | some (_, t) => .res (uRegs x [BitVec.ofNat 32 t.count, BitVec.ofNat 32 (t.count / 2 ^ 32)]) [] []

/-! ### Shapes (R181, R182) -/

def execShape (w : FWord) (s : State) : Host.Outcome State Fault Refusal :=
  runF s w { ownSpec 0xC3 w v1 v1 .z .z (w.m = 0) with ephOk := true } fun x =>
    .res [(nameOf x .d 0, .u (BitVec.ofNat 32 (shapeCode (rawReg x.s x.b (nameOf x .a 0)))))] [] []

def execShapeg (w : FWord) (s : State) : Host.Outcome State Fault Refusal :=
  runF s w { ownSpec 0xC4 w v1 .z .z .z (w.m = 0) with var := true } fun x =>
    .done (modBatch x.s x.b.id fun b => { b with retbuf := b.retbuf ++ [.toGeneral (nameOf x .d 0)] }) [] [] []

/-! ### What a wait waits for: planes (R202) and turns of a remap (R244, R481) -/

/-- Plane p of a core; an exchange that still waits has taken effect for every later word (R202). -/
def planeOf (k : Core) (p : Nat) : Plane := if (p = 0) != k.swap then k.planeA else k.planeS

/-- Whether a remap step runs on a column. -/
def remapRuns (s : State) (c : Nat) : Bool := s.remaps.any fun r => r.col == c && r.running

/-- A retirement waits for its turn: firmware's, or that of a WSREMAP that is still blocked (R244, R481). -/
def remapWaits (s : State) (r : Remap) : Bool :=
  !r.running && (match r.batch with
    | none => true
    | some id => (findBatch s id).any fun b => b.block == some (.remap r.col))

/-- The retirement of a column whose turn comes next (R481: in arrival order). -/
def firstWaiting (s : State) (c : Nat) : Option Remap := s.remaps.find? fun r => r.col == c && remapWaits s r

/-- The turn of a batch's WSREMAP: no step runs on the column, and no other retirement waits before it. -/
def remapTurn (s : State) (c id : Nat) : Bool :=
  !remapRuns s c && (match firstWaiting s c with
    | none => true
    | some r => r.batch == some id)

/-! ### Extended sets (R49, R50, R183) -/

/-- The parts of a slot. -/
def slotParts (s : State) (core slot : Nat) : List Batch := s.batches.filter fun b => b.core == core && b.slot == slot

/-- The waits that let a holder be evicted (R50, R165): of those on a plane WWAIT's, which R203 names, and not those of WSWAP
and MMQ (log 84). -/
def evictable (k : Option Block) : Bool :=
  match k with
  | some (.barrier _ _ _ _) => true
  | some (.buffer _ _ _) => true
  | some (.timeline _ _) => true
  | some (.event _ _) => true
  | some (.remap _) => true
  | some (.plane _ wwait) => wwait
  | _ => false

/-- The parts of a slot that hold its pair's set. -/
def holdingParts (s : State) (core slot : Nat) : List Batch := (slotParts s core slot).filter (·.xheld)

/-- A wait that lets a holder be evicted is over: the batch wakes. -/
def wakes (s : State) (b : Batch) : Bool :=
  match b.block with
  | some (.barrier _ _ _ woken) => woken.isSome
  | some (.buffer i n prod) => ((crewD s b.crew).cbs[i]?).any fun q =>
      (if prod then decide (n ≤ q.free) else decide (n ≤ q.filled)) || (bufferFault s q).isSome
  | some (.timeline id v) => (kvGet (ctxD s b.ctx).timelines id).any (fun t => decide (v ≤ t.count)) ||
      (kvGet s.flues (tlKey b.ctx id)).any (fun f => f.cause.isSome) || (kvGet s.splits (tlKey b.ctx id)).any fun f => f.cause.isSome
  | some (.event _ woken) => woken
  | some (.plane p _) => (planeOf (coreD s b.core) p).state != 1
  | some (.remap col) => remapTurn s col b.id
  | _ => true

/-- The holder blocks as R50 asks: it waits, and has not been woken (R165); where its slot has split, every part that holds the set
does (log 84). -/
def holderBlocked (s : State) (core slot : Nat) : Bool :=
  (holdingParts s core slot).all fun b => evictable b.block && !wakes s b

/-- Whether the pair's set may be granted to the batch: it is the first that waits, and nobody holds the set but a
slot whose batches are blocked as R50 asks. -/
def setFree (s : State) (b : Batch) (x : XSet) : Bool :=
  x.waiters.headD b.id == b.id && (match x.holder with
    | none => true
    | some h => h != b.slot && holderBlocked s b.core h)

/-- The condition of a batch's wait holds (R165, R464). -/
def waitOver (s : State) (b : Batch) : Bool :=
  match b.block with
  | some .xset => (findXSet s b.core (b.slot / 2)).any (setFree s b)
  | some (.gather i m) => gatherReady s b i m
  | some (.home i g) => homeAnswer s (128 * i) g != .waits
  | some (.fetch i g) => homeAnswer s (128 * i) g != .waits
  | some (.array n) => n != 0 || (coreD s b.core).planeS.state != 1
  | _ => wakes s b

/-- The fibre-local places of one register of the eviction area for a batch's lanes (R280). -/
def evictVAs (c : Crew) (b : Batch) (i : Nat) : List (Nat × Nat) :=
  (liveLanes b).map fun l => (l, flAddr c.hdr c.flSlot (32 * b.row + l) (hdrSfl c.hdr + 4 * i))

/-- Writes register i of the set for the lanes of one part; the fault or the wait of the first place that has one. -/
def evictReg (x : Exec) (b : Batch) (r : Acc) (i : Nat) : Acc :=
  match r with
  | .ok s _ =>
    let vas := evictVAs (crewD s b.crew) b i
    let hw : Exec := { x with s := s, b := { b with priv := true } }
    match checkMem hw s .store 4 false (some b.crew) vas with
    | .trap s t => .trap s { t with rpc := x.b.pc, word := x.sp.word }
    | .wait s k => .wait s k
    | .ok s locs => .ok (locs.foldl (fun s p =>
        storeLoc s b (leBytes 4 (laneVal (b.xregs.getD i (.u 0)) p.1).toNat) 0 p.2) s) []
  | r => r

/-- Evicts the holder's registers to its fibre-local memory (R50 step 1): the parts that hold the set. -/
def evict (x : Exec) (holder : Nat) : Acc :=
  (holdingParts x.s x.b.core holder).foldl (fun r b =>
    (List.range b.xregs.length).foldl (evictReg x b) r) (.ok x.s [])

/-- The parts of an evicted slot must take the set again before they issue (R50). -/
def markEvicted (s : State) (core slot : Nat) : State :=
  let upd (c : Batch) : Batch :=
    if c.core = core ∧ c.slot = slot ∧ c.xheld then { c with reacquire := true, xheld := false } else c
  modXSet { s with batches := s.batches.map upd } core (slot / 2) fun t => { t with evicted := some slot }

/-- A line of the pair's extended set that holds an uncorrectable error. -/
def setBad (s : State) (b : Batch) : Bool :=
  s.upsets.any fun u => match u with
    | .reg c sl n _ => c == b.core && sl == b.slot / 2 * 2 && decide (b.regs.length ≤ n) && decide (n < 512)
    | _ => false

/-- The set is granted to a batch's slot, of which every part then holds it: a part that had it keeps its values and tags
where its slot held the set last, else it takes the values left, with the tags of its own lanes (R49). The values left are those
of the last XREL; what a slot reads that takes the set by an eviction, R49 and R50 do not say, and the model gives it these: the
model's choice (log 71). -/
def grantSet (s : State) (b : Batch) : State :=
  match findXSet s b.core (b.slot / 2) with
  | none => s
  | some t =>
    let upd (c : Batch) : Batch :=
      if c.core = b.core ∧ c.slot = b.slot then { c with
        xheld := true
        xregs := if t.last = some b.slot ∧ c.xregs.length = t.regs.length then c.xregs
          else t.regs.map fun v => retag (liveLanes c) (laneList (laneVal v)) }
      else c
    modXSet { s with batches := s.batches.map upd } b.core (b.slot / 2) fun t => { t with
      holder := some b.slot
      last := some b.slot
      waiters := t.waiters.filter fun i => i ≠ b.id }

def queueSet (s : State) (b : Batch) : State :=
  modXSet s b.core (b.slot / 2) fun t => if t.waiters.contains b.id then t else { t with waiters := t.waiters ++ [b.id] }

def unqueueSet (s : State) (b : Batch) : State :=
  modXSet s b.core (b.slot / 2) fun t => { t with waiters := t.waiters.filter fun i => i ≠ b.id }

def execXacq (w : FWord) (s : State) : Host.Outcome State Fault Refusal :=
  runF s w { bareSpec 0xC5 w with closes := true } fun x =>
    match findXSet x.s x.b.core (x.b.slot / 2) with
    | none => .trap x.s (wordTrap x .xsetState)
    | some t =>
      if isFill x ∨ t.holder = some x.b.slot then .trap (unqueueSet x.s x.b) (wordTrap x .xsetState)
      else
        let s := queueSet x.s x.b
        let first := t.waiters.headD x.b.id = x.b.id
        match t.holder with
        | none => if first then .done (grantSet s x.b) [] [] [] else .wait s .xset
        | some h =>
          if first ∧ holderBlocked s x.b.core h then
            if setBad s x.b then .wait (postUE s x.b .eccUeReg) .xset
            else match evict { x with s := s } h with
            | .trap s tr => .trap (unqueueSet s x.b) tr
            | .wait s k => .wait s k
            | .ok s _ => .done (grantSet (markEvicted s x.b.core h) x.b) [] [] []
          else .wait s .xset

/-- What the parts of a slot leave in the set when they give it back: a scalar stands for every lane, and a lane that no
part has keeps what was left before (log 71). -/
def leftRegs (parts : List Batch) (old : List RegVal) : List RegVal :=
  match parts with
  | [] => old
  | [p] => p.xregs
  | ps => old.zipIdx.map fun v => .g (laneList fun l => match ps.find? fun p => (liveLanes p).contains l with
      | some p => laneVal (p.xregs.getD v.2 (.u 0)) l
      | none => laneVal v.1 l)

/-- The slot of the batch holds its pair's extended set (R183). -/
def slotHolds (s : State) (b : Batch) : Bool := (findXSet s b.core (b.slot / 2)).any fun t => t.holder == some b.slot

/-- The set is given back (R183): for every part of the slot. -/
def releaseSet (s : State) (b : Batch) : State :=
  if slotHolds s b then
    let parts := holdingParts s b.core b.slot
    let upd (c : Batch) : Batch := if c.core = b.core ∧ c.slot = b.slot then { c with xheld := false } else c
    modXSet { s with batches := s.batches.map upd } b.core (b.slot / 2) fun t =>
      { t with holder := none, regs := leftRegs parts t.regs }
  else s

def execXrel (w : FWord) (s : State) : Host.Outcome State Fault Refusal :=
  runF s w { bareSpec 0xC6 w with closes := true } fun x =>
    if slotHolds x.s x.b then .done (releaseSet x.s x.b) [] [] [] else .trap x.s (wordTrap x .xsetState)

/-! ### Accumulator counts (R184, R283) -/

/-- The tiles that the crews of a core hold, of the 62 for crews. -/
def coreTiles (s : State) (core : Nat) : Nat :=
  ((s.crews.filter fun c => c.core == core && c.fill.isNone).map fun c => c.tiles.length).sum

def execAccgrow (w : FWord) (s : State) : Host.Outcome State Fault Refusal :=
  runF s w { ownSpec 0xC7 w .p v1 .z .z (w.m = 0) with closes := true, uni := [.a] } fun x =>
    let n := (uniVal x .a 0).toNat
    let c := crewD x.s x.b.crew
    let k := coreD x.s x.b.core
    if n = 0 ∨ 62 < c.tiles.length + n then .trap x.s (wordTrap x .accRange)
    else if coreTiles x.s x.b.core + n ≤ 62 ∧ c.fill.isNone ∧ (k.array = none ∨ k.array = some c.cluster) then
      let s := modCrew x.s x.b.crew fun c => { c with tiles := c.tiles ++ List.replicate n {} }
      .done (modCore s x.b.core fun k => { k with array := some c.cluster }) [] [(w.d.toNat, maskOf x.act)] []
    else .res [] [(w.d.toNat, 0)] []

def execAccfree (w : FWord) (s : State) : Host.Outcome State Fault Refusal :=
  runF s w { ownSpec 0xC8 w .z v1 .z .z (w.m = 0) with closes := true, uni := [.a] } fun x =>
    let n := (uniVal x .a 0).toNat
    let t := (crewD x.s x.b.crew).tiles.length
    if n = 0 ∨ t < n then .trap x.s (wordTrap x .accRange)
    else
      -- the errors of the tiles go with them
      let s := clearUpsets x.s fun u => match u with
        | .acc c i _ _ => c == x.b.crew && decide (t - n ≤ i)
        | _ => false
      .done (modCrew s x.b.crew fun c => { c with tiles := c.tiles.take (t - n) }) [] [] []

end Sys2Proof.Machine
end

