-- ==== Sys2Proof/Machine/Weights.lean ====
section
/-! DEFINITION. The arithmetic of the matrix array (R23 to R30): weight tile records (R191 to R194, R198), the factors
of a plane, the segment sums, and the drain conversions (R28, R29). -/
namespace Sys2Proof.Machine
open Sys2Proof

/-- The 32-bit word at a byte offset. -/
def wordAt (bs : List Byte) (off : Nat) : Nat := leNat ((bs.drop off).take 4)
def halfAt (bs : List Byte) (off : Nat) : Nat := leNat ((bs.drop off).take 2)
def byteAt (bs : List Byte) (off : Nat) : Nat := leNat ((bs.drop off).take 1)

/-- A decoded header (Table 07-3) with the offsets and lengths of its sections: payload, block scales, band scales,
masks. -/
structure Wtr where
  fmt : Nat
  kseg : Nat
  ncols : Nat
  cgrp : Nat
  secs : List (Nat × Nat)
deriving DecidableEq, Repr

/-- Smax of Table 07-4. -/
def wtrSmax (f : Nat) : Nat := [4, 8, 16, 4, 4, 4, 4].getD f 0
/-- Bytes of an FP4 segment. -/
def wtrSegBytes (f : Nat) : Nat := [16, 8, 4].getD f 0
/-- Kept rows of a segment. -/
def wtrKept (f : Nat) : Nat := [32, 16, 8].getD f 32
/-- The length of a codebook table (R199). -/
def wtrTable (f : Nat) : Nat := if 4 ≤ f then 2 ^ (f - 1) else 0

/-- The section lengths of Table 07-4. -/
def wtrLengths (f s c : Nat) : List Nat :=
  let h := (s + 1) / 2
  if f ≤ 2 then [wtrSegBytes f * s * c, 4 * s * c, 2 * h * c, if f = 0 then 0 else 4 * s * c]
  else [if f = 3 then 64 * s * c else 16 * (f - 2) * c, 0, 0, 0]

/-- Whether two byte ranges meet. -/
def rangesMeet (p q : Nat × Nat) : Bool := decide (p.1 < q.1 + q.2) && decide (q.1 < p.1 + p.2)

/-- The checks of R191 on the header: W_FORMAT first, then W_META. -/
def wtrHeader (bs : List Byte) : Except Cause Wtr :=
  let q (i : Nat) : Nat := leNat ((bs.drop (8 * i)).take 8)
  let f := q 0 % 16
  let reserved : Bool := q 0 / 2 ^ 13 % 8 != 0 || q 0 / 2 ^ 23 % 2 != 0 || q 0 / 2 ^ 26 != 0 || q 5 != 0 || q 6 != 0 || q 7 != 0
  if 6 < f ∨ q 0 / 16 % 16 ≠ 1 ∨ reserved then .error .wFormat
  else
    let s := q 0 / 256 % 32
    let c := q 0 / 2 ^ 16 % 128
    let g := q 0 / 2 ^ 24 % 4
    let secs := (List.range 4).map fun i => (q (i + 1) % 2 ^ 32, q (i + 1) / 2 ^ 32)
    let used := (0, 64) :: secs.filter fun p => p.2 ≠ 0
    if s = 0 ∨ wtrSmax f < s ∨ c = 0 ∨ (if f ≤ 2 then 64 else 16) < c ∨ (4 ≤ f ∧ s ≠ 4) ∨ (f ≤ 2 ∧ g ≠ 0) ∨
        secs.map (·.2) ≠ wtrLengths f s c ∨ (used.any fun p => p.1 % 16 ≠ 0 ∨ 65536 < p.1 + p.2) ∨
        !(used.zipIdx.all fun p => used.zipIdx.all fun r => p.2 == r.2 || !rangesMeet p.1 r.1)
    then .error .wMeta
    else .ok ⟨f, s, c, g, secs⟩

def secOff (w : Wtr) (i : Nat) : Nat := (w.secs.getD i (0, 0)).1

/-- B, the record's length. -/
def wtrBytes (w : Wtr) : Nat := (w.secs.map fun p => if p.2 = 0 then 0 else p.1 + p.2).foldl max 64

/-- The mask of segment j. -/
def wtrMask (w : Wtr) (bs : List Byte) (j : Nat) : Nat :=
  if w.fmt = 1 ∨ w.fmt = 2 then wordAt bs (secOff w 3 + 4 * j) else 2 ^ 32 - 1

/-- Every mask has the population of its format (R193). -/
def masksOk (w : Wtr) (bs : List Byte) : Bool :=
  if w.fmt = 1 ∨ w.fmt = 2 then
    (List.range (w.kseg * w.ncols)).all fun j =>
      ((List.range 32).countP fun i => (wtrMask w bs j).testBit i) == wtrKept w.fmt
  else true

/-- The terms of a segment: kept row within the segment, and the weight with its block scale. -/
def segWeights (w : Wtr) (bs tab : List Byte) (n sg : Nat) : List (Nat × FVal) :=
  let j := n * w.kseg + sg
  if w.fmt ≤ 2 then
    let m := wtrMask w bs j
    ((List.range 32).filter fun i => m.testBit i).zipIdx.map fun p =>
      let code := byteAt bs (secOff w 0 + wtrSegBytes w.fmt * j + p.2 / 2) / 16 ^ (p.2 % 2) % 16
      (p.1, (fMul (fp4Val code) (e3m5Val (byteAt bs (secOff w 1 + 4 * j + p.1 / 8)))).1)
  else if w.fmt = 3 then
    (List.range 32).map fun i => (i, fDecode bf16 (halfAt bs (secOff w 0 + 64 * j + 2 * i)))
  else
    let wd := w.fmt - 2
    let stream := leNat ((bs.drop (secOff w 0 + 16 * wd * n)).take (16 * wd))
    (List.range 32).map fun i =>
      (i, fDecode bf16 (halfAt tab (2 * (stream / 2 ^ (wd * (32 * sg + i)) % 2 ^ wd))))

/-- The band scale of a segment. -/
def segBand (w : Wtr) (bs : List Byte) (n sg : Nat) : FVal :=
  if w.fmt ≤ 2 then fDecode bf16 (halfAt bs (secOff w 2 + 2 * (n * ((w.kseg + 1) / 2) + sg / 2))) else .fin false 1 0 false

/-- The header that a READY plane's record has. -/
def planeWtr (p : Plane) : Wtr := match wtrHeader p.bytes with
  | .ok w => w
  | .error _ => ⟨0, 0, 0, 0, []⟩

/-- The tile column of a plane's column n (R194). -/
def tileCol (w : Wtr) (n : Nat) : Nat := if w.fmt ≤ 2 then n else 16 * w.cgrp + n

/-- The logical rows that some column of the plane keeps. -/
def keptRows (p : Plane) : List Nat :=
  let w := planeWtr p
  (List.range (32 * w.kseg)).filter fun k =>
    (List.range w.ncols).any fun n => (wtrMask w p.bytes (n * w.kseg + k / 32)).testBit (k % 32)

/-- An activation as it enters the multiplier (R25): SLW format 0 BF16, 1 FP16, 2 FP32 rounded to BF16. -/
def activation (fmt : Nat) (x : W32) : FVal :=
  match fmt with
  | 0 => fDecode bf16 (x.toNat % 65536)
  | 1 => fDecode fp16 (x.toNat % 65536)
  | _ => fDecode bf16 (fRound bf16 0 false false (fDecode fp32 x.toNat)).1

/-- exact_sum with the special cases of R27. -/
def exactSum : List FVal → FVal
  | [] => .fin false 0 0 false
  | t :: ts => ts.foldl (fun v x => (fAdd 0 v x).1) t

/-- T of a segment: the exact sum times the band scale, rounded once (R26). -/
def segResult (acts : Nat → FVal) (terms : List (Nat × FVal)) (band : FVal) : Nat :=
  (fRound fp32 0 false false (fMul (exactSum (terms.map fun t => (fMul (acts t.1) t.2).1)) band).1).1

/-- One element: the segments added in increasing K, each addition rounded (R26). -/
def mmqElement (p : Plane) (w : Wtr) (acts : Nat → FVal) (n : Nat) (acc : W32) : W32 :=
  let tab := p.tables.getD n []
  BitVec.ofNat 32 ((List.range w.kseg).foldl (fun a sg =>
    (f32Add a (segResult (fun i => acts (32 * sg + i)) (segWeights w p.bytes tab n sg) (segBand w p.bytes n sg))).1) acc.toNat)

/-- A quarter's result over a tile (R207): the elements of the served columns. -/
def quarterTile (q : Quarter) (tile : List (Nat × W32)) : List (Nat × W32) :=
  let w := planeWtr q.weights
  let row (t : List (Nat × W32)) (r : Nat × List (Nat × W32)) : List (Nat × W32) :=
    let acts (k : Nat) : FVal := activation q.fmt (kvGetD r.2 k 0)
    (List.range w.ncols).foldl (fun t n =>
      let e := 64 * r.1 + tileCol w n
      kvPut 0 t e (mmqElement q.weights w acts n (if q.zero then 0 else kvGetD tile e 0))) t
  (q.rows.zipIdx.map fun p => (p.2, p.1)).foldl row tile

/-! ### Drain (R28, R29) -/

/-- A NaN that ACCWR wrote with other bits than the canonical NaN's stays as it is under FP32, which is written unchanged (R28;
log 80). An element in format 0 FP32, 1 FP16 or 2 BF16, and whether it counts as a saturation (R28). -/
def drainElem (f : Nat) (x : W32) : Nat × Bool :=
  if f = 0 then (x.toNat, false)
  else
    let (c, fl) := fRound (if f = 1 then fp16 else bf16) 0 false false (fDecode fp32 x.toNat)
    (c, fl / 4 % 2 = 1)

/-- A positive finite magnitude as a fraction over 2^149·2^133: an integer for every FP32 and BF16 value. -/
def fixedMag (v : FVal) : Option Nat :=
  match v with
  | .fin _ m e _ => some (m * 2 ^ (e + 160).toNat)
  | _ => none

/-- n / d as an exact value for rounding: enough bits, the rest sticky. -/
def quotVal (neg : Bool) (n d : Nat) : FVal :=
  let sc := n * 2 ^ 40
  .fin neg (sc / d) (-40) (sc % d != 0)

/-- A block of 8 elements (R29): scale code, codes, counted saturations, and whether it is a calibration miss. -/
def drainBlock (bs : Nat) (xs : List W32) : Nat × List Nat × Nat × Bool :=
  let vs := xs.map fun x => fDecode fp32 x.toNat
  let mags := vs.filterMap fixedMag
  if mags.length < vs.length then (0xFF, xs.map fun _ => 0, 0, true)
  else
    let m := mags.foldl max 0
    if m = 0 then (0, xs.map fun _ => 0, 0, false)
    else
      let (sc, sat) := e3m5Up m (6 * bs)
      let su := match e3m5Val sc with
        | .fin _ k e _ => k * 2 ^ (e + 8).toNat
        | _ => 1
      let codes := (xs.zip mags).map fun p => rneE2m1 (quotVal (p.1.getLsbD 31) (p.2 * 256) (bs * su))
      let n := (if sat then 1 else 0) + codes.countP fun c => c.2
      (sc, codes.map (·.1), n, n != 0)

/-- The 40-byte image of a row (R216) with its counts. -/
def drainRow4 (bs : Nat) (xs : List W32) : List Byte × Nat × Bool :=
  let blocks := (List.range 8).map fun j => drainBlock bs ((xs.drop (8 * j)).take 8)
  let codes := blocks.flatMap fun b => b.2.1
  let bytes := (List.range 32).map fun i => BitVec.ofNat 8 (codes.getD (2 * i) 0 + 16 * codes.getD (2 * i + 1) 0)
  (bytes ++ blocks.map fun b => BitVec.ofNat 8 b.1, (blocks.map fun b => b.2.2.1).sum, blocks.any fun b => b.2.2.2)

/-- B of R29: positive and finite, else none. -/
def bandScale (x : W32) : Option Nat :=
  match fDecode bf16 (x.toNat % 65536) with
  | .fin neg m e st => if neg ∨ m = 0 then none else fixedMag (.fin neg m e st)
  | _ => none

end Sys2Proof.Machine
end

