-- ==== Sys2Proof/Machine/Matrix.lean ====
section
/-! DEFINITION. The matrix array (chapter 07): loads, tables, swaps and waits, quarters and passes, accumulator words,
drains, status, and the hardware steps of loads and passes. -/
namespace Sys2Proof.Machine
open Sys2Proof

/-- A matrix word with an own layout. -/
def matSpec (op : Nat) (w : FWord) (d a b c : Cls) (ok : Bool) : Spec := { fSpec op w d a b c with legal := ok }

/-- A cause of the word with an address (R195, R216). -/
def addrTrap (x : Exec) (c : Cause) (va : Nat) : TrapInfo := { wordTrap x c with addr := va }

/-! ### The array of a core -/

def setPlane (k : Core) (p : Nat) (q : Plane) : Core := if (p = 0) != k.swap then { k with planeA := q } else { k with planeS := q }

/-- A crew without tiles of its own uses nothing of the array (R188). -/
def noTiles (x : Exec) : Bool := (crewD x.s x.b.crew).tiles.isEmpty && hdrAcc (batchHdr x.s x.b) == 0

/-- What stands before a matrix word: a crew without tiles, a fill that has not borrowed the array yet (R390), and,
for the words that name planes, an array lent to a fill. -/
def matGate (x : Exec) (planes : Bool) : Option Eff :=
  let k := coreD x.s x.b.core
  if noTiles x then some (.trap x.s (wordTrap x .accRange))
  else if isFill x then (if k.borrow ≠ some x.b.crew then some (.wait x.s (.array 2)) else none)
  else if planes ∧ k.borrow.isSome then some (.wait x.s (.array 1))
  else none

/-- The same for the words that use the planes themselves: they wait for an exchange that is under way (R202). WTAB never
blocks, and WWAIT applies R190 at once (R199, R203). -/
def swapGate (x : Exec) : Option Eff :=
  (matGate x true).or (if (coreD x.s x.b.core).swap then some (.wait x.s .swap) else none)

/-- The trap of a held cause (R460). -/
def heldTrap (x : Exec) (p : Nat) (q : Plane) : TrapInfo :=
  match q.held with
  | some h => { wordTrap x h.cause with
      kind := 1, src := 4, sidx := p, addr := q.recVA, code := h.code, scause := h.scause, sdepth := h.sdepth }
  | none => wordTrap x .wFormat

/-- The slot that loads a plane (R195): a part of it issues the word. -/
def isLoader (b : Batch) (l : WLoad) : Bool := l.loader == some (b.crew, b.row)

/-! ### Progress of a load (R198 to R201) -/

/-- The header of a load, once its first line has arrived. -/
def loadHeader (l : WLoad) : Option Wtr :=
  match l.lines with
  | [] => none
  | h :: _ => match wtrHeader h with
    | .ok w => some w
    | .error _ => none

/-- The number of tables that have arrived without a gap. -/
def tablesIn (ts : List WTabReq) : Nat := (ts.takeWhile (·.arrived)).length

/-- When the payload of codebook block `n` was here, once it is: with the line of its last byte. -/
def blockAt (l : WLoad) (w : Wtr) (n : Nat) : Option Nat := l.lineAt[(secOff w 0 + 16 * (w.fmt - 2) * (n + 1) - 1) / 128]?

/-- The decompressor from block `n` on, free at `free` (R198, R200): each block takes one ac once its payload and its table
are here, and waits for the table after it has been reached. The ac it has stalled by `clock`, the block at which it then
stalls, and how many blocks it has expanded. -/
def expandFrom (clock : Nat) (l : WLoad) (w : Wtr) : Nat → Nat → Nat → Nat → Nat × Option Nat × Nat
  | 0, n, _, stall => (stall, none, n)
  | fuel + 1, n, free, stall =>
    match blockAt l w n with
    | none => (stall, none, n)
    | some p =>
      let reached := max p free
      if clock < reached then (stall, none, n)
      else match (l.tables[n]?).filter (·.arrived) with
        | none => (stall + (clock - reached), some n, n)
        | some t =>
          let done := max reached t.at_
          expandFrom clock l w fuel (n + 1) (done + 1) (stall + (min done clock - reached))

/-- The decompressor's progress at an ac. -/
def expansion (clock : Nat) (l : WLoad) : Nat × Option Nat × Nat :=
  match loadHeader l with
  | none => (0, none, 0)
  | some w => if 4 ≤ w.fmt then expandFrom clock l w w.ncols 0 0 0 else (0, none, 0)

/-- STALL of a load, saturating (R200, Table 07-8). -/
def loadStall (clock : Nat) (l : WLoad) : Nat :=
  if l.held.isSome then l.stall else min (2 ^ 24 - 1) (expansion clock l).1

/-- A fault ends a load's reads: its stall ends with it (R197). -/
def failLoad (clock : Nat) (l : WLoad) (h : Held) : WLoad := { l with stall := loadStall clock l, held := some h }

/-- The loader waits for a table that it has not appended yet (R201). -/
def tableMissing (clock : Nat) (l : WLoad) : Bool :=
  match (expansion clock l).2.1 with
  | some n => decide (l.tables.length ≤ n)
  | none => false

/-- What a word that names plane `p` meets (R190, R201); none when the plane is READY. -/
def planeWait (x : Exec) (p : Nat) (wwait : Bool) : Option Eff :=
  let k := coreD x.s x.b.core
  let q := planeOf k p
  match q.state with
  | 0 => some (.trap x.s (wordTrap x .wFormat))
  | 1 =>
    (match k.load with
    | some l => if isLoader x.b l && tableMissing x.s.clock l then some (.trap x.s (wordTrap x .wtabMissing)) else some (.wait x.s (.plane p wwait))
    | none => some (.wait x.s (.plane p wwait)))
  | 2 =>
    -- parity found when the word reads the plane: the plane is FAULTED (Table 10-2, R286)
    if x.s.upsets.contains (.plane x.b.core (if k.swap then 1 - p else p)) then
      let q := { q with state := 3, held := some { cause := .eccUeWstack } }
      some (.trap (countUE (modCore x.s x.b.core fun k => setPlane k p q) x.b.core .eccUeWstack) (heldTrap x p q))
    else none
  | _ => some (.trap x.s (heldTrap x p q))

/-! ### WLOAD, WTAB, WWAIT, WSWAP -/

/-- The cause is that of a column without live banks: a WLOAD of it reads horizontally, and the load faults (R197, R480). -/
def emptyColumn (s : State) (c : Cause) (pa : Nat) : Bool :=
  c == .wstackRemap && (match paKind pa with
    | .stack k => colBanks s k == 0
    | _ => false)

/-- The issue checks of R195 and R199 on an address and the byte to translate: `load` for a WLOAD, which an empty column does not
stop. -/
def wIssue (x : Exec) (load : Bool) (va align first : Nat) : Except TrapInfo State :=
  if 2 ^ 54 ≤ va then .error (addrTrap x .pageAbsent va)
  else if va % align ≠ 0 then .error (addrTrap x .align va)
  else if inScratchWindow first then
    match scratchLoc x.s x.b.crew (first % 2 ^ 32) 1 with
    | .error c => .error (addrTrap x c first)
    | .ok _ => .ok x.s
  else
    let (s, w) := translate x.s x.b.core x.b.ctx first
    match w with
    | none => .error (addrTrap x .pageAbsent first)
    | some l => match permFault s x.b.ctx x.b.priv .load first l with
      | some c => if load && emptyColumn s c (leafAddr l first) then .ok s else .error (addrTrap x c first)
      | none => if leafChk l.e then .error (addrTrap x .pageAbsent first) else .ok s

/-- A load into plane `p` of a core begins: what the plane and the weight buffer held is replaced, with its errors (R285, R286). -/
def freshPlane (s : State) (core p : Nat) : State :=
  clearUpsets s fun u => match u with
    | .plane c q => c == core && q == p
    | .buffer c _ => c == core
    | _ => false

/-- The other parts of a batch's slot: the loader is the slot (R195). -/
def otherParts (s : State) (b : Batch) : List Batch := (slotParts s b.core b.slot).filter fun c => c.id != b.id

/-- The home at which an earlier store of another part of the loader waits. -/
def loaderWait (s : State) (b : Batch) : Option Block := (otherParts s b).findSome? (storeWait s)

/-- The reads of a load come after every earlier access of its loader (R195): those of the issuing batch have been performed at its
park, and those of the other parts are performed now. -/
def orderLoader (s : State) (b : Batch) : State :=
  (otherParts s b).foldl (fun s c => modBatch (drainStores s c.id) c.id fun c => { c with loads := [] }) s

def execWload (w : FWord) (s : State) : Host.Outcome State Fault Refusal :=
  let sp := { matSpec 0xD0 w .wp ve .z .z (w.m = 0 && w.d.toNat == 1) with closes := true, uni := [.a] }
  runF s w sp fun x =>
    match swapGate x with
    | some e => e
    | none =>
      let va := (uni64 x .a).toNat
      match wIssue x true va 128 va with
      | .error t => .trap x.s t
      | .ok s =>
        if (coreD s x.b.core).planeS.state = 1 then .wait s (.array 0)
        else match loaderWait s x.b with
        | some k => .wait s k
        | none =>
          let s := orderLoader s x.b
          let l : WLoad := {
            target := 1, loader := some (x.b.crew, x.b.row), ctx := x.b.ctx, depth := accessDepth s x.b.crew
            cls := crewClass s x.b.crew, recVA := va }
          let s := modCore (freshPlane s x.b.core 1) x.b.core fun k => { k with
            load := some l, planeS := { k.planeS with state := 1, recVA := va, ctx := x.b.ctx, held := none } }
          .done s [] [] []

/-- The agent of a load: it reads as the loader's core (R195, R494), a fill's at its record's current class (R393). -/
def loadAgent (s : State) (core : Nat) (l : WLoad) : Agent :=
  let crew := l.loader.map (·.1)
  { ctx := l.ctx, depth := l.depth, chk := .pageAbsent, crew := crew, core := some core, who := .load core
    cls := match crew with
      | some u => if (crewD s u).fill.isSome then crewClass s u else l.cls
      | none => l.cls }

def execWtab (w : FWord) (s : State) : Host.Outcome State Fault Refusal :=
  let sp := { matSpec 0xD2 w .z ve .z .z (w.m = 0) with closes := true, uni := [.a] }
  runF s w sp fun x =>
    match matGate x true with
    | some e => e
    | none =>
      let va := (uni64 x .a).toNat
      let blk := va / 32 * 32
      match wIssue x false va 8 blk with
      | .error t => .trap x.s t
      | .ok s =>
        match (coreD s x.b.core).load with
        | none => .trap s (wordTrap x .wFormat)
        | some l =>
          let bad : Option TrapInfo :=
            if !isLoader x.b l then some (wordTrap x .wFormat)
            else match loadHeader l with
              | none => none
              | some h =>
                if h.fmt < 4 ∨ h.ncols ≤ l.tables.length then some (wordTrap x .wFormat)
                else if va % wtrTable h.fmt ≠ 0 then some (addrTrap x .align va) else none
          match bad with
          | some t => .trap s t
          | none =>
            -- the block is read at issue where nothing stands in its way, else when it arrives
            let (s, got) := match engineRead s (loadAgent s x.b.core l) blk 32 with
              | .ok s bs => (s, some bs)
              | .bad s _ _ _ => (s, none)
              | .wait s _ => (s, none)
            .done (modCore s x.b.core fun k => { k with
              load := k.load.map fun l => { l with tables := l.tables ++ [⟨va, got, false, 0⟩] } }) [] [] []

def execWwait (w : FWord) (s : State) : Host.Outcome State Fault Refusal :=
  runF s w (matSpec 0xD3 w .z .wp .z .z (w.m = 0)) fun x =>
    match (matGate x true).or (planeWait x w.a.toNat true) with
    | some e => e
    | none => .res [] [] []

/-- WSWAP: with wS READY the exchange takes effect for every later word; the planes change places when the passes
before it have left (R202). -/
def execWswap (w : FWord) (s : State) : Host.Outcome State Fault Refusal :=
  runF s w { matSpec 0xD1 w .z .z .z .z (w.m = 0) with closes := true } fun x =>
    match (swapGate x).or (planeWait x 1 false) with
    | some e => e
    | none =>
      let close (p : Pass) : Pass := { p with closed := true }
      .done (modCore x.s x.b.core fun k => { k with swap := true, passes := k.passes.map close }) [] [] []

/-! ### Quarters (R205 to R209) -/

/-- The fields of a Scratch Layout Word (R204). -/
structure Slw where
  off : Nat
  fmt : Nat
  stride0 : Nat
  stride1 : Nat
  stride2 : Nat
  bank : Nat
deriving DecidableEq, Repr

def slwOf (x : Exec) : Slw where
  off := (uniVal x .b 0).toNat % 2 ^ 21
  fmt := (uniVal x .b 0).toNat / 2 ^ 21 % 8
  stride0 := (uniVal x .b 1).toNat % 65536
  stride1 := (uniVal x .b 1).toNat / 65536
  stride2 := (uniVal x .b 2).toNat % 65536
  bank := (uniVal x .b 2).toNat / 65536 % 16

/-- The checks that R206 and R216 make of the word: ALIGN, then W_FORMAT. -/
def slwFault (x : Exec) (l : Slw) : Option Cause :=
  if l.off % 16 ≠ 0 then some .align
  else if 2 < l.fmt ∨ (uniVal x .b 0).toNat / 2 ^ 24 ≠ 0 ∨ (uniVal x .b 2).toNat / 2 ^ 20 ≠ 0 then some .wFormat
  else none

/-- The logical offset of row `r` at place `k` (R206, R216). -/
def slwOffset (l : Slw) (r k e : Nat) : Nat :=
  l.off + 16 * (l.stride1 * r + l.stride2 * (k / 32) + l.stride0 * (k % 32 / 8)) + e * (k % 8)

/-- The quarter words of an MMQ: quarter, tile offset, row base (R205). -/
def quarterWords (x : Exec) : List (Nat × Nat × Nat) :=
  (List.range 4).filterMap fun q =>
    match quarterLanes x.act q with
    | [] => none
    | l :: _ => let v := (lane x .c 0 l).toNat; some (q, v % 64, v / 256 % 65536)

def tileOf (s : State) (crew t : Nat) : Option Tile := (crewD s crew).tiles[t]?

/-- A tile as a batch sees it (R213). -/
def tileView (b : Batch) (t : Tile) : List (Nat × W32) := if t.owner = some b.id then t.pend else t.com

/-- A tile that may be written: in range and not pending for another batch (R213). -/
def tileWritable (s : State) (b : Batch) (t : Nat) : Bool :=
  match tileOf s b.crew t with
  | none => false
  | some q => q.owner.isNone || q.owner == some b.id

def modTile (s : State) (crew t : Nat) (f : Tile → Tile) : State :=
  modCrew s crew fun c => { c with tiles := listMod c.tiles t f }

/-- The errors of a committed value are in the pending one that starts from it. -/
def spreadErrors (s : State) (crew t : Nat) : State :=
  if s.upsets.isEmpty then s
  else { s with upsets := s.upsets.flatMap fun u => match u with
    | .acc c i false p => if c = crew ∧ i = t then [u, .acc c i true p] else [u]
    | u => [u] }

/-- The first write of a region starts the pending value from the committed one (R210). -/
def startPending (s : State) (b : Batch) (t : Nat) : State :=
  modTile (if (tileOf s b.crew t).any fun q => q.owner != some b.id then spreadErrors s b.crew t else s) b.crew t fun q =>
    if q.owner = some b.id then q else { q with pend := q.com, owner := some b.id }

/-- Whether quarters of the batch into a tile have issued and not completed (R209). -/
def tileBusy (s : State) (b : Batch) (t : Nat) : Bool :=
  (coreD s b.core).passes.any fun p => p.quarters.any fun q => q.batch == b.id && q.tile == t

/-- Where the activations of a quarter lie: of each row the logical rows that exist and are kept, where the bank mode places
them. -/
def quarterPlaces (l : Slw) (p : Plane) (rb : Nat) : List (List (Nat × Nat)) :=
  let kept := keptRows p
  (List.range 8).map fun r => kept.map fun k => (k, scratchPlace (slwOffset l (rb + r) k (actBytes l.fmt)) l.bank)

/-- An MMQ's quarters read their activations after the earlier stores of scratch of the batch and before the later ones (R209): with
the word, or, where the hardware holds the batch's stores, in their order and by the end of the passes (R318; log 34). The number
of the reads still to come, where they are. -/
def orderReads (x : Exec) : State × Option Nat :=
  if x.b.late then
    let (t, s) := fresh x.s
    let mark : StoreSrc := ⟨liveLanes x.b, [], 0, .scratch x.b.crew 0, s.clock, some t⟩
    (modBatch s x.b.id fun c => { c with stores := c.stores ++ [mark] }, some t)
  else (settleScratch x.s x.b.id, none)

/-- A read byte outside the crew's scratch (R206). -/
def quarterOut (x : Exec) (l : Slw) (p : Plane) (rb : Nat) : Bool :=
  let e := actBytes l.fmt
  let lim := (crewD x.s x.b.crew).scratchBytes
  let kept := keptRows p
  (List.range 8).any fun r => kept.any fun k => decide (lim < slwOffset l (rb + r) k e + e)

/-- A pass holds a quarter of the same batch into the same tile. -/
def sharesTile (q : Quarter) (p : Pass) : Bool := p.quarters.any fun r => r.batch == q.batch && r.tile == q.tile

/-- A quarter joins the open pass of its plane, before the end of the pass's fourth ac, or opens one; a full pass closes (R208). It
joins no pass before one that holds an earlier quarter of its batch into its tile, which adds first (R209; log 99). -/
def joinPass (clock plane : Nat) (q : Quarter) : List Pass → List Pass
  | [] => [⟨plane, clock, false, [q]⟩]
  | p :: ps =>
    if p.plane = plane ∧ !p.closed ∧ clock < p.opened + 4 ∧ p.quarters.length < 4 ∧ !ps.any (sharesTile q) then
      { p with quarters := p.quarters ++ [q], closed := decide (p.quarters.length = 3) } :: ps
    else p :: joinPass clock plane q ps

/-- Whether a tile's element pairs hold an error that a read of them by this batch meets (Table 10-2): in the pending value where
it is the batch's, else in the committed one (R213). -/
def accBad (x : Exec) (t : Nat) (pair : Nat → Bool) : Bool :=
  let mine := (tileOf x.s x.b.crew t).any fun q => q.owner == some x.b.id
  x.s.upsets.any fun u => match u with
    | .acc c i pend p => c == x.b.crew && i == t && pend == mine && pair p
    | _ => false

/-- The errors of the pairs of a pending value that a write replaces whole end (R286). -/
def clearAcc (s : State) (crew t : Nat) (pair : Nat → Bool) : State :=
  clearUpsets s fun u => match u with
    | .acc c i true p => c == crew && i == t && pair p
    | _ => false

/-- A write to a tile begins: its pending value stands, and the pairs that the write replaces whole hold no error. -/
def beginWrite (s : State) (b : Batch) (t : Nat) (whole : Nat → Bool) : State := clearAcc (startPending s b t) b.crew t whole

/-- An error in a scratch word that a quarter reads (R286). -/
def quarterEcc (x : Exec) (l : Slw) (p : Plane) (rb : Nat) : Bool :=
  let e := actBytes l.fmt
  let kept := keptRows p
  (List.range 8).any fun r => kept.any fun k =>
    scratchBad x.s .load x.b.crew (scratchPlace (slwOffset l (rb + r) k e) l.bank) e

/-- What an MMQ meets in its activations and, where it accumulates, in its tiles. -/
def mmqBad (x : Exec) (w : FWord) (l : Slw) (p : Plane) (qs : List (Nat × Nat × Nat)) : Option Cause :=
  if x.s.upsets.isEmpty then none
  else if qs.any fun q => quarterEcc x l p q.2.2 then some .eccUeScratch
  else if !w.m.getLsbD 0 && qs.any fun q => accBad x (w.d.toNat + q.2.1) fun _ => true then some .eccUeAcc
  else none

/-- The quarters of a core that have issued and not completed (R208). -/
def coreQuarters (s : State) (core : Nat) : Nat := ((coreD s core).passes.map fun p => p.quarters.length).sum

def execMmq (w : FWord) (s : State) : Host.Outcome State Fault Refusal :=
  let sp := { matSpec 0xD4 w .acc .wp (.v 3 1) v1 (w.m.toNat < 2) with uni := [.b], quarter := [.c] }
  runF s w sp fun x =>
    match swapGate x with
    | some e => e
    | none =>
      let l := slwOf x
      let qs := quarterWords x
      let k := coreD x.s x.b.core
      let p := planeOf k w.a.toNat
      match slwFault x l with
      | some c => .trap x.s (wordTrap x c)
      | none =>
        if p.state = 2 ∧ qs.any fun q => quarterOut x l p q.2.2 then .trap x.s (wordTrap x .scratchRange)
        else if qs.any fun q => !tileWritable x.s x.b (w.d.toNat + q.2.1) then .trap x.s (wordTrap x .accRange)
        else match planeWait x w.a.toNat false with
          | some e => e
          | none =>
            if 32 < coreQuarters x.s x.b.core + qs.length then .wait x.s (.array 3)
            else match mmqBad x w l p qs with
            | some c => .trap x.s (wordTrap x c)
            | none =>
              let (s, late) := orderReads x
              let issue (s : State) (q : Nat × Nat × Nat) : State :=
                let t := w.d.toNat + q.2.1
                let ps := quarterPlaces l p q.2.2
                let qr : Quarter := {
                  batch := x.b.id, crew := x.b.crew, tile := t, zero := w.m.getLsbD 0, fmt := l.fmt
                  rows := if late.isSome then [] else readPlaces s x.b.crew l.fmt ps, weights := p
                  reads := late, places := if late.isSome then ps else [] }
                modCore (beginWrite s x.b t fun _ => w.m.getLsbD 0) x.b.core fun k => { k with
                  passes := joinPass s.clock w.a.toNat qr k.passes }
              .done (qs.foldl issue s) [] [] []

/-! ### Accumulator words (R214) -/

def execAccz (w : FWord) (s : State) : Host.Outcome State Fault Refusal :=
  runF s w (matSpec 0xD5 w .acc .z .z .z (w.m = 0)) fun x =>
    let t := w.d.toNat
    match matGate x false with
    | some e => e
    | none =>
      if !tileWritable x.s x.b t then .trap x.s (wordTrap x .accRange)
      else if tileBusy x.s x.b t then .wait x.s (.tiles [t])
      else .done (modTile (beginWrite x.s x.b t fun _ => true) x.b.crew t fun q =>
        { q with pend := [] }) [] [] []

/-- Element 32·c + L of a tile. -/
def tileElem (c l : Nat) : Nat := 32 * c + l

def execAccrd (w : FWord) (s : State) : Host.Outcome State Fault Refusal :=
  runF s w { matSpec 0xD6 w v1 .acc v1 .z (w.m = 0) with var := true, uni := [.b] } fun x =>
    let t := w.a.toNat
    let c := (uniVal x .b 0).toNat
    match matGate x false with
    | some e => e
    | none =>
      match tileOf x.s x.b.crew t with
      | none => .trap x.s (wordTrap x .accRange)
      | some q =>
        if 15 < c then .trap x.s (wordTrap x .accRange)
        else if tileBusy x.s x.b t then .wait x.s (.tiles [t])
        else if accBad x t fun p => x.act.any fun l => p == tileElem c l / 2 then .trap x.s (wordTrap x .eccUeAcc)
        else .res [(nameOf x .d 0, laneResult x false fun l => kvGetD (tileView x.b q) (tileElem c l) 0)] [] []

def execAccwr (w : FWord) (s : State) : Host.Outcome State Fault Refusal :=
  runF s w { matSpec 0xD7 w .acc v1 v1 .z (w.m = 0) with uni := [.b] } fun x =>
    let t := w.d.toNat
    let c := (uniVal x .b 0).toNat
    match matGate x false with
    | some e => e
    | none =>
      if 15 < c ∨ !tileWritable x.s x.b t then .trap x.s (wordTrap x .accRange)
      else if tileBusy x.s x.b t then .wait x.s (.tiles [t])
      else
        let whole (p : Nat) : Bool := (List.range 2).all fun i => x.act.any fun l => tileElem c l == 2 * p + i
        .done (modTile (beginWrite x.s x.b t whole) x.b.crew t fun q =>
        { q with pend := x.act.foldl (fun m l => kvPut 0 m (tileElem c l) (lane x .a 0 l)) q.pend }) [] [] []

/-! ### DRAIN (R215 to R218) -/

/-- Adds to the drain status word (Table 07-7). -/
def countDrain (s : State) (crew n : Nat) (miss : Bool) : State :=
  modCrew s crew fun c =>
    let st := c.drainStat.toNat
    let sat := min 0xFFFF (st % 65536 + n)
    { c with drainStat := BitVec.ofNat 32 (sat + (if miss ∨ 65536 ≤ st then 65536 else 0)) }

/-- The rows of a drained tile as bytes, with the counts of R28 and R29. -/
def drainRows (f bs : Nat) (tile : List (Nat × W32)) : List (List Byte) × Nat × Bool :=
  let rows := (List.range 8).map fun r =>
    let xs := (List.range 64).map fun n => kvGetD tile (64 * r + n) 0
    if f = 3 then drainRow4 bs xs
    else
      let es := xs.map (drainElem f)
      let n := es.countP fun e => e.2
      (es.flatMap fun e => leBytes (if f = 0 then 4 else 2) e.1, n, n != 0)
  (rows.map (·.1), (rows.map fun r => r.2.1).sum, rows.any fun r => r.2.2)

/-- Bytes of an element of formats 0 to 2. -/
def drainBytes (f : Nat) : Nat := if f = 0 then 4 else 2

/-- The scratch places of a drained row: logical offset checked, physical offset written, first byte in the row image,
byte count (R216, R275). -/
def drainPlaces (f : Nat) (l : Slw) (r : Nat) : List (Nat × Nat × Nat × Nat) :=
  if f = 3 then let o := l.off + 16 * l.stride1 * r; (List.range 5).map fun i => (o + 8 * i, o + 8 * i, 8 * i, 8)
  else (List.range 64).map fun n =>
    let e := drainBytes f
    let o := slwOffset l r n e
    (o, scratchPlace o l.bank, e * n, e)

/-- The end of a DRAIN: .Z clears the tile as a pending write, and the counts are added. -/
def drainEnd (x : Exec) (w : FWord) (s : State) (n : Nat) (miss : Bool) : Eff :=
  let t := w.a.toNat
  let s := if w.m.getLsbD 3 then
      modTile (beginWrite s x.b t fun _ => true) x.b.crew t fun q => { q with pend := [] }
    else s
  .done (countDrain s x.b.crew n miss) [] [] []

/-- The 8-byte pieces of a global drain: address, row, first byte in the row image. -/
def drainPieces (f base pitch : Nat) : List (Nat × Nat × Nat) :=
  let len := if f = 3 then 40 else 64 * drainBytes f
  (List.range 8).flatMap fun r => (List.range (len / 8)).map fun i => ((base + pitch * r + 8 * i) % 2 ^ 64, r, 8 * i)

/-- A global drain's checks (R216 step 4), as stores of pieces in place of lanes. -/
def drainCheck (x : Exec) (ps : List (Nat × Nat × Nat)) : Acc :=
  let y := { x with act := List.range ps.length }
  let addr (i : Nat) : Nat := (ps.getD i (0, 0, 0)).1
  match checkAddrs y .store 8 false addr with
  | .ok s locs => match checkRaces y s 8 false false addr locs with
    | .trap s t => .trap s { t with lanes := 0 }
    | r => r
  | .trap s t => .trap s { t with lanes := 0 }
  | r => r

def execDrain (w : FWord) (s : State) : Host.Outcome State Fault Refusal :=
  let f := w.m.toNat % 4
  let gl := w.m.getLsbD 2
  let colour := w.m.toNat / 16 % 8
  let sp := { matSpec 0xD8 w .z .acc (.v 3 (if gl then 2 else 1)) (if f = 3 then v1 else .z)
      (w.m.toNat < 128 && (gl || colour == 0)) with
    closes := gl, uni := if f = 3 then [.b, .c] else [.b] }
  runF s w sp fun x =>
    let t := w.a.toNat
    match matGate x false with
    | some e => e
    | none =>
      match tileOf x.s x.b.crew t with
      | none => .trap x.s (wordTrap x .accRange)
      | some q =>
        let bs := if f = 3 then bandScale (uniVal x .c 0) else some 1
        let rows (n : Nat) : List (List Byte) × Nat × Bool := drainRows f n (tileView x.b q)
        if w.m.getLsbD 3 ∧ !tileWritable x.s x.b t then .trap x.s (wordTrap x .accRange)
        else if gl then
          let base := (uni64 x .b).toNat
          let pitch := (uniVal x .b 2).toNat
          if base % 16 ≠ 0 ∨ pitch % 16 ≠ 0 then .trap x.s (wordTrap x .align)
          else
            let ps := drainPieces f base pitch
            match drainCheck x ps with
            | .trap s t => .trap s t
            | .wait s k => .wait s k
            | .ok s locs =>
              match bs with
              | none => .trap s (wordTrap x .drainFormat)
              | some n =>
                if tileBusy x.s x.b t then .wait s (.tiles [t])
                else if accBad x t fun _ => true then .trap s (wordTrap x .eccUeAcc)
                else
                  let (img, cnt, miss) := rows n
                  let s := placeStores s x.b colour (locs.map fun p =>
                    let (_, r, i) := ps.getD p.1 (0, 0, 0)
                    (liveLanes x.b, ((img.getD r []).drop i).take 8, p.2))
                  drainEnd x w s cnt miss
        else
          let l := slwOf x
          match slwFault x l with
          | some c => .trap x.s (wordTrap x c)
          | none =>
            let lim := (crewD x.s x.b.crew).scratchBytes
            let places := (List.range 8).flatMap fun r => (drainPlaces f l r).map fun p => (r, p)
            if places.any fun p => decide (lim < p.2.1 + p.2.2.2.2) then .trap x.s (wordTrap x .scratchRange)
            else match bs with
              | none => .trap x.s (wordTrap x .drainFormat)
              | some n =>
                let ranges := places.map fun p => (p.2.2.1, p.2.2.2.2)
                if tileBusy x.s x.b t then .wait x.s (.tiles [t])
                else if accBad x t fun _ => true then .trap x.s (wordTrap x .eccUeAcc)
                else if partScratch x.s x.b.crew ranges then .trap x.s (wordTrap x .eccUeScratch)
                else
                  let (img, cnt, miss) := rows n
                  let s := coverScratch x.s x.b.crew ranges
                  -- stores that together end an error are performed with the word
                  let b := { x.b with late := x.b.late && s.upsets.length == x.s.upsets.length }
                  let s := placeStores s b 0 (places.map fun p =>
                    (liveLanes b, ((img.getD p.1 []).drop p.2.2.2.1).take p.2.2.2.2, .scratch b.crew p.2.2.1))
                  drainEnd x w s cnt miss

def execDrainst (w : FWord) (s : State) : Host.Outcome State Fault Refusal :=
  runF s w { matSpec 0xD9 w v1 v1 .z .z (w.m = 0) with ephOk := true, uni := [.a] } fun x =>
    let old := (crewD x.s x.b.crew).drainStat
    let a := uniVal x .a 0
    let clr : W32 := (if a.getLsbD 0 then 0xFFFF else 0) ||| (if a.getLsbD 16 then 0x10000 else 0)
    .done (modCrew x.s x.b.crew fun c => { c with drainStat := old &&& ~~~clr }) [(nameOf x .d 0, .u old)] [] []

/-! ### Status (R220, R221) -/

/-- The words of Table 07-8; STALL counts the ac of a stall under way. While a plane is LOADING, PATH and RATIO4 are still those of
the load before, where STALL is the running one's: which is "the last load" the table does not say, and that is the model's choice
(log 112). -/
def planeWords (s : State) (k : Core) (q : Plane) : List W32 :=
  let stall := if q.state = 1 then ((k.load.map (loadStall s.clock)).getD q.stall) else q.stall
  let cause := match q.held with
    | some h => if q.state = 3 then h.cause.code else 0xFF
    | none => 0xFF
  [ BitVec.ofNat 32 (q.state + 4 * q.fmt + 64 * q.kseg + 2048 * q.ncols + 2 ^ 18 * q.cgrp + 2 ^ 20 * q.path +
      (if q.ratio4 then 2 ^ 21 else 0))
  , BitVec.ofNat 32 (stall + 2 ^ 24 * cause) ]

/-- WSTAT (R220): the planes of the core as they are, also while a fill uses them (R390; log 85). -/
def execWstat (w : FWord) (s : State) : Host.Outcome State Fault Refusal :=
  runF s w { matSpec 0xDA w ve .wp .z .z (w.m = 0) with ephOk := true } fun x =>
    match matGate x false with
    | some e => e
    | none =>
      let k := coreD x.s x.b.core
      .res (uRegs x (planeWords x.s k (planeOf k w.a.toNat))) [] []

/-- The working pads of a column, in increasing order (R483). -/
def workingPads (s : State) (c : Nat) : List Nat := (List.range 560).filter fun p => !(kvGetD s.padsBad c 0).testBit p

/-- The data pads of a column (R483): the lowest 512 working pads at 2:1, the lowest 256 at 4:1, none where its bus is off. -/
def dataPads (s : State) (c : Nat) : List Nat :=
  let w := workingPads s c
  if 512 ≤ w.length then w.take 512 else if 256 ≤ w.length then w.take 256 else []

/-- A column's bus runs at 4:1. -/
def ratio4 (s : State) (c : Nat) : Bool := (dataPads s c).length == 256

/-- WBMAP's word (R221). -/
def wbmapWord (s : State) (i : Nat) : W32 :=
  if i < 512 then
    BitVec.ofNat 32 ((List.range 32).foldl (fun n j =>
      let bank := 32 * i + j
      n + (if (kvGetD s.bankDead (bank / 128) 0).testBit (bank % 128) then 0 else 2 ^ j)) 0)
  else if i < 640 then
    let c := i - 512
    BitVec.ofNat 32 (colBanks s c + (if ratio4 s c then 256 else 0) +
      (if s.remaps.any fun r => r.col == c && r.running then 512 else 0))
  else 0

def execWbmap (w : FWord) (s : State) : Host.Outcome State Fault Refusal :=
  runF s w { matSpec 0xDB w v1 v1 .z .z (w.m = 0) with ephOk := true, uni := [.a] } fun x =>
    .res [(nameOf x .d 0, .u (wbmapWord x.s (uniVal x .a 0).toNat))] [] []

/-! ### The hardware's steps -/

def modLoad (s : State) (core : Nat) (f : WLoad → WLoad) : State :=
  modCore s core fun k => { k with load := k.load.map f }

/-- A byte at a VA lies in the core's own column of the weight stack, which has a live bank (R196, R480). -/
def inColumn (s : State) (core ctx va : Nat) : Bool :=
  match walk s ctx va with
  | some l => leafKind l.e == 1 && paKind (leafAddr l va) == .stack core && colBanks s core != 0
  | none => false

/-- Every byte of a load's record, as far as its length is known, lies in the core's own column (R196): a page is asked at its
first line. -/
def recordInColumn (s : State) (core : Nat) (l : WLoad) : Bool :=
  ((List.range (max 1 (l.total.getD 1))).filter fun i => i == 0 || (l.recVA + 128 * i) % 4096 == 0).all fun i =>
    inColumn s core l.ctx (l.recVA + 128 * i)

/-- A load reads its record over the vertical bus (R196, R483). -/
def readsVertical (s : State) (core : Nat) (l : WLoad) : Bool := recordInColumn s core l && !(dataPads s core).isEmpty

/-- A failure of a load (R197), with the part of a fill record. -/
def heldOf (c : Cause) (f : Option Fill) : Held :=
  match f with
  | some r => { cause := c, code := r.code, scause := r.cause, sdepth := r.depth }
  | none => { cause := c }

/-- The header's checks, and those of the tables listed before it (R191, R199). -/
def loadDecoded (l : WLoad) : WLoad :=
  match l.lines with
  | [h] =>
    (match wtrHeader h with
    | .error c => { l with held := some { cause := c } }
    | .ok w =>
      let bad : Bool := !l.tables.isEmpty && (decide (w.fmt < 4) || decide (w.ncols < l.tables.length) ||
        l.tables.any fun t => decide (t.va % wtrTable w.fmt ≠ 0))
      { l with
        total := some ((wtrBytes w + 127) / 128)
        held := if bad then some { cause := .wFormat } else l.held })
  | _ => l

/-- A page-table read outside the ranges where tables lie, in a reload at a restore, is fatal to the cluster's crew there
(R432, R461). -/
def postWalk (s : State) (core : Nat) (l : WLoad) (va : Nat) : State :=
  if l.atRestore && badTable s l.ctx va then
    let crew := ((s.crews.find? fun c => c.core == core && some c.cluster == (coreD s core).array).map (·.uid)).getD 0
    { s with posted := s.posted ++ [(l.ctx, crew, Cause.code .pageAbsent)] }
  else s

/-- A load still has to read a 128-byte line: for a table but `idx`, or as a line of its record. -/
def lineWanted (l : WLoad) (line : Nat) (idx : Option Nat) : Bool :=
  (l.tables.zipIdx.any fun t => !t.1.arrived && t.1.block.isNone && some t.2 != idx && t.1.va / 128 * 128 == line) ||
    (idx.isSome && decide (l.recVA + 128 * l.lines.length ≤ line) && decide (line < l.recVA + 128 * l.total.getD (l.lines.length + 1)))

/-- A read of a load at a VA came back, of table `idx` or of its record: the access is parked no longer, and its line stays for the
others that share it (R384). -/
def readDone (s : State) (core va : Nat) (idx : Option Nat) : State :=
  if (coreD s core).load.any fun l => lineWanted l (va / 128 * 128) idx then s
  else modParks s (.load core) fun ps => ps.filter fun p => p.line != va / 128 * 128

/-- A load that has read a line, or failed to: its path and its ratio (R196, R483, R484, Table 07-8). A record that does not all
lie in the column is read horizontally; one whose bus has failed goes on horizontally, and 4:1 beats before count. -/
def notePath (s : State) (core : Nat) (l : WLoad) : WLoad :=
  let here := recordInColumn s core l
  let vert := here && !(dataPads s core).isEmpty
  { l with
    horizontal := l.horizontal || !vert
    ratio4 := here && (l.ratio4 || (vert && ratio4 s core)) }

/-- A load that reads horizontally is waited for by no remap step (R223). -/
def leaveReaders (s : State) (core : Nat) : State :=
  if (coreD s core).load.any (·.horizontal) then
    endReads s core
  else s

/-- The record's last line is here: a record that ends inside a view element of a transform page is ATTR_SPAN (R402). -/
def endCheck (s : State) (core : Nat) (l : WLoad) : WLoad :=
  if l.held.isSome ∨ l.total ≠ some l.lines.length then l
  else match (loadHeader l).bind fun w => spanFault s (loadAgent s core l) .load l.recVA (wtrBytes w) with
    | some c => failLoad s.clock l { cause := c }
    | none => l

/-- The next line of a record arrives (R196 to R200). -/
def execRecordLineArrival (core : Nat) (s : State) : Host.Outcome State Fault Refusal :=
  match (coreD s core).load with
  | none => .next s
  | some l =>
    if l.held.isSome ∨ l.total = some l.lines.length then .next s
    else
      let va := l.recVA + 128 * l.lines.length
      -- a load that read the column as the step began goes on from the old layout
      let skip := s.remaps.any fun r => r.running && r.col == core && r.readers.contains core && inColumn s core l.ctx va
      match engineRead s { loadAgent s core l with skip := skip, vert := readsVertical s core l && !l.horizontal } va 128 with
      | .wait s _ => .next s
      | .bad s c f _ =>
        .next (leaveReaders (modLoad (postWalk (readDone s core va none) core l va) core fun l =>
          failLoad s.clock (notePath s core l) (heldOf c f)) core)
      | .ok s bs =>
        .next (leaveReaders (modLoad (readDone s core va none) core fun l =>
          notePath s core (endCheck s core (loadDecoded { l with lines := l.lines ++ [bs], lineAt := l.lineAt ++ [s.clock] }))) core)

/-- The block of a table arrives (R199, R200). -/
def execWtabTableArrival (core idx : Nat) (s : State) : Host.Outcome State Fault Refusal :=
  match (coreD s core).load with
  | none => .next s
  | some l =>
    match l.tables[idx]? with
    | none => .next s
    | some t =>
      if t.arrived then .next s
      else
        let land (s : State) (bs : List Byte) : State := modLoad s core fun l =>
          { l with tables := listMod l.tables idx fun t => { t with block := some bs, arrived := true, at_ := s.clock } }
        let va := t.va / 32 * 32
        match t.block with
        | some bs => .next (land s bs)
        | none => match engineRead s (loadAgent s core l) va 32 with
          | .wait s _ => .next s
          | .bad s c f _ => .next (leaveReaders (modLoad (postWalk (readDone s core va (some idx)) core l va) core fun l =>
              failLoad s.clock (notePath s core l) (heldOf c f)) core)
          | .ok s bs => .next (land (readDone s core va (some idx)) bs)

/-- The plane that a finished load leaves (R190, R194, R197, R198): a codebook record is done when its last block has been
expanded. -/
def loadedPlane (clock : Nat) (l : WLoad) : Option Plane :=
  let faulted (h : Held) : Plane := {
    state := 3, held := some h, recVA := l.recVA, ctx := l.ctx, stall := loadStall clock l, tabList := l.tables.map (·.va)
    path := if l.horizontal then 1 else 0, ratio4 := l.ratio4 }
  match l.held with
  | some h => some (faulted h)
  | none =>
    match loadHeader l with
    | none => none
    | some w =>
      let bs := l.lines.flatten
      if l.total ≠ some l.lines.length then none
      else if !masksOk w bs then some (faulted { cause := .wMeta })
      else if 4 ≤ w.fmt ∧ (expansion clock l).2.2 < w.ncols then none
      else some { faulted { cause := .wFormat } with
        state := 2, held := none, fmt := w.fmt, kseg := w.kseg, ncols := w.ncols, cgrp := w.cgrp
        bytes := bs
        tables := l.tables.map fun t => (t.block.getD []).drop (t.va % 32) }

/-- Parity shows an error in the lines that the weight buffer has staged, or in what the load has written of its plane: the plane
is FAULTED (R285, Table 10-2). -/
def checkParity (s : State) (core : Nat) (l : WLoad) : WLoad :=
  let bad := s.upsets.any fun u => match u with
    | .plane c p => c == core && p == l.target
    | .buffer c w => c == core && decide (w < 16 * l.lines.length)
    | _ => false
  if bad ∧ l.held.isNone then failLoad s.clock l { cause := .eccUeWstack } else l

/-- An error that FAULTED a plane is counted once, as it is found (Table 24-2). -/
def countHeld (s : State) (core : Nat) (q : Plane) : State :=
  match q.held with
  | some h => countUE s core h.cause
  | none => s

/-- A load ends (R195, R197): a FAULTED plane keeps the fields it had latched, and RATIO4 stays that of the last vertical load
(Table 07-8) where none of its beats ran at 4:1 (R484). The next plane of a reload starts. A remap step waits for it no longer
(R223). -/
def execWloadComplete (core : Nat) (s : State) : Host.Outcome State Fault Refusal :=
  match (coreD s core).load with
  | none => .next s
  | some l =>
    match loadedPlane s.clock (checkParity s core l) with
    | none => .next s
    | some q =>
      let s := freshPlane (countHeld s core q) core l.target
      .next (modCore (endReads s core) core fun k =>
        let old := if l.target = 0 then k.planeA else k.planeS
        let q := { q with ratio4 := q.ratio4 || (q.path == 1 && old.ratio4) }
        let q := if q.state = 3 then { q with fmt := old.fmt, kseg := old.kseg, ncols := old.ncols, cgrp := old.cgrp } else q
        let k := if l.target = 0 then { k with planeA := q } else { k with planeS := q }
        match k.reloads with
        | [] => { k with load := none }
        | r :: rs => { k with load := some r.2, reloads := rs })

/-- The planes change places once no pass from before the WSWAP is left (R202). -/
def execPlaneExchange (core : Nat) (s : State) : Host.Outcome State Fault Refusal :=
  let k := coreD s core
  if k.swap ∧ k.passes.isEmpty then
    let cross (u : Upset) : Upset := match u with
      | .plane c p => if c = core then .plane c (1 - p) else u
      | u => u
    .next (modCore { s with upsets := s.upsets.map cross } core fun k => { k with swap := false, planeA := k.planeS, planeS := k.planeA })
  else .next s

/-- The oldest open pass closes at the end of its fourth ac (R208). -/
def closeOldest (clock : Nat) : List Pass → List Pass
  | [] => []
  | p :: ps => if !p.closed ∧ p.opened + 4 ≤ clock then { p with closed := true } :: ps else p :: closeOldest clock ps

def execPassClose (core : Nat) (s : State) : Host.Outcome State Fault Refusal :=
  .next (modCore s core fun k => { k with passes := closeOldest s.clock k.passes })

/-- A quarter's result reaches its tile (R207, R208); completed quarters are counted (Table 08-6). -/
def quarterDone (s : State) (q : Quarter) : State :=
  perfAdd (modTile s q.crew q.tile fun t => { t with pend := quarterTile q t.pend }) q.crew 3 1

/-- The quarters of the first pass that have not read their activations read them (R209). -/
def settlePass (s : State) (core : Nat) : State :=
  match (coreD s core).passes with
  | p :: _ => p.quarters.foldl (fun s q => match q.reads with
    | some t => settleReads s q.batch fun u => u == t
    | none => s) s
  | [] => s

/-- The first pass, once closed, leaves the array: its quarters add in order (R205, R208). -/
def execPassComplete (core : Nat) (s : State) : Host.Outcome State Fault Refusal :=
  let s' := settlePass s core
  match (coreD s' core).passes with
  | p :: ps =>
    if p.closed then .next (modCore (p.quarters.foldl quarterDone s') core fun k => { k with passes := ps }) else .next s
  | [] => .next s

/-- The load in progress, or still to start, that belongs to a plane. -/
def planeLoad (k : Core) (p : Nat) : Option WLoad := (k.load.toList ++ k.reloads.map (·.2)).find? fun l => l.target == p

/-- A core's array goes to a fill (R390): its planes are lent with the load of a LOADING wS, to be reloaded from their
descriptors at the fill's end, and a plane whose load this ends is EMPTY for the fill (log 85). -/
def lendArray (k : Core) (crew : Nat) : Core :=
  { k with
    borrow := some crew
    lent := some (k.planeA, k.planeS, planeLoad k 1)
    lentRestored := k.load.any (·.atRestore) || k.reloads.any fun r => r.2.atRestore
    planeA := if (planeLoad k 0).isSome then {} else k.planeA
    planeS := if (planeLoad k 1).isSome then {} else k.planeS
    load := none
    reloads := [] }

/-- A fill that stands at its first matrix word takes the core's array once every pass has completed (R390). A remap step waits
no longer for the load that this ends (R223). -/
def execFillArrayBorrow (b : Nat) (s : State) : Host.Outcome State Fault Refusal :=
  match findBatch s b with
  | none => .next s
  | some b =>
    let k := coreD s b.core
    -- a depth-2 fill with a tile that stands on the core borrows first: it waits for nothing (R382, R390; log 101)
    let deeper := (crewD s b.crew).slots == [30] &&
      s.crews.any fun c => c.core == b.core && c.slots == [31] && c.fill.isSome && !c.tiles.isEmpty
    if b.block = some (.array 2) ∧ k.passes.isEmpty ∧ !k.swap ∧ k.borrow.isNone ∧ !deeper then
      .next (modCore (useEngines (endReads s b.core) [.array b.core]) b.core fun k => lendArray k b.crew)
    else .next s

end Sys2Proof.Machine
end

