-- ==== Sys2Proof/Machine/Repair.lean ====
section
/-! DEFINITION. The weight stack's bank map and remap steps (R479 to R482, R485) and its pads (R483, R484). -/
namespace Sys2Proof.Machine
open Sys2Proof

/-- Whether a bank is retired (R479). -/
def bankRetired (s : State) (c b : Nat) : Bool := (kvGetD s.bankDead c 0).testBit b

/-- The core whose load is reading a column vertically, if one is (R196, R223). -/
def columnReaders (s : State) (c : Nat) : List Nat :=
  if (coreD s c).load.any fun l => l.held.isNone && l.total != some l.lines.length && !l.horizontal && readsVertical s c l
  then [c] else []

/-- A step starts (R244, R481): the bank's map bit is cleared and REMAP reads 1. -/
def startRemap (s : State) (c b : Nat) : State :=
  { s with
    bankDead := kvSet s.bankDead c (kvGetD s.bankDead c 0 ||| 2 ^ b)
    remaps := s.remaps ++ [{ col := c, bank := b, running := true, readers := columnReaders s c }] }

/-- The place of a batch's WSREMAP in the order is given up. -/
def leaveRemaps (s : State) (id : Nat) : State := { s with remaps := s.remaps.filter fun r => r.batch != some id }

/-- A WSREMAP that blocks takes its place in the order of the column, and keeps it while it is blocked. -/
def queueRemap (s : State) (c bank : Nat) (b : Batch) : State :=
  if b.block = some (.remap c) then s
  else
    let s := leaveRemaps s b.id
    { s with remaps := s.remaps ++ [{ col := c, bank := bank, running := false, readers := [], batch := some b.id }] }

/-- While no step runs on the column, the retirement by firmware whose turn it is starts; one of a bank that is retired already
changes nothing. The WSREMAP of a batch starts its own. -/
def nextRemap (c : Nat) (s : State) : List Remap → State
  | [] => s
  | r :: rs =>
    if remapRuns s c then s
    else if r.col = c ∧ remapWaits s r then
      if r.batch.isSome then s
      else
        let s := { s with remaps := s.remaps.erase r }
        if bankRetired s c r.bank then nextRemap c s rs else startRemap s c r.bank
    else nextRemap c s rs

/-- Step 3 of R481 for chunk `k`, as bank `b` leaves the live list: where it lies before and after. None is a chunk at or above the
new capacity, which is lost (R482). -/
def chunkMove (live : List Nat) (b k : Nat) : Option ((Nat × Nat) × (Nat × Nat)) :=
  if (live.length - 1) * 1024 ≤ k then none
  else match wslocIn live (2048 * k), wslocIn (live.filter (· ≠ b)) (2048 * k) with
    | some p, some q => some (p, q)
    | _, _ => none

/-- A step ends (R481 step 4): the chunks have moved, the capacity falls, the bytes at or above it are lost (R482), and the next
retirement of the column starts. The bytes below it keep their addresses. A chunk with an uncorrectable error in it holds one at
every read of its new place. -/
def execRemapStepEnd (col : Nat) (s : State) : Host.Outcome State Fault Refusal :=
  let busy (r : Remap) : Bool := r.readers.any fun k =>
    (coreD s k).load.any fun l => l.held.isNone && l.total != some l.lines.length
  match s.remaps.find? fun r => r.col == col && r.running with
  | none => .next (nextRemap col s s.remaps)
  | some r =>
    if busy r then .next s
    else
      let live := liveBanks s col
      let lo := 0x800000000 + 0x10000000 * col
      let inside (w : Nat) : Bool := decide (lo ≤ 8 * w) && decide (8 * w < lo + 0x10000000)
      -- the errors that the moves meet show in their banks (R485)
      let met := s.upsets.filterMap fun u => match u with
        | .mem w => if inside w ∧ (chunkMove live r.bank ((8 * w - lo) / 2048)).isSome then some w else none
        | _ => none
      let s := noteBanks s met
      let s := { s with remaps := s.remaps.filter fun q => !(q.col == col && q.running) }
      let top := lo + colCap s col
      let moved (u : Upset) : Option Upset := match u with
        | .mem w => if inside w then (chunkMove live r.bank ((8 * w - lo) / 2048)).map fun _ => .chunk (8 * w / 2048) 0 else some u
        -- the dirty lines of the LLC have been written back, errors and all, before the chunks moved (log 48)
        | .llc w => if inside w then (chunkMove live r.bank ((8 * w - lo) / 2048)).map fun _ => .chunk (8 * w / 2048) 0 else some u
        | u => some u
      let s := { s with upsets := (s.upsets.filterMap moved).eraseDups }
      let s := { s with mem := s.mem.filter fun p => decide (p.1 < top) || decide (lo + 0x10000000 ≤ p.1) }
      -- a wait on the step is not counted by the watchdog (R482)
      let here (i : Nat) : Bool := decide (lo ≤ 128 * i) && decide (128 * i < lo + 0x10000000)
      let upd (b : Batch) : Batch := match b.block with
        | some (.home i _) => if here i then { b with blockedAt := s.clock } else b
        | some (.fetch i _) => if here i then { b with blockedAt := s.clock } else b
        | _ => b
      let s := { s with batches := s.batches.map upd }
      -- the write-backs that waited are performed, in their order (R482)
      let due := s.backlog.filter fun p => here p.2.1
      let s := { s with backlog := s.backlog.filter fun p => !here p.2.1 }
      let s := due.foldl (fun s p => if 128 * p.2.1 < top then flushLine s p.1 p.2.1 p.2.2 else s) s
      .next (nextRemap col s s.remaps)

/-- Firmware retires a bank that has met a trigger (R485): at once, or after the retirements that the column has already. -/
def execBankRetire (col bank : Nat) (s : State) : Host.Outcome State Fault Refusal :=
  let n := 128 * col + bank
  if 128 ≤ col ∨ 128 ≤ bank ∨ !s.bankDue.contains n then .next s
  else
    let s := { s with bankDue := s.bankDue.filter (· ≠ n) }
    if bankRetired s col bank then .next s
    else
      let s := { s with remaps := s.remaps ++ [{ col := col, bank := bank, running := false, readers := [] }] }
      .next (nextRemap col s s.remaps)

/-- A pad is marked failed, and the column's pads are matched again (R483, R484). -/
def execPadFail (col pad : Nat) (s : State) : Host.Outcome State Fault Refusal :=
  if 128 ≤ col ∨ 560 ≤ pad then .next s
  else .next { s with padsBad := kvSet s.padsBad col (kvGetD s.padsBad col 0 ||| 2 ^ pad) }

end Sys2Proof.Machine
end

