-- ==== Sys2Proof/Machine/Launch.lean ====
section
/-! DEFINITION. Fibre identities (R246, R247), the batches and registers that launch and stamping make (R248, R251,
R256, R257), and the admission of a crew to a core (R249, R267, R281, R374). -/
namespace Sys2Proof.Machine
open Sys2Proof

/-! ### WID fields (R246, R247) -/

/-- o_i, the place of field i in the WID. -/
def fieldOff (h : List W64) (i : Nat) : Nat := ((List.range i).map (hdrWidth h)).sum

/-- x_i of a WID. -/
def widIndex (h : List W64) (wid : W64) (i : Nat) : Nat := bitsOf wid (fieldOff h i) (hdrWidth h i) - hdrBase h i

/-- The WID with value b_i + x_i in each field below n. -/
def widOf (h : List W64) (xs : List Nat) : W64 :=
  BitVec.ofNat 64 ((List.range (hdrFields h)).map fun i =>
    (hdrBase h i + xs.getD i 0) % 2 ^ hdrWidth h i * 2 ^ fieldOff h i).sum

/-- The product of the extents of fields lo to hi - 1. -/
def extProd (h : List W64) (lo hi : Nat) : Nat := ((List.range (hi - lo)).map fun j => hdrExt h (lo + j)).prod

/-- The mixed-radix number of the indices of fields lo to hi - 1, the lowest field fastest. -/
def mixedRadix (h : List W64) (x : Nat → Nat) (lo hi : Nat) : Nat :=
  ((List.range (hi - lo)).map fun j => x (lo + j) * extProd h lo (lo + j)).sum

/-- Digit of field i of a mixed-radix number over the fields from lo. -/
def radixDigit (h : List W64) (v lo i : Nat) : Nat := v / extProd h lo i % hdrExt h i

/-- g, the launch batches per value of F1 to F(c-1). -/
def rowsPerRho (h : List W64) : Nat := (hdrExt h 0 + 31) / 32

/-- Bc, the launch batches per crew. -/
def crewRows (h : List W64) : Nat :=
  if hdrCrewLevel h = 0 then 1 else rowsPerRho h * extProd h 1 (hdrCrewLevel h)

/-- f, the crew fibre index of a WID. -/
def fibreOfWid (h : List W64) (wid : W64) : Nat :=
  let x := widIndex h wid
  if hdrCrewLevel h = 0 then 0
  else 32 * (rowsPerRho h * mixedRadix h x 1 (hdrCrewLevel h) + x 0 / 32) + x 0 % 32

/-- The crews of a cluster. -/
def clusterCrews (h : List W64) : Nat := extProd h (hdrCrewLevel h) (hdrClusLevel h)

/-- Whether two WIDs agree in every field at or above a level. -/
def agreeAbove (h : List W64) (lvl : Nat) (a b : W64) : Bool := a.toNat / 2 ^ fieldOff h lvl == b.toNat / 2 ^ fieldOff h lvl

/-- The WID whose indices below the crew level are zero, for the crew of rank `rank` in cluster `idx`. -/
def crewWid (h : List W64) (idx rank : Nat) : W64 :=
  let c := hdrCrewLevel h
  let k := hdrClusLevel h
  widOf h ((List.range (hdrFields h)).map fun i =>
    if i < c then 0 else if i < k then radixDigit h rank c i else radixDigit h idx k i)

/-- The WID of the kindling fibre of group `g` under a seed level: x_i = 0 below it. -/
def kindlingWid (h : List W64) (g : Nat) : W64 :=
  let sd := hdrSeed h
  widOf h ((List.range (hdrFields h)).map fun i => if i < sd then 0 else radixDigit h g sd i)

/-- The group of a WID at a level: the mixed-radix number of its indices at and above it. -/
def groupOf (h : List W64) (wid : W64) (lvl : Nat) : Nat := mixedRadix h (widIndex h wid) lvl (hdrFields h)

/-- The WID of place (row, lane) of a crew whose first WID is `wid0`; none where the launch has no fibre. -/
def placeWid (h : List W64) (wid0 : W64) (row lane : Nat) : Option W64 :=
  if hdrCrewLevel h = 0 then (if row = 0 ∧ lane = 0 then some wid0 else none)
  else
    let x0 := 32 * (row % rowsPerRho h) + lane
    let rho := row / rowsPerRho h
    if row < crewRows h ∧ x0 < hdrExt h 0 then
      some (widOf h ((List.range (hdrFields h)).map fun i =>
        if i = 0 then x0 else if i < hdrCrewLevel h then radixDigit h rho 1 i else widIndex h wid0 i))
    else none

/-- The WID that lane 0 of a row has, taken as if it were live (R248). -/
def rowWid (h : List W64) (wid0 : W64) (row : Nat) : W64 := (placeWid h wid0 row 0).getD wid0

/-- Every fibre that a launch without seed gives a crew: index and WID. -/
def crewFibreWids (h : List W64) (wid0 : W64) : List (Nat × W64) :=
  (List.range (crewRows h)).flatMap fun r => (List.range 32).filterMap fun l =>
    (placeWid h wid0 r l).map fun w => (32 * r + l, w)

/-! ### Batches (R248, R251, R257) -/

/-- The base set with the WID register as R248 writes it for a row. -/
def rowRegs (h : List W64) (wid0 : W64) (row : Nat) (other : RegVal) : List RegVal :=
  (List.range (hdrN h)).map fun i =>
    if i = hdrWidReg h then .a ((rowWid h wid0 row).extractLsb' 0 32) 1 else other

/-- A new batch's registers are written whole: the errors of its lanes in them end (R286). -/
def mendRow (s : State) (core slot n : Nat) (ls : List Nat) : State :=
  clearUpsets s fun u => match u with
    | .reg c sl i l => c == core && sl == slot && (decide (i < n) || decide (512 ≤ i)) &&
        (ls.contains l || !s.batches.any fun b => b.core == core && b.slot == slot && b.fibres.any fun p => p.1 == l)
    | _ => false

/-- A new batch in a crew's slot of a row; it begins a region. -/
def newBatch (s : State) (c : Crew) (row : Nat) (fibres : List (Nat × Fibre)) (regs : List RegVal) (pc : VA)
    (wb : Nat) : State :=
  let (id, s) := fresh s
  let b : Batch := {
    id := id, core := c.core, slot := c.slots.getD row 0, crew := c.uid, row := row, ctx := c.ctx
    fibres := fibres, wb := wb, pc := pc, regs := regs, kregs := List.replicate 32 (.u 0), priv := false, pin := none
    regionStart := pc, newRegion := true, gatherAt := none, window := [], retbuf := [], parked := false, parkedAt := 0
    block := none, blockedAt := 0, trap := none, wake := 0, lastIssue := s.clock, reacquire := false }
  let s := mendRow s c.core b.slot regs.length (fibres.map (·.1))
  { s with batches := s.batches ++ [b] }

/-- One batch for each row that has fibres among the listed (index, fibre) pairs. -/
def newRows (s : State) (uid : Nat) (fs : List (Nat × Fibre)) (regs : Nat → List RegVal) (pc : VA) (wb : Nat) : State :=
  let c := crewD s uid
  (List.range c.slots.length).foldl (fun s r =>
    let row := (fs.filter fun p => p.1 / 32 = r).map fun p => (p.1 % 32, p.2)
    if row.isEmpty then s else newBatch s c r (sortBy row fun p q => decide (p.1 ≤ q.1)) (regs r) pc wb) s

/-- Stamps fibres from an image into their crew (R257, R258). -/
def stampFibres (s : State) (uid img : Nat) (fs : List (Nat × W64)) : State :=
  match kvGet s.images img with
  | none => s
  | some im =>
    let c := crewD s uid
    newRows s uid (fs.map fun p => (p.1, { pw := im.pw, wid := p.2, img := some img }))
      (fun r => rowRegs c.hdr c.wid0 r (.t img)) im.pc im.wb

/-- A launch without seed: every fibre of the crew in the state of R248. -/
def launchFibres (s : State) (uid : Nat) (fs : List (Nat × Fibre)) : State :=
  let c := crewD s uid
  newRows s uid fs (fun r => rowRegs c.hdr c.wid0 r (.u 0)) (BitVec.ofNat 54 (hdrEntry c.hdr)) 0

/-! ### Resources of a core (R47, R48, R249, R267, R268, R283) -/

def coreCrews (s : State) (core : Nat) : List Crew := s.crews.filter fun c => c.core == core && c.fill.isNone

/-- The slots a header asks for: whole pairs when M > 0 (R48). -/
def slotsAsked (h : List W64) : Nat := if hdrM h = 0 then crewRows h else (crewRows h + 1) / 2 * 2

/-- Lines of the register file for a number of slots. -/
def linesFor (h : List W64) (slots : Nat) : Nat := slots * hdrN h + (if hdrM h = 0 then 0 else slots / 2 * hdrM h)

def linesUsed (s : State) (core : Nat) : Nat := ((coreCrews s core).map fun c => linesFor c.hdr c.slots.length).sum
def tilesUsed (s : State) (core : Nat) : Nat := ((coreCrews s core).map fun c => c.tiles.length).sum
def barsUsed (s : State) (core : Nat) : Nat := ((coreCrews s core).map fun c => c.barriers.length).sum
def cbsUsed (s : State) (core : Nat) : Nat := ((coreCrews s core).map fun c => c.cbs.length).sum
def granulesUsed (s : State) (core : Nat) : List Nat := (coreCrews s core).flatMap (·.granules)

/-- The lowest free slots of 0 to 29, whole pairs when M > 0 (R374). -/
def freeSlots (s : State) (core : Nat) (h : List W64) : Option (List Nat) :=
  let used := (coreCrews s core).flatMap (·.slots)
  let all := List.range 30
  let cand := if hdrM h = 0 then all.filter fun i => !used.contains i
    else all.filter fun i => !used.contains (i / 2 * 2) && !used.contains (i / 2 * 2 + 1)
  let n := slotsAsked h
  if cand.length < n then none else some (cand.take n)

def granulesAsked (bytes : Nat) : Nat := (bytes + 4095) / 4096

/-- Free granules, those of scratch slabs from the top of the run downward, then those that conversions would add:
slabs 4 to 39 at most (R266, R268). -/
def freeGranules (s : State) (core : Nat) : List Nat :=
  let used := granulesUsed s core
  ((List.range 288).map fun i => 319 - i).filter fun g => !used.contains g

/-- A fibre-local slot of the context (R281): any free one (log 2). -/
def pickFl (s : State) (ctx : Nat) : Option (Nat × State) :=
  let held := (ctxD s ctx).flHeld
  let cand := (List.range 4096).filter fun q => !held.contains q
  if cand.isEmpty then none
  else
    let (i, s) := freePick s cand.length
    some (cand.getD i 0, s)

/-- A crew that binds its core's array: one with ACC > 0, or that holds tiles (R188, R374). -/
def usesArray (h : List W64) (tiles : Nat) : Bool := hdrAcc h != 0 || tiles != 0

/-- What a crew to be admitted needs: its header, tiles, and the uid that its cluster gives it. `acc`, the tiles, and `fl` differ
from the header for a restored crew. -/
structure Admit where
  hdr : List W64
  acc : Nat
  ctx : Nat
  cluster : Nat
  rank : Nat
  /-- the fibre-local slot kept while saved, or none to take one -/
  fl : Option Nat

/-- Whether a crew fits on a core (R374), with the slots it would take. -/
def fits (s : State) (core : Nat) (a : Admit) : Option (List Nat) :=
  match freeSlots s core a.hdr with
  | none => none
  | some sl =>
    let k := coreD s core
    if linesUsed s core + linesFor a.hdr sl.length ≤ 2816 ∧
        granulesAsked (hdrScratch a.hdr) ≤ (freeGranules s core).length ∧
        tilesUsed s core + a.acc ≤ 62 ∧ barsUsed s core + hdrBars a.hdr ≤ 96 ∧ cbsUsed s core + hdrCbs a.hdr ≤ 16 ∧
        (!usesArray a.hdr a.acc ∨ k.array = none ∨ k.array = some a.cluster) ∧
        (a.fl.isSome ∨ (ctxD s a.ctx).flHeld.length < 4096)
    then some sl else none

/-- The extended sets of a crew's pairs (R48, R248). -/
def newSets (c : Crew) : List XSet :=
  if hdrM c.hdr = 0 then []
  else (c.slots.map (· / 2)).eraseDups.map fun p =>
    { crew := c.uid, core := c.core, pair := p, regs := List.replicate (hdrM c.hdr) (.u 0)
      holder := none, evicted := none, last := none, waiters := [] }

/-- Places a crew record on a core with the resources it takes; the fibres come after. The granules may lie in slabs
that are still L1: the admission waits for their conversion (R268). -/
def placeCrew (s : State) (core : Nat) (sl : List Nat) (c : Crew) : State :=
  let c := { c with
    core := core
    slots := sl
    granules := (freeGranules s core).take (granulesAsked c.scratchBytes) }
  let s := { s with crews := s.crews ++ [c], xsets := s.xsets ++ newSets c }
  if usesArray c.hdr c.tiles.length then modCore s core fun k => { k with array := some c.cluster } else s

/-- The crew ids of a context that are held: by its crews, resident or saved (R341). -/
def idsHeld (s : State) (ctx : Nat) : List Nat :=
  ((s.crews.filter fun c => c.ctx == ctx) ++ (s.clusters.filter fun k => k.ctx == ctx).flatMap (·.savedCrews)).map (·.id)

/-- The next crew id that is not held, from `n` on. `fuel` counts the held ones. -/
def nextIdFrom (held : List Nat) : Nat → Nat → Nat
  | 0, n => n
  | fuel + 1, n => if held.contains n then nextIdFrom held fuel ((n + 1) % 2 ^ 32) else n

/-- A crew id for a new crew of a context, unique among those that have not exited (R341; log 103). -/
def takeId (s : State) (ctx : Nat) : Nat × State :=
  let held := idsHeld s ctx
  let n := nextIdFrom held held.length (ctxD s ctx).nextCrew
  (n, modCtx s ctx fun x => { x with nextCrew := (n + 1) % 2 ^ 32 })

/-- A fresh crew in the state of R249. -/
def admitCrew (s : State) (core : Nat) (sl : List Nat) (a : Admit) (wid0 : W64) : State × Nat :=
  match pickFl s a.ctx with
  | none => (s, 0)
  | some (q, s) =>
    let (uid, s) := fresh s
    let (id, s) := takeId s a.ctx
    let s := modCtx s a.ctx fun x => { x with flHeld := q :: x.flHeld }
    let h := a.hdr
    let c : Crew := {
      uid := uid, id := id, ctx := a.ctx, cluster := a.cluster, rank := a.rank, core := core, hdr := h
      scratchBytes := hdrScratch h
      tiles := List.replicate (hdrAcc h) {}
      barriers := List.replicate (hdrBars h) {}
      cbs := List.replicate (hdrCbs h) {}
      flSlot := q, wid0 := wid0 }
    (placeCrew s core sl c, uid)

/-- Whether the granules of a core's crews lie in scratch slabs. -/
def converted (s : State) (core : Nat) : Bool :=
  (granulesUsed s core).all fun g => decide (40 - (coreD s core).scratchSlabs ≤ g / 8)

/-- The cores of a core cluster, in order. -/
def clusterCores (cc : Nat) : List Nat := (List.range 8).map fun i => 8 * cc + i

/-- The lowest-numbered core of a core cluster where a crew fits. -/
def firstFit (s : State) (cc : Nat) (a : Admit) : Option (Nat × List Nat) :=
  (clusterCores cc).findSome? fun k => (fits s k a).map fun sl => (k, sl)

end Sys2Proof.Machine
end

