-- ==== Sys2Proof/Machine/Template.lean ====
section
/-! DEFINITION. Fibres that end and fibres that are made by an instruction: QUIT (R118, R211), FORK (R119), FREEZE and
FREEZE.L with the templates they make (R180, R255 to R258). -/
namespace Sys2Proof.Machine
open Sys2Proof

/-! ### Lanes leaving a batch -/

/-- Removes lanes from a batch. A batch without a live lane commits its pending tiles, gives back its pair's set, in which it
leaves its values as by XREL, and retires (R118, R210). -/
def endLanes (s : State) (bid : Nat) (ls : List Nat) : State :=
  match findBatch s bid with
  | none => s
  | some b =>
    if b.fibres.all fun p => ls.contains p.1 then
      let s := commitTiles s bid
      delBatch (if holdsXSet s b then releaseSet s b else s) bid
    else modBatch (spreadScalars s b [(liveLanes b).filter fun l => !ls.contains l]) bid fun b =>
      { b with fibres := b.fibres.filter fun p => !ls.contains p.1 }

/-! ### Groups that have frozen (R256, R257) -/

/-- Adds a run of cluster numbers to a queue that rises. -/
def addRun (q : List (Nat × Nat)) (r : Nat × Nat) : List (Nat × Nat) :=
  match q with
  | [] => [r]
  | p :: t => if r.1 < p.1 then r :: p :: t else p :: addRun t r

/-- Group `g` of a node with s > c has frozen with an image, or ends without fibres: the clusters that this makes
ready join the node's queue, and clusters of groups without fibres are not placed. -/
def groupFrozen (s : State) (k : Cluster) (g : Nat) (img : Option Nat) : State :=
  let h := k.hdr
  let sd := hdrSeed h
  let cl := hdrClusLevel h
  modNode s k.run k.node fun n =>
    let kin := kvSet n.kindlings g img
    let n := { n with kindlings := kin }
    if cl ≤ sd then
      let m := extProd h cl sd
      if img.isSome then { n with ready := addRun n.ready (g * m, m) } else { n with left := n.left - m }
    else
      let m := extProd h sd cl
      let i := g / m
      let gs := (List.range m).map fun j => kvGet kin (i * m + j)
      if gs.all (·.isSome) then
        if gs.any fun o => (o.bind id).isSome then { n with ready := addRun n.ready (i, 1) } else { n with left := n.left - 1 }
      else n

/-- A kindling fibre of a kindling crew that quits without FREEZE leaves its group without fibres (R257). -/
def kindlingQuit (s : State) (c : Crew) (f : Fibre) : State :=
  if f.kindling ∧ hdrCrewLevel c.hdr < hdrSeed c.hdr then
    match findCluster s c.cluster with
    | some k => groupFrozen s k (groupOf c.hdr f.wid (hdrSeed c.hdr)) none
    | none => s
  else s

/-! ### Waiting members (R258) -/

/-- Whether a WID leads its group at a level. -/
def isLeader (h : List W64) (wid : W64) (lvl : Nat) : Bool := (List.range lvl).all fun i => widIndex h wid i == 0

/-- The fibre `wid` of the image `old` quits or freezes at level `keep`: the members that wait for it at another
level are dropped as if they had quit, in resident crews and in saved ones. -/
def dropMembers (s : State) (h : List W64) (old : Nat) (wid : W64) (keep : Nat) : State :=
  let stays (w : Waiting) : Bool :=
    !(w.img == old && w.level != keep && isLeader h wid w.level && agreeAbove h w.level w.wid wid)
  let cut (c : Crew) : Crew := { c with waiting := c.waiting.filter stays }
  let hit := (s.crews.filter fun c => c.waiting.any fun w => !stays w).map (·.uid)
  let s := { s with
    crews := s.crews.map cut
    clusters := s.clusters.map fun k => { k with savedCrews := k.savedCrews.map cut } }
  hit.foldl exitIfEmpty s

/-! ### QUIT (R118) -/

/-- What follows from a fibre's end by QUIT: its group, and the members that waited for it. -/
def fibreQuit (s : State) (c : Crew) (f : Fibre) : State :=
  let s := kindlingQuit s c f
  match f.img with
  | some old => if f.forked then s else dropMembers s c.hdr old f.wid 0
  | none => s

def execQuit (w : FWord) (s : State) : Host.Outcome State Fault Refusal :=
  runF s w { bareSpec 0x48 w with parks := true } fun x =>
    let live := liveLanes x.b
    let all := live.all fun l => x.act.contains l
    if !all ∧ ownsTile x.s x.b then .trap x.s (wordTrap x .accRange)
    else
      let c := crewD x.s x.b.crew
      let s := pushWindow (advance (perfAdd x.s x.b.crew 0 1) x.b.id) x.b.id []
      let s := endLanes s x.b.id x.act
      let s := x.act.foldl (fun s l => fibreQuit s c (fibreOf x.b l)) s
      .jump (reapImages (exitIfEmpty s x.b.crew)) [x.b.id]

/-! ### FORK (R119) -/

/-- The fibre indices of a crew that are taken: live fibres and waiting members. -/
def takenIndices (s : State) (uid : Nat) : List Nat :=
  ((crewFibres s uid).map fun p => fibreIndex p.1 p.2) ++ (crewD s uid).waiting.map (·.fibre)

/-- free(crew); none in a fill task (R389). -/
def forkRoom (s : State) (uid : Nat) : Nat :=
  let c := crewD s uid
  if c.fill.isSome then 0 else min 1024 (32 * crewRows c.hdr) - (takenIndices s uid).length

/-- The tag of d in the children of one row (R119): A with stride 1 where their indices run on without a gap, be it one
child alone, else G (log 72). -/
def childTag (ls : List Nat) (vals : List W32) : RegVal :=
  match ls with
  | [] => .u 0
  | l0 :: _ =>
    if ls = (List.range ls.length).map (l0 + ·) then .a (vals.getD l0 0 - BitVec.ofNat 32 l0) 1
    else .g (laneList fun l => if ls.contains l then vals.getD l 0 else 0)

/-- The first error among the base-set registers of some lanes, which FORK copies (R286). A T register stays T and is not
read. -/
def baseFault (x : Exec) (ls : List Nat) : Option (Cause × W32) :=
  if x.s.upsets.isEmpty || ls.isEmpty then none
  else (List.range x.b.regs.length).findSome? fun i => match bankReg x.s x.b i with
    | .t _ => none
    | _ => regFault x.s { x.b with window := [] } ls i

/-- The same of the active lanes with the T registers, which FREEZE freezes and reads (R286, R287). -/
def frozenFault (x : Exec) : Option (Cause × W32) :=
  if x.s.upsets.isEmpty then none
  else (List.range x.b.regs.length).findSome? (regFault x.s { x.b with window := [] } x.act)

/-- The children of one lane: fibre indices with their number 1 to n. They start unprivileged, and a d that names an
extended register is written in the forking lane alone (log 72). -/
def forkLane (x : Exec) (d pk : Nat) (s : State) (l n : Nat) : State :=
  let uid := x.b.crew
  let taken := takenIndices s uid
  let kids := (((List.range (32 * crewRows (crewD s uid).hdr)).filter fun f => !taken.contains f).take n).zipIdx 1
  let parent := fibreOf x.b l
  let child : Fibre := { pw := pwSet parent.pw pk true, wid := parent.wid, img := parent.img, forked := true }
  let regs (row : Nat) : List RegVal :=
    let mine := kids.filter fun p => p.1 / 32 = row
    let vals := laneList fun j => match mine.find? fun p => p.1 % 32 = j with
      | some p => BitVec.ofNat 32 p.2
      | none => 0
    x.b.regs.zipIdx.map fun p =>
      if p.2 = d then childTag (mine.map fun q => q.1 % 32) vals
      else match p.1 with
        | .t img => .t img
        | v => .u (laneVal v l)
  newRows s uid (kids.map fun p => (p.1, child)) regs (x.b.pc + 8) x.b.wb

def execFork (w : FWord) (s : State) : Host.Outcome State Fault Refusal :=
  runF s w { fSpec 0x49 w v1 v1 .p .z with legal := w.m = 0, closes := true } fun x =>
    let d := nameOf x .d 0
    let pk := w.b.toNat
    let step (r : State × List Nat) (l : Nat) : State × List Nat :=
      let n := (lane x .a 0 l).toNat
      if n = 0 then (r.1, r.2 ++ [l])
      else if forkRoom r.1 x.b.crew < n then r
      else (forkLane x d pk r.1 l n, r.2 ++ [l])
    let (s, ok) := x.act.foldl step (x.s, [])
    -- the lanes that create fibres are copied; d of a lane that fails stands as its register has it
    match baseFault x (ok.filter fun l => lane x .a 0 l ≠ 0) with
    | some (c, ls) => .trap x.s { wordTrap x c with lanes := ls }
    | none =>
      let old := readReg x.s { x.b with window := [] } d
      let v : RegVal := if ok.length = x.act.length && uniField x .a 1 then .u 0
        else .g (laneList fun l => if ok.contains l then 0 else laneVal old l)
      .done s (if ok.isEmpty then [] else [(d, v)]) [(pk, maskOf ok)] []

/-! ### FREEZE (R180, R255 to R257) -/

/-- The bytes that an image occupies (R255). -/
def imageSize (h : List W64) (scratch : Nat) : Nat := 128 + (4 * hdrN h + 127) / 128 * 128 + scratch

def kilnFree (s : State) : Nat := s.kilnSize - (s.images.map fun p => p.2.bytes).sum

/-- A free image id (16 bits, 0xFFFF for none; R53): any one (log 2). -/
def pickImage (s : State) : Option (Nat × State) :=
  let cand := (List.range 65535).filter fun i => (kvGet s.images i).isNone
  if cand.isEmpty then none
  else
    let (k, s) := freePick s cand.length
    some (cand.getD k 0, s)

/-- The frozen context of one lane (R180, R255). -/
def imageOf (x : Exec) (l level seed : Nat) (parent : Option Nat) (scratch : List Byte) (off : Nat) : Image :=
  let c := crewD x.s x.b.crew
  let f := fibreOf x.b l
  let k := findCluster x.s c.cluster
  { regs := x.b.regs.zipIdx.map fun p => match p.1 with
      | .t img => imageReg x.s img p.2
      | v => laneVal v l
    pw := f.pw, wb := x.b.wb, pc := x.b.pc + 8, scratch := scratch, offset := off, level := level, seed := seed
    parent := parent, wid := f.wid, crew := x.b.crew, ctx := x.b.ctx, node := (k.map (·.node)).getD 0
    bytes := imageSize c.hdr scratch.length }

/-- The images of a word, one for each listed lane; none when the Kiln cannot hold them. -/
def makeImages (s : State) (ims : List (Nat × Image)) : Option (State × List (Nat × Nat)) :=
  if kilnFree s < (ims.map fun p => p.2.bytes).sum then none
  else ims.foldl (fun r p => r.bind fun q => (pickImage q.1).map fun i =>
    ({ i.2 with images := kvSet i.2.images i.1 p.2 }, q.2 ++ [(p.1, i.1)])) (some (s, []))

/-- A kindling fibre's group appears from its image (R257): in place when s ≤ c, else by admission. Where a child that a kindling
fibre FORKed holds the fibre index of a member, R257 does not say what becomes of the member; it is stamped beside the child, in a
slot of its own: the model's choice (log 106). -/
def stampGroup (s : State) (c : Crew) (wid : W64) (img : Nat) : State :=
  let sd := hdrSeed c.hdr
  if sd ≤ hdrCrewLevel c.hdr then
    stampFibres s c.uid img ((crewFibreWids c.hdr c.wid0).filter fun p => agreeAbove c.hdr sd p.2 wid)
  else match findCluster s c.cluster with
    | some k => groupFrozen s k (groupOf c.hdr wid sd) (some img)
    | none => s

/-- The cause of an error in a register that is frozen. -/
def frozenTrap (x : Exec) : TrapInfo :=
  match frozenFault x with
  | some (c, ls) => { wordTrap x c with lanes := ls }
  | none => wordTrap x .eccUeReg

/-- FREEZE's own causes that concern its batch. -/
def freezeBarred (x : Exec) : Bool := x.b.pin.isSome || holdsXSet x.s x.b || isFill x

/-- The lanes of a freezing word end as if by QUIT, except that they drop nothing themselves. -/
def freezeEnds (x : Exec) (s : State) : State :=
  endLanes (pushWindow (advance (perfAdd s x.b.crew 0 1) x.b.id) x.b.id []) x.b.id x.act

/-- FREEZE (R180): with an image size of 0 field a is not resolved (log 96). -/
def execFreeze (w : FWord) (s : State) : Host.Outcome State Fault Refusal :=
  let size := match findBatch s s.cur with
    | some b => hdrImage (batchHdr s b)
    | none => 0
  let sp := { fSpec 0xC2 w .z (if size = 0 then .any else v1) .z .z with
    legal := w.m = 0, closes := true, uni := if size = 0 then [] else [.a] }
  runF s w sp fun x =>
    let c := crewD x.s x.b.crew
    let off := if size = 0 then 0 else (uniVal x .a 0).toNat
    if freezeBarred x ∨ x.act.any fun l => !(fibreOf x.b l).kindling then .trap x.s (wordTrap x .freezeState)
    else if c.scratchBytes < off + size then .trap x.s (wordTrap x .scratchRange)
    else if (frozenFault x).isSome then .trap x.s (frozenTrap x)
    else if scratchBad x.s .load x.b.crew off size then .trap x.s (wordTrap x .eccUeScratch)
    else
      let bytes := scratchRead x.s x.b.crew off size
      match makeImages x.s (x.act.map fun l => (l, imageOf x l 1 (hdrSeed c.hdr) none bytes off)) with
      | none => .trap x.s (wordTrap x .templateOverflow)
      | some (s, ids) =>
        let s := ids.foldl (fun s p => stampGroup s c (fibreOf x.b p.1).wid p.2) (freezeEnds x s)
        .jump (reapImages (exitIfEmpty s x.b.crew)) [x.b.id]

/-! ### FREEZE.L (R258) -/

/-- The image of a fibre's group at a level below the image it leaves, once its leader has frozen. -/
def groupImage (s : State) (h : List W64) (old lvl : Nat) (wid : W64) : Option Nat :=
  (s.images.find? fun p => p.2.parent == some old && p.2.seed == lvl && agreeAbove h lvl p.2.wid wid).map (·.1)

/-- The waiting members of a new image's group, in resident crews, are stamped (R258). -/
def stampWaiting (s : State) (h : List W64) (old lvl : Nat) (wid : W64) (img : Nat) : State :=
  let mine (w : Waiting) : Bool := w.img == old && w.level == lvl && agreeAbove h lvl w.wid wid
  s.crews.foldl (fun s c =>
    let ms := c.waiting.filter mine
    if ms.isEmpty then s
    else
      stampFibres (modCrew s c.uid fun d => { d with waiting := d.waiting.filter fun w => !mine w }) c.uid img
        (ms.map fun w => (w.fibre, w.wid))) s

/-- A member that finds no image of its group waits. -/
def waitMember (x : Exec) (lvl : Nat) (s : State) (l : Nat) : State :=
  let f := fibreOf x.b l
  modCrew s x.b.crew fun c => { c with
    waiting := c.waiting ++ [{ fibre := fibreIndex x.b l, wid := f.wid, level := lvl, img := f.img.getD 0, since := s.clock }] }

/-- A crew's waiting members whose wait the watchdog ends (R265, R465). -/
def overdueMembers (s : State) (c : Crew) : List Waiting :=
  let n := (ctxD s c.ctx).wdog.toNat
  if n = 0 then [] else c.waiting.filter fun w => decide (w.since + 65536 * n ≤ s.clock)

/-- Members that wait for longer than the crew watchdog allows are dropped as if they had quit: they are in no batch that could
take a trap (R265; log 78). -/
def dropOverdue (s : State) (c : Crew) : State :=
  let gone := overdueMembers s c
  if gone.isEmpty then s
  else reapImages (exitIfEmpty (modCrew s c.uid fun c => { c with waiting := c.waiting.filter fun w => !gone.contains w }) c.uid)

/-- The leader of a waiting member's group still stands at the image that the member left: its fibre runs, or is saved, and
has not frozen at another level. -/
def leaderStands (s : State) (h : List W64) (w : Waiting) : Bool :=
  let lead (b : Batch) : Bool := b.fibres.any fun p =>
    p.2.img == some w.img && !p.2.forked && isLeader h p.2.wid w.level && agreeAbove h w.level w.wid p.2.wid
  s.batches.any lead || s.clusters.any fun k => k.savedBatches.any lead

/-- The members of a crew whose leader has quit, or frozen at another level, are dropped as if they had quit (R258). -/
def dropLeaderless (s : State) (h : List W64) (uid : Nat) : State :=
  modCrew s uid fun c => { c with waiting := c.waiting.filter (leaderStands s h) }

/-- Whether FREEZE.L is barred for a lane: not stamped, made by FORK, at the third level, or not below its level. -/
def nestBarred (x : Exec) (lvl l : Nat) : Bool :=
  let f := fibreOf x.b l
  match f.img.bind fun i => kvGet x.s.images i with
  | none => true
  | some im => f.forked || 3 ≤ im.level || im.seed ≤ lvl

def execFreezeL (w : FWord) (s : State) : Host.Outcome State Fault Refusal :=
  let lvl := w.m.toNat / 2
  let sp := { fSpec 0xC2 w .z .z .z .z with legal := decide (1 ≤ lvl) && decide (lvl ≤ 5), closes := true }
  runF s w sp fun x =>
    let h := batchHdr x.s x.b
    if freezeBarred x ∨ x.act.any (nestBarred x lvl) then .trap x.s (wordTrap x .freezeState)
    else if (frozenFault x).isSome then .trap x.s (frozenTrap x)
    else
      let wid (l : Nat) : W64 := (fibreOf x.b l).wid
      let old (l : Nat) : Nat := (fibreOf x.b l).img.getD 0
      let lead := x.act.filter fun l => isLeader h (wid l) lvl
      let level (l : Nat) : Nat := ((kvGet x.s.images (old l)).map (·.level)).getD 0 + 1
      match makeImages x.s (lead.map fun l => (l, imageOf x l (level l) lvl (some (old l)) [] 0)) with
      | none => .trap x.s (wordTrap x .templateOverflow)
      | some (s, ids) =>
        -- the word's own lanes wait first, then every group whose image exists is stamped in one step
        let s := x.act.foldl (waitMember x lvl) (freezeEnds x s)
        let s := ids.foldl (fun s p => stampWaiting s h (old p.1) lvl (wid p.1) p.2) s
        let rest := x.act.filter fun l => (groupImage s h (old l) lvl (wid l)).isSome
        let s := rest.foldl (fun s l => match groupImage s h (old l) lvl (wid l) with
          | some img => stampWaiting s h (old l) lvl (wid l) img
          | none => s) s
        let s := x.act.foldl (fun s l => dropMembers s h (old l) (wid l) lvl) s
        let s := dropLeaderless s h x.b.crew
        .jump (reapImages (exitIfEmpty s x.b.crew)) [x.b.id]

end Sys2Proof.Machine
end

