-- ==== Sys2Proof/Machine/System.lean ====
section
/-! DEFINITION. The system, event and privileged words of chapter 08 (R224 to R245): events, triggers, timelines, system
values, control and status registers, traps, counters, page generations, HALT, stack repair and monitors. -/
namespace Sys2Proof.Machine
open Sys2Proof

/-- A word of this chapter: own mod11 layout, no K bit. -/
def sysSpec (op : Nat) (w : FWord) (d a b c : Cls) (ok : Bool) : Spec := { fSpec op w d a b c with legal := ok }

/-- A release by a batch over all colours that drains eagerly (R332, R341). -/
def releaseAll (s : State) (b : Batch) (scope : Nat) : State := drainCore (bumpEpoch s b.crew) b.core scope 0xFF

/-! ### Events (R232 to R236) -/

/-- EVSIG and EVSIG.CLR on event `n` of the batch's context (R233). -/
def evsigEff (x : Exec) (n add : Nat) (clr : Bool) : Eff :=
  match eventIdx x.s x.b.ctx n with
  | none => .trap x.s (wordTrap x .evRange)
  | some i =>
    let s := releaseAll x.s x.b 2
    if clr then .done (clearEvent s i) [] [] []
    else .done (signalEvent (stampEvent s (crewD s x.b.crew) i) i add) [] [] []

/-- EVSIG (R233), with its addend in field b (log 97). -/
def execEvsig (w : FWord) (s : State) : Host.Outcome State Fault Refusal :=
  runF s w { sysSpec 0xE1 w .z v1 v1 .z (w.m = 0) with closes := true, uni := [.a, .b] } fun x =>
    evsigEff x (uniVal x .a 0).toNat (uniVal x .b 0).toNat false

def execEvsigI (w : IWord) (s : State) : Host.Outcome State Fault Refusal :=
  runI s w { iSpec 0x20 w .z .z with legal := w.imm.toNat < 65536, closes := true } fun x =>
    evsigEff x (w.imm.toNat % 65536) 1 false

def execEvsigClr (w : FWord) (s : State) : Host.Outcome State Fault Refusal :=
  runF s w { sysSpec 0xE1 w .z v1 .z .z (w.m = 1) with closes := true, uni := [.a] } fun x =>
    evsigEff x (uniVal x .a 0).toNat 0 true

/-- EVWAIT for event `n` (R234, R235): a batch that was woken returns whatever the count holds by then. -/
def evwaitEff (x : Exec) (n thr : Nat) : Eff :=
  if isFill x then .trap x.s (wordTrap x .fillWait)
  else match eventIdx x.s x.b.ctx n with
    | none => .trap x.s (wordTrap x .evRange)
    | some i =>
      match x.b.block with
      | some (.event _ true) => .done (acquire x.s x.b 2) [] [] []
      | some (.event _ false) => .wait x.s (.event i false)
      | _ =>
        if thr ≤ eventCount x.s i then
          .done (acquire (acquireStamp x.s x.b.crew 2 false (kvGet x.s.evStamps i)) x.b 2) [] [] []
        else
          match addWaiter x.s { ev := i, ctx := x.b.ctx, node := false, who := x.b.id, threshold := thr, overflow := none } with
          | .ok s _ => .wait s (.event i false)
          | .wait s k => .wait s k
          | .bad s _ _ _ => .trap s { wordTrap x .evOverflow with src := 5 }

def execEvwait (w : FWord) (s : State) : Host.Outcome State Fault Refusal :=
  runF s w { sysSpec 0xE2 w .z v1 v1 .z (w.m = 0) with uni := [.a, .b] } fun x =>
    evwaitEff x (uniVal x .a 0).toNat (uniVal x .b 0).toNat

def execEvwaitI (w : IWord) (s : State) : Host.Outcome State Fault Refusal :=
  runI s w { iSpec 0x21 w .z .z with legal := w.imm.toNat < 65536 } fun x => evwaitEff x (w.imm.toNat % 65536) 1

def execEvq (w : FWord) (s : State) : Host.Outcome State Fault Refusal :=
  runF s w { sysSpec 0xE3 w v1 v1 .z .z (w.m = 0) with ephOk := true, uni := [.a] } fun x =>
    match eventIdx x.s x.b.ctx (uniVal x .a 0).toNat with
    | none => .trap x.s (wordTrap x .evRange)
    | some i => .res [(nameOf x .d 0, .u (kvGetD x.s.events i 0))] [] []

/-! ### Triggers and timelines (R237, R238, R366) -/

/-- Whether a resident graph names a REALTIME kernel node. -/
def graphRealtime (s : State) (g : Nat) : Bool :=
  graphResident s g && (List.range (graphCount s g)).any fun i =>
    let h := nodeWords s (graphFirst s g + i)
    hdrKind h == 0 && hdrPrio h == 3

/-- Appends a trigger to its context's queue (R366); none when the queue is full. -/
def pushTrigger (s : State) (v : W64) (level : Nat) (wid : W64) : Option State :=
  let ctx := bitsOf v 16 6
  let q := (ctxD s ctx).trigQ
  if 64 ≤ q.length then none
  else
    let t : Trigger := ⟨v, level, wid, graphRealtime s (bitsOf v 0 16), false⟩
    let first (u : Trigger) : Bool := u.begun || u.realtime
    let q := if t.realtime then (q.takeWhile first) ++ [t] ++ q.dropWhile first else q ++ [t]
    some (modCtx s ctx fun c => { c with trigQ := q })

/-- SPAWN (R237): in a fill task FILL_WAIT comes before PRIV (R389; log 98). -/
def execSpawn (w : FWord) (s : State) : Host.Outcome State Fault Refusal :=
  runF s w { sysSpec 0xE4 w .p ve .z .z (w.m.toNat < 7) with closes := true, uni := [.a] } fun x =>
    let v := uni64 x .a
    if isFill x then .trap x.s (wordTrap x .fillWait)
    else if bitsOf v 16 6 ≠ x.b.ctx then .trap x.s (wordTrap x .priv)
    else
      let s := releaseAll x.s x.b 2
      match pushTrigger s v w.m.toNat (fibreOf x.b (x.act.headD 0)).wid with
      | some s => .done s [] [(w.d.toNat, maskOf x.act)] []
      | none => .done s [] [(w.d.toNat, 0)] []

/-- The counter of a timeline moves. -/
def addTimeline (s : State) (ctx id n : Nat) : State :=
  modCtx s ctx fun c => { c with timelines := kvMod c.timelines id fun t => { t with count := t.count + n } }

def execTladv (w : FWord) (s : State) : Host.Outcome State Fault Refusal :=
  runF s w { sysSpec 0xE5 w .z .tl ve .z (w.m = 0) with closes := true, uni := [.b] } fun x =>
    match boundTimeline x.s x.b w.a.toNat with
    | none => .trap x.s (wordTrap x .tlContext)
    | some (id, t) =>
      let n := (uni64 x .b).toNat
      if t.kind ≠ 1 ∨ 2 ^ 64 ≤ t.count + n then .trap x.s (wordTrap x .tlContext)
      else .done (addTimeline (releaseAll x.s x.b t.scope) x.b.ctx id n) [] [] []

/-! ### System values (R227) -/

/-- The width class of a selector of Table 08-3; none where it lists none. -/
def selClass (n : Nat) : Option Cls :=
  if n = 2 then some ve else if n ≤ 0x0B ∨ (0x40 ≤ n ∧ n ≤ 0x43) then some v1 else none

/-- The template level that a batch was stamped at. -/
def batchLevel (s : State) (b : Batch) : Nat :=
  match (b.fibres.head?).bind fun p => p.2.img.bind fun i => kvGet s.images i with
  | some im => im.level
  | none => 0

/-- The scalar values of Table 08-3. -/
def sysValue (s : State) (b : Batch) (n : Nat) : Nat :=
  let c := crewD s b.crew
  match n with
  | 0x03 => c.rank
  | 0x04 => b.slot
  | 0x05 => b.ctx
  | 0x06 => crewClass s b.crew
  | 0x07 => accessDepth s b.crew
  | 0x08 => batchLevel s b
  | 0x09 => c.scratchBytes
  | 0x0A => c.tiles.length
  | 0x0B => (crewFibres s b.crew).length
  | 0x40 => b.core
  | 0x41 => b.core / 8
  | 0x42 => kilnFree s / 128
  | _ => 8192 - entriesHeld s

def execSysrd (w : FWord) (s : State) : Host.Outcome State Fault Refusal :=
  let n := w.m.toNat
  let sp := { sysSpec 0xF0 w ((selClass n).getD .any) .z .z .z (selClass n).isSome with
    ephOk := true, priv := decide (64 ≤ n % 128) }
  runF s w sp fun x =>
    let perLane (f : Nat → W32) : RegVal := .g (laneList fun l => if x.act.contains l then f l else 0)
    let wid (l : Nat) : W64 := (fibreOf x.b l).wid
    match n with
    | 0 => .res [(nameOf x .d 0, perLane fun l => BitVec.ofNat 32 l)] [] []
    | 1 => .res [(nameOf x .d 0, perLane fun l => BitVec.ofNat 32 (fibreIndex x.b l))] [] []
    | 2 => .res [(nameOf x .d 0, perLane fun l => (wid l).extractLsb' 0 32),
        (nameOf x .d 1, perLane fun l => (wid l).extractLsb' 32 32)] [] []
    | _ => .res [(nameOf x .d 0, .u (BitVec.ofNat 32 (sysValue x.s x.b n)))] [] []

/-! ### Control and status registers (R228, R229) -/

/-- Width class and whether it may be written, of a CSR of Table 08-4. -/
def csrShape (n : Nat) : Option (Cls × Bool) :=
  match n with
  | 0x000 => some (v1, true)
  | 0x001 => some (v1, false)
  | 0x100 => some (ve, true)
  | 0x101 => some (ve, true)
  | 0x102 => some (v1, false)
  | 0x103 => some (v1, false)
  | 0x104 => some (ve, true)
  | 0x105 => some (v1, true)
  | 0x106 => some (v1, true)
  | 0x107 => some (v1, true)
  | 0x108 => some (v1, false)
  | _ => none

/-- A CSR's value. -/
def csrGet (s : State) (b : Batch) (n : Nat) : W64 :=
  let c := crewD s b.crew
  let k := ctxD s b.ctx
  match n with
  | 0x000 => c.fpStat.zeroExtend 64
  | 0x001 => c.drainStat.zeroExtend 64
  | 0x100 => k.tvec
  | 0x101 => k.ptroot
  | 0x102 => BitVec.ofNat 64 k.tlbep
  | 0x103 => k.evrange.zeroExtend 64
  | 0x104 => k.evovfb
  | 0x105 => BitVec.ofNat 64 k.evovfn
  | 0x106 => k.wdog.zeroExtend 64
  | 0x107 => k.dbgctl.zeroExtend 64
  | _ => if k.sys then 1 else 0

/-- The bits that each context register keeps of a written value (R7, R228). -/
def keepTvec (v : W64) : W64 := v &&& 0x003FFFFFFFFFFFF8#64
def keepPtroot (v : W64) : W64 := v &&& 0x0003FFFFFFFFF000#64
def keepEvovfb (v : W64) : W64 := v &&& 0x003FFFFFFFFFFF80#64

/-- Writes a CSR. -/
def csrSet (s : State) (b : Batch) (n : Nat) (v : W64) : State :=
  let lo := v.extractLsb' 0 32
  match n with
  | 0x000 => modCrew s b.crew fun c => { c with fpStat := fpStatWrite c.fpStat lo 0x1F1F#32 }
  | 0x100 => modCtx s b.ctx fun k => { k with tvec := keepTvec v }
  | 0x101 => modCtx s b.ctx fun k => { k with ptroot := keepPtroot v }
  | 0x104 => modCtx s b.ctx fun k => { k with evovfb := keepEvovfb v }
  | 0x105 => modCtx s b.ctx fun k => { k with evovfn := lo.toNat % 2 ^ 24 }
  | 0x106 => modCtx s b.ctx fun k => { k with wdog := lo }
  | 0x107 => modCtx s b.ctx fun k => { k with dbgctl := lo &&& 1 }
  | _ => s

def csrClass (n : Nat) : Cls := ((csrShape n).map (·.1)).getD .any
def csrWritable (n : Nat) : Bool := ((csrShape n).map (·.2)).getD false

/-- The value of a 32-bit or 64-bit operand of a CSR word. -/
def csrOperand (x : Exec) (n : Nat) : W64 :=
  if csrClass n = ve then uni64 x .a else (uniVal x .a 0).zeroExtend 64

/-- The words of a CSR's value for d. -/
def csrWords (x : Exec) (n : Nat) : List (Nat × RegVal) :=
  let v := csrGet x.s x.b n
  uRegs x (if csrClass n = ve then [v.extractLsb' 0 32, v.extractLsb' 32 32] else [v.extractLsb' 0 32])

def execCsrrd (w : FWord) (s : State) : Host.Outcome State Fault Refusal :=
  let n := w.m.toNat
  let sp := { sysSpec 0xF1 w (csrClass n) .z .z .z (csrShape n).isSome with ephOk := true, priv := decide (0x100 ≤ n) }
  runF s w sp fun x => .res (csrWords x n) [] []

def execCsrwr (w : FWord) (s : State) : Host.Outcome State Fault Refusal :=
  let n := w.m.toNat
  let sp := { sysSpec 0xF2 w .z (csrClass n) .z .z (csrWritable n) with
    closes := true, priv := decide (0x100 ≤ n), uni := [.a] }
  runF s w sp fun x => .done (csrSet x.s x.b n (csrOperand x n)) [] [] []

def execCsrswp (w : FWord) (s : State) : Host.Outcome State Fault Refusal :=
  let n := w.m.toNat
  let sp := { sysSpec 0xF3 w (csrClass n) (csrClass n) .z .z (csrWritable n) with
    closes := true, priv := decide (0x100 ≤ n), uni := [.a] }
  runF s w sp fun x => .done (csrSet x.s x.b n (csrOperand x n)) (csrWords x n) [] []

/-! ### Traps (R230, R231) -/

/-- The resume pc of TRAP and BKPT, and their code (Table 20-2). -/
def codeTrap (x : Exec) (c : Cause) (w : FWord) : TrapInfo :=
  { wordTrap x c with code := (imm18 w).toNat, rpc := x.b.pc + 8 }

def codeSpec (op : Nat) (w : FWord) : Spec :=
  { sysSpec op w .z .z .any .any (w.m = 0 && decide (0 ≤ imm18 w) && decide (imm18 w < 65536)) with closes := true }

/-- TRAP (R230). It raises its cause once it has issued, as a trapping BKPT does, and counts as a word issued; a word that meets any
other cause does not. Table 08-6 does not say: the model's choice (log 108). -/
def execTrap (w : FWord) (s : State) : Host.Outcome State Fault Refusal :=
  runF s w (codeSpec 0xF4 w) fun x => .trap (perfAdd x.s x.b.crew 0 1) (codeTrap x .softTrap w)

def execBkpt (w : FWord) (s : State) : Host.Outcome State Fault Refusal :=
  runF s w (codeSpec 0xF6 w) fun x =>
    if (ctxD x.s x.b.ctx).dbgctl.getLsbD 0 then .trap (perfAdd x.s x.b.crew 0 1) (codeTrap x .breakpoint w)
    else .done x.s [] [] []

def execTret (w : FWord) (s : State) : Host.Outcome State Fault Refusal :=
  runF s w { sysSpec 0xF5 w .z .z .z .z (w.m = 0) with closes := true, priv := true } fun x =>
    let k (i : Nat) : W32 := laneVal (readReg x.s x.b (512 + i)) 0
    let rpc := (k 1) ++ (k 0)
    let rwb := (k 2).toNat % 512
    if !([0, 1, 2].all fun i => isUni (rawReg x.s x.b (512 + i))) then .trap x.s (wordTrap x .shape)
    else match [512, 513, 514].findSome? (regFault x.s x.b x.act) with
    | some (c, ls) => .trap x.s { wordTrap x c with lanes := ls }
    | none =>
    if 1024 ≤ (k 2).toNat then .trap x.s (wordTrap x .illField)
    else if rpc.toNat % 8 ≠ 0 then .trap x.s (wordTrap x .align)
    else if 2 ^ 54 ≤ rpc.toNat then .trap x.s (wordTrap x .pageAbsent)
    else if rwb % 8 ≠ 0 ∨ windowLimit x.s x.b < rwb + 8 then .trap x.s (wordTrap x .regWindow)
    else .jump (trapReturn x.s x.b.id (rpc.extractLsb' 0 54) rwb ((k 2).getLsbD 9)) [x.b.id]

/-! ### Clock and counters (R239, R240) -/

/-- A 64-bit value in d and d+1, as U. -/
def uPair (x : Exec) (v : Nat) : List (Nat × RegVal) := uRegs x [BitVec.ofNat 32 v, BitVec.ofNat 32 (v / 2 ^ 32)]

/-- CLOCK (R239): every core reads the one clock. R239 allows the readings of two cores to differ by up to 8 ac; the model's differ
by none (log 107). -/
def execClock (w : FWord) (s : State) : Host.Outcome State Fault Refusal :=
  runF s w { sysSpec 0xF7 w ve .z .z .z (w.m = 0) with ephOk := true } fun x => .res (uPair x x.s.clock) [] []

/-- A counter of a crew, with the ac of the parks and waits of its batches that are under way (Table 08-6). -/
def crewCount (s : State) (crew i : Nat) : Nat :=
  let mine := s.batches.filter fun b => b.crew == crew
  let running : Nat :=
    if i = 2 then ((mine.filter (·.parked)).map fun b => s.clock - b.parkedAt).sum
    else if i = 6 then ((mine.filter fun b => b.block.any timedWait).map fun b => s.clock - b.blockedAt).sum
    else 0
  min satMax (kvGetD (crewD s crew).counters i 0 + running)

def execPerfrd (w : FWord) (s : State) : Host.Outcome State Fault Refusal :=
  runF s w { sysSpec 0xF8 w ve v1 .z .z (w.m = 0) with ephOk := true, uni := [.a] } fun x =>
    let i := (uniVal x .a 0).toNat
    .res (uPair x (if i ≤ 7 then crewCount x.s x.b.crew i else 0)) [] []

/-! ### Page generations and epochs (R241, R242, R434, R437) -/

/-- TLBEPOCH (R242): the epoch moves, and every core drops the context's older entries that are not global. -/
def nextEpoch (s : State) (ctx : Nat) : State :=
  let s := modCtx s ctx fun c => { c with tlbep := (c.tlbep + 1) % 16 }
  let e := (ctxD s ctx).tlbep
  let keep (t : TlbEntry) : Bool := t.ctx != ctx || leafGlb t.leaf || t.epoch == e
  { s with cores := s.cores.map fun c => { c with
    utlb := c.utlb.filter keep
    ptes := c.ptes.filter fun t => t.ctx != ctx || t.epoch == e } }

/-- Whether a cached leaf maps a byte of the physical range from `lo` to `hi`. -/
def leafMeets (s : State) (t : TlbEntry) (lo hi : Nat) : Bool :=
  let p := xformPair s t.ctx t.leaf
  let len := if leafKind t.leaf = 3 then t.size * elemBytes (p % 16) / max 1 (elemBytes (p / 16 % 16)) else t.size
  (leafKind t.leaf == 1 || leafKind t.leaf == 3) && decide (leafPA t.leaf < hi) && decide (lo < leafPA t.leaf + len)

/-- The places of a batch's held stores that lie in a physical range: their accesses reached the home as their words issued (R437;
log 34). -/
def storesIn (s : State) (b : Batch) (lo hi : Nat) (i : Nat) : Bool :=
  (b.stores[i]?).any fun r => match r.loc with
    | .mem pa _ _ => decide (lo ≤ pa) && decide (pa < hi)
    | .xform va l => let pa := xformAddr s b.ctx l va
        decide (lo ≤ pa) && decide (pa < hi)
    | _ => false

/-- Held stores to frames are performed in the frames' old life (R437). -/
def storesOut (s : State) (lo hi : Nat) : State :=
  (s.batches.filter fun b => !b.stores.isEmpty).foldl (fun s b => performThose s b (storesIn s b lo hi)) s

/-- The errors in the LLC's copies of frames: a dirty copy is written back with its error, or dropped with it when the frames are
new. -/
def bumpUpsets (s : State) (lo hi : Nat) (new : Bool) : State :=
  if s.upsets.isEmpty then s
  else { s with upsets := s.upsets.filterMap fun u => match u with
    | .llc w => if lo ≤ 8 * w ∧ 8 * w < hi then (if new then none else some (.mem w)) else some u
    | .line _ k _ => if lo ≤ 128 * k ∧ 128 * k < hi then none else some u
    | u => some u }

/-- PGBUMP and PGNEW on `n` frames from `pa` (R437): copies leave every L1 and the LLC, written back unless the frames are new,
translations leave every micro-TLB, and the generations advance, with the zero masks of new frames. -/
def bumpFrames (s : State) (pa n : Nat) (new : Bool) : State :=
  let top := pa + 4096 * n
  let mine (k : Nat) : Bool := decide (pa / 128 ≤ k) && decide (k < top / 128)
  let s := storesOut s pa top
  let s := if new then s
    else (List.range s.cores.length).foldl (fun s i =>
      (((coreD s i).l1.filter fun p => mine p.1).map (·.1)).foldl (fun s k => writeBack s i k) s) s
  let s := bumpUpsets s pa top new
  let upd (c : Core) : Core := { c with
    l1 := c.l1.filter fun p => !mine p.1
    utlb := c.utlb.filter fun t => !leafMeets s t pa top
    ptes := c.ptes.filter fun t => !(decide (pa ≤ leafPA t.e) && decide (leafPA t.e < top)) }
  let s := { s with cores := s.cores.map upd }
  let fs := (List.range n).map fun i => pa / 4096 + i
  { s with
    pageGen := fs.foldl (fun t f => kvPut 0 t f ((kvGetD t f 0 + 1) % 256)) s.pageGen
    zeroMask := if new then fs.foldl (fun t f => kvSet t f (2 ^ 32 - 1)) s.zeroMask else s.zeroMask }

/-- The home at which PGBUMP or PGNEW waits: that of a column with frames of theirs, of which a remap step runs (R482). -/
def framesWait (s : State) (pa n : Nat) : Option Block :=
  (s.remaps.find? fun r => r.running && decide (0x800000000 + 0x10000000 * r.col < pa + 4096 * n) &&
    decide (pa < 0x800000000 + 0x10000000 * (r.col + 1))).map fun r => 
    let base := 0x800000000 + 0x10000000 * r.col
    .home (base / 128) (kvGetD s.pageGen (base / 4096) 0)

/-- The checks of R241 and the effect. -/
def pageEff (x : Exec) (new : Bool) : Eff :=
  let pa := (uni64 x .a).toNat
  let n := (uniVal x .b 0).toNat
  if pa % 4096 ≠ 0 ∨ 2 ^ 50 ≤ pa ∨ n = 0 ∨ 4194304 < n then .trap x.s (wordTrap x .illField)
  else
    let last := pa + 4096 * (n - 1)
    let stack (p : Nat) : Bool := decide (0x800000000 ≤ p)
    if !hasGen pa ∨ !hasGen last ∨ stack pa ≠ stack last then .trap x.s (wordTrap x .pageAbsent)
    else match framesWait x.s pa n with
      | some k => .wait x.s k
      | none => .done (nextEpoch (bumpFrames x.s pa n new) x.b.ctx) [] [] []

def pageSpec (op : Nat) (w : FWord) : Spec :=
  { sysSpec op w .z ve v1 .z (w.m = 0) with closes := true, priv := true, uni := [.a, .b] }

def execPgbump (w : FWord) (s : State) : Host.Outcome State Fault Refusal :=
  runF s w (pageSpec 0xF9 w) fun x => pageEff x false

def execPgnew (w : FWord) (s : State) : Host.Outcome State Fault Refusal :=
  runF s w (pageSpec 0xFA w) fun x => pageEff x true

def execTlbepoch (w : FWord) (s : State) : Host.Outcome State Fault Refusal :=
  runF s w { sysSpec 0xFB w v1 .z .z .z (w.m = 0) with closes := true, priv := true } fun x =>
    let s := nextEpoch x.s x.b.ctx
    .done s [(nameOf x .d 0, .u (BitVec.ofNat 32 (ctxD s x.b.ctx).tlbep))] [] []

/-! ### HALT, WSREMAP, MONCTL (R243 to R245) -/

/-- A context stops: no batch of it issues, no node of it starts and no cluster of it is placed; its clusters are saved
by PREEMPT_CLUSTER, and CTX_HALTED follows the last save (Table 19-4). -/
def haltContext (s : State) (ctx : Nat) : State := modCtx s ctx fun c => { c with state := .halting }

def execHalt (w : FWord) (s : State) : Host.Outcome State Fault Refusal :=
  runF s w { sysSpec 0xFC w .z v1 .z .z (w.m = 0) with closes := true, priv := true, uni := [.a] } fun x =>
    .done (haltContext (recField x.s x.b.ctx 5 32 32 (uniVal x .a 0).toNat) x.b.ctx) [] [] []

def execWsremap (w : FWord) (s : State) : Host.Outcome State Fault Refusal :=
  runF s w { sysSpec 0xFD w .z v1 v1 .z (w.m = 0) with closes := true, priv := true, uni := [.a, .b] } fun x =>
    let c := (uniVal x .a 0).toNat
    let b := (uniVal x .b 0).toNat
    if !(ctxD x.s x.b.ctx).sys then .trap x.s (wordTrap x .priv)
    else if 128 ≤ c ∨ 128 ≤ b then .trap x.s (wordTrap x .illField)
    else if bankRetired x.s c b then
      let s := leaveRemaps x.s x.b.id
      .done (nextRemap c s s.remaps) [] [] []
    else if !remapTurn x.s c x.b.id then .wait (queueRemap x.s c b x.b) (.remap c)
    else .done (startRemap (leaveRemaps x.s x.b.id) c b) [] [] []

/-- The common checks of MONCTL (R245). -/
def monEff (x : Exec) (f : Nat → Eff) : Eff :=
  let m := (uniVal x .a 0).toNat
  if !(ctxD x.s x.b.ctx).sys then .trap x.s (wordTrap x .priv)
  else if 32 ≤ m then .trap x.s (wordTrap x .illField)
  else f m

def setMonitor (s : State) (m : Nat) (v : Monitor) : State := { s with monitors := kvPut {} s.monitors m v }

def execMonctlCfg (w : FWord) (s : State) : Host.Outcome State Fault Refusal :=
  runF s w { sysSpec 0xFE w .z v1 vq .z (w.m = 0) with closes := true, priv := true, uni := [.a, .b] } fun x =>
    monEff x fun m =>
      let v := (uniVal x .b 0).toNat
      if 2 ^ 24 ≤ v ∨ uniVal x .b 1 ≠ 0 ∨ uniVal x .b 2 ≠ 0 ∨ uniVal x .b 3 ≠ 0 ∨ v % 256 = 0 ∨ 10 < v % 256 then
        .trap x.s (wordTrap x .illField)
      else .done (setMonitor x.s m {
        src := v % 256, en := v.testBit 8, e0 := v / 2 ^ 9 % 32, step := v / 2 ^ 14 % 8, ctx := v / 2 ^ 17 % 64
        allctx := v.testBit 23 }) [] [] []

def execMonctlClr (w : FWord) (s : State) : Host.Outcome State Fault Refusal :=
  runF s w { sysSpec 0xFE w .z v1 .z .z (w.m = 1) with closes := true, priv := true, uni := [.a] } fun x =>
    monEff x fun m =>
      let v := kvGetD x.s.monitors m {}
      .done (setMonitor x.s m { v with min := satMax, max := 0, bins := [] }) [] [] []

def execMonctlRd (w : FWord) (s : State) : Host.Outcome State Fault Refusal :=
  runF s w { sysSpec 0xFE w vq v1 v1 .z (w.m = 2) with priv := true, uni := [.a, .b] } fun x =>
    monEff x fun m =>
      let v := kvGetD x.s.monitors m {}
      let i := (uniVal x .b 0).toNat
      let p := if i = 0 then (v.min, v.max)
        else if i ≤ 8 then (kvGetD v.bins (2 * (i - 1)) 0, kvGetD v.bins (2 * i - 1) 0) else (0, 0)
      .res (uRegs x [BitVec.ofNat 32 p.1, BitVec.ofNat 32 (p.1 / 2 ^ 32), BitVec.ofNat 32 p.2, BitVec.ofNat 32 (p.2 / 2 ^ 32)]) [] []

end Sys2Proof.Machine
end

