-- ==== Sys2Proof/Machine/Flue.lean ====
section
/-! DEFINITION. Flue contexts (chapter 11): FLUESUB and its reset (R291, R292, R314), command lists (R294 to R300), tensor
map records (R301, R302), windows and their delivery (R303 to R311), and stops (R312, R313). One turn of an engine
is one step (R290). -/
namespace Sys2Proof.Machine
open Sys2Proof

/-! ### Crews that commands name (R294, R311) -/

def isSaved (s : State) (uid : Nat) : Bool := (findCrew s uid).isNone && (savedCrew s uid).isSome

/-- Changes a crew, resident or saved. -/
def modAnyCrew (s : State) (uid : Nat) (f : Crew → Crew) : State :=
  let upd (c : Crew) : Crew := if c.uid = uid then f c else c
  { s with
    crews := s.crews.map upd
    clusters := s.clusters.map fun k => { k with savedCrews := k.savedCrews.map upd } }

/-- Changes every crew, resident or saved. -/
def mapCrews (s : State) (f : Crew → Crew) : State :=
  { s with
    crews := s.crews.map f
    clusters := s.clusters.map fun k => { k with savedCrews := k.savedCrews.map f } }

/-- The crew of a rank of a cluster. -/
def rankCrew (s : State) (cluster rank : Nat) : Option Crew :=
  (s.crews.find? fun c => c.cluster == cluster && c.rank == rank && c.fill.isNone).or
    (s.clusters.findSome? fun k => if k.id = cluster then k.savedCrews.find? fun c => c.rank = rank else none)

/-! ### Accesses of a command -/

/-- What a turn comes to. -/
inductive Turn (α : Type) where
  | ok (s : State) (v : α)
  | stop (s : State) (h : Held)
  /-- the context is BLOCKED -/
  | wait (s : State)
  /-- the context is SUSPENDED (R311) -/
  | susp

def stopWith {α : Type} (s : State) (c : Cause) : Turn α := .stop s { cause := c }

/-- Runs a turn after another. -/
def Turn.andThen {α β : Type} (t : Turn α) (f : State → α → Turn β) : Turn β :=
  match t with
  | .ok s v => f s v
  | .stop s h => .stop s h
  | .wait s => .wait s
  | .susp => .susp

/-- Runs a turn for each member of a list. -/
def turnAll {α β : Type} (f : State → α → Turn β) (s : State) : List α → Turn (List β)
  | [] => .ok s []
  | a :: as => (f s a).andThen fun s b => (turnAll f s as).andThen fun s bs => .ok s (b :: bs)

/-- An engine access as a turn. -/
def ofEng {α : Type} (e : Eng α) : Turn α :=
  match e with
  | .ok s v => .ok s v
  | .bad s c f _ => .stop s (heldOf c f)
  | .wait s _ => .wait s

/-- Where an address of a command lies: a VA, or the scratch of a crew with the address inside its own scratch. -/
inductive FluePlace where
  | plain
  | crew (uid va : Nat)
  | saved
  | gone

/-- A scratch-window address resolves against the reference crew of the list, and a rank through its cluster. -/
def fluePlace (s : State) (l : FlueList) (va : Nat) : FluePlace :=
  if !inScratchWindow va then .plain
  else
    match l.crew with
    | none => .gone
    | some (uid, cl, _) =>
      let who := if va.testBit 21 then
          rankCrew s cl (va / 2 ^ 22 % 256)
        else anyCrew s uid
      match who with
      | none => .gone
      | some c => if isSaved s c.uid then .saved else .crew c.uid (va - va / 2 ^ 21 % 2 ^ 9 * 2 ^ 21)

def flueAgent (f : FlueCtx) (crew : Option Nat) : Agent := { ctx := f.ctx, crew := crew, who := .flue (tlKey f.ctx f.tl) }

/-- ATTR_SPAN of a whole range of a command, before any byte of it moves (R402). -/
def flueSpan (s : State) (f : FlueCtx) (u : Use) (va n : Nat) : Option Cause := spanFault s (flueAgent f none) u va n

/-- A read of a command; `inner` for a unit of a larger access that has been checked whole. -/
def flueRead (s : State) (f : FlueCtx) (l : FlueList) (va n : Nat) (inner : Bool := false) : Turn (List Byte) :=
  match fluePlace s l va with
  | .plain => ofEng (engineRead s { flueAgent f none with inner := inner } va n)
  | .crew uid va => ofEng (engineRead s (flueAgent f (some uid)) va n)
  | .saved => .susp
  | .gone => stopWith s .clusterAddr

def flueWrite (s : State) (f : FlueCtx) (l : FlueList) (va : Nat) (bs : List Byte) : Turn Unit :=
  match fluePlace s l va with
  | .plain => ofEng (engineWrite s (flueAgent f none) va bs)
  | .crew uid va => ofEng (engineWrite s (flueAgent f (some uid)) va bs)
  | .saved => .susp
  | .gone => stopWith s .clusterAddr

/-- The places of a scratch range under a bank mode (R274): each byte has its own; the range check is on the logical offset
(R275). -/
def bankPlaces (off n mode : Nat) : List (Nat × Nat) := (List.range n).map fun i => (scratchPlace (off + i) mode, 1)

def bankRead (s : State) (uid off n mode : Nat) : Turn (List Byte) :=
  let ps := bankPlaces off n mode
  if ps.any fun p => scratchBad s .load uid p.1 1 then stopWith s .eccUeScratch
  else .ok s (ps.flatMap fun p => scratchRead s uid p.1 1)

def bankPut (s : State) (uid off : Nat) (bs : List Byte) (mode : Nat) : State :=
  bs.zipIdx.foldl (fun s p => scratchWrite s uid (scratchPlace (off + p.2) mode) [p.1]) s

/-- A write of several runs, which meets an error where it replaces a protected word in part (R286, R312). -/
def bankWrite (s : State) (uid : Nat) (runs : List (Nat × List Byte)) (mode : Nat) : Turn Unit :=
  let ps := runs.flatMap fun r => bankPlaces r.1 r.2.length mode
  if partScratch s uid ps then stopWith s .eccUeScratch
  else .ok (runs.foldl (fun s r => bankPut s uid r.1 r.2 mode) (coverScratch s uid ps)) ()

/-- The crew and offset of `n` bytes at a window address, which R156's first check has let through: an element's address may lie
beyond 2^54 (R312). -/
def windowLoc (s : State) (l : FlueList) (va rel n : Nat) : Turn (Nat × Nat) :=
  if 2 ^ 54 ≤ va then stopWith s .pageAbsent
  else match fluePlace s l va with
  | .plain => stopWith s .clusterAddr
  | .saved => .susp
  | .gone => stopWith s .clusterAddr
  | .crew uid va =>
    match scratchLoc s uid (va % 2 ^ 32) 1 with
    | .error c => stopWith s c
    | .ok (d, off) => if (crewD s d).scratchBytes < off + rel + n then stopWith s .scratchRange else .ok s (d, off + rel)

/-! ### Tensor map records (R301, R302) -/

/-- A decoded TMR: dimensions, boxes, strides by k = 0 to 4 (1, 1, 0 at and above the rank). -/
structure Tmr where
  base : Nat
  fmt : Nat
  rank : Nat
  sbank : Nat
  fill : Nat
  order : Nat
  fconst : Nat
  d : List Nat
  b : List Nat
  st : List Nat
  dbank : Nat
  pitch : Nat

/-- The checks of R301 on the twelve words. -/
def readTmr (w : List W64) : Except Cause Tmr :=
  let g (i lo n : Nat) : Nat := bitsOf (w.getD i 0) lo n
  let dims := (w.getD 2 0).toNat + 2 ^ 64 * (w.getD 3 0).toNat
  let fmt := g 1 0 4
  let rk := g 1 4 3 + 1
  let ks := List.range 5
  let d := ks.map fun k => dims / 2 ^ (24 * k) % 2 ^ 24
  let b := ks.map fun k => g 8 (12 * k) 12
  let sk := ks.map fun k => if k = 0 then elemBytes fmt else g (3 + k) 0 48
  let base := g 0 0 54
  let above := ks.filter fun k => decide (rk ≤ k)
  let within := ks.filter fun k => decide (k < rk)
  if g 0 54 10 ≠ 0 ∨ g 1 7 1 ≠ 0 ∨ g 1 48 16 ≠ 0 ∨ g 3 56 8 ≠ 0 ∨ (ks.any fun k => decide (k ≠ 0) && g (3 + k) 48 16 != 0) ∨
      g 8 60 4 ≠ 0 ∨ g 9 20 44 ≠ 0 ∨ w.getD 10 0 ≠ 0 ∨ w.getD 11 0 ≠ 1 ∨ 10 < fmt ∨ 5 < rk ∨ g 1 14 2 = 3 ∨
      (g 1 8 4 ≠ 0 ∧ !inScratchWindow base) ∨
      (above.any fun k => d.getD k 0 != 0 || b.getD k 0 != 0 || sk.getD k 0 != 0) then
    .error .tmrReserved
  else if (within.any fun k => d.getD k 0 == 0 || sk.getD k 0 % elemBytes fmt != 0) ∨ base % elemBytes fmt ≠ 0 ∨ g 9 4 16 = 0 then
    .error .tmrRange
  else
    let cut (x dflt : Nat) (k : Nat) : Nat := if k < rk then x else dflt
    .ok {
      base := base, fmt := fmt, rank := rk, sbank := g 1 8 4, fill := g 1 12 2, order := g 1 14 2, fconst := g 1 16 32
      d := ks.map fun k => cut (d.getD k 0) 1 k
      b := ks.map fun k => cut (b.getD k 0 + 1) 1 k
      st := sk, dbank := g 9 0 4, pitch := g 9 4 16 }

/-- nw_k. -/
def tmrWindows (t : Tmr) : List Nat := (List.range 5).map fun k => (t.d.getD k 1 + t.b.getD k 1 - 1) / t.b.getD k 1

/-- Digits of a number in mixed radix, the first radix fastest. -/
def digitsIn : Nat → List Nat → List Nat
  | _, [] => []
  | v, r :: rs => v % r :: digitsIn (v / r) rs

/-- The box coordinates of window `w` (R302). -/
def windowBox (t : Tmr) (w : Nat) : List Nat :=
  let nw := (tmrWindows t).take t.rank
  if t.order = 1 then (digitsIn w nw.reverse).reverse
  else
    let c := digitsIn w nw
    if t.order = 2 ∧ 2 ≤ t.rank ∧ c.getD 1 0 % 2 = 1 then c.set 0 (nw.getD 0 1 - 1 - c.getD 0 0) else c

/-- The elements of a window: j, and x with whether it is in range. -/
def windowElems (t : Tmr) (w : Nat) : List (List Nat × List Nat × Bool) :=
  let c := windowBox t w
  (List.range t.b.prod).map fun n =>
    let j := digitsIn n t.b
    let x := (List.range 5).map fun k => c.getD k 0 * t.b.getD k 1 + j.getD k 0
    (j, x, (List.range 5).all fun k => decide (x.getD k 0 < t.d.getD k 1))

def elemAddr (t : Tmr) (x : List Nat) : Nat := t.base + ((List.range 5).map fun k => x.getD k 0 * t.st.getD k 0).sum

/-- R303's place of element j in a slot, for elements of `e` bytes. -/
def slotPlace (t : Tmr) (e : Nat) (j : List Nat) : Nat :=
  let g (k : Nat) : Nat := j.getD k 0
  let b (k : Nat) : Nat := t.b.getD k 1
  16 * t.pitch * (g 1 + b 1 * (g 2 + b 2 * (g 3 + b 3 * g 4))) + e * g 0

/-- Whether two formats may be paired (R302). -/
def pairOk (a b : Nat) : Bool :=
  if a ≤ 3 then a == b else decide (4 ≤ a) && decide (a ≤ 10) && decide (4 ≤ b) && decide (b ≤ 10)

/-- Conversion of an element's bytes (R302); raw formats pass unchanged. -/
def flueConvert (src dst : Nat) (bs : List Byte) : List Byte :=
  if src ≤ 3 then bs else leBytes (elemBytes dst) (elemConvert src dst (leNat bs))

/-- The elements of a window row by row along dimension 0: an engine's access is one row (R402; log 76). -/
def windowRows (t : Tmr) (w : Nat) : List (List (List Nat × List Nat × Bool)) :=
  let els := windowElems t w
  let b := t.b.getD 0 1
  (List.range (els.length / b)).map fun i => (els.drop (b * i)).take b

/-- Reads `n` bytes of a tensor, through SBANK in scratch. -/
def tensorRead (s : State) (f : FlueCtx) (l : FlueList) (t : Tmr) (va n : Nat) : Turn (List Byte) :=
  if inScratchWindow t.base then (windowLoc s l va 0 n).andThen fun s p => bankRead s p.1 p.2 n t.sbank
  else flueRead s f l va n

def tensorWrite (s : State) (f : FlueCtx) (l : FlueList) (t : Tmr) (va : Nat) (bs : List Byte) : Turn Unit :=
  if bs.isEmpty then .ok s ()
  else if inScratchWindow t.base then
    (windowLoc s l va 0 bs.length).andThen fun s p => bankWrite s p.1 [(p.2, bs)] t.sbank
  else flueWrite s f l va bs

/-- A run of bytes as elements of `e` bytes. -/
def elemsOf (e : Nat) (bs : List Byte) : List (List Byte) := (List.range (bs.length / e)).map fun i => (bs.drop (e * i)).take e

/-- The value of an element out of range, in the tensor's format (R302). -/
def fillElem (f : FlueCtx) (l : FlueList) (t : Tmr) (s : State) (x : List Nat) : Turn (List Byte) :=
  let e := elemBytes t.fmt
  match t.fill with
  | 0 => .ok s (List.replicate e 0)
  | 1 => .ok s (leBytes e t.fconst)
  | 2 => tensorRead s f l t (elemAddr t ((List.range 5).map fun k => min (x.getD k 0) (t.d.getD k 1 - 1))) e
  | _ => stopWith s .tmrRange

/-- The values of one row of a window in the delivered format (R302): its elements in range lie together. -/
def windowRow (f : FlueCtx) (l : FlueList) (t : Tmr) (dfmt : Nat) (s : State) (row : List (List Nat × List Nat × Bool)) :
    Turn (List (List Nat × List Byte)) :=
  let ins := row.filter fun q => q.2.2
  let out := row.filter fun q => !q.2.2
  let deliver (q : List Nat) (bs : List Byte) : List Nat × List Byte :=
    (q, if t.fill = 0 ∧ out.any (fun p => p.1 == q) then List.replicate (elemBytes dfmt) 0 else flueConvert t.fmt dfmt bs)
  let run : Turn (List Byte) := match ins with
    | [] => .ok s []
    | q :: _ => tensorRead s f l t (elemAddr t q.2.1) (elemBytes t.fmt * ins.length)
  run.andThen fun s bs => (turnAll (fun s q => fillElem f l t s q.2.1) s out).andThen fun s fs =>
    .ok s (((ins.map (·.1)).zip (elemsOf (elemBytes t.fmt) bs) ++ (out.map (·.1)).zip fs).map fun p => deliver p.1 p.2)

/-! ### The context's own changes -/

def modFlue (s : State) (k : Nat) (g : FlueCtx → FlueCtx) : State := { s with flues := kvMod s.flues k g }

/-- The command at work is done: the next one follows. -/
def cmdDone (s : State) (k : Nat) : State := modFlue s k fun f => { f with pos := f.pos + 1, work := none, binds := [] }

/-- The address of the current command. -/
def cmdAddr (f : FlueCtx) : Nat := (f.queue.head?.map (·.va)).getD 0 + 32 * f.pos

/-- Every buffer of a context detaches (R304). -/
def detachAll (s : State) (k : Nat) : State :=
  mapCrews s fun c => { c with cbs := c.cbs.map fun b => if b.flue = some k then { b with flue := none } else b }

/-- A context stops (R312): it holds its cause, and FAULT is set in the barriers bound to its buffers and in that of
its blocked BARARR (R313). -/
def stopFlue (s : State) (k : Nat) (h : Held) : State :=
  match kvGet s.flues k with
  | none => s
  | some f =>
    let fault (b : Barrier) : Barrier := { b with fault := true, fcause := h.cause.code, faultBy := some k }
    let upd (c : Crew) : Crew :=
      let bound (i : Nat) : Bool := (c.cbs.any fun b => b.init && b.flue == some k && b.bind == some i) || f.binds.contains (c.uid, i)
      { c with barriers := c.barriers.zipIdx.map fun p => if bound p.2 then fault p.1 else p.1 }
    modFlue (wakeWaiters (mapCrews s upd)) k fun f => { f with
      state := 3, cause := some h, causeAddr := cmdAddr f, work := none, binds := [], fillWait := [] }

/-- The reset of R314; a barrier's FAULT stays, and it no longer names the context. -/
def resetFlue (s : State) (k : Nat) : State :=
  let upd (c : Crew) : Crew :=
    { c with barriers := c.barriers.map fun b => if b.faultBy = some k then { b with faultBy := none } else b }
  modFlue (mapCrews (detachAll s k) upd) k fun f => { ctx := f.ctx, tl := f.tl, engine := f.engine }

/-! ### FLUESUB (R291, R292) -/

/-- The Flue context that tl_j of the batch names; its key. -/
def boundFlue (s : State) (b : Batch) (j : Nat) : Option (Nat × FlueCtx) :=
  match boundTimeline s b j with
  | some (id, t) => if t.kind = 2 then (kvGet s.flues (tlKey b.ctx id)).map fun f => (tlKey b.ctx id, f) else none
  | none => none

/-- A list joins a context's queue (R292); none where the queue is full or the context STOPPED. -/
def queueList (s : State) (k : Nat) (f : FlueCtx) (l : FlueList) : Option State :=
  if 16 ≤ f.queue.length ∨ f.state = 3 then none
  else some (modFlue s k fun f => { f with queue := f.queue ++ [l], state := if f.state = 0 then 1 else f.state })

def fluesubSpec (w : FWord) (b c : Cls) (ok : Bool) : Spec :=
  { sysSpec 0xE0 w .p .tl b c ok with closes := true, uni := [.b, .c] }

def execFluesub (w : FWord) (s : State) : Host.Outcome State Fault Refusal :=
  runF s w (fluesubSpec w ve v1 (w.m = 0)) fun x =>
    match boundFlue x.s x.b w.a.toNat with
    | none => .trap x.s (wordTrap x .tlContext)
    | some (k, _) =>
      if isFill x then .trap x.s (wordTrap x .fillWait)
      else
        let va := (uni64 x .b).toNat
        let n := (uniVal x .c 0).toNat
        if n = 0 ∨ 65535 < n then .trap x.s (wordTrap x .illField)
        else if va % 32 ≠ 0 then .trap x.s (addrTrap x .align va)
        else if 2 ^ 54 ≤ va then .trap x.s (addrTrap x .pageAbsent va)
        else
          let s := releaseAll x.s x.b 2
          let c := crewD s x.b.crew
          match queueList s k (kvGetD s.flues k default) { va := va, count := n, crew := some (c.uid, c.cluster, ((findCluster s c.cluster).map (·.ranks)).getD []), node := none, bars := c.barriers.length } with
          | some s => .done s [] [(w.d.toNat, maskOf x.act)] []
          | none => .done s [] [(w.d.toNat, 0)] []

def execFluesubRst (w : FWord) (s : State) : Host.Outcome State Fault Refusal :=
  runF s w (fluesubSpec w .z .z (w.m = 1)) fun x =>
    match boundFlue x.s x.b w.a.toNat with
    | none => .trap x.s (wordTrap x .tlContext)
    | some (k, _) =>
      if isFill x then .trap x.s (wordTrap x .fillWait)
      else .done (resetFlue x.s k) [] [(w.d.toNat, maskOf x.act)] []

/-! ### Commands (R294, R296) -/

/-- The bits of c0 to c3 that Table 11-3 names; none for an opcode that it does not list. -/
def cmdMask (op : Nat) : Option (List Nat) :=
  let m (n : Nat) : Nat := 2 ^ n - 1
  match op with
  | 0x01 => some [0xFFFF7FFFFFFF, m 54, m 64, 0]
  | 0x02 => some [0xFF, m 54, m 54, m 32]
  | 0x03 => some [0xFFF, m 54, m 54, m 48]
  | 0x04 => some [0xFFF, m 54, m 64, m 64]
  | 0x05 => some [0x7FF, m 54, m 64, m 32]
  | 0x06 => some [0xFF, m 32, m 32, 0]
  | 0x07 => some [0xFF, 0, 0, 0]
  | 0x08 => some [0xFFFF00FF, m 64, 0, 0]
  | 0x09 => some [0xFF, m 64, 0, 0]
  | 0x0A => some [0xFFFF01FF, m 32, 0, 0]
  | 0x0B => some [0x7FC0FFF, m 48, 0, 0]
  | 0x0C => some [0xFF, 0, 0, 0]
  | _ => none

/-- Whether a command's set bits are all named. -/
def cmdOk (c : List W64) : Bool :=
  match cmdMask (bitsOf (c.getD 0 0) 0 8) with
  | none => false
  | some ms => (c.zip ms).all fun p => p.1.toNat &&& p.2 == p.1.toNat

/-- The words of the current command: those at work, or those in the list. -/
def cmdWords (s : State) (f : FlueCtx) (l : FlueList) : Turn (List W64) :=
  match f.work with
  | some w => .ok s w.words
  | none =>
    if l.count ≤ f.pos then stopWith s .flueCmd
    else (flueRead s f l (cmdAddr f) 32).andThen fun s bs => .ok s (wordsOf bs 4)

/-- The opcode of the current command when it is a well-formed one. -/
def flueOp (s : State) (f : FlueCtx) : Option Nat :=
  match f.queue with
  | [] => none
  | l :: _ =>
    match cmdWords s f l with
    | .ok _ c => if cmdOk c then some (bitsOf (c.getD 0 0) 0 8) else none
    | _ => none

/-- The additions of the open loops to FIRST (R299). -/
def loopOffset (f : FlueCtx) : Nat := (f.loops.map fun l => l.iter * l.step).sum % 2 ^ 32

/-- Reads and checks a command's TMR; its address must be a multiple of 32 (R297). -/
def loadTmr (s : State) (f : FlueCtx) (l : FlueList) (va : Nat) : Turn (List W64 × Tmr) :=
  if va % 32 ≠ 0 then stopWith s .flueCmd
  else (flueRead s f l va 96).andThen fun s bs =>
    let w := wordsOf bs 12
    match readTmr w with
    | .error c => stopWith s c
    | .ok t => if l.crew.isNone ∧ inScratchWindow t.base then stopWith s .clusterAddr else .ok s (w, t)

/-- The crews that a rank names for a list (R297, R308); 0 for one that has exited. -/
def rankTarget (s : State) (l : FlueList) (rank : Nat) : Option Nat :=
  match l.crew with
  | none => none
  | some (_, cl, ns) => if !ns.contains rank then none else some (((rankCrew s cl rank).map (·.uid)).getD 0)

/-- The targets of a STREAM (R297). -/
def streamTargets (s : State) (l : FlueList) (c0 : W64) : Except Cause (List Nat) :=
  let own := c0.getLsbD 26
  let mc := c0.getLsbD 17
  let rbase := bitsOf c0 18 8
  let mask := bitsOf c0 32 16
  match l.crew with
  | none => .error .clusterAddr
  | some (uid, _, _) =>
    if (own ∧ (mc ∨ rbase ≠ 0 ∨ mask ≠ 0)) ∨ (!mc ∧ mask ≠ 0) ∨ (mc ∧ mask = 0) then .error .flueCmd
    else
      if own then .ok [uid]
      else
        let ranks := if mc then ((List.range 16).filter fun i => mask.testBit i).map (rbase + ·) else [rbase]
        let ts := ranks.map (rankTarget s l)
        if ts.all (·.isSome) then .ok (ts.map fun t => t.getD 0) else .error .mcastOutside

/-- The buffer that a target has for a STREAM. -/
def targetBuf (s : State) (uid cb : Nat) : Option CBuf := (anyCrew s uid).bind fun c => c.cbs[cb]?

/-! ### STREAM and its windows -/

/-- A window does not fit the slot of an initialised buffer (R303). -/
def badFit (s : State) (t : Tmr) (e cb uid : Nat) : Bool :=
  (targetBuf s uid cb).any fun b => b.init &&
    (decide (16 * t.pitch < e * t.b.getD 0 1) || decide (16 * b.slot < 16 * t.pitch * (t.b.drop 1).prod))

/-- STREAM is decoded: the checks of R297 and R301, then its buffers attach, all at once when none is attached
elsewhere (R304). -/
def streamTurn (s : State) (k : Nat) (f : FlueCtx) (l : FlueList) (c : List W64) : Turn Unit :=
  let c0 := c.getD 0 0
  let cb := bitsOf c0 8 4
  match streamTargets s l c0 with
  | .error e => stopWith s e
  | .ok ts =>
    if ts.any (fun u => (anyCrew s u).any fun c => decide (c.cbs.length ≤ cb)) ∨
        (c0.getLsbD 16 ∧ l.bars ≤ bitsOf c0 12 4) then stopWith s .flueCmd
    else
      (loadTmr s f l (bitsOf (c.getD 1 0) 0 54)).andThen fun s p =>
        let t := p.2
        let dfmt := if bitsOf c0 27 4 = 0 then t.fmt else bitsOf c0 27 4
        let first := (bitsOf (c.getD 2 0) 0 32 + loopOffset f) % 2 ^ 32
        let n := bitsOf (c.getD 2 0) 32 32
        if !pairOk t.fmt dfmt ∨ n = 0 ∨ (tmrWindows t).prod < first + n ∨ ts.any (badFit s t (elemBytes dfmt) cb) then stopWith s .flueCmd
        else if ts.any fun u => (targetBuf s u cb).any fun b => b.flue.isSome && b.flue != some k then .wait s
        else
          let s := ts.foldl (fun s u => modAnyCrew s u fun c => { c with cbs := listMod c.cbs cb fun b => { b with flue := some k } }) s
          .ok (modFlue s k fun f => { f with work := some { words := c, first := first, at_ := 0, total := n, tmr := p.1, targets := ts } }) ()

/-- A target that cannot take a window yet (R305, R307). -/
def targetHeld (s : State) (uid cb : Nat) : Bool :=
  match anyCrew s uid with
  | none => false
  | some c =>
    match c.cbs[cb]? with
    | none => false
    | some b => !b.init || b.free == 0 || match b.bind with
      | none => false
      | some i => match c.barriers[i]? with
        | some r => r.exp == 0 || r.arr == r.exp
        | none => false

/-- The bytes of a window at their offsets in a buffer's next slot (R303). -/
def slotRuns (t : Tmr) (e : Nat) (b : CBuf) (els : List (List Nat × List Byte)) : List (Nat × List Byte) :=
  els.map fun p => (b.base + 16 * b.slot * b.pidx + slotPlace t e p.1, p.2)

/-- One window reaches one live target (R303, R305, R306), as one step: the slot moves from FREE through PH to FILLED. -/
def deliverTo (t : Tmr) (e cb : Nat) (els : List (List Nat × List Byte)) (s : State) (uid : Nat) : Turn Unit :=
  match (crewD s uid).cbs[cb]? with
  | none => .ok s ()
  | some b =>
    (bankWrite s uid (slotRuns t e b els) t.dbank).andThen fun s _ =>
      let s := setBuffer s uid cb fun b => { b with free := b.free - 1, filled := b.filled + 1, pidx := (b.pidx + 1) % b.depth }
      match b.bind with
      | none => .ok s ()
      | some i => .ok (setBarrier s uid i fun r => barSettle { r with arr := r.arr + 1, pend := r.pend - (e * t.b.prod : Nat) }) ()

/-- A window that stops its command is not delivered (R312): what it had written so far is taken back. -/
def allOrStop {α : Type} (s : State) (t : Turn α) : Turn α :=
  match t with
  | .stop _ h => .stop s h
  | .wait s' => .wait { s with fills := s'.fills, nextId := s'.nextId, flues := s'.flues, homeAsks := s'.homeAsks }
  | t => t

/-- The next window of a STREAM (R305 to R309). -/
def windowTurn (s : State) (k : Nat) (f : FlueCtx) (l : FlueList) (w : FlueWork) : Turn Unit :=
  let c0 := w.words.getD 0 0
  let cb := bitsOf c0 8 4
  match readTmr w.tmr with
  | .error c => stopWith s c
  | .ok t =>
    let dfmt := if bitsOf c0 27 4 = 0 then t.fmt else bitsOf c0 27 4
    let e := elemBytes dfmt
    let live := w.targets.filter fun u => (anyCrew s u).isSome
    if live.any (badFit s t e cb) then stopWith s .flueCmd
    else if live.any (isSaved s) then .susp
    else if live.any fun u => targetHeld s u cb then .wait s
    else
      (turnAll (windowRow f l t dfmt) s (windowRows t (w.first + w.at_))).andThen fun s rows =>
        (allOrStop s (turnAll (deliverTo t e cb rows.flatten) s live)).andThen fun s _ =>
        let s := match l.crew with
          | some (uid, _, _) =>
            if c0.getLsbD 16 ∧ live.length < w.targets.length then
              modAnyCrew s uid fun c => { c with barriers := listMod c.barriers (bitsOf c0 12 4) fun r => { r with mcdrop := true } }
            else s
          | none => s
        if w.at_ + 1 = w.total then .ok (cmdDone (detachAll s k) k) ()
        else .ok (modFlue s k fun f => { f with work := some { w with at_ := w.at_ + 1 } }) ()

/-! ### COPY, FILLV, STORE, GATHERROWS (R298) -/

/-- The work of a command that takes several turns goes on, or is done. -/
def stepWork (s : State) (k : Nat) (w : FlueWork) (n : Nat) : State :=
  if w.total ≤ w.at_ + n then cmdDone s k
  else modFlue s k fun f => { f with work := some { w with at_ := w.at_ + n } }

/-- COPY: one unit of at most 128 bytes, which ends where a line of the destination does. -/
def copyTurn (s : State) (k : Nat) (f : FlueCtx) (l : FlueList) (c : List W64) : Turn Unit :=
  let src := bitsOf (c.getD 1 0) 0 54
  let dst := bitsOf (c.getD 2 0) 0 54
  let n := bitsOf (c.getD 3 0) 0 32
  let w := f.work.getD { words := c, first := 0, at_ := 0, total := n, tmr := [], targets := [] }
  if n = 0 ∨ (src < dst + n ∧ dst < src + n) then stopWith s .flueCmd
  else match (if f.work.isSome then none else (flueSpan s f .load src n).or (flueSpan s f .store dst n)) with
  | some c => stopWith s c
  | none =>
    let m := min (128 - (dst + w.at_) % 128) (n - w.at_)
    (flueRead s f l (src + w.at_) m true).andThen fun s bs => (flueWrite s f l (dst + w.at_) bs).andThen fun s _ =>
      .ok (stepWork s k w m) ()

/-- FILLV: one unit of at most 128 bytes, which ends where a line does. -/
def fillvTurn (s : State) (k : Nat) (f : FlueCtx) (l : FlueList) (c : List W64) : Turn Unit :=
  let size := bitsOf (c.getD 0 0) 8 3
  let dst := bitsOf (c.getD 1 0) 0 54
  let n := bitsOf (c.getD 3 0) 0 32
  let e := 2 ^ size
  let w := f.work.getD { words := c, first := 0, at_ := 0, total := n * e, tmr := [], targets := [] }
  if 3 < size ∨ n = 0 then stopWith s .flueCmd
  else if dst % e ≠ 0 then stopWith s .align
  else match (if f.work.isSome then none else flueSpan s f .store dst (n * e)) with
  | some c => stopWith s c
  | none =>
    let m := min (128 - (dst + w.at_) % 128) (n * e - w.at_)
    let unit := leBytes e (c.getD 2 0).toNat
    (flueWrite s f l (dst + w.at_) ((List.replicate (m / e) unit).flatten)).andThen fun s _ => .ok (stepWork s k w m) ()

/-- The window address of a scratch address in a command. -/
def scratchVA (c3 : W64) : Nat := 0x3FFFFF * 2 ^ 32 + bitsOf c3 0 32

/-- STORE: one window, row by row. -/
def storeTurn (s : State) (k : Nat) (f : FlueCtx) (l : FlueList) (c : List W64) : Turn Unit :=
    let tmr : Turn (List W64 × Tmr) := match f.work with
      | some w => match readTmr w.tmr with
        | .ok t => .ok s (w.tmr, t)
        | .error e => stopWith s e
      | none => loadTmr s f l (bitsOf (c.getD 1 0) 0 54)
    tmr.andThen fun s p =>
      let t := p.2
      let sfmt := if bitsOf (c.getD 0 0) 8 4 = 0 then t.fmt else bitsOf (c.getD 0 0) 8 4
      let e := elemBytes sfmt
      let first := (bitsOf (c.getD 2 0) 0 32 + loopOffset f) % 2 ^ 32
      let n := bitsOf (c.getD 2 0) 32 32
      let w := f.work.getD { words := c, first := first, at_ := 0, total := n, tmr := p.1, targets := [] }
      if !pairOk sfmt t.fmt ∨ n = 0 ∨ (tmrWindows t).prod < first + n then stopWith s .flueCmd
      else
        let els := windowElems t (w.first + w.at_)
        if t.fill = 3 ∧ els.any fun q => !q.2.2 then stopWith s .tmrRange
        else
          let rel := 16 * bitsOf (c.getD 3 0) 32 32 * w.at_
          let get (s : State) (q : List Nat × List Nat × Bool) : Turn (List Byte) :=
            (windowLoc s l (scratchVA (c.getD 3 0)) (rel + slotPlace t e q.1) e).andThen fun s o =>
              (bankRead s o.1 o.2 e t.dbank).andThen fun s bs => .ok s (flueConvert sfmt t.fmt bs)
          let put (s : State) (row : List (List Nat × List Nat × Bool)) : Turn Unit :=
            match row.filter fun q => q.2.2 with
            | [] => .ok s ()
            | q :: qs => (turnAll get s (q :: qs)).andThen fun s vs => tensorWrite s f l t (elemAddr t q.2.1) vs.flatten
          (allOrStop s (turnAll put s (windowRows t (w.first + w.at_)))).andThen fun s _ => .ok (stepWork s k w 1) ()

/-- GATHERROWS: at most 128 bytes of one row. -/
def gatherTurn (s : State) (k : Nat) (f : FlueCtx) (l : FlueList) (c : List W64) : Turn Unit :=
    let tmr : Turn (List W64 × Tmr) := match f.work with
      | some w => match readTmr w.tmr with
        | .ok t => .ok s (w.tmr, t)
        | .error e => stopWith s e
      | none => loadTmr s f l (bitsOf (c.getD 1 0) 0 54)
    tmr.andThen fun s p =>
      let t := p.2
      let sfmt := if bitsOf (c.getD 0 0) 8 4 = 0 then t.fmt else bitsOf (c.getD 0 0) 8 4
      let idx := bitsOf (c.getD 2 0) 0 54
      let rows := bitsOf (c.getD 3 0) 32 16
      let m := min (t.b.getD 0 1) (t.d.getD 0 1)
      let e := elemBytes sfmt
      let w := f.work.getD { words := c, first := 0, at_ := 0, total := rows * m, tmr := p.1, targets := [] }
      if !pairOk sfmt t.fmt ∨ rows = 0 ∨ t.rank < 2 then stopWith s .flueCmd
      else if idx % 4 ≠ 0 then stopWith s .align
      else
        let j := w.at_ / m
        let i0 := w.at_ % m
        (flueRead s f l (idx + 4 * j) 4).andThen fun s ib =>
          let r := leNat ib
          if t.d.getD 1 1 ≤ r then (if t.fill = 3 then stopWith s .tmrRange else .ok (stepWork s k w (m - i0)) ())
          else
            let va := elemAddr t [i0, r]
            let n := min (m - i0) ((128 - va % 128) / elemBytes t.fmt)
            match (if i0 = 0 ∧ !inScratchWindow t.base then flueSpan s f .store va (elemBytes t.fmt * m) else none) with
            | some c => stopWith s c
            | none =>
              (windowLoc s l (scratchVA (c.getD 3 0)) (16 * t.pitch * j + e * i0) (e * n)).andThen fun s o =>
                (bankRead s o.1 o.2 (e * n) 0).andThen fun s bs =>
                  (tensorWrite s f l t va ((elemsOf e bs).flatMap (flueConvert sfmt t.fmt))).andThen fun s _ =>
                    .ok (stepWork s k w n) ()

/-! ### Loops and synchronising commands (R299, R300) -/

def loopTurn (s : State) (k : Nat) (f : FlueCtx) (c : List W64) : Turn Unit :=
  let n := bitsOf (c.getD 1 0) 0 32
  if n = 0 ∨ 4 ≤ f.loops.length then stopWith s .flueCmd
  else .ok (cmdDone (modFlue s k fun f => { f with loops := ⟨f.pos + 1, n, bitsOf (c.getD 2 0) 0 32, 0⟩ :: f.loops }) k) ()

def endloopTurn (s : State) (k : Nat) (f : FlueCtx) : Turn Unit :=
  match f.loops with
  | [] => stopWith s .flueCmd
  | l :: ls =>
    if l.iter + 1 < l.count then
      .ok (modFlue s k fun f => { f with pos := l.start, loops := { l with iter := l.iter + 1 } :: ls }) ()
    else .ok (cmdDone (modFlue s k fun f => { f with loops := ls }) k) ()

def tlwaitTurn (s : State) (k : Nat) (f : FlueCtx) (c : List W64) : Turn Unit :=
  match kvGet (ctxD s f.ctx).timelines (bitsOf (c.getD 0 0) 16 16) with
  | none => stopWith s .tlContext
  | some t => if (c.getD 1 0).toNat ≤ t.count then .ok (cmdDone s k) () else .wait s

def tladvTurn (s : State) (k : Nat) (f : FlueCtx) (c : List W64) : Turn Unit :=
  let n := (c.getD 1 0).toNat
  let t := (kvGet (ctxD s f.ctx).timelines f.tl).map (·.count)
  if 2 ^ 64 ≤ t.getD 0 + n then stopWith s .tlContext else .ok (cmdDone (addTimeline s f.ctx f.tl n) k) ()

def evsigTurn (s : State) (k : Nat) (f : FlueCtx) (c : List W64) : Turn Unit :=
  match eventIdx s f.ctx (bitsOf (c.getD 0 0) 16 16) with
  | none => stopWith s .evRange
  | some i =>
    .ok (cmdDone (if (c.getD 0 0).getLsbD 8 then clearEvent s i else signalEvent s i (bitsOf (c.getD 1 0) 0 32)) k) ()

/-- BARARR: the checks of R300, then the arrival of R307; a target that has exited is passed over (R309). -/
def bararrTurn (s : State) (k : Nat) (l : FlueList) (c : List W64) : Turn Unit :=
  let c0 := c.getD 0 0
  let i := bitsOf c0 8 4
  let own := c0.getLsbD 26
  let rbase := bitsOf c0 18 8
  match l.crew with
  | none => stopWith s .clusterAddr
  | some (uid, _, _) =>
    if own ∧ rbase ≠ 0 then stopWith s .flueCmd
    else
      match if own then some uid else rankTarget s l rbase with
      | none => stopWith s .mcastOutside
      | some u =>
        match anyCrew s u with
        | none => .ok (cmdDone s k) ()
        | some t =>
          match t.barriers[i]? with
          | none => stopWith s .flueCmd
          | some b =>
            if isSaved s u then .susp
            else if b.exp = 0 ∨ b.arr = b.exp then .wait (modFlue s k fun f => { f with binds := [(u, i)] })
            else
              let p := b.pend - (bitsOf (c.getD 1 0) 0 48 : Nat)
              if p < -(2 ^ 47 - 1) then stopWith s .flueCmd
              else .ok (cmdDone (setBarrier s u i fun b => barSettle { b with arr := b.arr + 1, pend := p }) k) ()

/-- END: the list closes, a Flue-list node that submitted it has nothing left, and the next list starts. -/
def endTurn (s : State) (k : Nat) (f : FlueCtx) (l : FlueList) : Turn Unit :=
  if !f.loops.isEmpty then stopWith s .flueCmd
  else
    let s := match l.node with
      | some (g, n) => modNode s g n fun r => { r with open_ := 0 }
      | none => s
    .ok (modFlue s k fun f => { f with
      queue := f.queue.tail, pos := 0, loops := [], work := none, state := if f.queue.length ≤ 1 then 0 else 1 }) ()

/-! ### Turns -/

/-- A command that resolves something through the reference crew (R294). -/
def needsCrew (c : List W64) : Bool :=
  let op := bitsOf (c.getD 0 0) 0 8
  let window (i : Nat) : Bool := inScratchWindow (bitsOf (c.getD i 0) 0 54)
  op == 1 || op == 3 || op == 4 || op == 11 || (op == 2 && (window 1 || window 2)) || (op == 5 && window 1)

/-- One turn of the context's current command. In a list with no reference crew CLUSTER_ADDR comes before FLUE_CMD (log 76). -/
def flueTurn (s : State) (k : Nat) (f : FlueCtx) (l : FlueList) : Turn Unit :=
  (cmdWords s f l).andThen fun s c =>
    if l.crew.isNone ∧ needsCrew c then stopWith s .clusterAddr
    else if !cmdOk c then stopWith s .flueCmd
    else
      match bitsOf (c.getD 0 0) 0 8 with
      | 0x01 => (match f.work with
        | some w => windowTurn s k f l w
        | none => streamTurn s k f l c)
      | 0x02 => copyTurn s k f l c
      | 0x03 => gatherTurn s k f l c
      | 0x04 => storeTurn s k f l c
      | 0x05 => fillvTurn s k f l c
      | 0x06 => loopTurn s k f c
      | 0x07 => endloopTurn s k f
      | 0x08 => tlwaitTurn s k f c
      | 0x09 => tladvTurn s k f c
      | 0x0A => evsigTurn s k f c
      | 0x0B => bararrTurn s k l c
      | _ => endTurn s k f l

/-- The key of a Flue engine's or Splitter's turn order. -/
def tookTurn (s : State) (engine k : Nat) : State := { s with turns := kvSet s.turns engine k }

/-- A RUNNING context takes its turn when its current command is one that `p` accepts. -/
def flueStep (k : Nat) (s : State) (p : FlueCtx → Option Nat → Bool) : Host.Outcome State Fault Refusal :=
  match kvGet s.flues k with
  | none => .next s
  | some f =>
    match f.queue with
    | [] => .next s
    | l :: _ =>
      if f.state ≠ 1 ∨ !p f (flueOp s f) then .next s
      else
        let s := tookTurn s f.engine k
        match flueTurn s k f l with
        | .ok s _ => .next (modFlue s k fun f => { f with fillWait := [] })
        | .stop s h => .next (stopFlue s k h)
        | .wait s => .next (modFlue s k fun f => { f with state := 2 })
        | .susp => .next (modFlue s k fun f => { f with state := 4 })

/-- Whether the current command is the opcode `n`, with or without a data command at work. -/
def isOp (n : Nat) (_ : FlueCtx) (o : Option Nat) : Bool := o == some n

def execFlueStream (c : Nat) (s : State) : Host.Outcome State Fault Refusal :=
  flueStep c s fun f o => o == some 1 && f.work.isNone
def execFlueWindowDelivery (c : Nat) (s : State) : Host.Outcome State Fault Refusal :=
  flueStep c s fun f o => o == some 1 && f.work.isSome
def execFlueCopy (c : Nat) (s : State) : Host.Outcome State Fault Refusal := flueStep c s (isOp 2)
def execFlueGatherrows (c : Nat) (s : State) : Host.Outcome State Fault Refusal := flueStep c s (isOp 3)
def execFlueStore (c : Nat) (s : State) : Host.Outcome State Fault Refusal := flueStep c s (isOp 4)
def execFlueFillv (c : Nat) (s : State) : Host.Outcome State Fault Refusal := flueStep c s (isOp 5)
def execFlueLoop (c : Nat) (s : State) : Host.Outcome State Fault Refusal := flueStep c s (isOp 6)
def execFlueEndloop (c : Nat) (s : State) : Host.Outcome State Fault Refusal := flueStep c s (isOp 7)
def execFlueTlwait (c : Nat) (s : State) : Host.Outcome State Fault Refusal := flueStep c s (isOp 8)
def execFlueTladv (c : Nat) (s : State) : Host.Outcome State Fault Refusal := flueStep c s (isOp 9)
def execFlueEvsig (c : Nat) (s : State) : Host.Outcome State Fault Refusal := flueStep c s (isOp 10)
def execFlueBararr (c : Nat) (s : State) : Host.Outcome State Fault Refusal := flueStep c s (isOp 11)
def execFlueEnd (c : Nat) (s : State) : Host.Outcome State Fault Refusal := flueStep c s (isOp 12)
/-- A command that is no command of Table 11-3, a list that ends without END, or a command that cannot be read yet. -/
def execFlueCmdInvalid (c : Nat) (s : State) : Host.Outcome State Fault Refusal := flueStep c s fun _ o => o.isNone

/-- A BLOCKED context runs again once its command can move, a SUSPENDED one once its target crew is restored (Table 11-1). -/
def flueCanMove (s : State) (k : Nat) (f : FlueCtx) : Bool :=
  match f.queue with
  | [] => false
  | l :: _ => match flueTurn s k f l with
    | .wait _ => f.state == 4
    | .susp => false
    | _ => true

def execFlueContextResume (c : Nat) (s : State) : Host.Outcome State Fault Refusal :=
  match kvGet s.flues c with
  | none => .next s
  | some f =>
    if (f.state = 2 ∨ f.state = 4) ∧ flueCanMove s c f then .next (modFlue s c fun f => { f with state := 1 }) else .next s

end Sys2Proof.Machine
end

