-- ==== Sys2Proof/Machine/Sfu.lean ====
section
/-! DEFINITION. The special-function unit (chapter 05, R141): every result is the exact value rounded once. The
algebraic functions are exact; the transcendental ones are enclosed by fixed-point intervals of 512 fractional
bits, and a value that an interval does not decide is the constant Config.transcendental (log 11). -/
namespace Sys2Proof.Machine
open Sys2Proof

/-! ### Exact roots and quotients -/

/-- The integer square root, one bit at a time from bit `i`. -/
def isqrtFrom (n : Nat) : Nat → Nat → Nat
  | 0, r => r
  | i + 1, r =>
    let c := r + 2 ^ i
    isqrtFrom n i (if c * c ≤ n then c else r)

def isqrt (n : Nat) : Nat := isqrtFrom n (Nat.log2 n / 2 + 1) 0

/-- n/d as a value with at least 80 significant bits and a sticky bit. -/
def fQuot (neg : Bool) (n d : Nat) (e : Int) : FVal :=
  let k := 80 + Nat.log2 d
  let m := n * 2 ^ k / d
  .fin neg m (e - k) (m * d != n * 2 ^ k)

/-- √(m·2^e) with at least 60 significant bits and a sticky bit. -/
def fRoot (m : Nat) (e : Int) : FVal :=
  -- an even exponent with 160 further bits
  let odd := e % 2 != 0
  let n := (if odd then 2 * m else m) * 2 ^ 160
  let e' := if odd then e - 1 else e
  let r := isqrt n
  .fin false r (e' / 2 - 80) (r * r != n)

/-- 1/√(m·2^e). -/
def fRecipRoot (m : Nat) (e : Int) : FVal :=
  let odd := e % 2 != 0
  let d := if odd then 2 * m else m
  let e' := if odd then e - 1 else e
  let k := 200 + Nat.log2 d
  let n := 2 ^ (2 * k) / d
  let r := isqrt n
  .fin false r (-(e' / 2) - k) (r * r * d != 2 ^ (2 * k))

/-! ### Fixed-point series with `fxP` fractional bits -/

def fxP : Nat := 512
def fxOne : Int := 2 ^ fxP
/-- The bound of every error below, in units of the last fractional bit. -/
def fxErr : Int := 2 ^ 40

/-- The product of two fixed-point numbers. -/
def fxMul (a b : Int) : Int := a * b / fxOne

/-- Σ x^k / k! from the term `t` with number `k`, for `n` terms. -/
def fxExpSum (x : Int) : Nat → Nat → Int → Int → Int
  | 0, _, _, acc => acc
  | n + 1, k, t, acc => fxExpSum x n (k + 1) (fxMul t x / ((k : Int) + 1)) (acc + t)

/-- e^x for 0 ≤ x < 1. -/
def fxExp (x : Int) : Int := fxExpSum x 110 0 fxOne 0

/-- Σ z^(2k+1)/(2k+1), `n` terms: atanh z. -/
def fxAtanhSum (z2 : Int) : Nat → Nat → Int → Int → Int
  | 0, _, _, acc => acc
  | n + 1, k, t, acc => fxAtanhSum z2 n (k + 1) (fxMul t z2) (acc + t / (2 * (k : Int) + 1))

/-- ln of a ratio n/d in [1, 2]: 2 atanh((n-d)/(n+d)). -/
def fxLn (n d : Int) : Int :=
  let z := (n - d) * fxOne / (n + d)
  2 * fxAtanhSum (fxMul z z) 175 0 z 0

def fxLn2 : Int := fxLn 2 1

/-- Σ (±) 1/((2k+1) q^(2k+1)) with `p` fractional bits: atan(1/q). -/
def fxAtanSum (q : Int) : Nat → Nat → Int → Int → Int
  | 0, _, _, acc => acc
  | n + 1, k, t, acc =>
    let term := t / (2 * (k : Int) + 1)
    fxAtanSum q n (k + 1) (t / (q * q)) (if k % 2 = 0 then acc + term else acc - term)

/-- 2π with `fxP + 180` fractional bits, by Machin's formula. -/
def twoPi : Int :=
  let one : Int := 2 ^ (fxP + 180)
  8 * (4 * fxAtanSum 5 160 0 (one / 5) 0 - fxAtanSum 239 50 0 (one / 239) 0)

/-- The fixed-point value of m·2^e (e may be below −fxP for operands whose tail is under the error bound). -/
def fxOf (m : Nat) (e : Int) : Int :=
  let k := e + fxP
  if 0 ≤ k then (m : Int) * 2 ^ k.toNat else (m : Int) / 2 ^ (-k).toNat

/-- m·2^e reduced by whole turns, for m·2^e ≥ 0. -/
def fxTurn (m : Nat) (e : Int) : Int :=
  let k := e + fxP + 180
  let x : Int := if 0 ≤ k then (m : Int) * 2 ^ k.toNat else (m : Int) / 2 ^ (-k).toNat
  (x % twoPi) / 2 ^ 180

/-- The alternating series of sin (from t = x, k = 1) or cos (from t = 1, k = 0) at x. -/
def fxTrigSum (x2 : Int) : Nat → Nat → Int → Int → Int
  | 0, _, _, acc => acc
  | n + 1, k, t, acc =>
    fxTrigSum x2 n (k + 2) (-(fxMul t x2) / (((k : Int) + 1) * ((k : Int) + 2))) (acc + t)

def fxSin (x : Int) : Int := fxTrigSum (fxMul x x) 90 1 x 0
def fxCos (x : Int) : Int := fxTrigSum (fxMul x x) 90 0 fxOne 0

/-- A fixed-point magnitude as a value just above it. -/
def fxVal (v : Int) (scale : Int) : FVal := .fin (v < 0) v.natAbs (scale - fxP) true

/-- Rounds a value known to lie within the error bound of v·2^scale and to be no representable number: when both ends
round alike that is the result; when they do not, the constant decides. -/
def fxRound (f : Fmt) (sat ftz : Bool) (fn arg : Nat) (v scale : Int) : Nat × Nat :=
  let lo := fRound f 0 sat ftz (fxVal (v - fxErr) scale)
  let hi := fRound f 0 sat ftz (fxVal (v + fxErr) scale)
  if lo = hi then lo else fRound f 0 sat ftz (fxVal (v + Config.transcendental fn arg % fxErr) scale)

/-! ### The functions of Table 05-4 -/

/-- The NaN rule of Table 05-4 around a function of the other operands. -/
def sfuNan (f : Fmt) (v : FVal) (r : Nat × Nat) : Nat × Nat :=
  match v with
  | .nan sig => (fmtNaN f, if sig then flIV else 0)
  | _ => r

def sfuRcp (f : Fmt) (mode : Nat) (sat ftz : Bool) (v : FVal) : Nat × Nat :=
  sfuNan f v (match v with
    | .inf neg => (fmtZero f neg, 0)
    | .fin neg m e _ =>
      if m = 0 then fFinish f mode sat ftz (.inf neg, flDZ)
      else fRound f mode sat ftz (fQuot neg 1 m (-e))
    | .nan _ => (0, 0))

def sfuSqrt (f : Fmt) (mode : Nat) (sat ftz : Bool) (v : FVal) : Nat × Nat :=
  sfuNan f v (match v with
    | .inf neg => if neg then (fmtNaN f, flIV) else fRound f mode sat ftz (.inf false)
    | .fin neg m e _ =>
      if m = 0 then (fmtZero f neg, 0)
      else if neg then (fmtNaN f, flIV)
      else fRound f mode sat ftz (fRoot m e)
    | .nan _ => (0, 0))

def sfuRsq (f : Fmt) (sat ftz : Bool) (v : FVal) : Nat × Nat :=
  sfuNan f v (match v with
    | .inf neg => if neg then (fmtNaN f, flIV) else (fmtZero f false, 0)
    | .fin neg m e _ =>
      if m = 0 then fFinish f 0 sat ftz (.inf neg, flDZ)
      else if neg then (fmtNaN f, flIV)
      else fRound f 0 sat ftz (fRecipRoot m e)
    | .nan _ => (0, 0))

/-- 2^x of a fixed-point x: the fraction's power and the exponent. -/
def fxExp2 (x : Int) : Int × Int := (fxExp (fxMul (x % fxOne) fxLn2), x / fxOne)

def sfuEx2 (f : Fmt) (sat ftz : Bool) (arg : Nat) (v : FVal) : Nat × Nat :=
  sfuNan f v (match v with
    | .inf neg => if neg then (fmtZero f false, 0) else fRound f 0 sat ftz (.inf false)
    | .fin neg m e _ =>
      -- beyond ±2^12 every format over- or underflows
      if m ≠ 0 ∧ 12 ≤ topExp m e then
        fRound f 0 sat ftz (.fin false 1 (if neg then -4000 else 4000) (!(decide (0 ≤ e))))
      else
        let x := if neg then -(fxOf m e) else fxOf m e
        if m = 0 ∨ 0 ≤ e ∨ m % 2 ^ (-e).toNat = 0 then fRound f 0 sat ftz (.fin false 1 (x / fxOne) false)
        else
          let (p, k) := fxExp2 x
          fxRound f sat ftz 3 arg p k
    | .nan _ => (0, 0))

def sfuLg2 (f : Fmt) (sat ftz : Bool) (arg : Nat) (v : FVal) : Nat × Nat :=
  sfuNan f v (match v with
    | .inf neg => if neg then (fmtNaN f, flIV) else fRound f 0 sat ftz (.inf false)
    | .fin neg m e _ =>
      if m = 0 then fFinish f 0 sat ftz (.inf true, flDZ)
      else if neg then (fmtNaN f, flIV)
      else
        let k := Nat.log2 m
        if m = 2 ^ k then fRound f 0 sat ftz (fOfInt (e + k))
        else fxRound f sat ftz 4 arg ((e + k) * fxOne + fxLn m (2 ^ k) * fxOne / fxLn2) 0
    | .nan _ => (0, 0))

def sfuSin (f : Fmt) (sat ftz : Bool) (arg : Nat) (v : FVal) : Nat × Nat :=
  sfuNan f v (match v with
    | .inf _ => (fmtNaN f, flIV)
    | .fin neg m e _ =>
      if m = 0 then (fmtZero f neg, 0)
      else
        let r := fxSin (fxTurn m e)
        fxRound f sat ftz 5 arg (if neg then -r else r) 0
    | .nan _ => (0, 0))

def sfuCos (f : Fmt) (sat ftz : Bool) (arg : Nat) (v : FVal) : Nat × Nat :=
  sfuNan f v (match v with
    | .inf _ => (fmtNaN f, flIV)
    | .fin _ m e _ =>
      if m = 0 then fRound f 0 sat ftz (fOfInt 1)
      else fxRound f sat ftz 6 arg (fxCos (fxTurn m e)) 0
    | .nan _ => (0, 0))

def sfuTanh (f : Fmt) (sat ftz : Bool) (arg : Nat) (v : FVal) : Nat × Nat :=
  sfuNan f v (match v with
    | .inf neg => fRound f 0 sat ftz (.fin neg 1 0 false)
    | .fin neg m e _ =>
      if m = 0 then (fmtZero f neg, 0)
      else
        let r : Int :=
          if 7 ≤ topExp m e then fxOne - 2 * fxErr
          else
            -- e^(2x) = 2^k · p; tanh x = (e^(2x) − 1)/(e^(2x) + 1)
            let y := 2 * fxOf m e * fxOne / fxLn2
            let (p, k) := fxExp2 y
            let a := p * 2 ^ k.toNat
            (a - fxOne) * fxOne / (a + fxOne)
        fxRound f sat ftz 7 arg (if neg then -r else r) 0
    | .nan _ => (0, 0))

/-! ### The instructions: variable-latency (R60), eph refused (R125) -/

def sfu (s : State) (op : Nat) (w : FWord) (rnd : Bool) (f : Fmt → Nat → FVal → Nat × Nat) :
    Host.Outcome State Fault Refusal :=
  fpu s w { specF op w v1 v1 .z .z typesF rnd true true with ephOk := false, var := true } [.a] fun x l =>
    f (fmtOf (modFt w.m)) (lane x .a 0 l).toNat (fOperand w x .a l)

def execFrcp (w : FWord) (s : State) : Host.Outcome State Fault Refusal :=
  sfu s 0x80 w true fun f _ v => sfuRcp f (modRnd w.m) (modFSat w.m) (modFtz w.m) v
def execFrsq (w : FWord) (s : State) : Host.Outcome State Fault Refusal :=
  sfu s 0x81 w false fun f _ v => sfuRsq f (modFSat w.m) (modFtz w.m) v
def execFsqrt (w : FWord) (s : State) : Host.Outcome State Fault Refusal :=
  sfu s 0x82 w true fun f _ v => sfuSqrt f (modRnd w.m) (modFSat w.m) (modFtz w.m) v
def execFex2 (w : FWord) (s : State) : Host.Outcome State Fault Refusal :=
  sfu s 0x83 w false fun f a v => sfuEx2 f (modFSat w.m) (modFtz w.m) a v
def execFlg2 (w : FWord) (s : State) : Host.Outcome State Fault Refusal :=
  sfu s 0x84 w false fun f a v => sfuLg2 f (modFSat w.m) (modFtz w.m) a v
def execFsin (w : FWord) (s : State) : Host.Outcome State Fault Refusal :=
  sfu s 0x85 w false fun f a v => sfuSin f (modFSat w.m) (modFtz w.m) a v
def execFcos (w : FWord) (s : State) : Host.Outcome State Fault Refusal :=
  sfu s 0x86 w false fun f a v => sfuCos f (modFSat w.m) (modFtz w.m) a v
def execFtanh (w : FWord) (s : State) : Host.Outcome State Fault Refusal :=
  sfu s 0x87 w false fun f a v => sfuTanh f (modFSat w.m) (modFtz w.m) a v

end Sys2Proof.Machine
end

