-- ==== Sys2Proof/Machine/Geometry.lean ====
section
/-! DEFINITION. Splitter contexts (R406 to R417): CUTSEL and its reset, cluster graphs, projected errors, the selection
of a cut with its residency, and the run of a descriptor. A step of a run reads one range of its inputs or writes one record
(R416; log 31). -/
namespace Sys2Proof.Machine
open Sys2Proof

/-! ### FP32 without flushing, .RNE -/

def f32Neg (a : Nat) : Nat := if a < 2 ^ 31 then a + 2 ^ 31 else a - 2 ^ 31
def f32Sub (a b : Nat) : Nat := (f32Add a (f32Neg b)).1

/-- The exact quotient of two values; x / 0 is an infinity, 0 / 0 and ∞ / ∞ are NaNs. -/
def fDiv (a b : FVal) : FVal :=
  match a, b with
  | .nan _, _ => .nan false
  | _, .nan _ => .nan false
  | .inf _, .inf _ => .nan false
  | .inf n, .fin k _ _ _ => .inf (Bool.xor n k)
  | .fin n _ _ _, .inf k => .fin (Bool.xor n k) 0 0 false
  | .fin n m e _, .fin k p g _ =>
    if p = 0 then (if m = 0 then .nan false else .inf (Bool.xor n k))
    else if m = 0 then .fin (Bool.xor n k) 0 0 false
    else fQuot (Bool.xor n k) m p (e - g)

def f32Div (a b : Nat) : Nat := (fRound fp32 0 false false (fDiv (fDecode fp32 a) (fDecode fp32 b))).1

/-- √a, correctly rounded; a is not negative here. -/
def f32Sqrt (a : Nat) : Nat :=
  match fDecode fp32 a with
  | .fin _ m e _ => if m = 0 then a else (fRound fp32 0 false false (fRoot m e)).1
  | .inf n => fmtInf fp32 n
  | .nan _ => fmtNaN fp32

def f32IsNan (a : Nat) : Bool := isNan (fDecode fp32 a)
def f32Lt (a b : Nat) : Bool := fLess false (fDecode fp32 a) (fDecode fp32 b)
def f32Le (a b : Nat) : Bool := !f32IsNan a && !f32IsNan b && !f32Lt b a
def f32Inf : Nat := fmtInf fp32 false
/-- finite and not negative -/
def f32Size (a : Nat) : Bool := f32Le 0 a && f32Lt a f32Inf

/-! ### CUTSEL (R407, R408) -/

/-- The Splitter context that tl_j of the batch names; its key. -/
def boundSplit (s : State) (b : Batch) (j : Nat) : Option Nat :=
  match boundTimeline s b j with
  | some (id, t) => if t.kind = 3 ∧ (kvGet s.splits (tlKey b.ctx id)).isSome then some (tlKey b.ctx id) else none
  | none => none

def modSplit (s : State) (k : Nat) (g : SplitCtx → SplitCtx) : State := { s with splits := kvMod s.splits k g }

/-- A descriptor joins a context's queue; none where the queue is full or the context STOPPED. -/
def queueJob (s : State) (k : Nat) (j : SplitJob) : Option State :=
  match kvGet s.splits k with
  | none => none
  | some f =>
    if 16 ≤ f.queue.length ∨ f.state = 3 then none
    else some (modSplit s k fun f => { f with queue := f.queue ++ [j], state := if f.state = 0 then 1 else f.state })

/-- CUTSEL.RST: the queue, a running descriptor and a held cause are gone. -/
def resetSplit (s : State) (k : Nat) : State :=
  modSplit s k fun f => { ctx := f.ctx, tl := f.tl, engine := f.engine }

def cutselSpec (w : FWord) (b : Cls) (ok : Bool) : Spec :=
  { sysSpec 0xEB w .p .tl b .z ok with closes := true, uni := [.b] }

def execCutsel (w : FWord) (s : State) : Host.Outcome State Fault Refusal :=
  runF s w (cutselSpec w ve (w.m = 0)) fun x =>
    match boundSplit x.s x.b w.a.toNat with
    | none => .trap x.s (wordTrap x .tlContext)
    | some k =>
      if isFill x then .trap x.s (wordTrap x .fillWait)
      else
        let va := (uni64 x .b).toNat
        if va % 128 ≠ 0 then .trap x.s (addrTrap x .align va)
        else if 2 ^ 54 ≤ va then .trap x.s (addrTrap x .pageAbsent va)
        else
          let s := releaseAll x.s x.b 2
          match queueJob s k { va := va, node := none } with
          | some s => .done s [] [(w.d.toNat, maskOf x.act)] []
          | none => .done s [] [(w.d.toNat, 0)] []

def execCutselRst (w : FWord) (s : State) : Host.Outcome State Fault Refusal :=
  runF s w (cutselSpec w .z (w.m = 1)) fun x =>
    match boundSplit x.s x.b w.a.toNat with
    | none => .trap x.s (wordTrap x .tlContext)
    | some k =>
      if isFill x then .trap x.s (wordTrap x .fillWait)
      else .done (resetSplit x.s k) [] [(w.d.toNat, maskOf x.act)] []

/-! ### Records -/

/-- `n` little-endian bytes at a place of a byte string. -/
def numAt (bs : List Byte) (off n : Nat) : Nat := leNat ((bs.drop off).take n)

/-- A decoded group entry (Table 18-1): its FP32 codes, its parent (none for a root), and its clusters. -/
structure CutGroup where
  c : List Nat
  r : Nat
  err : Nat
  parent : Option Nat
  first : Nat
  ncl : Nat

/-- A decoded cluster entry. -/
structure CutCluster where
  rpage : Nat
  pay : Nat
  ntri : Nat

/-- What an evaluation over the bytes read so far comes to: a value, a fault, or ranges that it needs. -/
inductive Cut (α : Type) where
  | ok (v : α)
  | stop (c : Cause)
  | need (rs : List (Nat × Nat))

def Cut.andThen {α β : Type} (c : Cut α) (f : α → Cut β) : Cut β :=
  match c with
  | .ok v => f v
  | .stop c => .stop c
  | .need rs => .need rs

/-- Evaluates every member of a list: the needs of all, or the first fault where the members before it need nothing. -/
def cutAll {α β : Type} (f : α → Cut β) : List α → Cut (List β)
  | [] => .ok []
  | a :: as => match f a, cutAll f as with
    | .ok b, .ok bs => .ok (b :: bs)
    | .ok _, r => r
    | .need rs, .need qs => .need (rs ++ qs)
    | .need rs, _ => .need rs
    | .stop c, _ => .stop c

/-- Bytes of a run's input, of those it has read. -/
def cutRead (f : SplitCtx) (va n : Nat) : Cut (List Byte) :=
  let bs := (List.range n).map fun i => kvGet f.seen (va + i)
  if bs.all (·.isSome) then .ok (bs.filterMap id) else .need [(va, n)]

/-- The Splitter's accesses (R417). -/
def splitAgent (f : SplitCtx) : Agent := { ctx := f.ctx, chk := .pageAbsent, who := .split (tlKey f.ctx f.tl) }

/-- The words of a descriptor with their reserved bits, alignments and limits (Table 18-3, R417). -/
def descOk (u : List W64) : Bool :=
  let g (i : Nat) : Nat := (u.getD i 0).toNat
  let widths := [54, 24, 64, 64, 64, 54, 32, 54, 32, 54, 32, 54, 0, 0, 0, 8]
  (widths.zipIdx.all fun p => decide (g p.2 < 2 ^ p.1)) && g 15 == 1 && g 0 % 64 == 0 && g 1 != 0 && g 5 % 8 == 0 &&
    g 7 % 16 == 0 && g 9 % 16 == 0 && g 11 % 16 == 0 && f32Lt 0 (g 3 / 2 ^ 32) && f32Lt 0 (g 4 % 2 ^ 32) &&
    f32Size (g 4 / 2 ^ 32)

def readGroup (nclus ngrp : Nat) (e : List Byte) : Option CutGroup :=
  let g : CutGroup := {
    c := [numAt e 0 4, numAt e 4 4, numAt e 8 4], r := numAt e 12 4, err := numAt e 16 4
    parent := if numAt e 20 4 = 0xFFFFFFFF then none else some (numAt e 20 4)
    first := numAt e 24 4, ncl := numAt e 28 1 }
  if f32Le 0 g.r ∧ f32Size g.err ∧ numAt e 29 3 = 0 ∧ 1 ≤ g.ncl ∧ g.ncl ≤ 8 ∧ g.first + g.ncl ≤ nclus ∧
      (g.parent.all fun p => decide (p < ngrp)) then some g else none

def readCluster (grp : Nat) (e : List Byte) : Option CutCluster :=
  let c : CutCluster := { rpage := numAt e 4 4, pay := numAt e 8 8, ntri := numAt e 16 1 }
  if numAt e 0 4 = grp ∧ c.pay < 2 ^ 54 ∧ c.pay % 128 = 0 ∧ 1 ≤ c.ntri ∧ c.ntri ≤ 124 ∧ 3 ≤ numAt e 17 1 ∧
      numAt e 17 1 ≤ 64 ∧ numAt e 18 14 = 0 then some c else none

/-- Whether the PARENT chain from a group ends within `fuel` links. -/
def chainEnds (gs : List CutGroup) : Nat → Nat → Bool
  | fuel, g => match (gs[g]?).bind (·.parent) with
    | none => true
    | some p => match fuel with
      | 0 => false
      | fuel + 1 => chainEnds gs fuel p

/-- A graph as a run reads it: its groups, and the clusters of each. -/
structure CutGraph where
  groups : List CutGroup
  members : List (List CutCluster)

/-- Reads and checks a graph (R403, R417). -/
def readGraph (f : SplitCtx) (hva : Nat) : Cut CutGraph :=
  (cutRead f hva 64).andThen fun h =>
    let w (i : Nat) : Nat := numAt h (8 * i) 8
    if 2 ^ 54 ≤ w 0 ∨ 2 ^ 32 ≤ w 1 ∨ 2 ^ 54 ≤ w 2 ∨ 2 ^ 32 ≤ w 3 ∨ 256 ≤ w 4 ∨ w 5 ≠ 0 ∨ w 6 ≠ 0 ∨ w 7 ≠ 1 ∨ w 0 % 32 ≠ 0 ∨
        w 2 % 32 ≠ 0 ∨ w 1 = 0 ∨ 2 ^ 24 < w 1 ∨ w 3 = 0 ∨ 2 ^ 24 < w 3 then .stop .cutDesc
    else
      let group (g : Nat) : Cut (CutGroup × List CutCluster) :=
        (cutRead f (w 2 + 32 * g) 32).andThen fun e =>
          match readGroup (w 1) (w 3) e with
          | none => .stop .cutDesc
          | some r => (cutRead f (w 0 + 32 * r.first) (32 * r.ncl)).andThen fun cs =>
            let ms := (List.range r.ncl).map fun j => readCluster g ((cs.drop (32 * j)).take 32)
            if ms.all (·.isSome) then .ok (r, ms.filterMap id) else .stop .cutDesc
      (cutAll group (List.range (w 3))).andThen fun gs =>
        let gr : CutGraph := { groups := gs.map (·.1), members := gs.map (·.2) }
        if (List.range (w 3)).all fun g => chainEnds gr.groups 64 g then .ok gr else .stop .cutDesc

/-! ### Projected error (R410, R411) -/

/-- An instance record: its matrix by rows, SMAX and the graph's header. -/
structure CutInst where
  m : List (List Nat)
  smax : Nat
  hva : Nat

def readInst (b : List Byte) : CutInst where
  m := (List.range 3).map fun a => (List.range 4).map fun j => numAt b (16 * a + 4 * j) 4
  smax := numAt b 48 4
  hva := numAt b 56 8

/-- What a descriptor says of the view: the eye, KPROJ and ZN. -/
structure CutView where
  eye : List Nat
  kproj : Nat
  zn : Nat

def cutView (u : List W64) : CutView where
  eye := [bitsOf (u.getD 2 0) 0 32, bitsOf (u.getD 2 0) 32 32, bitsOf (u.getD 3 0) 0 32]
  kproj := bitsOf (u.getD 3 0) 32 32
  zn := bitsOf (u.getD 4 0) 0 32

/-- f32(f32(f32(p·a) + f32(q·b)) + f32(r·c)). -/
def f32Dot3 (p q : List Nat) : Nat :=
  let m (i : Nat) : Nat := (f32Mul (p.getD i 0) (q.getD i 0)).1
  (f32Add (f32Add (m 0) (m 1)).1 (m 2)).1

/-- proj(g, i). -/
def projError (v : CutView) (i : CutInst) (g : CutGroup) : Nat :=
  let dl := (List.range 3).map fun a =>
    f32Sub (f32Add (f32Dot3 (i.m.getD a []) g.c) ((i.m.getD a []).getD 3 0)).1 (v.eye.getD a 0)
  let den := f32Sub (f32Sqrt (f32Dot3 dl dl)) (f32Mul g.r i.smax).1
  let den := if f32Le v.zn den then den else v.zn
  f32Div (f32Mul (f32Mul g.err i.smax).1 v.kproj).1 den

/-- q(g), with a NaN as +∞; a chain has at most 64 links. -/
def pathError (gs : List CutGroup) (p : Nat → Nat) : Nat → Nat → Nat
  | fuel, g =>
    let e := if f32IsNan (p g) then f32Inf else p g
    match (gs[g]?).bind (·.parent) with
    | none => e
    | some h => match fuel with
      | 0 => e
      | fuel + 1 => let q := pathError gs p fuel h; if f32Lt q e then q else e

/-! ### Residency and the cut (R412, R413) -/

/-- A residency bit: clear at and above RESN. -/
def resBit (f : SplitCtx) (u : List W64) (i : Nat) : Cut Bool :=
  if bitsOf (u.getD 6 0) 0 32 ≤ i then .ok false
  else (cutRead f ((u.getD 5 0).toNat + i / 8) 1).andThen fun b => .ok ((leNat b).testBit (i % 8))

/-- rep(g) with the clusters on the way whose bits are clear: their numbers and pages. -/
def repOf (f : SplitCtx) (u : List W64) (gr : CutGraph) : Nat → Nat → Cut (Nat × List (Nat × Nat))
  | fuel, g =>
    match gr.groups[g]? with
    | none => .ok (g, [])
    | some r => match r.parent with
      | none => .ok (g, [])
      | some p =>
        let cs := (gr.members.getD g []).zipIdx r.first
        (cutAll (resBit f u) (cs.map fun c => c.1.rpage)).andThen fun bits =>
          let clear := (cs.zip bits).filterMap fun q => if q.2 then none else some (q.1.2, q.1.1.rpage)
          match clear, fuel with
          | [], _ => .ok (g, [])
          | _, 0 => .ok (g, [])
          | _, fuel + 1 => (repOf f u gr fuel p).andThen fun r => .ok (r.1, clear ++ r.2)

/-- Whether a group has a proper ancestor among the listed. -/
def hasAncestor (gs : List CutGroup) (set : List Nat) : Nat → Nat → Bool
  | fuel, g => match (gs[g]?).bind (·.parent) with
    | none => false
    | some p => set.contains p || match fuel with
      | 0 => false
      | fuel + 1 => hasAncestor gs set fuel p

/-- The cut of one instance: output records (cluster, payload, triangles) and requests (cluster, page), both sorted by
cluster. -/
def cutInstance (f : SplitCtx) (u : List W64) (gr : CutGraph) (i : CutInst) :
    Cut (List (Nat × Nat × Nat) × List (Nat × Nat)) :=
  let gs := gr.groups
  let v := cutView u
  let tau := bitsOf (u.getD 4 0) 32 32
  let errs := gs.map (projError v i)
  let q (g : Nat) : Nat := pathError gs (fun g => errs.getD g 0) 64 g
  let chosen := (List.range gs.length).filter fun g =>
    f32Le (q g) tau && match (gs[g]?).bind (·.parent) with
      | none => true
      | some p => f32Lt tau (q p)
  (cutAll (repOf f u gr 64) chosen).andThen fun rs =>
    let reps := (rs.map (·.1)).eraseDups
    let out := (reps.filter fun g => !hasAncestor gs reps 64 g).flatMap fun g =>
      ((gr.members.getD g []).zipIdx (((gs[g]?).map (·.first)).getD 0)).map fun c => (c.2, c.1.pay, c.1.ntri)
    let req := (rs.flatMap (·.2)).eraseDups
    .ok (sortBy out fun a b => decide (a.1 ≤ b.1), sortBy req fun a b => decide (a.1 ≤ b.1))

/-! ### A descriptor's run (R409, R415) -/

def jobWords (f : SplitCtx) (j : SplitJob) : Cut (List W64) :=
  match j.node with
  | some (_, _, w) => .ok (w.take 16)
  | none => (cutRead f j.va 128).andThen fun b => .ok (wordsOf b 16)

/-- The lists of a run: output and request records as numbers of 128 bits. A graph header's address, which no table of R417 limits,
is aligned to its access (R156). -/
def cutLists (f : SplitCtx) (u : List W64) : Cut (List Nat × List Nat) :=
  let one (n : Nat) : Cut (List Nat × List Nat) :=
    (cutRead f ((u.getD 0 0).toNat + 64 * n) 64).andThen fun b =>
      let i := readInst b
      if 2 ^ 54 ≤ i.hva then .stop .pageAbsent
      else if i.hva % 64 ≠ 0 then .stop .align
      else (readGraph f i.hva).andThen fun gr => (cutInstance f u gr i).andThen fun r =>
        .ok (r.1.map fun c => n + 2 ^ 32 * c.1 + 2 ^ 64 * c.2.1 + 2 ^ 121 * c.2.2,
          r.2.map fun c => n + 2 ^ 32 * c.1 + 2 ^ 64 * c.2)
  (cutAll one (List.range (bitsOf (u.getD 1 0) 0 24))).andThen fun rs =>
    .ok (rs.flatMap (·.1), rs.flatMap (·.2))

/-- The status words (R415). -/
def cutStatus (nout outcap nreq reqcap : Nat) : Nat :=
  nout % 2 ^ 32 + 2 ^ 32 * (nreq % 2 ^ 32) + (if outcap < nout then 2 ^ 64 else 0) + (if reqcap < nreq then 2 ^ 65 else 0)

/-- The evaluation of a descriptor: the records to be written with their addresses, the status last (R415). -/
def cutRecords (f : SplitCtx) (j : SplitJob) : Cut (List (Nat × Nat)) :=
  (jobWords f j).andThen fun u =>
    if !descOk u then .stop .cutDesc
    else
      (cutLists f u).andThen fun r =>
        let outcap := bitsOf (u.getD 8 0) 0 32
        let reqcap := bitsOf (u.getD 10 0) 0 32
        let place (va : Nat) (rs : List Nat) : List (Nat × Nat) := rs.zipIdx.map fun p => (va + 16 * p.2, p.1)
        .ok (place (u.getD 7 0).toNat (r.1.take outcap) ++ place (u.getD 9 0).toNat (r.2.take reqcap) ++
          [((u.getD 11 0).toNat, cutStatus r.1.length outcap r.2.length reqcap)])

/-- Whether the engine could read a range now, or finds its fault. -/
def cutReadable (s : State) (f : SplitCtx) (r : Nat × Nat) : Bool :=
  match engineRead s (splitAgent f) r.1 r.2 with
  | .wait _ _ => false
  | _ => true

/-- One read of a run, in an order that is the hardware's (log 2): of the ranges it needs, one that can be read. A byte that
was read before keeps its value (R416). -/
def cutFetch (s : State) (k : Nat) (f : SplitCtx) (rs : List (Nat × Nat)) : Turn Unit :=
  let open' := rs.filter (cutReadable s f)
  let cand := if open'.isEmpty then rs else open'
  let (i, s) := freePick s cand.length
  let r := cand.getD i (0, 0)
  (ofEng (engineRead s (splitAgent f) r.1 r.2)).andThen fun s bs =>
    .ok (modSplit s k fun g => { g with
      seen := bs.zipIdx.foldl (fun m p => if (kvGet m (r.1 + p.2)).isSome then m else kvSet m (r.1 + p.2) p.1) g.seen
      fillWait := [] }) ()

/-- The descriptor is done: the counter advances (R415), and a CUTSEL node has nothing left (R409). -/
def cutDone (s : State) (k : Nat) (f : SplitCtx) (j : SplitJob) : State :=
  let s := match j.node with
    | some (g, n, _) => modNode s g n fun r => { r with open_ := 0 }
    | none => s
  let s := addTimeline s f.ctx f.tl 1
  modSplit s k fun f => { f with
    queue := f.queue.tail, state := if f.queue.length ≤ 1 then 0 else 1, seen := [], wrote := 0, fillWait := [] }

/-- One step of a run: a read, or the write of one record. The record after the last is the end of the run. -/
def cutTurn (s : State) (k : Nat) (f : SplitCtx) (j : SplitJob) : Turn Unit :=
  match cutRecords f j with
  | .stop c => stopWith s c
  | .need rs => cutFetch s k f rs
  | .ok ws =>
    match ws[f.wrote]? with
    | none => .ok (cutDone s k f j) ()
    | some (va, v) => (ofEng (engineWrite s (splitAgent f) va (leBytes 16 v))).andThen fun s _ =>
        .ok (modSplit s k fun g => { g with wrote := g.wrote + 1 }) ()

/-- The context that has the turn goes on with its descriptor (CUT_RUN). One that waited for a fill or a home is in state 2
and takes a turn once it can move. -/
def execCutRun (c : Nat) (s : State) : Host.Outcome State Fault Refusal :=
  match kvGet s.splits c with
  | none => .next s
  | some f =>
    match f.queue with
    | [] => .next s
    | j :: _ =>
      if f.state ≠ 1 ∧ f.state ≠ 2 then .next s
      else
        let s := { s with turns := kvSet s.turns (64 + f.engine) c }
        match cutTurn s c f j with
        | .ok s _ => .next (modSplit s c fun f => { f with state := if f.queue.isEmpty then 0 else 1 })
        | .stop s h => .next (modSplit s c fun f => { f with
            state := 3, cause := some h, causeAddr := j.va, seen := [], wrote := 0, fillWait := [] })
        | .wait s => .next (modSplit s c fun f => { f with state := 2 })
        | .susp => .next s

/-- Whether a waiting Splitter context can move. -/
def cutCanMove (s : State) (f : SplitCtx) : Bool :=
  match f.queue with
  | [] => false
  | j :: _ => match cutTurn s (tlKey f.ctx f.tl) f j with
    | .wait _ => false
    | _ => true

end Sys2Proof.Machine
end

