-- ==== Sys2Proof/Machine/Header.lean ====
section
/-! DEFINITION. The checks of a launch header (Table 16-2, R362) and the bound of its save area (R443). -/
namespace Sys2Proof.Machine
open Sys2Proof

/-- The reserved bits of Table 16-1 that are not whole words: word, lowest bit, width. -/
def headerReserved : List (Nat × Nat × Nat) :=
  [(0, 54, 10), (1, 52, 12), (2, 38, 26), (3, 42, 22), (16, 54, 10), (17, 54, 10), (18, 32, 32), (27, 6, 2), (27, 12, 52),
   (31, 8, 56)]

/-- Whether a timeline id names a created timeline of a context, of one kind or of any (R442). -/
def timelineMade (s : State) (ctx id : Nat) (kind : Option Nat) : Bool :=
  match kvGet (ctxD s ctx).timelines id with
  | some t => match kind with
    | some k => t.kind == k
    | none => true
  | none => false

/-- Whether the wait and signal entries of a node pass the check of code 0x0A. -/
def eventsOk (s : State) (ctx : Nat) (h : List W64) : Bool :=
  let n := (ctxD s ctx).evrange.toNat / 65536 + 1
  decide (hdrNwait h ≤ 4) && decide (hdrNsig h ≤ 4) &&
    ((List.range (hdrNwait h)).all fun i => decide ((hdrWait h i).1 < n)) &&
    ((List.range (hdrNsig h)).all fun i => decide ((hdrSig h i).1 < n))

/-- How many crews of a header an empty core admits (R249, R374). -/
def crewsPerCore (h : List W64) : Nat :=
  let cap (have' need : Nat) : Nat := if need = 0 then 256 else have' / need
  [cap 30 (slotsAsked h), cap 2816 (linesFor h (slotsAsked h)), cap 288 (granulesAsked (hdrScratch h)), cap 62 (hdrAcc h),
   cap 96 (hdrBars h), cap 16 (hdrCbs h)].foldl min 256

/-- The refusal code of a header in a context (Table 16-2), checked in the order of the codes; 0 when it passes. A node's
events are checked when its run starts, and not again when it starts (R362): `events` is false there. -/
def headerCode (s : State) (ctx : Nat) (h : List W64) (events : Bool := true) : Nat :=
  let n := hdrFields h
  let c := hdrCrewLevel h
  let k := hdrClusLevel h
  let sd := hdrSeed h
  let fs := List.range 6
  let inside (i : Nat) : Bool := decide (i < n)
  if h.getD 31 0 ≠ 1 ∨ (headerReserved.any fun r => hdrBits h r.1 r.2.1 r.2.2 != 0) ∨ h.getD 28 0 ≠ 0 ∨ h.getD 29 0 ≠ 0 ∨
      h.getD 30 0 ≠ 0 ∨ hdrEntry h % 8 ≠ 0 then 0x01
  else if 6 < n ∨ (fs.any fun i => inside i != (hdrWidth h i != 0)) ∨ 64 < (fs.map (hdrWidth h)).sum then 0x02
  else if n < c ∨ k < c ∨ n < k ∨ n < sd then 0x03
  else if fs.any fun i =>
      if i < n then hdrExt h i == 0 || decide (2 ^ hdrWidth h i < hdrBase h i + hdrExt h i)
      else hdrBase h i != 0 || hdrExt h i != 0 then 0x04
  else if 30 < crewRows h ∨ 256 < clusterCrews h then 0x05
  else if hdrN h = 0 ∨ 256 < hdrN h ∨ 512 < hdrN h + hdrM h ∨ hdrN h ≤ hdrWidReg h then 0x06
  else if 1179648 < hdrScratch h ∨ 65536 < hdrImage h ∨ hdrImage h % 16 ≠ 0 ∨ hdrScratch h < hdrImage h ∨ 62 < hdrAcc h ∨
      16 < hdrBars h ∨ 16 < hdrCbs h ∨ (hdrImage h ≠ 0 ∧ 1 ≤ sd ∧ sd ≤ c) then 0x07
  else if hdrFlb h % 4096 ≠ 0 ∨ hdrSfl h % 16 ≠ 0 ∨ (hdrSfl h ≠ 0 ∧ hdrFlb h = 0) then 0x08
  else if (List.range 16).any fun j => hdrTlb h j != 0xFFFF && !timelineMade s ctx (hdrTlb h j) none then 0x09
  else if events && !eventsOk s ctx h then 0x0A
  else if 8 * crewsPerCore h < clusterCrews h then 0x0B
  else 0

/-- The bound of one crew's save area and of a cluster's (R443). -/
def crewSaveBound (h : List W64) : Nat :=
  0xC00 + 8 * 1024 + 2048 * 62 + (hdrScratch h + 127) / 128 * 128 + crewRows h * (4480 + 128 * (hdrN h + hdrM h))
def saveBound (h : List W64) : Nat := 0x1000 + clusterCrews h * crewSaveBound h

/-- The checks of a launch: the header's, then that its cluster's save area fits a slot (R443). The save check stands at
code 0x07. -/
def launchCode (s : State) (ctx : Nat) (h : List W64) (events : Bool := true) : Nat :=
  let k := ctxD s ctx
  let c := headerCode s ctx h events
  if (c = 0 ∨ 0x07 < c) ∧ (k.nsave = 0 ∨ 4096 * k.savesz < saveBound h) then 0x07 else c

end Sys2Proof.Machine
end

