-- ==== Sys2Proof/Machine/Sched.lean ====
section
/-! DEFINITION. The scheduler's graphs (chapter 16): triggers (R366), runs with their patches and waits (R367 to R370),
nodes of every kind with their checks (R362, R365), completion (R368), and the raster front end (R418, R419). -/
namespace Sys2Proof.Machine
open Sys2Proof

/-! ### Triggers (R366) -/

/-- Whether a context slot accepts triggers. -/
def takesTriggers (s : State) (ctx : Nat) : Bool :=
  match (ctxD s ctx).state with
  | .resident => true
  | .halting => true
  | .halted => true
  | _ => false

/-- A host write of the trigger register: dropped where the slot takes none, and by a device in recovery (R491); TRIGLOST where the queue is full. -/
def writeTrigger (s : State) (v : W64) : State :=
  let ctx := bitsOf v 16 6
  if !takesTriggers s ctx ∨ s.ident.recov then s else (pushTrigger s v 0 0).getD (recOr s ctx 8 1)

def execTriggerWrite (v : W64) (s : State) : Host.Outcome State Fault Refusal := .next (writeTrigger s v)

/-! ### Starting a run (R367) -/

/-- The nodes of a run, by index. -/
def runNodeWords (s : State) (r : Run) (n : Nat) : List W64 := nodeWords s (graphFirst s r.graph + n)

/-- A wait entry of a node is met by its count now. -/
def waitMet (s : State) (ctx : Nat) (h : List W64) (i : Nat) : Bool :=
  match eventIdx s ctx (hdrWait h i).1 with
  | some e => decide ((hdrWait h i).2 ≤ eventCount s e)
  | none => false

/-- Registers one wait entry that is not met; EVOVF is posted where no room is left. -/
def registerWait (s : State) (ctx run n : Nat) (h : List W64) (i : Nat) : State :=
  if waitMet s ctx h i then s
  else
    let hold (s : State) : State := modNode s run n fun r => { r with unreg := r.unreg ++ [i] }
    match eventIdx s ctx (hdrWait h i).1 with
    | none => hold s
    | some e =>
      match addWaiter s { ev := e, ctx := ctx, node := true, who := nodeWho run n i, threshold := (hdrWait h i).2, overflow := none } with
      | .ok s _ => modNode s run n fun r => { r with waiting := r.waiting ++ [i] }
      | .wait s _ => hold s
      | .bad s _ _ _ => recOr (hold s) ctx 8 2

/-- Registers the wait entries of every node, in order. -/
def registerRun (s : State) (run ctx first count : Nat) : State :=
  (List.range count).foldl (fun s n =>
    let h := nodeWords s (first + n)
    (List.range (hdrNwait h)).foldl (fun s i => registerWait s ctx run n h i) s) s

/-- The patches of a list, in order; the node of the first entry that breaks R367. -/
def applyPatches (first count : Nat) : List (Nat × W64) → State → State × Option Nat
  | [], s => (s, none)
  | (e0, e1) :: es, s =>
    let node := e0 % 65536
    let word := e0 / 65536 % 32
    if count ≤ node ∨ word = 31 ∨ 2 ^ 21 ≤ e0 then (s, some node)
    else applyPatches first count es { s with nodeStore := kvPut 0 s.nodeStore (32 * (first + node) + word) e1 }

/-- Who reads for the scheduler or the front end: the trigger queue of a context, or a node of a run. -/
def queueWho (ctx : Nat) : Nat := 128 + ctx
def actorOf (run n : Nat) : Nat := 256 + 16384 * run + n

/-- Their reads in a context. -/
def schedAgent (ctx who : Nat) : Agent := { ctx := ctx, who := .other who }

/-- An action is over: who read for it is parked on nothing. -/
def schedDone (s : State) (who : Nat) : State := modParks s (.other who) fun _ => []

/-- Reads a patch list: its entries. -/
def readPatches (s : State) (ctx va : Nat) : Turn (List (Nat × W64)) :=
  (ofEng (engineRead s (schedAgent ctx (queueWho ctx)) va 8)).andThen fun s b =>
    let n := leNat b % 256
    (ofEng (engineRead s (schedAgent ctx (queueWho ctx)) (va + 8) (16 * n))).andThen fun s b =>
      .ok s ((List.range n).map fun i => (numAt b (16 * i) 8, BitVec.ofNat 64 (numAt b (16 * i + 8) 8)))

/-- Starts the run of a trigger whose graph is resident: the graph is RUNNING before the patch list is read (R367). -/
def startRun (s : State) (ctx : Nat) (t : Trigger) : Turn Unit :=
  let g := bitsOf t.word 0 16
  let first := graphFirst s g
  let count := graphCount s g
  let va := 4096 * bitsOf t.word 22 42
  let fail (s : State) (code node : Nat) : State := setGraphStatus s g 3 code node
  let s := if t.begun then s else setGraphStatus s g 1 0 0
  match (if va = 0 then .ok s [] else readPatches s ctx va) with
  | .wait s => .wait s
  | .susp => .susp
  | .stop s _ => .ok (fail s 0x01 0) ()
  | .ok s es =>
    let (s, bad) := applyPatches first count es s
    match bad with
    | some n => .ok (fail s 0x01 n) ()
    | none =>
      match (List.range count).find? fun n => !eventsOk s ctx (nodeWords s (first + n)) with
      | some n => .ok (fail s 0x0A n) ()
      | none =>
        let (id, s) := fresh s
        let nodes := (List.range count).map fun n => (n, ({ readyAt := s.clock } : NodeRun))
        let r : Run := { id := id, graph := g, ctx := ctx, level := t.level, wid := t.wid, nodes := nodes, failed := false }
        .ok (registerRun { s with runs := s.runs ++ [r] } id ctx first count) ()

/-- The trigger that a context's queue may start now. -/
def nextTrigger (s : State) (ctx : Nat) : Option Trigger :=
  if (ctxD s ctx).state ≠ .resident then none
  else (ctxD s ctx).trigQ.head?.filter fun t => t.begun || graphState s (bitsOf t.word 0 16) != 1

/-- The head of the queue leaves it. -/
def popTrigger (s : State) (ctx : Nat) : State := { modCtx s ctx (fun c => { c with trigQ := c.trigQ.tail }) with trigTurn := ctx }

/-- The outcome of the trigger at the head of a context's queue. -/
def triggerTurn (s : State) (ctx : Nat) (t : Trigger) : Turn Unit :=
  let g := bitsOf t.word 0 16
  if !t.begun ∧ (!graphResident s g ∨ graphCtx s g ≠ ctx) then .ok (setGraphStatus s g 3 0xFF 0) ()
  else startRun s ctx t

def execGraphRunStart (ctx : Nat) (s : State) : Host.Outcome State Fault Refusal :=
  match nextTrigger s ctx with
  | none => .next s
  | some t =>
    match triggerTurn s ctx t with
    | .ok s _ => .next (popTrigger (schedDone s (queueWho ctx)) ctx)
    | .wait s =>
      let begin' (q : List Trigger) : List Trigger := match q with
        | t :: r => { t with begun := true } :: r
        | [] => []
      .next { modCtx s ctx (fun c => { c with trigQ := begin' c.trigQ }) with trigTurn := ctx }
    | _ => .next s

/-- A wait entry that found no room is tried again (R370). -/
def retryWait (s : State) (run n : Nat) : State :=
  match findRun s run with
  | none => s
  | some r =>
    match kvGet r.nodes n with
    | none => s
    | some nr =>
      let h := runNodeWords s r n
      let s := modNode s run n fun r => { r with unreg := [], readyAt := s.clock }
      nr.unreg.foldl (fun s i => registerWait s r.ctx run n h i) s

/-- Whether a retry would register or meet some entry of the node. -/
def waitCanRetry (s : State) (run n : Nat) : Bool :=
  let left (s : State) : Nat := (((findRun s run).bind fun r => kvGet r.nodes n).map fun r => r.unreg.length).getD 0
  decide (left (retryWait s run n) < left s)

def execNodeWaitRetry (run n : Nat) (s : State) : Host.Outcome State Fault Refusal :=
  if waitCanRetry s run n then .next (retryWait s run n) else .next s

/-! ### The checks of nodes (R362, R365, R371, R418) -/

/-- How many low bits of L0 to L22 a kind names. -/
def bodyWidths (kind : Nat) : List Nat :=
  match kind with
  | 1 => [3, 32] ++ List.replicate 16 54 ++ [64, 64, 0, 0, 0]
  | 2 => [16, 54, 16] ++ List.replicate 20 0
  | 3 => List.replicate 16 64 ++ [16] ++ List.replicate 6 0
  | 5 => [54, 54, 54, 54, 32, 32] ++ List.replicate 17 0
  | _ => List.replicate 23 0

/-- The reserved bits of a node that is no kernel launch, with its kind. -/
def nodeReserved (h : List W64) : Bool :=
  h.getD 31 0 != 1 || hdrBits h 27 6 2 != 0 || hdrBits h 27 12 52 != 0 || h.getD 28 0 != 0 || h.getD 29 0 != 0 ||
    h.getD 30 0 != 0 || decide (5 < hdrKind h) ||
    (bodyWidths (hdrKind h)).zipIdx.any fun p => decide (2 ^ p.1 ≤ (h.getD p.2 0).toNat)

/-- The words of a node with the WID base of a SPAWN (R237). -/
def spawnBase (h : List W64) (level : Nat) (wid : W64) : List W64 :=
  if level = 0 then h
  else h.zipIdx.map fun p =>
    let i := p.2 - 4
    if 4 ≤ p.2 ∧ level ≤ i ∧ i < min 6 (hdrFields h) then BitVec.ofNat 64 (bitsOf wid (fieldOff h i) (hdrWidth h i)) else p.1

/-- Reads a launch header of a context. -/
def readHeader (s : State) (ctx who va : Nat) : Turn (List W64) :=
  (ofEng (engineRead s (schedAgent ctx who) va 256)).andThen fun s b => .ok s (wordsOf b 32)

/-- A stage header of a pipeline (R371). -/
def stageOk (s : State) (ctx : Nat) (h : List W64) : Bool :=
  launchCode s ctx h == 0 && hdrFields h == 1 && hdrCrewLevel h == 1 && hdrClusLevel h == 1 && hdrSeed h == 0 &&
    decide (32 ≤ hdrWidth h 0) && hdrBase h 0 == 0 && decide (1 ≤ hdrExt h 0) && decide (hdrExt h 0 ≤ 32)

/-- The fragment header and the target of a CLUSTERDRAW node (R419). -/
def drawOk (s : State) (ctx : Nat) (h : List W64) (w ht : Nat) : Bool :=
  launchCode s ctx h == 0 && hdrFields h == 2 && hdrCrewLevel h == 1 && hdrClusLevel h == 1 && hdrSeed h == 0 &&
    decide (5 ≤ hdrWidth h 0) && hdrExt h 0 == 32 && decide (1024 ≤ hdrScratch h) && decide (1 ≤ w) &&
    decide (w ≤ 16384) && decide (1 ≤ ht) && decide (ht ≤ 16384)

/-! ### Starting a node (R368) -/

/-- Starting a node acquires at DEVICE scope for the crews that will come of it: on every core. -/
def acquireAll (s : State) : State := (List.range 128).foldl (fun s k => acquireBump s k 2) s

/-- A node completes: one release at DEVICE scope for the work of its crews, on every core, then its signals. -/
def releaseCores (s : State) : State := (List.range 128).foldl (fun s k => drainCore s k 2 0xFF) s

def nodeRunning (s : State) (run n : Nat) (f : NodeRun → NodeRun) : State :=
  modNode s run n fun r => f { r with state := .running }

/-- A node is refused (R362, R368). -/
def refuseNode (s : State) (run n code : Nat) : State := endFailed (failRun s run n code) run

/-- The scheduler's read of CONSTP (R361): the lines of the first 4 KiB of the block are brought into the LLC as PREF.LLC brings one,
which skips a line whose checks fail or that does not lie on plain memory (R164). -/
def prefetchConsts (s : State) (run n ctx : Nat) (h : List W64) : State :=
  if hdrConstp h = 0 then s
  else (List.range 32).foldl (fun s i =>
    let va := hdrConstp h / 128 * 128 + 128 * i
    if 2 ^ 54 ≤ va then s
    else match pieceAt s (schedAgent ctx (actorOf run n)) .load va 128 with
      | .ok (.inl (.mem pa)) => countHome s 0 ctx pa
      | _ => s) s

/-- A kernel launch: its clusters, or its kindling clusters and the number of clusters that wait for them (R256). -/
def kernelStart (s : State) (run n ctx : Nat) (h : List W64) : State :=
  let sd := hdrSeed h
  let s := prefetchConsts s run n ctx h
  let total := extProd h (hdrClusLevel h) (hdrFields h)
  nodeRunning s run n fun r =>
    if hdrCrewLevel h < sd then { r with hdr := h, kready := [(0, extProd h sd (hdrFields h))], left := total }
    else { r with hdr := h, ready := [(0, total)], left := total }

/-- A Flue list or a CUTSEL descriptor is submitted: none where the queue is full or the context STOPPED. The
submission's release acts for the node's earlier writers (R292, R408). -/
def submitNode (s : State) (run n : Nat) (h : List W64) (ctx : Nat) : Option State :=
  if hdrKind h = 2 then
    let k := tlKey ctx (hdrBits h 0 0 16)
    match kvGet s.flues k with
    | none => none
    | some f => (queueList s k f { va := hdrBits h 1 0 54, count := hdrBits h 2 0 16, crew := none, node := some (run, n) }).map releaseCores
  else (queueJob s (tlKey ctx (hdrBits h 16 0 16)) { va := 0, node := some (run, n, h.take 16) }).map releaseCores

/-- Whether the engine context of a Flue-list or CUTSEL node is STOPPED. -/
def submitStopped (s : State) (h : List W64) (ctx : Nat) : Bool :=
  if hdrKind h = 2 then ((kvGet s.flues (tlKey ctx (hdrBits h 0 0 16))).map fun f => f.state == 3).getD false
  else ((kvGet s.splits (tlKey ctx (hdrBits h 16 0 16))).map fun f => f.state == 3).getD false

def submitStart (s : State) (run n : Nat) (h : List W64) (ctx : Nat) : State :=
  let tl := if hdrKind h = 2 then hdrBits h 0 0 16 else hdrBits h 16 0 16
  if hdrKind h = 2 ∧ (hdrBits h 2 0 16 = 0 ∨ hdrBits h 1 0 5 ≠ 0) then refuseNode s run n 0x01
  else if !timelineMade s ctx tl (some (hdrKind h)) then refuseNode s run n 0x09
  else if submitStopped s h ctx then refuseNode s run n 0x0D
  else
    match submitNode s run n h ctx with
    | some s => nodeRunning s run n fun r => { r with hdr := h, open_ := 1 }
    | none => modNode s run n fun r => { r with state := .deferred, hdr := h }

/-- A pipeline: its stage headers are read (R371). -/
def pipelineStart (s : State) (run n : Nat) (h : List W64) (ctx : Nat) : Turn Unit :=
  let k := hdrBits h 0 0 3 + 1
  match turnAll (fun s j => readHeader s ctx (actorOf run n) (hdrBits h (2 + j) 0 54)) s (List.range k) with
  | .wait s => .wait s
  | .susp => .susp
  | .stop s _ => .ok (refuseNode s run n 0x0C) ()
  | .ok s hs =>
    if !hs.all (stageOk s ctx) then .ok (refuseNode s run n 0x0C) ()
    else
      let zs := List.replicate k 0
      let shape (j : Nat) : Nat × Nat := (16 * (hdrBits h (18 + j / 4) (16 * (j % 4)) 4 + 1), hdrBits h (18 + j / 4) (16 * (j % 4) + 4) 12 + 1)
      let p : Pipe := { items := hdrBits h 1 0 32, stages := hs, shapes := (List.range k).map shape, claimed := zs, produced := zs, freed := zs }
      .ok (nodeRunning s run n fun r => { r with hdr := h, pipe := some p }) ()

/-- Sets DRAWERR (R418). -/
def drawErr (s : State) (ctx : Nat) : State := recOr s ctx 8 4

/-- A CLUSTERDRAW node: its fragment header, then NOUT; a status that cannot be read draws nothing (R418, R419). -/
def drawStart (s : State) (run n : Nat) (h : List W64) (ctx : Nat) : Turn Unit :=
  match readHeader s ctx (actorOf run n) (hdrBits h 3 0 54) with
  | .wait s => .wait s
  | .susp => .susp
  | .stop s _ => .ok (refuseNode s run n 0x07) ()
  | .ok s fh =>
    let w := hdrBits h 5 0 16
    let ht := hdrBits h 5 16 16
    if !drawOk s ctx fh w ht then .ok (refuseNode s run n 0x07) ()
    else
      let go (s : State) (left : Nat) : State := nodeRunning s run n fun r => { r with hdr := h, draw := some {
        left := left, recVA := hdrBits h 0 0 54, instVA := hdrBits h 2 0 54, hdr := fh, width := w, height := ht, f1 := hdrBase fh 1 } }
      match ofEng (engineRead s (schedAgent ctx (actorOf run n)) (hdrBits h 1 0 54) 4) with
      | .ok s b => .ok (go s (min (leNat b) (hdrBits h 4 0 32))) ()
      | .wait s => .wait s
      | .stop s _ => .ok (go (drawErr s ctx) 0) ()
      | .susp => .susp

/-- A ready node starts, or is refused. -/
def startNode (s : State) (r : Run) (n : Nat) : Turn Unit :=
  let h := runNodeWords s r n
  let s := acquireAll s
  if hdrKind h = 0 then
    let h := spawnBase h r.level r.wid
    let c := launchCode s r.ctx h false
    .ok (if c = 0 then kernelStart s r.id n r.ctx h else refuseNode s r.id n c) ()
  else if nodeReserved h then .ok (refuseNode s r.id n 0x01) ()
  else match hdrKind h with
    | 1 => pipelineStart s r.id n h r.ctx
    | 4 => .ok (nodeRunning s r.id n fun x => { x with hdr := h }) ()
    | 5 => drawStart s r.id n h r.ctx
    | _ => .ok (submitStart s r.id n h r.ctx) ()

/-- Whether a node may start now: a run holds while one of its wait entries is not registered (R370). -/
def nodeReady (s : State) (r : Run) (n : Nat) : Bool :=
  match kvGet r.nodes n with
  | none => false
  | some x => !r.failed && (ctxD s r.ctx).state == .resident && x.state == .pending && x.waiting.isEmpty &&
      r.nodes.all fun p => p.2.unreg.isEmpty

/-! ### The raster front end (R418, R419) -/

/-- A payload's checks (R404) against its cluster's entry, whose triangle count its record repeats, and the EXP of its
graph. -/
def payloadOk (nt ex : Nat) (entry b : List Byte) : Bool :=
  numAt b 12 1 == ex && numAt b 13 1 == nt && numAt b 13 1 == numAt entry 16 1 && numAt b 14 1 == numAt entry 17 1 &&
    decide (1 ≤ nt) && decide (nt ≤ 124) && decide (3 ≤ numAt b 14 1) && decide (numAt b 14 1 ≤ 64) && numAt b 15 1 == 0

/-- Reads the next output record with what it names; its triangles, or none where they are dropped. -/
def drawRecord (s : State) (ctx who : Nat) (d : Draw) : Turn (Option (List (Nat × Nat × Nat))) :=
  let rd (s : State) (va n : Nat) : Turn (List Byte) := ofEng (engineRead s (schedAgent ctx who) va n)
  let go : Turn (Option (List (Nat × Nat × Nat))) :=
    (rd s d.recVA 16).andThen fun s r =>
      let inst := numAt r 0 4
      let clid := numAt r 4 4
      let pay := numAt r 8 8 % 2 ^ 54
      let nt := numAt r 15 1 / 2
      (rd s (d.instVA + 64 * inst) 64).andThen fun s i =>
        (rd s (numAt i 56 8) 40).andThen fun s h =>
        (rd s (numAt h 0 8 + 32 * clid) 32).andThen fun s entry =>
          (rd s pay 16).andThen fun s b =>
            if !payloadOk nt (numAt h 32 1) entry b then .ok s none
            else
              let nv := numAt b 14 1
              (rd s (pay + 16) (6 * nv + 3 * nt)).andThen fun s vs =>
                .ok s (if (vs.drop (6 * nv)).all fun v => decide (v.toNat < nv) then
                  some ((List.range nt).map fun t => (inst, clid, t)) else none)
  match go with
  | .stop s _ => .ok s none
  | t => t

/-- A fragment of a triangle: place, depth and barycentrics belong to the rasteriser (log 2). -/
def fragment (s : State) (d : Draw) (t : Nat × Nat × Nat) : List Byte × State :=
  let (x, s) := freeVal s
  let (y, s) := freeVal s
  let (z, s) := freeVal s
  let (u, s) := freeVal s
  let (v, s) := freeVal s
  (leBytes 2 (x.toNat % d.width) ++ leBytes 2 (y.toNat % d.height) ++ leBytes 4 z.toNat ++ leBytes 4 t.1 ++ leBytes 4 t.2.1 ++
    [BitVec.ofNat 8 t.2.2, 1, 0, 0, 0, 0, 0, 0] ++ leBytes 4 u.toNat ++ leBytes 4 v.toNat, s)

/-- A waiting cluster joins the placement queue. -/
def addWaiting (s : State) (run n : Nat) (ctx idx age : Nat) (hdr : List W64) (kindling : Bool) (stamp : List (Nat × Nat))
    (init : List Byte) : State :=
  let (id, s) := fresh s
  let k : Cluster := {
    id := id, ctx := ctx, run := run, node := n, index := idx, hdr := hdr, cls := hdrPrio hdr, eff := hdrPrio hdr
    state := .waiting, age := age, cc := 0, saveSlot := 0, saves := 0, kindling := kindling, stampFrom := stamp
    liveCrews := 0, savedCrews := [], savedBatches := [], savedSets := [], savedPlanes := [], init := init }
  { s with clusters := s.clusters ++ [k] }

/-- A header whose field i has one value. -/
def fixField (h : List W64) (i base ext : Nat) : List W64 := (h.set (4 + i) (BitVec.ofNat 64 base)).set (10 + i) (BitVec.ofNat 64 ext)

/-- A fragment crew is launched with the fragments formed so far. -/
def launchFragments (s : State) (run n ctx : Nat) (d : Draw) : State :=
  let bytes := d.frags.flatten ++ List.replicate (1024 - 32 * d.frags.length) 0
  let s := modNode s run n fun r => { r with open_ := r.open_ + 1, draw := some { d with frags := [], f1 := (d.f1 + 1) % 2 ^ hdrWidth d.hdr 1 } }
  let ready := (((findRun s run).bind fun r => kvGet r.nodes n).map (·.readyAt)).getD s.clock
  addWaiting s run n ctx 0 ready (fixField d.hdr 1 d.f1 1) false [] bytes

/-- A node's waiting cluster. -/
def hasWaiting (s : State) (run n : Nat) : Bool := s.clusters.any fun k => k.run == run && k.node == n && k.state == .waiting

/-- Whether the front end has work that it can do. -/
def drawCanMove (s : State) (run n : Nat) (d : Draw) : Bool :=
  !(d.frags.isEmpty && d.tris.isEmpty && d.left == 0) && !(hasWaiting s run n && (d.frags.length == 32 || (d.tris.isEmpty && d.left == 0)))

/-- One action of the front end: it launches a crew, reads a record, adds a fragment of the first triangle, or goes on to
the next triangle. How many fragments a triangle has, and when a crew that is not full is launched, is the
hardware's (log 2). -/
def drawStep (s : State) (r : Run) (n : Nat) (d : Draw) : Turn Unit :=
  let put (s : State) (d : Draw) : State := modNode s r.id n fun x => { x with draw := some d }
  let nomore := d.tris.isEmpty && d.left == 0
  let (early, s) := freeBool s
  if !d.frags.isEmpty ∧ (d.frags.length = 32 ∨ nomore ∨ early) ∧ !hasWaiting s r.id n then .ok (launchFragments s r.id n r.ctx d) ()
  else if d.frags.length = 32 ∨ nomore then .ok s ()
  else
    match d.tris with
    | [] => (drawRecord s r.ctx (actorOf r.id n) d).andThen fun s ts =>
        let d := { d with left := d.left - 1, recVA := d.recVA + 16, tris := ts.getD [], cover := 0 }
        .ok (put (if ts.isNone then drawErr s r.ctx else s) d) ()
    | t :: ts =>
      let (more, s) := freeBool s
      if more ∧ d.cover < d.width * d.height then
        let (f, s) := fragment s d t
        .ok (put s { d with frags := d.frags ++ [f], cover := d.cover + 1 }) ()
      else .ok (put s { d with tris := ts, cover := 0 }) ()

/-! ### NODE_START, NODE_SUBMIT_DEFERRED, NODE_COMPLETE -/

/-- What a node that is ready, or a CLUSTERDRAW node that goes on, does next. -/
def nodeTurn (s : State) (r : Run) (n : Nat) : Option (Turn Unit) :=
  if nodeReady s r n then some (startNode s r n)
  else
    match kvGet r.nodes n with
    | none => none
    | some x => match x.state, x.draw with
      | .running, some d => if !r.dead && drawCanMove s r.id n d then some (drawStep s r n d) else none
      | _, _ => none

def execNodeStart (run n : Nat) (s : State) : Host.Outcome State Fault Refusal :=
  match findRun s run with
  | none => .next s
  | some r =>
    match nodeTurn s r n with
    | some (.ok s _) => .next (schedDone s (actorOf run n))
    -- a wait for a fill or a home keeps the node where it was, and the fill records that it made
    | some (.wait s') => .next { s with fills := s'.fills, parked := s'.parked, nextId := s'.nextId, homeAsks := s'.homeAsks }
    | _ => .next s

def execNodeSubmitDeferred (run n : Nat) (s : State) : Host.Outcome State Fault Refusal :=
  match findRun s run with
  | none => .next s
  | some r =>
    match kvGet r.nodes n with
    | none => .next s
    | some x =>
      if x.state ≠ .deferred then .next s
      else if submitStopped s x.hdr r.ctx then
        .next (endFailed (modNode (failRun s run n 0x0D) run n fun x => { x with state := .done }) run)
      else match submitNode s run n x.hdr r.ctx with
        | some s => .next (nodeRunning s run n fun x => { x with open_ := 1 })
        | none => .next s

/-- Whether a deferred node can go on. -/
def deferredCanMove (s : State) (r : Run) (x : NodeRun) : Bool :=
  x.state == .deferred && (submitStopped s x.hdr r.ctx || (submitNode s r.id 0 x.hdr r.ctx).isSome)

/-- Whether a started node has nothing left: every cluster placed and ended, every item out of the last stage, every
record drawn. The groups of a failed run that never freeze are not waited for, and of a run that a fatal error has ended only what
had been placed (R462). -/
def nodeOver (r : Run) (x : NodeRun) : Bool :=
  x.state == .running && x.open_ == 0 && (r.dead || (x.kready.isEmpty && x.ready.isEmpty && (x.left == 0 || r.failed) &&
    (match x.pipe with
    | some p => (p.produced.getLast?.getD 0) == p.items
    | none => true) &&
    (match x.draw with
    | some d => d.left == 0 && d.tris.isEmpty && d.frags.isEmpty
    | none => true)))

/-- The signal entries of a node, in order. -/
def nodeSignals (s : State) (ctx : Nat) (h : List W64) : State :=
  (List.range (hdrNsig h)).foldl (fun s i => match eventIdx s ctx (hdrSig h i).1 with
    | some e => signalEvent s e (hdrSig h i).2
    | none => s) s

/-- RUNS of a graph counts a completed run, saturating. -/
def countRun (s : State) (g : Nat) : State :=
  let w := (graphWord s g 1).toNat
  setGraphWord s g 1 (BitVec.ofNat 64 (w % 2 ^ 24 + 2 ^ 24 * min (2 ^ 40 - 1) (w / 2 ^ 24 + 1)))

/-- A node is done; the run ends when every node is. -/
def completeNode (s : State) (r : Run) (n : Nat) (x : NodeRun) : State :=
  let s := modNode s r.id n fun x => { x with state := .done, kindlings := [] }
  if r.failed then endFailed (reapImages s) r.id
  else
    let s := nodeSignals (releaseCores (reapImages s)) r.ctx x.hdr
    match findRun s r.id with
    | none => s
    | some r' =>
      if r'.nodes.all fun p => p.2.state == .done then
        let s := countRun (setGraphStatus s r.graph 2 0 0) r.graph
        { s with runs := s.runs.filter fun q => q.id ≠ r.id }
      else s

def execNodeComplete (run n : Nat) (s : State) : Host.Outcome State Fault Refusal :=
  match findRun s run with
  | none => .next s
  | some r =>
    match kvGet r.nodes n with
    | none => .next s
    | some x => if nodeOver r x then .next (completeNode s r n x) else .next s

end Sys2Proof.Machine
end

