-- ==== Sys2Proof/Machine/Preempt.lean ====
section
/-! DEFINITION. Pre-emption by discarding (R262 to R264) and restore (R444): the batch register images of Tables 02-3 and
02-4, the crew and cluster save areas of Tables 19-7 and 19-8, and the plane descriptors of Table 07-9. The save area
mirrors the device's own copy; a restore takes from it what R445 lets software change. -/
namespace Sys2Proof.Machine
open Sys2Proof

/-! ### Bytes -/

def zeros (n : Nat) : List Byte := List.replicate n 0

/-- Zero bytes up to a multiple of 128. -/
def pad128 (bs : List Byte) : List Byte := bs ++ zeros ((128 - bs.length % 128) % 128)

/-- Fixed places of a record, in order, with zeros between: (offset, bytes). -/
def layout (ps : List (Nat × List Byte)) (size : Nat) : List Byte :=
  let bs := ps.foldl (fun bs p => bs ++ zeros (p.1 - bs.length) ++ p.2) []
  bs ++ zeros (size - bs.length)

/-! ### Batch register images (R51 to R53) -/

/-- The saved bytes of a register (R52). -/
def regBytes (live : List Nat) (v : RegVal) : List Byte :=
  match v with
  | .u x => leBytes 4 x.toNat
  | .a b st => leBytes 4 b.toNat ++ leBytes 4 st.toNat
  | .g ls => lanes32.flatMap fun l => leBytes 4 (if live.contains l then (ls.getD l 0).toNat else 0)
  | .t _ => []

/-- A register's general line. -/
def lineOf (live : List Nat) (v : RegVal) : List Byte := regBytes live (.g (laneList (laneVal v)))

/-- A register as the saved bytes `bs` give it, in the shape of the device's own copy. -/
def regFrom (live : List Nat) (own : RegVal) (bs : List Byte) : RegVal :=
  let w (i : Nat) : W32 := BitVec.ofNat 32 (numAt bs (4 * i) 4)
  match own with
  | .u _ => .u (w 0)
  | .a _ _ => .a (w 0) (w 1)
  | .g _ => .g (laneList fun l => if live.contains l then w l else 0)
  | .t i => .t i

/-- The bytes of the shape map. -/
def shapeMap (vs : List RegVal) : List Byte :=
  (List.range 128).map fun i => BitVec.ofNat 8 ((List.range 4).map fun j =>
    (match vs[4 * i + j]? with
    | some v => shapeCode v
    | none => 0) * 4 ^ j).sum

/-- A saved batch: the batch, its extended registers when it held the set, and whether they were evicted. -/
structure SavedBatch where
  b : Batch
  ext : Option (List RegVal)
  evicted : Bool
  pinned : Bool

/-- The names that a saved batch saves. -/
def savedRegs (sb : SavedBatch) : List RegVal := sb.b.regs ++ sb.ext.getD []

def valueBytes (sb : SavedBatch) : List Byte := (savedRegs sb).flatMap (regBytes (liveLanes sb.b))

def trapBytes (sb : SavedBatch) : List Byte :=
  if sb.b.priv then sb.b.kregs.flatMap (lineOf (liveLanes sb.b)) else []

/-- LEN of an image. -/
def imageLen (sb : SavedBatch) : Nat := (0x180 + (valueBytes sb).length + (trapBytes sb).length + 127) / 128 * 128

/-- A batch register image (Table 02-3) with the header of Table 02-4. TIMG and TLVL name the image of the first live lane where
the fibres come from several (R53; log 91). -/
def batchImage (s : State) (m : Nat) (sb : SavedBatch) : List Byte :=
  let b := sb.b
  let live := liveLanes b
  let flag (c : Bool) (n : Nat) : Nat := if c then 2 ^ n else 0
  let img := (b.fibres.head?).bind fun p => p.2.img
  let lvl := ((img.bind fun i => kvGet s.images i).map (·.level)).getD 0
  let h1 := (maskOf live).toNat + 2 ^ 32 * b.wb + 2 ^ 41 * b.regs.length + 2 ^ 50 * m + flag sb.ext.isSome 59 +
    flag sb.evicted 60 + flag sb.pinned 61 + flag b.priv 62
  let h2 := (if sb.pinned then b.pin.getD 0 else 0) + 2 ^ 8 * (img.getD 0xFFFF) + 2 ^ 24 * lvl + 2 ^ 32 * imageLen sb
  let lane (l : Nat) : List Byte := leBytes 2 (if live.contains l then 32 * b.row + l else 0xFFFF)
  let pw (l : Nat) : List Byte := leBytes 4 (if live.contains l then (fibreOf b l).pw.toNat else 0)
  layout [(0, leBytes 8 b.pc.toNat), (8, leBytes 8 h1), (16, leBytes 8 h2), (0x40, lanes32.flatMap lane),
    (0x80, lanes32.flatMap pw), (0x100, shapeMap (savedRegs sb)), (0x180, valueBytes sb ++ trapBytes sb)] (imageLen sb)

/-- Reads registers of known shapes from consecutive saved bytes. -/
def regsFrom (live : List Nat) : List RegVal → List Byte → List RegVal
  | [], _ => []
  | v :: vs, bs => regFrom live v bs :: regsFrom live vs (bs.drop (regBytes live v).length)

/-- The batch that an image restores (R54, R445): RPC, LIVE and WB, the predicate table and the register values are the
area's, everything else the device's own copy. A lane that LIVE adds holds the fibre that the launch gives the place
(log 37). The k registers have no saved shape: theirs is that of their values (log 36), and an unprivileged batch, whose image
has none, keeps its own (log 73). RPC is the address of a word: its low three bits count as zero (R64; log 73). -/
def batchFrom (s : State) (c : Crew) (sb : SavedBatch) (bs : List Byte) : SavedBatch :=
  let b := sb.b
  let own := liveLanes b
  let live := lanesOf (BitVec.ofNat 32 (numAt bs 8 4))
  let fibre (l : Nat) : Nat × Fibre :=
    let f := if own.contains l then fibreOf b l else { wid := (placeWid c.hdr c.wid0 b.row l).getD (rowWid c.hdr c.wid0 b.row) }
    (l, { f with pw := BitVec.ofNat 32 (numAt bs (0x80 + 4 * l) 4) })
  let vals := regsFrom live (savedRegs sb) (bs.drop 0x180)
  let kat := 0x180 + (valueBytes sb).length
  let kreg (i : Nat) : RegVal := retag live (laneList fun l => BitVec.ofNat 32 (numAt bs (kat + 128 * i + 4 * l) 4))
  let pc := BitVec.ofNat 54 (numAt bs 0 8 / 8 * 8)
  { sb with
    b := { b with
      fibres := live.map fibre
      pc := pc
      regionStart := pc
      wb := numAt bs 12 2 % 512 / 8 * 8
      regs := vals.take b.regs.length
      xregs := if sb.ext.isSome then vals.drop b.regs.length else b.xregs
      kregs := if b.priv then (List.range 32).map kreg else b.kregs
      wake := s.clock
      lastIssue := s.clock } }

/-! ### Save areas (R443) -/

/-- The word is an XACQ. -/
def isXacq (w : W64) : Bool :=
  match decodeWord w with
  | .xacq _ => true
  | _ => false

/-- Where a batch restarts (R262): its GATHER word (R254; before R166, log 95), the blocked word (R166), or the start of its
region. -/
def restartPC (b : Batch) : VA :=
  match b.gatherAt with
  | some g => g
  | none =>
    if b.newRegion then b.pc
    else match b.block with
      | some (.buffer _ _ _) => b.pc
      | some .xset => b.pc
      | some (.barrier _ _ true _) => b.pc
      -- an XACQ whose eviction waits at its home
      | some (.home _ _) => if isXacq b.word then b.pc else b.regionStart
      | _ => b.regionStart

/-- A batch as it is saved: nothing in flight. -/
def savedOf (s : State) (b : Batch) : SavedBatch :=
  { ext := if holdsXSet s b then some b.xregs else none
    evicted := b.reacquire
    pinned := b.pin.isSome && b.gatherAt.isNone
    b := { b with
      pc := restartPC b
      regionStart := restartPC b
      newRegion := true
      pin := if b.gatherAt.isSome then none else b.pin
      gatherAt := none
      window := []
      retbuf := []
      owed := 0
      loads := []
      stores := []
      storesOwed := 0
      fillWait := []
      ahead := []
      parked := false
      block := none
      trap := none
      wake := 0 } }

/-- The crew save area (Table 19-8) with its batches in slot order; W is the number of members that wait as the save starts, and stays
the area's when members are dropped later (R258). -/
def crewArea (s : State) (c : Crew) (corerank : Nat) (bs : List SavedBatch) : List Byte :=
  let le := leBytes
  let cb (b : CBuf) : List Byte :=
    (cbWords b).flatMap (fun w => le 4 w.toNat) ++ le 8 ((b.depth - 1) % 256 + 2 ^ 8 * (b.slot % 2 ^ 12) + 2 ^ 20 * (b.base % 2 ^ 21))
  let bar (b : Barrier) : List Byte :=
    (barWords b).flatMap (fun w => le 4 w.toNat) ++ le 128 ((b.arrived.eraseDups.map fun f => 2 ^ f).sum)
  let wait (w : Waiting) : List Byte := le 8 (w.fibre + 2 ^ 10 * w.level + 2 ^ 16 * w.img)
  let hist (p : Nat × Nat) : List Byte := le 4 p.1 ++ le 4 p.2
  let head := layout [
    (0x000, le 4 c.id ++ le 4 c.epoch),
    (0x008, le 8 (c.rank + 2 ^ 8 * corerank + 2 ^ 11 * (bs.length % 32) + 2 ^ 16 * c.tiles.length + 2 ^ 23 * c.flSlot +
      (if c.histOvf then 2 ^ 35 else 0))),
    (0x010, le 8 (c.scratchBytes + 2 ^ 32 * c.areaW)),
    (0x018, le 4 c.fpStat.toNat ++ le 4 c.drainStat.toNat),
    (0x080, (List.range 8).flatMap fun i => le 8 (kvGetD c.counters i 0)),
    (0x0C0, c.cbs.flatMap cb),
    (0x1C0, (c.hist.take 32).flatMap hist),
    (0x2C0, c.barriers.flatMap bar),
    (0xC00, c.waiting.flatMap wait)] 0xC00
  let tile (t : Tile) : List Byte := (List.range 512).flatMap fun i => le 4 (kvGetD t.com i 0).toNat
  let scr := (List.range c.scratchBytes).map fun i => kvGetD c.scratch i 0
  pad128 head ++ c.tiles.flatMap tile ++ pad128 scr ++ bs.flatMap (batchImage s (hdrM c.hdr))

/-- Offsets of the parts of a crew area, as it was written: tiles, scratch, images. -/
def areaTiles (c : Crew) : Nat := (0xC00 + 8 * c.areaW + 127) / 128 * 128
def areaScratch (c : Crew) : Nat := areaTiles c + 2048 * c.tiles.length
def areaImages (c : Crew) : Nat := areaScratch c + (c.scratchBytes + 127) / 128 * 128

/-- A plane descriptor (Table 07-9). The loader is named while the plane is LOADING and its crew has not exited. A record has at most
16 tables, but more may be listed before its header is decoded: R222 does not say what NTAB and TVA then hold; they hold 16 and the
first 16, and a restore reads every one that the device's own copy lists (log 109). -/
def planeDesc (s : State) (p : Plane) (l : Option WLoad) : List Byte :=
  let load : Option WLoad := if p.state = 1 then l else none
  let who := (load.bind (·.loader)).bind fun q => (findCrew s q.1).map fun c => (c.rank, q.2)
  let tabs : List Nat := match load with
    | some l => l.tables.map fun (t : WTabReq) => t.va
    | none => p.tabList
  let va := match load with
    | some l => l.recVA
    | none => p.recVA
  let cause := match p.held with
    | some h => h.cause.code
    | none => 0xFF
  let e0 := va + 2 ^ 54 * p.state + 2 ^ 56 * cause
  let e1 := min 16 tabs.length + (match who with
    | some (r, row) => 2 ^ 5 * r + 2 ^ 13 * row + 2 ^ 18
    | none => 0)
  layout [(0, leBytes 8 e0), (8, leBytes 8 e1), (16, (tabs.take 16).flatMap (leBytes 8))] 144

/-- The planes that a cluster holds on a core with the load into wS: those lent to a fill count as its own (R390). -/
def clusterPlanes (s : State) (cluster core : Nat) : Plane × Plane × Option WLoad :=
  let k := coreD s core
  if k.array ≠ some cluster then ({}, {}, none)
  else match k.lent with
    | some p => p
    | none => (planeOf k 0, planeOf k 1, planeLoad k 1)

/-! ### PREEMPT_CLUSTER (R262, R444) -/

def clusterBase (s : State) (k : Cluster) : Nat := (ctxD s k.ctx).savepa + 4096 * (ctxD s k.ctx).savesz * k.saveSlot

def clusterCrewsOf (s : State) (id : Nat) : List Crew :=
  sortBy (s.crews.filter fun c => c.cluster == id && c.fill.isNone) fun a b => decide (a.rank ≤ b.rank)

/-- A batch with a pending trap either completes its entry, or is saved at its region's start (R459). -/
def settleTrap (s : State) (bid : Nat) : State :=
  match findBatch s bid with
  | none => s
  | some b =>
    match b.trap with
    | none => s
    | some t =>
      let (enter, s) := freeBool s
      if !enter || !b.stores.all (storeReady s b) then s
      else
        let s := drainStores s bid
        let mine := (coreD s b.core).passes.flatMap fun p => p.quarters.filter fun q => q.batch = bid
        let s := mine.foldl quarterDone s
        let strip (p : Pass) : Pass := { p with quarters := p.quarters.filter fun q => q.batch ≠ bid }
        let s := modCore s b.core fun k => { k with passes := (k.passes.map strip).filter fun p => !p.quarters.isEmpty }
        let s := landAll s bid
        match findBatch s bid with
        | none => s
        | some b => takeTrap s b t

/-- What words before the current region have outstanding is performed before the save, the stores first and then the results (R163,
R262, R338; log 95), and what the batch has spent parked or in a wait up to now is counted (R240). -/
def landOwed (s : State) (bid : Nat) : State :=
  match findBatch s bid with
  | none => s
  | some b =>
    let s := if b.parked then perfAdd s b.crew 2 (s.clock - b.parkedAt) else s
    let s := performStores (endWait s b) b b.storesOwed
    let s := (b.retbuf.take b.owed).foldl (fun s p => landPending s bid p) s
    modBatch s bid fun c => { c with retbuf := b.retbuf.drop b.owed, owed := 0 }

/-- The set of a pair by places within the crew: pair and slots as indices of its slot list. -/
def relativeSet (c : Crew) (x : XSet) : XSet :=
  let pairs := (c.slots.map (· / 2)).eraseDups
  let at_ (o : Option Nat) : Option Nat := o.map fun q => c.slots.findIdx fun r => r == q
  { x with pair := pairs.findIdx (· == x.pair), holder := at_ x.holder, evicted := at_ x.evicted, last := at_ x.last, waiters := [] }

/-- A crew's fibre-local lines are written back and leave its core (R282). -/
def saveFibreLocal (s : State) (c : Crew) : State :=
  let keys := ((coreD s c.core).l1.filter fun l => l.2.fl == some c.uid).map (·.1)
  dropFibreLocal (keys.foldl (fun s k => writeBack s c.core k) s) c

/-- The crew leaves its core, its slot of fibre-local memory kept. -/
def parkCrew (s : State) (c : Crew) : State :=
  let s := dropCrewWork s c
  unbindArray { s with crews := s.crews.filter fun d => d.uid ≠ c.uid } c.core

/-- An uncorrectable error in what a save reads (R286): its cause and the crew that held the data. -/
def clusterUE (s : State) (id : Nat) : Option (Cause × Nat) :=
  let crews := clusterCrewsOf s id
  let whose (p : Crew → Bool) : Option Nat := (crews.find? p).map (·.uid)
  s.upsets.findSome? fun u => match u with
    | .reg k sl _ _ => (whose fun c => c.core == k && c.slots.contains sl).map fun c => (Cause.eccUeReg, c)
    | .scratch q _ => (whose fun c => c.uid == q).map fun c => (Cause.eccUeScratch, c)
    | .acc q _ _ _ => (whose fun c => c.uid == q).map fun c => (Cause.eccUeAcc, c)
    | _ => none

/-- Saves a resident cluster. A batch that restarts at its blocked word, or at its GATHER, counts as one whose region is discarded:
Table 08-6 does not say whether counter 7 counts it, and that is the model's choice (log 110). -/
def saveCluster (s : State) (id : Nat) : State :=
  let bids := (s.batches.filter fun b => (clusterCrewsOf s id).any fun c => c.uid == b.crew).map (·.id)
  let s := bids.foldl (fun s b => landOwed (settleTrap s b) b) s
  match findCluster s id with
  | none => s
  | some k =>
    let drop (t : Tile) : Tile := { t with pend := [], owner := none }
    -- a region that a word has closed is not discarded
    let count (c : Crew) : Nat := s.batches.countP fun b => b.crew == c.uid && !b.newRegion
    let crews := (clusterCrewsOf s id).map fun c => { c with
      tiles := c.tiles.map drop
      areaW := c.waiting.length
      counters := kvPut 0 c.counters 7 (min satMax (kvGetD c.counters 7 0 + count c)) }
    let cores := (crews.map (·.core)).eraseDups
    let s := crews.foldl saveFibreLocal s
    let s := cores.foldl (fun s c => drainCore s c 3 0xFF) s
    -- a store of its own that the write-backs lost is fatal to the cluster before it is saved (R461, R462)
    if s.posted.any fun p => crews.any fun c => c.uid == p.2.1 then s else
    let parts (c : Crew) : List SavedBatch :=
      (sortBy (s.batches.filter fun b => b.crew == c.uid) fun a b => decide (a.row ≤ b.row)).map (savedOf s)
    let areas := crews.map fun c => (c, crewArea s c (cores.findIdx fun r => r == c.core) (parts c))
    let offs := (areas.foldl (fun (st : List (Nat × Nat) × Nat) a => (st.1 ++ [(a.1.rank, st.2)], st.2 + a.2.length)) ([], 0x1000)).1
    let planes := cores.map fun c => clusterPlanes s id c
    let head := layout ([(0, leBytes 8 (1 + 2 ^ 8 * ((if k.kindling then 1 else clusterCrews k.hdr) - 1) + 2 ^ 16 * cores.length + 2 ^ 32 * (k.saves + 1)))] ++
      (planes.zipIdx.map fun p => (0x40 + 288 * p.2, planeDesc s p.1.1 none ++ planeDesc s p.1.2.1 p.1.2.2)) ++
      ((List.range 256).map fun r => (0xA00 + 4 * r, leBytes 4 ((kvGetD offs r 0) / 128)))) 0x1000
    let base := clusterBase s k
    let s := (areas.zip offs).foldl (fun s a => homeWrite s (base + a.2.2) a.1.2) s
    let s := homeWrite s base head
    let batches := crews.flatMap fun c => (parts c).map (·.b)
    let sets := crews.flatMap fun c => (s.xsets.filter fun x => x.crew == c.uid).map (relativeSet c)
    let s := modCluster s id fun k => { k with
      state := .saved
      age := s.clock
      eff := k.cls
      saves := k.saves + 1
      savedCrews := crews
      savedBatches := batches
      savedSets := sets
      savedPlanes := (List.range cores.length).zip planes }
    crews.foldl parkCrew s

/-! ### Restore (R444, R445) -/

/-- The device's own copy of a saved batch, with what its set was. -/
def ownSaved (k : Cluster) (b : Batch) : SavedBatch :=
  let set := k.savedSets.find? fun x => x.crew == b.crew && x.pair == b.row / 2
  let held := b.xheld && set.any fun x => x.holder == some b.row
  { b := b, ext := if held then some b.xregs else none, evicted := b.reacquire, pinned := b.pin.isSome }

/-- A restored crew's set under the slots it now has. -/
def restoredSet (c : Crew) (x : XSet) : XSet :=
  let pairs := (c.slots.map (· / 2)).eraseDups
  let at_ (o : Option Nat) : Option Nat := o.map fun i => c.slots.getD i 0
  { x with core := c.core, pair := pairs.getD x.pair 0, holder := at_ x.holder, evicted := at_ x.evicted, last := at_ x.last }

/-- The core rank that a saved crew had. -/
def savedRanks (k : Cluster) : List Nat := (k.savedCrews.map (·.core)).eraseDups

/-- The admission needs of a saved crew. -/
def admitSaved (k : Cluster) (c : Crew) : Admit :=
  { hdr := c.hdr, acc := c.tiles.length, ctx := k.ctx, cluster := k.id, rank := c.rank, fl := some c.flSlot }

/-- Places the crews of one saved core rank together on a core. -/
def placeRank (s : State) (k : Cluster) (core : Nat) : List Crew → Option State
  | [] => some s
  | c :: cs =>
    match fits s core (admitSaved k c) with
    | none => none
    | some sl => placeRank (placeCrew s core sl { c with tiles := c.tiles }) k core cs

/-- Whether a core that takes a core rank of a cluster can bind its array (R222). -/
def arrayFree (s : State) (k : Cluster) (core : Nat) : Bool :=
  (coreD s core).array == none || (coreD s core).array == some k.id

/-- Places every rank on the lowest free core of a core cluster that takes it. -/
def placeRanks (k : Cluster) (cc : Nat) : List (Nat × Nat) → State → List (Nat × Nat) → Option (State × List (Nat × Nat))
  | [], s, used => some (s, used)
  | (oldCore, r) :: rs, s, used =>
    let crews := sortBy (k.savedCrews.filter fun c => c.core == oldCore) fun a b => decide (a.rank ≤ b.rank)
    let try' (core : Nat) : Option (State × Nat) :=
      if used.any (fun q => q.2 == core) || !arrayFree s k core then none else (placeRank s k core crews).map fun s => (s, core)
    match (clusterCores cc).findSome? try' with
    | none => none
    | some (s, core) => placeRanks k cc rs s (used ++ [(r, core)])

/-- Where a saved cluster would be placed in a core cluster: the state with its crews, and the cores of its ranks. -/
def restorePlace (s : State) (k : Cluster) (cc : Nat) : Option (State × List (Nat × Nat)) :=
  placeRanks k cc (savedRanks k).zipIdx s []

/-- Reads a crew's area back (R445): its scratch and tiles, and its batches. -/
def readCrew (s : State) (k : Cluster) (c : Crew) (at_ : Nat) : Crew × List SavedBatch :=
  let rd (off n : Nat) : List Byte := homeRead s (at_ + off) n
  let tile (i : Nat) (t : Tile) : Tile :=
    let bs := rd (areaTiles c + 2048 * i) 2048
    { t with com := (List.range 512).foldl (fun m j => kvPut 0 m j (BitVec.ofNat 32 (numAt bs (4 * j) 4))) [] }
  let cells := (List.range c.scratchBytes).foldl (fun m i => kvPut 0 m i ((rd (areaScratch c + i) 1).headD 0)) []
  let own := ((k.savedBatches.filter fun b => b.crew == c.uid)).map (ownSaved k)
  let step (st : List SavedBatch × Nat) (sb : SavedBatch) : List SavedBatch × Nat :=
    (st.1 ++ [batchFrom s c sb (rd st.2 (imageLen sb))], st.2 + imageLen sb)
  ({ c with tiles := c.tiles.zipIdx.map fun t => tile t.2 t.1, scratch := cells }, (own.foldl step ([], areaImages c)).1)

/-- The size of a saved crew's area. -/
def savedSize (k : Cluster) (c : Crew) : Nat :=
  areaImages c + (((k.savedBatches.filter fun b => b.crew == c.uid)).map fun b => imageLen (ownSaved k b)).sum

/-- Waiting members of a restored crew whose group's image exists are stamped (R258). -/
def stampAtRestore (s : State) (uid : Nat) : State :=
  let c := crewD s uid
  let img (w : Waiting) : Option Nat := groupImage s c.hdr w.img w.level w.wid
  let ready := c.waiting.filter fun w => (img w).isSome
  let imgs := (ready.filterMap img).eraseDups
  let s := modCrew s uid fun c => { c with
    waiting := (c.waiting.filter fun w => (img w).isNone && leaderStands s c.hdr w).map fun w => { w with since := s.clock } }
  imgs.foldl (fun s i => stampFibres s uid i ((ready.filter fun w => img w == some i).map fun w => (w.fibre, w.wid))) s

/-- A restored batch joins its crew's slot. A batch whose WB leaves no window in its sets takes REG_WINDOW at its first
word, before that word has any effect (R53): issueWord checks it. -/
def joinBatch (s : State) (sb : SavedBatch) : State :=
  let c := crewD s sb.b.crew
  if sb.b.fibres.isEmpty then s
  else
    let (id, s) := fresh s
    { s with batches := s.batches ++ [{ sb.b with id := id, core := c.core, slot := c.slots.getD sb.b.row 0, restored := true }] }

/-- Puts the planes of a rank on its core, whose array it binds: reloaded before any batch issues there, or at the end of a fill that has
borrowed the array (R222, R390). -/
def joinPlanes (k : Cluster) (s : State) (r : Nat × Nat) : State :=
  match kvGet k.savedPlanes r.1 with
  | none => s
  | some (qa, qs, l) =>
    let l := l.map fun l => { l with loader := l.loader.filter fun q => k.savedCrews.any fun c => c.uid == q.1 }
    modCore (if (coreD s r.2).borrow.isSome then s else clearPlanes s r.2) r.2 fun c =>
      let c := { c with array := some k.id }
      if c.borrow.isSome then { c with lent := some (qa, qs, l), lentRestored := true } else restorePlanes c qa qs l true

/-- Restores a saved cluster in the places found. -/
def restoreCluster (s : State) (k : Cluster) (placed : State) (cores : List (Nat × Nat)) (cc : Nat) : State :=
  let base := clusterBase s k
  let uids := k.savedCrews.map (·.uid)
  let step (st : List (Crew × List SavedBatch) × Nat) (c : Crew) : List (Crew × List SavedBatch) × Nat :=
    (st.1 ++ [readCrew s k c st.2], st.2 + savedSize k c)
  let got := (k.savedCrews.foldl step ([], base + 0x1000)).1
  let batches := got.flatMap (·.2)
  let s := placed
  -- each core acquires at SYSTEM scope before the first word issues (R338); its lines that no acquire makes stale leave, so that
  -- a restored fibre sees its own stores of another core (R157, R338)
  let s := cores.foldl (fun s r => dropLasting (acquireBump s r.2 3) r.2) s
  let s := got.foldl (fun s g => modCrew s g.1.uid fun c => { c with tiles := g.1.tiles, scratch := g.1.scratch }) s
  let sets := k.savedSets.map fun x => restoredSet (crewD s x.crew) x
  let s := { s with xsets := (s.xsets.filter fun x => !uids.contains x.crew) ++ sets }
  let s := cores.foldl (joinPlanes k) s
  let s := batches.foldl joinBatch s
  let s := modCluster s k.id fun k => { k with
    state := .resident, cc := cc, savedCrews := [], savedBatches := [], savedSets := [], savedPlanes := [] }
  let s := uids.foldl stampAtRestore s
  reapImages (uids.foldl exitIfEmpty s)

end Sys2Proof.Machine
end

