-- ==== Sys2Proof/Machine/Place.lean ====
section
/-! DEFINITION. Placement (R374 to R376): the clusters that a node yields, admission of a cluster's crews, restores,
pre-emption for REALTIME clusters, pipeline crews (R372, R373), class aging, and the slabs that admissions convert and
exits return (R268, R270). -/
namespace Sys2Proof.Machine
open Sys2Proof

/-! ### Yielding (R256, R257, R374) -/

/-- The images that the crews of a cluster are stamped from, by rank. -/
def stampsOf (h : List W64) (kin : List (Nat × Option Nat)) (idx : Nat) : List (Nat × Nat) :=
  if hdrCrewLevel h < hdrSeed h then
    (List.range (clusterCrews h)).filterMap fun r =>
      (kvGet kin (groupOf h (crewWid h idx r) (hdrSeed h))).bind fun o => o.map fun img => (r, img)
  else []

/-- The groups still needed once cluster `idx` has been yielded: a group of several clusters until its last one. -/
def keepGroups (h : List W64) (kin : List (Nat × Option Nat)) (idx : Nat) : List (Nat × Option Nat) :=
  let sd := hdrSeed h
  let cl := hdrClusLevel h
  if sd ≤ hdrCrewLevel h then kin
  else if cl ≤ sd then
    let m := extProd h cl sd
    if idx % m + 1 = m then kin.filter fun p => p.1 ≠ idx / m else kin
  else
    let m := extProd h sd cl
    kin.filter fun p => p.1 / m ≠ idx

/-- A queue of numbers, as (first, count), without the number `i`. -/
def queueDrop (q : List (Nat × Nat)) (i : Nat) : List (Nat × Nat) :=
  q.flatMap fun p =>
    if i < p.1 ∨ p.1 + p.2 ≤ i then [p]
    else [(p.1, i - p.1), (i + 1, p.1 + p.2 - (i + 1))].filter fun p => p.2 != 0

/-- A node's cluster number `i` leaves its queue of ready clusters and waits for placement. -/
def yieldReady (s : State) (r : Run) (n : Nat) (x : NodeRun) (i : Nat) : State :=
  let s := modNode s r.id n fun x => { x with
    ready := queueDrop x.ready i, left := x.left - 1, open_ := x.open_ + 1, kindlings := keepGroups x.hdr x.kindlings i }
  addWaiting s r.id n r.ctx i x.readyAt x.hdr false (stampsOf x.hdr x.kindlings i) []

/-- Whether a node has a cluster to yield and none that waits. -/
def yields (s : State) (r : Run) (p : Nat × NodeRun) : Bool :=
  !r.dead && p.2.state == .running && !(p.2.kready.isEmpty && p.2.ready.isEmpty) && !hasWaiting s r.id p.1

/-- A node yields its next cluster: kindling crews first. -/
def yieldNode (s : State) (r : Run) (p : Nat × NodeRun) : State :=
  if !yields s r p then s
  else
    let x := p.2
    match x.kready, x.ready with
    | (g, _) :: _, _ =>
      let s := modNode s r.id p.1 fun x => { x with kready := queueDrop x.kready g, open_ := x.open_ + 1 }
      addWaiting s r.id p.1 r.ctx g x.readyAt x.hdr true [] []
    | [], (i, _) :: _ => yieldReady s r p.1 x i
    | [], [] => s

/-- Every node that can yields a cluster. -/
def withYield (s : State) : State := s.runs.foldl (fun s r => r.nodes.foldl (fun s p => yieldNode s r p) s) s

def needsYield (s : State) : Bool := s.runs.any fun r => r.nodes.any fun p => yields s r p

/-! ### Admission of a cluster's crews (R249, R374) -/

/-- The ranks of a cluster's crews that hold fibres (R257). A kindling crew is a cluster of its own, with rank 0, also where k > s and
R247's formula would give the fields from c to k − 1 a value: R256 does not say, and that is the model's choice (log 111). -/
def crewRanks (k : Cluster) : List Nat :=
  if k.kindling then [0]
  else if hdrCrewLevel k.hdr < hdrSeed k.hdr then k.stampFrom.map (·.1)
  else List.range (clusterCrews k.hdr)

/-- The WID of a crew's first place. -/
def firstWid (k : Cluster) (rank : Nat) : W64 :=
  if k.kindling then kindlingWid k.hdr k.index else crewWid k.hdr k.index rank

/-- Admits crews in rank order, each on the lowest-numbered core where it fits. -/
def admitRanks (k : Cluster) (cc : Nat) : List Nat → State → List (Nat × Nat) → Option (State × List (Nat × Nat))
  | [], s, us => some (s, us)
  | r :: rs, s, us =>
    let a : Admit := { hdr := k.hdr, acc := hdrAcc k.hdr, ctx := k.ctx, cluster := k.id, rank := r, fl := none }
    match firstFit s cc a with
    | none => none
    | some (core, sl) => let (s, u) := admitCrew s core sl a (firstWid k r); admitRanks k cc rs s (us ++ [(r, u)])

/-- What a placement comes to: crews of a fresh cluster (rank and identity), or the cores of a saved one's ranks. -/
inductive Placed where
  | fresh (s : State) (crews : List (Nat × Nat))
  | back (s : State) (cores : List (Nat × Nat))

def placedState : Placed → State
  | .fresh s _ => s
  | .back s _ => s

/-- Places a cluster on a core cluster, if its crews fit all at once; a fresh one also needs a save slot (R443). -/
def tryPlace (s : State) (k : Cluster) (cc : Nat) : Option Placed :=
  if k.state = .saved then (restorePlace s k cc).map fun p => .back p.1 p.2
  else if (ctxD s k.ctx).nsave ≤ (ctxD s k.ctx).saveHeld.length then none
  else (admitRanks k cc (crewRanks k) s []).map fun p => .fresh p.1 p.2

/-- The lowest-numbered core cluster that takes a cluster, of those that are not `kept` for another. -/
def placeAmong (s : State) (k : Cluster) (kept : Option Nat) : Option (Nat × Placed) :=
  ((List.range 16).filter fun cc => kept != some cc).findSome? fun cc => (tryPlace s k cc).map fun p => (cc, p)

/-- Every slab that the crews' granules need is converted (R268). -/
def allConverted (p : Placed) (cc : Nat) : Bool := (clusterCores cc).all fun c => converted (placedState p) c

/-- The fibres of a fresh crew (R248, R256, R257). -/
def startFibres (k : Cluster) (s : State) (p : Nat × Nat) : State :=
  let (rank, uid) := p
  let h := k.hdr
  let all := crewFibreWids h (firstWid k rank)
  let s := if k.init.isEmpty then s else scratchWrite s uid 0 k.init
  if k.kindling then launchFibres s uid [(0, { wid := firstWid k rank, kindling := true })]
  else if hdrSeed h = 0 then launchFibres s uid (all.map fun f => (f.1, { wid := f.2 }))
  else if hdrSeed h ≤ hdrCrewLevel h then
    launchFibres s uid ((all.filter fun f => isLeader h f.2 (hdrSeed h)).map fun f => (f.1, { wid := f.2, kindling := true }))
  else match k.stampFrom.find? fun q => q.1 == rank with
    | none => s
    | some (_, img) =>
      let s := match kvGet s.images img with
        | some im => scratchWrite s uid im.offset im.scratch
        | none => s
      stampFibres s uid img all

/-- A free save slot of a context: any one (R443; log 2). -/
def pickSave (s : State) (ctx : Nat) : Nat × State :=
  let x := ctxD s ctx
  let cand := (List.range x.nsave).filter fun i => !x.saveHeld.contains i
  let (i, s) := freePick s cand.length
  (cand.getD i 0, modCtx s ctx fun x => { x with saveHeld := cand.getD i 0 :: x.saveHeld })

/-- A placed fresh cluster begins. -/
def beginCluster (s : State) (k : Cluster) (cc : Nat) (crews : List (Nat × Nat)) : State :=
  let (q, s) := pickSave s k.ctx
  let s := crews.foldl (startFibres k) s
  reapImages (modCluster s k.id fun k => { k with
    state := .resident, cc := cc, saveSlot := q, liveCrews := crews.length, stampFrom := [], init := []
    ranks := crews.map (·.1) })

/-- One waiting cluster ranks before another, or with it: by effective class, then age (R375). -/
def ranksBefore (a b : Cluster) : Bool := decide (b.eff < a.eff) || (a.eff == b.eff && decide (a.age ≤ b.age))

/-- Waiting and saved clusters of RESIDENT contexts in that order. -/
def placeOrder (s : State) : List Cluster :=
  sortBy (s.clusters.filter fun k => k.state != .resident && (ctxD s k.ctx).state == .resident) ranksBefore

/-! ### Class aging (R375) -/

def agingStep : Nat := 3800000

/-- Whether a waiting cluster rises one class. -/
def agingDue (s : State) (k : Cluster) : Bool :=
  k.state != .resident && decide (k.eff < 2) && decide (k.age + agingStep * (k.eff - k.cls + 1) ≤ s.clock)

def execClassAging (cl : Nat) (s : State) : Host.Outcome State Fault Refusal :=
  match findCluster s cl with
  | none => .next s
  | some k => if agingDue s k then .next (modCluster s cl fun k => { k with eff := k.eff + 1 }) else .next s

/-! ### Pre-emption for placement (R376) -/

/-- The machine without a resident cluster, as far as placement asks. -/
def without (s : State) (id : Nat) : State :=
  let free (k : Core) : Core := if k.array = some id then { k with array := none } else k
  { s with crews := s.crews.filter fun c => c.cluster ≠ id, cores := s.cores.map free }

/-- The clusters of a core cluster that may leave: BACKGROUND before NORMAL, youngest first. -/
def victimsOf (s : State) (cc : Nat) : List Cluster :=
  sortBy (s.clusters.filter fun k => k.state == .resident && k.cc == cc && decide (k.cls ≤ 1)) fun a b =>
    decide (a.cls < b.cls) || (a.cls == b.cls && decide (b.age ≤ a.age))

/-- How many victims of the list must leave before the cluster fits. -/
def victimCount (k : Cluster) (cc : Nat) : List Cluster → State → Option Nat
  | [], _ => none
  | v :: vs, s =>
    let s := without s v.id
    if (tryPlace s k cc).isSome then some 1 else (victimCount k cc vs s).map (· + 1)

/-- The first REALTIME cluster that fits nowhere but fits once others have left, with the core cluster that they leave. -/
def realtimePlan (s : State) : Option (Cluster × Nat) :=
  (placeOrder s).findSome? fun k =>
    if k.cls = 3 ∧ (placeAmong s k none).isNone then
      let opts := (List.range 16).filterMap fun cc => (victimCount k cc (victimsOf s cc) s).map fun n => (n, cc)
      match sortBy opts fun a b => decide (a.1 ≤ b.1) with
      | [] => none
      | (_, cc) :: _ => some (k, cc)
    else none

/-- The next victim. -/
def realtimeVictim (s : State) : Option Nat :=
  (realtimePlan s).bind fun p => (victimsOf s p.2).head?.map (·.id)

/-- The core cluster that is being cleared for a REALTIME cluster takes meanwhile no other cluster `k` but one that ranks before it
(R375, R376). -/
def keptFor (s : State) (k : Cluster) : Option Nat :=
  match realtimePlan s with
  | none => none
  | some (v, cc) => if k.eff = 3 ∧ k.id ≠ v.id ∧ ranksBefore k v then none else some cc

def placeAnywhere (s : State) (k : Cluster) : Option (Nat × Placed) := placeAmong s k (keptFor s k)

/-- A cluster behind a waiting one of its node that fits nowhere, in the node's queue, that does fit: only clusters of several groups
differ in size (R257, R375). It ranks with the one before it. -/
def smallerThan (s : State) (k : Cluster) : Option (Run × Nat × NodeRun × Nat) :=
  (findRun s k.run).bind fun r => (kvGet r.nodes k.node).bind fun x =>
    if k.state == .waiting && !r.dead && x.state == .running && x.kready.isEmpty && decide (hdrCrewLevel x.hdr < hdrSeed x.hdr) then
      (x.ready.flatMap fun q => (List.range q.2).map (q.1 + ·)).findSome? fun i =>
        let t := yieldReady s r k.node x i
        (t.clusters.getLast?).bind fun k' => (placeAnywhere t k').map fun _ => (r, k.node, x, i)
    else none

/-- What placement does next (R375): the first cluster in rank order that fits anywhere is placed; one of its node that fits in its
stead is yielded. -/
def nextStep (s : State) : Option ((Cluster × Nat × Placed) ⊕ (Run × Nat × NodeRun × Nat)) :=
  (placeOrder s).findSome? fun k => match placeAnywhere s k with
    | some p => some (.inl (k, p.1, p.2))
    | none => (smallerThan s k).map .inr

/-- The cluster that is placed next, with its place. -/
def nextPlace (s : State) : Option (Cluster × Nat × Placed) :=
  match nextStep s with
  | some (.inl p) => some p
  | _ => none

/-- The cluster that its node yields next in place of one that fits nowhere. -/
def smallerReady (s : State) : Option (Run × Nat × NodeRun × Nat) :=
  match nextStep s with
  | some (.inr q) => some q
  | _ => none

/-- CLUSTER_PLACE: nodes yield their next clusters; else, once every cluster stands in the class that its wait gives it (R375), the
first that fits is placed when it is a fresh one and the slabs that it needs are converted. -/
def execClusterPlace (s : State) : Host.Outcome State Fault Refusal :=
  if needsYield s then .next (withYield s)
  else if s.clusters.any (agingDue s) then .next s
  else match nextPlace s with
  | some (k, cc, .fresh p crews) => if allConverted (.fresh p crews) cc then .next (beginCluster p k cc crews) else .next s
  | some _ => .next s
  | none => match smallerReady s with
    | some (r, n, x, i) => .next (yieldReady s r n x i)
    | none => .next s

/-- CLUSTER_RESTORE: the first cluster that fits is a saved one, among all that their nodes have to yield. -/
def execClusterRestore (s : State) : Host.Outcome State Fault Refusal :=
  if needsYield s ∨ s.clusters.any (agingDue s) then .next s
  else match nextPlace s with
  | some (k, cc, .back p cores) => if allConverted (.back p cores) cc then .next (restoreCluster s k p cores cc) else .next s
  | _ => .next s

/-! ### Pre-emption (R262, R376) -/

/-- A store of a batch of the cluster, of a word before its current region, waits at its home: a save waits for it (R332, R482). -/
def storesWait (s : State) (k : Cluster) : Bool :=
  s.batches.any fun b => !b.stores.isEmpty && (crewD s b.crew).cluster == k.id && (b.stores.take b.storesOwed).any fun r => !storeReady s b r

/-- Whether a resident cluster must leave: its context halts, or it is chosen for a REALTIME cluster. -/
def preemptDue (s : State) (k : Cluster) : Bool :=
  k.state == .resident && !storesWait s k && ((ctxD s k.ctx).state == .halting || realtimeVictim s == some k.id)

def execPreemptCluster (cl : Nat) (s : State) : Host.Outcome State Fault Refusal :=
  match findCluster s cl with
  | none => .next s
  | some k =>
    if preemptDue s k then
      match clusterUE s cl with
      | some (c, uid) => .next (fatalError (countUE s (crewD s uid).core c) k.ctx uid (Cause.code c))
      | none => .next (saveCluster s cl)
    else .next s

/-! ### Pipelines (R372, R373) -/

/-- The items of queue j below which every one has been produced: a crew takes only such items (R373). -/
def producedTo (p : Pipe) (j : Nat) : Nat :=
  ((p.busy.filter fun b => b.1 == j).map (·.2)).foldl min (p.claimed.getD j 0)

/-- Stage j of a pipeline: m(j), and its score as a fraction. -/
def stageScore (p : Pipe) (j : Nat) : Nat × Int × Nat :=
  let g (l : List Nat) (i : Nat) : Nat := l.getD i 0
  let d (i : Nat) : Nat := (p.shapes.getD i (0, 1)).2
  let lastStage := j + 1 = p.stages.length
  let avail := if j = 0 then p.items - g p.claimed 0 else producedTo p (j - 1) - g p.claimed j
  let e0 := hdrExt (p.stages.getD j []) 0
  let m := min e0 (if lastStage then avail else min avail (d j - (g p.claimed j - g p.freed j)))
  let (a, b) := if j = 0 then (1, 2) else (g p.produced (j - 1) - g p.freed (j - 1), d (j - 1))
  let (c, e) := if lastStage then (0, 1) else (g p.claimed j - g p.freed j, d j)
  (m, (a * e : Nat) - (c * b : Nat), b * e)

/-- The stage that takes the next crew, with m: the highest score, ties to the later stage. -/
def pipePick (p : Pipe) : Option (Nat × Nat) :=
  let cand := ((List.range p.stages.length).map fun j => (j, stageScore p j)).filter fun q => 1 ≤ q.2.1
  let best (a : Option (Nat × Nat × Int × Nat)) (q : Nat × Nat × Int × Nat) : Option (Nat × Nat × Int × Nat) :=
    match a with
    | none => some q
    | some b => if b.2.2.1 * q.2.2.2 ≤ q.2.2.1 * b.2.2.2 then some q else some b
  (cand.foldl best none).map fun q => (q.1, q.2.1)

/-- The header of a stage crew: its items, and the class of stage 0. -/
def stageHeader (p : Pipe) (j m : Nat) : List W64 :=
  let h := fixField (p.stages.getD j []) 0 (p.claimed.getD j 0) m
  let w := (h.getD 1 0).toNat
  h.set 1 (BitVec.ofNat 64 (w - hdrPrio h * 2 ^ 33 + hdrPrio (p.stages.getD 0 []) * 2 ^ 33))

/-- The crew that the reassignment rule admits next, and where: the stage and m, the cluster, its place. -/
def pipeAdmit (s : State) (r : Run) (n : Nat) (x : NodeRun) : Option ((Nat × Nat) × Cluster × Nat × Placed) :=
  if r.dead ∨ x.state ≠ .running ∨ (ctxD s r.ctx).state ≠ .resident then none
  else x.pipe.bind fun p => (pipePick p).bind fun q =>
    let s := addWaiting s r.id n r.ctx 0 x.readyAt (stageHeader p q.1 q.2) false [] []
    (s.clusters.getLast?).bind fun k => (placeAnywhere s k).map fun pl => (q, k, pl.1, pl.2)

def execPipelineReassign (run n : Nat) (s : State) : Host.Outcome State Fault Refusal :=
  match (findRun s run).bind fun r => (kvGet r.nodes n).bind fun x => (pipeAdmit s r n x) with
  | some ((j, m), k, cc, .fresh p crews) =>
    if !allConverted (.fresh p crews) cc then .next s
    else
      let uids := crews.map (·.2)
      -- the admission of a consumer crew is an acquire at DEVICE scope (R372)
      let p := if j = 0 then p else uids.foldl (fun s u => acquireBump s (crewD s u).core 2) p
      let s := beginCluster p k cc crews
      let s := uids.foldl (fun s u => modCrew s u fun c => { c with items := some (j, m) }) s
      .next (modNode s run n fun x => { x with
        open_ := x.open_ + 1
        pipe := x.pipe.map fun p => { p with
          claimed := listMod p.claimed j fun c => c + m
          busy := p.busy ++ [(j, p.claimed.getD j 0)] } })
  | _ => .next s

/-! ### Slabs (R268, R270) -/

/-- The admissions that wait: the next placement, and those of the pipelines. -/
def waitingAdmissions (s : State) : List (Nat × Placed) :=
  ((nextPlace s).map fun p => (p.2.1, p.2.2)).toList ++
    s.runs.flatMap fun r => r.nodes.filterMap fun q => (pipeAdmit s r q.1 q.2).map fun a => (a.2.2.1, a.2.2.2)

/-- An admission waits for the core's next slab. -/
def convertDue (s : State) (core : Nat) : Bool :=
  decide ((coreD s core).scratchSlabs < 36) &&
    (waitingAdmissions s).any fun a => a.1 == core / 8 && !converted (placedState a.2) core

/-- SLAB_CONVERT: the highest L1 slab's lines are written back and leave, and it joins the scratch run. -/
def execSlabConvert (core : Nat) (s : State) : Host.Outcome State Fault Refusal :=
  if convertDue s core then .next (modCore (shedLines s core) core fun k => { k with scratchSlabs := k.scratchSlabs + 1 })
  else .next s

/-- The bottom scratch slab of a core is free and no admission that waits on the core needs it. -/
def returnDue (s : State) (core : Nat) : Bool :=
  let n := (coreD s core).scratchSlabs
  let uses (t : State) : Bool := (granulesUsed t core).any fun g => g / 8 == 40 - n
  n != 0 && !uses s && !((waitingAdmissions s).any fun a => a.1 == core / 8 && uses (placedState a.2))

def execSlabReturn (core : Nat) (s : State) : Host.Outcome State Fault Refusal :=
  if returnDue s core then .next (modCore s core fun k => { k with scratchSlabs := k.scratchSlabs - 1 }) else .next s

end Sys2Proof.Machine
end

