-- ==== Sys2Proof/Machine/Context.lean ====
section
/-! DEFINITION. Contexts (R440 to R442, R378): the commands of the context table and what they do, and the ends of a
halt and of a destruction. -/
namespace Sys2Proof.Machine
open Sys2Proof

/-! ### The context record (Table 19-5) -/

/-- The six fields that RESUME re-reads and CREATE reads with the others. -/
def readSix (s : State) (c : Nat) : State :=
  let x (i : Nat) : W64 := BitVec.ofNat 64 (recWord s c i)
  modCtx s c fun k => { k with
    ptroot := keepPtroot (x 0)
    tvec := keepTvec (x 1)
    evovfb := keepEvovfb (x 3)
    evovfn := bitsOf (x 4) 0 24
    wdog := (x 4).extractLsb' 32 32
    dbgctl := (x 5).extractLsb' 0 32 &&& 1 }

/-- The six fields go back to the record at the end of a halt. -/
def writeSix (s : State) (c : Nat) : State :=
  let k := ctxD s c
  let s := homeWriteNat s (recWordPA s c 0) 8 k.ptroot.toNat
  let s := homeWriteNat s (recWordPA s c 1) 8 k.tvec.toNat
  let s := homeWriteNat s (recWordPA s c 3) 8 k.evovfb.toNat
  let s := recField s c 4 0 24 k.evovfn
  let s := recField s c 4 32 32 k.wdog.toNat
  recField s c 5 0 32 k.dbgctl.toNat

/-- A record's place (R441): 4 KiB-aligned, in GDDR 7 below the reserved range. -/
def recordOk (pa : Nat) : Bool := pa % 4096 == 0 && paKind pa == .gddr

/-! ### Timelines (R442) -/

/-- TLE j of a context's record. -/
def tleWord (s : State) (c j : Nat) : W64 := BitVec.ofNat 64 (homeNat s ((ctxD s c).recPA + 0x800 + 8 * j) 8)

/-- Creates the timeline of an entry; none where it cannot be created. -/
def makeTimeline (s : State) (c j : Nat) (e : W64) : Option State :=
  let kind := bitsOf e 0 2
  let eng := bitsOf e 8 6
  if kind = 0 ∨ e.toNat &&& 0x3F0F ≠ e.toNat ∨ (kvGet (ctxD s c).timelines j).isSome ∨ (kind = 3 ∧ 2 ≤ eng) then none
  else if kind = 2 ∧ 16 ≤ (s.flues.countP fun f => f.2.engine == eng) then none
  else if kind = 3 ∧ 16 ≤ (s.splits.countP fun f => f.2.engine == eng) then none
  else
    let s := modCtx s c fun k => { k with timelines := kvSet k.timelines j ⟨kind, bitsOf e 2 2, eng, 0⟩ }
    if kind = 2 then some { s with flues := kvSet s.flues (tlKey c j) { ctx := c, tl := j, engine := eng } }
    else if kind = 3 then some { s with splits := kvSet s.splits (tlKey c j) { ctx := c, tl := j, engine := eng } }
    else some s

def setCmdErr (s : State) (c : Nat) : State := modCtx s c fun k => { k with cmderr := true }

/-- The timelines of every entry at CREATE: an entry that cannot be created sets CMDERR. -/
def makeTimelines (s : State) (c : Nat) : State :=
  (List.range 256).foldl (fun s j =>
    let e := tleWord s c j
    if e = 0 then s else (makeTimeline s c j e).getD (setCmdErr s c)) s

/-! ### Commands (Table 19-4) -/

/-- The events of a context's range and their stamps are zero. -/
def clearEvents (s : State) (c : Nat) : State :=
  let r := (ctxD s c).evrange.toNat
  let inside (i : Nat) : Bool := decide (r % 65536 ≤ i) && decide (i < r % 65536 + r / 65536 + 1)
  { s with
    events := s.events.filter fun p => !inside p.1
    evStamps := s.evStamps.filter fun p => !inside p.1 }

/-- CREATE: a record out of place, or with a reserved bit set, leaves the slot FREE. A context can be created once the
identity block reports READY (R493). -/
def ctxCreate (s : State) (c : Nat) : State :=
  let k := ctxD s c
  let x2 := BitVec.ofNat 64 (recWord s c 2)
  let x7 := BitVec.ofNat 64 (recWord s c 7)
  if !s.ident.ready ∨ !recordOk k.recPA ∨ bitsOf x2 33 31 ≠ 0 ∨ recWord s c 4 / 2 ^ 24 % 2 ^ 8 ≠ 0 then setCmdErr s c
  else
    let s := { s with xpair := s.xpair.filter fun p => p.1 / 8 ≠ c }
    let s := modCtx s c fun k => {
      state := .resident, cmderr := k.cmderr, cmd := k.cmd, recPA := k.recPA
      evrange := x2.extractLsb' 0 32
      sys := x2.getLsbD 32
      savepa := bitsOf (BitVec.ofNat 64 (recWord s c 6)) 12 38 * 4096
      nsave := bitsOf x7 0 16
      savesz := bitsOf x7 16 20 }
    makeTimelines (clearEvents (readSix s c) c) c

/-- RESUME: refused while the die has not cooled below TRESUME since a trip (R463, R487). -/
def ctxResume (s : State) (c : Nat) : State :=
  if s.power.tripped then setCmdErr s c
  else
    let s := recField (readSix s c) c 8 3 1 0
    modCtx s c fun k => { k with state := .resident }

/-- The runs of a context end FAILED with 0xFD (R378). -/
def dropRuns (s : State) (c : Nat) : State :=
  let mine := s.runs.filter fun r => r.ctx = c
  let s := mine.foldl (fun s r => if r.failed then s else setGraphStatus s r.graph 3 0xFD 0) s
  { s with runs := s.runs.filter fun r => r.ctx ≠ c }

/-- DESTROY: everything the context holds ends but its running fills (Tables 17-4 and 19-4). -/
def ctxDestroy (s : State) (c : Nat) : State :=
  let s := dropWaiters s fun w => w.ctx == c
  let s := dropRuns s c
  -- a run whose patch list is being read ends as well (R367, R378)
  let s := ((ctxD s c).trigQ.filter (·.begun)).foldl (fun s t => setGraphStatus s (bitsOf t.word 0 16) 3 0xFD 0) s
  let s := ((s.clusters.filter fun k => k.ctx == c).map (·.id)).foldl discardCluster s
  let s := (s.fills.filter fun f => f.ctx == c && f.state == .queued).foldl (fun s f => monSample s 1 c (s.clock - f.born)) s
  let s := { s with
    flues := s.flues.filter fun f => f.2.ctx ≠ c
    splits := s.splits.filter fun f => f.2.ctx ≠ c
    fills := s.fills.filter fun f => f.ctx ≠ c ∨ f.state = .running
    -- generated lines live for the context
    genLines := s.genLines.filter fun l => l.ctx ≠ c
    victims := s.victims.filter fun v => v.2.ctx ≠ c }
  modCtx s c fun k => { k with state := .destroying, timelines := [], trigQ := [] }

/-- TLSET of entry j. -/
def ctxTlset (s : State) (c j : Nat) : State := (makeTimeline s c j (tleWord s c j)).getD (setCmdErr s c)

/-- States that a context may be destroyed in and given timelines in. -/
def ctxLive (s : State) (c : Nat) : Bool := takesTriggers s c

/-- A write of CMD: the command with its code and timeline id, or CMDERR where the state does not permit it. -/
def ctxCommand (s : State) (c code id : Nat) : State :=
  match code, (ctxD s c).state with
  | 1, .free => ctxCreate s c
  | 2, .resident => haltContext s c
  | 3, .halted => ctxResume s c
  | 4, _ => if ctxLive s c then ctxDestroy s c else setCmdErr s c
  | 5, _ => if ctxLive s c then ctxTlset s c id else setCmdErr s c
  | _, _ => setCmdErr s c

/-- The host writes CMD of slot c; a device in recovery accepts only a new image (R491). -/
def writeCmd (s : State) (c : Nat) (v : W64) : State :=
  if c < 64 ∧ !s.ident.recov then ctxCommand (modCtx s c fun k => { k with cmd := v }) c (bitsOf v 0 3) (bitsOf v 8 8) else s

def execCtxCreate (c : Nat) (s : State) : Host.Outcome State Fault Refusal := .next (writeCmd s c 1)
def execCtxHalt (c : Nat) (s : State) : Host.Outcome State Fault Refusal := .next (writeCmd s c 2)
def execCtxResume (c : Nat) (s : State) : Host.Outcome State Fault Refusal := .next (writeCmd s c 3)
def execCtxDestroy (c : Nat) (s : State) : Host.Outcome State Fault Refusal := .next (writeCmd s c 4)
def execCtxTlset (c id : Nat) (s : State) : Host.Outcome State Fault Refusal :=
  .next (writeCmd s c (BitVec.ofNat 64 (5 + 256 * (id % 256))))

/-- A CMD code that names no command. -/
def execCtxCmdInvalid (c code : Nat) (s : State) : Host.Outcome State Fault Refusal :=
  if code % 8 = 0 ∨ code % 8 = 6 ∨ code % 8 = 7 then .next (writeCmd s c (BitVec.ofNat 64 (code % 8))) else .next s

/-- The host writes 1 to STATE.CMDERR. -/
def clearCmdErr (s : State) (c : Nat) : State := if s.ident.recov then s else modCtx s c fun k => { k with cmderr := false }

def execCmderrClear (c : Nat) (s : State) : Host.Outcome State Fault Refusal := .next (clearCmdErr s c)

/-! ### The ends of a halt and of a destruction -/

/-- The last save of a HALTING context is complete. -/
def haltedDue (s : State) (c : Nat) : Bool :=
  (ctxD s c).state == .halting && !(s.clusters.any fun k => k.ctx == c && k.state == .resident)

def execCtxHalted (c : Nat) (s : State) : Host.Outcome State Fault Refusal :=
  if haltedDue s c then .next (modCtx (writeSix s c) c fun k => { k with state := .halted }) else .next s

/-- The last fill of a DESTROYING context has ended; its commands and descriptors ended with DESTROY. -/
def freedDue (s : State) (c : Nat) : Bool := (ctxD s c).state == .destroying && !(s.fills.any fun f => f.ctx == c)

def execCtxFreed (c : Nat) (s : State) : Host.Outcome State Fault Refusal :=
  if freedDue s c then
    let drop (k : Core) : Core := { k with
      utlb := k.utlb.filter fun t => t.ctx ≠ c
      ptes := k.ptes.filter fun t => t.ctx ≠ c }
    .next (modCtx { s with cores := s.cores.map drop, xpair := s.xpair.filter fun p => p.1 / 8 ≠ c } c fun k => {
      cmderr := k.cmderr, cmd := k.cmd, recPA := k.recPA })
  else .next s

end Sys2Proof.Machine
end

