-- ==== Sys2Proof/Machine/Hearth.lean ====
section
/-! DEFINITION. Generator memory (chapter 17): the generator table (R380, R381), fill placement and timeout (R387, R391),
the fill words and GENINV (R394 to R398), and the victim store's registers (R383). -/
namespace Sys2Proof.Machine
open Sys2Proof

/-! ### Generations and entries -/

/-- What the end or the advance of a generation does to its records (Table 17-4). -/
def mapFills (s : State) (g : Nat) (f : Fill → Option Fill) : State :=
  { s with fills := s.fills.filterMap fun r => if r.gen = g then f r else some r }

/-- The generation of a generator advances (R398 step 5): older lines are gone at once, QUEUED records take the new
generation, RUNNING ones are stale and FAILED ones end. When it comes round to 0 the generator's victim tags go too. -/
def advanceGen (s : State) (g : Nat) : State :=
  let w := (genWord s g 2).toNat
  let n := (w % 2 ^ 32 + 1) % 2 ^ 32
  let s := setGenWord s g 2 (BitVec.ofNat 64 (w / 2 ^ 32 * 2 ^ 32 + n))
  let s := { s with
    genLines := s.genLines.filter fun l => l.gen ≠ g
    victims := if n = 0 then s.victims.filter fun v => v.2.gen ≠ g else s.victims }
  mapFills s g fun r => match r.state with
    | .queued => some { r with ggen := n }
    | .running => some { r with stale := true }
    | .failed => none

/-- VALID = 0 ends a generator (R381): QUEUED records end FAILED with cause 0xFF and code 0xFFFE, which ends their latency
(Table 24-3), FAILED ones go. -/
def endGen (s : State) (g : Nat) : State :=
  let s := mapFills s g fun r => if r.state = .failed then none else some r
  let queued := s.fills.filter fun r => r.gen == g && r.state == .queued
  queued.foldl (fun s r => monSample (addFails (failRecord s r.id 0xFF 0xFFFE) g) 1 r.ctx (s.clock - r.born)) s

/-- A rewritten generator's QUEUED records take the context and the unit size of its entry (R388, Table 17-6; log 88): the unit that
holds the old one's first byte, with the index of its own first byte, which its pages carry back to it (R379). -/
def rekey (s : State) (g : Nat) : State :=
  let n := genUnitBytes s g
  mapFills s g fun r => if r.state = .queued then
    some { r with ctx := bitsOf (genWord s g 1) 4 6, bytes := n, unit := r.unit / n * n, idx := (r.idx + 2 ^ 38 - r.unit % n) % 2 ^ 38 } else some r

/-- What a generator's header must have beside Table 16-2 (R381). -/
def genHeaderOk (h : List W64) : Bool :=
  hdrFields h == 1 && hdrCrewLevel h == 1 && hdrClusLevel h == 1 && hdrSeed h == 0 && hdrBase h 0 == 0 &&
    decide (1 ≤ hdrExt h 0) && decide (hdrExt h 0 ≤ 32) && decide (hdrN h ≤ 128) && hdrM h == 0 && hdrImage h == 0 &&
    decide (hdrScratch h ≤ 16384) && decide (hdrAcc h ≤ 1) && hdrBars h == 0 && hdrCbs h == 0 && hdrSfl h == 0 &&
    hdrNwait h == 0 && hdrNsig h == 0 && (List.range 16).all fun j => hdrTlb h j == 0xFFFF

/-- The reads of the Hearth's own: privileged, in the context of the entry (R381). -/
def hearthAgent (ctx : Nat) : Agent := { ctx := ctx, chk := .pageAbsent, priv := true, who := .other 2 }

/-- The refusal code of an entry in the order of Table 17-7, with the header read; 0 when it is accepted. A read of the
header that cannot be performed yet is waited for. -/
def entryCode (s : State) (i : Nat) (t1 : W64) : Eng (Nat × List W64) :=
  let t0 := genWord s i 0
  let ctx := bitsOf t1 4 6
  if bitsOf t0 54 10 ≠ 0 ∨ bitsOf t0 0 3 ≠ 0 ∨ bitsOf t1 11 5 ≠ 0 ∨ bitsOf t1 24 40 ≠ 0 ∨ 4 < bitsOf t1 0 3 ∨ genWord s i 3 ≠ 0 then
    .ok s (0x11, [])
  else if (ctxD s ctx).state = .free ∨ (ctxD s ctx).state = .destroying then .ok s (0x13, [])
  else
    match engineRead s (hearthAgent ctx) (bitsOf t0 0 54) 256 with
    | .ok s bs =>
      let h := wordsOf bs 32
      let c := headerCode s ctx h
      .ok s (if c ≠ 0 then c else if genHeaderOk h then 0 else 0x10, h)
    | .bad s _ _ _ => .ok s (0x12, [])
    | .wait s k => .wait s k

/-- t1 with VALID and ERR as the checks leave them. -/
def entryWord (t1 : W64) (valid : Bool) (err : Nat) : W64 :=
  let v := t1.toNat
  BitVec.ofNat 64 (v - (v / 2 ^ 10 % 2) * 2 ^ 10 - (v / 2 ^ 16 % 2 ^ 8) * 2 ^ 16 + (if valid then 2 ^ 10 else 0) + 2 ^ 16 * err)

/-- A write of t1 with VALID = 1 (R381). A refused rewrite ends the generator that stood there; an accepted write of an
entry that was accepted before is a rewrite and advances GEN. While the header's read waits the write stays due, before
every later input (log 1). -/
def submitEntry (s : State) (i : Nat) (t1 : W64) : State :=
  if 4096 ≤ i ∨ s.ident.recov then s
  else
    let was := (genWord s i 1).getLsbD 10
    match entryCode s i t1 with
    | .wait s _ => { s with agenda := .genEntrySubmit i t1 :: s.agenda }
    | .bad s _ _ _ => s
    | .ok s (err, h) =>
    let s := modParks s (.other 2) fun _ => []
    if err ≠ 0 then
      let s := setGenWord s i 1 (entryWord t1 false err)
      if was then endGen s i else s
    else
      let again := (kvGet s.genHdrs i).isSome
      let s := setGenWord { s with genHdrs := kvSet s.genHdrs i h } i 1 (entryWord t1 true 0)
      if again then rekey (advanceGen s i) i else s

/-- Whether a submission can be decided: its header's read does not wait. -/
def submitReady (s : State) (i : Nat) (t1 : W64) : Bool :=
  decide (4096 ≤ i) || s.ident.recov || match entryCode s i t1 with
    | .wait _ _ => false
    | _ => true

def execGenEntrySubmit (i : Nat) (t1 : W64) (s : State) : Host.Outcome State Fault Refusal := .next (submitEntry s i t1)

/-- A write of t1 with VALID = 0 (R381). -/
def invalidateEntry (s : State) (i : Nat) (t1 : W64) : State :=
  if 4096 ≤ i ∨ s.ident.recov then s
  else
    let was := (genWord s i 1).getLsbD 10
    let s := setGenWord s i 1 (entryWord t1 false (bitsOf (genWord s i 1) 16 8))
    if was then endGen s i else s

def execGenEntryInvalidate (i : Nat) (t1 : W64) (s : State) : Host.Outcome State Fault Refusal :=
  .next (invalidateEntry s i t1)

/-- A write of VSBASE or VSCFG (R383, Table 17-3) empties the victim store. -/
def writeVictimStore (s : State) (cfg : Bool) (v : W64) : State :=
  if s.ident.recov then s else
  let s := { s with victims := [], vsRot := [] }
  if cfg then { s with vsCfg := if bitsOf v 0 5 < 24 then bitsOf v 0 5 else 0 }
  else { s with vsBase := bitsOf v 12 38 * 4096 }

def execVictimStoreConfig (cfg : Bool) (v : W64) (s : State) : Host.Outcome State Fault Refusal :=
  .next (writeVictimStore s cfg v)

/-! ### Fill tasks (R387 to R391) -/

/-- Whether a fill of a depth may run on a core: its slot is free, and a depth-2 fill with a tile finds no depth-1 fill with one,
which would hold the array before it and let it wait (R387, R390; log 101). -/
def fillFits (s : State) (core : Nat) (f : Fill) : Bool :=
  let k := coreD s core
  let free := if f.depth = 1 then !k.half30 else !k.half31
  free && !(f.depth == 2 && hdrAcc (kvGetD s.genHdrs f.gen []) != 0 &&
    s.crews.any fun c => c.core == core && c.slots == [30] && c.fill.isSome && !c.tiles.isEmpty)

/-- Records in the order of placement: highest class, then oldest. -/
def fillRank (a b : Fill) : Bool := decide (b.cls < a.cls) || (a.cls == b.cls && decide (a.born < b.born || (a.born = b.born ∧ a.id ≤ b.id)))

/-- The QUEUED record of a depth that the Hearth places next: the first in order that some core can take. -/
def nextFill (s : State) (depth : Nat) : Option Fill :=
  (sortBy (s.fills.filter fun f => f.state == .queued && f.depth == depth) fillRank).find? fun f =>
    (List.range s.cores.length).any fun k => fillFits s k f

/-- A fill task is admitted (R271, R387, R388): its half of slab 3 leaves the L1 and is zero, its batch starts as R248
says in slot 29 + d, after an acquire at DEVICE scope. -/
def startFill (s : State) (core : Nat) (f : Fill) : State :=
  let h := kvGetD s.genHdrs f.gen []
  let s := shedLines s core
  let (uid, s) := fresh s
  let (id, s) := takeId s f.ctx
  let s := modCore s core fun k => { k with
    half30 := k.half30 || f.depth == 1
    half31 := k.half31 || f.depth == 2 }
  let c : Crew := {
    uid := uid, id := id, ctx := f.ctx, cluster := 0, rank := 0, core := core, hdr := h
    slots := [29 + f.depth], scratchBytes := hdrScratch h, tiles := List.replicate (hdrAcc h) {}, fill := some f.id
    wid0 := widOf h [0] }
  let s := acquireBump { s with crews := s.crews ++ [c] } core 2
  let s := acquireStamp s uid 2 false (kvGet s.genStamps f.gen)
  let s := modFill s f.id fun r => { r with state := .running, core := core, crew := uid, start := s.clock }
  launchFibres s uid ((crewFibreWids h c.wid0).map fun p => (p.1, { wid := p.2 }))

def execFillPlace (depth core : Nat) (s : State) : Host.Outcome State Fault Refusal :=
  match nextFill s depth with
  | none => .next s
  | some f => if core < s.cores.length ∧ fillFits s core f then .next (startFill s core f) else .next s

/-- The watchdog of a fill task (R391). -/
def fillTimeout : Nat := 1900000

def execFillTimeout (r : Nat) (s : State) : Host.Outcome State Fault Refusal :=
  match findFill s r with
  | none => .next s
  | some f =>
    if f.state = .running ∧ f.start + fillTimeout ≤ s.clock then .next (failFill s r (Cause.code .fillTimeout) 0) else .next s

/-! ### The fill words (R394 to R397) -/

/-- The record of the batch's fill task. -/
def myFill (x : Exec) : Option Fill := (crewD x.s x.b.crew).fill.bind (findFill x.s)

/-- Outside a fill task these words raise PRIV at step 4 of Table 03-7 (R394): before the check of their fields. -/
def fillSpec (s : State) (op : Nat) (w : FWord) (d a b : Cls) (ok : Bool) : Spec :=
  let inFill := (findBatch s s.cur).any fun b => (crewD s b.crew).fill.isSome
  let sp := sysSpec op w d a b .z ok
  if inFill then sp else { sp with legal := true, fields := [], eph := false }

/-- The body of a fill word. -/
def inFill (x : Exec) (f : Fill → Eff) : Eff :=
  match myFill x with
  | none => .trap x.s (wordTrap x .priv)
  | some r => f r

/-- UNIT of the entry as the record took it. -/
def unitCode (r : Fill) : Nat := ([0, 1, 2, 3, 4].find? fun u => r.bytes == 4096 * 2 ^ u).getD 0

/-- FILLARG (R395): the index rounded down to the unit size (Table 17-6). -/
def execFillarg (w : FWord) (s : State) : Host.Outcome State Fault Refusal :=
  runF s w { fillSpec s 0xE6 w vq .z .z (w.m = 0) with ephOk := true } fun x => inFill x fun r =>
    let idx := r.idx / r.bytes * r.bytes
    .res (uRegs x [
      BitVec.ofNat 32 idx,
      BitVec.ofNat 32 (idx / 2 ^ 32 % 64 + 64 * r.gen + 2 ^ 18 * unitCode r + 2 ^ 21 * r.depth),
      BitVec.ofNat 32 r.unit,
      BitVec.ofNat 32 (r.unit / 2 ^ 32)]) [] []

def execFillput (w : FWord) (s : State) : Host.Outcome State Fault Refusal :=
  let sp := { fillSpec s 0xE7 w .z v1 v1 (w.m.toNat < 2) with
    closes := true, uni := if w.m.getLsbD 0 then [.a, .b] else [.b] }
  runF s w sp fun x => inFill x fun r =>
    let o := (uniVal x .b 0).toNat
    let sp := w.m.getLsbD 0
    let at' := (uniVal x .a 0).toNat
    if sp ∧ (at' % 16 ≠ 0 ∨ (crewD x.s x.b.crew).scratchBytes < at' + 128) then .trap x.s (wordTrap x .scratchRange)
    else if o % 128 ≠ 0 ∨ r.bytes ≤ o then .trap x.s (wordTrap x .align)
    else if sp && scratchBad x.s .load x.b.crew at' 128 then .trap x.s (wordTrap x .eccUeScratch)
    else
      let line := if sp then scratchRead x.s x.b.crew at' 128
        else lanes32.flatMap fun l => leBytes 4 (if x.act.contains l then (lane x .a 0 l).toNat else 0)
      .done (modFill x.s r.id fun f => { f with put := kvSet f.put (o / 128) line }) [] [] []

/-- Every access parked on a record completes as an acquire at DEVICE scope on its core that synchronises with its FILLDONE
(R346); one of an agent without a core acquires at the home. -/
def acquireFill (s : State) (r : Nat) (pairs : List (Nat × Nat) × Bool) : State :=
  let on (ps : List ParkLine) : Bool := ps.any fun p => p.record == some r
  let s := (s.batches.filter fun b => on b.fillWait).foldl (fun s b =>
    acquire (modCrew s b.crew fun c =>
      let (h, o) := mergePairs c.hist pairs.1
      { c with hist := h, histOvf := c.histOvf || o || pairs.2 }) b 2) s
  (List.range s.cores.length).foldl (fun s k =>
    if (coreD s k).load.any fun l => on l.fillWait then acquireBump s k 2 else s) s

/-- Line `i` of a fill's unit: what was put, else zeros. -/
def fillLine (f : Fill) (i : Nat) : List Byte := kvGetD f.put i (List.replicate 128 0)

/-- The unit's lines are installed under the record's generation (R385). -/
def installUnit (s : State) (f : Fill) : State :=
  (List.range (f.bytes / 128)).foldl (fun s i => putGenLine s ⟨f.ctx, f.unit + 128 * i, f.gen, f.ggen, fillLine f i⟩) s

/-- The parked accesses complete with the lines of the unit; one whose line a smaller unit no longer holds is issued again
(log 88). -/
def serveParks (s : State) (f : Fill) : State :=
  endParks s f.id fun p =>
    if f.unit ≤ p.line ∧ p.line < f.unit + f.bytes then some { p with bytes := some (fillLine f ((p.line - f.unit) / 128)) } else none

/-- A fill ends by FILLDONE (Table 17-4). -/
def fillDone (s : State) (b : Batch) (r : Fill) : State :=
  let dead : Bool := r.stale || (ctxD s r.ctx).state == .destroying || (ctxD s r.ctx).state == .free
  let s := if dead then endParks s r.id fun _ => none
    else
      let s := releaseAll s b 2
      serveParks (installUnit (evictGen (acquireFill s r.id (releasePairs (crewD s b.crew)))) r) r
  let s := monSample (freeFillTask s r.crew) 1 r.ctx (s.clock - r.born)
  delFill s r.id

def execFilldone (w : FWord) (s : State) : Host.Outcome State Fault Refusal :=
  runF s w { fillSpec s 0xE8 w .z .z .z (w.m = 0) with closes := true } fun x => inFill x fun r =>
    .jump (fillDone x.s x.b r) []

def execFillfail (w : FWord) (s : State) : Host.Outcome State Fault Refusal :=
  runF s w { fillSpec s 0xE9 w .z v1 .z (w.m = 0) with closes := true, uni := [.a] } fun x => inFill x fun r =>
    let v := (uniVal x .a 0).toNat
    if 65536 ≤ v then .trap x.s (wordTrap x .illField) else .jump (failFill x.s r.id 0xFF v) []

/-! ### GENINV (R398) -/

def execGeninv (w : FWord) (s : State) : Host.Outcome State Fault Refusal :=
  runF s w { sysSpec 0xEA w .z v1 .z .z (w.m = 0) with closes := true, uni := [.a] } fun x =>
    let g := (uniVal x .a 0).toNat
    let t1 := genWord x.s g 1
    if 4096 ≤ g ∨ !t1.getLsbD 10 then .trap x.s (wordTrap x .illField)
    else if bitsOf t1 4 6 ≠ x.b.ctx then .trap x.s (wordTrap x .priv)
    else if isFill x then .trap x.s (wordTrap x .fillWait)
    else
      let s := releaseAll x.s x.b 2
      let c := crewD s x.b.crew
      let (p, o) := releasePairs c
      let (p, o) := match kvGet s.genStamps g with
        | some t => let r := mergePairs t.pairs p; (r.1, r.2 || t.ovf || o)
        | none => (p, o)
      .done (advanceGen { s with genStamps := kvSet s.genStamps g ⟨0, p, o, true, 2, c.core, c.core / 8, []⟩ } g) [] [] []

end Sys2Proof.Machine
end

