-- ==== Sys2Proof/Machine/Device.lean ====
section
/-! DEFINITION. The device around the cores: the CXL.io register space (R446, R489, R496), accesses of the host and of
peers (R447, R448), scan-out (R449 to R452), power and gating (R486 to R488), thermal trips (R463), firmware,
attestation and bring-up (R491 to R493), and loss of power (R8). -/
namespace Sys2Proof.Machine
open Sys2Proof

/-! ### Scan-out (R449 to R452) -/

def outReg (s : State) (o off : Nat) : W64 := kvGetD (kvGetD s.outs o {}).regs off 0

def modOut (s : State) (o : Nat) (f : Output → Output) : State :=
  { s with outs := kvPut {} s.outs o (f (kvGetD s.outs o {})) }

def setOutReg (s : State) (o off : Nat) (v : W64) : State := modOut s o fun p => { p with regs := kvPut 0 p.regs off v }

/-- The bits of a scan-out register that a write keeps (Table 19-10). -/
def outMask (off : Nat) : W64 :=
  match off with
  | 0x00 => 0x1F
  | 0x08 => 0xFFFFFFFFFFFFFFFF
  | 0x10 => 0xFFFFFFFFFFFFFFFF
  | 0x18 => 0xFFFF0003FFFFFFFF
  | 0x20 => 0x0003FFFFFFFFF000
  | 0x28 => 0xFFFFF
  | 0x30 => 0x7FFFFF
  | 0x38 => 0x0003FFFFFFFFFFF0
  | 0x40 => 0x7FFFFF
  | _ => 0

def outEn (s : State) (o : Nat) : Bool := (outReg s o 0x00).getLsbD 0

/-- Bytes of a pixel (Table 19-11). -/
def fmtBytes (f : Nat) : Nat := if f = 2 then 8 else 4

/-- The status register's bits are set. -/
def outStatus (s : State) (o m : Nat) : State := setOutReg s o 0x48 (outReg s o 0x48 ||| BitVec.ofNat 64 m)

/-- A mode error (R449): MODEERR, and no video until the registers are rewritten. -/
def modeError (s : State) (o : Nat) : State := modOut (outStatus s o 4) o fun p => { p with stopped := true }

/-- The registers that make an output's mode: control, timing, sync and clock. -/
def outMode (s : State) (o : Nat) : List W64 := [0x00, 0x08, 0x10, 0x18].map (outReg s o)

def linkRate (s : State) (o : Nat) : Nat := bitsOf (outReg s o 0x48) 4 4
def linkLanes (s : State) (o : Nat) : Nat := bitsOf (outReg s o 0x48) 8 3

/-- Whether a mode is within Table 19-11 and the limits of R449, and its link, once trained, carries it (log 29). -/
def modeOk (s : State) (o : Nat) : Bool :=
  let w := bitsOf (outReg s o 0x08) 0 16
  let h := bitsOf (outReg s o 0x08) 32 16
  bitsOf (outReg s o 0x00) 1 2 != 3 && decide (1 ≤ w) && decide (w ≤ 16384) && decide (1 ≤ h) && decide (h ≤ 8192) &&
    (!(outReg s o 0x48).getLsbD 0 || Config.linkCarries (outMode s o) (linkRate s o) (linkLanes s o))

/-- The registers of an output have been rewritten. Format 3 is a mode error, whether the output is enabled or not (Tables 19-10 and
19-11). A mode that needs another link rate or lane count has the link trained
anew (R450); one that is not possible is a mode error (R449). -/
def judgeMode (s : State) (o : Nat) : State :=
  let s := modOut s o fun p => { p with stopped := false }
  if bitsOf (outReg s o 0x00) 1 2 = 3 then modeError s o
  else if !outEn s o then s
  else if (outReg s o 0x48).getLsbD 0 && Config.linkRetrains (outMode s o) (linkRate s o) (linkLanes s o) then
    modOut s o fun p => { p with training := true }
  else if modeOk s o then s else modeError s o

/-- Whether a surface at a PA is taken (R451): its rows of PITCH bytes, and the pixels of its last row, lie below the reserved
range. -/
def surfaceOk (s : State) (o pa : Nat) : Bool :=
  let pitch := bitsOf (outReg s o 0x28) 0 20
  let rows := bitsOf (outReg s o 0x08) 32 16
  let row := bitsOf (outReg s o 0x08) 0 16 * fmtBytes (bitsOf (outReg s o 0x00) 1 2)
  pa % 4096 == 0 && decide (pa + pitch * (rows - 1) + (if rows = 0 then 0 else max pitch row) ≤ 0x7F8000000)

/-- A surface address is taken, or refused with FLIPERR. -/
def takeSurface (s : State) (o pa : Nat) : State :=
  if surfaceOk s o pa then setOutReg s o 0x20 (BitVec.ofNat 64 pa) else outStatus s o 8

/-- A host write of a scan-out register (R450): control, timing and pitch wait for the next vertical blanking while
EN = 1, and SURF always does. -/
def writeOut (s : State) (o off : Nat) (v : W64) : State :=
  let v := v &&& outMask off
  if off = 0x20 then modOut s o fun p => { p with pending := kvSet p.pending off v }
  else if off = 0x00 ∨ off = 0x08 ∨ off = 0x10 ∨ off = 0x18 ∨ off = 0x28 then
    if outEn s o then modOut s o fun p => { p with pending := kvSet p.pending off v } else judgeMode (setOutReg s o off v) o
  else setOutReg s o off v

/-- Writing 1 clears MODEERR and FLIPERR. -/
def clearOut (s : State) (o : Nat) (v : W64) : State := setOutReg s o 0x48 (outReg s o 0x48 &&& ~~~(v &&& 0xC))

/-- The flip event of an output, where its flip is to be taken: flips are enabled, its context is RESIDENT and its count is not 0
(R452). -/
def flipEvent (s : State) (o : Nat) : Option Nat :=
  let r := outReg s o 0x30
  let c := bitsOf r 16 6
  (eventIdx s c (bitsOf r 0 16)).filter fun i => r.getLsbD 22 && (ctxD s c).state == .resident && eventCount s i != 0

/-- Step 1 of R452. -/
def takeFlip (s : State) (o : Nat) : State :=
  match flipEvent s o with
  | none => s
  | some i =>
    let pa := (outReg s o 0x38).toNat
    let s := useHome s pa
    let f0 := homeWord s pa
    let f1 := homeWord s (pa + 8)
    let s := { s with events := kvPut 0 s.events i (kvGetD s.events i 0 - 1) }
    if f0 &&& ~~~(0x0003FFFFFFFFF000 : W64) ≠ 0 ∨ f1 ≠ 0 then outStatus s o 8 else takeSurface s o f0.toNat

/-- The read of an output's flip record waits at its home: a remap step runs on the column that it lies in (R482). -/
def flipWaits (s : State) (o : Nat) : Bool := (flipEvent s o).isSome && remapBusy s (outReg s o 0x38).toNat

/-- Step 2 of R452. -/
def blankSignal (s : State) (o : Nat) : State :=
  let r := outReg s o 0x40
  let c := bitsOf r 16 6
  match eventIdx s c (bitsOf r 0 16) with
  | none => s
  | some i => if r.getLsbD 22 ∧ (ctxD s c).state = .resident then signalEvent s i 1 else s

/-- The registers written since the last vertical blanking take effect as one, the surface under the mode and pitch written with it. -/
def takePending (s : State) (o : Nat) : State :=
  let ps := (kvGetD s.outs o {}).pending
  let s := modOut s o fun p => { p with pending := [] }
  let rs := ps.filter fun p => p.1 != 0x20
  let s := if rs.isEmpty then s else judgeMode (rs.foldl (fun s p => setOutReg s o p.1 p.2) s) o
  match kvGet ps 0x20 with
  | some v => takeSurface s o v.toNat
  | none => s

/-- Whether an output sends video: enabled, its link trained and not being trained anew, and no mode error. -/
def sendsVideo (s : State) (o : Nat) : Bool :=
  outEn s o && (outReg s o 0x48).getLsbD 0 && !(kvGetD s.outs o {}).stopped && !(kvGetD s.outs o {}).training

/-- The start of a vertical blanking of an enabled output (R452). -/
def execVblank (o : Nat) (s : State) : Host.Outcome State Fault Refusal :=
  if 4 ≤ o ∨ !outEn s o then .next s
  else
    let s := if sendsVideo s o then modOut s o fun p => { p with frames := (p.frames + 1) % 2 ^ 32 } else s
    .next (blankSignal (takeFlip (takePending s o) o) o)

/-- The status bits of a link: LINK, RATE and LANES. -/
def setLink (s : State) (o rate lanes : Nat) : State :=
  let keep := outReg s o 0x48 &&& 0xE
  setOutReg s o 0x48 (keep ||| BitVec.ofNat 64 (if rate = 0 ∨ lanes = 0 then 0 else 1 + 16 * rate + 256 * lanes))

/-- Firmware trains a link at a rate and lane count, or drops it with rate 0 (R449, R450); `fits` is whether firmware finds
that the link carries the output's mode. -/
def execDpLinkTrain (o rate lanes : Nat) (fits : Bool) (s : State) : Host.Outcome State Fault Refusal :=
  if 4 ≤ o ∨ 8 ≤ rate ∨ !([0, 1, 2, 4].contains lanes) then .next s
  else
    let s := modOut (setLink s o rate lanes) o fun p => { p with training := false }
    .next (if outEn s o ∧ !(fits && modeOk s o) then modeError s o else s)

/-- A sink is attached, or detached, which drops its link (R449). -/
def execHpdChange (o : Nat) (present : Bool) (s : State) : Host.Outcome State Fault Refusal :=
  if 4 ≤ o then .next s
  else if present then .next (outStatus s o 2)
  else
    let s := setLink s o 0 0
    .next (setOutReg s o 0x48 (outReg s o 0x48 &&& ~~~(2 : W64)))

/-! ### Reading the register space (Tables 19-6, 19-10, 19-12 and 24-2) -/

def ctxStateCode : CtxState → Nat
  | .free => 0 | .resident => 1 | .halting => 2 | .halted => 3 | .destroying => 4

/-- A health or power register (Table 24-2). -/
def healthRead (s : State) (off : Nat) : Nat :=
  let p := s.power
  if off = 0x8000 then p.budget
  else if off = 0x8008 then p.pwr % 2 ^ 16
  else if off = 0x8010 then p.tdie % 2 ^ 16 + 2 ^ 16 * (p.ttier % 2 ^ 16) + 2 ^ 32 * p.ttrip + 2 ^ 48 * p.tresume
  else if off = 0x8018 then p.gdcore + 2 ^ 8 * p.gdcache + 2 ^ 16 * p.gdtier
  else if 0x8100 ≤ off ∧ off < 0x8500 then
    let k := coreD s ((off - 0x8100) / 8)
    k.cec + 2 ^ 32 * k.uec
  else if 0x8500 ≤ off ∧ off < 0x8900 then
    let c := (off - 0x8500) / 8
    let w := (workingPads s c).length
    kvGetD s.cecol c 0 + 2 ^ 16 * w + (if ratio4 s c then 2 ^ 26 else 0) + (if (dataPads s c).isEmpty then 2 ^ 27 else 0) +
      (if remapRuns s c then 2 ^ 28 else 0)
  else if 0x8A00 ≤ off ∧ off < 0x9200 then
    let i := (off - 0x8A00) / 8
    2 ^ 64 - 1 - (kvGetD s.bankDead (i / 2) 0 / 2 ^ (64 * (i % 2))) % 2 ^ 64
  else 0

/-- An identity register (Table 19-12). -/
def identRead (s : State) (off : Nat) : Nat :=
  let d := s.ident
  if off = 0 then 0x0041394B2D54524B
  else if off = 0x08 then d.fwver
  else if off = 0x10 then d.fwsvn
  else if off = 0x18 then (if d.ready then 1 else 0) + (if d.recov then 2 else 0)
  else if off = 0x20 then d.lstate0 + 16 * d.lanes0 + 2 ^ 8 * d.lstate1 + 2 ^ 12 * d.lanes1
  else if off = 0x140 then d.reppa.toNat
  else if off = 0x148 then (if d.attgo then 1 else 0)
  else 0

/-- The bits of a generator entry's word that read as written: reserved bits read as zero (R7), though a set one is kept for
the checks of R381. -/
def genMask (j : Nat) : W64 :=
  match j with
  | 0 => 0x003FFFFFFFFFFFFF
  | 1 => 0xFF07FF
  | 2 => 0xFFFFFFFFFFFFFFFF
  | _ => 0

/-- The bits of a node's word that read as written (Table 16-1); the body of a node that is no launch is its kind's (Table 16-3). -/
def nodeMask (kind j : Nat) : W64 :=
  match j with
  | 27 => 0xF3F
  | 28 => 0
  | 29 => 0
  | 30 => 0
  | 31 => 0xFF
  | _ => if kind = 0 then ([0x003FFFFFFFFFFFFF, 0x000FFFFFFFFFFFFF, 0x0000003FFFFFFFFF, 0x000003FFFFFFFFFF] : List W64).getD j (~~~0) else ~~~0

/-- A word of the node store as the host reads it: reserved bits read as zero (R7), though a set one is kept for the checks of
R362. -/
def nodeRead (s : State) (k : Nat) : W64 :=
  kvGetD s.nodeStore k 0 &&& nodeMask (bitsOf (nodeWord s (k / 32) 27) 8 4) (k % 32)

/-- What a naturally aligned 8-byte read of the register space answers (R446). -/
def ioRead (s : State) (off : Nat) : Nat :=
  if off % 8 ≠ 0 then 0
  else if off < 0x8000 then identRead s off
  else if off < 0x10000 then healthRead s off
  else if off < 0x11000 then
    let c := (off - 0x10000) / 64
    let k := ctxD s c
    if off % 64 = 0 then k.recPA
    else if off % 64 = 8 then k.cmd.toNat
    else if off % 64 = 16 then ctxStateCode k.state + (if k.cmderr then 8 else 0)
    else 0
  else if 0x30000 ≤ off ∧ off < 0x50000 then ((genWord s ((off - 0x30000) / 32) (off % 32 / 8)) &&& genMask (off % 32 / 8)).toNat
  else if off = 0x50000 then s.vsBase
  else if off = 0x50008 then s.vsCfg
  else if 0x51000 ≤ off ∧ off < 0x52000 then (kvGetD s.xpair ((off - 0x51000) / 8) 0).toNat
  else if 0x60000 ≤ off ∧ off < 0x60400 then
    let o := (off - 0x60000) / 0x100
    let r := off % 0x100
    (outReg s o r).toNat + (if r = 0x48 then 2 ^ 32 * (kvGetD s.outs o {}).frames else 0)
  else if 0x400000 ≤ off ∧ off < 0x500000 then (kvGetD s.graphTab ((off - 0x400000) / 8) 0).toNat % (if off % 16 = 0 then 2 ^ 35 else 2 ^ 64)
  else if 0x500000 ≤ off ∧ off < 0x800000 then (nodeRead s ((off - 0x500000) / 8)).toNat
  else 0

/-! ### Writing the register space -/

/-- The host writes an identity, health or power register. -/
def identWrite (s : State) (off : Nat) (v : W64) : State :=
  if 0x100 ≤ off ∧ off < 0x140 then
    { s with ident := { s.ident with nonce := kvPut 0 s.ident.nonce ((off - 0x100) / 8) v } }
  else if off = 0x140 then { s with ident := { s.ident with reppa := v &&& 0x0003FFFFFFFFFE00 } }
  else if off = 0x148 then (if v.getLsbD 0 then { s with ident := { s.ident with attgo := true } } else s)
  else if off = 0x8000 then { s with power := { s.power with budget := max 100 (min 540 (bitsOf v 0 16)) } }
  else if off = 0x8018 then
    { s with power := { s.power with gdcore := bitsOf v 0 8, gdcache := bitsOf v 8 8, gdtier := bitsOf v 16 16 } }
  else s

/-- The host writes a word of a context table entry (Table 19-6). -/
def ctxWrite (s : State) (off : Nat) (v : W64) : State :=
  let c := (off - 0x10000) / 64
  if off % 64 = 0 then modCtx s c fun k => { k with recPA := bitsOf v 0 50 }
  else if off % 64 = 8 then writeCmd s c v
  else if off % 64 = 16 ∧ v.getLsbD 3 then clearCmdErr s c
  else s

/-- The host writes a word of a generator table entry (Table 17-2). -/
def genWrite (s : State) (off : Nat) (v : W64) : State :=
  let i := (off - 0x30000) / 32
  if off % 32 = 8 then (if v.getLsbD 10 then submitEntry s i v else invalidateEntry s i v)
  else if off % 32 = 16 then s
  else setGenWord s i (off % 32 / 8) v

/-- The host writes a word of the graph store (R363, Table 16-4): g1 is read only, and an entry of a RUNNING graph
ignores writes. -/
def graphWrite (s : State) (off : Nat) (v : W64) : State :=
  let k := (off - 0x400000) / 8
  if k < 0x20000 then
    if k % 2 = 1 ∨ graphState s (k / 2) = 1 then s else { s with graphTab := kvPut 0 s.graphTab k v }
  else { s with nodeStore := kvPut 0 s.nodeStore (k - 0x20000) v }

/-- A host write of 8 bytes at an offset of the register space (R446). In recovery the device accepts only a new image (R491). -/
def ioWrite (s : State) (off : Nat) (v : W64) : State :=
  if off % 8 ≠ 0 ∨ s.ident.recov then s
  else if off < 0x10000 then identWrite s off v
  else if off < 0x11000 then ctxWrite s off v
  else if off = 0x20000 then writeTrigger s v
  else if 0x30000 ≤ off ∧ off < 0x50000 then genWrite s off v
  else if off = 0x50000 then writeVictimStore s false v
  else if off = 0x50008 then writeVictimStore s true v
  else if 0x51000 ≤ off ∧ off < 0x52000 then { s with xpair := kvPut 0 s.xpair ((off - 0x51000) / 8) (v &&& 0x1FF) }
  else if 0x60000 ≤ off ∧ off < 0x60400 then
    let o := (off - 0x60000) / 0x100
    if off % 0x100 = 0x48 then clearOut s o v
    else if off % 0x100 < 0x48 then writeOut s o (off % 0x100) v
    else s
  else if 0x400000 ≤ off ∧ off < 0x800000 then graphWrite s off v
  else s

def execRegisterWrite (off : Nat) (v : W64) (s : State) : Host.Outcome State Fault Refusal := .next (ioWrite s off v)

/-! ### Accesses of the host and of peers (R447, R448) -/

/-- What stands in the way of a bus access at a physical address. -/
inductive BusAns where
  | perform | waits | error | absent
deriving DecidableEq, Repr

/-- An access of the host, or of a peer, to one address. -/
def busAns (s : State) (peer : Bool) (pa : Nat) : BusAns :=
  match paKind pa with
  | .gddr => .perform
  | .reserved => .error
  | .stack c =>
    if remapBusy s pa then .waits
    else if colCap s c ≤ (pa - 0x800000000) % 0x10000000 then .error else .perform
  | .host => .perform
  | .peer _ => if peer then .perform else .absent
  | .absent => .absent

/-- The answer for a range: that of its first byte that is not performed. -/
def busRange (s : State) (peer : Bool) (pa n : Nat) : BusAns :=
  ((List.range (max 1 n)).map fun i => busAns s peer (pa + i)).find? (· != .perform) |>.getD .perform

def busBytes : BusOp → Nat
  | .read n => n
  | .write bs => bs.length
  | .atomic _ n _ _ => n

/-- A bus access uses the engines of its home (R488), and the errors of the weight stack that it reads show in their banks
(R485). -/
def busUse (s : State) (a : BusAccess) : State :=
  let u : Use := match a.op with
    | .read _ => .load
    | .write _ => .store
    | .atomic _ _ _ _ => .atomic
  noteBanks (touchHome s a.pa (busBytes a.op)) (eccWords u a.pa (busBytes a.op))

/-- Performs a bus access at the home. -/
def busPerform (s : State) (a : BusAccess) : State :=
  let s := busUse s a
  match a.op with
  | .read n => { s with busReply := homeRead s a.pa n }
  | .write bs => homeWrite { s with busReply := [] } a.pa bs
  | .atomic op n x y =>
    let old := homeNat s a.pa n
    homeWriteNat { s with busReply := leBytes n old } a.pa n (atomNew op n old x.toNat y.toNat)

/-- An access of a bus agent: it waits while a remap step runs on its column (the state is unchanged and the access
stays due); a CXL.mem error drops a write and answers poisoned data, an empty reply, and so does a device in recovery, which accepts
only a new image (R491). -/
def busAccess (s : State) (peer : Bool) (a : BusAccess) : Host.Outcome State Fault Refusal :=
  if s.ident.recov then .next { s with busReply := [] }
  else match busRange s peer a.pa (busBytes a.op) with
  | .perform => .next (busPerform s a)
  | .waits => .next s
  | .error => .next { s with busReply := [] }
  | .absent => .fault (.absentPA a.pa)

def execHostMemAccess (a : BusAccess) (s : State) : Host.Outcome State Fault Refusal := busAccess s false a
def execPeerAccess (a : BusAccess) (s : State) : Host.Outcome State Fault Refusal := busAccess s true a

/-! ### Cordlinks (R448, R335) -/

def linkState (s : State) (k : Nat) : Nat := if k = 0 then s.ident.lstate0 else s.ident.lstate1

def setLinkState (s : State) (k v : Nat) : State :=
  if k = 0 then { s with ident := { s.ident with lstate0 := v } } else { s with ident := { s.ident with lstate1 := v } }

/-- The stores not yet performed at a peer whose link went DOWN are lost. -/
def loseStores (s : State) (k : Nat) : State :=
  (List.range s.cores.length).foldl (fun s core =>
    let mine := (coreD s core).l1.filter fun p => p.2.dirty != 0 && paKind (128 * p.1) == .peer k
    mine.foldl (fun s p => writeBack s core p.1) s) s

/-- A link fails beyond retry (R448). -/
def execLinkFail (link : Nat) (s : State) : Host.Outcome State Fault Refusal :=
  if 2 ≤ link then .next s else .next (loseStores (setLinkState s link 3) link)

/-- A transfer fails its check and is retried, or the link is UP again; retried transfers keep their order (R335). -/
def execLinkRetry (link : Nat) (up : Bool) (s : State) : Host.Outcome State Fault Refusal :=
  if 2 ≤ link ∨ linkState s link = 3 then .next s
  else if up then .next (if linkState s link = 1 then setLinkState s link 2 else s)
  else .next (setLinkState s link 1)

/-! ### Power (R486 to R488) -/

/-- BUDGET less 4 % for each whole degree above 100 (R487). -/
def budgetEff (p : Power) : Nat := p.budget * (100 - 4 * ((p.tdie - 1600) / 16)) / 100

/-- The batches that an engine serves: those of a quadrant's slots, of the cluster or the fill that has the array, of a core for
its ray unit. -/
def servedBy (s : State) (e : Engine) : List Batch :=
  match e with
  | .quadrant k q => s.batches.filter fun b => b.core == k && b.slot / 8 == q
  | .array k =>
    let c := coreD s k
    s.batches.filter fun b => b.core == k && match c.borrow with
      | some u => b.crew == u
      | none => c.array == some (crewD s b.crew).cluster && (crewD s b.crew).fill.isNone
  | .ray k => s.batches.filter fun b => b.core == k
  | _ => []

/-- The weight of an engine (R486): by the highest class of the batches it serves; one that serves none counts as BACKGROUND
(log 89). -/
def engineWeight (s : State) (e : Engine) : Nat :=
  match e with
  | .quadrant _ _ => 2 ^ (((servedBy s e).map fun b => crewClass s b.crew).foldl max 0)
  | .array _ => 2 ^ (((servedBy s e).map fun b => crewClass s b.crew).foldl max 0)
  | .ray _ => 2 ^ (((servedBy s e).map fun b => crewClass s b.crew).foldl max 0)
  | _ => 4

/-- What scan-out draws in an interval, in tokens: at most 12 while an output is enabled (R453; log 2). -/
def scanFloor (s : State) : Nat × State := if (List.range 4).any (outEn s) then freePick s 13 else (0, s)

/-- The grants of an interval to the powered engines (R486); `scan` is the floor of the scan-out engine (R453). -/
def grantsOf (s : State) (budget scan : Nat) (all : List EngineSample) : List (Engine × Nat) :=
  let es := all.filter fun e => !isGated s e.engine
  let pool : Int := (budget : Int) - (scan + (es.map (·.floor)).sum : Nat)
  let want (e : EngineSample) : Nat := e.demand - e.floor
  let total := (es.map want).sum
  let weight (e : EngineSample) : Nat := engineWeight s e.engine
  let den := (es.map fun e => weight e * want e).sum
  es.map fun e =>
    if (total : Int) ≤ pool then (e.engine, e.floor + want e)
    else (e.engine, ((e.floor : Int) + Int.fdiv (pool * (weight e * want e : Nat)) den).toNat)

/-- Adds to a count that saturates at 2^n − 1 (Table 24-2). -/
def satCount (n a b : Nat) : Nat := min (2 ^ n - 1) (a + b)

/-- The ac of 24 hours, and of a second (R239, R485). -/
def dayAc : Nat := 86400 * 1900000000
def secondAc : Nat := 1900000000

/-- The corrected errors of a bank in the last `n` ac. -/
def recentErrors (s : State) (bank n : Nat) : Nat :=
  (((kvGetD s.bankCE bank []).filter fun e => decide (s.clock ≤ e.1 + n)).map (·.2)).sum

/-- A trigger of R485 on corrected errors: 256 within 24 hours, or more than 8 within a second while the bank's tier stands above
95 °C. -/
def bankWorn (s : State) (bank : Nat) : Bool :=
  decide (256 ≤ recentErrors s bank dayAc) ||
    (decide (1520 < s.power.tiers.getD (bank % 128 / 32) 0) && decide (8 < recentErrors s bank secondAc))

/-- Firmware takes note of the banks that have met a trigger (R485): it retires each with BANK_RETIRE. -/
def noteWorn (s : State) : State :=
  { s with bankDue := s.bankDue ++ ((s.bankCE.map (·.1)).filter fun b => bankWorn s b && !s.bankDue.contains b) }

/-- The corrected errors of an interval (R285): the counts of the cores, of the columns and of their banks, and the interval's
own. -/
def countErrors (s : State) (p : PowerSample) : State :=
  let s := p.coreErrors.foldl (fun s q => modCore s q.1 fun k => { k with cec := satCount 32 k.cec q.2 }) s
  let es := p.bankErrors.filter fun q => decide (q.1 < 16384)
  let add (t : List (Nat × List (Nat × Nat))) (q : Nat × Nat) : List (Nat × List (Nat × Nat)) :=
    kvSet t q.1 (((kvGetD t q.1 []).filter fun e => decide (s.clock ≤ e.1 + dayAc)) ++ [(s.clock, q.2)])
  { s with
    cecol := es.foldl (fun t q => kvPut 0 t (q.1 / 128) (satCount 16 (kvGetD t (q.1 / 128) 0) q.2)) s.cecol
    bankCE := es.foldl add s.bankCE
    ivCorr := s.ivCorr + (p.coreErrors.map (·.2)).sum + (es.map (·.2)).sum }

/-- The end of a power interval: what the sensors report, the grants of the next interval (R486), the interval's
monitor samples (Table 24-3), and the errors that came up. -/
def execPowerInterval (p : PowerSample) (s : State) : Host.Outcome State Fault Refusal :=
  let s := countErrors s p
  let w := { s.power with
    pwr := p.draw, tdie := p.tdie, ttier := p.tiers.foldl max 0, tiers := p.tiers
    tripped := s.power.tripped && decide (s.power.tresume ≤ p.tdie) }
  let (scan, s) := scanFloor s
  let s := { s with power := { w with grants := grantsOf s (budgetEff w) scan p.engines } }
  let s := monSample (monSample (monSample s 7 0 p.draw) 8 0 p.tdie) 9 0 s.ivCorr
  let live := (List.range 64).filter fun c => (ctxD s c).state != .free
  let s := live.foldl (fun s c => monSample s 6 c (kvGetD s.ivCopy c 0)) s
  .next { noteWorn s with ivCopy := [], ivCorr := 0, upsets := s.upsets ++ p.upsets.filter fun u => !s.upsets.contains u }

/-- Whether an engine of the device exists. -/
def engineExists (s : State) : Engine → Bool
  | .quadrant k q => decide (k < s.cores.length) && decide (q < 4)
  | .array k => decide (k < s.cores.length)
  | .ray k => decide (k < s.cores.length)
  | .flue i => decide (i < 64)
  | .splitter i => decide (i < 2)
  | .slice i => decide (i < 128)
  | .tier i => decide (i < 4)

/-- The word of a batch is RAYQ or RAYRD. -/
def isRayWord (w : W64) : Bool :=
  match decodeWord w with
  | .rayq _ => true
  | .rayrd _ => true
  | _ => false

/-- The lines at whose homes requests wait: of words (R436, R482), of engines, and of lines that are written back. -/
def waitingLines (s : State) : List Nat :=
  (s.batches.filterMap fun b => match b.block with
    | some (.home i _) => some i
    | some (.fetch i _) => some i
    | _ => none) ++
    ((s.homeAsks.filter fun p => homeAnswer s (128 * p.2.1) p.2.2 == .waits).map fun p => p.2.1) ++ s.backlog.map fun p => p.2.1

/-- The LLC slices and weight tiers that are in use between steps: those of requests that wait at a home, and every tier while a
remap step moves a column, whose banks lie in all of them (R479). -/
def homesInUse (s : State) : List Engine :=
  (((waitingLines s).flatMap fun i => homeEngines s (128 * i)) ++
    if s.remaps.any (·.running) then (List.range 4).map Engine.tier else []).eraseDups

/-- The idle condition of Table 24-1. Ray units, LLC slices and weight tiers serve a word within its step, so they
are idle between steps but for what waits at them. -/
def engineIdle (s : State) : Engine → Bool
  | .quadrant k q => !(s.batches.any fun b => b.core == k && b.slot / 8 == q)
  | .array k => (coreD s k).array.isNone && (coreD s k).borrow.isNone
  | .ray k => !(s.batches.any fun b => b.core == k && b.block.isSome && isRayWord b.word)
  | .flue i => s.flues.all fun f => f.2.engine != i || f.2.state == 0 || f.2.state == 3
  | .splitter i => s.splits.all fun f => f.2.engine != i || f.2.state == 0 || f.2.state == 3
  | .slice i => !(homesInUse s).contains (.slice i)
  | .tier i => !(homesInUse s).contains (.tier i)

/-- The gating delay of an engine in ac (Table 24-2); 0 never gates. -/
def gateDelay (p : Power) : Engine → Nat
  | .quadrant _ _ => 1900 * p.gdcore
  | .array _ => 1900 * p.gdcore
  | .ray _ => 1900 * p.gdcore
  | .tier _ => 1900000 * p.gdtier
  | _ => 1900 * p.gdcache

/-- The engines that are not idle now. -/
def enginesInUse (s : State) : List Engine :=
  let quads := (s.batches.map fun b => Engine.quadrant b.core (b.slot / 8)).eraseDups
  let cores := (List.range s.cores.length).flatMap fun k => [Engine.array k, .ray k].filter fun e => !engineIdle s e
  let flues := (s.flues.map fun f => Engine.flue f.2.engine).eraseDups.filter fun e => !engineIdle s e
  quads ++ cores ++ flues ++ homesInUse s ++ ([Engine.splitter 0, .splitter 1].filter fun e => !engineIdle s e)

/-- An ac passes: the engines in use have stood idle for none (R488). -/
def tickClock (s : State) : State :=
  let es := enginesInUse s
  { s with
    clock := s.clock + 1
    power := { s.power with busyAt := es.map (fun e => (e, s.clock + 1)) ++ s.power.busyAt.filter fun p => !es.contains p.1 } }

/-- The last ac at which an engine was in use. -/
def lastUse (p : Power) (e : Engine) : Nat := ((p.busyAt.find? fun q => q.1 == e).map (·.2)).getD 0

/-- An engine may gate: it has stood idle for its delay. -/
def gateDue (s : State) (e : Engine) : Bool :=
  engineExists s e && engineIdle s e && !isGated s e && gateDelay s.power e != 0 &&
    decide (lastUse s.power e + gateDelay s.power e ≤ s.clock)

def execEngineGate (e : Engine) (s : State) : Host.Outcome State Fault Refusal :=
  if gateDue s e then .next { s with power := { s.power with gated := e :: s.power.gated } } else .next s

/-- A gated engine wakes on the first request to it, which waits for that (R488); how soon is timing. Ray units, LLC slices and
weight tiers wake within the word or the access that asks them (log 27). -/
def execEngineWake (e : Engine) (s : State) : Host.Outcome State Fault Refusal :=
  .next (if isGated s e ∧ !engineIdle s e then useEngines s [e] else s)

/-- A thermal trip is due (R463, R487). -/
def tripDue (s : State) : Bool :=
  decide (s.power.ttrip ≤ s.power.tdie) && (!s.power.tripped || s.ctxs.any fun k => k.state == .resident)

/-- Every RESIDENT context halts with FCAUSE = 0x56 and FATAL = 0 (R463). -/
def execThermalTrip (s : State) : Host.Outcome State Fault Refusal :=
  if !tripDue s then .next s
  else
    let live := (List.range 64).filter fun c => (ctxD s c).state == .resident
    let s := live.foldl (fun s c => haltContext (recField s c 8 8 8 (Cause.code .thermalTrip)) c) s
    .next { s with power := { s.power with tripped := true } }

/-! ### Firmware, attestation and bring-up (R491 to R493) -/

/-- What the boot ROM checks of an image (R491). -/
def imageOk (s : State) (img : List Byte) : Bool :=
  decide (256 ≤ img.length) && Config.ed448Verify (img.take 202) &&
    Config.shake256 (img.drop 256) == (img.drop 24).take 64 && decide (s.ident.rollback ≤ numAt img 8 8)

/-- Training of a Cordlink at bring-up: whether a peer is there, and on how many lanes, is the world's (log 2). -/
def trainLink (s : State) (k : Nat) : State :=
  let (up, s) := freeBool s
  let (n, s) := freePick s 8
  let lanes := if up then n + 1 else 0
  let s := setLinkState s k (if up then 2 else 0)
  if k = 0 then { s with ident := { s.ident with lanes0 := lanes } } else { s with ident := { s.ident with lanes1 := lanes } }

/-- What device memory holds after a reset that does not cut power: GDDR 7 is trained anew, and the spec does not say
that its bytes keep their values (log 14); the reserved range is zero. -/
def resetMemory (s : State) : State :=
  s.mem.foldl (fun s p =>
    match paKind p.1 with
    | .host => s
    | .peer _ => s
    | .reserved => { s with mem := kvDel s.mem p.1 }
    | _ => let (v, s) := freeVal s; { s with mem := kvPut 0 s.mem p.1 (v.extractLsb' 0 8) }) s

/-- Step 3 of R493: the pads of every column are tested, and those that fail leave the map, by which the bus is matched (R483); the
banks of the repair store are applied, but for those that firmware's repair returns to service (R479; log 86). -/
def testStack (s : State) : State :=
  { s with
    free := s.free + 1
    padsBad := (List.range 128).foldl (fun t c => kvPut 0 t c (kvGetD t c 0 ||| Config.padTest s.free c % 2 ^ 560)) s.padsBad
    bankDead := s.bankDead.foldl (fun t p => kvPut 0 t p.1 (p.2 - (p.2 &&& Config.bankRepair s.free p.1))) [] }

/-- Steps 2 to 6 of R493, once the image is accepted. The Kiln is 32 MiB (log 5). -/
def bringUp (s : State) (img : List Byte) : State :=
  let s := testStack (resetMemory s)
  let s := { s with
    kilnSize := 0x2000000, victims := [], vsRot := [], monitors := []
    ident := { s.ident with
      fwver := numAt img 0 8, fwsvn := numAt img 8 8, digest := (img.drop 24).take 64, image := img, recov := false } }
  let s := trainLink (trainLink s 0) 1
  { s with ident := { s.ident with ready := true } }

/-- The bytes that another machine holds: the host's and those of a peer device. -/
def foreignPA (pa : Nat) : Bool :=
  match paKind pa with
  | .host => true
  | .peer _ => true
  | _ => false

/-- The state that lives until power-off ends (Table 00-3): what is left are the maps and fused values that survive
power cycles, the memory of the host and of peers, and the model's own counters and inputs. What GDDR 7 and the weight stack
hold when power returns is not stated: the model takes them as never written (log 4). That a peer keeps its bytes is the
model's choice (log 14). -/
def afterPowerLoss (s : State) : State :=
  { State.reset with
    mem := s.mem.filter fun p => foreignPA p.1
    bankDead := s.bankDead, padsBad := s.padsBad
    power := { ttrip := s.power.ttrip, tresume := s.power.tresume }
    ident := { rollback := s.ident.rollback, image := s.ident.image }
    agenda := s.agenda, free := s.free, nextId := s.nextId }

def execPowerLoss (s : State) : Host.Outcome State Fault Refusal := .next (afterPowerLoss s)

/-- DEVICE_RESET: all state that lives until power-off takes its reset value, and bring-up runs if the stored image is
accepted; else the device is in recovery, with its memory not yet trained. -/
def execDeviceReset (s : State) : Host.Outcome State Fault Refusal :=
  let s := { afterPowerLoss s with mem := s.mem }
  .next (if imageOk s s.ident.image then bringUp s s.ident.image
    else { s with ident := { s.ident with recov := true } })

/-- A firmware image reaches the boot ROM (R491): in recovery, or before bring-up is complete, an accepted image is
stored and brings the device up; any other leaves it in recovery. -/
def execFirmwareImage (img : List Byte) (s : State) : Host.Outcome State Fault Refusal :=
  if s.ident.ready then .next s
  else if imageOk s img then .next (bringUp s img)
  else .next { s with ident := { s.ident with recov := true } }

/-- The bank and pad maps as bytes. -/
def mapBytes (s : State) : List Byte :=
  ((List.range 128).flatMap fun c => leBytes 16 (2 ^ 128 - 1 - kvGetD s.bankDead c 0)) ++
    (List.range 128).flatMap fun c => leBytes 70 (2 ^ 560 - 1 - kvGetD s.padsBad c 0)

/-- The parts of a report, each signed (R492): part number, firmware version, image digest, digest of the maps, nonce. -/
def reportParts (s : State) : List (List Byte) :=
  [leBytes 8 0x0041394B2D54524B, leBytes 8 s.ident.fwver, s.ident.digest, Config.shake256 (mapBytes s),
    (List.range 8).flatMap fun i => leBytes 8 (kvGetD s.ident.nonce i 0).toNat]

/-- The 512 bytes of a report: the parts and their signature, placed as the device places them (log 10). -/
def reportBytes (s : State) : List Byte :=
  let ps := reportParts s
  let bs := Config.reportLayout (ps ++ [Config.ed448Sign ps.flatten])
  (List.range 512).map fun i => bs.getD i 0

/-- The device writes the report to REPPA, in GDDR 7 or the host window, and ATTGO reads 0 again. In recovery it reports nothing: it
accepts only a new image (R491). -/
def execAttgo (s : State) : Host.Outcome State Fault Refusal :=
  let pa := s.ident.reppa.toNat
  let bs := reportBytes s
  let s := { s with ident := { s.ident with attgo := false } }
  .next (if s.ident.recov then s else match paKind pa with
    | .gddr => homeWrite s pa bs
    | .host => homeWrite s pa bs
    | _ => s)

end Sys2Proof.Machine
end

