-- ==== Sys2Proof/Machine/Fetch.lean ====
section
/-! DEFINITION. Fetching the bytes of a batch's next word (R64, R495, step 1 of Table 03-7). -/
namespace Sys2Proof.Machine
open Sys2Proof

/-- A word that the hardware makes for its own accesses. -/
def hwExec (s : State) (b : Batch) : Exec := ⟨s, { b with priv := true }, liveLanes b, { fields := [], s := false, rgn := false, word := 0 }⟩

/-- What a fetch comes to: the word, a fault of its translation, or a wait at the home. -/
inductive FetchAns where
  | word (s : State) (w : W64)
  | fault (s : State) (c : Cause)
  | wait (s : State) (k : Block)

/-- Reads the word at `va`: a relaxed load of the batch through its core's L1, with execute permission. In the scratch window
it reads the crew's scratch (R277; log 77). -/
def readWord (s : State) (b : Batch) (va : Nat) : FetchAns :=
  match locateLane { hwExec s b with b := b } s .fetch 8 va false none with
  | (s, .error c) => .fault s c
  | (s, .ok (.inr k)) => .wait s k
  | (s, .ok (.inl loc)) =>
    match (if s.upsets.isEmpty then none else eccLoc s b.core b.ctx .load 8 loc) with
    | some c => .fault s c
    | none => let (s, bs) := loadLoc s b 8 loc; .word s (bytesWord bs)

/-- Fetches the word at a batch's pc: as it issues, or as the batch fetched it ahead (R495), with the address translated and its
permission checked as the word issues (R64; log 15). -/
def fetchWord (s : State) (b : Batch) : FetchAns :=
  match kvGet b.ahead b.pc.toNat with
  | none => readWord s b b.pc.toNat
  | some w => match locateLane { hwExec s b with b := b } s .fetch 8 b.pc.toNat false none with
    | (s, .error c) => .fault s c
    | (s, .ok _) => .word s w

/-- A batch fetches a word ahead (R495): it keeps the value that the word has now until its next acquire. Which words it
fetches is the hardware's (log 15). -/
def fetchAhead (s : State) (id : Nat) : State :=
  match findBatch s id with
  | none => s
  | some b =>
    let (v, s) := freeVal s
    let va := v.toNat % 2 ^ 54 / 8 * 8
    match readWord s b va with
    | .word s w => modBatch s id fun c => { c with ahead := kvSet c.ahead va w }
    | _ => s

end Sys2Proof.Machine
end

