-- ==== Sys2Proof/Machine/CoreEvents.lean ====
section
/-! DEFINITION. What the cores do between words: merges (R252), parks that end (R61), extended sets taken again (R50),
sleeps that end (R123), entries of traps that waited for a park (R457), the watchdog (R464, R465), write-backs of L1
lines (R331), and words that are no instructions (R77). -/
namespace Sys2Proof.Machine
open Sys2Proof

/-! ### Merging (R252) -/

/-- The region at which a batch stands: its start, or none when its next word begins one. -/
def regionOf (b : Batch) : Option VA := if b.newRegion then none else some b.regionStart

/-- A batch stands at an issue boundary, with its word not begun. -/
def atBoundary (s : State) (b : Batch) : Bool :=
  b.block.isNone && !b.parked && b.trap.isNone && decide (b.wake ≤ s.clock) && !outstanding s b

/-- The conditions of R252. -/
def canMerge (s : State) (a b : Batch) : Bool :=
  a.id != b.id && a.core == b.core && a.slot == b.slot && a.crew == b.crew && a.pin.isNone && b.pin.isNone &&
    a.pc == b.pc && a.wb == b.wb && a.priv == b.priv && regionOf a == regionOf b && a.reacquire == b.reacquire && a.xheld == b.xheld &&
    a.gatherAt == b.gatherAt &&
    !((liveLanes a).any fun l => (liveLanes b).contains l) && !ownsTile s a && !ownsTile s b && atBoundary s a && atBoundary s b

/-- A merge (R252); an error that it meets is one that no word reads (R286; log 104). -/
def execBatchMerge (a b : Nat) (s : State) : Host.Outcome State Fault Refusal :=
  match findBatch s a, findBatch s b with
  | some x, some y =>
    if canMerge s x y then
      match joinFault s [x, y] with
      | some c => .next (postUE s x c.1)
      | none => .next (joinBatches s x [y])
    else .next s
  | _, _ => .next s

/-! ### Parks, sleeps and traps -/

/-- A park can end: no pass holds a quarter of the batch, and its held stores can be performed. -/
def parkOver (s : State) (b : Batch) : Bool := b.parked && !hasQuarters s b && b.stores.all (storeReady s b)

/-- The word at which a fault of a set's reload (R282) or of a result that lands (R287) is raised: the blocked word, or the one that the batch is to issue,
whose bits are a free value where they cannot be fetched (log 16). -/
def faultWord (s : State) (b : Batch) : State × W64 :=
  if b.block.isSome then (s, b.word)
  else match fetchWord s b with
    | .word s w => (s, w)
    | _ => let r := freeVal s; (r.2, r.1)

/-- What a returned result meets as it lands: the copy of a T register meets an error in its Kiln image (R287), and a result of
some lanes, or SHAPEG, one in the scalar that it spreads over the others (R286; log 83). -/
def landFault (s : State) (b : Batch) : Option Cause :=
  if s.upsets.isEmpty then none
  else
    let meets (act : List Nat) (i : Nat) : Option Cause := (overFault s b act false i).map (·.1)
    b.retbuf.findSome? fun p => match p with
      | .result mask vals _ => vals.findSome? fun v => meets (lanesOf mask) v.1
      | .toGeneral i => meets [] i

/-- An error that a result meets as it lands is raised at the word that the batch comes to next, before it (R287; log 74): after
the sleep that the batch is in (R123), and in place of a trap of that word which waited for the park, since the word has no
effect then. -/
def landTrap (s : State) (x : Batch) (c : Cause) : State :=
  let (s, w) := match x.trap with
    | some t => (s, t.word)
    | none => faultWord s x
  let t : TrapInfo := { cause := c, rpc := x.pc, word := w }
  if x.trap.isSome ∨ s.clock < x.wake then modBatch (countUE s x.core c) x.id fun b => { b with trap := some t }
  else raise s x.id t

/-- Every outstanding result has returned: the held stores are performed, the results are written in program order and the
batch goes on (R61). -/
def execParkResume (b : Nat) (s : State) : Host.Outcome State Fault Refusal :=
  match findBatch s b with
  | none => .next s
  | some x =>
    if parkOver s x then
      let bad := landFault s x
      let s := landAll (drainStores (perfAdd s x.crew 2 (s.clock - x.parkedAt)) b) b
      let s := modBatch s b fun c => { c with parked := false }
      .next (match bad with
        | some c => landTrap s x c
        | none => s)
    else .next s

/-- A sleep is over (R123), or the 12 ac of a trap entry (R457). -/
def sleepOver (s : State) (b : Batch) : Bool := b.wake != 0 && decide (b.wake ≤ s.clock)

def execSleepEnd (b : Nat) (s : State) : Host.Outcome State Fault Refusal :=
  match findBatch s b with
  | none => .next s
  | some x => if sleepOver s x then .next (modBatch s b fun c => { c with wake := 0 }) else .next s

/-- The park before a trap entry has ended (R457 step 1), and so has a sleep (R123). -/
def entryDue (s : State) (b : Batch) : Bool := b.trap.isSome && !b.parked && decide (b.wake ≤ s.clock)

def execTrapEntry (b : Nat) (s : State) : Host.Outcome State Fault Refusal :=
  match findBatch s b with
  | none => .next s
  | some x =>
    match x.trap with
    | none => .next s
    | some t => if entryDue s x then .next (takeTrap s x t) else .next s

/-! ### The extended set taken again (R50) -/

/-- Whether the batch must take its evicted set again before its next word: it has woken (R50). -/
def wantsSet (s : State) (b : Batch) : Bool := b.reacquire && waitOver s b && !b.parked && b.trap.isNone

/-- One register comes back from fibre-local memory for one part, as G. -/
def reloadReg (b : Batch) (r : Acc) (i : Nat) : Acc :=
  match r with
  | .ok s _ =>
    let vas := evictVAs (crewD s b.crew) b i
    match checkMem (hwExec s b) s .load 4 false (some b.crew) vas with
    | .ok s locs => .ok (locs.foldl (fun s p =>
        let (s, bs) := loadLoc s b 4 p.2
        modBatch s b.id fun c =>
          let old := c.xregs.getD i (.u 0)
          { c with xregs := c.xregs.set i (.g (laneList fun l =>
              if l = p.1 then BitVec.ofNat 32 (leNat bs) else laneVal old l)) }) s) []
    | r => r
  | r => r

/-- The grant: the holder is evicted when there is one, and the registers of the slot's parts are loaded again; none where an
access waits at its home. -/
def takeSetAgain (s : State) (b : Batch) (x : XSet) : Option State :=
  let out := match x.holder with
    | none => .ok s []
    | some h => match evict (hwExec s b) h with
      | .ok s _ => .ok (markEvicted s b.core h) []
      | r => r
  let parts := (slotParts s b.core b.slot).filter (·.reacquire)
  let reload (r : Acc) (p : Batch) : Acc := (List.range p.xregs.length).foldl (reloadReg p) r
  match parts.foldl reload out with
  | .wait _ _ => none
  | .trap s t =>
    let (s, w) := faultWord s b
    some (raise (unqueueSet s b) b.id { t with rpc := b.pc, word := w })
  | .ok s _ =>
    let mine (i : Nat) : Bool := parts.any fun c => c.id == i
    let s := modXSet s b.core (b.slot / 2) fun x => { x with
      holder := some b.slot
      last := some b.slot
      evicted := if x.evicted = some b.slot then none else x.evicted
      waiters := x.waiters.filter fun i => !mine i }
    let upd (c : Batch) : Batch := if mine c.id then { c with reacquire := false, xheld := true } else c
    some { s with batches := s.batches.map upd }

/-- What the step leaves: the batch joins the queue, and takes the set again where it is free for it; none where nothing
moves. -/
def reacquired (s : State) (b : Batch) : Option State :=
  if !wantsSet s b then none
  else match findXSet s b.core (b.slot / 2) with
    | none => none
    | some x =>
      if setFree s b x then
        if x.holder.isSome && setBad s b then (if s.posted.isEmpty then some (postUE s b .eccUeReg) else none)
        else takeSetAgain (queueSet s b) b x
      else if x.waiters.contains b.id then none else some (queueSet s b)

def execXsetReacquire (b : Nat) (s : State) : Host.Outcome State Fault Refusal :=
  match findBatch s b with
  | none => .next s
  | some x => .next ((reacquired s x).getD s)

/-! ### The watchdog (R464, R465) -/

/-- A batch's count has reached its limit while it is blocked: a wait whose condition holds is over (R464; log 78). -/
def watchdogDue (s : State) (b : Batch) : Bool :=
  let n := (ctxD s b.ctx).wdog.toNat
  n != 0 && decide (b.blockedAt + 65536 * n ≤ s.clock) && (match b.block with
    | some k => waitCounts s k
    | none => false) && !waitOver s b

/-- The wait is abandoned and the word raises WATCHDOG (R465): an event waiter is dropped, a place in the queue for
the extended set is given up. For members that wait under R258 it names their crew, and they are dropped (log 78). -/
def execWatchdog (b : Nat) (s : State) : Host.Outcome State Fault Refusal :=
  match findBatch s b with
  | none => .next (((findCrew s b).map (dropOverdue s)).getD s)
  | some x =>
    if !watchdogDue s x then .next s
    else
      let s := dropWaiters (endWait s x) fun w => !w.node && w.who == b
      let s := modXSet s x.core (x.slot / 2) fun t => { t with waiters := t.waiters.filter fun i => i ≠ b }
      let s := modBatch s b fun c => { c with block := none }
      .next (raise s b { cause := .watchdog, rpc := x.pc, word := x.word })

/-! ### Loads performed late (R318) -/

/-- Puts the words that one access read into its result. -/
def putLoaded (r : LoadSrc) (bs : List Byte) (p : Pending) : Pending :=
  match p with
  | .result mask vals fl =>
    let ws := loadWords r.code bs
    let put (q : (Nat × RegVal) × Nat) : Nat × RegVal :=
      if q.2 < r.reg ∨ r.reg + ws.length ≤ q.2 then q.1
      else
        let w := ws.getD (q.2 - r.reg) 0
        (q.1.1, match q.1.2 with
          | .u _ => .u w
          | v => .g (laneList fun l => if r.lanes.contains l then w else laneVal v l))
    .result mask (vals.zipIdx.map put) fl
  | p => p

/-- Performs one access of an outstanding load now; it counts no miss again. -/
def performSrc (s : State) (b : Batch) (r : LoadSrc) : State :=
  let (t, bs) := loadLoc s b r.bytes r.loc
  modBatch { t with crews := s.crews } b.id fun c => { c with
    retbuf := c.retbuf.zipIdx.map fun p => if p.2 = r.entry then putLoaded r bs p.1 else p.1 }

/-- The accesses of a batch's outstanding loads that are performed with its `i`-th: that one, and the later ones of a fibre that
one of them serves to bytes that it touches, which may not return an earlier value than it does (R322). -/
def performsWith (s : State) (b : Batch) (i : Nat) : List LoadSrc :=
  match b.loads[i]? with
  | none => []
  | some r => (b.loads.drop (i + 1)).foldl (fun t q => if t.any (loadsMeet s b.ctx q) then t ++ [q] else t) [r]

/-- An outstanding load's access is performed after its word issued, and before the park that writes its result (R318). -/
def performLoad (s : State) (id i : Nat) : State :=
  match findBatch s id with
  | none => s
  | some b =>
    let rs := performsWith s b i
    if rs.all (canPerform s b) then rs.foldl (fun s r => performSrc s b r) s else s

/-! ### Stores performed late (R318) -/

/-- A held store may be performed now: no earlier one that is held touches its bytes, and an MMQ's reads keep their order with the
stores of scratch (R209). -/
def canStore (s : State) (b : Batch) (i : Nat) : Bool :=
  match b.stores[i]? with
  | none => false
  | some r =>
    let at' (q : StoreSrc) : Nat × Nat := locSpan s b.ctx q.data.length q.loc
    let ordered (q : StoreSrc) : Bool := inScratch q && inScratch r && (q.reads.isSome || r.reads.isSome)
    storeReady s b r && !((b.stores.take i).any fun q => ordered q || spansMeet (at' q) (at' r))

/-- A held store of a batch is performed (R318). -/
def performLate (s : State) (id i : Nat) : State :=
  match findBatch s id with
  | none => s
  | some b =>
    if canStore s b i then performThose s b fun j => j == i else s

/-- The hardware holds a batch's further stores, or no longer does (R318; log 34). -/
def deferStores (s : State) (id : Nat) : State := modBatch s id fun b => { b with late := !b.late }

/-- A held store has waited as long as a store may before it reaches its home (R331; log 34). -/
def storeDue (s : State) (b : Batch) : Bool := b.stores.any fun r => storeReady s b r && decide (r.since + 65536 ≤ s.clock)

/-! ### Lines and words -/

/-- A dirty line of a core's L1 is written back (R331). -/
def execLineWriteback (core line : Nat) (s : State) : Host.Outcome State Fault Refusal := .next (writeBack s core line)

/-- A word that is no instruction (Table 03-8): ILL_FORM for form 3, else ILL_OPCODE, whatever its guard; rgn begins a
region where the form is known (R76). -/
def execNonInstructionEncoding (w : W64) (s : State) : Host.Outcome State Fault Refusal :=
  match findBatch s s.cur with
  | none => .refused .noBatch
  | some b0 =>
    let form3 := w.extractLsb' 60 2 = 3
    let s := startRegion s b0 (!form3 && w.getLsbD 62)
    .next (raise s b0.id { cause := if form3 then .illForm else .illOpcode, rpc := b0.pc, word := w })

end Sys2Proof.Machine
end

