-- ==== Sys2Proof/Machine/Lane.lean ====
section
/-! DEFINITION. Lane instructions: SHFL, VOTE, REDL, SCANL, MATCH (chapter 05, R142 to R148). -/
namespace Sys2Proof.Machine
open Sys2Proof

/-- Runs a lane instruction: only in a pinned batch (R142). -/
def laneOp (s : State) (w : FWord) (sp : Spec) (f : Exec → Eff) : Host.Outcome State Fault Refusal :=
  runF s w sp fun x => if x.b.pin.isNone then .trap x.s (wordTrap x .xlaneUnpinned) else f x

/-- A lane's value as a source of another lane: zero when vacant (R143). -/
def laneSrc (x : Exec) (f : Fld) (l : Nat) : W32 := if (liveLanes x.b).contains l then lane x f 0 l else 0

/-- The source lane of SHFL, none when it lies outside 0 to 31 (R144). -/
def shflSource (mode l : Nat) (n : W32) : Option Nat :=
  let k : Int := match mode with
    | 0 => n.toNat
    | 1 => l + n.toInt
    | 2 => (l + n.toNat) % 32
    | _ => ((BitVec.ofNat 32 l ^^^ n).toNat : Int)
  if 0 ≤ k ∧ k < 32 then some k.toNat else none

/-- The lane of field a that SHFL reads for a lane: its own where the source lies outside 0 to 31 (R144). -/
def shflReads (x : Exec) (mode l : Nat) : Nat := (shflSource mode l (lane x .b 0 l)).getD l

/-- The lanes whose source holds an error of register a (R286): a live lane outside active(B) is read too. -/
def shflFault (x : Exec) (mode : Nat) : Option (Cause × W32) :=
  if x.s.upsets.isEmpty then none
  else (regFault x.s x.b ((x.act.map (shflReads x mode)).filter fun k => (liveLanes x.b).contains k) (nameOf x .a 0)).map fun p =>
    (p.1, if p.2 = 0 then 0 else maskOf (x.act.filter fun l => p.2.getLsbD (shflReads x mode l)))

def execShfl (w : FWord) (s : State) : Host.Outcome State Fault Refusal :=
  laneOp s w { fSpec 0x90 w v1 v1 v1 .z with legal := w.m.toNat < 4, ephOk := true, cross := true } fun x =>
    match shflFault x (w.m.toNat % 4) with
    | some (c, ls) => .trap x.s { wordTrap x c with lanes := ls }
    | none => .res [(nameOf x .d 0, laneResult x false fun l =>
      match shflSource (w.m.toNat % 4) l (lane x .b 0 l) with
      | some k => laneSrc x .a k
      | none => lane x .a 0 l)] [] []

/-- VOTE (R145). Without a register result eph is ILL_FIELD (R59, R125; log 93). -/
def execVote (w : FWord) (s : State) : Host.Outcome State Fault Refusal :=
  let mask := w.m.toNat % 4 = 3
  let sp := { fSpec 0x91 w (if mask then v1 else .p) .p .z .z with legal := w.m.toNat < 4, ephOk := decide mask }
  laneOp s w sp fun x =>
    let bits := x.act.filter fun l => predBit (fibreOf x.b l).pw w.a.toNat
    match w.m.toNat % 4 with
    | 3 => .res [(nameOf x .d 0, laneResult x false fun _ => maskOf bits)] [] []
    | mode =>
      let r := match mode with
        | 0 => bits.length == x.act.length
        | 1 => !bits.isEmpty
        | _ => bits.length == x.act.length || bits.isEmpty
      .res [] [(w.d.toNat, if r then maskOf x.act else 0)] []

/-- An operation of REDL and SCANL on two present values, with the flags of a float combine (R146). -/
def combine (op : Nat) (p q : W32) : W32 × Nat :=
  let fl (r : Nat × Nat) : W32 × Nat := (BitVec.ofNat 32 r.1, r.2)
  match op with
  | 0 => (p + q, 0)
  | 1 => (if q.toInt < p.toInt then q else p, 0)
  | 2 => (if q.toNat < p.toNat then q else p, 0)
  | 3 => (if p.toInt < q.toInt then q else p, 0)
  | 4 => (if p.toNat < q.toNat then q else p, 0)
  | 5 => (p &&& q, 0)
  | 6 => (p ||| q, 0)
  | 7 => (p ^^^ q, 0)
  | 8 => fl (f32Add p.toNat q.toNat)
  | 9 => fl (fMinMax fp32 false false p.toNat q.toNat)
  | _ => fl (fMinMax fp32 false true p.toNat q.toNat)

/-- The identity of an operation (R147). -/
def scanIdentity (op : Nat) : W32 :=
  match op with
  | 1 => 0x7FFFFFFF
  | 2 => 0xFFFFFFFF
  | 3 => 0x80000000
  | 5 => 0xFFFFFFFF
  | 8 => 0x80000000
  | 9 => 0x7F800000
  | 10 => 0xFF800000
  | _ => 0

/-- combine over values that may be absent, adding flags. -/
def combineOpt (op : Nat) (p q : Option W32 × Nat) : Option W32 × Nat :=
  match p.1, q.1 with
  | some a, some b => let r := combine op a b; (some r.1, p.2 ||| q.2 ||| r.2)
  | some a, none => (some a, p.2 ||| q.2)
  | none, o => (o, p.2 ||| q.2)

/-- One level of the fixed tree: neighbours combine. -/
def treeLevel (op : Nat) : List (Option W32 × Nat) → List (Option W32 × Nat)
  | a :: b :: r => combineOpt op a b :: treeLevel op r
  | r => r

/-- The fixed tree of R146 over 32 lanes: five levels. The integer operations are exact, so it gives them too. -/
def treeReduce (op : Nat) (xs : List (Option W32)) : Option W32 × Nat :=
  ((List.range 5).foldl (fun l _ => treeLevel op l) (xs.map fun o => (o, 0))).headD (none, 0)

/-- The flags of a combination over the lanes, which no lane raises alone. -/
def jointFlags (x : Exec) (fl : Nat) : LaneFlags := [(x.act.headD 0, BitVec.ofNat 32 fl)]

def execRedl (w : FWord) (s : State) : Host.Outcome State Fault Refusal :=
  laneOp s w { fSpec 0x92 w v1 v1 .z .z with legal := w.m.toNat < 11, ephOk := true } fun x =>
    let r := treeReduce w.m.toNat (lanes32.map fun l => if x.act.contains l then some (lane x .a 0 l) else none)
    .res [(nameOf x .d 0, laneResult x false fun _ => r.1.getD 0)] [] (jointFlags x r.2)

/-- The prefixes of SCANL in increasing lane order: (lane, inclusive, exclusive), with the flags. -/
def scanLanes (op : Nat) (exc : Bool) (vals : List (Nat × W32)) : List (Nat × W32) × Nat :=
  let step (st : Option W32 × Nat × List (Nat × W32)) (p : Nat × W32) : Option W32 × Nat × List (Nat × W32) :=
    let (acc, fl, out) := st
    match acc with
    | none => (some p.2, fl, out ++ [(p.1, if exc then scanIdentity op else p.2)])
    | some a =>
      let r := combine op a p.2
      (some r.1, fl ||| r.2, out ++ [(p.1, if exc then a else r.1)])
  -- with .EXC the last lane's own combination is never formed
  let go := vals.foldl step (none, 0, [])
  let fl := if exc then (vals.dropLast.foldl step (none, 0, [])).2.1 else go.2.1
  (go.2.2, fl)

def execScanl (w : FWord) (s : State) : Host.Outcome State Fault Refusal :=
  let op := w.m.toNat % 16
  laneOp s w { fSpec 0x93 w v1 v1 .z .z with
      legal := decide (op < 11) && decide (w.m.toNat < 32), ephOk := true } fun x =>
    let r := scanLanes op (w.m.getLsbD 4) (x.act.map fun l => (l, lane x .a 0 l))
    .res [(nameOf x .d 0, laneResult x false fun l => kvGetD r.1 l 0)] [] (jointFlags x r.2)

def execMatchL (w : FWord) (s : State) : Host.Outcome State Fault Refusal :=
  laneOp s w { fSpec 0x94 w v1 v1 .z .z with legal := w.m = 0, ephOk := true } fun x =>
    .res [(nameOf x .d 0, laneResult x false fun l =>
      maskOf (x.act.filter fun j => lane x .a 0 j = lane x .a 0 l))] [] []

end Sys2Proof.Machine
end

