-- ==== Sys2Proof/Machine/Pair.lean ====
section
/-! DEFINITION. P-form words: the two slots' legality (R70) and effects (R69, Table 03-13). -/
namespace Sys2Proof.Machine
open Sys2Proof

/-- The pipe that a pair op needs (Table 03-13): integer, FMA, or either. -/
inductive Pipe3 where
  | i | f | e
deriving DecidableEq, Repr

def pairPipe (o : PairOp) : Pipe3 :=
  match o with
  | .ineg | .imin | .imax | .shlI5 | .shrI5 | .shraI5 | .imul | .popc | .clz => .i
  | .fadd | .fsub | .fmul | .fmin | .fmax | .fadd2 | .fmul2 => .f
  | _ => .e

/-- Whether m5 uses only the bits that Table 03-13 defines for the op. -/
def pairM5Ok (o : PairOp) (m : BitVec 5) : Bool :=
  match o with
  | .iaddI5 | .isubI5 | .shlI5 | .shrI5 | .shraI5 => true
  | .imin | .imax => m.toNat < 2
  | .fadd | .fsub | .fmul => m.toNat < 16
  | .fmin | .fmax => m.toNat == 0 || m.toNat == 8
  | .fadd2 | .fmul2 => true
  | _ => m == 0

/-- Distinct banks for two fields, unless they hold the same name (R70 rule 1). -/
def bankApart (p q : W9) : Bool := p == q || p.toNat % 4 != q.toNat % 4

/-- R70; a NOP slot is exempt. -/
def pairLegal (x y : Slot) : Bool :=
  if x.op = .nop ∨ y.op = .nop then (x.op == .nop || bankApart x.d x.a) && (y.op == .nop || bankApart y.d y.a)
  else
    bankApart x.d x.a && bankApart x.d y.d && bankApart x.d y.a && bankApart x.a y.d && bankApart x.a y.a &&
      bankApart y.d y.a && x.d != y.d && !(pairPipe x.op == .i && pairPipe y.op == .i)

/-- A scalar FP32 pair op: rounding, SAT and FTZ of m5. -/
def pairFp (m : BitVec 5) (g : Nat → FVal → FVal → FVal × Nat) (d a : W32) : W32 × Nat :=
  let ftz := m.getLsbD 3
  let r := fFinish fp32 (m.toNat % 4) (m.getLsbD 2) ftz
    (g (m.toNat % 4) (fRead fp32 ftz d.toNat) (fRead fp32 ftz a.toNat))
  (BitVec.ofNat 32 r.1, r.2)

/-- A packed pair op: m5 [4] picks the format. -/
def pairFp2 (m : BitVec 5) (g : Nat → FVal → FVal → FVal × Nat) (d a : W32) : W32 × Nat :=
  let f := if m.getLsbD 4 then fp16 else bf16
  let ftz := m.getLsbD 3
  let el (e : Nat) : Nat × Nat := fFinish f (m.toNat % 4) (m.getLsbD 2) ftz
    (g (m.toNat % 4) (fRead f ftz (d.toNat / 65536 ^ e % 65536)) (fRead f ftz (a.toNat / 65536 ^ e % 65536)))
  let r := pack2 (el 0) (el 1)
  (BitVec.ofNat 32 r.1, r.2)

/-- What a slot computes from the old d and from a in a lane, with its FP flags. -/
def pairLane (o : PairOp) (m : BitVec 5) (d a : W32) : W32 × Nat :=
  let i5 : W32 := m.zeroExtend 32
  let t : Nat := if m.getLsbD 0 then 1 else 0
  match o with
  | .nop => (d, 0)
  | .iadd => (d + a, 0)
  | .isub => (d - a, 0)
  | .iaddI5 => (a + i5, 0)
  | .isubI5 => (a - i5, 0)
  | .andB => (d &&& a, 0)
  | .orB => (d ||| a, 0)
  | .xorB => (d ^^^ a, 0)
  | .andnB => (d &&& ~~~a, 0)
  | .mov => (a, 0)
  | .ineg => (0 - a, 0)
  | .imin => (fitInt t false (min (extInt t d) (extInt t a)), 0)
  | .imax => (fitInt t false (max (extInt t d) (extInt t a)), 0)
  | .shlI5 => (shlLane a i5, 0)
  | .shrI5 => (shrLane a i5, 0)
  | .shraI5 => (shraLane a i5, 0)
  | .imul => (d * a, 0)
  | .popc => (popLane a, 0)
  | .clz => (clzLane a, 0)
  | .fadd => pairFp m fAdd d a
  | .fsub => pairFp m (fun r u v => fAdd r u (fNeg v)) d a
  | .fmul => pairFp m (fun _ u v => fMul u v) d a
  | .fmin => let r := fMinMax fp32 (m.getLsbD 3) false d.toNat a.toNat; (BitVec.ofNat 32 r.1, r.2)
  | .fmax => let r := fMinMax fp32 (m.getLsbD 3) true d.toNat a.toNat; (BitVec.ofNat 32 r.1, r.2)
  | .fadd2 => pairFp2 m fAdd d a
  | .fmul2 => pairFp2 m (fun _ u v => fMul u v) d a

/-- Whether the op reads its d field as its first source. -/
def pairReadsD (o : PairOp) : Bool :=
  match o with
  | .iadd | .isub | .andB | .orB | .xorB | .andnB | .imin | .imax | .imul => true
  | .fadd | .fsub | .fmul | .fmin | .fmax | .fadd2 | .fmul2 => true
  | _ => false

/-- The affine result of an op, where Table 02-2 gives one. -/
def pairAffine (o : PairOp) (m : BitVec 5) (d a : RegVal) : Option RegVal :=
  match o with
  | .iadd => affineAdd d a
  | .isub => affineSub d a
  | .iaddI5 => affineAdd a (.u (m.zeroExtend 32))
  | .isubI5 => affineSub a (.u (m.zeroExtend 32))
  | .imul => affineMul d a
  | .mov => some a
  | _ => none

/-- One slot's results: its register with its shape, and its flags. -/
def slotResult (x : Exec) (fd fa : Fld) (sl : Slot) : List (Nat × RegVal) × LaneFlags :=
  if sl.op = .nop then ([], [])
  else
    let d := regOf x fd 0
    let a := regOf x fa 0
    let g (l : Nat) : W32 × Nat := pairLane sl.op sl.m (laneVal d l) (laneVal a l)
    let v := match pairAffine sl.op sl.m d a with
      | some v => v
      | none => laneResult x (isUni a && (!pairReadsD sl.op || isUni d)) fun l => (g l).1
    ([(nameOf x fd 0, v)], lanesFlags x fun l => (g l).2)

/-- A slot's fields: a NOP's must be zero. -/
def slotCls (sl : Slot) : Cls := if sl.op = .nop then .z else v1

/-- The word's decode properties: the fields of slot X, then of slot Y. -/
def pSpec (w : PWord) : Spec where
  fields := [(.d, slotCls w.x, w.x.d), (.a, slotCls w.x, w.x.a), (.b, slotCls w.y, w.y.d), (.c, slotCls w.y, w.y.a)]
  legal := pairM5Ok w.x.op w.x.m && pairM5Ok w.y.op w.y.m
  writes := [.d, .b]
  reads := (if pairReadsD w.x.op then [.d] else []) ++ [.a] ++ (if pairReadsD w.y.op then [.b] else []) ++ [.c]
  s := w.s
  rgn := w.rgn
  word := encodeP w

/-- Both slots read their sources before either writes (R69). -/
def execPair (w : PWord) (s : State) : Host.Outcome State Fault Refusal :=
  runWord s (guardP w.pg) (pSpec w) (pairLegal w.x w.y) fun x =>
    let rx := slotResult x .d .a w.x
    let ry := slotResult x .b .c w.y
    .res (rx.1 ++ ry.1) [] (rx.2 ++ ry.2)

end Sys2Proof.Machine
end

