-- ==== Sys2Proof/Machine/Ray.lean ====
section
/-! DEFINITION. Ray queries (R421 to R429): nodes and leaves, the box and triangle tests, traversal, RAYQ and RAYRD. -/
namespace Sys2Proof.Machine
open Sys2Proof

/-! ### Reading nodes and leaves (R424) -/

/-- What one lane's read, or its whole query, comes to. -/
inductive RayAns (α : Type) where
  | ok (s : State) (v : α)
  | trap (s : State) (t : TrapInfo)
  | wait (s : State) (k : Block)

def RayAns.andThen {α β : Type} (r : RayAns α) (f : State → α → RayAns β) : RayAns β :=
  match r with
  | .ok s v => f s v
  | .trap s t => .trap s t
  | .wait s k => .wait s k

/-- RAY_NODE of a lane at an address. -/
def rayNode {α : Type} (x : Exec) (s : State) (l va : Nat) : RayAns α := .trap s (laneTrap x .rayNode [l] va)

/-- An address translates to a CHECKED page that the access may read. -/
def onChecked (x : Exec) (s : State) (va : Nat) : Bool :=
  decide (va < 2 ^ 54) && !inScratchWindow va && (heldPark s (.batch x.b.id) x.b.ctx va).isNone &&
    (parkedFailure { x with act := [0] } fun _ => [va]).isNone && ((translate s x.b.core x.b.ctx va).2).any fun l =>
      (permFault s x.b.ctx x.b.priv .load va l).isNone && leafKind l.e != 2 && leafKind l.e != 3 && leafChk l.e

/-- `m` bytes of a line, as a relaxed load of a lane; a CHECKED page is PAGE_ABSENT, before anything of its home is asked
(R494). -/
def rayPart (x : Exec) (s : State) (l va m : Nat) : RayAns (List Byte) :=
  let y : Exec := { x with s := s, act := [l] }
  let addr (_ : Nat) : Nat := va
  if va % m = 0 ∧ onChecked x s va then .trap (translate s x.b.core x.b.ctx va).1 (laneTrap x .pageAbsent [l] va)
  else match checkAddrs y .load m false addr with
  | .trap s t => .trap s t
  | .wait s k => .wait s k
  | .ok s locs =>
    match checkGen y s false addr locs with
    | .trap s t => .trap s t
    | .wait s k => .wait s k
    | .ok s locs =>
      match locs with
      | (_, loc) :: _ => let r := loadLoc s x.b m loc; .ok r.1 r.2
      | [] => .ok s []

/-- `n` bytes, one or two lines, at a multiple of `n`. -/
def rayRead (x : Exec) (s : State) (l va n : Nat) : RayAns (List Byte) :=
  if va % n ≠ 0 then rayNode x s l va
  else (rayPart x s l va 128).andThen fun s a =>
    if n = 128 then .ok s a else (rayPart x s l (va + 128) 128).andThen fun s b => .ok s (a ++ b)

/-! ### Nodes (R421) -/

def s8 (b : Nat) : Int := if b < 128 then b else (b : Int) - 256
def s32 (b : Nat) : Int := if b < 2 ^ 31 then b else (b : Int) - 2 ^ 32

/-- q·2^e, exactly. -/
def scaledNat (q : Nat) (e : Int) : FVal := .fin false q e false

/-- A child that may be entered: its number, whether it is a leaf, its address, and its box as FP32 codes. -/
structure RayChild where
  i : Nat
  leaf : Bool
  va : Nat
  lo : List Nat
  hi : List Nat

/-- The checks of Table 18-4. -/
def nodeOk (b : List Byte) : Bool :=
  let fin (o : Nat) : Bool := match fDecode fp32 o with | .fin _ _ _ _ => true | _ => false
  (List.range 3).all (fun a => fin (numAt b (4 * a) 4)) && (numAt b 16 1 &&& numAt b 15 1) == numAt b 16 1 &&
    numAt b 17 7 == 0 && numAt b 40 8 == 0 && numAt b 96 32 == 0 && decide (numAt b 24 8 < 2 ^ 54) &&
    numAt b 24 8 % 128 == 0 && decide (numAt b 32 8 < 2 ^ 54) && numAt b 32 8 % 256 == 0

/-- The children of a node in increasing number. -/
def nodeChildren (b : List Byte) : List RayChild :=
  let valid (i : Nat) : Bool := (numAt b 15 1).testBit i
  let leaf (i : Nat) : Bool := (numAt b 16 1).testBit i
  let before (i : Nat) : Nat := (List.range i).countP fun j => valid j && leaf j == leaf i
  let origin (a : Nat) : FVal := fDecode fp32 (numAt b (4 * a) 4)
  let ex (a : Nat) : Int := s8 (numAt b (12 + a) 1)
  let q (i j : Nat) : Nat := numAt b (48 + 6 * i + j) 1
  let edge (mode a n : Nat) : Nat := (fRound fp32 mode false false (fAdd 0 (origin a) (scaledNat n (ex a))).1).1
  ((List.range 8).filter fun i => valid i && (List.range 3).all fun a => decide (q i a ≤ q i (3 + a))).map fun i => {
    i := i, leaf := leaf i
    va := if leaf i then numAt b 32 8 + 256 * before i else numAt b 24 8 + 128 * before i
    lo := (List.range 3).map fun a => edge 2 a (q i a)
    hi := (List.range 3).map fun a => edge 3 a (q i (3 + a) + 1) }

/-! ### The box test (R427) -/

def f32Max (a b : Nat) : Nat := if f32Lt a b then b else a
def f32Min (a b : Nat) : Nat := if f32Lt b a then b else a

/-- round((v − O)/D, FP32, mode), exact before the rounding. -/
def slab (mode v o d : Nat) : Nat :=
  (fRound fp32 mode false false (fDiv (fAdd 0 (fDecode fp32 v) (fNeg (fDecode fp32 o))).1 (fDecode fp32 d))).1

/-- One axis: the new near and far, or a miss. Rounding keeps order, so the bounds of the slab are rounded first. -/
def boxAxis (lo hi o d : Nat) (nf : Nat × Nat) : Option (Nat × Nat) :=
  if d % 2 ^ 31 = 0 then (if f32Lt o lo ∨ f32Lt hi o then none else some nf)
  else
    let n := f32Min (slab 2 lo o d) (slab 2 hi o d)
    let f := f32Max (slab 3 lo o d) (slab 3 hi o d)
    some (f32Max nf.1 n, f32Min nf.2 f)

/-- The near distance of a box that is hit. -/
def boxTest (c : RayChild) (o d : List Nat) (t0 t1 : Nat) : Option Nat :=
  let go := (List.range 3).foldl (fun (r : Option (Nat × Nat)) a =>
    r.bind (boxAxis (c.lo.getD a 0) (c.hi.getD a 0) (o.getD a 0) (d.getD a 0))) (some (t0, t1))
  go.bind fun nf => if f32Le nf.1 nf.2 then some nf.1 else none

/-! ### Leaves (R404, R422) -/

/-- The checks of Table 18-5 on a leaf's header, its first 64 bytes. -/
def leafHeadOk (b : List Byte) : Bool :=
  let nt := numAt b 21 1
  let nv := numAt b 22 1
  decide (1 ≤ nt) && decide (nt ≤ 8) && decide (3 ≤ nv) && decide (nv ≤ 24) && numAt b 23 9 == 0 &&
    ((List.range 8).all fun i => if i < nt then decide (numAt b (32 + i) 1 ≤ 123) else numAt b (32 + i) 1 == 0) &&
    ((List.range 24).all fun j => if j < 3 * nt then decide (numAt b (40 + j) 1 < nv) else numAt b (40 + j) 1 == 0)

/-- Those on all 256 bytes. -/
def leafOk (b : List Byte) : Bool :=
  let nv := numAt b 22 1
  leafHeadOk b && numAt b 208 48 == 0 && numAt b (64 + 6 * nv) (144 - 6 * nv) == 0

/-- pos_decode(B, q, EXP). -/
def posDecode (base : Int) (q : Nat) (e : Int) : Nat :=
  let c := (fRound fp32 0 false false (fOfInt (base + q))).1
  match fDecode fp32 c with
  | .fin n m g st => (fRound fp32 0 false false (.fin n m (g + e) st)).1
  | _ => c

/-- The position of a leaf's vertex. -/
def leafVertex (b : List Byte) (v : Nat) : List Nat :=
  (List.range 3).map fun a => posDecode (s32 (numAt b (8 + 4 * a) 4)) (numAt b (64 + 6 * v + 2 * a) 2) (s8 (numAt b 20 1))

def readLeaf (x : Exec) (s : State) (l va : Nat) : RayAns (List Byte) :=
  (rayRead x s l va 256).andThen fun s b => if leafOk b then .ok s b else rayNode x s l va

/-- A leaf's header: no vertex is read (R429). -/
def readHead (x : Exec) (s : State) (l va : Nat) : RayAns (List Byte) :=
  if va % 256 ≠ 0 then rayNode x s l va
  else (rayPart x s l va 64).andThen fun s b => if leafHeadOk b then .ok s b else rayNode x s l va

/-! ### The triangle test (R428) -/

/-- p·q − r·t, exact and rounded once. -/
def crossF32 (p q r t : Nat) : Nat :=
  let m (a b : Nat) : FVal := (fMul (fDecode fp32 a) (fDecode fp32 b)).1
  (fRound fp32 0 false false (fAdd 0 (m p q) (fNeg (m r t))).1).1

/-- a + b + c, exact and rounded once. -/
def sumF32 (vs : List FVal) : Nat :=
  match vs with
  | [] => 0
  | v :: r => (fRound fp32 0 false false (r.foldl (fun a b => (fAdd 0 a b).1) v)).1

/-- t, u, v and whether the triangle is front-facing. -/
structure RayHit where
  t : Nat
  u : Nat
  v : Nat
  front : Bool

def triTest (o d : List Nat) (tmin tcur : Nat) (corners : List (List Nat)) : Option RayHit :=
  let mag (a : Nat) : Nat := d.getD a 0 % 2 ^ 31
  let kz := if mag 1 ≤ mag 0 ∧ mag 2 ≤ mag 0 then 0 else if mag 2 ≤ mag 1 then 1 else 2
  let neg := decide (2 ^ 31 ≤ d.getD kz 0)
  let k1 := (kz + 1) % 3
  let k2 := (kz + 2) % 3
  let kx := if neg then k2 else k1
  let ky := if neg then k1 else k2
  let dz := d.getD kz 0
  let sx := f32Div (d.getD kx 0) dz
  let sy := f32Div (d.getD ky 0) dz
  let sz := f32Div 0x3F800000 dz
  let tr (v : List Nat) : Nat × Nat × Nat :=
    let p (a : Nat) : Nat := f32Sub (v.getD a 0) (o.getD a 0)
    (f32Sub (p kx) (f32Mul sx (p kz)).1, f32Sub (p ky) (f32Mul sy (p kz)).1, (f32Mul sz (p kz)).1)
  let a := tr (corners.getD 0 [])
  let b := tr (corners.getD 1 [])
  let c := tr (corners.getD 2 [])
  let u := crossF32 c.1 b.2.1 c.2.1 b.1
  let v := crossF32 a.1 c.2.1 a.2.1 c.1
  let w := crossF32 b.1 a.2.1 b.2.1 a.1
  if (f32Lt u 0 ∨ f32Lt v 0 ∨ f32Lt w 0) ∧ (f32Lt 0 u ∨ f32Lt 0 v ∨ f32Lt 0 w) then none
  else
    let det := sumF32 [fDecode fp32 u, fDecode fp32 v, fDecode fp32 w]
    if det % 2 ^ 31 = 0 then none
    else
      let m (p q : Nat) : FVal := (fMul (fDecode fp32 p) (fDecode fp32 q)).1
      let t := f32Div (sumF32 [m u a.2.2, m v b.2.2, m w c.2.2]) det
      if f32Le tmin t ∧ f32Le t tcur then
        some { t := t, u := f32Div v det, v := f32Div w det, front := f32Lt 0 det }
      else none

/-! ### Traversal (R426) -/

/-- An accepted hit with its leaf: the place in the leaf, and CLID, IID and TRI. -/
structure RayBest where
  hit : RayHit
  iid : Nat
  clid : Nat
  tri : Nat
  i : Nat
  va : Nat

/-- The key (t, IID, CLID, TRI). -/
def rayBefore (a b : RayBest) : Bool :=
  f32Lt a.hit.t b.hit.t || (!f32Lt b.hit.t a.hit.t && (decide (a.iid < b.iid) || (a.iid == b.iid &&
    (decide (a.clid < b.clid) || (a.clid == b.clid && decide (a.tri < b.tri))))))

/-- A ray with its mode. -/
structure Ray where
  o : List Nat
  d : List Nat
  tmin : Nat
  cull : Bool
  any : Bool

/-- The triangles of a leaf in order, from `best` and `tcur`. -/
def leafHits (r : Ray) (b : List Byte) (va : Nat) (best : Option RayBest) (tcur : Nat) : Option RayBest × Nat :=
  (List.range (numAt b 21 1)).foldl (fun st i =>
    if r.any ∧ st.1.isSome then st
    else
      match triTest r.o r.d r.tmin st.2 ((List.range 3).map fun c => leafVertex b (numAt b (40 + 3 * i + c) 1)) with
      | none => st
      | some h =>
        if r.cull ∧ !h.front then st
        else
          let n : RayBest := { hit := h, iid := numAt b 4 4, clid := numAt b 0 4, tri := numAt b (32 + i) 1, i := i, va := va }
          (match st.1 with
            | some m => some (if rayBefore n m then n else m)
            | none => some n, h.t)) (best, tcur)

/-- The walk with its stack of (leaf, address), top first. A walk through nodes that name each other in a cycle has no
end, and its word waits for ever (log 32); the fuel exceeds the number of nodes and leaves of a space without a
cycle. -/
def rayWalk (x : Exec) (l : Nat) (r : Ray) : Nat → State → List (Bool × Nat) → Option RayBest → Nat → RayAns (Option RayBest)
  | _, s, [], best, _ => .ok s best
  | 0, s, _ :: _, _, _ => .wait s (.fills [] 0)
  | fuel + 1, s, (leaf, va) :: stack, best, tcur =>
    if leaf then
      (readLeaf x s l va).andThen fun s b =>
        let (best, tcur) := leafHits r b va best tcur
        if r.any ∧ best.isSome then .ok s best else rayWalk x l r fuel s stack best tcur
    else
      (rayRead x s l va 128).andThen fun s b =>
        if !nodeOk b then rayNode x s l va
        else
          let hits := (nodeChildren b).filterMap fun c => (boxTest c r.o r.d r.tmin tcur).map fun n => (n, c)
          let order := sortBy hits fun p q => !f32Lt q.1 p.1
          if 64 < order.length + stack.length then rayNode x s l va
          else rayWalk x l r fuel s (order.map (fun p => (p.2.leaf, p.2.va)) ++ stack) best tcur

/-- Whether a ray is invalid (R425). -/
def rayInvalid (o d : List Nat) (tmin tmax : Nat) : Bool :=
  let fin (a : Nat) : Bool := match fDecode fp32 a with | .fin _ _ _ _ => true | _ => false
  !(o.all fin) || !(d.all fin) || (d.all fun a => a % 2 ^ 31 == 0) || f32IsNan tmin || f32IsNan tmax || f32Lt tmin 0 ||
    f32Lt tmax tmin

/-- The eight result words of a query (R425): `status` 0 for a miss and 3 for an invalid ray. -/
def rayMiss (status : Nat) : List W32 :=
  [0x7F800000, 0xFFFFFFFF, BitVec.ofNat 32 (256 * status), 0, 0, 0xFFFFFFFF, 0, 0]

def rayResult (b : RayBest) : List W32 :=
  [BitVec.ofNat 32 b.hit.t, BitVec.ofNat 32 b.clid
  , BitVec.ofNat 32 (b.tri % 128 + 256 * (if b.hit.front then 1 else 2) + 1024 * b.i)
  , BitVec.ofNat 32 b.hit.u, BitVec.ofNat 32 b.hit.v, BitVec.ofNat 32 b.iid
  , BitVec.ofNat 32 b.va, BitVec.ofNat 32 (b.va / 2 ^ 32)]

/-! ### RAYQ and RAYRD (R423, R424) -/

/-- The frame of both words: their batch parks again right after them when a lane is active, and they do not close the
region. -/
def raySpec (s : State) (op : Nat) (w : FWord) (d a b : Cls) (uni : List Fld) (ok : Bool) : Spec :=
  let live := match findBatch s s.cur with
    | some t => !(activeLanes t (guardFI w.gp w.gn)).isEmpty
    | none => false
  { sysSpec op w d a b .z ok with var := true, parks := true, uni := uni, s := w.s || live }

/-- A record that the word was parked on and that has failed, where no lane's reads come to it any more: the word takes its
FILL_FAILED all the same, in the lanes that were parked (Table 17-4). -/
def rayParked (x : Exec) : Option TrapInfo :=
  (x.b.fillWait.findSome? (·.failed)).map fun f =>
    fillTrap x f (match x.b.block with
      | some (.fills _ m) => lanesOf m
      | _ => [])

/-- Two lanes failed the same check; of fill records, they met the same one (R460). -/
def sameFault (t u : TrapInfo) : Bool := u.cause == t.cause && (t.kind == 0 || (u.addr == t.addr && u.sdepth == t.sdepth))

/-- The query of every active lane, at the core's ray unit, which wakes for it (R488): results of all, or the fault of the lowest
lane that has one, or a wait on what the lanes miss. -/
def rayLanes (x : Exec) (f : State → Nat → RayAns (List W32)) (n : Nat) : Eff :=
  let step (st : State × List (Nat × List W32) × List TrapInfo × List (Nat × Block)) (l : Nat) :
      State × List (Nat × List W32) × List TrapInfo × List (Nat × Block) :=
    match f st.1 l with
    | .ok s v => (s, kvSet st.2.1 l v, st.2.2)
    | .trap s t => (s, st.2.1, st.2.2.1 ++ [t], st.2.2.2)
    | .wait s k => (s, st.2.1, st.2.2.1, st.2.2.2 ++ [(l, k)])
  let (s, vals, traps, waits) := x.act.foldl step (useEngines x.s [.ray x.b.core], [], [], [])
  match traps, rayParked x, waits with
  | t :: ts, _, _ =>
    let same := (t :: ts).filter (sameFault t)
    .trap s { t with lanes := same.foldl (fun m u => m ||| u.lanes) 0 }
  | [], some t, _ => .trap s t
  | [], none, k :: ks =>
    let recs := (k :: ks).flatMap fun k => match k.2 with | .fills r _ => r | _ => []
    (match (k :: ks).find? fun k => match k.2 with | .fills _ _ => false | _ => true with
    | some k => .wait s k.2
    | none => .wait s (.fills recs.eraseDups (maskOf ((k :: ks).map (·.1)))))
  | [], none, [] =>
    .done s ((List.range n).map fun j =>
      (nameOf x .d j, .g (laneList fun l => (kvGetD vals l []).getD j 0))) [] []

def execRayq (w : FWord) (s : State) : Host.Outcome State Fault Refusal :=
  runF s w (raySpec s 0xEC w (.v 8 8) (.v 8 8) ve [.b] (decide (w.m.toNat < 4))) fun x =>
    let root := (uni64 x .b).toNat
    rayLanes x (fun s l =>
      let g (j : Nat) : Nat := (lane x .a j l).toNat
      let o := [g 0, g 1, g 2]
      let d := [g 4, g 5, g 6]
      if rayInvalid o d (g 3) (g 7) then .ok s (rayMiss 3)
      else
        let r : Ray := { o := o, d := d, tmin := g 3, cull := w.m.getLsbD 0, any := w.m.getLsbD 1 }
        (rayWalk x l r (2 ^ 48) s [(false, root)] none (g 7)).andThen fun s b =>
          .ok s (match b with
            | some b => rayResult b
            | none => rayMiss 0)) 8

def execRayrd (w : FWord) (s : State) : Host.Outcome State Fault Refusal :=
  runF s w (raySpec s 0xED w vq ve v1 [] (w.m = 0)) fun x =>
    let none' : List W32 := [0x7FC00000, 0x7FC00000, 0x7FC00000, 0xFFFFFFFF]
    rayLanes x (fun s l =>
      let sel := (lane x .b 0 l).toNat
      let tri := sel % 8
      let corner := sel / 8 % 4
      let va := (lane64 x .a l).toNat
      (readHead x s l va).andThen fun s h =>
        if corner = 3 ∨ 32 ≤ sel ∨ numAt h 21 1 ≤ tri then .ok s none'
        else
          (readLeaf x s l va).andThen fun s b =>
            let v := numAt b (40 + 3 * tri + corner) 1
            .ok s ((leafVertex b v).map (BitVec.ofNat 32) ++ [BitVec.ofNat 32 v])) 4

end Sys2Proof.Machine
end

