-- ==== Sys2Proof/Machine/Dispatch.lean ====
section
/-! DEFINITION. exec: one arm per instruction of the opcode table, each one call of that instruction's meaning. -/
namespace Sys2Proof.Machine

def exec (i : Instr) (s : State) : Host.Outcome State Fault Refusal :=
  match i with
  | .iadd w => Sys2Proof.Machine.execIadd w s
  | .iaddI w => Sys2Proof.Machine.execIaddI w s
  | .isub w => Sys2Proof.Machine.execIsub w s
  | .iaddx w => Sys2Proof.Machine.execIaddx w s
  | .imul w => Sys2Proof.Machine.execImul w s
  | .imulI w => Sys2Proof.Machine.execImulI w s
  | .imulh w => Sys2Proof.Machine.execImulh w s
  | .imad w => Sys2Proof.Machine.execImad w s
  | .imadw w => Sys2Proof.Machine.execImadw w s
  | .idiv w => Sys2Proof.Machine.execIdiv w s
  | .irem w => Sys2Proof.Machine.execIrem w s
  | .imin w => Sys2Proof.Machine.execImin w s
  | .imax w => Sys2Proof.Machine.execImax w s
  | .iabs w => Sys2Proof.Machine.execIabs w s
  | .ineg w => Sys2Proof.Machine.execIneg w s
  | .iclamp w => Sys2Proof.Machine.execIclamp w s
  | .lea w => Sys2Proof.Machine.execLea w s
  | .add64 w => Sys2Proof.Machine.execAdd64 w s
  | .add64I w => Sys2Proof.Machine.execAdd64I w s
  | .sub64 w => Sys2Proof.Machine.execSub64 w s
  | .mov w => Sys2Proof.Machine.execMov w s
  | .movi w => Sys2Proof.Machine.execMovi w s
  | .movhi w => Sys2Proof.Machine.execMovhi w s
  | .sel w => Sys2Proof.Machine.execSel w s
  | .andB w => Sys2Proof.Machine.execAndB w s
  | .andBI w => Sys2Proof.Machine.execAndBI w s
  | .orB w => Sys2Proof.Machine.execOrB w s
  | .orBI w => Sys2Proof.Machine.execOrBI w s
  | .xorB w => Sys2Proof.Machine.execXorB w s
  | .xorBI w => Sys2Proof.Machine.execXorBI w s
  | .andnB w => Sys2Proof.Machine.execAndnB w s
  | .lop3 w => Sys2Proof.Machine.execLop3 w s
  | .shl w => Sys2Proof.Machine.execShl w s
  | .shlI w => Sys2Proof.Machine.execShlI w s
  | .shr w => Sys2Proof.Machine.execShr w s
  | .shrI w => Sys2Proof.Machine.execShrI w s
  | .shra w => Sys2Proof.Machine.execShra w s
  | .shraI w => Sys2Proof.Machine.execShraI w s
  | .rot w => Sys2Proof.Machine.execRot w s
  | .fshf w => Sys2Proof.Machine.execFshf w s
  | .bfx w => Sys2Proof.Machine.execBfx w s
  | .bfi w => Sys2Proof.Machine.execBfi w s
  | .popc w => Sys2Proof.Machine.execPopc w s
  | .clz w => Sys2Proof.Machine.execClz w s
  | .brev w => Sys2Proof.Machine.execBrev w s
  | .bperm w => Sys2Proof.Machine.execBperm w s
  | .icmp w => Sys2Proof.Machine.execIcmp w s
  | .icmpi w => Sys2Proof.Machine.execIcmpi w s
  | .plop w => Sys2Proof.Machine.execPlop w s
  | .pmovr w => Sys2Proof.Machine.execPmovr w s
  | .pmovp w => Sys2Proof.Machine.execPmovp w s
  | .bra w => Sys2Proof.Machine.execBra w s
  | .bri w => Sys2Proof.Machine.execBri w s
  | .loop w => Sys2Proof.Machine.execLoop w s
  | .call w => Sys2Proof.Machine.execCall w s
  | .calli w => Sys2Proof.Machine.execCalli w s
  | .ret w => Sys2Proof.Machine.execRet w s
  | .quit w => Sys2Proof.Machine.execQuit w s
  | .fork w => Sys2Proof.Machine.execFork w s
  | .gather w => Sys2Proof.Machine.execGather w s
  | .unpin w => Sys2Proof.Machine.execUnpin w s
  | .yield w => Sys2Proof.Machine.execYield w s
  | .sleep w => Sys2Proof.Machine.execSleep w s
  | .nop w => Sys2Proof.Machine.execNop w s
  | .pair w => Sys2Proof.Machine.execPair w s
  | .fadd w => Sys2Proof.Machine.execFadd w s
  | .faddI w => Sys2Proof.Machine.execFaddI w s
  | .fsub w => Sys2Proof.Machine.execFsub w s
  | .fmul w => Sys2Proof.Machine.execFmul w s
  | .fmulI w => Sys2Proof.Machine.execFmulI w s
  | .fma w => Sys2Proof.Machine.execFma w s
  | .fmin w => Sys2Proof.Machine.execFmin w s
  | .fmax w => Sys2Proof.Machine.execFmax w s
  | .fcmp w => Sys2Proof.Machine.execFcmp w s
  | .fclass w => Sys2Proof.Machine.execFclass w s
  | .frnd w => Sys2Proof.Machine.execFrnd w s
  | .fscale w => Sys2Proof.Machine.execFscale w s
  | .fcvt w => Sys2Proof.Machine.execFcvt w s
  | .fpack2 w => Sys2Proof.Machine.execFpack2 w s
  | .funpk2 w => Sys2Proof.Machine.execFunpk2 w s
  | .fma2 w => Sys2Proof.Machine.execFma2 w s
  | .fadd2 w => Sys2Proof.Machine.execFadd2 w s
  | .fmul2 w => Sys2Proof.Machine.execFmul2 w s
  | .fdot2 w => Sys2Proof.Machine.execFdot2 w s
  | .idot4 w => Sys2Proof.Machine.execIdot4 w s
  | .frcp w => Sys2Proof.Machine.execFrcp w s
  | .frsq w => Sys2Proof.Machine.execFrsq w s
  | .fsqrt w => Sys2Proof.Machine.execFsqrt w s
  | .fex2 w => Sys2Proof.Machine.execFex2 w s
  | .flg2 w => Sys2Proof.Machine.execFlg2 w s
  | .fsin w => Sys2Proof.Machine.execFsin w s
  | .fcos w => Sys2Proof.Machine.execFcos w s
  | .ftanh w => Sys2Proof.Machine.execFtanh w s
  | .fpxrd w => Sys2Proof.Machine.execFpxrd w s
  | .fpxset w => Sys2Proof.Machine.execFpxset w s
  | .shfl w => Sys2Proof.Machine.execShfl w s
  | .vote w => Sys2Proof.Machine.execVote w s
  | .redl w => Sys2Proof.Machine.execRedl w s
  | .scanl w => Sys2Proof.Machine.execScanl w s
  | .matchL w => Sys2Proof.Machine.execMatchL w s
  | .ld w => Sys2Proof.Machine.execLd w s
  | .st w => Sys2Proof.Machine.execSt w s
  | .ldl w => Sys2Proof.Machine.execLdl w s
  | .stl w => Sys2Proof.Machine.execStl w s
  | .ldsp w => Sys2Proof.Machine.execLdsp w s
  | .stsp w => Sys2Proof.Machine.execStsp w s
  | .lda w => Sys2Proof.Machine.execLda w s
  | .strel w => Sys2Proof.Machine.execStrel w s
  | .atom w => Sys2Proof.Machine.execAtom w s
  | .red w => Sys2Proof.Machine.execRed w s
  | .fence w => Sys2Proof.Machine.execFence w s
  | .pref w => Sys2Proof.Machine.execPref w s
  | .barinit w => Sys2Proof.Machine.execBarinit w s
  | .bararr w => Sys2Proof.Machine.execBararr w s
  | .barwait w => Sys2Proof.Machine.execBarwait w s
  | .barsync w => Sys2Proof.Machine.execBarsync w s
  | .barexp w => Sys2Proof.Machine.execBarexp w s
  | .barq w => Sys2Proof.Machine.execBarq w s
  | .cbinit w => Sys2Proof.Machine.execCbinit w s
  | .cbacq w => Sys2Proof.Machine.execCbacq w s
  | .cbrel w => Sys2Proof.Machine.execCbrel w s
  | .cbput w => Sys2Proof.Machine.execCbput w s
  | .cbq w => Sys2Proof.Machine.execCbq w s
  | .tlwait w => Sys2Proof.Machine.execTlwait w s
  | .tlq w => Sys2Proof.Machine.execTlq w s
  | .freeze w => Sys2Proof.Machine.execFreeze w s
  | .freezeL w => Sys2Proof.Machine.execFreezeL w s
  | .shape w => Sys2Proof.Machine.execShape w s
  | .shapeg w => Sys2Proof.Machine.execShapeg w s
  | .xacq w => Sys2Proof.Machine.execXacq w s
  | .xrel w => Sys2Proof.Machine.execXrel w s
  | .accgrow w => Sys2Proof.Machine.execAccgrow w s
  | .accfree w => Sys2Proof.Machine.execAccfree w s
  | .wload w => Sys2Proof.Machine.execWload w s
  | .wswap w => Sys2Proof.Machine.execWswap w s
  | .wtab w => Sys2Proof.Machine.execWtab w s
  | .wwait w => Sys2Proof.Machine.execWwait w s
  | .mmq w => Sys2Proof.Machine.execMmq w s
  | .accz w => Sys2Proof.Machine.execAccz w s
  | .accrd w => Sys2Proof.Machine.execAccrd w s
  | .accwr w => Sys2Proof.Machine.execAccwr w s
  | .drain w => Sys2Proof.Machine.execDrain w s
  | .drainst w => Sys2Proof.Machine.execDrainst w s
  | .wstat w => Sys2Proof.Machine.execWstat w s
  | .wbmap w => Sys2Proof.Machine.execWbmap w s
  | .fluesub w => Sys2Proof.Machine.execFluesub w s
  | .fluesubRst w => Sys2Proof.Machine.execFluesubRst w s
  | .evsig w => Sys2Proof.Machine.execEvsig w s
  | .evsigI w => Sys2Proof.Machine.execEvsigI w s
  | .evsigClr w => Sys2Proof.Machine.execEvsigClr w s
  | .evwait w => Sys2Proof.Machine.execEvwait w s
  | .evwaitI w => Sys2Proof.Machine.execEvwaitI w s
  | .evq w => Sys2Proof.Machine.execEvq w s
  | .spawn w => Sys2Proof.Machine.execSpawn w s
  | .tladv w => Sys2Proof.Machine.execTladv w s
  | .fillarg w => Sys2Proof.Machine.execFillarg w s
  | .fillput w => Sys2Proof.Machine.execFillput w s
  | .filldone w => Sys2Proof.Machine.execFilldone w s
  | .fillfail w => Sys2Proof.Machine.execFillfail w s
  | .geninv w => Sys2Proof.Machine.execGeninv w s
  | .cutsel w => Sys2Proof.Machine.execCutsel w s
  | .cutselRst w => Sys2Proof.Machine.execCutselRst w s
  | .rayq w => Sys2Proof.Machine.execRayq w s
  | .rayrd w => Sys2Proof.Machine.execRayrd w s
  | .sysrd w => Sys2Proof.Machine.execSysrd w s
  | .csrrd w => Sys2Proof.Machine.execCsrrd w s
  | .csrwr w => Sys2Proof.Machine.execCsrwr w s
  | .csrswp w => Sys2Proof.Machine.execCsrswp w s
  | .trap w => Sys2Proof.Machine.execTrap w s
  | .bkpt w => Sys2Proof.Machine.execBkpt w s
  | .tret w => Sys2Proof.Machine.execTret w s
  | .clock w => Sys2Proof.Machine.execClock w s
  | .perfrd w => Sys2Proof.Machine.execPerfrd w s
  | .pgbump w => Sys2Proof.Machine.execPgbump w s
  | .pgnew w => Sys2Proof.Machine.execPgnew w s
  | .tlbepoch w => Sys2Proof.Machine.execTlbepoch w s
  | .halt w => Sys2Proof.Machine.execHalt w s
  | .wsremap w => Sys2Proof.Machine.execWsremap w s
  | .monctlCfg w => Sys2Proof.Machine.execMonctlCfg w s
  | .monctlClr w => Sys2Proof.Machine.execMonctlClr w s
  | .monctlRd w => Sys2Proof.Machine.execMonctlRd w s
  | .batchMerge a b => Sys2Proof.Machine.execBatchMerge a b s
  | .parkResume b => Sys2Proof.Machine.execParkResume b s
  | .xsetReacquire b => Sys2Proof.Machine.execXsetReacquire b s
  | .sleepEnd b => Sys2Proof.Machine.execSleepEnd b s
  | .trapEntry b => Sys2Proof.Machine.execTrapEntry b s
  | .watchdog b => Sys2Proof.Machine.execWatchdog b s
  | .wloadComplete core => Sys2Proof.Machine.execWloadComplete core s
  | .wtabTableArrival core idx => Sys2Proof.Machine.execWtabTableArrival core idx s
  | .planeExchange core => Sys2Proof.Machine.execPlaneExchange core s
  | .passClose core => Sys2Proof.Machine.execPassClose core s
  | .passComplete core => Sys2Proof.Machine.execPassComplete core s
  | .preemptCluster cl => Sys2Proof.Machine.execPreemptCluster cl s
  | .clusterRestore => Sys2Proof.Machine.execClusterRestore s
  | .clusterPlace => Sys2Proof.Machine.execClusterPlace s
  | .classAging cl => Sys2Proof.Machine.execClassAging cl s
  | .slabConvert core => Sys2Proof.Machine.execSlabConvert core s
  | .slabReturn core => Sys2Proof.Machine.execSlabReturn core s
  | .triggerWrite v => Sys2Proof.Machine.execTriggerWrite v s
  | .graphRunStart ctx => Sys2Proof.Machine.execGraphRunStart ctx s
  | .nodeStart g n => Sys2Proof.Machine.execNodeStart g n s
  | .nodeSubmitDeferred g n => Sys2Proof.Machine.execNodeSubmitDeferred g n s
  | .nodeComplete g n => Sys2Proof.Machine.execNodeComplete g n s
  | .pipelineReassign g n => Sys2Proof.Machine.execPipelineReassign g n s
  | .nodeWaitRetry g n => Sys2Proof.Machine.execNodeWaitRetry g n s
  | .flueStream c => Sys2Proof.Machine.execFlueStream c s
  | .flueCopy c => Sys2Proof.Machine.execFlueCopy c s
  | .flueGatherrows c => Sys2Proof.Machine.execFlueGatherrows c s
  | .flueStore c => Sys2Proof.Machine.execFlueStore c s
  | .flueFillv c => Sys2Proof.Machine.execFlueFillv c s
  | .flueLoop c => Sys2Proof.Machine.execFlueLoop c s
  | .flueEndloop c => Sys2Proof.Machine.execFlueEndloop c s
  | .flueTlwait c => Sys2Proof.Machine.execFlueTlwait c s
  | .flueTladv c => Sys2Proof.Machine.execFlueTladv c s
  | .flueEvsig c => Sys2Proof.Machine.execFlueEvsig c s
  | .flueBararr c => Sys2Proof.Machine.execFlueBararr c s
  | .flueEnd c => Sys2Proof.Machine.execFlueEnd c s
  | .flueCmdInvalid c => Sys2Proof.Machine.execFlueCmdInvalid c s
  | .flueWindowDelivery c => Sys2Proof.Machine.execFlueWindowDelivery c s
  | .flueContextResume c => Sys2Proof.Machine.execFlueContextResume c s
  | .cutRun c => Sys2Proof.Machine.execCutRun c s
  | .fillPlace depth core => Sys2Proof.Machine.execFillPlace depth core s
  | .fillArrayBorrow b => Sys2Proof.Machine.execFillArrayBorrow b s
  | .fillTimeout r => Sys2Proof.Machine.execFillTimeout r s
  | .genEntrySubmit entry t1 => Sys2Proof.Machine.execGenEntrySubmit entry t1 s
  | .genEntryInvalidate entry t1 => Sys2Proof.Machine.execGenEntryInvalidate entry t1 s
  | .victimStoreConfig cfg v => Sys2Proof.Machine.execVictimStoreConfig cfg v s
  | .lineWriteback core line => Sys2Proof.Machine.execLineWriteback core line s
  | .remapStepEnd col => Sys2Proof.Machine.execRemapStepEnd col s
  | .bankRetire col bank => Sys2Proof.Machine.execBankRetire col bank s
  | .engineGate e => Sys2Proof.Machine.execEngineGate e s
  | .engineWake e => Sys2Proof.Machine.execEngineWake e s
  | .thermalTrip => Sys2Proof.Machine.execThermalTrip s
  | .ctxHalt c => Sys2Proof.Machine.execCtxHalt c s
  | .ctxHalted c => Sys2Proof.Machine.execCtxHalted c s
  | .ctxFreed c => Sys2Proof.Machine.execCtxFreed c s
  | .deviceReset => Sys2Proof.Machine.execDeviceReset s
  | .powerLoss => Sys2Proof.Machine.execPowerLoss s
  | .nonInstructionEncoding w => Sys2Proof.Machine.execNonInstructionEncoding w s
  | .recordLineArrival core => Sys2Proof.Machine.execRecordLineArrival core s
  | .padFail col pad => Sys2Proof.Machine.execPadFail col pad s
  | .powerInterval p => Sys2Proof.Machine.execPowerInterval p s
  | .ctxCreate c => Sys2Proof.Machine.execCtxCreate c s
  | .ctxResume c => Sys2Proof.Machine.execCtxResume c s
  | .ctxDestroy c => Sys2Proof.Machine.execCtxDestroy c s
  | .ctxTlset c id => Sys2Proof.Machine.execCtxTlset c id s
  | .ctxCmdInvalid c code => Sys2Proof.Machine.execCtxCmdInvalid c code s
  | .cmderrClear c => Sys2Proof.Machine.execCmderrClear c s
  | .registerWrite off v => Sys2Proof.Machine.execRegisterWrite off v s
  | .hostMemAccess a => Sys2Proof.Machine.execHostMemAccess a s
  | .peerAccess a => Sys2Proof.Machine.execPeerAccess a s
  | .linkFail link => Sys2Proof.Machine.execLinkFail link s
  | .vblank o => Sys2Proof.Machine.execVblank o s
  | .dpLinkTrain o rate lanes fits => Sys2Proof.Machine.execDpLinkTrain o rate lanes fits s
  | .attgo => Sys2Proof.Machine.execAttgo s
  | .firmwareImage img => Sys2Proof.Machine.execFirmwareImage img s
  | .linkRetry link up => Sys2Proof.Machine.execLinkRetry link up s
  | .hpdChange o present => Sys2Proof.Machine.execHpdChange o present s

end Sys2Proof.Machine
end

