-- ==== Sys2Proof/Machine/Enabled.lean ====
section
/-! DEFINITION. What may happen next: the words that the quadrants select (R55), the steps of the hardware that are due,
the next input from outside, a fatal error to be delivered, and the passing of an ac; and how a word is issued. -/
namespace Sys2Proof.Machine
open Sys2Proof

/-- One move of the machine. -/
inductive Move where
  | issue (b : Nat)
  | event (i : Instr)
  | input
  | deliver
  | tick
  /-- an access of an outstanding load is performed late (R318) -/
  | perform (b i : Nat)
  /-- a held store is performed (R318) -/
  | performStore (b i : Nat)
  /-- the hardware holds a batch's further stores, or no longer does (R318) -/
  | defer (b : Nat)
  /-- a batch fetches a word ahead (R495) -/
  | fetchAhead (b : Nat)
  /-- a line leaves an L1 for want of a way (R272) -/
  | replace (core key : Nat)
deriving DecidableEq, Repr

/-! ### Issue (R55, R56, R64, R75) -/

/-- The word has not issued yet: its fetch waits. -/
def fetchWaits (b : Batch) : Bool :=
  match b.block with
  | some (.fetch _ _) => true
  | _ => false

/-- The next word of the batch would only park it (R62): it does not issue yet. -/
def parksOnly (s : State) (b : Batch) : Bool :=
  outstanding s b && (match fetchWord s b with
    | .word u w => (match exec (decodeWord w) { u with cur := b.id } with
      | .next t => findBatch t b.id == some { b with parked := true, parkedAt := s.clock }
      | _ => false)
    | _ => false)

/-- The batch is marked as the one whose word executes, and as having issued in this ac where it does (R55). -/
def beginIssue (s : State) (b : Batch) : State :=
  if (b.block.isSome && !fetchWaits b) || parksOnly s b then { s with cur := b.id }
  else
    let s := if fetchWaits b then endWait s b else s
    let s := modCore s b.core fun k => { k with quadLast := kvSet k.quadLast (b.slot / 8) s.clock }
    { modBatch s b.id fun c => { c with
        lastIssue := s.clock
        issued := some s.clock
        block := if fetchWaits b then none else c.block } with cur := b.id }

/-- A fetch waits at its home: the word has not issued, and its bits are not known (log 16). -/
def fetchWait (s u : State) (b : Batch) (f g : Nat) : State :=
  let (w, s) := freeVal { s with fills := u.fills, nextId := u.nextId }
  blockOn (modBatch s b.id fun c => { c with word := w }) b.id (.fetch f g)

/-- Issues the next word of a batch: fetch, REG_WINDOW after a restore (R53), decode and execute. The bytes of a word
that cannot be fetched are nowhere given: WORD of that trap is a free value (log 16). -/
def issueWord (s : State) (id : Nat) : Host.Outcome State Fault Refusal :=
  match findBatch s id with
  | none => .refused .noBatch
  | some b =>
    match fetchWord (beginIssue s b) b with
    | .fault s c =>
      let (w, s) := freeVal s
      .next (raise s id { cause := c, rpc := b.pc, word := w })
    | .wait u k => .next (match k with
      | .home f g => fetchWait s u b f g
      | k => blockOn u id k)
    | .word s w =>
      let s := if b.restored then modBatch s id fun c => { c with restored := false } else s
      if b.restored ∧ windowLimit s b < b.wb + 8 then .next (raise s id { cause := .regWindow, rpc := b.pc, word := w })
      else exec (decodeWord w) s

/-- Planes of a cluster that was restored onto a lent array are still to be reloaded, at the end of the fill that has it. -/
def lentUnread (k : Core) : Bool :=
  k.lentRestored && k.lent.any fun p => p.1.state == 2 || p.2.1.state == 2

/-- Whether the words of a batch may issue at all: its context is RESIDENT, or it is a fill task, which runs on; and its
cluster's planes on the core are not being reloaded (R222), nor its array gated (R374). -/
def canRun (s : State) (b : Batch) : Bool :=
  let c := crewD s b.crew
  let k := coreD s b.core
  (c.fill.isSome || (ctxD s b.ctx).state == .resident) &&
    !(k.array == some c.cluster && c.fill.isNone &&
      (!k.reloads.isEmpty || k.load.any (·.reload) || lentUnread k || isGated s (.array b.core)))

/-- Whether a quadrant can issue in this ac (R37, R55, R488). -/
def quadrantFree (s : State) (core q : Nat) : Bool :=
  let k := coreD s core
  !isGated s (.quadrant core q) && kvGet k.quadLast q != some s.clock && (match kvGet k.quadHold q with
    | some h => decide (h < s.clock)
    | none => true)

/-- A fetch that waited at its home may be tried again. -/
def fetchReady (s : State) (b : Batch) : Bool :=
  fetchWaits b && (match fetchWord s b with
    | .wait _ _ => false
    | _ => true)

/-- The next word of a batch is an MMQ. -/
def atMmq (s : State) (b : Batch) : Bool :=
  match fetchWord s b with
  | .word _ w => (match decodeWord w with
    | .mmq _ => true
    | _ => false)
  | _ => false

/-- The next word of a batch is an MMQ with which its core would hold more than 32 quarters: it is not ready (R208). -/
def mmqOver (s : State) (b : Batch) : Bool :=
  decide (28 < coreQuarters s b.core) && atMmq s b && (match issueWord s b.id with
    | .next t => (findBatch t b.id).any fun c => c.block == some (.array 3)
    | _ => false)

/-- An MMQ joins its pass after those of lower slots of its core that issue in the same ac (R208). -/
def afterLower (s : State) (ready : List Batch) (b : Batch) : Bool :=
  atMmq s b && ready.any fun c => c.core == b.core && decide (c.slot < b.slot) && atMmq s c

/-- Ready batches (R55): a sleep, or the 12 ac of a trap entry, is over at its ac (R123, R457). The pipes that a word needs are
free: a quadrant issues one word in an ac, and the spec lets no word hold a pipe for longer (R37 holds the quadrant). -/
def readyBatch (s : State) (b : Batch) : Bool :=
  (b.block.isNone || fetchReady s b) && !b.parked && b.trap.isNone && decide (b.wake ≤ s.clock) && !b.reacquire &&
    canRun s b && !mmqOver s b && (match b.issued with
    | some t => decide (t + 4 ≤ s.clock)
    | none => true)

/-- The lowest live lane of a batch. -/
def lowLane (b : Batch) : Nat := ((liveLanes b).min?).getD 32

/-- The choice of R55 among a quadrant's ready batches: of the parts of one slot, the one with the lower lowest live lane
(R111). -/
def selectIn (s : State) (c0 : List Batch) : List Batch :=
  let top := (c0.map fun b => crewClass s b.crew).foldl max 0
  let c1 := c0.filter fun b => crewClass s b.crew == top
  let held := c1.filter fun b => b.pin.isSome || holdsXSet s b
  let c2 := if held.isEmpty then c1 else held
  let oldest := c2.filter fun b => c2.all fun d => decide (b.lastIssue ≤ d.lastIssue)
  let slot := oldest.filter fun b => oldest.all fun d => decide (b.slot ≤ d.slot)
  slot.filter fun b => slot.all fun d => decide (lowLane b ≤ lowLane d)

/-- The batches that the quadrants would issue from in this ac. -/
def selected (s : State) : List Batch :=
  let quads := (s.batches.map fun b => (b.core, b.slot / 8)).eraseDups
  quads.flatMap fun q =>
    if quadrantFree s q.1 q.2 then
      selectIn s (s.batches.filter fun b => b.core == q.1 && b.slot / 8 == q.2 && readyBatch s b)
    else []

/-- A fill task has run for its 1 ms (R391). -/
def fillOver (s : State) (f : Fill) : Bool := f.state == .running && decide (f.start + fillTimeout ≤ s.clock)

/-- A limit is reached at this ac: of a fill task (R391), or of a watchdog's count (R265, R465). Its step comes before the ac passes,
and before any word that it ends. -/
def limitDue (s : State) : Bool :=
  s.fills.any (fillOver s) || s.batches.any (watchdogDue s) || s.crews.any fun c => !(overdueMembers s c).isEmpty

/-- A batch whose fill task has run for its 1 ms issues no further word. -/
def fillEnded (s : State) (b : Batch) : Bool := (crewD s b.crew).fill.any fun id => (findFill s id).any (fillOver s)

/-- A blocked word is issued again when that moves it: its wait is over, it has another wait, or it asks for a new fill. -/
def retryMoves (s : State) (b : Batch) : Bool :=
  b.block.isSome && !fetchWaits b && !b.parked && b.trap.isNone && !b.reacquire && canRun s b && !fillEnded s b && (match issueWord s b.id with
    | .next t => t.fills != s.fills || (match findBatch t b.id with
      | some c => c.block != b.block || c.fillWait != b.fillWait
      | none => true)
    | _ => true)

/-! ### Steps of the hardware that are due -/

/-- Whether an event changes anything but the counters of free values. -/
def changes (s : State) (i : Instr) : Bool :=
  match exec i s with
  | .next t => decide ({ t with free := s.free, nextId := s.nextId } ≠ s)
  | _ => false

def whenDue (c : Bool) (i : Instr) : List Move := if c then [.event i] else []

/-- Steps of a batch. -/
def batchMoves (s : State) (b : Batch) : List Move :=
  whenDue (parkOver s b) (.parkResume b.id) ++ whenDue (sleepOver s b) (.sleepEnd b.id) ++
    whenDue (entryDue s b) (.trapEntry b.id) ++ whenDue (reacquired s b).isSome (.xsetReacquire b.id) ++
    whenDue (watchdogDue s b) (.watchdog b.id) ++
    whenDue (b.block == some (.array 2) && changes s (.fillArrayBorrow b.id)) (.fillArrayBorrow b.id) ++
    (s.batches.filter (canMerge s b)).map (fun c => .event (.batchMerge b.id c.id))

/-- Steps of a core's matrix side, and the write-back of its dirty lines. -/
def coreMoves (s : State) (k : Core) (i : Nat) : List Move :=
  (match k.load with
  | none => []
  | some l =>
    whenDue (changes s (.recordLineArrival i)) (.recordLineArrival i) ++
      (List.range l.tables.length).flatMap (fun j => whenDue (changes s (.wtabTableArrival i j)) (.wtabTableArrival i j)) ++
      whenDue (loadedPlane s.clock (checkParity s i l)).isSome (.wloadComplete i)) ++
    whenDue (k.swap && k.passes.isEmpty) (.planeExchange i) ++
    whenDue (k.passes.any fun p => !p.closed && decide (p.opened + 4 ≤ s.clock)) (.passClose i) ++
    whenDue (k.passes.head?.any (·.closed)) (.passComplete i) ++
    ((k.l1.filter fun p => p.2.dirty != 0).map fun p => .event (.lineWriteback i p.1)) ++
    (if l1Full k then k.l1.map fun p => .replace i p.1 else [])

/-- What the passing of an ac waits for: an L1 that holds more lines than its ways (R272), a dirty line whose 65,536 ac are
over (R331), and a pass in its fourth ac (R208). -/
def coreHolds (s : State) (k : Core) : Bool :=
  l1Over k || (k.l1.any fun p => p.2.dirty != 0 && decide (p.2.since + 65536 ≤ s.clock)) ||
    k.passes.any fun p => !p.closed && decide (p.opened + 4 ≤ s.clock)

/-- What a batch may do besides the steps that are due: accesses of its outstanding loads and stores (R318), and words that it fetches ahead
while its next word does not issue (R495); from the second ac on, the change between performing its stores at their words and later
(log 34). -/
def freeMoves (s : State) (ready : List Nat) (b : Batch) : List Move :=
  (((List.range b.loads.length).filter fun i => (performsWith s b i).all (canPerform s b)).map fun i => .perform b.id i) ++
    (((List.range b.stores.length).filter fun i => canStore s b i).map fun i => .performStore b.id i) ++
    (if s.clock = 0 then [] else [.defer b.id]) ++ (if ready.contains b.id then [] else [.fetchAhead b.id])

/-- The next context of an engine in its round-robin order, among the keys that can run (R290). -/
def nextTurn (s : State) (engine : Nat) (keys : List Nat) : Option Nat :=
  match kvGet s.turns engine with
  | none => keys.head?
  | some t => (keys.find? fun k => decide (t < k)).or keys.head?

/-- The step that runs a Flue context's current command. -/
def flueMove (s : State) (k : Nat) (f : FlueCtx) : Instr :=
  match flueOp s f with
  | some 1 => if f.work.isNone then .flueStream k else .flueWindowDelivery k
  | some 2 => .flueCopy k
  | some 3 => .flueGatherrows k
  | some 4 => .flueStore k
  | some 5 => .flueFillv k
  | some 6 => .flueLoop k
  | some 7 => .flueEndloop k
  | some 8 => .flueTlwait k
  | some 9 => .flueTladv k
  | some 10 => .flueEvsig k
  | some 11 => .flueBararr k
  | some 12 => .flueEnd k
  | _ => .flueCmdInvalid k

/-- The turns of the Flue engines and the contexts that can go on. -/
def flueMoves (s : State) : List Move :=
  let engines := (s.flues.map (·.2.engine)).eraseDups
  (engines.flatMap fun e =>
    let run := s.flues.filter fun p => p.2.engine == e && p.2.state == 1 && !p.2.queue.isEmpty
    if isGated s (.flue e) then []
    else match nextTurn s e (run.map (·.1)) with
      | none => []
      | some k => ((run.find? fun p => p.1 == k).map fun p => Move.event (flueMove s k p.2)).toList) ++
  (s.flues.filter fun p => (p.2.state == 2 || p.2.state == 4) && flueCanMove s p.1 p.2).map
    fun p => .event (.flueContextResume p.1)

/-- The turns of the Splitters. -/
def splitMoves (s : State) : List Move :=
  let engines := (s.splits.map (·.2.engine)).eraseDups
  engines.flatMap fun e =>
    let run := s.splits.filter fun p => p.2.engine == e && !p.2.queue.isEmpty &&
      (p.2.state == 1 || (p.2.state == 2 && cutCanMove s p.2))
    if isGated s (.splitter e) then []
    else match nextTurn s (64 + e) (run.map (·.1)) with
      | none => []
      | some k => [.event (.cutRun k)]

/-- The Hearth's steps. -/
def fillMoves (s : State) : List Move :=
  ([1, 2].flatMap fun d => match nextFill s d with
    | none => []
    | some f => ((List.range s.cores.length).filter fun k => fillFits s k f).map fun k => Move.event (.fillPlace d k)) ++
  (s.fills.filter (fillOver s)).map
    fun f => .event (.fillTimeout f.id)

/-- The next context whose trigger queue can be served, in round-robin order (R367). -/
def triggerMoves (s : State) : List Move :=
  let cs := (List.range 64).map fun i => (s.trigTurn + 1 + i) % 64
  match cs.find? fun c => (nextTrigger s c).isSome with
  | none => []
  | some c => [.event (.graphRunStart c)]

/-- The steps of the runs' nodes. -/
def nodeMoves (s : State) : List Move :=
  s.runs.flatMap fun r => r.nodes.flatMap fun p =>
    whenDue ((nodeTurn s r p.1).isSome && changes s (.nodeStart r.id p.1)) (.nodeStart r.id p.1) ++
      whenDue (deferredCanMove s r p.2) (.nodeSubmitDeferred r.id p.1) ++
      whenDue (nodeOver r p.2) (.nodeComplete r.id p.1) ++
      whenDue (!p.2.unreg.isEmpty && waitCanRetry s r.id p.1) (.nodeWaitRetry r.id p.1) ++
      whenDue ((pipeAdmit s r p.1 p.2).any fun a => allConverted a.2.2.2 a.2.2.1) (.pipelineReassign r.id p.1)

/-- Placement, aging, pre-emption and slabs. Ranks are those of this ac: a cluster due to rise rises before any is placed
(R375). -/
def placeMoves (s : State) : List Move :=
  let place := if needsYield s || s.clusters.any (agingDue s) then [] else match nextStep s with
    | some (.inl (_, cc, .fresh p u)) => whenDue (allConverted (.fresh p u) cc) .clusterPlace
    | some (.inl (_, cc, .back p u)) => whenDue (allConverted (.back p u) cc) .clusterRestore
    | some (.inr _) => [.event .clusterPlace]
    | none => []
  let waits := !(waitingAdmissions s).isEmpty
  place ++ whenDue (needsYield s) .clusterPlace ++
    (s.clusters.filter (agingDue s)).map (fun k => .event (.classAging k.id)) ++
    (s.clusters.filter (preemptDue s)).map (fun k => .event (.preemptCluster k.id)) ++
    s.cores.zipIdx.flatMap fun p =>
      whenDue (waits && convertDue s p.2) (.slabConvert p.2) ++
        whenDue (p.1.scratchSlabs != 0 && returnDue s p.2) (.slabReturn p.2)

/-- The ends of halts and destructions. -/
def ctxMoves (s : State) : List Move :=
  s.ctxs.zipIdx.flatMap fun p =>
    whenDue (p.1.state == .halting && haltedDue s p.2) (.ctxHalted p.2) ++
      whenDue (p.1.state == .destroying && freedDue s p.2) (.ctxFreed p.2)

/-- The engines of Table 24-1. -/
def allEngines (s : State) : List Engine :=
  (List.range s.cores.length).flatMap (fun k =>
    [.quadrant k 0, .quadrant k 1, .quadrant k 2, .quadrant k 3, .array k, .ray k, .slice k]) ++
  (List.range 64).map .flue ++ [.splitter 0, .splitter 1, .tier 0, .tier 1, .tier 2, .tier 3]

/-- Gating (R488), from the shortest delay on, and the wake of a gated engine that is asked. -/
def gateMoves (s : State) : List Move :=
  (if s.clock < 1900 then [] else ((allEngines s).filter (gateDue s)).map fun e => .event (.engineGate e)) ++
    (s.power.gated.filter fun e => !engineIdle s e).map fun e => .event (.engineWake e)

/-- The rest of the device. -/
def deviceMoves (s : State) : List Move :=
  ((s.remaps.map (·.col)).eraseDups).flatMap (fun c => whenDue (changes s (.remapStepEnd c)) (.remapStepEnd c)) ++
    s.bankDue.map (fun b => .event (.bankRetire (b / 128) (b % 128))) ++
    whenDue (tripDue s) .thermalTrip ++ whenDue s.ident.attgo .attgo

/-- Whether the next input can be taken: a thermal trip comes before it (R487), an access of a bus agent and the read of a flip record
wait out a remap step (R482), a generator's entry waits while
the read of its header does (R381). -/
def inputReady (s : State) : Bool :=
  !tripDue s && match s.agenda with
  | [] => false
  | .hostMemAccess a :: _ => busRange s false a.pa (busBytes a.op) != .waits
  | .peerAccess a :: _ => busRange s true a.pa (busBytes a.op) != .waits
  | .vblank o :: _ => !flipWaits s o
  | .genEntrySubmit i t1 :: r => submitReady s i t1 || (match exec (.genEntrySubmit i t1) { s with agenda := r } with
      | .next t => decide ({ t with free := s.free, nextId := s.nextId } ≠ s)
      | _ => false)
  | _ :: _ => true

/-- What the hardware may do next besides issuing. -/
def dueMoves (s : State) : List Move :=
  (if inputReady s then [.input] else []) ++
    (s.crews.filter fun c => !(overdueMembers s c).isEmpty).map (fun c => .event (.watchdog c.uid)) ++
    s.batches.flatMap (batchMoves s) ++ s.cores.zipIdx.flatMap (fun p => coreMoves s p.1 p.2) ++
    flueMoves s ++ splitMoves s ++ fillMoves s ++ triggerMoves s ++ nodeMoves s ++ placeMoves s ++ ctxMoves s ++
    deviceMoves s ++ gateMoves s

/-- Every move that may come next. A fatal error that is pending is delivered before anything else (R456, R461). An ac passes
only when no quadrant can issue in it and nothing of a core is left that this ac must see. -/
def enabled (s : State) : List Move :=
  if !s.posted.isEmpty then [.deliver]
  else
    let sel := (selected s).filter fun b => !fillEnded s b
    let ready := sel.map (·.id)
    let issuers := sel ++ s.batches.filter fun b => !watchdogDue s b && retryMoves s b
    (issuers.filter fun b => !afterLower s issuers b).map (fun b => .issue b.id) ++ dueMoves s ++ s.batches.flatMap (freeMoves s ready) ++
      (if ready.isEmpty && !s.cores.any (coreHolds s) && !s.batches.any (storeDue s) && !limitDue s && !tripDue s then [.tick] else [])

/-- Makes a move. -/
def perform (s : State) (m : Move) : Host.Outcome State Fault Refusal :=
  match m with
  | .issue b => issueWord s b
  | .event i => exec i s
  | .input =>
    match s.agenda with
    | [] => .next s
    | i :: r => exec i { s with agenda := r }
  | .deliver =>
    match s.posted with
    | [] => .next s
    | (ctx, crew, code) :: r => .next (fatalError { s with posted := r } ctx crew code)
  | .tick => .next (tickClock s)
  | .perform b i => .next (performLoad s b i)
  | .performStore b i => .next (performLate s b i)
  | .defer b => .next (deferStores s b)
  | .fetchAhead b => .next (fetchAhead s b)
  | .replace core key => .next (replaceLine s core key)

end Sys2Proof.Machine
end

