-- ==== Sys2Proof/Machine/Step.lean ====
section
/-! DEFINITION. One step of the device, and the state in which the next step runs a given word. -/
namespace Sys2Proof.Machine
open Sys2Proof

/-- One step: the move that may come next, or one of several, chosen freely (log 2). -/
def step (s : State) : Host.Outcome State Fault Refusal :=
  match enabled s with
  | [m] => perform s m
  | ms => perform (freePick s ms.length).2 (ms.getD (freePick s ms.length).1 .tick)

/-! ### A state that runs a given word (log 17) -/

/-- The launch header of the crew that runs the word: 256 registers, 16 barriers, 16 buffers, 8 tiles, 4 KiB of scratch. -/
def fetchHeader : List W64 :=
  [0x200000, 32 * 2 ^ 21 + 8 * 2 ^ 35 + 16 * 2 ^ 42 + 16 * 2 ^ 47, 4096, 0x2A, 0, 0, 0, 0, 0, 0, 32, 1, 1, 1, 1, 1] ++
    List.replicate 16 0

/-- The page tables of the state: one leaf of 1 GiB at VA 0, with every permission. -/
def fetchTables : List (Nat × Nat) := [(0x1000, 0x2001), (0x2000, 0x3001), (0x3000, 0x3EB)]

/-- Writes eight bytes into a table of cells. -/
def putCells (m : List Host.Cell) (pa v : Nat) : List Host.Cell :=
  ((leBytes 8 v).zipIdx).foldl (fun m p => kvPut 0 m (pa + p.2) p.1) m

/-- The state with one batch of one crew about to issue the word at VA 0x200000 on core 0, in privileged mode, every
lane live and every predicate true, and nothing else that could move first. -/
def State.withFetchWord (s : State) (nbits w : Nat) : State :=
  let v := w % 2 ^ min nbits 64
  let mem := (fetchTables ++ [(0x200000, v)]).foldl (fun m (p : Nat × Nat) => putCells m p.1 p.2) s.mem
  let line : L1Line := {
    cls := 0, ros := false, gen := 0, stale := false, pgen := 0, dirty := 0, colours := 0
    bytes := (List.range 128).map fun i => kvGetD mem (0x200000 + i) 0
    fl := none, owner := (0, 0) }
  let crew : Crew := {
    uid := s.nextId, id := 1, ctx := 0, cluster := 0, rank := 0, core := 0, hdr := fetchHeader, slots := [0]
    granules := [0], scratchBytes := 4096, tiles := List.replicate 8 {}, barriers := List.replicate 16 {}
    cbs := List.replicate 16 {} }
  let fibre : Fibre := { pw := 0xFFFFFFFF }
  let batch : Batch := {
    id := s.nextId + 1, core := 0, slot := 0, crew := s.nextId, row := 0, ctx := 0
    fibres := (List.range 32).map fun l => (l, { fibre with wid := BitVec.ofNat 64 l })
    wb := 0, pc := 0x200000, regs := List.replicate 256 (.u 0), kregs := List.replicate 32 (.u 0), priv := true, pin := none
    regionStart := 0x200000, newRegion := true, gatherAt := none, window := [], retbuf := [], parked := false, parkedAt := 0
    block := none, blockedAt := 0, trap := none, wake := 0, lastIssue := 0, reacquire := false }
  let ctx : Context := { state := .resident, ptroot := 0x1000, tvec := 0x300000, evrange := 0xFFFF0000, sys := true, nextCrew := 2 }
  { s with
    clock := 0
    cores := { l1 := [(0x4000, line)] } :: List.replicate 127 {}
    batches := [batch]
    xsets := []
    crews := [crew]
    clusters := []
    ctxs := ctx :: List.replicate 63 {}
    mem := mem
    pageGen := []
    zeroMask := []
    waiters := []
    fills := []
    runs := []
    flues := []
    splits := []
    bankDue := []
    remaps := []
    power := {}
    ident := { s.ident with attgo := false }
    posted := []
    gone := []
    parked := []
    upsets := []
    backlog := []
    homeAsks := []
    agenda := []
    nextId := s.nextId + 2 }

end Sys2Proof.Machine
end

