-- ==== Sys2Proof/Safety.lean ====
section
/-! DEFINITION. What counts as a safe state and a safe step, in the terms that the statements use: canonical memory, a
word that is ready to have its own effect, and what the retirement of a word does and leaves alone. -/
namespace Sys2Proof.Machine
open Sys2Proof

/-- Memory is in canonical form: addresses rise strictly and no listed byte is zero (log 4). -/
abbrev Memory.wf (m : List Host.Cell) : Prop := kvWf 0 m = true

/-- Memory and the zero mask are in canonical form. -/
def State.canonical (s : State) : Prop := Memory.wf s.mem ∧ kvWf 0 s.zeroMask = true

/-- The device has its 128 cores and 64 context slots (R1, R440). -/
def State.sized (s : State) : Prop := s.cores.length = 128 ∧ s.ctxs.length = 64

/-- The outcome of a step is a next state. -/
def Completes (o : Host.Outcome State Fault Refusal) : Prop := ∃ t, o = .next t

/-- A byte of memory as the home holds it (R438). -/
def memByte (s : State) (pa : Nat) : Byte := homeByte s pa

/-! ### A word that is ready -/

/-- The batch once its word has begun: the region that the word starts (R259), to which the results and the stores that are
outstanding do not belong (R262). -/
def begunBatch (b : Batch) (rgn : Bool) : Batch :=
  if rgn || b.newRegion then
    { b with regionStart := b.pc, newRegion := false, gatherAt := none, owed := b.retbuf.length, storesOwed := b.stores.length }
  else b

/-- The word of the current batch `b` comes to its own effect: some lane is active (R75), the batch need not park first
(R62), and no check of Table 03-7 fails. -/
structure Ready (s : State) (b : Batch) (act : List Nat) (sp : Spec) (pairOk : Bool) : Prop where
  cur : findBatch s s.cur = some b
  active : act ≠ []
  free : mustPark s b act sp = false
  legal : decodeFault s b act sp pairOk = none
  whole : readFault s b act sp = none

/-- The active lanes of an F-form word (R66). -/
abbrev actF (b : Batch) (w : FWord) : List Nat := activeLanes b (guardFI w.gp w.gn)
/-- The active lanes of an I-form word (R67). -/
abbrev actI (b : Batch) (w : IWord) : List Nat := activeLanes b (guardFI w.gp w.gn)
/-- The active lanes of a P-form word (R68). -/
abbrev actP (b : Batch) (w : PWord) : List Nat := activeLanes b (guardP w.pg)

/-- What an F-form word's own effect starts from. -/
def fExec (s : State) (b : Batch) (w : FWord) (sp : Spec) : Exec :=
  ⟨startRegion (holdQuad s b sp) b sp.rgn, begunBatch b sp.rgn, actF b w, sp⟩

/-- What an I-form word's own effect starts from. -/
def iExec (s : State) (b : Batch) (w : IWord) (sp : Spec) : Exec :=
  ⟨startRegion s b sp.rgn, begunBatch b sp.rgn, actI b w, sp⟩

/-- What a P-form word's own effect starts from. -/
def pExec (s : State) (b : Batch) (w : PWord) (sp : Spec) : Exec :=
  ⟨startRegion s b sp.rgn, begunBatch b sp.rgn, actP b w, sp⟩

/-! ### Retirement -/

/-- The batch has a register of this absolute name: in its base set, in the extended set that it holds, or a k register. -/
def Holds (b : Batch) (i : Nat) : Prop :=
  if 512 ≤ i then i - 512 < b.kregs.length
  else if i < b.regs.length then True
  else i - b.regs.length < b.xregs.length

/-- A crew without what every retiring word may change in it: its counters and flags. -/
def Crew.bare (c : Crew) : Crew := { c with counters := [], fpStat := 0 }

/-- The word of `x` retires from the state `s`, in which its batch is `b`, into `t`, with these results: the frame of
every word whose own effect is done (R56 to R62, R64, R76). -/
structure Retires (x : Exec) (s t : State) (b c : Batch) (regs : List (Nat × RegVal)) (preds : List (Nat × W32)) (fl : LaneFlags) :
    Prop where
  /-- the batch goes on at the next word, and of its other parts only these may change -/
  now : findBatch t b.id = some c
  pc : c.pc = b.pc + 8
  same : c = { b with
    pc := c.pc, block := none, fillWait := [], regs := c.regs, kregs := c.kregs, xregs := c.xregs
    window := c.window, retbuf := c.retbuf, fibres := c.fibres
    parked := c.parked, parkedAt := c.parkedAt, newRegion := c.newRegion, gatherAt := c.gatherAt, owed := c.owed
    storesOwed := c.storesOwed }
  /-- the results outstanding at a region's close are owed by it, even to a pre-emption (R163, R262) -/
  owed : c.owed = if x.sp.closes then c.retbuf.length else b.owed
  /-- and so are the stores that are still to be performed (R262, R332) -/
  storesOwed : c.storesOwed = if x.sp.closes then b.stores.length else b.storesOwed
  /-- every result of fixed latency is what the next word reads, in every active lane -/
  wrote : x.sp.var = false → (regs.map (·.1)).Nodup → ∀ p ∈ regs, (x.sp.eph = false → Holds b p.1) →
    ∀ l ∈ x.act, l < 32 → laneVal (readReg t c p.1) l = laneVal p.2 l
  /-- a result of variable latency is in the return buffer -/
  late : x.sp.var = true → c.retbuf = b.retbuf ++ (if regs.isEmpty then [] else [.result (maskOf x.act) regs fl])
  /-- every other register keeps its value, and every register keeps it under an ephemeral or a late result -/
  kept : ∀ i, (∀ p ∈ regs, p.1 ≠ i) ∨ x.sp.var = true ∨ x.sp.eph = true → bankReg t c i = bankReg s b i
  /-- predicates change by their results alone, in the active lanes -/
  pred_wrote : (preds.map (·.1)).Nodup → ∀ p ∈ preds, p.1 < 32 → ∀ l ∈ x.act, predBit (fibreOf c l).pw p.1 = p.2.getLsbD l
  pred_kept : ∀ n l, (l ∉ x.act ∨ ∀ p ∈ preds, p.1 ≠ n) → predBit (fibreOf c l).pw n = predBit (fibreOf b l).pw n
  fibre_same : ∀ l, { fibreOf c l with pw := 0 } = { fibreOf b l with pw := 0 }
  lanes_only : c.fibres.map (·.1) = b.fibres.map (·.1)
  /-- no other batch changes, nor any crew but for its counters, its flags and, where the region closes, its tiles -/
  others : ∀ id, id ≠ b.id → findBatch t id = findBatch s id
  crews : x.sp.closes = false → t.crews.map Crew.bare = s.crews.map Crew.bare
  /-- the word's FP flags join those of its ac, now where its results have fixed latency (R76, R150) -/
  flags : t.crews.map (fun k => (k.uid, k.fpStat)) = s.crews.map fun k =>
    (k.uid, if x.sp.var = false ∧ k.uid = x.b.crew then k.fpStat ||| allFlags fl else k.fpStat)
  /-- nothing else changes: memory, caches, contexts, events, engines and every register of the device -/
  rest : t = { s with
    batches := t.batches, crews := t.crews, monitors := t.monitors, upsets := t.upsets, ivCopy := t.ivCopy }

/-- The word retires with these results from where its own effect starts. -/
def Yields (x : Exec) (t : State) (regs : List (Nat × RegVal)) (preds : List (Nat × W32)) (fl : LaneFlags) : Prop :=
  ∃ c, Retires x x.s t x.b c regs preds fl

end Sys2Proof.Machine
end

