-- ==== Sys2Proof/Laws/Table.lean ====
section
/-! SUPPORT. Laws of the sparse tables: reading after a write, and the canonical form that every write keeps. -/
namespace Sys2Proof.Machine
open Sys2Proof

theorem listMod_length {α : Type} (l : List α) (i : Nat) (f : α → α) : (listMod l i f).length = l.length := by
  induction l generalizing i with
  | nil => rfl
  | cons a l ih => cases i <;> simp [listMod, ih]

theorem listMod_getD {α : Type} (l : List α) (i j : Nat) (f : α → α) (d : α) :
    (listMod l i f).getD j d = if j = i ∧ j < l.length then f (l.getD j d) else l.getD j d := by
  induction l generalizing i j with
  | nil => simp [listMod]
  | cons a l ih =>
    cases i with
    | zero => cases j <;> simp [listMod]
    | succ i =>
      cases j with
      | zero => simp [listMod]
      | succ j =>
        have := ih i j
        simp only [List.getD_cons_succ, listMod, List.length_cons] at this ⊢
        rw [this]
        simp

/-! ### Rising keys -/

/-- Every key of a table is above a bound. -/
def KeysAbove {α : Type} (k : Nat) (t : List (Nat × α)) : Prop := ∀ p ∈ t, k < p.1

theorem kvSorted_cons {α : Type} (p : Nat × α) (t : List (Nat × α)) :
    kvSorted (p :: t) = true ↔ KeysAbove p.1 t ∧ kvSorted t = true := by
  induction t generalizing p with
  | nil => simp [kvSorted, KeysAbove]
  | cons q t ih =>
    simp only [kvSorted, Bool.and_eq_true, decide_eq_true_eq]
    constructor
    · rintro ⟨h1, h2⟩
      refine ⟨?_, h2⟩
      intro r hr
      rcases List.mem_cons.mp hr with rfl | hr
      · exact h1
      · exact Nat.lt_trans h1 (((ih q).mp h2).1 r hr)
    · rintro ⟨h1, h2⟩
      exact ⟨h1 q List.mem_cons_self, h2⟩

theorem mem_kvSet {α : Type} (t : List (Nat × α)) (k : Nat) (v : α) : ∀ p ∈ kvSet t k v, p = (k, v) ∨ p ∈ t := by
  induction t with
  | nil => simp [kvSet]
  | cons q t ih =>
    obtain ⟨j, w⟩ := q
    intro p hp
    unfold kvSet at hp
    split at hp
    · rcases List.mem_cons.mp hp with rfl | hp
      · exact .inl rfl
      · exact .inr hp
    · split at hp
      · rcases List.mem_cons.mp hp with rfl | hp
        · exact .inl rfl
        · exact .inr (List.mem_cons_of_mem _ hp)
      · rcases List.mem_cons.mp hp with rfl | hp
        · exact .inr List.mem_cons_self
        · rcases ih p hp with rfl | hp
          · exact .inl rfl
          · exact .inr (List.mem_cons_of_mem _ hp)

theorem mem_kvDel {α : Type} (t : List (Nat × α)) (k : Nat) : ∀ p ∈ kvDel t k, p ∈ t := fun _ h => List.mem_of_mem_filter h

theorem kvSet_sorted {α : Type} (t : List (Nat × α)) (k : Nat) (v : α) (h : kvSorted t = true) : kvSorted (kvSet t k v) = true := by
  induction t with
  | nil => rfl
  | cons q t ih =>
    obtain ⟨j, w⟩ := q
    obtain ⟨h1, h2⟩ := (kvSorted_cons _ _).mp h
    unfold kvSet
    split
    · next hk =>
      refine (kvSorted_cons _ _).mpr ⟨?_, h⟩
      intro p hp
      rcases List.mem_cons.mp hp with rfl | hp
      · exact hk
      · exact Nat.lt_trans hk (h1 p hp)
    · next hk =>
      split
      · next e => subst e; exact (kvSorted_cons _ _).mpr ⟨h1, h2⟩
      · next e =>
        refine (kvSorted_cons _ _).mpr ⟨?_, ih h2⟩
        intro p hp
        rcases mem_kvSet t k v p hp with rfl | hp
        · show j < k
          omega
        · exact h1 p hp

/-- Dropping entries keeps it. -/
theorem kvSorted_filter {α : Type} (t : List (Nat × α)) (f : Nat × α → Bool) (h : kvSorted t = true) :
    kvSorted (t.filter f) = true := by
  induction t with
  | nil => rfl
  | cons q t ih =>
    obtain ⟨h1, h2⟩ := (kvSorted_cons _ _).mp h
    rw [List.filter_cons]
    split
    · exact (kvSorted_cons _ _).mpr ⟨fun p hp => h1 p (List.mem_of_mem_filter hp), ih h2⟩
    · exact ih h2

theorem kvDel_sorted {α : Type} (t : List (Nat × α)) (k : Nat) (h : kvSorted t = true) : kvSorted (kvDel t k) = true :=
  kvSorted_filter t _ h

/-- A write keeps a table's canonical form. -/
theorem kvPut_wf {α : Type} [DecidableEq α] (d : α) (t : List (Nat × α)) (k : Nat) (v : α) (h : kvWf d t = true) :
    kvWf d (kvPut d t k v) = true := by
  unfold kvWf at h ⊢
  rw [Bool.and_eq_true, List.all_eq_true] at h ⊢
  unfold kvPut
  split
  · exact ⟨kvDel_sorted t k h.1, fun p hp => h.2 p (mem_kvDel t k p hp)⟩
  · next hv =>
    refine ⟨kvSet_sorted t k v h.1, fun p hp => ?_⟩
    rcases mem_kvSet t k v p hp with rfl | hp
    · simpa using hv
    · exact h.2 p hp

theorem kvWf_filter {α : Type} [DecidableEq α] (d : α) (t : List (Nat × α)) (f : Nat × α → Bool) (h : kvWf d t = true) :
    kvWf d (t.filter f) = true := by
  unfold kvWf at h ⊢
  rw [Bool.and_eq_true, List.all_eq_true] at h ⊢
  exact ⟨kvSorted_filter t f h.1, fun p hp => h.2 p (List.mem_of_mem_filter hp)⟩

/-! ### Reading after a write -/

theorem kvGet_kvSet {α : Type} (t : List (Nat × α)) (k j : Nat) (v : α) :
    kvGet (kvSet t k v) j = if j = k then some v else kvGet t j := by
  induction t with
  | nil =>
    unfold kvSet kvGet
    by_cases e : k = j
    · rw [if_pos e, if_pos e.symm]
    · rw [if_neg e, if_neg (fun e' => e e'.symm)]; rfl
  | cons q t ih =>
    obtain ⟨i, w⟩ := q
    unfold kvSet
    split
    · next hk =>
      conv => lhs; unfold kvGet
      by_cases e : k = j
      · simp [e]
      · rw [if_neg e, if_neg (fun e' => e e'.symm)]
    · split
      · next e =>
        subst e
        conv => lhs; unfold kvGet
        conv => rhs; rhs; unfold kvGet
        by_cases e : i = j
        · simp [e]
        · rw [if_neg e, if_neg (fun e' => e e'.symm), if_neg e]
      · next hk e =>
        conv => lhs; unfold kvGet
        conv => rhs; rhs; unfold kvGet
        by_cases e' : i = j
        · subst e'; simp [e]
        · rw [if_neg e', if_neg e', ih]

/-- A filter by key drops the entries of the keys that it refuses and keeps those of the others. -/
theorem kvGet_filter {α : Type} (t : List (Nat × α)) (f : Nat → Bool) (j : Nat) :
    kvGet (t.filter fun p => f p.1) j = if f j then kvGet t j else none := by
  induction t with
  | nil => simp [kvGet]
  | cons q t ih =>
    obtain ⟨i, w⟩ := q
    rw [List.filter_cons]
    by_cases e : i = j
    · subst e
      by_cases h : f i = true
      · simp [h, kvGet]
      · simp [h, ih]
    · by_cases h : f i = true
      · simp only [h, if_true, kvGet, if_neg e, ih]
      · simp only [h, if_false, Bool.false_eq_true, kvGet, if_neg e, ih]

theorem kvGet_kvDel {α : Type} (t : List (Nat × α)) (k j : Nat) :
    kvGet (kvDel t k) j = if j = k then none else kvGet t j := by
  unfold kvDel
  rw [kvGet_filter t (fun i => decide (i ≠ k)) j]
  by_cases e : j = k <;> simp [e]

/-- A read after a write: the written value at the written key, the old value everywhere else. -/
theorem kvGetD_kvPut {α : Type} [DecidableEq α] (d : α) (t : List (Nat × α)) (k j : Nat) (v : α) :
    kvGetD (kvPut d t k v) j d = if j = k then v else kvGetD t j d := by
  unfold kvGetD kvPut
  split
  · next e => rw [kvGet_kvDel t k j]; split <;> simp [e]
  · rw [kvGet_kvSet t k j v]; split <;> simp

end Sys2Proof.Machine
end

