-- ==== Sys2Proof/Laws/State.lean ====
section
/-! SUPPORT. Lemmas about the updates of the state: what each update leaves alone, and finding a batch after it. -/
namespace Sys2Proof.Machine
open Sys2Proof

/-! ### Updates, field by field -/

@[simp] theorem modBatch_crews (s : State) (i : Nat) (f : Batch → Batch) : (modBatch s i f).crews = s.crews := rfl
@[simp] theorem modBatch_cores (s : State) (i : Nat) (f : Batch → Batch) : (modBatch s i f).cores = s.cores := rfl
@[simp] theorem modBatch_mem (s : State) (i : Nat) (f : Batch → Batch) : (modBatch s i f).mem = s.mem := rfl
@[simp] theorem modBatch_xsets (s : State) (i : Nat) (f : Batch → Batch) : (modBatch s i f).xsets = s.xsets := rfl
@[simp] theorem modBatch_ctxs (s : State) (i : Nat) (f : Batch → Batch) : (modBatch s i f).ctxs = s.ctxs := rfl
@[simp] theorem modBatch_clusters (s : State) (i : Nat) (f : Batch → Batch) : (modBatch s i f).clusters = s.clusters := rfl
@[simp] theorem modBatch_images (s : State) (i : Nat) (f : Batch → Batch) : (modBatch s i f).images = s.images := rfl
@[simp] theorem modBatch_upsets (s : State) (i : Nat) (f : Batch → Batch) : (modBatch s i f).upsets = s.upsets := rfl
@[simp] theorem modBatch_events (s : State) (i : Nat) (f : Batch → Batch) : (modBatch s i f).events = s.events := rfl
@[simp] theorem modBatch_fills (s : State) (i : Nat) (f : Batch → Batch) : (modBatch s i f).fills = s.fills := rfl
@[simp] theorem modBatch_parked (s : State) (i : Nat) (f : Batch → Batch) : (modBatch s i f).parked = s.parked := rfl
@[simp] theorem modBatch_flues (s : State) (i : Nat) (f : Batch → Batch) : (modBatch s i f).flues = s.flues := rfl
@[simp] theorem modBatch_splits (s : State) (i : Nat) (f : Batch → Batch) : (modBatch s i f).splits = s.splits := rfl
@[simp] theorem modBatch_runs (s : State) (i : Nat) (f : Batch → Batch) : (modBatch s i f).runs = s.runs := rfl
@[simp] theorem modBatch_remaps (s : State) (i : Nat) (f : Batch → Batch) : (modBatch s i f).remaps = s.remaps := rfl
@[simp] theorem modBatch_bankCE (s : State) (i : Nat) (f : Batch → Batch) : (modBatch s i f).bankCE = s.bankCE := rfl
@[simp] theorem modBatch_bankDue (s : State) (i : Nat) (f : Batch → Batch) : (modBatch s i f).bankDue = s.bankDue := rfl
@[simp] theorem modBatch_llcLines (s : State) (i : Nat) (f : Batch → Batch) : (modBatch s i f).llcLines = s.llcLines := rfl
@[simp] theorem modBatch_victims (s : State) (i : Nat) (f : Batch → Batch) : (modBatch s i f).victims = s.victims := rfl
@[simp] theorem modBatch_power (s : State) (i : Nat) (f : Batch → Batch) : (modBatch s i f).power = s.power := rfl
@[simp] theorem modBatch_zeroMask (s : State) (i : Nat) (f : Batch → Batch) : (modBatch s i f).zeroMask = s.zeroMask := rfl
@[simp] theorem modBatch_posted (s : State) (i : Nat) (f : Batch → Batch) : (modBatch s i f).posted = s.posted := rfl
@[simp] theorem modBatch_gone (s : State) (i : Nat) (f : Batch → Batch) : (modBatch s i f).gone = s.gone := rfl
@[simp] theorem modBatch_backlog (s : State) (i : Nat) (f : Batch → Batch) : (modBatch s i f).backlog = s.backlog := rfl
@[simp] theorem modBatch_homeAsks (s : State) (i : Nat) (f : Batch → Batch) : (modBatch s i f).homeAsks = s.homeAsks := rfl
@[simp] theorem modBatch_cur (s : State) (i : Nat) (f : Batch → Batch) : (modBatch s i f).cur = s.cur := rfl
@[simp] theorem modBatch_clock (s : State) (i : Nat) (f : Batch → Batch) : (modBatch s i f).clock = s.clock := rfl
@[simp] theorem modBatch_nextId (s : State) (i : Nat) (f : Batch → Batch) : (modBatch s i f).nextId = s.nextId := rfl

@[simp] theorem modCrew_batches (s : State) (i : Nat) (f : Crew → Crew) : (modCrew s i f).batches = s.batches := rfl
@[simp] theorem modCrew_cores (s : State) (i : Nat) (f : Crew → Crew) : (modCrew s i f).cores = s.cores := rfl
@[simp] theorem modCrew_mem (s : State) (i : Nat) (f : Crew → Crew) : (modCrew s i f).mem = s.mem := rfl
@[simp] theorem modCrew_xsets (s : State) (i : Nat) (f : Crew → Crew) : (modCrew s i f).xsets = s.xsets := rfl
@[simp] theorem modCrew_ctxs (s : State) (i : Nat) (f : Crew → Crew) : (modCrew s i f).ctxs = s.ctxs := rfl
@[simp] theorem modCrew_clusters (s : State) (i : Nat) (f : Crew → Crew) : (modCrew s i f).clusters = s.clusters := rfl
@[simp] theorem modCrew_images (s : State) (i : Nat) (f : Crew → Crew) : (modCrew s i f).images = s.images := rfl
@[simp] theorem modCrew_upsets (s : State) (i : Nat) (f : Crew → Crew) : (modCrew s i f).upsets = s.upsets := rfl
@[simp] theorem modCrew_events (s : State) (i : Nat) (f : Crew → Crew) : (modCrew s i f).events = s.events := rfl
@[simp] theorem modCrew_fills (s : State) (i : Nat) (f : Crew → Crew) : (modCrew s i f).fills = s.fills := rfl
@[simp] theorem modCrew_parked (s : State) (i : Nat) (f : Crew → Crew) : (modCrew s i f).parked = s.parked := rfl
@[simp] theorem modCrew_flues (s : State) (i : Nat) (f : Crew → Crew) : (modCrew s i f).flues = s.flues := rfl
@[simp] theorem modCrew_splits (s : State) (i : Nat) (f : Crew → Crew) : (modCrew s i f).splits = s.splits := rfl
@[simp] theorem modCrew_runs (s : State) (i : Nat) (f : Crew → Crew) : (modCrew s i f).runs = s.runs := rfl
@[simp] theorem modCrew_remaps (s : State) (i : Nat) (f : Crew → Crew) : (modCrew s i f).remaps = s.remaps := rfl
@[simp] theorem modCrew_bankCE (s : State) (i : Nat) (f : Crew → Crew) : (modCrew s i f).bankCE = s.bankCE := rfl
@[simp] theorem modCrew_bankDue (s : State) (i : Nat) (f : Crew → Crew) : (modCrew s i f).bankDue = s.bankDue := rfl
@[simp] theorem modCrew_llcLines (s : State) (i : Nat) (f : Crew → Crew) : (modCrew s i f).llcLines = s.llcLines := rfl
@[simp] theorem modCrew_victims (s : State) (i : Nat) (f : Crew → Crew) : (modCrew s i f).victims = s.victims := rfl
@[simp] theorem modCrew_power (s : State) (i : Nat) (f : Crew → Crew) : (modCrew s i f).power = s.power := rfl
@[simp] theorem modCrew_zeroMask (s : State) (i : Nat) (f : Crew → Crew) : (modCrew s i f).zeroMask = s.zeroMask := rfl
@[simp] theorem modCrew_posted (s : State) (i : Nat) (f : Crew → Crew) : (modCrew s i f).posted = s.posted := rfl
@[simp] theorem modCrew_gone (s : State) (i : Nat) (f : Crew → Crew) : (modCrew s i f).gone = s.gone := rfl
@[simp] theorem modCrew_backlog (s : State) (i : Nat) (f : Crew → Crew) : (modCrew s i f).backlog = s.backlog := rfl
@[simp] theorem modCrew_homeAsks (s : State) (i : Nat) (f : Crew → Crew) : (modCrew s i f).homeAsks = s.homeAsks := rfl
@[simp] theorem modCrew_cur (s : State) (i : Nat) (f : Crew → Crew) : (modCrew s i f).cur = s.cur := rfl
@[simp] theorem modCrew_clock (s : State) (i : Nat) (f : Crew → Crew) : (modCrew s i f).clock = s.clock := rfl
@[simp] theorem modCrew_nextId (s : State) (i : Nat) (f : Crew → Crew) : (modCrew s i f).nextId = s.nextId := rfl

@[simp] theorem modCore_batches (s : State) (i : Nat) (f : Core → Core) : (modCore s i f).batches = s.batches := rfl
@[simp] theorem modCore_crews (s : State) (i : Nat) (f : Core → Core) : (modCore s i f).crews = s.crews := rfl
@[simp] theorem modCore_mem (s : State) (i : Nat) (f : Core → Core) : (modCore s i f).mem = s.mem := rfl
@[simp] theorem modCore_xsets (s : State) (i : Nat) (f : Core → Core) : (modCore s i f).xsets = s.xsets := rfl
@[simp] theorem modCore_ctxs (s : State) (i : Nat) (f : Core → Core) : (modCore s i f).ctxs = s.ctxs := rfl
@[simp] theorem modCore_clusters (s : State) (i : Nat) (f : Core → Core) : (modCore s i f).clusters = s.clusters := rfl
@[simp] theorem modCore_images (s : State) (i : Nat) (f : Core → Core) : (modCore s i f).images = s.images := rfl
@[simp] theorem modCore_upsets (s : State) (i : Nat) (f : Core → Core) : (modCore s i f).upsets = s.upsets := rfl
@[simp] theorem modCore_events (s : State) (i : Nat) (f : Core → Core) : (modCore s i f).events = s.events := rfl
@[simp] theorem modCore_fills (s : State) (i : Nat) (f : Core → Core) : (modCore s i f).fills = s.fills := rfl
@[simp] theorem modCore_parked (s : State) (i : Nat) (f : Core → Core) : (modCore s i f).parked = s.parked := rfl
@[simp] theorem modCore_flues (s : State) (i : Nat) (f : Core → Core) : (modCore s i f).flues = s.flues := rfl
@[simp] theorem modCore_splits (s : State) (i : Nat) (f : Core → Core) : (modCore s i f).splits = s.splits := rfl
@[simp] theorem modCore_runs (s : State) (i : Nat) (f : Core → Core) : (modCore s i f).runs = s.runs := rfl
@[simp] theorem modCore_remaps (s : State) (i : Nat) (f : Core → Core) : (modCore s i f).remaps = s.remaps := rfl
@[simp] theorem modCore_bankCE (s : State) (i : Nat) (f : Core → Core) : (modCore s i f).bankCE = s.bankCE := rfl
@[simp] theorem modCore_bankDue (s : State) (i : Nat) (f : Core → Core) : (modCore s i f).bankDue = s.bankDue := rfl
@[simp] theorem modCore_llcLines (s : State) (i : Nat) (f : Core → Core) : (modCore s i f).llcLines = s.llcLines := rfl
@[simp] theorem modCore_victims (s : State) (i : Nat) (f : Core → Core) : (modCore s i f).victims = s.victims := rfl
@[simp] theorem modCore_power (s : State) (i : Nat) (f : Core → Core) : (modCore s i f).power = s.power := rfl
@[simp] theorem modCore_zeroMask (s : State) (i : Nat) (f : Core → Core) : (modCore s i f).zeroMask = s.zeroMask := rfl
@[simp] theorem modCore_posted (s : State) (i : Nat) (f : Core → Core) : (modCore s i f).posted = s.posted := rfl
@[simp] theorem modCore_gone (s : State) (i : Nat) (f : Core → Core) : (modCore s i f).gone = s.gone := rfl
@[simp] theorem modCore_backlog (s : State) (i : Nat) (f : Core → Core) : (modCore s i f).backlog = s.backlog := rfl
@[simp] theorem modCore_homeAsks (s : State) (i : Nat) (f : Core → Core) : (modCore s i f).homeAsks = s.homeAsks := rfl
@[simp] theorem modCore_cur (s : State) (i : Nat) (f : Core → Core) : (modCore s i f).cur = s.cur := rfl
@[simp] theorem modCore_clock (s : State) (i : Nat) (f : Core → Core) : (modCore s i f).clock = s.clock := rfl
@[simp] theorem modCore_nextId (s : State) (i : Nat) (f : Core → Core) : (modCore s i f).nextId = s.nextId := rfl

@[simp] theorem modCtx_batches (s : State) (i : Nat) (f : Context → Context) : (modCtx s i f).batches = s.batches := rfl
@[simp] theorem modCtx_crews (s : State) (i : Nat) (f : Context → Context) : (modCtx s i f).crews = s.crews := rfl
@[simp] theorem modCtx_cores (s : State) (i : Nat) (f : Context → Context) : (modCtx s i f).cores = s.cores := rfl
@[simp] theorem modCtx_mem (s : State) (i : Nat) (f : Context → Context) : (modCtx s i f).mem = s.mem := rfl
@[simp] theorem modCtx_xsets (s : State) (i : Nat) (f : Context → Context) : (modCtx s i f).xsets = s.xsets := rfl
@[simp] theorem modCtx_clusters (s : State) (i : Nat) (f : Context → Context) : (modCtx s i f).clusters = s.clusters := rfl
@[simp] theorem modCtx_images (s : State) (i : Nat) (f : Context → Context) : (modCtx s i f).images = s.images := rfl
@[simp] theorem modCtx_upsets (s : State) (i : Nat) (f : Context → Context) : (modCtx s i f).upsets = s.upsets := rfl
@[simp] theorem modCtx_events (s : State) (i : Nat) (f : Context → Context) : (modCtx s i f).events = s.events := rfl
@[simp] theorem modCtx_fills (s : State) (i : Nat) (f : Context → Context) : (modCtx s i f).fills = s.fills := rfl
@[simp] theorem modCtx_parked (s : State) (i : Nat) (f : Context → Context) : (modCtx s i f).parked = s.parked := rfl
@[simp] theorem modCtx_flues (s : State) (i : Nat) (f : Context → Context) : (modCtx s i f).flues = s.flues := rfl
@[simp] theorem modCtx_splits (s : State) (i : Nat) (f : Context → Context) : (modCtx s i f).splits = s.splits := rfl
@[simp] theorem modCtx_runs (s : State) (i : Nat) (f : Context → Context) : (modCtx s i f).runs = s.runs := rfl
@[simp] theorem modCtx_remaps (s : State) (i : Nat) (f : Context → Context) : (modCtx s i f).remaps = s.remaps := rfl
@[simp] theorem modCtx_bankCE (s : State) (i : Nat) (f : Context → Context) : (modCtx s i f).bankCE = s.bankCE := rfl
@[simp] theorem modCtx_bankDue (s : State) (i : Nat) (f : Context → Context) : (modCtx s i f).bankDue = s.bankDue := rfl
@[simp] theorem modCtx_llcLines (s : State) (i : Nat) (f : Context → Context) : (modCtx s i f).llcLines = s.llcLines := rfl
@[simp] theorem modCtx_victims (s : State) (i : Nat) (f : Context → Context) : (modCtx s i f).victims = s.victims := rfl
@[simp] theorem modCtx_power (s : State) (i : Nat) (f : Context → Context) : (modCtx s i f).power = s.power := rfl
@[simp] theorem modCtx_zeroMask (s : State) (i : Nat) (f : Context → Context) : (modCtx s i f).zeroMask = s.zeroMask := rfl
@[simp] theorem modCtx_posted (s : State) (i : Nat) (f : Context → Context) : (modCtx s i f).posted = s.posted := rfl
@[simp] theorem modCtx_gone (s : State) (i : Nat) (f : Context → Context) : (modCtx s i f).gone = s.gone := rfl
@[simp] theorem modCtx_backlog (s : State) (i : Nat) (f : Context → Context) : (modCtx s i f).backlog = s.backlog := rfl
@[simp] theorem modCtx_homeAsks (s : State) (i : Nat) (f : Context → Context) : (modCtx s i f).homeAsks = s.homeAsks := rfl
@[simp] theorem modCtx_cur (s : State) (i : Nat) (f : Context → Context) : (modCtx s i f).cur = s.cur := rfl
@[simp] theorem modCtx_clock (s : State) (i : Nat) (f : Context → Context) : (modCtx s i f).clock = s.clock := rfl
@[simp] theorem modCtx_nextId (s : State) (i : Nat) (f : Context → Context) : (modCtx s i f).nextId = s.nextId := rfl

@[simp] theorem modCluster_batches (s : State) (i : Nat) (f : Cluster → Cluster) : (modCluster s i f).batches = s.batches := rfl
@[simp] theorem modCluster_crews (s : State) (i : Nat) (f : Cluster → Cluster) : (modCluster s i f).crews = s.crews := rfl
@[simp] theorem modCluster_cores (s : State) (i : Nat) (f : Cluster → Cluster) : (modCluster s i f).cores = s.cores := rfl
@[simp] theorem modCluster_mem (s : State) (i : Nat) (f : Cluster → Cluster) : (modCluster s i f).mem = s.mem := rfl
@[simp] theorem modCluster_xsets (s : State) (i : Nat) (f : Cluster → Cluster) : (modCluster s i f).xsets = s.xsets := rfl
@[simp] theorem modCluster_ctxs (s : State) (i : Nat) (f : Cluster → Cluster) : (modCluster s i f).ctxs = s.ctxs := rfl
@[simp] theorem modCluster_images (s : State) (i : Nat) (f : Cluster → Cluster) : (modCluster s i f).images = s.images := rfl
@[simp] theorem modCluster_upsets (s : State) (i : Nat) (f : Cluster → Cluster) : (modCluster s i f).upsets = s.upsets := rfl
@[simp] theorem modCluster_events (s : State) (i : Nat) (f : Cluster → Cluster) : (modCluster s i f).events = s.events := rfl
@[simp] theorem modCluster_fills (s : State) (i : Nat) (f : Cluster → Cluster) : (modCluster s i f).fills = s.fills := rfl
@[simp] theorem modCluster_parked (s : State) (i : Nat) (f : Cluster → Cluster) : (modCluster s i f).parked = s.parked := rfl
@[simp] theorem modCluster_flues (s : State) (i : Nat) (f : Cluster → Cluster) : (modCluster s i f).flues = s.flues := rfl
@[simp] theorem modCluster_splits (s : State) (i : Nat) (f : Cluster → Cluster) : (modCluster s i f).splits = s.splits := rfl
@[simp] theorem modCluster_runs (s : State) (i : Nat) (f : Cluster → Cluster) : (modCluster s i f).runs = s.runs := rfl
@[simp] theorem modCluster_remaps (s : State) (i : Nat) (f : Cluster → Cluster) : (modCluster s i f).remaps = s.remaps := rfl
@[simp] theorem modCluster_bankCE (s : State) (i : Nat) (f : Cluster → Cluster) : (modCluster s i f).bankCE = s.bankCE := rfl
@[simp] theorem modCluster_bankDue (s : State) (i : Nat) (f : Cluster → Cluster) : (modCluster s i f).bankDue = s.bankDue := rfl
@[simp] theorem modCluster_llcLines (s : State) (i : Nat) (f : Cluster → Cluster) : (modCluster s i f).llcLines = s.llcLines := rfl
@[simp] theorem modCluster_victims (s : State) (i : Nat) (f : Cluster → Cluster) : (modCluster s i f).victims = s.victims := rfl
@[simp] theorem modCluster_power (s : State) (i : Nat) (f : Cluster → Cluster) : (modCluster s i f).power = s.power := rfl
@[simp] theorem modCluster_zeroMask (s : State) (i : Nat) (f : Cluster → Cluster) : (modCluster s i f).zeroMask = s.zeroMask := rfl
@[simp] theorem modCluster_posted (s : State) (i : Nat) (f : Cluster → Cluster) : (modCluster s i f).posted = s.posted := rfl
@[simp] theorem modCluster_gone (s : State) (i : Nat) (f : Cluster → Cluster) : (modCluster s i f).gone = s.gone := rfl
@[simp] theorem modCluster_backlog (s : State) (i : Nat) (f : Cluster → Cluster) : (modCluster s i f).backlog = s.backlog := rfl
@[simp] theorem modCluster_homeAsks (s : State) (i : Nat) (f : Cluster → Cluster) : (modCluster s i f).homeAsks = s.homeAsks := rfl
@[simp] theorem modCluster_cur (s : State) (i : Nat) (f : Cluster → Cluster) : (modCluster s i f).cur = s.cur := rfl
@[simp] theorem modCluster_clock (s : State) (i : Nat) (f : Cluster → Cluster) : (modCluster s i f).clock = s.clock := rfl
@[simp] theorem modCluster_nextId (s : State) (i : Nat) (f : Cluster → Cluster) : (modCluster s i f).nextId = s.nextId := rfl

@[simp] theorem modXSet_batches (s : State) (i j : Nat) (f : XSet → XSet) : (modXSet s i j f).batches = s.batches := rfl
@[simp] theorem modXSet_crews (s : State) (i j : Nat) (f : XSet → XSet) : (modXSet s i j f).crews = s.crews := rfl
@[simp] theorem modXSet_cores (s : State) (i j : Nat) (f : XSet → XSet) : (modXSet s i j f).cores = s.cores := rfl
@[simp] theorem modXSet_mem (s : State) (i j : Nat) (f : XSet → XSet) : (modXSet s i j f).mem = s.mem := rfl
@[simp] theorem modXSet_ctxs (s : State) (i j : Nat) (f : XSet → XSet) : (modXSet s i j f).ctxs = s.ctxs := rfl
@[simp] theorem modXSet_clusters (s : State) (i j : Nat) (f : XSet → XSet) : (modXSet s i j f).clusters = s.clusters := rfl
@[simp] theorem modXSet_images (s : State) (i j : Nat) (f : XSet → XSet) : (modXSet s i j f).images = s.images := rfl
@[simp] theorem modXSet_upsets (s : State) (i j : Nat) (f : XSet → XSet) : (modXSet s i j f).upsets = s.upsets := rfl
@[simp] theorem modXSet_events (s : State) (i j : Nat) (f : XSet → XSet) : (modXSet s i j f).events = s.events := rfl
@[simp] theorem modXSet_fills (s : State) (i j : Nat) (f : XSet → XSet) : (modXSet s i j f).fills = s.fills := rfl
@[simp] theorem modXSet_parked (s : State) (i j : Nat) (f : XSet → XSet) : (modXSet s i j f).parked = s.parked := rfl
@[simp] theorem modXSet_flues (s : State) (i j : Nat) (f : XSet → XSet) : (modXSet s i j f).flues = s.flues := rfl
@[simp] theorem modXSet_splits (s : State) (i j : Nat) (f : XSet → XSet) : (modXSet s i j f).splits = s.splits := rfl
@[simp] theorem modXSet_runs (s : State) (i j : Nat) (f : XSet → XSet) : (modXSet s i j f).runs = s.runs := rfl
@[simp] theorem modXSet_remaps (s : State) (i j : Nat) (f : XSet → XSet) : (modXSet s i j f).remaps = s.remaps := rfl
@[simp] theorem modXSet_bankCE (s : State) (i j : Nat) (f : XSet → XSet) : (modXSet s i j f).bankCE = s.bankCE := rfl
@[simp] theorem modXSet_bankDue (s : State) (i j : Nat) (f : XSet → XSet) : (modXSet s i j f).bankDue = s.bankDue := rfl
@[simp] theorem modXSet_llcLines (s : State) (i j : Nat) (f : XSet → XSet) : (modXSet s i j f).llcLines = s.llcLines := rfl
@[simp] theorem modXSet_victims (s : State) (i j : Nat) (f : XSet → XSet) : (modXSet s i j f).victims = s.victims := rfl
@[simp] theorem modXSet_power (s : State) (i j : Nat) (f : XSet → XSet) : (modXSet s i j f).power = s.power := rfl
@[simp] theorem modXSet_zeroMask (s : State) (i j : Nat) (f : XSet → XSet) : (modXSet s i j f).zeroMask = s.zeroMask := rfl
@[simp] theorem modXSet_posted (s : State) (i j : Nat) (f : XSet → XSet) : (modXSet s i j f).posted = s.posted := rfl
@[simp] theorem modXSet_gone (s : State) (i j : Nat) (f : XSet → XSet) : (modXSet s i j f).gone = s.gone := rfl
@[simp] theorem modXSet_backlog (s : State) (i j : Nat) (f : XSet → XSet) : (modXSet s i j f).backlog = s.backlog := rfl
@[simp] theorem modXSet_homeAsks (s : State) (i j : Nat) (f : XSet → XSet) : (modXSet s i j f).homeAsks = s.homeAsks := rfl
@[simp] theorem modXSet_cur (s : State) (i j : Nat) (f : XSet → XSet) : (modXSet s i j f).cur = s.cur := rfl
@[simp] theorem modXSet_clock (s : State) (i j : Nat) (f : XSet → XSet) : (modXSet s i j f).clock = s.clock := rfl
@[simp] theorem modXSet_nextId (s : State) (i j : Nat) (f : XSet → XSet) : (modXSet s i j f).nextId = s.nextId := rfl

@[simp] theorem modFill_batches (s : State) (i : Nat) (f : Fill → Fill) : (modFill s i f).batches = s.batches := rfl
@[simp] theorem modFill_crews (s : State) (i : Nat) (f : Fill → Fill) : (modFill s i f).crews = s.crews := rfl
@[simp] theorem modFill_cores (s : State) (i : Nat) (f : Fill → Fill) : (modFill s i f).cores = s.cores := rfl
@[simp] theorem modFill_mem (s : State) (i : Nat) (f : Fill → Fill) : (modFill s i f).mem = s.mem := rfl
@[simp] theorem modFill_xsets (s : State) (i : Nat) (f : Fill → Fill) : (modFill s i f).xsets = s.xsets := rfl
@[simp] theorem modFill_ctxs (s : State) (i : Nat) (f : Fill → Fill) : (modFill s i f).ctxs = s.ctxs := rfl
@[simp] theorem modFill_clusters (s : State) (i : Nat) (f : Fill → Fill) : (modFill s i f).clusters = s.clusters := rfl
@[simp] theorem modFill_images (s : State) (i : Nat) (f : Fill → Fill) : (modFill s i f).images = s.images := rfl
@[simp] theorem modFill_upsets (s : State) (i : Nat) (f : Fill → Fill) : (modFill s i f).upsets = s.upsets := rfl
@[simp] theorem modFill_events (s : State) (i : Nat) (f : Fill → Fill) : (modFill s i f).events = s.events := rfl
@[simp] theorem modFill_parked (s : State) (i : Nat) (f : Fill → Fill) : (modFill s i f).parked = s.parked := rfl
@[simp] theorem modFill_flues (s : State) (i : Nat) (f : Fill → Fill) : (modFill s i f).flues = s.flues := rfl
@[simp] theorem modFill_splits (s : State) (i : Nat) (f : Fill → Fill) : (modFill s i f).splits = s.splits := rfl
@[simp] theorem modFill_runs (s : State) (i : Nat) (f : Fill → Fill) : (modFill s i f).runs = s.runs := rfl
@[simp] theorem modFill_remaps (s : State) (i : Nat) (f : Fill → Fill) : (modFill s i f).remaps = s.remaps := rfl
@[simp] theorem modFill_bankCE (s : State) (i : Nat) (f : Fill → Fill) : (modFill s i f).bankCE = s.bankCE := rfl
@[simp] theorem modFill_bankDue (s : State) (i : Nat) (f : Fill → Fill) : (modFill s i f).bankDue = s.bankDue := rfl
@[simp] theorem modFill_llcLines (s : State) (i : Nat) (f : Fill → Fill) : (modFill s i f).llcLines = s.llcLines := rfl
@[simp] theorem modFill_victims (s : State) (i : Nat) (f : Fill → Fill) : (modFill s i f).victims = s.victims := rfl
@[simp] theorem modFill_power (s : State) (i : Nat) (f : Fill → Fill) : (modFill s i f).power = s.power := rfl
@[simp] theorem modFill_zeroMask (s : State) (i : Nat) (f : Fill → Fill) : (modFill s i f).zeroMask = s.zeroMask := rfl
@[simp] theorem modFill_posted (s : State) (i : Nat) (f : Fill → Fill) : (modFill s i f).posted = s.posted := rfl
@[simp] theorem modFill_gone (s : State) (i : Nat) (f : Fill → Fill) : (modFill s i f).gone = s.gone := rfl
@[simp] theorem modFill_backlog (s : State) (i : Nat) (f : Fill → Fill) : (modFill s i f).backlog = s.backlog := rfl
@[simp] theorem modFill_homeAsks (s : State) (i : Nat) (f : Fill → Fill) : (modFill s i f).homeAsks = s.homeAsks := rfl
@[simp] theorem modFill_cur (s : State) (i : Nat) (f : Fill → Fill) : (modFill s i f).cur = s.cur := rfl
@[simp] theorem modFill_clock (s : State) (i : Nat) (f : Fill → Fill) : (modFill s i f).clock = s.clock := rfl
@[simp] theorem modFill_nextId (s : State) (i : Nat) (f : Fill → Fill) : (modFill s i f).nextId = s.nextId := rfl

@[simp] theorem modRun_batches (s : State) (i : Nat) (f : Run → Run) : (modRun s i f).batches = s.batches := rfl
@[simp] theorem modRun_crews (s : State) (i : Nat) (f : Run → Run) : (modRun s i f).crews = s.crews := rfl
@[simp] theorem modRun_cores (s : State) (i : Nat) (f : Run → Run) : (modRun s i f).cores = s.cores := rfl
@[simp] theorem modRun_mem (s : State) (i : Nat) (f : Run → Run) : (modRun s i f).mem = s.mem := rfl
@[simp] theorem modRun_xsets (s : State) (i : Nat) (f : Run → Run) : (modRun s i f).xsets = s.xsets := rfl
@[simp] theorem modRun_ctxs (s : State) (i : Nat) (f : Run → Run) : (modRun s i f).ctxs = s.ctxs := rfl
@[simp] theorem modRun_clusters (s : State) (i : Nat) (f : Run → Run) : (modRun s i f).clusters = s.clusters := rfl
@[simp] theorem modRun_images (s : State) (i : Nat) (f : Run → Run) : (modRun s i f).images = s.images := rfl
@[simp] theorem modRun_upsets (s : State) (i : Nat) (f : Run → Run) : (modRun s i f).upsets = s.upsets := rfl
@[simp] theorem modRun_events (s : State) (i : Nat) (f : Run → Run) : (modRun s i f).events = s.events := rfl
@[simp] theorem modRun_fills (s : State) (i : Nat) (f : Run → Run) : (modRun s i f).fills = s.fills := rfl
@[simp] theorem modRun_parked (s : State) (i : Nat) (f : Run → Run) : (modRun s i f).parked = s.parked := rfl
@[simp] theorem modRun_flues (s : State) (i : Nat) (f : Run → Run) : (modRun s i f).flues = s.flues := rfl
@[simp] theorem modRun_splits (s : State) (i : Nat) (f : Run → Run) : (modRun s i f).splits = s.splits := rfl
@[simp] theorem modRun_remaps (s : State) (i : Nat) (f : Run → Run) : (modRun s i f).remaps = s.remaps := rfl
@[simp] theorem modRun_bankCE (s : State) (i : Nat) (f : Run → Run) : (modRun s i f).bankCE = s.bankCE := rfl
@[simp] theorem modRun_bankDue (s : State) (i : Nat) (f : Run → Run) : (modRun s i f).bankDue = s.bankDue := rfl
@[simp] theorem modRun_llcLines (s : State) (i : Nat) (f : Run → Run) : (modRun s i f).llcLines = s.llcLines := rfl
@[simp] theorem modRun_victims (s : State) (i : Nat) (f : Run → Run) : (modRun s i f).victims = s.victims := rfl
@[simp] theorem modRun_power (s : State) (i : Nat) (f : Run → Run) : (modRun s i f).power = s.power := rfl
@[simp] theorem modRun_zeroMask (s : State) (i : Nat) (f : Run → Run) : (modRun s i f).zeroMask = s.zeroMask := rfl
@[simp] theorem modRun_posted (s : State) (i : Nat) (f : Run → Run) : (modRun s i f).posted = s.posted := rfl
@[simp] theorem modRun_gone (s : State) (i : Nat) (f : Run → Run) : (modRun s i f).gone = s.gone := rfl
@[simp] theorem modRun_backlog (s : State) (i : Nat) (f : Run → Run) : (modRun s i f).backlog = s.backlog := rfl
@[simp] theorem modRun_homeAsks (s : State) (i : Nat) (f : Run → Run) : (modRun s i f).homeAsks = s.homeAsks := rfl
@[simp] theorem modRun_cur (s : State) (i : Nat) (f : Run → Run) : (modRun s i f).cur = s.cur := rfl
@[simp] theorem modRun_clock (s : State) (i : Nat) (f : Run → Run) : (modRun s i f).clock = s.clock := rfl
@[simp] theorem modRun_nextId (s : State) (i : Nat) (f : Run → Run) : (modRun s i f).nextId = s.nextId := rfl

@[simp] theorem modFlue_batches (s : State) (i : Nat) (f : FlueCtx → FlueCtx) : (modFlue s i f).batches = s.batches := rfl
@[simp] theorem modFlue_crews (s : State) (i : Nat) (f : FlueCtx → FlueCtx) : (modFlue s i f).crews = s.crews := rfl
@[simp] theorem modFlue_cores (s : State) (i : Nat) (f : FlueCtx → FlueCtx) : (modFlue s i f).cores = s.cores := rfl
@[simp] theorem modFlue_mem (s : State) (i : Nat) (f : FlueCtx → FlueCtx) : (modFlue s i f).mem = s.mem := rfl
@[simp] theorem modFlue_xsets (s : State) (i : Nat) (f : FlueCtx → FlueCtx) : (modFlue s i f).xsets = s.xsets := rfl
@[simp] theorem modFlue_ctxs (s : State) (i : Nat) (f : FlueCtx → FlueCtx) : (modFlue s i f).ctxs = s.ctxs := rfl
@[simp] theorem modFlue_clusters (s : State) (i : Nat) (f : FlueCtx → FlueCtx) : (modFlue s i f).clusters = s.clusters := rfl
@[simp] theorem modFlue_images (s : State) (i : Nat) (f : FlueCtx → FlueCtx) : (modFlue s i f).images = s.images := rfl
@[simp] theorem modFlue_upsets (s : State) (i : Nat) (f : FlueCtx → FlueCtx) : (modFlue s i f).upsets = s.upsets := rfl
@[simp] theorem modFlue_events (s : State) (i : Nat) (f : FlueCtx → FlueCtx) : (modFlue s i f).events = s.events := rfl
@[simp] theorem modFlue_fills (s : State) (i : Nat) (f : FlueCtx → FlueCtx) : (modFlue s i f).fills = s.fills := rfl
@[simp] theorem modFlue_parked (s : State) (i : Nat) (f : FlueCtx → FlueCtx) : (modFlue s i f).parked = s.parked := rfl
@[simp] theorem modFlue_splits (s : State) (i : Nat) (f : FlueCtx → FlueCtx) : (modFlue s i f).splits = s.splits := rfl
@[simp] theorem modFlue_runs (s : State) (i : Nat) (f : FlueCtx → FlueCtx) : (modFlue s i f).runs = s.runs := rfl
@[simp] theorem modFlue_remaps (s : State) (i : Nat) (f : FlueCtx → FlueCtx) : (modFlue s i f).remaps = s.remaps := rfl
@[simp] theorem modFlue_bankCE (s : State) (i : Nat) (f : FlueCtx → FlueCtx) : (modFlue s i f).bankCE = s.bankCE := rfl
@[simp] theorem modFlue_bankDue (s : State) (i : Nat) (f : FlueCtx → FlueCtx) : (modFlue s i f).bankDue = s.bankDue := rfl
@[simp] theorem modFlue_llcLines (s : State) (i : Nat) (f : FlueCtx → FlueCtx) : (modFlue s i f).llcLines = s.llcLines := rfl
@[simp] theorem modFlue_victims (s : State) (i : Nat) (f : FlueCtx → FlueCtx) : (modFlue s i f).victims = s.victims := rfl
@[simp] theorem modFlue_power (s : State) (i : Nat) (f : FlueCtx → FlueCtx) : (modFlue s i f).power = s.power := rfl
@[simp] theorem modFlue_zeroMask (s : State) (i : Nat) (f : FlueCtx → FlueCtx) : (modFlue s i f).zeroMask = s.zeroMask := rfl
@[simp] theorem modFlue_posted (s : State) (i : Nat) (f : FlueCtx → FlueCtx) : (modFlue s i f).posted = s.posted := rfl
@[simp] theorem modFlue_gone (s : State) (i : Nat) (f : FlueCtx → FlueCtx) : (modFlue s i f).gone = s.gone := rfl
@[simp] theorem modFlue_backlog (s : State) (i : Nat) (f : FlueCtx → FlueCtx) : (modFlue s i f).backlog = s.backlog := rfl
@[simp] theorem modFlue_homeAsks (s : State) (i : Nat) (f : FlueCtx → FlueCtx) : (modFlue s i f).homeAsks = s.homeAsks := rfl
@[simp] theorem modFlue_cur (s : State) (i : Nat) (f : FlueCtx → FlueCtx) : (modFlue s i f).cur = s.cur := rfl
@[simp] theorem modFlue_clock (s : State) (i : Nat) (f : FlueCtx → FlueCtx) : (modFlue s i f).clock = s.clock := rfl
@[simp] theorem modFlue_nextId (s : State) (i : Nat) (f : FlueCtx → FlueCtx) : (modFlue s i f).nextId = s.nextId := rfl

@[simp] theorem modSplit_batches (s : State) (i : Nat) (f : SplitCtx → SplitCtx) : (modSplit s i f).batches = s.batches := rfl
@[simp] theorem modSplit_crews (s : State) (i : Nat) (f : SplitCtx → SplitCtx) : (modSplit s i f).crews = s.crews := rfl
@[simp] theorem modSplit_cores (s : State) (i : Nat) (f : SplitCtx → SplitCtx) : (modSplit s i f).cores = s.cores := rfl
@[simp] theorem modSplit_mem (s : State) (i : Nat) (f : SplitCtx → SplitCtx) : (modSplit s i f).mem = s.mem := rfl
@[simp] theorem modSplit_xsets (s : State) (i : Nat) (f : SplitCtx → SplitCtx) : (modSplit s i f).xsets = s.xsets := rfl
@[simp] theorem modSplit_ctxs (s : State) (i : Nat) (f : SplitCtx → SplitCtx) : (modSplit s i f).ctxs = s.ctxs := rfl
@[simp] theorem modSplit_clusters (s : State) (i : Nat) (f : SplitCtx → SplitCtx) : (modSplit s i f).clusters = s.clusters := rfl
@[simp] theorem modSplit_images (s : State) (i : Nat) (f : SplitCtx → SplitCtx) : (modSplit s i f).images = s.images := rfl
@[simp] theorem modSplit_upsets (s : State) (i : Nat) (f : SplitCtx → SplitCtx) : (modSplit s i f).upsets = s.upsets := rfl
@[simp] theorem modSplit_events (s : State) (i : Nat) (f : SplitCtx → SplitCtx) : (modSplit s i f).events = s.events := rfl
@[simp] theorem modSplit_fills (s : State) (i : Nat) (f : SplitCtx → SplitCtx) : (modSplit s i f).fills = s.fills := rfl
@[simp] theorem modSplit_parked (s : State) (i : Nat) (f : SplitCtx → SplitCtx) : (modSplit s i f).parked = s.parked := rfl
@[simp] theorem modSplit_flues (s : State) (i : Nat) (f : SplitCtx → SplitCtx) : (modSplit s i f).flues = s.flues := rfl
@[simp] theorem modSplit_runs (s : State) (i : Nat) (f : SplitCtx → SplitCtx) : (modSplit s i f).runs = s.runs := rfl
@[simp] theorem modSplit_remaps (s : State) (i : Nat) (f : SplitCtx → SplitCtx) : (modSplit s i f).remaps = s.remaps := rfl
@[simp] theorem modSplit_bankCE (s : State) (i : Nat) (f : SplitCtx → SplitCtx) : (modSplit s i f).bankCE = s.bankCE := rfl
@[simp] theorem modSplit_bankDue (s : State) (i : Nat) (f : SplitCtx → SplitCtx) : (modSplit s i f).bankDue = s.bankDue := rfl
@[simp] theorem modSplit_llcLines (s : State) (i : Nat) (f : SplitCtx → SplitCtx) : (modSplit s i f).llcLines = s.llcLines := rfl
@[simp] theorem modSplit_victims (s : State) (i : Nat) (f : SplitCtx → SplitCtx) : (modSplit s i f).victims = s.victims := rfl
@[simp] theorem modSplit_power (s : State) (i : Nat) (f : SplitCtx → SplitCtx) : (modSplit s i f).power = s.power := rfl
@[simp] theorem modSplit_zeroMask (s : State) (i : Nat) (f : SplitCtx → SplitCtx) : (modSplit s i f).zeroMask = s.zeroMask := rfl
@[simp] theorem modSplit_posted (s : State) (i : Nat) (f : SplitCtx → SplitCtx) : (modSplit s i f).posted = s.posted := rfl
@[simp] theorem modSplit_gone (s : State) (i : Nat) (f : SplitCtx → SplitCtx) : (modSplit s i f).gone = s.gone := rfl
@[simp] theorem modSplit_backlog (s : State) (i : Nat) (f : SplitCtx → SplitCtx) : (modSplit s i f).backlog = s.backlog := rfl
@[simp] theorem modSplit_homeAsks (s : State) (i : Nat) (f : SplitCtx → SplitCtx) : (modSplit s i f).homeAsks = s.homeAsks := rfl
@[simp] theorem modSplit_cur (s : State) (i : Nat) (f : SplitCtx → SplitCtx) : (modSplit s i f).cur = s.cur := rfl
@[simp] theorem modSplit_clock (s : State) (i : Nat) (f : SplitCtx → SplitCtx) : (modSplit s i f).clock = s.clock := rfl
@[simp] theorem modSplit_nextId (s : State) (i : Nat) (f : SplitCtx → SplitCtx) : (modSplit s i f).nextId = s.nextId := rfl

/-! ### Finding a batch after an update -/

theorem findBatch_id {s : State} {id : Nat} {b : Batch} (h : findBatch s id = some b) : b.id = id := by
  simpa using List.find?_some h

theorem find_map_same (l : List Batch) (id : Nat) (f : Batch → Batch) (hf : ∀ b, (f b).id = b.id) :
    (l.map fun b => if b.id = id then f b else b).find? (fun b => b.id = id) = (l.find? fun b => b.id = id).map f := by
  induction l with
  | nil => rfl
  | cons a l ih =>
    by_cases h : a.id = id
    · simp [h, hf]
    · simp [h, ih]

theorem find_map_other (l : List Batch) (id j : Nat) (f : Batch → Batch) (hf : ∀ b, (f b).id = b.id) (hj : j ≠ id) :
    (l.map fun b => if b.id = id then f b else b).find? (fun b => b.id = j) = l.find? fun b => b.id = j := by
  induction l with
  | nil => rfl
  | cons a l ih =>
    by_cases h : a.id = id
    · have : ¬ id = j := fun e => hj e.symm
      simp [h, hf, ih, this]
    · by_cases h2 : a.id = j
      · simp [h2, hj]
      · simp [h, h2, ih]

/-- A changed batch is found changed. -/
theorem findBatch_modBatch (s : State) (id : Nat) (f : Batch → Batch) (hf : ∀ b, (f b).id = b.id) :
    findBatch (modBatch s id f) id = (findBatch s id).map f := find_map_same s.batches id f hf

/-- Other batches are found as before. -/
theorem findBatch_modBatch_ne (s : State) (id j : Nat) (f : Batch → Batch) (hf : ∀ b, (f b).id = b.id) (hj : j ≠ id) :
    findBatch (modBatch s id f) j = findBatch s j := find_map_other s.batches id j f hf hj

@[simp] theorem findBatch_modCrew (s : State) (i : Nat) (f : Crew → Crew) (j : Nat) :
    findBatch (modCrew s i f) j = findBatch s j := rfl
@[simp] theorem findBatch_modCore (s : State) (i : Nat) (f : Core → Core) (j : Nat) :
    findBatch (modCore s i f) j = findBatch s j := rfl
@[simp] theorem findBatch_modXSet (s : State) (i k : Nat) (f : XSet → XSet) (j : Nat) :
    findBatch (modXSet s i k f) j = findBatch s j := rfl
@[simp] theorem findBatch_modCtx (s : State) (i : Nat) (f : Context → Context) (j : Nat) :
    findBatch (modCtx s i f) j = findBatch s j := rfl

end Sys2Proof.Machine
end

