-- ==== Sys2Proof/Laws/Retire.lean ====
section
/-! SUPPORT. What the parts of a word's retirement do (Operands.finish): register writes, predicates, the window, the
return buffer, and the frame of them all. -/
namespace Sys2Proof.Machine
open Sys2Proof

/-! ### The frame of a word -/

/-- Nothing but this batch and the fields that a retiring word may change differ. -/
structure OnlyWord (s t : State) (bid : Nat) : Prop where
  others : ∀ id, id ≠ bid → findBatch t id = findBatch s id
  rest : t = { s with
    batches := t.batches, crews := t.crews, monitors := t.monitors, upsets := t.upsets, ivCopy := t.ivCopy }

theorem OnlyWord.refl (s : State) (bid : Nat) : OnlyWord s s bid := ⟨fun _ _ => rfl, rfl⟩

theorem OnlyWord.trans {s t u : State} {bid : Nat} (h : OnlyWord s t bid) (k : OnlyWord t u bid) : OnlyWord s u bid := by
  refine ⟨fun id hid => (k.others id hid).trans (h.others id hid), ?_⟩
  have h1 := h.rest
  have h2 := k.rest
  rw [h2, h1]

theorem OnlyWord.modBatch (s : State) (bid : Nat) (f : Batch → Batch) (hf : ∀ b, (f b).id = b.id) :
    OnlyWord s (modBatch s bid f) bid := ⟨fun j hj => findBatch_modBatch_ne s bid j f hf hj, rfl⟩

theorem OnlyWord.modCrew (s : State) (bid u : Nat) (f : Crew → Crew) : OnlyWord s (modCrew s u f) bid := ⟨fun _ _ => rfl, rfl⟩

theorem OnlyWord.perfAdd (s : State) (bid u i n : Nat) : OnlyWord s (perfAdd s u i n) bid := OnlyWord.modCrew ..

theorem OnlyWord.monSample (s : State) (bid a b c : Nat) : OnlyWord s (monSample s a b c) bid := ⟨fun _ _ => rfl, rfl⟩

theorem OnlyWord.countCopy (s : State) (bid u c : Nat) : OnlyWord s (countCopy s u c) bid := ⟨fun _ _ => rfl, rfl⟩

theorem OnlyWord.clearUpsets (s : State) (bid : Nat) (p : Upset → Bool) : OnlyWord s (clearUpsets s p) bid := by
  unfold Machine.clearUpsets; split
  · exact OnlyWord.refl ..
  · exact ⟨fun _ _ => rfl, rfl⟩

theorem OnlyWord.commitUpsets (s : State) (bid u : Nat) (p : Tile → Bool) : OnlyWord s (commitUpsets s u p) bid := by
  unfold Machine.commitUpsets; split
  · exact OnlyWord.refl ..
  · exact ⟨fun _ _ => rfl, rfl⟩

theorem OnlyWord.endWait (s : State) (bid : Nat) (b : Batch) : OnlyWord s (endWait s b) bid := by
  unfold Machine.endWait
  split
  · exact OnlyWord.refl ..
  · next k _ =>
    cases k <;> first
      | exact ⟨fun _ _ => rfl, rfl⟩
      | (dsimp only; split <;> exact ⟨fun _ _ => rfl, rfl⟩)

theorem OnlyWord.raiseFlags (s : State) (bid u : Nat) (fl : LaneFlags) : OnlyWord s (raiseFlags s u fl) bid := by
  unfold Machine.raiseFlags; split
  · exact OnlyWord.refl ..
  · exact OnlyWord.modCrew ..

theorem OnlyWord.putPred (s : State) (bid : Nat) (act : List Nat) (n : Nat) (v : W32) :
    OnlyWord s (putPred s bid act n v) bid := OnlyWord.modBatch _ _ _ fun _ => rfl

theorem OnlyWord.storeReg (s : State) (b : Batch) (i : Nat) (v : RegVal) : OnlyWord s (storeReg s b i v) b.id := by
  unfold Machine.storeReg; split
  · exact OnlyWord.modBatch _ _ _ fun _ => rfl
  · split
    · exact OnlyWord.modBatch _ _ _ fun _ => rfl
    · exact OnlyWord.modBatch _ _ _ fun _ => rfl

theorem OnlyWord.putReg (s : State) (bid : Nat) (act : List Nat) (i : Nat) (v : RegVal) : OnlyWord s (putReg s bid act i v) bid := by
  unfold Machine.putReg
  split
  · exact OnlyWord.refl ..
  · next b hb =>
    have hid := findBatch_id hb
    subst hid
    refine OnlyWord.trans ?_ (OnlyWord.storeReg _ b i _)
    refine OnlyWord.trans ?_ (OnlyWord.clearUpsets _ _ _)
    cases bankReg s b i <;> first | exact OnlyWord.refl .. | exact OnlyWord.countCopy ..

theorem OnlyWord.putRegs (s : State) (bid : Nat) (act : List Nat) (vs : List (Nat × RegVal)) :
    OnlyWord s (putRegs s bid act vs) bid := by
  induction vs generalizing s with
  | nil => exact OnlyWord.refl ..
  | cons p ps ih => exact OnlyWord.trans (OnlyWord.putReg s bid act p.1 p.2) (ih _)

theorem OnlyWord.pushWindow (s : State) (bid : Nat) (e : WinEntry) : OnlyWord s (pushWindow s bid e) bid :=
  OnlyWord.modBatch _ _ _ fun _ => rfl

theorem OnlyWord.writeResults (s : State) (bid : Nat) (act : List Nat) (sp : Spec) (regs : List (Nat × RegVal)) (fl : LaneFlags) :
    OnlyWord s (writeResults s bid act sp regs fl) bid := by
  unfold Machine.writeResults
  split
  · refine OnlyWord.trans ?_ (OnlyWord.pushWindow ..)
    split
    · exact OnlyWord.refl ..
    · exact OnlyWord.modBatch _ _ _ fun _ => rfl
  · split
    · split
      · exact OnlyWord.refl ..
      · exact OnlyWord.pushWindow ..
    · exact OnlyWord.trans (OnlyWord.putRegs ..) (OnlyWord.pushWindow ..)

theorem OnlyWord.advance (s : State) (bid : Nat) : OnlyWord s (advance s bid) bid := OnlyWord.modBatch _ _ _ fun _ => rfl

theorem OnlyWord.commitTiles (s : State) (bid j : Nat) : OnlyWord s (commitTiles s bid) j := by
  unfold Machine.commitTiles; split
  · exact OnlyWord.refl ..
  · exact OnlyWord.trans (OnlyWord.commitUpsets ..) (OnlyWord.modCrew ..)

theorem OnlyWord.closeRegion (s : State) (bid : Nat) : OnlyWord s (closeRegion s bid) bid :=
  OnlyWord.trans (OnlyWord.commitTiles ..) (OnlyWord.modBatch _ _ _ fun _ => rfl)

theorem OnlyWord.park (s : State) (bid : Nat) : OnlyWord s (park s bid) bid := OnlyWord.modBatch _ _ _ fun _ => rfl

theorem OnlyWord.retire (s : State) (bid : Nat) (sp : Spec) : OnlyWord s (retire s bid sp) bid := by
  unfold Machine.retire
  have h : OnlyWord s (if sp.closes then Machine.closeRegion s bid else s) bid := by
    split
    · exact OnlyWord.closeRegion ..
    · exact OnlyWord.refl ..
  revert h
  generalize (if sp.closes then Machine.closeRegion s bid else s) = s1
  intro h
  simp only
  split
  · exact h
  · split
    · exact OnlyWord.trans h (OnlyWord.park ..)
    · exact h

/-! ### Crews -/

/-- A view of the crews that counters do not show in. -/
def CrewsAs {α : Type} (g : Crew → α) (s t : State) : Prop := t.crews.map g = s.crews.map g

theorem CrewsAs.refl {α : Type} (g : Crew → α) (s : State) : CrewsAs g s s := rfl

theorem CrewsAs.trans {α : Type} {g : Crew → α} {s t u : State} (h : CrewsAs g s t) (k : CrewsAs g t u) : CrewsAs g s u :=
  Eq.trans k h

theorem CrewsAs.of_eq {α : Type} {g : Crew → α} {s t : State} (h : t.crews = s.crews) : CrewsAs g s t := by
  unfold CrewsAs; rw [h]

theorem CrewsAs.modCrew {α : Type} {g : Crew → α} (s : State) (u : Nat) (f : Crew → Crew) (hf : ∀ c, g (f c) = g c) :
    CrewsAs g s (modCrew s u f) := by
  unfold CrewsAs Machine.modCrew
  simp only [List.map_map]
  apply List.map_congr_left
  intro c _
  simp only [Function.comp]
  split
  · exact hf c
  · rfl

section
variable {α : Type} {g : Crew → α} (hg : ∀ c k, g { c with counters := k } = g c)
include hg

theorem CrewsAs.perfAdd (s : State) (u i n : Nat) : CrewsAs g s (perfAdd s u i n) := CrewsAs.modCrew _ _ _ fun c => hg c _

theorem CrewsAs.countCopy (s : State) (u c : Nat) : CrewsAs g s (countCopy s u c) :=
  CrewsAs.trans (CrewsAs.perfAdd hg s u 1 1) (CrewsAs.of_eq rfl)

theorem CrewsAs.endWait (s : State) (b : Batch) : CrewsAs g s (endWait s b) := by
  unfold Machine.endWait
  split
  · exact CrewsAs.refl ..
  · next k _ =>
    cases k <;> first
      | exact CrewsAs.of_eq rfl
      | exact CrewsAs.trans (CrewsAs.perfAdd hg s b.crew 6 _) (CrewsAs.of_eq rfl)
      | (dsimp only; split <;> exact CrewsAs.of_eq rfl)

theorem CrewsAs.putReg (s : State) (bid : Nat) (act : List Nat) (i : Nat) (v : RegVal) : CrewsAs g s (putReg s bid act i v) := by
  unfold Machine.putReg
  split
  · exact CrewsAs.refl ..
  · next b hb =>
    have h1 : ∀ (s : State) (v : RegVal), CrewsAs g s (storeReg s b i v) := by
      intro s v; unfold Machine.storeReg; split
      · exact CrewsAs.of_eq rfl
      · split <;> exact CrewsAs.of_eq rfl
    have h2 : ∀ (s : State) (p : Upset → Bool), CrewsAs g s (clearUpsets s p) := by
      intro s p; unfold Machine.clearUpsets; split <;> exact CrewsAs.of_eq rfl
    refine CrewsAs.trans ?_ (h1 _ _)
    refine CrewsAs.trans ?_ (h2 _ _)
    cases bankReg s b i <;> first | exact CrewsAs.refl .. | exact CrewsAs.countCopy hg ..

theorem CrewsAs.putRegs (s : State) (bid : Nat) (act : List Nat) (vs : List (Nat × RegVal)) :
    CrewsAs g s (putRegs s bid act vs) := by
  induction vs generalizing s with
  | nil => exact CrewsAs.refl ..
  | cons p ps ih => exact CrewsAs.trans (CrewsAs.putReg hg s bid act p.1 p.2) (ih _)

theorem CrewsAs.writeResults (s : State) (bid : Nat) (act : List Nat) (sp : Spec) (regs : List (Nat × RegVal)) (fl : LaneFlags) :
    CrewsAs g s (writeResults s bid act sp regs fl) := by
  unfold Machine.writeResults
  split
  · split <;> exact CrewsAs.of_eq rfl
  · split
    · split
      · exact CrewsAs.refl ..
      · exact CrewsAs.of_eq rfl
    · exact CrewsAs.trans (CrewsAs.putRegs hg ..) (CrewsAs.of_eq rfl)

omit hg in
theorem CrewsAs.retire (s : State) (bid : Nat) (sp : Spec) (hc : sp.closes = false) : CrewsAs g s (retire s bid sp) := by
  unfold Machine.retire
  simp only [hc]
  simp only [Bool.false_eq_true, if_false]
  split
  · exact CrewsAs.refl ..
  · split
    · exact CrewsAs.of_eq rfl
    · exact CrewsAs.refl ..

end

/-- Flags do not change where a region closes. -/
theorem commitTiles_flags (s : State) (bid : Nat) : CrewsAs (fun k => (k.uid, k.fpStat)) s (commitTiles s bid) := by
  unfold commitTiles; split
  · exact CrewsAs.refl ..
  · exact CrewsAs.trans (CrewsAs.of_eq (by unfold commitUpsets; split <;> rfl)) (CrewsAs.modCrew _ _ _ fun _ => rfl)

theorem retire_flags (s : State) (bid : Nat) (sp : Spec) : CrewsAs (fun k => (k.uid, k.fpStat)) s (retire s bid sp) := by
  unfold Machine.retire
  have h : CrewsAs (fun k => (k.uid, k.fpStat)) s (if sp.closes then Machine.closeRegion s bid else s) := by
    split
    · exact CrewsAs.trans (commitTiles_flags s bid) (CrewsAs.of_eq rfl)
    · exact CrewsAs.refl ..
  revert h
  generalize (if sp.closes then Machine.closeRegion s bid else s) = s1
  intro h
  simp only
  split
  · exact h
  · split
    · exact CrewsAs.trans h (CrewsAs.of_eq rfl)
    · exact h

/-! ### The batch through each part -/

theorem laneList_getD (f : Nat → W32) (l : Nat) (h : l < 32) : (laneList f).getD l 0 = f l := by
  unfold laneList lanes32
  simp [List.getD, h]

theorem laneVal_laneList (f : Nat → W32) (l : Nat) (h : l < 32) : laneVal (.g (laneList f)) l = f l := laneList_getD f l h

/-- A register write gives each active lane its new value. -/
theorem laneVal_mergeReg (live act : List Nat) (old new : RegVal) (l : Nat) (h : l ∈ act) (hl : l ∈ live) (h32 : l < 32) :
    laneVal (mergeReg live act old new) l = laneVal new l := by
  have ha : act.contains l = true := by simpa using h
  have hv : live.contains l = true := by simpa using hl
  unfold mergeReg
  split
  · cases new with
    | g ls => simp only [laneVal_laneList _ _ h32, hv, if_true]; rfl
    | _ => rfl
  · simp only [laneVal_laneList _ _ h32, ha, if_true]

theorem mergeReg_ne_t (live act : List Nat) (old new : RegVal) (hn : ∀ i, new ≠ .t i) (i : Nat) :
    mergeReg live act old new ≠ .t i := by
  unfold mergeReg
  split
  · cases new with
    | t j => exact absurd rfl (hn j)
    | _ => simp
  · simp

/-- The same of a write over the register itself, which keeps G. -/
theorem laneVal_overReg (live act : List Nat) (old new : RegVal) (l : Nat) (h : l ∈ act) (hl : l ∈ live) (h32 : l < 32) :
    laneVal (overReg live act old new) l = laneVal new l := by
  have hv : live.contains l = true := by simpa using hl
  unfold overReg
  split
  · rw [laneVal_laneList _ _ h32, if_pos hv, laneVal_mergeReg _ _ _ _ _ h hl h32]
  · exact laneVal_mergeReg _ _ _ _ _ h hl h32

theorem overReg_ne_t (live act : List Nat) (old new : RegVal) (hn : ∀ i, new ≠ .t i) (i : Nat) :
    overReg live act old new ≠ .t i := by
  unfold overReg
  split
  · simp
  · exact mergeReg_ne_t live act _ new hn i

/-- The values of stored registers depend on these parts alone. -/
theorem bankReg_congr {s t : State} {b c : Batch} (hr : c.regs = b.regs) (hk : c.kregs = b.kregs) (hx : c.xregs = b.xregs)
    (i : Nat) : bankReg t c i = bankReg s b i := by
  unfold bankReg; rw [hr, hk, hx]

theorem Holds_congr {b c : Batch} (hr : c.regs = b.regs) (hk : c.kregs = b.kregs) (hx : c.xregs = b.xregs) (i : Nat) :
    Holds c i ↔ Holds b i := by
  unfold Holds; rw [hr, hk, hx]

/-- What storing a register does to the registers of its batch. -/
theorem storeReg_spec (s : State) (b : Batch) (i : Nat) (v : RegVal) (hb : findBatch s b.id = some b) :
    ∃ c, findBatch (storeReg s b i v) b.id = some c ∧ c = { b with regs := c.regs, kregs := c.kregs, xregs := c.xregs } ∧
      (∀ j, j ≠ i → bankReg (storeReg s b i v) c j = bankReg s b j) ∧
      (Holds b i → bankReg (storeReg s b i v) c i = v) ∧
      (∀ j, Holds c j ↔ Holds b j) := by
  unfold storeReg
  split
  · next h512 =>
    refine ⟨{ b with kregs := b.kregs.set (i - 512) v }, ?_, rfl, ?_, ?_, ?_⟩
    · rw [findBatch_modBatch s b.id _ (by intro _; rfl), hb]; rfl
    · intro j hj
      unfold bankReg
      by_cases h : 512 ≤ j
      · have hne : i - 512 ≠ j - 512 := by omega
        simp [h, List.getD, List.getElem?_set_ne hne]
      · simp [h]
    · intro hh
      unfold Holds at hh
      simp only [h512, if_true] at hh
      simp [bankReg, h512, List.getD, List.getElem?_set_self hh]
    · intro j; unfold Holds; simp
  · next h512 =>
    split
    · next hn =>
      refine ⟨{ b with regs := b.regs.set i v }, ?_, rfl, ?_, ?_, ?_⟩
      · rw [findBatch_modBatch s b.id _ (by intro _; rfl), hb]; rfl
      · intro j hj
        unfold bankReg
        have hne : i ≠ j := fun e => hj e.symm
        simp [List.getD, List.getElem?_set_ne hne]
      · intro _
        simp [bankReg, h512, hn, List.getD]
      · intro j; unfold Holds; simp
    · next hn =>
      refine ⟨{ b with xregs := b.xregs.set (i - b.regs.length) v }, ?_, rfl, ?_, ?_, ?_⟩
      · rw [findBatch_modBatch s b.id _ (by intro _; rfl), hb]; rfl
      · intro j hj
        unfold bankReg
        by_cases h : 512 ≤ j
        · simp [h]
        · by_cases h' : j < b.regs.length
          · simp [h, h']
          · have hne : i - b.regs.length ≠ j - b.regs.length := by omega
            simp [h, h', List.getD, List.getElem?_set_ne hne]
      · intro hh
        unfold Holds at hh
        simp only [h512, hn, if_false] at hh
        simp [bankReg, h512, hn, List.getD, List.getElem?_set_self hh]
      · intro j; unfold Holds; simp

theorem clearUpsets_batches (s : State) (p : Upset → Bool) : (clearUpsets s p).batches = s.batches := by
  unfold clearUpsets; split <;> rfl

/-- A register write is a store of the merged value, from a state with the same batches. -/
theorem putReg_store (s : State) (act : List Nat) (i : Nat) (v : RegVal) (b : Batch) (hb : findBatch s b.id = some b) :
    ∃ s2 old, putReg s b.id act i v = storeReg s2 b i (overReg (liveLanes b) act old v) ∧ s2.batches = s.batches := by
  unfold putReg
  rw [hb]
  exact ⟨_, _, rfl, by rw [clearUpsets_batches]; split <;> rfl⟩

/-- What writing one register does: the batch keeps everything but its register lines, every other register keeps its
value, and the register has the new value in the written lanes. -/
theorem putReg_spec (s : State) (bid : Nat) (act : List Nat) (i : Nat) (v : RegVal) (b : Batch)
    (hb : findBatch s bid = some b) :
    ∃ c, findBatch (putReg s bid act i v) bid = some c ∧ c = { b with regs := c.regs, kregs := c.kregs, xregs := c.xregs } ∧
      (∀ j, j ≠ i → bankReg (putReg s bid act i v) c j = bankReg s b j) ∧
      (Holds b i → ∃ old, bankReg (putReg s bid act i v) c i = overReg (liveLanes b) act old v) ∧
      (∀ j, Holds c j ↔ Holds b j) := by
  have hid := findBatch_id hb
  subst hid
  obtain ⟨s2, old, he, h2⟩ := putReg_store s act i v b hb
  rw [he]
  have hb2 : findBatch s2 b.id = some b := by unfold findBatch; rw [h2]; exact hb
  obtain ⟨c, hc, hsame, hoth, hval, hh⟩ := storeReg_spec s2 b i (overReg (liveLanes b) act old v) hb2
  exact ⟨c, hc, hsame, fun j hj => (hoth j hj).trans (bankReg_congr rfl rfl rfl j), fun hi => ⟨old, hval hi⟩, hh⟩

/-- What writing several registers does. -/
theorem putRegs_spec (vs : List (Nat × RegVal)) (bid : Nat) (act : List Nat) : ∀ (s : State) (b : Batch),
    findBatch s bid = some b → (∀ l ∈ act, l ∈ liveLanes b) → (∀ p ∈ vs, ∀ i, p.2 ≠ .t i) →
    ∃ c, findBatch (putRegs s bid act vs) bid = some c ∧ c = { b with regs := c.regs, kregs := c.kregs, xregs := c.xregs } ∧
      (∀ j, (∀ p ∈ vs, p.1 ≠ j) → bankReg (putRegs s bid act vs) c j = bankReg s b j) ∧
      ((vs.map (·.1)).Nodup → ∀ p ∈ vs, Holds b p.1 →
        (∀ i, bankReg (putRegs s bid act vs) c p.1 ≠ .t i) ∧
        ∀ l ∈ act, l < 32 → laneVal (bankReg (putRegs s bid act vs) c p.1) l = laneVal p.2 l) ∧
      (∀ j, Holds c j ↔ Holds b j) := by
  induction vs with
  | nil =>
    intro s b hb _ _
    exact ⟨b, hb, rfl, fun _ _ => rfl, fun _ p hp => by simp at hp, fun _ => Iff.rfl⟩
  | cons q qs ih =>
    intro s b hb hact ht
    obtain ⟨c1, hc1, hs1, ho1, hv1, hh1⟩ := putReg_spec s bid act q.1 q.2 b hb
    have hlive : liveLanes c1 = liveLanes b := by rw [hs1]; rfl
    obtain ⟨c, hc, hs, ho, hv, hh⟩ := ih (putReg s bid act q.1 q.2) c1 hc1 (by rw [hlive]; exact hact)
      (fun p hp => ht p (List.mem_cons_of_mem _ hp))
    have hrun : putRegs s bid act (q :: qs) = putRegs (putReg s bid act q.1 q.2) bid act qs := rfl
    rw [hrun]
    refine ⟨c, hc, by rw [hs, hs1], ?_, ?_, fun j => (hh j).trans (hh1 j)⟩
    · intro j hj
      exact (ho j fun p hp => hj p (List.mem_cons_of_mem _ hp)).trans
        (ho1 j fun e => hj q List.mem_cons_self e.symm)
    · intro hnd p hp hhold
      simp only [List.map_cons, List.nodup_cons] at hnd
      rcases List.mem_cons.mp hp with rfl | hp
      · have hne : ∀ r ∈ qs, r.1 ≠ p.1 := fun r hr e => hnd.1 (by rw [← e]; exact List.mem_map_of_mem hr)
        rw [ho p.1 hne]
        obtain ⟨old, hm⟩ := hv1 hhold
        rw [hm]
        exact ⟨overReg_ne_t _ act old p.2 (ht p List.mem_cons_self),
          fun l hla h32 => laneVal_overReg _ act old p.2 l hla (hact l hla) h32⟩
      · exact hv hnd.2 p hp ((hh1 p.1).mpr hhold)

theorem readReg_bank (s : State) (b : Batch) (i : Nat) (hw : windowReg b.window i = none) (ht : ∀ j, bankReg s b i ≠ .t j) :
    readReg s b i = bankReg s b i := by
  unfold readReg rawReg
  rw [hw]
  simp only [Option.getD_none]

theorem kvGetFirst_map_none (vs : List (Nat × RegVal)) (i : Nat) (h : ∃ p ∈ vs, p.1 = i) :
    windowReg.kvGetFirst (vs.map fun p => (p.1, (none : Option RegVal))) i = some none := by
  induction vs with
  | nil => simp at h
  | cons q qs ih =>
    simp only [List.map_cons, windowReg.kvGetFirst]
    split
    · rfl
    · next hne =>
      obtain ⟨p, hp, rfl⟩ := h
      rcases List.mem_cons.mp hp with rfl | hp
      · exact absurd rfl hne
      · exact ih ⟨p, hp, rfl⟩

theorem kvGetFirst_map_some (vs : List (Nat × RegVal)) (f : Nat × RegVal → RegVal) (p : Nat × RegVal) (hp : p ∈ vs)
    (hnd : (vs.map (·.1)).Nodup) :
    windowReg.kvGetFirst (vs.map fun q => (q.1, some (f q))) p.1 = some (some (f p)) := by
  induction vs with
  | nil => simp at hp
  | cons q qs ih =>
    simp only [List.map_cons, List.nodup_cons] at hnd
    simp only [List.map_cons, windowReg.kvGetFirst]
    rcases List.mem_cons.mp hp with rfl | hp
    · simp
    · have : q.1 ≠ p.1 := fun e => hnd.1 (by rw [e]; exact List.mem_map_of_mem hp)
      simp only [this, if_false]
      exact ih hp hnd.2

theorem windowReg_take {e : WinEntry} {w : List WinEntry} {i : Nat} {v : Option RegVal}
    (h : windowReg.kvGetFirst e i = some v) : windowReg ((e :: w).take 8) i = v := by
  simp only [List.take_succ_cons, windowReg, h]

end Sys2Proof.Machine
end

