-- ==== Sys2Proof/Laws/Words.lean ====
section
/-! SUPPORT. What a ready word comes to: the runs of the three forms, and the retirement of a word whose own effect is a
list of results. -/
namespace Sys2Proof.Machine
open Sys2Proof

/-- The retirement of a word with results, as Operands.finish does it. -/
def fin (x : Exec) (s : State) (regs : List (Nat × RegVal)) (preds : List (Nat × W32)) (fl : LaneFlags) : State :=
  retire (advance (perfAdd (writeResults
    (preds.foldl (fun s p => putPred s x.b.id x.act p.1 p.2) (if x.sp.var then s else raiseFlags s x.b.crew fl))
    x.b.id x.act x.sp regs fl) x.b.crew 0 1) x.b.id) x.b.id x.sp

theorem finish_res (x : Exec) (regs : List (Nat × RegVal)) (preds : List (Nat × W32)) (fl : LaneFlags) :
    finish x (.res regs preds fl) = fin x (endWait x.s x.b) regs preds fl := rfl

theorem finish_done (x : Exec) (s : State) (regs : List (Nat × RegVal)) (preds : List (Nat × W32)) (fl : LaneFlags) :
    finish x (.done s regs preds fl) = fin x (endWait s x.b) regs preds fl := rfl

/-- The end of a wait touches no batch and no set. -/
theorem endWait_batches (s : State) (b : Batch) : (endWait s b).batches = s.batches ∧ (endWait s b).xsets = s.xsets := by
  unfold endWait
  split
  · exact ⟨rfl, rfl⟩
  · next k _ => cases k <;> first | exact ⟨rfl, rfl⟩ | (dsimp only; split <;> exact ⟨rfl, rfl⟩)

theorem raiseFlags_batches (s : State) (u : Nat) (fl : LaneFlags) :
    (raiseFlags s u fl).batches = s.batches ∧ (raiseFlags s u fl).xsets = s.xsets := by
  unfold raiseFlags; split <;> exact ⟨rfl, rfl⟩

/-- The change that one predicate write makes to a lane's fibre. -/
def predUpd (act : List Nat) (p : Nat × W32) (q : Nat × Fibre) : Nat × Fibre :=
  if act.contains q.1 then (q.1, { q.2 with pw := pwSet q.2.pw p.1 (p.2.getLsbD q.1) }) else q

theorem predBit_pwSet (pw : W32) (n m : Nat) (v : Bool) (hn : n < 32) :
    predBit (pwSet pw n v) m = if m = n then v else predBit pw m := by
  unfold predBit pwSet
  cases v
  · simp only [Bool.false_eq_true, if_false]
    rw [BitVec.getLsbD_and, BitVec.getLsbD_not, BitVec.getLsbD_shiftLeft, BitVec.getLsbD_one]
    by_cases e : m = n
    · subst e; simp [hn]
    · by_cases h : m < 32
      · simp only [h, e, decide_true, Bool.true_and]
        by_cases h2 : m < n
        · simp [h2]
        · have : ¬ (m - n = 0) := by omega
          simp [h2, this]
      · have : pw.getLsbD m = false := BitVec.getLsbD_of_ge _ _ (by omega)
        simp [this, e]
  · simp only [if_true]
    rw [BitVec.getLsbD_or, BitVec.getLsbD_shiftLeft, BitVec.getLsbD_one]
    by_cases e : m = n
    · subst e; simp [hn]
    · simp only [e, if_false]
      by_cases h2 : m < n
      · simp [h2]
      · have : ¬ (m - n = 0) := by omega
        simp [this]

/-- Setting a bit beyond the word changes nothing. -/
theorem predBit_pwSet_ne (pw : W32) (n m : Nat) (v : Bool) (hm : m ≠ n) : predBit (pwSet pw n v) m = predBit pw m := by
  unfold predBit pwSet
  have key : (1#32 <<< n).getLsbD m = false := by
    rw [BitVec.getLsbD_shiftLeft, BitVec.getLsbD_one]
    by_cases h2 : m < n
    · simp [h2]
    · have : ¬ (m - n = 0) := by omega
      simp [this]
  cases v
  · simp only [Bool.false_eq_true, if_false]
    rw [BitVec.getLsbD_and, BitVec.getLsbD_not, key]
    by_cases h : m < 32
    · simp [h]
    · have : pw.getLsbD m = false := BitVec.getLsbD_of_ge _ _ (by omega)
      simp [this]
  · simp only [if_true]
    rw [BitVec.getLsbD_or, key]; simp

theorem fibreOf_predUpd (b : Batch) (act : List Nat) (p : Nat × W32) (l : Nat) :
    kvGet (b.fibres.map (predUpd act p)) l = (kvGet b.fibres l).map fun f =>
      if act.contains l then { f with pw := pwSet f.pw p.1 (p.2.getLsbD l) } else f := by
  induction b.fibres with
  | nil => rfl
  | cons q qs ih =>
    obtain ⟨j, f⟩ := q
    simp only [List.map_cons]
    have hk : (predUpd act p (j, f)).1 = j := by unfold predUpd; split <;> rfl
    by_cases e : j = l
    · subst e
      have : predUpd act p (j, f) = (j, if act.contains j then { f with pw := pwSet f.pw p.1 (p.2.getLsbD j) } else f) := by
        unfold predUpd; split <;> simp_all
      rw [this]
      simp [kvGet]
    · have : predUpd act p (j, f) = (j, (predUpd act p (j, f)).2) := Prod.ext hk rfl
      rw [this]
      simp only [kvGet, e, if_false]
      exact ih

theorem kvGet_live (b : Batch) (l : Nat) (h : l ∈ liveLanes b) : ∃ f, kvGet b.fibres l = some f := by
  unfold liveLanes at h
  induction hb : b.fibres generalizing b with
  | nil => rw [hb] at h; simp at h
  | cons q qs ih =>
    obtain ⟨j, f⟩ := q
    by_cases e : j = l
    · exact ⟨f, by simp [kvGet, e]⟩
    · rw [hb] at h
      simp only [List.map_cons, List.mem_cons] at h
      rcases h with h | h
      · exact absurd h.symm e
      · obtain ⟨g, hg⟩ := ih { b with fibres := qs } h rfl
        exact ⟨g, by simp only [kvGet, e, if_false]; exact hg⟩

/-- Predicate writes change PWs and nothing else. -/
theorem putPreds_spec (preds : List (Nat × W32)) (bid : Nat) (act : List Nat) : ∀ (s : State) (b : Batch),
    findBatch s bid = some b → (∀ l ∈ act, l ∈ liveLanes b) →
    ∃ c, findBatch (preds.foldl (fun s p => putPred s bid act p.1 p.2) s) bid = some c ∧
      c = { b with fibres := c.fibres } ∧ c.fibres.map (·.1) = b.fibres.map (·.1) ∧
      ((preds.map (·.1)).Nodup → ∀ p ∈ preds, p.1 < 32 → ∀ l ∈ act, predBit (fibreOf c l).pw p.1 = p.2.getLsbD l) ∧
      (∀ n l, (l ∉ act ∨ ∀ p ∈ preds, p.1 ≠ n) → predBit (fibreOf c l).pw n = predBit (fibreOf b l).pw n) ∧
      (∀ l, { fibreOf c l with pw := 0 } = { fibreOf b l with pw := 0 }) ∧
      (preds.foldl (fun s p => putPred s bid act p.1 p.2) s).xsets = s.xsets := by
  induction preds with
  | nil => intro s b hb _; exact ⟨b, hb, rfl, rfl, fun _ p hp => by simp at hp, fun _ _ _ => rfl, fun _ => rfl, rfl⟩
  | cons p ps ih =>
    intro s b hb hact
    have h1 : findBatch (putPred s bid act p.1 p.2) bid = some { b with fibres := b.fibres.map (predUpd act p) } := by
      unfold putPred
      rw [findBatch_modBatch s bid _ (by intro _; rfl), hb]
      rfl
    have hmap : (b.fibres.map (predUpd act p)).map (·.1) = b.fibres.map (·.1) := by
      simp only [List.map_map]
      apply List.map_congr_left
      intro q _
      simp only [Function.comp]
      unfold predUpd
      split <;> rfl
    have hf : ∀ l, fibreOf { b with fibres := b.fibres.map (predUpd act p) } l =
        ((kvGet b.fibres l).map fun f => if act.contains l then { f with pw := pwSet f.pw p.1 (p.2.getLsbD l) } else f).getD {} := by
      intro l
      unfold fibreOf kvGetD
      rw [fibreOf_predUpd b act p l]
    obtain ⟨c, hc, hs, hl, hw, hk, hsame, hx⟩ := ih _ _ h1 (by intro l hm; unfold liveLanes; rw [hmap]; exact hact l hm)
    refine ⟨c, hc, by rw [hs], hl.trans hmap, ?_, ?_, ?_, hx.trans rfl⟩
    · intro hnd q hq hn l hm
      simp only [List.map_cons, List.nodup_cons] at hnd
      rcases List.mem_cons.mp hq with rfl | hq
      · have hne : ∀ r ∈ ps, r.1 ≠ q.1 := fun r hr e => hnd.1 (by rw [← e]; exact List.mem_map_of_mem hr)
        rw [hk q.1 l (.inr hne), hf]
        obtain ⟨f, hfl⟩ := kvGet_live b l (hact l hm)
        have ha : act.contains l = true := by simpa using hm
        rw [hfl]
        simp only [Option.map_some, Option.getD_some, ha, if_true]
        rw [predBit_pwSet _ _ _ _ hn, if_pos rfl]
      · exact hw hnd.2 q hq hn l hm
    · intro n l hnl
      have h2 : l ∉ act ∨ ∀ q ∈ ps, q.1 ≠ n := by
        rcases hnl with h | h
        · exact .inl h
        · exact .inr fun q hq => h q (List.mem_cons_of_mem _ hq)
      rw [hk n l h2, hf]
      unfold fibreOf kvGetD
      cases kvGet b.fibres l with
      | none => rfl
      | some f =>
        simp only [Option.map_some, Option.getD_some]
        split
        · next ha =>
          rcases hnl with h | h
          · exact absurd (by simpa using ha) h
          · exact predBit_pwSet_ne _ _ _ _ (fun e => h p List.mem_cons_self e.symm)
        · rfl
    · intro l
      rw [hsame l, hf]
      unfold fibreOf kvGetD
      cases kvGet b.fibres l with
      | none => rfl
      | some f =>
        simp only [Option.map_some, Option.getD_some]
        split <;> rfl

theorem readReg_window (s : State) (b : Batch) (i : Nat) (v : RegVal) (hw : windowReg b.window i = some v)
    (ht : ∀ j, v ≠ .t j) : readReg s b i = v := by
  unfold readReg rawReg
  rw [hw]
  simp only [Option.getD_some]

theorem pushWindow_find {s : State} {bid : Nat} {c : Batch} (e : WinEntry) (h : findBatch s bid = some c) :
    findBatch (pushWindow s bid e) bid = some { c with window := (e :: c.window).take 8 } := by
  unfold pushWindow
  rw [findBatch_modBatch s bid _ (by intro _; rfl), h]; rfl

/-- The batch after its results are written. -/
theorem writeResults_spec (s : State) (bid : Nat) (act : List Nat) (sp : Spec) (regs : List (Nat × RegVal)) (fl : LaneFlags)
    (b : Batch) (hb : findBatch s bid = some b) (hact : ∀ l ∈ act, l ∈ liveLanes b) (ht : ∀ p ∈ regs, ∀ i, p.2 ≠ .t i) :
    ∃ c, findBatch (writeResults s bid act sp regs fl) bid = some c ∧
      c = { b with regs := c.regs, kregs := c.kregs, xregs := c.xregs, window := c.window, retbuf := c.retbuf } ∧
      (sp.var = false → (regs.map (·.1)).Nodup → ∀ p ∈ regs, (sp.eph = false → Holds b p.1) →
        ∀ l ∈ act, l < 32 → laneVal (readReg (writeResults s bid act sp regs fl) c p.1) l = laneVal p.2 l) ∧
      (sp.var = true → c.retbuf = b.retbuf ++ (if regs.isEmpty then [] else [.result (maskOf act) regs fl])) ∧
      (∀ i, (∀ p ∈ regs, p.1 ≠ i) ∨ sp.var = true ∨ sp.eph = true →
        bankReg (writeResults s bid act sp regs fl) c i = bankReg s b i) := by
  unfold writeResults
  split
  · next hv =>
    split
    · next he =>
      refine ⟨_, pushWindow_find [] hb, rfl, by simp [hv], ?_, fun i _ => rfl⟩
      intro _; simp
    · next he =>
      have hp : findBatch (modBatch s bid fun b => { b with retbuf := b.retbuf ++ [.result (maskOf act) regs fl] }) bid =
          some { b with retbuf := b.retbuf ++ [.result (maskOf act) regs fl] } := by
        rw [findBatch_modBatch s bid _ (by intro _; rfl), hb]; rfl
      refine ⟨_, pushWindow_find [] hp, rfl, by simp [hv], ?_, fun i _ => rfl⟩
      intro _; simp
  · next hv =>
    have hv' : sp.var = false := by simpa using hv
    split
    · next he =>
      rw [hb]
      simp only
      refine ⟨_, pushWindow_find _ hb, rfl, ?_, by simp [hv'], fun i _ => rfl⟩
      intro _ hnd p hp _ l hl h32
      have hk := kvGetFirst_map_some regs (fun q => mergeReg (liveLanes b) act (readReg s b q.1) q.2) p hp hnd
      have hw := windowReg_take (w := b.window) hk
      rw [readReg_window _ _ _ _ hw (fun j => mergeReg_ne_t _ _ _ _ (ht p hp) j)]
      exact laneVal_mergeReg _ _ _ _ l hl (hact l hl) h32
    · next he =>
      have he' : sp.eph = false := by simpa using he
      obtain ⟨c, hc, hs, ho, hw, _⟩ := putRegs_spec regs bid act s b hb hact ht
      refine ⟨_, pushWindow_find _ hc, by rw [hs], ?_, by simp [hv'], ?_⟩
      · intro _ hnd p hp hh l hl h32
        obtain ⟨h1, h2⟩ := hw hnd p hp (hh he')
        have hk := kvGetFirst_map_none regs p.1 ⟨p, hp, rfl⟩
        exact Eq.trans (congrArg (fun v => laneVal v l) (readReg_bank _ _ _ (windowReg_take hk) h1)) (h2 l hl h32)
      · intro i hi
        rcases hi with hi | hi | hi
        · exact ho i hi
        · simp [hv'] at hi
        · simp [he'] at hi

/-- A region's close finds the batch with these changes. -/
theorem closeRegion_find (s : State) (bid : Nat) (b : Batch) (hb : findBatch s bid = some b) :
    findBatch (closeRegion s bid) bid = some
        { b with newRegion := true, gatherAt := none, owed := b.retbuf.length, storesOwed := b.stores.length } ∧
      (closeRegion s bid).xsets = s.xsets := by
  have h : findBatch (commitTiles s bid) bid = some b ∧ (commitTiles s bid).xsets = s.xsets := by
    unfold commitTiles commitUpsets; rw [hb]; dsimp only; split <;> exact ⟨hb, rfl⟩
  unfold closeRegion
  refine ⟨?_, h.2⟩
  rw [findBatch_modBatch _ bid _ (by intro _; rfl), h.1]; rfl

/-- What retirement does to the batch. -/
theorem retire_find (s : State) (bid : Nat) (sp : Spec) (b : Batch) (hb : findBatch s bid = some b) :
    ∃ c, findBatch (retire s bid sp) bid = some c ∧ c = { b with
      parked := c.parked, parkedAt := c.parkedAt, newRegion := c.newRegion, gatherAt := c.gatherAt, owed := c.owed
      storesOwed := c.storesOwed } ∧
      (c.owed = if sp.closes then b.retbuf.length else b.owed) ∧
      (c.storesOwed = if sp.closes then b.stores.length else b.storesOwed) ∧ (retire s bid sp).xsets = s.xsets := by
  unfold retire
  have h : ∃ c, findBatch (if sp.closes then closeRegion s bid else s) bid = some c ∧ c = { b with
      newRegion := c.newRegion, gatherAt := c.gatherAt, owed := c.owed
      storesOwed := c.storesOwed } ∧
      (c.owed = if sp.closes then b.retbuf.length else b.owed) ∧
      (c.storesOwed = if sp.closes then b.stores.length else b.storesOwed) ∧ (if sp.closes then closeRegion s bid else s).xsets = s.xsets := by
    split
    · exact ⟨_, (closeRegion_find s bid b hb).1, rfl, rfl, rfl, (closeRegion_find s bid b hb).2⟩
    · exact ⟨b, hb, rfl, rfl, rfl, rfl⟩
  revert h
  generalize (if sp.closes then closeRegion s bid else s) = s1
  rintro ⟨c, hc, hs, ho, hso, hx⟩
  simp only
  rw [hc]
  simp only
  split
  · refine ⟨{ c with parked := true, parkedAt := s1.clock }, ?_, by rw [hs], ho, hso, hx⟩
    unfold park
    rw [findBatch_modBatch _ bid _ (by intro _; rfl), hc]; rfl
  · exact ⟨c, hc, by rw [hs], ho, hso, hx⟩

/-- The retirement of a word with results: the frame, the results and nothing else. -/
theorem fin_retires (x : Exec) (s : State) (b : Batch) (regs : List (Nat × RegVal)) (preds : List (Nat × W32)) (fl : LaneFlags)
    (hb : findBatch s x.b.id = some b) (hact : ∀ l ∈ x.act, l ∈ liveLanes b) (ht : ∀ p ∈ regs, ∀ i, p.2 ≠ .t i) :
    ∃ c, Retires x s (fin x (endWait s x.b) regs preds fl) b c regs preds fl := by
  have hid := findBatch_id hb
  -- the parts, one after the other
  obtain ⟨s1, hs1⟩ : ∃ s1, s1 = (if x.sp.var then endWait s x.b else raiseFlags (endWait s x.b) x.b.crew fl) := ⟨_, rfl⟩
  have h1 : s1.batches = s.batches ∧ s1.xsets = s.xsets := by
    rw [hs1]; split
    · exact endWait_batches s x.b
    · exact ⟨(raiseFlags_batches _ _ _).1.trans (endWait_batches s x.b).1, (raiseFlags_batches _ _ _).2.trans (endWait_batches s x.b).2⟩
  have hb1 : findBatch s1 x.b.id = some b := by unfold findBatch; rw [h1.1]; exact hb
  obtain ⟨c2, hc2, hsame2, hl2, hpw, hpk, hps, hx2⟩ := putPreds_spec preds x.b.id x.act s1 b hb1 hact
  obtain ⟨s2, hs2⟩ : ∃ s2, s2 = preds.foldl (fun s p => putPred s x.b.id x.act p.1 p.2) s1 := ⟨_, rfl⟩
  rw [← hs2] at hc2 hx2
  have hlive : liveLanes c2 = liveLanes b := hl2
  obtain ⟨c3, hc3, hsame3, hw3, hv3, hk3⟩ := writeResults_spec s2 x.b.id x.act x.sp regs fl c2 hc2 (by rw [hlive]; exact hact) ht
  obtain ⟨s3, hs3⟩ : ∃ s3, s3 = writeResults s2 x.b.id x.act x.sp regs fl := ⟨_, rfl⟩
  rw [← hs3] at hc3 hw3 hk3
  have hc4 : findBatch (advance (perfAdd s3 x.b.crew 0 1) x.b.id) x.b.id = some { c3 with pc := c3.pc + 8, block := none, fillWait := [] } := by
    unfold advance
    rw [findBatch_modBatch _ x.b.id _ (by intro _; rfl)]
    show (findBatch s3 x.b.id).map _ = _
    rw [hc3]; rfl
  obtain ⟨c5, hc5, hsame5, how5, hso5, _⟩ := retire_find _ x.b.id x.sp _ hc4
  have ht' : fin x (endWait s x.b) regs preds fl = retire (advance (perfAdd s3 x.b.crew 0 1) x.b.id) x.b.id x.sp := by
    rw [hs3, hs2, hs1]; rfl
  rw [ht']
  have hsame : c5 = { b with
      pc := b.pc + 8, block := none, fillWait := [], regs := c3.regs, kregs := c3.kregs, xregs := c3.xregs
      window := c3.window, retbuf := c3.retbuf, fibres := c2.fibres
      parked := c5.parked, parkedAt := c5.parkedAt, newRegion := c5.newRegion, gatherAt := c5.gatherAt
      owed := c5.owed, storesOwed := c5.storesOwed } := by
    rw [hsame5, hsame3, hsame2]
  have hfib : ∀ l, fibreOf c5 l = fibreOf c2 l := by intro l; rw [hsame]; rfl
  have hread : ∀ i, readReg (retire (advance (perfAdd s3 x.b.crew 0 1) x.b.id) x.b.id x.sp) c5 i = readReg s3 c3 i := by
    intro i
    have himg : ∀ img j, imageReg (retire (advance (perfAdd s3 x.b.crew 0 1) x.b.id) x.b.id x.sp) img j = imageReg s3 img j := by
      intro img j
      have := (OnlyWord.retire (advance (perfAdd s3 x.b.crew 0 1) x.b.id) x.b.id x.sp).rest
      rw [this]; rfl
    unfold readReg rawReg
    have hwin : c5.window = c3.window := by rw [hsame]
    rw [hwin, bankReg_congr (s := s3) (b := c3) (by rw [hsame]) (by rw [hsame]) (by rw [hsame])]
    split
    · rw [himg]
    · rfl
  have honly : OnlyWord s (retire (advance (perfAdd s3 x.b.crew 0 1) x.b.id) x.b.id x.sp) x.b.id := by
    refine OnlyWord.trans ?_ (OnlyWord.retire ..)
    refine OnlyWord.trans ?_ (OnlyWord.advance ..)
    refine OnlyWord.trans ?_ (OnlyWord.perfAdd ..)
    rw [hs3]
    refine OnlyWord.trans ?_ (OnlyWord.writeResults ..)
    have hfold : ∀ (ps : List (Nat × W32)) (s : State), OnlyWord s (ps.foldl (fun s p => putPred s x.b.id x.act p.1 p.2) s) x.b.id := by
      intro ps
      induction ps with
      | nil => intro s; exact OnlyWord.refl ..
      | cons p ps ih => intro s; exact OnlyWord.trans (OnlyWord.putPred ..) (ih _)
    rw [hs2]
    refine OnlyWord.trans ?_ (hfold preds s1)
    rw [hs1]
    split
    · exact OnlyWord.endWait ..
    · exact OnlyWord.trans (OnlyWord.endWait ..) (OnlyWord.raiseFlags ..)
  have hcrew1 : ∀ {α : Type} (g : Crew → α) (_ : ∀ c k, g { c with counters := k } = g c),
      CrewsAs g s1 (advance (perfAdd s3 x.b.crew 0 1) x.b.id) := by
    intro α g hg
    refine CrewsAs.trans ?_ (CrewsAs.of_eq (s := perfAdd s3 x.b.crew 0 1) rfl)
    refine CrewsAs.trans ?_ (CrewsAs.perfAdd hg ..)
    rw [hs3]
    refine CrewsAs.trans ?_ (CrewsAs.writeResults hg ..)
    refine CrewsAs.of_eq ?_
    rw [hs2]
    have : ∀ (ps : List (Nat × W32)) (s : State), (ps.foldl (fun s p => putPred s x.b.id x.act p.1 p.2) s).crews = s.crews := by
      intro ps
      induction ps with
      | nil => intro s; rfl
      | cons p ps ih => intro s; exact (ih _).trans rfl
    exact this preds s1
  have hcrew : ∀ {α : Type} (g : Crew → α) (_ : ∀ c k, g { c with counters := k } = g c), CrewsAs g s s1 →
      CrewsAs g s (advance (perfAdd s3 x.b.crew 0 1) x.b.id) := fun g hg h01 => CrewsAs.trans h01 (hcrew1 g hg)
  refine ⟨c5, ?_⟩
  constructor
  · rw [hid]; exact hc5
  · rw [hsame]
  · rw [hsame]
  · have hr : c5.retbuf = c3.retbuf := by rw [hsame]
    rw [how5, hr, hsame3, hsame2]
  · rw [hso5, hsame3, hsame2]
  · intro hv hnd p hp hh l hl h32
    rw [hread]
    refine hw3 hv hnd p hp ?_ l hl h32
    intro he
    exact (Holds_congr (by rw [hsame2]) (by rw [hsame2]) (by rw [hsame2]) p.1).mpr (hh he)
  · intro hv
    have := hv3 hv
    rw [hsame]
    simp only
    rw [this, hsame2]
  · intro i hi
    rw [bankReg_congr (s := s3) (b := c3) (by rw [hsame]) (by rw [hsame]) (by rw [hsame])]
    rw [hk3 i hi]
    exact bankReg_congr (by rw [hsame2]) (by rw [hsame2]) (by rw [hsame2]) i
  · intro hnd p hp hn l hl
    rw [hfib]; exact hpw hnd p hp hn l hl
  · intro n l hnl
    rw [hfib]; exact hpk n l hnl
  · intro l
    rw [hfib]; exact hps l
  · rw [hsame]; exact hl2
  · intro id hne
    refine honly.others id ?_
    rw [← hid]; exact hne
  · intro hc
    refine CrewsAs.trans (hcrew Crew.bare (fun _ _ => rfl) ?_) (CrewsAs.retire _ _ _ hc)
    rw [hs1]
    split
    · exact CrewsAs.endWait (fun _ _ => rfl) ..
    · refine CrewsAs.trans (CrewsAs.endWait (fun _ _ => rfl) s x.b) ?_
      unfold raiseFlags; split
      · exact CrewsAs.refl ..
      · exact CrewsAs.modCrew _ _ _ fun _ => rfl
  · have hmain : CrewsAs (fun k => (k.uid, k.fpStat)) s1 (retire (advance (perfAdd s3 x.b.crew 0 1) x.b.id) x.b.id x.sp) :=
      CrewsAs.trans (hcrew1 _ fun _ _ => rfl) (retire_flags ..)
    refine Eq.trans hmain ?_
    have hw : CrewsAs (fun k => (k.uid, k.fpStat)) s (endWait s x.b) := CrewsAs.endWait (fun _ _ => rfl) ..
    rw [hs1]
    cases hv : x.sp.var
    · simp only [Bool.false_eq_true, if_false, true_and]
      have hm := congrArg (List.map fun p : Nat × W32 => (p.1, if p.1 = x.b.crew then p.2 ||| allFlags fl else p.2)) hw
      rw [List.map_map, List.map_map] at hm
      refine Eq.trans ?_ hm
      unfold raiseFlags
      split
      · next h0 =>
        rw [h0]
        apply List.map_congr_left
        intro k _
        simp [Function.comp]
      · unfold modCrew
        simp only [List.map_map]
        apply List.map_congr_left
        intro k _
        simp only [Function.comp]
        split <;> rfl
    · simp only [if_true, Bool.true_eq_false, false_and, if_false]
      exact hw
  · exact honly.rest

/-! ### The runs of a ready word -/

theorem activeLanes_live (b : Batch) (g : W32 → Bool) : ∀ l ∈ activeLanes b g, l ∈ liveLanes b := by
  intro l hl
  unfold activeLanes at hl
  unfold liveLanes
  obtain ⟨p, hp, rfl⟩ := List.mem_map.mp hl
  exact List.mem_map_of_mem (List.mem_of_mem_filter hp)

theorem begunBatch_live (b : Batch) (rgn : Bool) : liveLanes (begunBatch b rgn) = liveLanes b := by
  unfold begunBatch; split <;> rfl

theorem begunBatch_id (b : Batch) (rgn : Bool) : (begunBatch b rgn).id = b.id := by
  unfold begunBatch; split <;> rfl

theorem startRegion_find (s : State) (b : Batch) (rgn : Bool) (id : Nat) (h : findBatch s id = some b) :
    findBatch (startRegion s b rgn) id = some (begunBatch b rgn) := by
  have hid := findBatch_id h
  subst hid
  unfold startRegion begunBatch
  split
  · rw [findBatch_modBatch s b.id _ (by intro _; rfl), h]; rfl
  · exact h

theorem startRegion_cur (s : State) (b : Batch) (rgn : Bool) : (startRegion s b rgn).cur = s.cur := by
  unfold startRegion; split <;> rfl

theorem decodeFault_begun (s : State) (b : Batch) (rgn : Bool) (act : List Nat) (sp : Spec) (ok : Bool) :
    decodeFault (startRegion s b rgn) (begunBatch b rgn) act sp ok = decodeFault s b act sp ok := by
  unfold startRegion begunBatch; split <;> rfl

/-- A change of a batch that leaves its slot and its lanes leaves every error with its part. -/
theorem ownLane_modBatch (s : State) (i : Nat) (f : Batch → Batch) (b : Batch) (l : Nat)
    (h : ∀ c, (f c).id = c.id ∧ (f c).core = c.core ∧ (f c).slot = c.slot ∧ (f c).fibres = c.fibres) :
    ownLane (modBatch s i f) b l = ownLane s b l := by
  unfold ownLane modBatch
  simp only [List.all_map]
  congr 1
  funext c
  simp only [Function.comp]
  split
  · simp only [(h c).1, (h c).2.1, (h c).2.2.1, (h c).2.2.2]
  · rfl

theorem regUpsets_begun (s : State) (b : Batch) (rgn : Bool) (i : Nat) :
    regUpsets (startRegion s b rgn) (begunBatch b rgn) i = regUpsets s b i := by
  have ho : ∀ l, ownLane (startRegion s b rgn) (begunBatch b rgn) l = ownLane s b l := by
    intro l
    unfold startRegion begunBatch
    split
    · exact ownLane_modBatch s b.id _ b l fun _ => ⟨rfl, rfl, rfl, rfl⟩
    · rfl
  have hr : regSlot (begunBatch b rgn) i = regSlot b i := by unfold begunBatch; split <;> rfl
  have hc : (begunBatch b rgn).core = b.core := by unfold begunBatch; split <;> rfl
  have hs : (startRegion s b rgn).upsets = s.upsets := by unfold startRegion; split <;> rfl
  unfold regUpsets
  simp only [ho, hr, hc, hs]

theorem readFault_begun (s : State) (b : Batch) (rgn : Bool) (act : List Nat) (sp : Spec) :
    readFault (startRegion s b rgn) (begunBatch b rgn) act sp = readFault s b act sp := by
  have hu := regUpsets_begun s b rgn
  have hb : ∀ i, bankReg (startRegion s b rgn) (begunBatch b rgn) i = bankReg s b i := by
    unfold startRegion begunBatch; split <;> exact fun _ => rfl
  have hs : (startRegion s b rgn).upsets = s.upsets := by unfold startRegion; split <;> rfl
  have hw : (begunBatch b rgn).window = b.window := by unfold begunBatch; split <;> rfl
  have hn : ∀ k n j, absName (begunBatch b rgn) k n j = absName b k n j := by
    unfold begunBatch; split <;> exact fun _ _ _ => rfl
  unfold readFault writeFault overFault regFault
  simp only [hu, hb, hs, hw, hn, begunBatch_live]

/-- A ready word runs its own part from where its effect starts. -/
theorem runWord_ready (s : State) (guard : W32 → Bool) (sp : Spec) (ok : Bool) (body : Exec → Eff) (b : Batch)
    (h : Ready s b (activeLanes b guard) sp ok) :
    runWord s guard sp ok body =
      .next (finish ⟨startRegion s b sp.rgn, begunBatch b sp.rgn, activeLanes b guard, sp⟩
        (body ⟨startRegion s b sp.rgn, begunBatch b sp.rgn, activeLanes b guard, sp⟩)) := by
  unfold runWord
  rw [h.cur]
  simp only [h.free, Bool.false_eq_true, if_false, startRegion_cur, startRegion_find s b sp.rgn s.cur h.cur,
    decodeFault_begun, h.legal, readFault_begun, h.whole, Option.or, ite_self]
  have : (activeLanes b guard).isEmpty = false := by
    cases hl : activeLanes b guard with
    | nil => exact absurd hl h.active
    | cons _ _ => rfl
  simp only [this, Bool.false_eq_true, if_false]

theorem coreD_modCore (s : State) (i j : Nat) (f : Core → Core) :
    coreD (modCore s i f) j = if j = i ∧ j < s.cores.length then f (coreD s j) else coreD s j := by
  unfold coreD modCore
  simp only
  rw [listMod_getD]

theorem holdQuad_find (s : State) (b : Batch) (sp : Spec) (id : Nat) : findBatch (holdQuad s b sp) id = findBatch s id := by
  unfold holdQuad; simp only; split <;> rfl

theorem holdQuad_cur (s : State) (b : Batch) (sp : Spec) : (holdQuad s b sp).cur = s.cur := by
  unfold holdQuad; simp only; split <;> rfl

theorem holdQuad_passes (s : State) (b : Batch) (sp : Spec) (j : Nat) : (coreD (holdQuad s b sp) j).passes = (coreD s j).passes := by
  unfold holdQuad
  simp only
  split
  · rfl
  · rw [coreD_modCore]; split <;> rfl

/-- Holding a quadrant changes nothing that a ready word looks at. -/
theorem Ready.hold {s : State} {b : Batch} {act : List Nat} {sp : Spec} {ok : Bool} (h : Ready s b act sp ok) :
    Ready (holdQuad s b sp) b act sp ok where
  cur := by rw [holdQuad_find, holdQuad_cur]; exact h.cur
  active := h.active
  free := by
    have := h.free
    unfold mustPark outstanding hasQuarters at this ⊢
    rw [holdQuad_passes]; exact this
  legal := by
    have := h.legal
    unfold holdQuad
    simp only
    split
    · exact this
    · exact this
  whole := by
    have := h.whole
    unfold holdQuad
    simp only
    split
    · exact this
    · exact this

theorem runF_ready (s : State) (w : FWord) (sp : Spec) (body : Exec → Eff) (b : Batch) (h : Ready s b (actF b w) sp true) :
    runF s w sp body = .next (finish (fExec s b w sp) (body (fExec s b w sp))) := by
  unfold runF
  rw [h.cur]
  have hp : mustPark s b (activeLanes b (guardFI w.gp w.gn)) sp = false := h.free
  simp only [hp, Bool.false_eq_true, if_false]
  exact runWord_ready _ _ sp true body b h.hold

theorem runI_ready (s : State) (w : IWord) (sp : Spec) (body : Exec → Eff) (b : Batch) (h : Ready s b (actI b w) sp true) :
    runI s w sp body = .next (finish (iExec s b w sp) (body (iExec s b w sp))) :=
  runWord_ready _ _ sp true body b h

/-! ### The start of a word's own effect -/

theorem fExec_find (s : State) (b : Batch) (w : FWord) (sp : Spec) (h : findBatch s s.cur = some b) :
    findBatch (fExec s b w sp).s (fExec s b w sp).b.id = some (fExec s b w sp).b := by
  have hid := findBatch_id h
  unfold fExec
  simp only [begunBatch_id, hid]
  exact startRegion_find _ b sp.rgn _ (by rw [holdQuad_find]; exact h)

theorem iExec_find (s : State) (b : Batch) (w : IWord) (sp : Spec) (h : findBatch s s.cur = some b) :
    findBatch (iExec s b w sp).s (iExec s b w sp).b.id = some (iExec s b w sp).b := by
  have hid := findBatch_id h
  unfold iExec
  simp only [begunBatch_id, hid]
  exact startRegion_find _ b sp.rgn _ h

theorem fExec_live (s : State) (b : Batch) (w : FWord) (sp : Spec) : ∀ l ∈ (fExec s b w sp).act, l ∈ liveLanes (fExec s b w sp).b := by
  intro l hl
  unfold fExec at hl ⊢
  simp only [begunBatch_live]
  exact activeLanes_live b _ l hl

theorem iExec_live (s : State) (b : Batch) (w : IWord) (sp : Spec) : ∀ l ∈ (iExec s b w sp).act, l ∈ liveLanes (iExec s b w sp).b := by
  intro l hl
  unfold iExec at hl ⊢
  simp only [begunBatch_live]
  exact activeLanes_live b _ l hl

/-- A ready F-form word whose own part is a list of results retires with them. -/
theorem runF_res (s : State) (w : FWord) (sp : Spec) (body : Exec → Eff) (b : Batch) (regs : List (Nat × RegVal))
    (preds : List (Nat × W32)) (fl : LaneFlags) (h : Ready s b (actF b w) sp true)
    (hbody : body (fExec s b w sp) = .res regs preds fl) (ht : ∀ p ∈ regs, ∀ i, p.2 ≠ .t i) :
    ∃ t, runF s w sp body = .next t ∧ Yields (fExec s b w sp) t regs preds fl := by
  refine ⟨_, runF_ready s w sp body b h, ?_⟩
  rw [hbody, finish_res]
  exact fin_retires _ _ _ regs preds fl (fExec_find s b w sp h.cur) (fExec_live s b w sp) ht

theorem runI_res (s : State) (w : IWord) (sp : Spec) (body : Exec → Eff) (b : Batch) (regs : List (Nat × RegVal))
    (preds : List (Nat × W32)) (fl : LaneFlags) (h : Ready s b (actI b w) sp true)
    (hbody : body (iExec s b w sp) = .res regs preds fl) (ht : ∀ p ∈ regs, ∀ i, p.2 ≠ .t i) :
    ∃ t, runI s w sp body = .next t ∧ Yields (iExec s b w sp) t regs preds fl := by
  refine ⟨_, runI_ready s w sp body b h, ?_⟩
  rw [hbody, finish_res]
  exact fin_retires _ _ _ regs preds fl (iExec_find s b w sp h.cur) (iExec_live s b w sp) ht

theorem runF_done (s : State) (w : FWord) (sp : Spec) (body : Exec → Eff) (b c : Batch) (u : State) (regs : List (Nat × RegVal))
    (preds : List (Nat × W32)) (fl : LaneFlags) (h : Ready s b (actF b w) sp true)
    (hbody : body (fExec s b w sp) = .done u regs preds fl) (ht : ∀ p ∈ regs, ∀ i, p.2 ≠ .t i)
    (hc : findBatch u b.id = some c) (hl : liveLanes c = liveLanes b) :
    ∃ t, runF s w sp body = .next t ∧ ∃ d, Retires (fExec s b w sp) u t c d regs preds fl := by
  refine ⟨_, runF_ready s w sp body b h, ?_⟩
  rw [hbody, finish_done]
  have hid : (fExec s b w sp).b.id = b.id := begunBatch_id b sp.rgn
  refine fin_retires _ _ c regs preds fl (by rw [hid]; exact hc) ?_ ht
  intro l hm
  rw [hl]
  exact activeLanes_live b _ l hm

theorem runI_done (s : State) (w : IWord) (sp : Spec) (body : Exec → Eff) (b c : Batch) (u : State) (regs : List (Nat × RegVal))
    (preds : List (Nat × W32)) (fl : LaneFlags) (h : Ready s b (actI b w) sp true)
    (hbody : body (iExec s b w sp) = .done u regs preds fl) (ht : ∀ p ∈ regs, ∀ i, p.2 ≠ .t i)
    (hc : findBatch u b.id = some c) (hl : liveLanes c = liveLanes b) :
    ∃ t, runI s w sp body = .next t ∧ ∃ d, Retires (iExec s b w sp) u t c d regs preds fl := by
  refine ⟨_, runI_ready s w sp body b h, ?_⟩
  rw [hbody, finish_done]
  have hid : (iExec s b w sp).b.id = b.id := begunBatch_id b sp.rgn
  refine fin_retires _ _ c regs preds fl (by rw [hid]; exact hc) ?_ ht
  intro l hm
  rw [hl]
  exact activeLanes_live b _ l hm

/-! ### Lane results -/

/-- A lane function of uniform sources gives one value in every lane. -/
theorem laneResult_val (x : Exec) (pure : Bool) (f : Nat → W32) (l : Nat) (hl : l ∈ x.act) (h32 : l < 32)
    (hp : pure = true → ∀ i j, f i = f j) : laneVal (laneResult x pure f) l = f l := by
  unfold laneResult
  cases pure with
  | true => exact hp rfl _ _
  | false =>
    have : x.act.contains l = true := by simpa using hl
    simp only [Bool.false_eq_true, if_false, laneVal_laneList _ _ h32, this, if_true]

theorem laneResult_ne_t (x : Exec) (pure : Bool) (f : Nat → W32) (i : Nat) : laneResult x pure f ≠ .t i := by
  unfold laneResult; split <;> simp

theorem laneVal_uni (v : RegVal) (h : isUni v = true) (i j : Nat) : laneVal v i = laneVal v j := by
  cases v <;> simp_all [isUni, laneVal]

/-- A field whose registers are uniform reads alike in all lanes. -/
theorem lane_uni (x : Exec) (f : Fld) (n k : Nat) (hu : uniField x f n = true) (hk : k < n) (i j : Nat) :
    lane x f k i = lane x f k j := by
  unfold uniField at hu
  rw [List.all_eq_true] at hu
  have := hu k (List.mem_range.mpr hk)
  unfold lane regOf readReg
  generalize rawReg x.s x.b (nameOf x f k) = v at this
  cases v <;> simp_all [isUni, laneVal]

theorem lane_uniSrcs (x : Exec) (fs : List Fld) (hu : uniSrcs x fs = true) (f : Fld) (hf : f ∈ fs) (n al k : Nat) (q : W9)
    (hc : fieldOf x.sp f = some (.v n al, q)) (hk : k < n) (i j : Nat) : lane x f k i = lane x f k j := by
  unfold uniSrcs at hu
  rw [List.all_eq_true] at hu
  have := hu f hf
  rw [hc] at this
  exact lane_uni x f n k this hk i j

/-- A ready word of one register result by lanes. -/
theorem alu_ready (s : State) (w : FWord) (sp : Spec) (srcs : List Fld) (f : Exec → Nat → W32) (b : Batch)
    (h : Ready s b (actF b w) sp true)
    (hu : uniSrcs (fExec s b w sp) srcs = true → ∀ i j, f (fExec s b w sp) i = f (fExec s b w sp) j) :
    ∃ t v, alu s w sp srcs f = .next t ∧ Yields (fExec s b w sp) t [(nameOf (fExec s b w sp) .d 0, v)] [] [] ∧
      ∀ l ∈ actF b w, l < 32 → laneVal v l = f (fExec s b w sp) l := by
  obtain ⟨t, ht, hy⟩ := runF_res s w sp
    (fun x => .res [(nameOf x .d 0, laneResult x (uniSrcs x srcs) (f x))] [] []) b
    [(nameOf (fExec s b w sp) .d 0, laneResult (fExec s b w sp) (uniSrcs (fExec s b w sp) srcs) (f (fExec s b w sp)))] [] [] h rfl
    (by
      intro p hp i
      rw [List.mem_singleton] at hp
      subst hp
      exact laneResult_ne_t _ _ _ i)
  exact ⟨t, _, ht, hy, fun l hl h32 => laneResult_val _ _ _ l hl h32 hu⟩

/-- The same with FP flags. -/
theorem fpu_ready (s : State) (w : FWord) (sp : Spec) (srcs : List Fld) (f : Exec → Nat → Nat × Nat) (b : Batch)
    (h : Ready s b (actF b w) sp true)
    (hu : uniSrcs (fExec s b w sp) srcs = true → ∀ i j, f (fExec s b w sp) i = f (fExec s b w sp) j) :
    ∃ t v, fpu s w sp srcs f = .next t ∧
      Yields (fExec s b w sp) t [(nameOf (fExec s b w sp) .d 0, v)] []
        ((actF b w).map fun l => (l, BitVec.ofNat 32 (f (fExec s b w sp) l).2)) ∧
      ∀ l ∈ actF b w, l < 32 → laneVal v l = BitVec.ofNat 32 (f (fExec s b w sp) l).1 := by
  obtain ⟨t, ht, hy⟩ := runF_res s w sp
    (fun x => .res [(nameOf x .d 0, laneResult x (uniSrcs x srcs) fun l => BitVec.ofNat 32 (f x l).1)] []
      (x.act.map fun l => (l, BitVec.ofNat 32 (f x l).2))) b
    [(nameOf (fExec s b w sp) .d 0,
      laneResult (fExec s b w sp) (uniSrcs (fExec s b w sp) srcs) fun l => BitVec.ofNat 32 (f (fExec s b w sp) l).1)] []
    ((actF b w).map fun l => (l, BitVec.ofNat 32 (f (fExec s b w sp) l).2)) h rfl
    (by
      intro p hp i
      rw [List.mem_singleton] at hp
      subst hp
      exact laneResult_ne_t _ _ _ i)
  exact ⟨t, _, ht, hy, fun l hl h32 => laneResult_val _ _ (fun l => BitVec.ofNat 32 (f (fExec s b w sp) l).1) l hl h32
    fun e i j => by simp only [hu e i j]⟩

end Sys2Proof.Machine
end

