-- ==== Sys2Proof/Safety/Forms.lean ====
section
/-! DEFINITION. The form of every instruction word, written once more from its entry: the classes of its fields, the
modifier bits it admits, whether it closes a region, parks, is privileged, is late, and which slots must be uniform. The
statements about words quantify over this table. -/
namespace Sys2Proof.Machine
open Sys2Proof

/-- A word as the frame of every instruction sees it. -/
structure Form where
  /-- its active lanes -/
  act : Batch → List Nat
  sp : Spec
  /-- the pair rules hold (R70) -/
  pairOk : Bool
  /-- what its own effect starts from -/
  start : State → Batch → Exec

def formF (w : FWord) (sp : Spec) : Form := ⟨fun b => actF b w, sp, true, fun s b => fExec s b w sp⟩
def formI (w : IWord) (sp : Spec) : Form := ⟨fun b => actI b w, sp, true, fun s b => iExec s b w sp⟩
def formP (w : PWord) (sp : Spec) : Form := ⟨fun b => actP b w, sp, pairLegal w.x w.y, fun s b => pExec s b w sp⟩

/-- The word of the batch in charge comes to its own effect. -/
abbrev Form.Ready (f : Form) (s : State) (b : Batch) : Prop := Sys2Proof.Machine.Ready s b (f.act b) f.sp f.pairOk

/-- A special-function word: variable-latency (R60), eph refused (R125). -/
def sfuSpec (op : Nat) (w : FWord) (rnd : Bool) : Spec :=
  { specF op w v1 v1 .z .z typesF rnd true true with ephOk := false, var := true }

/-- Chapter 04: integers, logic, predicates, control; and the pair word. -/
def formInt : Instr → Option Form
  | .iadd w => some (formF w (specA 0x01 w v1 v1 v1 .z typesAdd true))
  | .iaddI w => some (formI w (iSpec 0x03 w v1 v1))
  | .isub w => some (formF w (specA 0x02 w v1 v1 v1 .z typesAdd true))
  | .iaddx w => some (formF w { fSpec 0x03 w v1 v1 v1 .z with
      legal := modType w.m = 1 && !modSat w.m, k := w.m.getLsbD 10, ephOk := true })
  | .imul w => some (formF w (specA 0x04 w v1 v1 v1 .z typesAdd true))
  | .imulI w => some (formI w (iSpec 0x04 w v1 v1))
  | .imulh w => some (formF w (specA 0x05 w v1 v1 v1 .z typesSN false))
  | .imad w => some (formF w (specA 0x06 w v1 v1 v1 v1 typesSN true))
  | .imadw w => some (formF w (specA 0x07 w ve v1 v1 ve typesSN false))
  | .idiv w => some (formF w { specA 0x08 w v1 v1 v1 .z typesSN true with ephOk := false, var := true })
  | .irem w => some (formF w { specA 0x09 w v1 v1 v1 .z typesSN false with ephOk := false, var := true })
  | .imin w => some (formF w (specA 0x0A w v1 v1 v1 .z typesAdd false))
  | .imax w => some (formF w (specA 0x0B w v1 v1 v1 .z typesAdd false))
  | .iabs w => some (formF w (specA 0x0C w v1 v1 .z .z [0, 4, 6] true))
  | .ineg w => some (formF w (specA 0x0D w v1 v1 .z .z [0, 4, 6] true))
  | .iclamp w => some (formF w (specA 0x0E w v1 v1 v1 v1 typesAdd false))
  | .lea w => some (formF w { fSpec 0x10 w ve ve v1 .z with legal := w.m.toNat < 16, ephOk := true })
  | .add64 w => some (formF w (specA 0x11 w ve ve ve .z [2, 3, 9] false))
  | .add64I w => some (formI w (iSpec 0x0B w ve ve))
  | .sub64 w => some (formF w (specA 0x12 w ve ve ve .z [2, 3, 9] false))
  | .mov w =>
    let n := if modType w.m = 9 then 2 else if modType w.m = 12 then 4 else 1
    some (formF w (specA 0x13 w (.v n n) (.v n n) .z .z [0, 1, 8, 9, 12] false))
  | .movi w => some (formI w (iSpec 0x01 w v1 .z))
  | .movhi w => some (formI w { iSpec 0x02 w v1 .z with legal := w.imm.toNat < 2 ^ 22 })
  | .sel w => some (formF w (specA 0x14 w v1 v1 v1 .p types32 false))
  | .andB w => some (formF w (specA 0x20 w v1 v1 v1 .z types32 false))
  | .andBI w => some (formI w (iSpec 0x05 w v1 v1))
  | .orB w => some (formF w (specA 0x21 w v1 v1 v1 .z types32 false))
  | .orBI w => some (formI w (iSpec 0x06 w v1 v1))
  | .xorB w => some (formF w (specA 0x22 w v1 v1 v1 .z types32 false))
  | .xorBI w => some (formI w (iSpec 0x07 w v1 v1))
  | .andnB w => some (formF w (specA 0x23 w v1 v1 v1 .z types32 false))
  | .lop3 w => some (formF w { fSpec 0x24 w v1 v1 v1 v1 with legal := w.m.toNat < 256, ephOk := true })
  | .shl w => some (formF w (specA 0x25 w v1 v1 v1 .z types32 false))
  | .shlI w => some (formI w (iSpec 0x08 w v1 v1))
  | .shr w => some (formF w (specA 0x26 w v1 v1 v1 .z types32 false))
  | .shrI w => some (formI w (iSpec 0x09 w v1 v1))
  | .shra w => some (formF w (specA 0x27 w v1 v1 v1 .z types32 false))
  | .shraI w => some (formI w (iSpec 0x0A w v1 v1))
  | .rot w => some (formF w (specA 0x28 w v1 v1 v1 .z types32 false))
  | .fshf w => some (formF w { specA 0x29 w v1 v1 v1 v1 types32 false with
      legal := types32.contains (modType w.m) && !modSat w.m && modSub w.m < 2 })
  | .bfx w => some (formF w (specA 0x2A w v1 v1 v1 v1 typesSN false))
  | .bfi w => some (formF w { specA 0x2B w v1 v1 v1 v1 types32 false with reads := [.d, .a, .b, .c] })
  | .popc w => some (formF w (specA 0x2C w v1 v1 .z .z types32 false))
  | .clz w => some (formF w (specA 0x2D w v1 v1 .z .z types32 false))
  | .brev w => some (formF w (specA 0x2E w v1 v1 .z .z types32 false))
  | .bperm w => some (formF w (specA 0x2F w v1 v1 v1 v1 types32 false))
  | .icmp w =>
    let cls := if w.m.getLsbD 4 then ve else v1
    some (formF w { fSpec 0x30 w .p cls cls .z with legal := decide (w.m.toNat % 16 < 10) && decide (w.m.toNat < 32) })
  | .icmpi w => some (formI w { iSpec 0x0C w .any v1 with legal := decide (w.d.toNat / 32 < 10) })
  | .plop w => some (formF w { fSpec 0x31 w .p .p .p .p with legal := w.m.toNat < 256 })
  | .pmovr w => some (formF w (specA 0x32 w v1 .z .z .z types32 false))
  | .pmovp w => some (formF w { specA 0x33 w .z v1 v1 .z types32 false with ephOk := false })
  | .bra w => some (formI w (iSpec 0x10 w .z .z))
  | .bri w => some (formF w { fSpec 0x40 w .z ve .z .z with legal := w.m = 0 })
  | .loop w => some (formI w { iSpec 0x12 w v1 .z with reads := [.d, .a] })
  | .call w => some (formI w { iSpec 0x11 w .z .any with
      legal := decide (w.a.toNat ≤ 504) && w.a.toNat % 8 == 0, closes := true })
  | .calli w => some (formF w { fSpec 0x41 w .z ve .z .z with legal := w.m.toNat < 64, closes := true })
  | .ret w => some (formF w { fSpec 0x42 w .z ve .z .z with legal := w.m = 0, closes := true })
  | .quit w => some (formF w { bareSpec 0x48 w with parks := true })
  | .fork w => some (formF w { fSpec 0x49 w v1 v1 .p .z with legal := w.m = 0, closes := true })
  | .gather w => some (formF w { fSpec 0x4A w .z v1 v1 .z with legal := w.m = 0, uni := [.a, .b], parks := true })
  | .unpin w => some (formF w (bareSpec 0x4B w))
  | .yield w => some (formF w (bareSpec 0x4C w))
  | .sleep w => some (formI w (iSpec 0x13 w .z .z))
  | .nop w => some (formF w (bareSpec 0x4D w))
  | .pair w => some (formP w (pSpec w))
  | _ => none

/-- Chapter 05: floating point and lanes. -/
def formFlt : Instr → Option Form
  | .fadd w => some (formF w (specF 0x60 w v1 v1 v1 .z typesF true true true))
  | .faddI w => some (formI w (iSpec 0x18 w v1 v1))
  | .fsub w => some (formF w (specF 0x61 w v1 v1 v1 .z typesF true true true))
  | .fmul w => some (formF w (specF 0x62 w v1 v1 v1 .z typesF true true true))
  | .fmulI w => some (formI w (iSpec 0x19 w v1 v1))
  | .fma w => some (formF w (specF 0x63 w v1 v1 v1 v1 typesF true true true))
  | .fmin w => some (formF w (specF 0x64 w v1 v1 v1 .z typesF false false true))
  | .fmax w => some (formF w (specF 0x65 w v1 v1 v1 .z typesF false false true))
  | .fcmp w => some (formF w { fSpec 0x66 w .p v1 v1 .z with
      legal := decide (w.m.toNat % 8 < 3) && decide (w.m.toNat / 8 % 16 < 8) && decide (w.m.toNat < 256) })
  | .fclass w => some (formF w (specF 0x67 w v1 v1 .z .z typesF false false false))
  | .frnd w => some (formF w (specF 0x68 w v1 v1 .z .z typesF true false true))
  | .fscale w => some (formF w (specF 0x69 w v1 v1 v1 .z typesF true true true))
  | .fcvt w => some (formF w { fSpec 0x70 w v1 v1 .z .z with
      legal := cvtOk (w.m.toNat % 16) && cvtOk (w.m.toNat / 16 % 16) && !(cvtIsInt (w.m.toNat % 16) && cvtIsInt (w.m.toNat / 16 % 16))
      ephOk := true })
  | .fpack2 w => some (formF w (specF 0x71 w v1 v1 v1 .z types16 true true true))
  | .funpk2 w => some (formF w { specF 0x72 w v1 v1 .z .z types16 false false false with
      legal := types16.contains (modFt w.m) && modRnd w.m == 0 && !modFSat w.m && !modFtz w.m && decide (modFSub w.m < 2) })
  | .fma2 w => some (formF w (specF 0x73 w v1 v1 v1 v1 types16 true true true))
  | .fadd2 w => some (formF w (specF 0x74 w v1 v1 v1 .z types16 true true true))
  | .fmul2 w => some (formF w (specF 0x75 w v1 v1 v1 .z types16 true true true))
  | .fdot2 w => some (formF w (specF 0x76 w v1 v1 v1 v1 types16 true true true))
  | .idot4 w => some (formF w { specA 0x77 w v1 v1 v1 v1 [0] true with
      legal := modType w.m == 0 && decide (modSub w.m < 4) })
  | .frcp w => some (formF w (sfuSpec 0x80 w true))
  | .frsq w => some (formF w (sfuSpec 0x81 w false))
  | .fsqrt w => some (formF w (sfuSpec 0x82 w true))
  | .fex2 w => some (formF w (sfuSpec 0x83 w false))
  | .flg2 w => some (formF w (sfuSpec 0x84 w false))
  | .fsin w => some (formF w (sfuSpec 0x85 w false))
  | .fcos w => some (formF w (sfuSpec 0x86 w false))
  | .ftanh w => some (formF w (sfuSpec 0x87 w false))
  | .fpxrd w => some (formF w { fSpec 0x88 w v1 .z .z .z with legal := w.m = 0, ephOk := true })
  | .fpxset w => some (formF w { fSpec 0x89 w .z v1 v1 .z with legal := w.m = 0, closes := true, uni := [.a, .b] })
  | .shfl w => some (formF w { fSpec 0x90 w v1 v1 v1 .z with legal := w.m.toNat < 4, ephOk := true, cross := true })
  | .vote w =>
    let mask := w.m.toNat % 4 = 3
    some (formF w { fSpec 0x91 w (if mask then v1 else .p) .p .z .z with legal := w.m.toNat < 4, ephOk := decide mask })
  | .redl w => some (formF w { fSpec 0x92 w v1 v1 .z .z with legal := w.m.toNat < 11, ephOk := true })
  | .scanl w => some (formF w { fSpec 0x93 w v1 v1 .z .z with
      legal := decide (w.m.toNat % 16 < 11) && decide (w.m.toNat < 32), ephOk := true })
  | .matchL w => some (formF w { fSpec 0x94 w v1 v1 .z .z with legal := w.m = 0, ephOk := true })
  | _ => none

/-- Chapter 06: memory, barriers, buffers, timelines, templates, shapes, extended sets, accumulator counts. -/
def formMem (s : State) : Instr → Option Form
  | .ld w => some (formF w (specLd 0xA0 w false))
  | .st w => some (formF w (specLd 0xA1 w true))
  | .ldl w => some (formF w (specLocal 0xA2 w false))
  | .stl w => some (formF w (specLocal 0xA3 w true))
  | .ldsp w => some (formF w (specLocal 0xA4 w false))
  | .stsp w => some (formF w (specLocal 0xA5 w true))
  | .lda w => some (formF w { fSpec 0xA6 w (sizeCls (modSize w.m)) ve .any .any with
      legal := decide (modSize w.m < 6) && modOrder w.m == 1 && modColour w.m == 0, k := w.m.getLsbD 10, var := true })
  | .strel w => some (formF w { fSpec 0xA7 w (sizeCls (modSize w.m)) ve .z .any with
      legal := decide (modSize w.m < 6) && modOrder w.m == 2 && maskOk w.c, k := w.m.getLsbD 10, closes := true
      reads := [.d, .a] })
  | .atom w => some (formF w (specAtom 0xA8 w false))
  | .red w => some (formF w (specAtom 0xA9 w true))
  | .fence w =>
    let ord := modOrder w.m
    some (formF w { fSpec 0xAA w .z .z .z .any with
      legal := modSize w.m == 0 && ord != 0 && modColour w.m == 0 && maskOk w.c && (ord != 1 || w.c.toNat == 255)
      k := w.m.getLsbD 10, closes := decide (2 ≤ ord), parks := true })
  | .pref w => some (formF w { fSpec 0xAB w .z ve .any .any with
      legal := modSize w.m == 0 && modScope w.m % 2 == 0 && modOrder w.m == 0 && modColour w.m == 0
      k := w.m.getLsbD 10, quiet := true })
  | .barinit w => some (formF w { ownSpec 0xB0 w .z .br v1 .z (w.m = 0) with closes := true, uni := [.b] })
  | .bararr w => some (formF w { ownSpec 0xB1 w v1 .br .z .z (w.m = 0) with closes := true, ephOk := true })
  | .barwait w => some (formF w { ownSpec 0xB2 w .z .br v1 .z (w.m = 0) with parks := true, uni := [.b] })
  | .barsync w => some (formF w { ownSpec 0xB3 w .z .br v1 .z (w.m = 0) with closes := true, uni := [.b] })
  | .barexp w => some (formF w { ownSpec 0xB4 w .z .br ve .z (w.m = 0) with closes := true })
  | .barq w => some (formF w { ownSpec 0xB5 w vq .br .z .z (w.m = 0) with ephOk := true })
  | .cbinit w => some (formF w { ownSpec 0xB8 w .z .cb v1 v1 (w.m = 0) with closes := true, uni := [.c] })
  | .cbacq w => some (formF w { ownSpec 0xB9 w v1 .cb v1 .z (w.m.toNat < 2) with closes := true, ephOk := true, uni := [.b] })
  | .cbrel w => some (formF w { ownSpec 0xBA w .z .cb v1 .z (w.m = 0) with closes := true, uni := [.b] })
  | .cbput w => some (formF w { ownSpec 0xBB w .z .cb v1 .z (w.m = 0) with closes := true, uni := [.b] })
  | .cbq w => some (formF w { ownSpec 0xBC w ve .cb .z .z (w.m = 0) with ephOk := true })
  | .tlwait w => some (formF w { ownSpec 0xC0 w .z .tl ve .z (w.m = 0) with uni := [.b] })
  | .tlq w => some (formF w { ownSpec 0xC1 w ve .tl .z .z (w.m = 0) with ephOk := true })
  | .freeze w =>
    let size := match findBatch s s.cur with
      | some b => hdrImage (batchHdr s b)
      | none => 0
    some (formF w { fSpec 0xC2 w .z (if size = 0 then .any else v1) .z .z with
      legal := w.m = 0, closes := true, uni := if size = 0 then [] else [.a] })
  | .freezeL w => some (formF w { fSpec 0xC2 w .z .z .z .z with
      legal := decide (1 ≤ w.m.toNat / 2) && decide (w.m.toNat / 2 ≤ 5), closes := true })
  | .shape w => some (formF w { ownSpec 0xC3 w v1 v1 .z .z (w.m = 0) with ephOk := true })
  | .shapeg w => some (formF w { ownSpec 0xC4 w v1 .z .z .z (w.m = 0) with var := true })
  | .xacq w => some (formF w { bareSpec 0xC5 w with closes := true })
  | .xrel w => some (formF w { bareSpec 0xC6 w with closes := true })
  | .accgrow w => some (formF w { ownSpec 0xC7 w .p v1 .z .z (w.m = 0) with closes := true, uni := [.a] })
  | .accfree w => some (formF w { ownSpec 0xC8 w .z v1 .z .z (w.m = 0) with closes := true, uni := [.a] })
  | _ => none

/-- Chapters 07 and 08: the matrix engine, and the system words with those of chapters 11, 17 and 18. -/
def formSys (s : State) : Instr → Option Form
  | .wload w => some (formF w { matSpec 0xD0 w .wp ve .z .z (w.m = 0 && w.d.toNat == 1) with closes := true, uni := [.a] })
  | .wswap w => some (formF w { matSpec 0xD1 w .z .z .z .z (w.m = 0) with closes := true })
  | .wtab w => some (formF w { matSpec 0xD2 w .z ve .z .z (w.m = 0) with closes := true, uni := [.a] })
  | .wwait w => some (formF w (matSpec 0xD3 w .z .wp .z .z (w.m = 0)))
  | .mmq w => some (formF w { matSpec 0xD4 w .acc .wp (.v 3 1) v1 (w.m.toNat < 2) with uni := [.b], quarter := [.c] })
  | .accz w => some (formF w (matSpec 0xD5 w .acc .z .z .z (w.m = 0)))
  | .accrd w => some (formF w { matSpec 0xD6 w v1 .acc v1 .z (w.m = 0) with var := true, uni := [.b] })
  | .accwr w => some (formF w { matSpec 0xD7 w .acc v1 v1 .z (w.m = 0) with uni := [.b] })
  | .drain w =>
    let f := w.m.toNat % 4
    let gl := w.m.getLsbD 2
    some (formF w { matSpec 0xD8 w .z .acc (.v 3 (if gl then 2 else 1)) (if f = 3 then v1 else .z)
        (w.m.toNat < 128 && (gl || w.m.toNat / 16 % 8 == 0)) with
      closes := gl, uni := if f = 3 then [.b, .c] else [.b] })
  | .drainst w => some (formF w { matSpec 0xD9 w v1 v1 .z .z (w.m = 0) with ephOk := true, uni := [.a] })
  | .wstat w => some (formF w { matSpec 0xDA w ve .wp .z .z (w.m = 0) with ephOk := true })
  | .wbmap w => some (formF w { matSpec 0xDB w v1 v1 .z .z (w.m = 0) with ephOk := true, uni := [.a] })
  | .fluesub w => some (formF w (fluesubSpec w ve v1 (w.m = 0)))
  | .fluesubRst w => some (formF w (fluesubSpec w .z .z (w.m = 1)))
  | .evsig w => some (formF w { sysSpec 0xE1 w .z v1 v1 .z (w.m = 0) with closes := true, uni := [.a, .b] })
  | .evsigI w => some (formI w { iSpec 0x20 w .z .z with legal := w.imm.toNat < 65536, closes := true })
  | .evsigClr w => some (formF w { sysSpec 0xE1 w .z v1 .z .z (w.m = 1) with closes := true, uni := [.a] })
  | .evwait w => some (formF w { sysSpec 0xE2 w .z v1 v1 .z (w.m = 0) with uni := [.a, .b] })
  | .evwaitI w => some (formI w { iSpec 0x21 w .z .z with legal := w.imm.toNat < 65536 })
  | .evq w => some (formF w { sysSpec 0xE3 w v1 v1 .z .z (w.m = 0) with ephOk := true, uni := [.a] })
  | .spawn w => some (formF w { sysSpec 0xE4 w .p ve .z .z (w.m.toNat < 7) with closes := true, uni := [.a] })
  | .tladv w => some (formF w { sysSpec 0xE5 w .z .tl ve .z (w.m = 0) with closes := true, uni := [.b] })
  | .fillarg w => some (formF w { fillSpec s 0xE6 w vq .z .z (w.m = 0) with ephOk := true })
  | .fillput w => some (formF w { fillSpec s 0xE7 w .z v1 v1 (w.m.toNat < 2) with
      closes := true, uni := if w.m.getLsbD 0 then [.a, .b] else [.b] })
  | .filldone w => some (formF w { fillSpec s 0xE8 w .z .z .z (w.m = 0) with closes := true })
  | .fillfail w => some (formF w { fillSpec s 0xE9 w .z v1 .z (w.m = 0) with closes := true, uni := [.a] })
  | .geninv w => some (formF w { sysSpec 0xEA w .z v1 .z .z (w.m = 0) with closes := true, uni := [.a] })
  | .cutsel w => some (formF w (cutselSpec w ve (w.m = 0)))
  | .cutselRst w => some (formF w (cutselSpec w .z (w.m = 1)))
  | .rayq w => some (formF w (raySpec s 0xEC w (.v 8 8) (.v 8 8) ve [.b] (decide (w.m.toNat < 4))))
  | .rayrd w => some (formF w (raySpec s 0xED w vq ve v1 [] (w.m = 0)))
  | .sysrd w => some (formF w { sysSpec 0xF0 w ((selClass w.m.toNat).getD .any) .z .z .z (selClass w.m.toNat).isSome with
      ephOk := true, priv := decide (64 ≤ w.m.toNat % 128) })
  | .csrrd w => some (formF w { sysSpec 0xF1 w (csrClass w.m.toNat) .z .z .z (csrShape w.m.toNat).isSome with
      ephOk := true, priv := decide (0x100 ≤ w.m.toNat) })
  | .csrwr w => some (formF w { sysSpec 0xF2 w .z (csrClass w.m.toNat) .z .z (csrWritable w.m.toNat) with
      closes := true, priv := decide (0x100 ≤ w.m.toNat), uni := [.a] })
  | .csrswp w => some (formF w { sysSpec 0xF3 w (csrClass w.m.toNat) (csrClass w.m.toNat) .z .z (csrWritable w.m.toNat) with
      closes := true, priv := decide (0x100 ≤ w.m.toNat), uni := [.a] })
  | .trap w => some (formF w (codeSpec 0xF4 w))
  | .bkpt w => some (formF w (codeSpec 0xF6 w))
  | .tret w => some (formF w { sysSpec 0xF5 w .z .z .z .z (w.m = 0) with closes := true, priv := true })
  | .clock w => some (formF w { sysSpec 0xF7 w ve .z .z .z (w.m = 0) with ephOk := true })
  | .perfrd w => some (formF w { sysSpec 0xF8 w ve v1 .z .z (w.m = 0) with ephOk := true, uni := [.a] })
  | .pgbump w => some (formF w (pageSpec 0xF9 w))
  | .pgnew w => some (formF w (pageSpec 0xFA w))
  | .tlbepoch w => some (formF w { sysSpec 0xFB w v1 .z .z .z (w.m = 0) with closes := true, priv := true })
  | .halt w => some (formF w { sysSpec 0xFC w .z v1 .z .z (w.m = 0) with closes := true, priv := true, uni := [.a] })
  | .wsremap w => some (formF w { sysSpec 0xFD w .z v1 v1 .z (w.m = 0) with closes := true, priv := true, uni := [.a, .b] })
  | .monctlCfg w => some (formF w { sysSpec 0xFE w .z v1 vq .z (w.m = 0) with closes := true, priv := true, uni := [.a, .b] })
  | .monctlClr w => some (formF w { sysSpec 0xFE w .z v1 .z .z (w.m = 1) with closes := true, priv := true, uni := [.a] })
  | .monctlRd w => some (formF w { sysSpec 0xFE w vq v1 v1 .z (w.m = 2) with priv := true, uni := [.a, .b] })
  | _ => none

/-- The form of an instruction word; none for what is no word (an event), and for a word that is no instruction. Some
forms depend on the state: those of FREEZE, of the fill words and of the ray words. -/
def formOf (s : State) (i : Instr) : Option Form := (formInt i).or ((formFlt i).or ((formMem s i).or (formSys s i)))

end Sys2Proof.Machine
end

