-- ==== Sys2Proof/Laws/Forms.lean ====
section
/-! SUPPORT. Every instruction word runs by the frame of its form. -/
namespace Sys2Proof.Machine
open Sys2Proof

/-- What exec does with an instruction is the frame of its form around some own part. -/
inductive RunsAs (s : State) (o : Host.Outcome State Fault Refusal) : Form → Prop where
  | f (w : FWord) (sp : Spec) (body : Exec → Eff) : o = runF s w sp body → RunsAs s o (formF w sp)
  | i (w : IWord) (sp : Spec) (body : Exec → Eff) : o = runI s w sp body → RunsAs s o (formI w sp)
  | p (w : PWord) (sp : Spec) (body : Exec → Eff) : o = runWord s (guardP w.pg) sp (pairLegal w.x w.y) body →
      sp = pSpec w → RunsAs s o (formP w sp)

theorem formInt_runs (s : State) (i : Instr) (f : Form) (h : formInt i = some f) : RunsAs s (exec i s) f := by
  cases i <;> (try (simp only [formInt] at h; contradiction)) <;> simp only [formInt, Option.some.injEq] at h <;> subst h
  case iadd w =>
    show RunsAs s (execIadd w s) _
    unfold execIadd
    unfold arithF
    exact .f w _ _ rfl
  case iaddI w =>
    show RunsAs s (execIaddI w s) _
    unfold execIaddI
    unfold arithI
    exact .i w _ _ rfl
  case isub w =>
    show RunsAs s (execIsub w s) _
    unfold execIsub
    unfold arithF
    exact .f w _ _ rfl
  case iaddx w =>
    show RunsAs s (execIaddx w s) _
    unfold execIaddx
    exact .f w _ _ rfl
  case imul w =>
    show RunsAs s (execImul w s) _
    unfold execImul
    unfold arithF
    exact .f w _ _ rfl
  case imulI w =>
    show RunsAs s (execImulI w s) _
    unfold execImulI
    unfold arithI
    exact .i w _ _ rfl
  case imulh w =>
    show RunsAs s (execImulh w s) _
    unfold execImulh
    unfold alu
    exact .f w _ _ rfl
  case imad w =>
    show RunsAs s (execImad w s) _
    unfold execImad
    unfold alu
    exact .f w _ _ rfl
  case imadw w =>
    show RunsAs s (execImadw w s) _
    unfold execImadw
    exact .f w _ _ rfl
  case idiv w =>
    show RunsAs s (execIdiv w s) _
    unfold execIdiv
    unfold alu
    exact .f w _ _ rfl
  case irem w =>
    show RunsAs s (execIrem w s) _
    unfold execIrem
    unfold alu
    exact .f w _ _ rfl
  case imin w =>
    show RunsAs s (execImin w s) _
    unfold execImin
    unfold alu
    exact .f w _ _ rfl
  case imax w =>
    show RunsAs s (execImax w s) _
    unfold execImax
    unfold alu
    exact .f w _ _ rfl
  case iabs w =>
    show RunsAs s (execIabs w s) _
    unfold execIabs
    unfold alu
    exact .f w _ _ rfl
  case ineg w =>
    show RunsAs s (execIneg w s) _
    unfold execIneg
    unfold alu
    exact .f w _ _ rfl
  case iclamp w =>
    show RunsAs s (execIclamp w s) _
    unfold execIclamp
    unfold alu
    exact .f w _ _ rfl
  case lea w =>
    show RunsAs s (execLea w s) _
    unfold execLea
    exact .f w _ _ rfl
  case add64 w =>
    show RunsAs s (execAdd64 w s) _
    unfold execAdd64
    exact .f w _ _ rfl
  case add64I w =>
    show RunsAs s (execAdd64I w s) _
    unfold execAdd64I
    exact .i w _ _ rfl
  case sub64 w =>
    show RunsAs s (execSub64 w s) _
    unfold execSub64
    exact .f w _ _ rfl
  case mov w =>
    show RunsAs s (execMov w s) _
    unfold execMov
    exact .f w _ _ rfl
  case movi w =>
    show RunsAs s (execMovi w s) _
    unfold execMovi
    exact .i w _ _ rfl
  case movhi w =>
    show RunsAs s (execMovhi w s) _
    unfold execMovhi
    exact .i w _ _ rfl
  case sel w =>
    show RunsAs s (execSel w s) _
    unfold execSel
    exact .f w _ _ rfl
  case andB w =>
    show RunsAs s (execAndB w s) _
    unfold execAndB
    unfold logic2
    unfold alu
    exact .f w _ _ rfl
  case andBI w =>
    show RunsAs s (execAndBI w s) _
    unfold execAndBI
    unfold aluI
    exact .i w _ _ rfl
  case orB w =>
    show RunsAs s (execOrB w s) _
    unfold execOrB
    unfold logic2
    unfold alu
    exact .f w _ _ rfl
  case orBI w =>
    show RunsAs s (execOrBI w s) _
    unfold execOrBI
    unfold aluI
    exact .i w _ _ rfl
  case xorB w =>
    show RunsAs s (execXorB w s) _
    unfold execXorB
    unfold logic2
    unfold alu
    exact .f w _ _ rfl
  case xorBI w =>
    show RunsAs s (execXorBI w s) _
    unfold execXorBI
    unfold aluI
    exact .i w _ _ rfl
  case andnB w =>
    show RunsAs s (execAndnB w s) _
    unfold execAndnB
    unfold logic2
    unfold alu
    exact .f w _ _ rfl
  case lop3 w =>
    show RunsAs s (execLop3 w s) _
    unfold execLop3
    unfold alu
    exact .f w _ _ rfl
  case shl w =>
    show RunsAs s (execShl w s) _
    unfold execShl
    unfold logic2
    unfold alu
    exact .f w _ _ rfl
  case shlI w =>
    show RunsAs s (execShlI w s) _
    unfold execShlI
    unfold aluI
    exact .i w _ _ rfl
  case shr w =>
    show RunsAs s (execShr w s) _
    unfold execShr
    unfold logic2
    unfold alu
    exact .f w _ _ rfl
  case shrI w =>
    show RunsAs s (execShrI w s) _
    unfold execShrI
    unfold aluI
    exact .i w _ _ rfl
  case shra w =>
    show RunsAs s (execShra w s) _
    unfold execShra
    unfold logic2
    unfold alu
    exact .f w _ _ rfl
  case shraI w =>
    show RunsAs s (execShraI w s) _
    unfold execShraI
    unfold aluI
    exact .i w _ _ rfl
  case rot w =>
    show RunsAs s (execRot w s) _
    unfold execRot
    unfold logic2
    unfold alu
    exact .f w _ _ rfl
  case fshf w =>
    show RunsAs s (execFshf w s) _
    unfold execFshf
    unfold alu
    exact .f w _ _ rfl
  case bfx w =>
    show RunsAs s (execBfx w s) _
    unfold execBfx
    unfold alu
    exact .f w _ _ rfl
  case bfi w =>
    show RunsAs s (execBfi w s) _
    unfold execBfi
    unfold alu
    exact .f w _ _ rfl
  case popc w =>
    show RunsAs s (execPopc w s) _
    unfold execPopc
    unfold logic1
    unfold alu
    exact .f w _ _ rfl
  case clz w =>
    show RunsAs s (execClz w s) _
    unfold execClz
    unfold logic1
    unfold alu
    exact .f w _ _ rfl
  case brev w =>
    show RunsAs s (execBrev w s) _
    unfold execBrev
    unfold logic1
    unfold alu
    exact .f w _ _ rfl
  case bperm w =>
    show RunsAs s (execBperm w s) _
    unfold execBperm
    unfold alu
    exact .f w _ _ rfl
  case icmp w =>
    show RunsAs s (execIcmp w s) _
    unfold execIcmp
    exact .f w _ _ rfl
  case icmpi w =>
    show RunsAs s (execIcmpi w s) _
    unfold execIcmpi
    exact .i w _ _ rfl
  case plop w =>
    show RunsAs s (execPlop w s) _
    unfold execPlop
    exact .f w _ _ rfl
  case pmovr w =>
    show RunsAs s (execPmovr w s) _
    unfold execPmovr
    exact .f w _ _ rfl
  case pmovp w =>
    show RunsAs s (execPmovp w s) _
    unfold execPmovp
    exact .f w _ _ rfl
  case bra w =>
    show RunsAs s (execBra w s) _
    unfold execBra
    exact .i w _ _ rfl
  case bri w =>
    show RunsAs s (execBri w s) _
    unfold execBri
    exact .f w _ _ rfl
  case loop w =>
    show RunsAs s (execLoop w s) _
    unfold execLoop
    exact .i w _ _ rfl
  case call w =>
    show RunsAs s (execCall w s) _
    unfold execCall
    exact .i w _ _ rfl
  case calli w =>
    show RunsAs s (execCalli w s) _
    unfold execCalli
    exact .f w _ _ rfl
  case ret w =>
    show RunsAs s (execRet w s) _
    unfold execRet
    exact .f w _ _ rfl
  case quit w =>
    show RunsAs s (execQuit w s) _
    unfold execQuit
    exact .f w _ _ rfl
  case fork w =>
    show RunsAs s (execFork w s) _
    unfold execFork
    exact .f w _ _ rfl
  case gather w =>
    show RunsAs s (execGather w s) _
    unfold execGather
    exact .f w _ _ rfl
  case unpin w =>
    show RunsAs s (execUnpin w s) _
    unfold execUnpin
    exact .f w _ _ rfl
  case yield w =>
    show RunsAs s (execYield w s) _
    unfold execYield
    exact .f w _ _ rfl
  case sleep w =>
    show RunsAs s (execSleep w s) _
    unfold execSleep
    exact .i w _ _ rfl
  case nop w =>
    show RunsAs s (execNop w s) _
    unfold execNop
    exact .f w _ _ rfl
  case pair w =>
    show RunsAs s (execPair w s) _
    unfold execPair
    exact .p w _ _ rfl rfl

theorem formFlt_runs (s : State) (i : Instr) (f : Form) (h : formFlt i = some f) : RunsAs s (exec i s) f := by
  cases i <;> (try (simp only [formFlt] at h; contradiction)) <;> simp only [formFlt, Option.some.injEq] at h <;> subst h
  case fadd w =>
    show RunsAs s (execFadd w s) _
    unfold execFadd
    unfold fpu
    exact .f w _ _ rfl
  case faddI w =>
    show RunsAs s (execFaddI w s) _
    unfold execFaddI
    unfold fpuI
    exact .i w _ _ rfl
  case fsub w =>
    show RunsAs s (execFsub w s) _
    unfold execFsub
    unfold fpu
    exact .f w _ _ rfl
  case fmul w =>
    show RunsAs s (execFmul w s) _
    unfold execFmul
    unfold fpu
    exact .f w _ _ rfl
  case fmulI w =>
    show RunsAs s (execFmulI w s) _
    unfold execFmulI
    unfold fpuI
    exact .i w _ _ rfl
  case fma w =>
    show RunsAs s (execFma w s) _
    unfold execFma
    unfold fpu
    exact .f w _ _ rfl
  case fmin w =>
    show RunsAs s (execFmin w s) _
    unfold execFmin
    unfold fpu
    exact .f w _ _ rfl
  case fmax w =>
    show RunsAs s (execFmax w s) _
    unfold execFmax
    unfold fpu
    exact .f w _ _ rfl
  case fcmp w =>
    show RunsAs s (execFcmp w s) _
    unfold execFcmp
    exact .f w _ _ rfl
  case fclass w =>
    show RunsAs s (execFclass w s) _
    unfold execFclass
    unfold alu
    exact .f w _ _ rfl
  case frnd w =>
    show RunsAs s (execFrnd w s) _
    unfold execFrnd
    unfold fpu
    exact .f w _ _ rfl
  case fscale w =>
    show RunsAs s (execFscale w s) _
    unfold execFscale
    unfold fpu
    exact .f w _ _ rfl
  case fcvt w =>
    show RunsAs s (execFcvt w s) _
    unfold execFcvt
    unfold fpu
    exact .f w _ _ rfl
  case fpack2 w =>
    show RunsAs s (execFpack2 w s) _
    unfold execFpack2
    unfold fpu
    exact .f w _ _ rfl
  case funpk2 w =>
    show RunsAs s (execFunpk2 w s) _
    unfold execFunpk2
    unfold fpu
    exact .f w _ _ rfl
  case fma2 w =>
    show RunsAs s (execFma2 w s) _
    unfold execFma2
    unfold fpu
    exact .f w _ _ rfl
  case fadd2 w =>
    show RunsAs s (execFadd2 w s) _
    unfold execFadd2
    unfold fpu
    exact .f w _ _ rfl
  case fmul2 w =>
    show RunsAs s (execFmul2 w s) _
    unfold execFmul2
    unfold fpu
    exact .f w _ _ rfl
  case fdot2 w =>
    show RunsAs s (execFdot2 w s) _
    unfold execFdot2
    unfold fpu
    exact .f w _ _ rfl
  case idot4 w =>
    show RunsAs s (execIdot4 w s) _
    unfold execIdot4
    unfold alu
    exact .f w _ _ rfl
  case frcp w =>
    show RunsAs s (execFrcp w s) _
    unfold execFrcp
    unfold sfu
    unfold fpu
    exact .f w _ _ rfl
  case frsq w =>
    show RunsAs s (execFrsq w s) _
    unfold execFrsq
    unfold sfu
    unfold fpu
    exact .f w _ _ rfl
  case fsqrt w =>
    show RunsAs s (execFsqrt w s) _
    unfold execFsqrt
    unfold sfu
    unfold fpu
    exact .f w _ _ rfl
  case fex2 w =>
    show RunsAs s (execFex2 w s) _
    unfold execFex2
    unfold sfu
    unfold fpu
    exact .f w _ _ rfl
  case flg2 w =>
    show RunsAs s (execFlg2 w s) _
    unfold execFlg2
    unfold sfu
    unfold fpu
    exact .f w _ _ rfl
  case fsin w =>
    show RunsAs s (execFsin w s) _
    unfold execFsin
    unfold sfu
    unfold fpu
    exact .f w _ _ rfl
  case fcos w =>
    show RunsAs s (execFcos w s) _
    unfold execFcos
    unfold sfu
    unfold fpu
    exact .f w _ _ rfl
  case ftanh w =>
    show RunsAs s (execFtanh w s) _
    unfold execFtanh
    unfold sfu
    unfold fpu
    exact .f w _ _ rfl
  case fpxrd w =>
    show RunsAs s (execFpxrd w s) _
    unfold execFpxrd
    exact .f w _ _ rfl
  case fpxset w =>
    show RunsAs s (execFpxset w s) _
    unfold execFpxset
    exact .f w _ _ rfl
  case shfl w =>
    show RunsAs s (execShfl w s) _
    unfold execShfl
    unfold laneOp
    exact .f w _ _ rfl
  case vote w =>
    show RunsAs s (execVote w s) _
    unfold execVote
    unfold laneOp
    exact .f w _ _ rfl
  case redl w =>
    show RunsAs s (execRedl w s) _
    unfold execRedl
    unfold laneOp
    exact .f w _ _ rfl
  case scanl w =>
    show RunsAs s (execScanl w s) _
    unfold execScanl
    unfold laneOp
    exact .f w _ _ rfl
  case matchL w =>
    show RunsAs s (execMatchL w s) _
    unfold execMatchL
    unfold laneOp
    exact .f w _ _ rfl

theorem formMem_runs (s : State) (i : Instr) (f : Form) (h : formMem s i = some f) : RunsAs s (exec i s) f := by
  cases i <;> (try (simp only [formMem] at h; contradiction)) <;> simp only [formMem, Option.some.injEq] at h <;> subst h
  case ld w =>
    show RunsAs s (execLd w s) _
    unfold execLd
    exact .f w _ _ rfl
  case st w =>
    show RunsAs s (execSt w s) _
    unfold execSt
    exact .f w _ _ rfl
  case ldl w =>
    show RunsAs s (execLdl w s) _
    unfold execLdl
    exact .f w _ _ rfl
  case stl w =>
    show RunsAs s (execStl w s) _
    unfold execStl
    exact .f w _ _ rfl
  case ldsp w =>
    show RunsAs s (execLdsp w s) _
    unfold execLdsp
    exact .f w _ _ rfl
  case stsp w =>
    show RunsAs s (execStsp w s) _
    unfold execStsp
    exact .f w _ _ rfl
  case lda w =>
    show RunsAs s (execLda w s) _
    unfold execLda
    exact .f w _ _ rfl
  case strel w =>
    show RunsAs s (execStrel w s) _
    unfold execStrel
    exact .f w _ _ rfl
  case atom w =>
    show RunsAs s (execAtom w s) _
    unfold execAtom
    exact .f w _ _ rfl
  case red w =>
    show RunsAs s (execRed w s) _
    unfold execRed
    exact .f w _ _ rfl
  case fence w =>
    show RunsAs s (execFence w s) _
    unfold execFence
    exact .f w _ _ rfl
  case pref w =>
    show RunsAs s (execPref w s) _
    unfold execPref
    exact .f w _ _ rfl
  case barinit w =>
    show RunsAs s (execBarinit w s) _
    unfold execBarinit
    exact .f w _ _ rfl
  case bararr w =>
    show RunsAs s (execBararr w s) _
    unfold execBararr
    exact .f w _ _ rfl
  case barwait w =>
    show RunsAs s (execBarwait w s) _
    unfold execBarwait
    exact .f w _ _ rfl
  case barsync w =>
    show RunsAs s (execBarsync w s) _
    unfold execBarsync
    exact .f w _ _ rfl
  case barexp w =>
    show RunsAs s (execBarexp w s) _
    unfold execBarexp
    exact .f w _ _ rfl
  case barq w =>
    show RunsAs s (execBarq w s) _
    unfold execBarq
    exact .f w _ _ rfl
  case cbinit w =>
    show RunsAs s (execCbinit w s) _
    unfold execCbinit
    exact .f w _ _ rfl
  case cbacq w =>
    show RunsAs s (execCbacq w s) _
    unfold execCbacq
    exact .f w _ _ rfl
  case cbrel w =>
    show RunsAs s (execCbrel w s) _
    unfold execCbrel
    exact .f w _ _ rfl
  case cbput w =>
    show RunsAs s (execCbput w s) _
    unfold execCbput
    exact .f w _ _ rfl
  case cbq w =>
    show RunsAs s (execCbq w s) _
    unfold execCbq
    exact .f w _ _ rfl
  case tlwait w =>
    show RunsAs s (execTlwait w s) _
    unfold execTlwait
    exact .f w _ _ rfl
  case tlq w =>
    show RunsAs s (execTlq w s) _
    unfold execTlq
    exact .f w _ _ rfl
  case freeze w =>
    show RunsAs s (execFreeze w s) _
    unfold execFreeze
    exact .f w _ _ rfl
  case freezeL w =>
    show RunsAs s (execFreezeL w s) _
    unfold execFreezeL
    exact .f w _ _ rfl
  case shape w =>
    show RunsAs s (execShape w s) _
    unfold execShape
    exact .f w _ _ rfl
  case shapeg w =>
    show RunsAs s (execShapeg w s) _
    unfold execShapeg
    exact .f w _ _ rfl
  case xacq w =>
    show RunsAs s (execXacq w s) _
    unfold execXacq
    exact .f w _ _ rfl
  case xrel w =>
    show RunsAs s (execXrel w s) _
    unfold execXrel
    exact .f w _ _ rfl
  case accgrow w =>
    show RunsAs s (execAccgrow w s) _
    unfold execAccgrow
    exact .f w _ _ rfl
  case accfree w =>
    show RunsAs s (execAccfree w s) _
    unfold execAccfree
    exact .f w _ _ rfl

theorem formSys_runs (s : State) (i : Instr) (f : Form) (h : formSys s i = some f) : RunsAs s (exec i s) f := by
  cases i <;> (try (simp only [formSys] at h; contradiction)) <;> simp only [formSys, Option.some.injEq] at h <;> subst h
  case wload w =>
    show RunsAs s (execWload w s) _
    unfold execWload
    exact .f w _ _ rfl
  case wswap w =>
    show RunsAs s (execWswap w s) _
    unfold execWswap
    exact .f w _ _ rfl
  case wtab w =>
    show RunsAs s (execWtab w s) _
    unfold execWtab
    exact .f w _ _ rfl
  case wwait w =>
    show RunsAs s (execWwait w s) _
    unfold execWwait
    exact .f w _ _ rfl
  case mmq w =>
    show RunsAs s (execMmq w s) _
    unfold execMmq
    exact .f w _ _ rfl
  case accz w =>
    show RunsAs s (execAccz w s) _
    unfold execAccz
    exact .f w _ _ rfl
  case accrd w =>
    show RunsAs s (execAccrd w s) _
    unfold execAccrd
    exact .f w _ _ rfl
  case accwr w =>
    show RunsAs s (execAccwr w s) _
    unfold execAccwr
    exact .f w _ _ rfl
  case drain w =>
    show RunsAs s (execDrain w s) _
    unfold execDrain
    exact .f w _ _ rfl
  case drainst w =>
    show RunsAs s (execDrainst w s) _
    unfold execDrainst
    exact .f w _ _ rfl
  case wstat w =>
    show RunsAs s (execWstat w s) _
    unfold execWstat
    exact .f w _ _ rfl
  case wbmap w =>
    show RunsAs s (execWbmap w s) _
    unfold execWbmap
    exact .f w _ _ rfl
  case fluesub w =>
    show RunsAs s (execFluesub w s) _
    unfold execFluesub
    exact .f w _ _ rfl
  case fluesubRst w =>
    show RunsAs s (execFluesubRst w s) _
    unfold execFluesubRst
    exact .f w _ _ rfl
  case evsig w =>
    show RunsAs s (execEvsig w s) _
    unfold execEvsig
    exact .f w _ _ rfl
  case evsigI w =>
    show RunsAs s (execEvsigI w s) _
    unfold execEvsigI
    exact .i w _ _ rfl
  case evsigClr w =>
    show RunsAs s (execEvsigClr w s) _
    unfold execEvsigClr
    exact .f w _ _ rfl
  case evwait w =>
    show RunsAs s (execEvwait w s) _
    unfold execEvwait
    exact .f w _ _ rfl
  case evwaitI w =>
    show RunsAs s (execEvwaitI w s) _
    unfold execEvwaitI
    exact .i w _ _ rfl
  case evq w =>
    show RunsAs s (execEvq w s) _
    unfold execEvq
    exact .f w _ _ rfl
  case spawn w =>
    show RunsAs s (execSpawn w s) _
    unfold execSpawn
    exact .f w _ _ rfl
  case tladv w =>
    show RunsAs s (execTladv w s) _
    unfold execTladv
    exact .f w _ _ rfl
  case fillarg w =>
    show RunsAs s (execFillarg w s) _
    unfold execFillarg
    exact .f w _ _ rfl
  case fillput w =>
    show RunsAs s (execFillput w s) _
    unfold execFillput
    exact .f w _ _ rfl
  case filldone w =>
    show RunsAs s (execFilldone w s) _
    unfold execFilldone
    exact .f w _ _ rfl
  case fillfail w =>
    show RunsAs s (execFillfail w s) _
    unfold execFillfail
    exact .f w _ _ rfl
  case geninv w =>
    show RunsAs s (execGeninv w s) _
    unfold execGeninv
    exact .f w _ _ rfl
  case cutsel w =>
    show RunsAs s (execCutsel w s) _
    unfold execCutsel
    exact .f w _ _ rfl
  case cutselRst w =>
    show RunsAs s (execCutselRst w s) _
    unfold execCutselRst
    exact .f w _ _ rfl
  case rayq w =>
    show RunsAs s (execRayq w s) _
    unfold execRayq
    exact .f w _ _ rfl
  case rayrd w =>
    show RunsAs s (execRayrd w s) _
    unfold execRayrd
    exact .f w _ _ rfl
  case sysrd w =>
    show RunsAs s (execSysrd w s) _
    unfold execSysrd
    exact .f w _ _ rfl
  case csrrd w =>
    show RunsAs s (execCsrrd w s) _
    unfold execCsrrd
    exact .f w _ _ rfl
  case csrwr w =>
    show RunsAs s (execCsrwr w s) _
    unfold execCsrwr
    exact .f w _ _ rfl
  case csrswp w =>
    show RunsAs s (execCsrswp w s) _
    unfold execCsrswp
    exact .f w _ _ rfl
  case trap w =>
    show RunsAs s (execTrap w s) _
    unfold execTrap
    exact .f w _ _ rfl
  case bkpt w =>
    show RunsAs s (execBkpt w s) _
    unfold execBkpt
    exact .f w _ _ rfl
  case tret w =>
    show RunsAs s (execTret w s) _
    unfold execTret
    exact .f w _ _ rfl
  case clock w =>
    show RunsAs s (execClock w s) _
    unfold execClock
    exact .f w _ _ rfl
  case perfrd w =>
    show RunsAs s (execPerfrd w s) _
    unfold execPerfrd
    exact .f w _ _ rfl
  case pgbump w =>
    show RunsAs s (execPgbump w s) _
    unfold execPgbump
    exact .f w _ _ rfl
  case pgnew w =>
    show RunsAs s (execPgnew w s) _
    unfold execPgnew
    exact .f w _ _ rfl
  case tlbepoch w =>
    show RunsAs s (execTlbepoch w s) _
    unfold execTlbepoch
    exact .f w _ _ rfl
  case halt w =>
    show RunsAs s (execHalt w s) _
    unfold execHalt
    exact .f w _ _ rfl
  case wsremap w =>
    show RunsAs s (execWsremap w s) _
    unfold execWsremap
    exact .f w _ _ rfl
  case monctlCfg w =>
    show RunsAs s (execMonctlCfg w s) _
    unfold execMonctlCfg
    exact .f w _ _ rfl
  case monctlClr w =>
    show RunsAs s (execMonctlClr w s) _
    unfold execMonctlClr
    exact .f w _ _ rfl
  case monctlRd w =>
    show RunsAs s (execMonctlRd w s) _
    unfold execMonctlRd
    exact .f w _ _ rfl

theorem formOf_runs (s : State) (i : Instr) (f : Form) (h : formOf s i = some f) : RunsAs s (exec i s) f := by
  simp only [formOf, Option.or_eq_some_iff] at h
  obtain h | ⟨-, h | ⟨-, h | ⟨-, h⟩⟩⟩ := h
  · exact formInt_runs s i f h
  · exact formFlt_runs s i f h
  · exact formMem_runs s i f h
  · exact formSys_runs s i f h

end Sys2Proof.Machine
end

