-- ==== Sys2Proof/WellFormed.lean ====
section
/-! DEFINITION. Which instruction terms are instructions: a term is well formed when some word is it. The rows that
share an opcode are told apart by their modifier bits, a NON_INSTRUCTION_ENCODING holds a word that is none, and
the hardware's own steps are not words. Every other field value is an encoding: the reserved ones fault when the
word executes in some lane (R75, R77). -/
namespace Sys2Proof

/-- Why a term is not a well-formed instruction word. -/
inductive IllFormed where
  /-- the modifier bits say another row of the same opcode -/
  | variant
  /-- the word is an instruction after all -/
  | assigned
  /-- the row is a step of the hardware or the host and has no encoding -/
  | noEncoding
deriving DecidableEq, Repr

/-- What is wrong with an instruction term; none when it is a word. -/
def illFormed : Instr → Option IllFormed
  | .iadd _ => none
  | .iaddI _ => none
  | .isub _ => none
  | .iaddx _ => none
  | .imul _ => none
  | .imulI _ => none
  | .imulh _ => none
  | .imad _ => none
  | .imadw _ => none
  | .idiv _ => none
  | .irem _ => none
  | .imin _ => none
  | .imax _ => none
  | .iabs _ => none
  | .ineg _ => none
  | .iclamp _ => none
  | .lea _ => none
  | .add64 _ => none
  | .add64I _ => none
  | .sub64 _ => none
  | .mov _ => none
  | .movi _ => none
  | .movhi _ => none
  | .sel _ => none
  | .andB _ => none
  | .andBI _ => none
  | .orB _ => none
  | .orBI _ => none
  | .xorB _ => none
  | .xorBI _ => none
  | .andnB _ => none
  | .lop3 _ => none
  | .shl _ => none
  | .shlI _ => none
  | .shr _ => none
  | .shrI _ => none
  | .shra _ => none
  | .shraI _ => none
  | .rot _ => none
  | .fshf _ => none
  | .bfx _ => none
  | .bfi _ => none
  | .popc _ => none
  | .clz _ => none
  | .brev _ => none
  | .bperm _ => none
  | .icmp _ => none
  | .icmpi _ => none
  | .plop _ => none
  | .pmovr _ => none
  | .pmovp _ => none
  | .bra _ => none
  | .bri _ => none
  | .loop _ => none
  | .call _ => none
  | .calli _ => none
  | .ret _ => none
  | .quit _ => none
  | .fork _ => none
  | .gather _ => none
  | .unpin _ => none
  | .yield _ => none
  | .sleep _ => none
  | .nop _ => none
  | .pair _ => none
  | .fadd _ => none
  | .faddI _ => none
  | .fsub _ => none
  | .fmul _ => none
  | .fmulI _ => none
  | .fma _ => none
  | .fmin _ => none
  | .fmax _ => none
  | .fcmp _ => none
  | .fclass _ => none
  | .frnd _ => none
  | .fscale _ => none
  | .fcvt _ => none
  | .fpack2 _ => none
  | .funpk2 _ => none
  | .fma2 _ => none
  | .fadd2 _ => none
  | .fmul2 _ => none
  | .fdot2 _ => none
  | .idot4 _ => none
  | .frcp _ => none
  | .frsq _ => none
  | .fsqrt _ => none
  | .fex2 _ => none
  | .flg2 _ => none
  | .fsin _ => none
  | .fcos _ => none
  | .ftanh _ => none
  | .fpxrd _ => none
  | .fpxset _ => none
  | .shfl _ => none
  | .vote _ => none
  | .redl _ => none
  | .scanl _ => none
  | .matchL _ => none
  | .ld _ => none
  | .st _ => none
  | .ldl _ => none
  | .stl _ => none
  | .ldsp _ => none
  | .stsp _ => none
  | .lda _ => none
  | .strel _ => none
  | .atom _ => none
  | .red _ => none
  | .fence _ => none
  | .pref _ => none
  | .barinit _ => none
  | .bararr _ => none
  | .barwait _ => none
  | .barsync _ => none
  | .barexp _ => none
  | .barq _ => none
  | .cbinit _ => none
  | .cbacq _ => none
  | .cbrel _ => none
  | .cbput _ => none
  | .cbq _ => none
  | .tlwait _ => none
  | .tlq _ => none
  | .freeze w => if w.m.getLsbD 0 then some .variant else none
  | .freezeL w => if w.m.getLsbD 0 then none else some .variant
  | .shape _ => none
  | .shapeg _ => none
  | .xacq _ => none
  | .xrel _ => none
  | .accgrow _ => none
  | .accfree _ => none
  | .wload _ => none
  | .wswap _ => none
  | .wtab _ => none
  | .wwait _ => none
  | .mmq _ => none
  | .accz _ => none
  | .accrd _ => none
  | .accwr _ => none
  | .drain _ => none
  | .drainst _ => none
  | .wstat _ => none
  | .wbmap _ => none
  | .fluesub w => if w.m.getLsbD 0 then some .variant else none
  | .fluesubRst w => if w.m.getLsbD 0 then none else some .variant
  | .evsig w => if w.m.getLsbD 0 then some .variant else none
  | .evsigI _ => none
  | .evsigClr w => if w.m.getLsbD 0 then none else some .variant
  | .evwait _ => none
  | .evwaitI _ => none
  | .evq _ => none
  | .spawn _ => none
  | .tladv _ => none
  | .fillarg _ => none
  | .fillput _ => none
  | .filldone _ => none
  | .fillfail _ => none
  | .geninv _ => none
  | .cutsel w => if w.m.getLsbD 0 then some .variant else none
  | .cutselRst w => if w.m.getLsbD 0 then none else some .variant
  | .rayq _ => none
  | .rayrd _ => none
  | .sysrd _ => none
  | .csrrd _ => none
  | .csrwr _ => none
  | .csrswp _ => none
  | .trap _ => none
  | .bkpt _ => none
  | .tret _ => none
  | .clock _ => none
  | .perfrd _ => none
  | .pgbump _ => none
  | .pgnew _ => none
  | .tlbepoch _ => none
  | .halt _ => none
  | .wsremap _ => none
  | .monctlCfg w => if w.m.extractLsb' 0 2 = 1#2 ∨ w.m.extractLsb' 0 2 = 2#2 then some .variant else none
  | .monctlClr w => if w.m.extractLsb' 0 2 = 1#2 then none else some .variant
  | .monctlRd w => if w.m.extractLsb' 0 2 = 2#2 then none else some .variant
  | .batchMerge _ _ => some .noEncoding
  | .parkResume _ => some .noEncoding
  | .xsetReacquire _ => some .noEncoding
  | .sleepEnd _ => some .noEncoding
  | .trapEntry _ => some .noEncoding
  | .watchdog _ => some .noEncoding
  | .wloadComplete _ => some .noEncoding
  | .wtabTableArrival _ _ => some .noEncoding
  | .planeExchange _ => some .noEncoding
  | .passClose _ => some .noEncoding
  | .passComplete _ => some .noEncoding
  | .preemptCluster _ => some .noEncoding
  | .clusterRestore => some .noEncoding
  | .clusterPlace => some .noEncoding
  | .classAging _ => some .noEncoding
  | .slabConvert _ => some .noEncoding
  | .slabReturn _ => some .noEncoding
  | .triggerWrite _ => some .noEncoding
  | .graphRunStart _ => some .noEncoding
  | .nodeStart _ _ => some .noEncoding
  | .nodeSubmitDeferred _ _ => some .noEncoding
  | .nodeComplete _ _ => some .noEncoding
  | .pipelineReassign _ _ => some .noEncoding
  | .nodeWaitRetry _ _ => some .noEncoding
  | .flueStream _ => some .noEncoding
  | .flueCopy _ => some .noEncoding
  | .flueGatherrows _ => some .noEncoding
  | .flueStore _ => some .noEncoding
  | .flueFillv _ => some .noEncoding
  | .flueLoop _ => some .noEncoding
  | .flueEndloop _ => some .noEncoding
  | .flueTlwait _ => some .noEncoding
  | .flueTladv _ => some .noEncoding
  | .flueEvsig _ => some .noEncoding
  | .flueBararr _ => some .noEncoding
  | .flueEnd _ => some .noEncoding
  | .flueCmdInvalid _ => some .noEncoding
  | .flueWindowDelivery _ => some .noEncoding
  | .flueContextResume _ => some .noEncoding
  | .cutRun _ => some .noEncoding
  | .fillPlace _ _ => some .noEncoding
  | .fillArrayBorrow _ => some .noEncoding
  | .fillTimeout _ => some .noEncoding
  | .genEntrySubmit _ _ => some .noEncoding
  | .genEntryInvalidate _ _ => some .noEncoding
  | .victimStoreConfig _ _ => some .noEncoding
  | .lineWriteback _ _ => some .noEncoding
  | .remapStepEnd _ => some .noEncoding
  | .bankRetire _ _ => some .noEncoding
  | .engineGate _ => some .noEncoding
  | .engineWake _ => some .noEncoding
  | .thermalTrip => some .noEncoding
  | .ctxHalt _ => some .noEncoding
  | .ctxHalted _ => some .noEncoding
  | .ctxFreed _ => some .noEncoding
  | .deviceReset => some .noEncoding
  | .powerLoss => some .noEncoding
  | .nonInstructionEncoding x => if (instructionOf x).isSome then some .assigned else none
  | .recordLineArrival _ => some .noEncoding
  | .padFail _ _ => some .noEncoding
  | .powerInterval _ => some .noEncoding
  | .ctxCreate _ => some .noEncoding
  | .ctxResume _ => some .noEncoding
  | .ctxDestroy _ => some .noEncoding
  | .ctxTlset _ _ => some .noEncoding
  | .ctxCmdInvalid _ _ => some .noEncoding
  | .cmderrClear _ => some .noEncoding
  | .registerWrite _ _ => some .noEncoding
  | .hostMemAccess _ => some .noEncoding
  | .peerAccess _ => some .noEncoding
  | .linkFail _ => some .noEncoding
  | .vblank _ => some .noEncoding
  | .dpLinkTrain _ _ _ _ => some .noEncoding
  | .attgo => some .noEncoding
  | .firmwareImage _ => some .noEncoding
  | .linkRetry _ _ => some .noEncoding
  | .hpdChange _ _ => some .noEncoding

/-- A term that some 64-bit word encodes. -/
def WellFormed (i : Instr) : Bool := (illFormed i).isNone

end Sys2Proof
end

