-- ==== Sys2Proof/Laws/PerInstr.lean ====
section
/-! SUPPORT. The encoder and the decoder agree, instruction by instruction. -/
namespace Sys2Proof

/-! ### The fields of the three layouts -/

set_option maxRecDepth 4000

theorem fWordOf_encodeF (op : BitVec 8) (w : FWord) : fWordOf (encodeF op w) = w := by
  obtain ⟨s, rgn, gp, gn, d, a, b, c, eph, m⟩ := w
  simp only [fWordOf, encodeF, bitOf, FWord.mk.injEq]
  refine ⟨?_, ?_, ?_, ?_, ?_, ?_, ?_, ?_, ?_, ?_⟩
  all_goals first
    | (simp (disch := decide) only [BitVec.extractLsb'_append_eq_of_le, BitVec.extractLsb'_append_eq_of_add_le]; simp)
    | (simp only [BitVec.getLsbD_append, bit1]; simp)

theorem iWordOf_encodeI (op : BitVec 6) (w : IWord) : iWordOf (encodeI op w) = w := by
  obtain ⟨s, rgn, gp, gn, d, a, imm⟩ := w
  simp only [iWordOf, encodeI, bitOf, IWord.mk.injEq]
  refine ⟨?_, ?_, ?_, ?_, ?_, ?_, ?_⟩
  all_goals first
    | (simp (disch := decide) only [BitVec.extractLsb'_append_eq_of_le, BitVec.extractLsb'_append_eq_of_add_le]; simp)
    | (simp only [BitVec.getLsbD_append, bit1]; simp)

theorem instructionOf_encodeF (op : BitVec 8) (w : FWord) : instructionOf (encodeF op w) = decodeF op.toNat w := by
  have h1 : (encodeF op w).extractLsb' 60 2 = 0#2 := by
    unfold encodeF
    simp (disch := decide) only [BitVec.extractLsb'_append_eq_of_le, BitVec.extractLsb'_append_eq_of_add_le]; simp
  have h2 : (encodeF op w).extractLsb' 52 8 = op := by
    unfold encodeF
    simp (disch := decide) only [BitVec.extractLsb'_append_eq_of_le, BitVec.extractLsb'_append_eq_of_add_le]; simp
  unfold instructionOf
  rw [h1, h2, fWordOf_encodeF]
  rfl

theorem instructionOf_encodeI (op : BitVec 6) (w : IWord) : instructionOf (encodeI op w) = decodeI op.toNat w := by
  have h1 : (encodeI op w).extractLsb' 60 2 = 2#2 := by
    unfold encodeI
    simp (disch := decide) only [BitVec.extractLsb'_append_eq_of_le, BitVec.extractLsb'_append_eq_of_add_le]; simp
  have h2 : (encodeI op w).extractLsb' 54 6 = op := by
    unfold encodeI
    simp (disch := decide) only [BitVec.extractLsb'_append_eq_of_le, BitVec.extractLsb'_append_eq_of_add_le]; simp
  unfold instructionOf
  rw [h1, h2, iWordOf_encodeI]
  rfl

theorem pairOpOf_code (op : PairOp) : pairOpOf op.code = some op := by cases op <;> rfl

theorem slotOf_encodeSlot (p : Slot) : slotOf (encodeSlot p) = some p := by
  obtain ⟨op, d, a, m⟩ := p
  have h1 : (encodeSlot ⟨op, d, a, m⟩).extractLsb' 23 6 = op.code := by
    unfold encodeSlot
    simp (disch := decide) only [BitVec.extractLsb'_append_eq_of_le, BitVec.extractLsb'_append_eq_of_add_le]; simp
  have h2 : (encodeSlot ⟨op, d, a, m⟩).extractLsb' 14 9 = d := by
    unfold encodeSlot
    simp (disch := decide) only [BitVec.extractLsb'_append_eq_of_le, BitVec.extractLsb'_append_eq_of_add_le]; simp
  have h3 : (encodeSlot ⟨op, d, a, m⟩).extractLsb' 5 9 = a := by
    unfold encodeSlot
    simp (disch := decide) only [BitVec.extractLsb'_append_eq_of_le, BitVec.extractLsb'_append_eq_of_add_le]; simp
  have h4 : (encodeSlot ⟨op, d, a, m⟩).extractLsb' 0 5 = m := by
    unfold encodeSlot
    simp (disch := decide) only [BitVec.extractLsb'_append_eq_of_le, BitVec.extractLsb'_append_eq_of_add_le]; simp
  unfold slotOf
  rw [h1, h2, h3, h4, pairOpOf_code]
  rfl

theorem instructionOf_encodeP (w : PWord) : instructionOf (encodeP w) = some (.pair w) := by
  obtain ⟨s, rgn, pg, x, y⟩ := w
  have h1 : (encodeP ⟨s, rgn, pg, x, y⟩).extractLsb' 60 2 = 1#2 := by
    unfold encodeP
    simp (disch := decide) only [BitVec.extractLsb'_append_eq_of_le, BitVec.extractLsb'_append_eq_of_add_le]; simp
  have h2 : (encodeP ⟨s, rgn, pg, x, y⟩).extractLsb' 29 29 = encodeSlot x := by
    unfold encodeP
    simp (disch := decide) only [BitVec.extractLsb'_append_eq_of_le, BitVec.extractLsb'_append_eq_of_add_le]; simp
  have h3 : (encodeP ⟨s, rgn, pg, x, y⟩).extractLsb' 0 29 = encodeSlot y := by
    unfold encodeP
    simp (disch := decide) only [BitVec.extractLsb'_append_eq_of_le, BitVec.extractLsb'_append_eq_of_add_le]; simp
  have h4 : (encodeP ⟨s, rgn, pg, x, y⟩).extractLsb' 58 2 = pg := by
    unfold encodeP
    simp (disch := decide) only [BitVec.extractLsb'_append_eq_of_le, BitVec.extractLsb'_append_eq_of_add_le]; simp
  have h5 : bitOf (encodeP ⟨s, rgn, pg, x, y⟩) 63 = s := by
    unfold encodeP bitOf
    simp only [BitVec.getLsbD_append, bit1]; simp
  have h6 : bitOf (encodeP ⟨s, rgn, pg, x, y⟩) 62 = rgn := by
    unfold encodeP bitOf
    simp only [BitVec.getLsbD_append, bit1]; simp
  unfold instructionOf
  rw [h1]
  show decodeP _ = _
  unfold decodeP
  rw [h2, h3, h4, h5, h6, slotOf_encodeSlot, slotOf_encodeSlot]

/-- What a word runs when it is an instruction. -/
theorem decodeWord_some {x : W64} {i : Instr} (h : instructionOf x = some i) : decodeWord x = i := by
  unfold decodeWord; rw [h]; rfl

/-- An F-form instruction of an opcode decodes to itself. -/
theorem decode_encodeF {op : BitVec 8} {w : FWord} {i : Instr} (h : decodeF op.toNat w = some i) : decodeWord (encodeF op w) = i :=
  decodeWord_some ((instructionOf_encodeF op w).trans h)

/-- An I-form instruction of an opcode decodes to itself. -/
theorem decode_encodeI {op : BitVec 6} {w : IWord} {i : Instr} (h : decodeI op.toNat w = some i) : decodeWord (encodeI op w) = i :=
  decodeWord_some ((instructionOf_encodeI op w).trans h)

namespace Laws.EncodeDecode

/-- A well-formed instruction with an encoding decodes to itself; only the hardware's and the host's own steps have
none. -/
def Statement (i : Instr) : Prop :=
  match encode i with
  | none => illFormed i = some .noEncoding
  | some x => illFormed i = none → decodeWord x = i

theorem iadd (w : FWord) : Statement (.iadd w) := fun _ => decode_encodeF rfl
theorem iaddI (w : IWord) : Statement (.iaddI w) := fun _ => decode_encodeI rfl
theorem isub (w : FWord) : Statement (.isub w) := fun _ => decode_encodeF rfl
theorem iaddx (w : FWord) : Statement (.iaddx w) := fun _ => decode_encodeF rfl
theorem imul (w : FWord) : Statement (.imul w) := fun _ => decode_encodeF rfl
theorem imulI (w : IWord) : Statement (.imulI w) := fun _ => decode_encodeI rfl
theorem imulh (w : FWord) : Statement (.imulh w) := fun _ => decode_encodeF rfl
theorem imad (w : FWord) : Statement (.imad w) := fun _ => decode_encodeF rfl
theorem imadw (w : FWord) : Statement (.imadw w) := fun _ => decode_encodeF rfl
theorem idiv (w : FWord) : Statement (.idiv w) := fun _ => decode_encodeF rfl
theorem irem (w : FWord) : Statement (.irem w) := fun _ => decode_encodeF rfl
theorem imin (w : FWord) : Statement (.imin w) := fun _ => decode_encodeF rfl
theorem imax (w : FWord) : Statement (.imax w) := fun _ => decode_encodeF rfl
theorem iabs (w : FWord) : Statement (.iabs w) := fun _ => decode_encodeF rfl
theorem ineg (w : FWord) : Statement (.ineg w) := fun _ => decode_encodeF rfl
theorem iclamp (w : FWord) : Statement (.iclamp w) := fun _ => decode_encodeF rfl
theorem lea (w : FWord) : Statement (.lea w) := fun _ => decode_encodeF rfl
theorem add64 (w : FWord) : Statement (.add64 w) := fun _ => decode_encodeF rfl
theorem add64I (w : IWord) : Statement (.add64I w) := fun _ => decode_encodeI rfl
theorem sub64 (w : FWord) : Statement (.sub64 w) := fun _ => decode_encodeF rfl
theorem mov (w : FWord) : Statement (.mov w) := fun _ => decode_encodeF rfl
theorem movi (w : IWord) : Statement (.movi w) := fun _ => decode_encodeI rfl
theorem movhi (w : IWord) : Statement (.movhi w) := fun _ => decode_encodeI rfl
theorem sel (w : FWord) : Statement (.sel w) := fun _ => decode_encodeF rfl
theorem andB (w : FWord) : Statement (.andB w) := fun _ => decode_encodeF rfl
theorem andBI (w : IWord) : Statement (.andBI w) := fun _ => decode_encodeI rfl
theorem orB (w : FWord) : Statement (.orB w) := fun _ => decode_encodeF rfl
theorem orBI (w : IWord) : Statement (.orBI w) := fun _ => decode_encodeI rfl
theorem xorB (w : FWord) : Statement (.xorB w) := fun _ => decode_encodeF rfl
theorem xorBI (w : IWord) : Statement (.xorBI w) := fun _ => decode_encodeI rfl
theorem andnB (w : FWord) : Statement (.andnB w) := fun _ => decode_encodeF rfl
theorem lop3 (w : FWord) : Statement (.lop3 w) := fun _ => decode_encodeF rfl
theorem shl (w : FWord) : Statement (.shl w) := fun _ => decode_encodeF rfl
theorem shlI (w : IWord) : Statement (.shlI w) := fun _ => decode_encodeI rfl
theorem shr (w : FWord) : Statement (.shr w) := fun _ => decode_encodeF rfl
theorem shrI (w : IWord) : Statement (.shrI w) := fun _ => decode_encodeI rfl
theorem shra (w : FWord) : Statement (.shra w) := fun _ => decode_encodeF rfl
theorem shraI (w : IWord) : Statement (.shraI w) := fun _ => decode_encodeI rfl
theorem rot (w : FWord) : Statement (.rot w) := fun _ => decode_encodeF rfl
theorem fshf (w : FWord) : Statement (.fshf w) := fun _ => decode_encodeF rfl
theorem bfx (w : FWord) : Statement (.bfx w) := fun _ => decode_encodeF rfl
theorem bfi (w : FWord) : Statement (.bfi w) := fun _ => decode_encodeF rfl
theorem popc (w : FWord) : Statement (.popc w) := fun _ => decode_encodeF rfl
theorem clz (w : FWord) : Statement (.clz w) := fun _ => decode_encodeF rfl
theorem brev (w : FWord) : Statement (.brev w) := fun _ => decode_encodeF rfl
theorem bperm (w : FWord) : Statement (.bperm w) := fun _ => decode_encodeF rfl
theorem icmp (w : FWord) : Statement (.icmp w) := fun _ => decode_encodeF rfl
theorem icmpi (w : IWord) : Statement (.icmpi w) := fun _ => decode_encodeI rfl
theorem plop (w : FWord) : Statement (.plop w) := fun _ => decode_encodeF rfl
theorem pmovr (w : FWord) : Statement (.pmovr w) := fun _ => decode_encodeF rfl
theorem pmovp (w : FWord) : Statement (.pmovp w) := fun _ => decode_encodeF rfl
theorem bra (w : IWord) : Statement (.bra w) := fun _ => decode_encodeI rfl
theorem bri (w : FWord) : Statement (.bri w) := fun _ => decode_encodeF rfl
theorem loop (w : IWord) : Statement (.loop w) := fun _ => decode_encodeI rfl
theorem call (w : IWord) : Statement (.call w) := fun _ => decode_encodeI rfl
theorem calli (w : FWord) : Statement (.calli w) := fun _ => decode_encodeF rfl
theorem ret (w : FWord) : Statement (.ret w) := fun _ => decode_encodeF rfl
theorem quit (w : FWord) : Statement (.quit w) := fun _ => decode_encodeF rfl
theorem fork (w : FWord) : Statement (.fork w) := fun _ => decode_encodeF rfl
theorem gather (w : FWord) : Statement (.gather w) := fun _ => decode_encodeF rfl
theorem unpin (w : FWord) : Statement (.unpin w) := fun _ => decode_encodeF rfl
theorem yield (w : FWord) : Statement (.yield w) := fun _ => decode_encodeF rfl
theorem sleep (w : IWord) : Statement (.sleep w) := fun _ => decode_encodeI rfl
theorem nop (w : FWord) : Statement (.nop w) := fun _ => decode_encodeF rfl
theorem pair (w : PWord) : Statement (.pair w) := fun _ => decodeWord_some (instructionOf_encodeP w)
theorem fadd (w : FWord) : Statement (.fadd w) := fun _ => decode_encodeF rfl
theorem faddI (w : IWord) : Statement (.faddI w) := fun _ => decode_encodeI rfl
theorem fsub (w : FWord) : Statement (.fsub w) := fun _ => decode_encodeF rfl
theorem fmul (w : FWord) : Statement (.fmul w) := fun _ => decode_encodeF rfl
theorem fmulI (w : IWord) : Statement (.fmulI w) := fun _ => decode_encodeI rfl
theorem fma (w : FWord) : Statement (.fma w) := fun _ => decode_encodeF rfl
theorem fmin (w : FWord) : Statement (.fmin w) := fun _ => decode_encodeF rfl
theorem fmax (w : FWord) : Statement (.fmax w) := fun _ => decode_encodeF rfl
theorem fcmp (w : FWord) : Statement (.fcmp w) := fun _ => decode_encodeF rfl
theorem fclass (w : FWord) : Statement (.fclass w) := fun _ => decode_encodeF rfl
theorem frnd (w : FWord) : Statement (.frnd w) := fun _ => decode_encodeF rfl
theorem fscale (w : FWord) : Statement (.fscale w) := fun _ => decode_encodeF rfl
theorem fcvt (w : FWord) : Statement (.fcvt w) := fun _ => decode_encodeF rfl
theorem fpack2 (w : FWord) : Statement (.fpack2 w) := fun _ => decode_encodeF rfl
theorem funpk2 (w : FWord) : Statement (.funpk2 w) := fun _ => decode_encodeF rfl
theorem fma2 (w : FWord) : Statement (.fma2 w) := fun _ => decode_encodeF rfl
theorem fadd2 (w : FWord) : Statement (.fadd2 w) := fun _ => decode_encodeF rfl
theorem fmul2 (w : FWord) : Statement (.fmul2 w) := fun _ => decode_encodeF rfl
theorem fdot2 (w : FWord) : Statement (.fdot2 w) := fun _ => decode_encodeF rfl
theorem idot4 (w : FWord) : Statement (.idot4 w) := fun _ => decode_encodeF rfl
theorem frcp (w : FWord) : Statement (.frcp w) := fun _ => decode_encodeF rfl
theorem frsq (w : FWord) : Statement (.frsq w) := fun _ => decode_encodeF rfl
theorem fsqrt (w : FWord) : Statement (.fsqrt w) := fun _ => decode_encodeF rfl
theorem fex2 (w : FWord) : Statement (.fex2 w) := fun _ => decode_encodeF rfl
theorem flg2 (w : FWord) : Statement (.flg2 w) := fun _ => decode_encodeF rfl
theorem fsin (w : FWord) : Statement (.fsin w) := fun _ => decode_encodeF rfl
theorem fcos (w : FWord) : Statement (.fcos w) := fun _ => decode_encodeF rfl
theorem ftanh (w : FWord) : Statement (.ftanh w) := fun _ => decode_encodeF rfl
theorem fpxrd (w : FWord) : Statement (.fpxrd w) := fun _ => decode_encodeF rfl
theorem fpxset (w : FWord) : Statement (.fpxset w) := fun _ => decode_encodeF rfl
theorem shfl (w : FWord) : Statement (.shfl w) := fun _ => decode_encodeF rfl
theorem vote (w : FWord) : Statement (.vote w) := fun _ => decode_encodeF rfl
theorem redl (w : FWord) : Statement (.redl w) := fun _ => decode_encodeF rfl
theorem scanl (w : FWord) : Statement (.scanl w) := fun _ => decode_encodeF rfl
theorem matchL (w : FWord) : Statement (.matchL w) := fun _ => decode_encodeF rfl
theorem ld (w : FWord) : Statement (.ld w) := fun _ => decode_encodeF rfl
theorem st (w : FWord) : Statement (.st w) := fun _ => decode_encodeF rfl
theorem ldl (w : FWord) : Statement (.ldl w) := fun _ => decode_encodeF rfl
theorem stl (w : FWord) : Statement (.stl w) := fun _ => decode_encodeF rfl
theorem ldsp (w : FWord) : Statement (.ldsp w) := fun _ => decode_encodeF rfl
theorem stsp (w : FWord) : Statement (.stsp w) := fun _ => decode_encodeF rfl
theorem lda (w : FWord) : Statement (.lda w) := fun _ => decode_encodeF rfl
theorem strel (w : FWord) : Statement (.strel w) := fun _ => decode_encodeF rfl
theorem atom (w : FWord) : Statement (.atom w) := fun _ => decode_encodeF rfl
theorem red (w : FWord) : Statement (.red w) := fun _ => decode_encodeF rfl
theorem fence (w : FWord) : Statement (.fence w) := fun _ => decode_encodeF rfl
theorem pref (w : FWord) : Statement (.pref w) := fun _ => decode_encodeF rfl
theorem barinit (w : FWord) : Statement (.barinit w) := fun _ => decode_encodeF rfl
theorem bararr (w : FWord) : Statement (.bararr w) := fun _ => decode_encodeF rfl
theorem barwait (w : FWord) : Statement (.barwait w) := fun _ => decode_encodeF rfl
theorem barsync (w : FWord) : Statement (.barsync w) := fun _ => decode_encodeF rfl
theorem barexp (w : FWord) : Statement (.barexp w) := fun _ => decode_encodeF rfl
theorem barq (w : FWord) : Statement (.barq w) := fun _ => decode_encodeF rfl
theorem cbinit (w : FWord) : Statement (.cbinit w) := fun _ => decode_encodeF rfl
theorem cbacq (w : FWord) : Statement (.cbacq w) := fun _ => decode_encodeF rfl
theorem cbrel (w : FWord) : Statement (.cbrel w) := fun _ => decode_encodeF rfl
theorem cbput (w : FWord) : Statement (.cbput w) := fun _ => decode_encodeF rfl
theorem cbq (w : FWord) : Statement (.cbq w) := fun _ => decode_encodeF rfl
theorem tlwait (w : FWord) : Statement (.tlwait w) := fun _ => decode_encodeF rfl
theorem tlq (w : FWord) : Statement (.tlq w) := fun _ => decode_encodeF rfl
theorem freeze (w : FWord) : Statement (.freeze w) := by
  intro h
  refine decode_encodeF ?_
  cases hb : w.m.getLsbD 0 with
  | false =>
    show some (if w.m.getLsbD 0 then Instr.freezeL w else .freeze w) = _
    rw [hb]; rfl
  | true =>
    change (if w.m.getLsbD 0 then some IllFormed.variant else none) = none at h
    rw [hb] at h; exact absurd h (by decide)
theorem freezeL (w : FWord) : Statement (.freezeL w) := by
  intro h
  refine decode_encodeF ?_
  cases hb : w.m.getLsbD 0 with
  | false =>
    change (if w.m.getLsbD 0 then none else some IllFormed.variant) = none at h
    rw [hb] at h; exact absurd h (by decide)
  | true =>
    show some (if w.m.getLsbD 0 then Instr.freezeL w else .freeze w) = _
    rw [hb]; rfl
theorem shape (w : FWord) : Statement (.shape w) := fun _ => decode_encodeF rfl
theorem shapeg (w : FWord) : Statement (.shapeg w) := fun _ => decode_encodeF rfl
theorem xacq (w : FWord) : Statement (.xacq w) := fun _ => decode_encodeF rfl
theorem xrel (w : FWord) : Statement (.xrel w) := fun _ => decode_encodeF rfl
theorem accgrow (w : FWord) : Statement (.accgrow w) := fun _ => decode_encodeF rfl
theorem accfree (w : FWord) : Statement (.accfree w) := fun _ => decode_encodeF rfl
theorem wload (w : FWord) : Statement (.wload w) := fun _ => decode_encodeF rfl
theorem wswap (w : FWord) : Statement (.wswap w) := fun _ => decode_encodeF rfl
theorem wtab (w : FWord) : Statement (.wtab w) := fun _ => decode_encodeF rfl
theorem wwait (w : FWord) : Statement (.wwait w) := fun _ => decode_encodeF rfl
theorem mmq (w : FWord) : Statement (.mmq w) := fun _ => decode_encodeF rfl
theorem accz (w : FWord) : Statement (.accz w) := fun _ => decode_encodeF rfl
theorem accrd (w : FWord) : Statement (.accrd w) := fun _ => decode_encodeF rfl
theorem accwr (w : FWord) : Statement (.accwr w) := fun _ => decode_encodeF rfl
theorem drain (w : FWord) : Statement (.drain w) := fun _ => decode_encodeF rfl
theorem drainst (w : FWord) : Statement (.drainst w) := fun _ => decode_encodeF rfl
theorem wstat (w : FWord) : Statement (.wstat w) := fun _ => decode_encodeF rfl
theorem wbmap (w : FWord) : Statement (.wbmap w) := fun _ => decode_encodeF rfl
theorem fluesub (w : FWord) : Statement (.fluesub w) := by
  intro h
  refine decode_encodeF ?_
  cases hb : w.m.getLsbD 0 with
  | false =>
    show some (if w.m.getLsbD 0 then Instr.fluesubRst w else .fluesub w) = _
    rw [hb]; rfl
  | true =>
    change (if w.m.getLsbD 0 then some IllFormed.variant else none) = none at h
    rw [hb] at h; exact absurd h (by decide)
theorem fluesubRst (w : FWord) : Statement (.fluesubRst w) := by
  intro h
  refine decode_encodeF ?_
  cases hb : w.m.getLsbD 0 with
  | false =>
    change (if w.m.getLsbD 0 then none else some IllFormed.variant) = none at h
    rw [hb] at h; exact absurd h (by decide)
  | true =>
    show some (if w.m.getLsbD 0 then Instr.fluesubRst w else .fluesub w) = _
    rw [hb]; rfl
theorem evsig (w : FWord) : Statement (.evsig w) := by
  intro h
  refine decode_encodeF ?_
  cases hb : w.m.getLsbD 0 with
  | false =>
    show some (if w.m.getLsbD 0 then Instr.evsigClr w else .evsig w) = _
    rw [hb]; rfl
  | true =>
    change (if w.m.getLsbD 0 then some IllFormed.variant else none) = none at h
    rw [hb] at h; exact absurd h (by decide)
theorem evsigI (w : IWord) : Statement (.evsigI w) := fun _ => decode_encodeI rfl
theorem evsigClr (w : FWord) : Statement (.evsigClr w) := by
  intro h
  refine decode_encodeF ?_
  cases hb : w.m.getLsbD 0 with
  | false =>
    change (if w.m.getLsbD 0 then none else some IllFormed.variant) = none at h
    rw [hb] at h; exact absurd h (by decide)
  | true =>
    show some (if w.m.getLsbD 0 then Instr.evsigClr w else .evsig w) = _
    rw [hb]; rfl
theorem evwait (w : FWord) : Statement (.evwait w) := fun _ => decode_encodeF rfl
theorem evwaitI (w : IWord) : Statement (.evwaitI w) := fun _ => decode_encodeI rfl
theorem evq (w : FWord) : Statement (.evq w) := fun _ => decode_encodeF rfl
theorem spawn (w : FWord) : Statement (.spawn w) := fun _ => decode_encodeF rfl
theorem tladv (w : FWord) : Statement (.tladv w) := fun _ => decode_encodeF rfl
theorem fillarg (w : FWord) : Statement (.fillarg w) := fun _ => decode_encodeF rfl
theorem fillput (w : FWord) : Statement (.fillput w) := fun _ => decode_encodeF rfl
theorem filldone (w : FWord) : Statement (.filldone w) := fun _ => decode_encodeF rfl
theorem fillfail (w : FWord) : Statement (.fillfail w) := fun _ => decode_encodeF rfl
theorem geninv (w : FWord) : Statement (.geninv w) := fun _ => decode_encodeF rfl
theorem cutsel (w : FWord) : Statement (.cutsel w) := by
  intro h
  refine decode_encodeF ?_
  cases hb : w.m.getLsbD 0 with
  | false =>
    show some (if w.m.getLsbD 0 then Instr.cutselRst w else .cutsel w) = _
    rw [hb]; rfl
  | true =>
    change (if w.m.getLsbD 0 then some IllFormed.variant else none) = none at h
    rw [hb] at h; exact absurd h (by decide)
theorem cutselRst (w : FWord) : Statement (.cutselRst w) := by
  intro h
  refine decode_encodeF ?_
  cases hb : w.m.getLsbD 0 with
  | false =>
    change (if w.m.getLsbD 0 then none else some IllFormed.variant) = none at h
    rw [hb] at h; exact absurd h (by decide)
  | true =>
    show some (if w.m.getLsbD 0 then Instr.cutselRst w else .cutsel w) = _
    rw [hb]; rfl
theorem rayq (w : FWord) : Statement (.rayq w) := fun _ => decode_encodeF rfl
theorem rayrd (w : FWord) : Statement (.rayrd w) := fun _ => decode_encodeF rfl
theorem sysrd (w : FWord) : Statement (.sysrd w) := fun _ => decode_encodeF rfl
theorem csrrd (w : FWord) : Statement (.csrrd w) := fun _ => decode_encodeF rfl
theorem csrwr (w : FWord) : Statement (.csrwr w) := fun _ => decode_encodeF rfl
theorem csrswp (w : FWord) : Statement (.csrswp w) := fun _ => decode_encodeF rfl
theorem trap (w : FWord) : Statement (.trap w) := fun _ => decode_encodeF rfl
theorem bkpt (w : FWord) : Statement (.bkpt w) := fun _ => decode_encodeF rfl
theorem tret (w : FWord) : Statement (.tret w) := fun _ => decode_encodeF rfl
theorem clock (w : FWord) : Statement (.clock w) := fun _ => decode_encodeF rfl
theorem perfrd (w : FWord) : Statement (.perfrd w) := fun _ => decode_encodeF rfl
theorem pgbump (w : FWord) : Statement (.pgbump w) := fun _ => decode_encodeF rfl
theorem pgnew (w : FWord) : Statement (.pgnew w) := fun _ => decode_encodeF rfl
theorem tlbepoch (w : FWord) : Statement (.tlbepoch w) := fun _ => decode_encodeF rfl
theorem halt (w : FWord) : Statement (.halt w) := fun _ => decode_encodeF rfl
theorem wsremap (w : FWord) : Statement (.wsremap w) := fun _ => decode_encodeF rfl
theorem monctlCfg (w : FWord) : Statement (.monctlCfg w) := by
  intro h
  refine decode_encodeF ?_
  have hn : ¬ (w.m.extractLsb' 0 2 = 1#2 ∨ w.m.extractLsb' 0 2 = 2#2) := by
    intro hc; simp [illFormed, hc] at h
  have h1 : (w.m.extractLsb' 0 2).toNat ≠ 1 := fun e => hn (.inl (BitVec.eq_of_toNat_eq e))
  have h2 : (w.m.extractLsb' 0 2).toNat ≠ 2 := fun e => hn (.inr (BitVec.eq_of_toNat_eq e))
  show some (match (w.m.extractLsb' 0 2).toNat with | 1 => Instr.monctlClr w | 2 => .monctlRd w | _ => .monctlCfg w) = _
  split
  · next e => exact absurd e h1
  · next e => exact absurd e h2
  · rfl
theorem monctlClr (w : FWord) : Statement (.monctlClr w) := by
  intro h
  refine decode_encodeF ?_
  have hv : w.m.extractLsb' 0 2 = 1#2 := by
    by_contra hc; simp [illFormed, hc] at h
  show some (match (w.m.extractLsb' 0 2).toNat with | 1 => Instr.monctlClr w | 2 => .monctlRd w | _ => .monctlCfg w) = _
  rw [hv]; rfl
theorem monctlRd (w : FWord) : Statement (.monctlRd w) := by
  intro h
  refine decode_encodeF ?_
  have hv : w.m.extractLsb' 0 2 = 2#2 := by
    by_contra hc; simp [illFormed, hc] at h
  show some (match (w.m.extractLsb' 0 2).toNat with | 1 => Instr.monctlClr w | 2 => .monctlRd w | _ => .monctlCfg w) = _
  rw [hv]; rfl
theorem batchMerge (a b : Nat) : Statement (.batchMerge a b) := rfl
theorem parkResume (b : Nat) : Statement (.parkResume b) := rfl
theorem xsetReacquire (b : Nat) : Statement (.xsetReacquire b) := rfl
theorem sleepEnd (b : Nat) : Statement (.sleepEnd b) := rfl
theorem trapEntry (b : Nat) : Statement (.trapEntry b) := rfl
theorem watchdog (b : Nat) : Statement (.watchdog b) := rfl
theorem wloadComplete (core : Nat) : Statement (.wloadComplete core) := rfl
theorem wtabTableArrival (core idx : Nat) : Statement (.wtabTableArrival core idx) := rfl
theorem planeExchange (core : Nat) : Statement (.planeExchange core) := rfl
theorem passClose (core : Nat) : Statement (.passClose core) := rfl
theorem passComplete (core : Nat) : Statement (.passComplete core) := rfl
theorem preemptCluster (cl : Nat) : Statement (.preemptCluster cl) := rfl
theorem clusterRestore : Statement .clusterRestore := rfl
theorem clusterPlace : Statement .clusterPlace := rfl
theorem classAging (cl : Nat) : Statement (.classAging cl) := rfl
theorem slabConvert (core : Nat) : Statement (.slabConvert core) := rfl
theorem slabReturn (core : Nat) : Statement (.slabReturn core) := rfl
theorem triggerWrite (v : W64) : Statement (.triggerWrite v) := rfl
theorem graphRunStart (ctx : Nat) : Statement (.graphRunStart ctx) := rfl
theorem nodeStart (g n : Nat) : Statement (.nodeStart g n) := rfl
theorem nodeSubmitDeferred (g n : Nat) : Statement (.nodeSubmitDeferred g n) := rfl
theorem nodeComplete (g n : Nat) : Statement (.nodeComplete g n) := rfl
theorem pipelineReassign (g n : Nat) : Statement (.pipelineReassign g n) := rfl
theorem nodeWaitRetry (g n : Nat) : Statement (.nodeWaitRetry g n) := rfl
theorem flueStream (c : Nat) : Statement (.flueStream c) := rfl
theorem flueCopy (c : Nat) : Statement (.flueCopy c) := rfl
theorem flueGatherrows (c : Nat) : Statement (.flueGatherrows c) := rfl
theorem flueStore (c : Nat) : Statement (.flueStore c) := rfl
theorem flueFillv (c : Nat) : Statement (.flueFillv c) := rfl
theorem flueLoop (c : Nat) : Statement (.flueLoop c) := rfl
theorem flueEndloop (c : Nat) : Statement (.flueEndloop c) := rfl
theorem flueTlwait (c : Nat) : Statement (.flueTlwait c) := rfl
theorem flueTladv (c : Nat) : Statement (.flueTladv c) := rfl
theorem flueEvsig (c : Nat) : Statement (.flueEvsig c) := rfl
theorem flueBararr (c : Nat) : Statement (.flueBararr c) := rfl
theorem flueEnd (c : Nat) : Statement (.flueEnd c) := rfl
theorem flueCmdInvalid (c : Nat) : Statement (.flueCmdInvalid c) := rfl
theorem flueWindowDelivery (c : Nat) : Statement (.flueWindowDelivery c) := rfl
theorem flueContextResume (c : Nat) : Statement (.flueContextResume c) := rfl
theorem cutRun (c : Nat) : Statement (.cutRun c) := rfl
theorem fillPlace (depth core : Nat) : Statement (.fillPlace depth core) := rfl
theorem fillArrayBorrow (b : Nat) : Statement (.fillArrayBorrow b) := rfl
theorem fillTimeout (r : Nat) : Statement (.fillTimeout r) := rfl
theorem genEntrySubmit (entry : Nat) (t1 : W64) : Statement (.genEntrySubmit entry t1) := rfl
theorem genEntryInvalidate (entry : Nat) (t1 : W64) : Statement (.genEntryInvalidate entry t1) := rfl
theorem victimStoreConfig (cfg : Bool) (v : W64) : Statement (.victimStoreConfig cfg v) := rfl
theorem lineWriteback (core line : Nat) : Statement (.lineWriteback core line) := rfl
theorem remapStepEnd (col : Nat) : Statement (.remapStepEnd col) := rfl
theorem bankRetire (col bank : Nat) : Statement (.bankRetire col bank) := rfl
theorem engineGate (e : Engine) : Statement (.engineGate e) := rfl
theorem engineWake (e : Engine) : Statement (.engineWake e) := rfl
theorem thermalTrip : Statement .thermalTrip := rfl
theorem ctxHalt (c : Nat) : Statement (.ctxHalt c) := rfl
theorem ctxHalted (c : Nat) : Statement (.ctxHalted c) := rfl
theorem ctxFreed (c : Nat) : Statement (.ctxFreed c) := rfl
theorem deviceReset : Statement .deviceReset := rfl
theorem powerLoss : Statement .powerLoss := rfl
theorem nonInstructionEncoding (w : W64) : Statement (.nonInstructionEncoding w) := by
  intro h
  show decodeWord w = .nonInstructionEncoding w
  unfold decodeWord
  cases hi : instructionOf w with
  | none => rfl
  | some i => simp [illFormed, hi] at h
theorem recordLineArrival (core : Nat) : Statement (.recordLineArrival core) := rfl
theorem padFail (col pad : Nat) : Statement (.padFail col pad) := rfl
theorem powerInterval (p : PowerSample) : Statement (.powerInterval p) := rfl
theorem ctxCreate (c : Nat) : Statement (.ctxCreate c) := rfl
theorem ctxResume (c : Nat) : Statement (.ctxResume c) := rfl
theorem ctxDestroy (c : Nat) : Statement (.ctxDestroy c) := rfl
theorem ctxTlset (c id : Nat) : Statement (.ctxTlset c id) := rfl
theorem ctxCmdInvalid (c code : Nat) : Statement (.ctxCmdInvalid c code) := rfl
theorem cmderrClear (c : Nat) : Statement (.cmderrClear c) := rfl
theorem registerWrite (off : Nat) (v : W64) : Statement (.registerWrite off v) := rfl
theorem hostMemAccess (a : BusAccess) : Statement (.hostMemAccess a) := rfl
theorem peerAccess (a : BusAccess) : Statement (.peerAccess a) := rfl
theorem linkFail (link : Nat) : Statement (.linkFail link) := rfl
theorem vblank (o : Nat) : Statement (.vblank o) := rfl
theorem dpLinkTrain (o : Nat) (rate lanes : Nat) (fits : Bool) : Statement (.dpLinkTrain o rate lanes fits) := rfl
theorem attgo : Statement .attgo := rfl
theorem firmwareImage (img : List Byte) : Statement (.firmwareImage img) := rfl
theorem linkRetry (link : Nat) (up : Bool) : Statement (.linkRetry link up) := rfl
theorem hpdChange (o : Nat) (present : Bool) : Statement (.hpdChange o present) := rfl

end Laws.EncodeDecode

end Sys2Proof
end

