-- ==== Sys2Proof/Safety/Rules.lean ====
section
/-! DEFINITION. What the rules say that a word of chapters 04 and 05 does when it comes to its own effect: the state that
its own part leaves, and its results lane by lane. The statements quantify over these tables. -/
namespace Sys2Proof.Machine
open Sys2Proof

/-- The results of a word: for each register its absolute name and its value in each lane, for each predicate its number
and its value in each lane, and the FP flags that each lane raises. -/
structure Results where
  regs : List (Nat × (Nat → W32)) := []
  preds : List (Nat × (Nat → Bool)) := []
  flags : LaneFlags := []

/-- What a word's own part does: the state that it leaves and its results; none where it takes a cause or waits. -/
abbrev Effect := Exec → Option (State × Results)

/-- The word of `x`, whose own part left the state `u`, retires into `t` with these results in its active lanes. -/
def Shows (x : Exec) (u t : State) (r : Results) : Prop :=
  ∃ b c regs preds, findBatch u x.b.id = some b ∧ Retires x u t b c regs preds r.flags ∧
    List.Forall₂ (fun (p : Nat × RegVal) (q : Nat × (Nat → W32)) => p.1 = q.1 ∧ ∀ l ∈ x.act, l < 32 → laneVal p.2 l = q.2 l)
      regs r.regs ∧
    List.Forall₂ (fun (p : Nat × W32) (q : Nat × (Nat → Bool)) => p.1 = q.1 ∧ ∀ l ∈ x.act, l < 32 → p.2.getLsbD l = q.2 l)
      preds r.preds

/-- Every word of a table that comes to its own effect has the effect that the table gives: exec answers a next state. -/
def Fulfils (table : Instr → Option Effect) : Prop :=
  ∀ s i f e, formOf s i = some f → table i = some e → ∀ b, f.Ready s b → ∀ u r, e (f.start s b) = some (u, r) →
    ∃ t, exec i s = .next t ∧ Shows (f.start s b) u t r

/-- The FP flags of a word's active lanes, which join at once (R150). -/
def joinFlags (act : List Nat) (f : Nat → Nat) : LaneFlags := act.map fun l => (l, BitVec.ofNat 32 (f l))

/-- A lane value without flags. -/
def plain (v : W32) : W32 × Nat := (v, 0)

/-- One register result, from the lane's values of a, b, c and old d: the value, with the FP flags that the lane raises. -/
def each (g : W32 → W32 → W32 → W32 → W32 × Nat) : Option Effect := some fun x =>
  let out (l : Nat) : W32 × Nat := g (lane x .a 0 l) (lane x .b 0 l) (lane x .c 0 l) (lane x .d 0 l)
  some (x.s, { regs := [(nameOf x .d 0, fun l => (out l).1)], flags := joinFlags x.act fun l => (out l).2 })

/-- One 32-bit register result without flags. -/
def gives (g : Exec → Nat → W32) : Option Effect := some fun x => some (x.s, { regs := [(nameOf x .d 0, g x)] })

/-- A 64-bit result in d and d+1, low half first (R10). -/
def gives64 (g : Exec → Nat → W64) : Option Effect := some fun x =>
  some (x.s, { regs := [(nameOf x .d 0, fun l => (g x l).extractLsb' 0 32), (nameOf x .d 1, fun l => (g x l).extractLsb' 32 32)] })

/-- One predicate result. -/
def decides (n : Nat) (g : Exec → Nat → Bool) : Option Effect := some fun x => some (x.s, { preds := [(n, g x)] })

/-- No result: the word only has its effect on the state. -/
def only (g : Exec → State) : Option Effect := some fun x => some (g x, {})

/-- A floating-point lane value: code and flags. -/
def coded (r : Nat × Nat) : W32 × Nat := (BitVec.ofNat 32 r.1, r.2)

/-- The exact arithmetic of R90: both sources extended, the result fitted. -/
def exact2 (w : FWord) (f : Int → Int → Int) (a b : W32) : W32 × Nat :=
  plain (fitInt (modType w.m) (modSat w.m) (f (extInt (modType w.m) a) (extInt (modType w.m) b)))

/-- The same of three sources. -/
def exact3 (w : FWord) (f : Int → Int → Int → Int) (a b c : W32) : W32 × Nat :=
  plain (fitInt (modType w.m) (modSat w.m)
    (f (extInt (modType w.m) a) (extInt (modType w.m) b) (extInt (modType w.m) c)))

/-- Integer arithmetic, addresses and moves (R94 to R101). -/
def integerTable : Instr → Option Effect
  | .iadd w => each fun a b _ _ => exact2 w (· + ·) a b
  | .isub w => each fun a b _ _ => exact2 w (· - ·) a b
  | .imul w => each fun a b _ _ => exact2 w (· * ·) a b
  | .imad w => each fun a b c _ => exact3 w (fun a b c => a * b + c) a b c
  | .imin w => each fun a b _ _ => exact2 w min a b
  | .imax w => each fun a b _ _ => exact2 w max a b
  | .iabs w => each fun a _ _ _ => exact2 w (fun x _ => if x < 0 then -x else x) a 0
  | .ineg w => each fun a _ _ _ => exact2 w (fun x _ => -x) a 0
  | .iclamp w => each fun a b c _ => exact3 w (fun a b c => min (max a b) c) a b c
  | .imulh w => each fun a b _ _ => plain (BitVec.ofInt 32 ((extInt (modType w.m) a * extInt (modType w.m) b) / 2 ^ 32))
  | .idiv w => gives fun x l => if lane x .b 0 l = 0 then 0xFFFFFFFF else
      fitInt (modType w.m) (modSat w.m) ((extInt (modType w.m) (lane x .a 0 l)).tdiv (extInt (modType w.m) (lane x .b 0 l)))
  | .irem w => gives fun x l => if lane x .b 0 l = 0 then lane x .a 0 l else
      fitInt (modType w.m) false ((extInt (modType w.m) (lane x .a 0 l)).tmod (extInt (modType w.m) (lane x .b 0 l)))
  | .idot4 w => each fun a b c _ =>
      let el (sg : Bool) (x : W32) (i : Nat) : Int :=
        if sg then (x.extractLsb' (8 * i) 8).toInt else (x.extractLsb' (8 * i) 8).toNat
      let p (i : Nat) : Int := el (w.m.getLsbD 5) a i * el (w.m.getLsbD 6) b i
      plain (fitInt 0 (modSat w.m) (c.toInt + p 0 + p 1 + p 2 + p 3))
  | .iaddx w => some fun x =>
      let p := modSub w.m
      let sum (l : Nat) : Nat :=
        (lane x .a 0 l).toNat + (lane x .b 0 l).toNat + (if predBit (fibreOf x.b l).pw p then 1 else 0)
      some (x.s, { regs := [(nameOf x .d 0, fun l => BitVec.ofNat 32 (sum l))], preds := [(p, fun l => decide (2 ^ 32 ≤ sum l))] })
  | .imadw w => gives64 fun x l =>
      BitVec.ofInt 64 (extInt (modType w.m) (lane x .a 0 l) * extInt (modType w.m) (lane x .b 0 l)) + lane64 x .c l
  | .lea w => gives64 fun x l =>
      lane64 x .a l + (BitVec.ofInt 64 (extInt (if w.m.getLsbD 3 then 0 else 1) (lane x .b 0 l)) <<< (w.m.toNat % 8))
  | .add64 _ => gives64 fun x l => lane64 x .a l + lane64 x .b l
  | .sub64 _ => gives64 fun x l => lane64 x .a l - lane64 x .b l
  | .add64I w => gives64 fun x l => lane64 x .a l + w.imm.signExtend 64
  | .iaddI w => each fun a _ _ _ => plain (a + w.imm)
  | .imulI w => each fun a _ _ _ => plain (a * w.imm)
  | .movi w => each fun _ _ _ _ => plain w.imm
  | .movhi w => each fun _ _ _ _ => plain w.imm
  | .mov w => some fun x =>
      let n := if modType w.m = 9 then 2 else if modType w.m = 12 then 4 else 1
      some (x.s, { regs := (List.range n).map fun j => (nameOf x .d j, lane x .a j) })
  | .sel w => gives fun x l => if predBit (fibreOf x.b l).pw w.c.toNat then lane x .a 0 l else lane x .b 0 l
  | _ => none

/-- Bit `i` of LOP3's result: the table at the bits of its sources (R102). -/
def lop3Bit (m : BitVec 11) (a b c : W32) (i : Nat) : Bool :=
  m.getLsbD ((if a.getLsbD i then 1 else 0) + 2 * (if b.getLsbD i then 1 else 0) + 4 * (if c.getLsbD i then 1 else 0))

/-- A 32-bit value from its bits. -/
def fromBits (f : Nat → Bool) : W32 := BitVec.ofNat 32 ((List.range 32).foldl (fun n i => n + (if f i then 2 ^ i else 0)) 0)

/-- Logic, shifts, bit fields, counts, compares and predicates (R102 to R110). -/
def logicTable : Instr → Option Effect
  | .andB _ => each fun a b _ _ => plain (a &&& b)
  | .orB _ => each fun a b _ _ => plain (a ||| b)
  | .xorB _ => each fun a b _ _ => plain (a ^^^ b)
  | .andnB _ => each fun a b _ _ => plain (a &&& ~~~b)
  | .lop3 w => each fun a b c _ => plain (fromBits (lop3Bit w.m a b c))
  | .shl _ => each fun a b _ _ => plain (BitVec.ofNat 32 (a.toNat * 2 ^ min b.toNat 32))
  | .shr _ => each fun a b _ _ => plain (BitVec.ofNat 32 (a.toNat / 2 ^ min b.toNat 32))
  | .shra _ => each fun a b _ _ => plain (BitVec.ofInt 32 (a.toInt / 2 ^ min b.toNat 32))
  | .rot _ => each fun a b _ _ => plain (fromBits fun i => a.getLsbD ((i + 32 - b.toNat % 32) % 32))
  | .fshf w => each fun a b c _ =>
      let y : W64 := b ++ a
      plain (if modSub w.m = 1 then (y <<< (c.toNat % 64)).extractLsb' 32 32 else (y >>> (c.toNat % 64)).extractLsb' 0 32)
  | .bfx w => each fun a b c _ =>
      let pos := min (b.toNat % 256) 32
      let len := min (c.toNat % 256) 32
      let src (i : Nat) : Bool := if i < 32 then a.getLsbD i else modType w.m == 0 && a.getLsbD 31
      plain (fromBits fun i =>
        if i < len then src (pos + i) else decide (0 < len) && modType w.m == 0 && src (pos + len - 1))
  | .bfi _ => each fun a b c d =>
      let pos := min (b.toNat % 256) 32
      let len := min (c.toNat % 256) 32
      plain (fromBits fun i => if pos ≤ i ∧ i < pos + len then a.getLsbD (i - pos) else d.getLsbD i)
  | .popc _ => each fun a _ _ _ => plain (BitVec.ofNat 32 ((List.range 32).filter fun i => a.getLsbD i).length)
  | .clz _ => each fun a _ _ _ => plain (BitVec.ofNat 32 ((List.range 32).takeWhile fun i => !a.getLsbD (31 - i)).length)
  | .brev _ => each fun a _ _ _ => plain (fromBits fun i => a.getLsbD (31 - i))
  | .bperm _ => each fun a b c _ =>
      let y : W64 := b ++ a
      let byte (i : Nat) : BitVec 8 :=
        let v := y.extractLsb' (8 * (c.extractLsb' (4 * i) 3).toNat) 8
        if c.getLsbD (4 * i + 3) then (if v.getLsbD 7 then 255 else 0) else v
      plain ((byte 3 ++ byte 2 ++ byte 1 ++ byte 0 : BitVec 32))
  | .andBI w => each fun a _ _ _ => plain (a &&& w.imm)
  | .orBI w => each fun a _ _ _ => plain (a ||| w.imm)
  | .xorBI w => each fun a _ _ _ => plain (a ^^^ w.imm)
  | .shlI w => each fun a _ _ _ => plain (BitVec.ofNat 32 (a.toNat * 2 ^ min w.imm.toNat 32))
  | .shrI w => each fun a _ _ _ => plain (BitVec.ofNat 32 (a.toNat / 2 ^ min w.imm.toNat 32))
  | .shraI w => each fun a _ _ _ => plain (BitVec.ofInt 32 (a.toInt / 2 ^ min w.imm.toNat 32))
  | .icmp w => decides w.d.toNat fun x l =>
      if w.m.getLsbD 4 then condHolds (w.m.toNat % 16) (lane64 x .a l) (lane64 x .b l)
      else condHolds (w.m.toNat % 16) (lane x .a 0 l) (lane x .b 0 l)
  | .icmpi w => decides (w.d.toNat % 32) fun x l => condHolds (w.d.toNat / 32) (lane x .a 0 l) w.imm
  | .plop w => decides w.d.toNat fun x l =>
      let bit (f : W9) : Nat := if predBit (fibreOf x.b l).pw f.toNat then 1 else 0
      w.m.getLsbD (bit w.a + 2 * bit w.b + 4 * bit w.c)
  | .pmovr _ => gives fun x l => (fibreOf x.b l).pw
  | .pmovp _ => some fun x => some (x.s, { preds := (List.range 32).map fun i =>
      (i, fun l => if (lane x .b 0 l).getLsbD i then (lane x .a 0 l).getLsbD i else predBit (fibreOf x.b l).pw i) })
  | _ => none

/-- A scalar operand as the word's FTZ has it read (R126, R127). -/
def readF (w : FWord) (x : W32) : FVal := fRead (fmtOf (modFt w.m)) (modFtz w.m) (fSrc (modFt w.m) x)

/-- Element e of a packed operand (R137). -/
def readElem (w : FWord) (x : W32) (e : Nat) : FVal := fRead (fmtOf (modFt w.m)) (modFtz w.m) (x.toNat / 65536 ^ e % 65536)

/-- A packed result: each element rounded alone (R137). -/
def packed (w : FWord) (el : Nat → FVal × Nat) : W32 × Nat := coded (pack2 (fOut w (el 0)) (fOut w (el 1)))

/-- Floating-point words (R129 to R141, Table 05-4) and the immediate ones (Table 03-12). -/
def floatTable : Instr → Option Effect
  | .fadd w => each fun a b _ _ => coded (fOut w (fAdd (modRnd w.m) (readF w a) (readF w b)))
  | .fsub w => each fun a b _ _ => coded (fOut w (fAdd (modRnd w.m) (readF w a) (fNeg (readF w b))))
  | .fmul w => each fun a b _ _ => coded (fOut w (fMul (readF w a) (readF w b)))
  | .fma w => each fun a b c _ => coded (fOut w (fFma (modRnd w.m) (readF w a) (readF w b) (readF w c)))
  | .fmin w => each fun a b _ _ =>
      coded (fMinMax (fmtOf (modFt w.m)) (modFtz w.m) false (fSrc (modFt w.m) a) (fSrc (modFt w.m) b))
  | .fmax w => each fun a b _ _ =>
      coded (fMinMax (fmtOf (modFt w.m)) (modFtz w.m) true (fSrc (modFt w.m) a) (fSrc (modFt w.m) b))
  | .fcmp w => some fun x =>
      let t := w.m.toNat % 8
      let g (l : Nat) : Bool × Nat := fCompare (w.m.toNat / 8 % 16)
        (fRead (fmtOf t) (w.m.getLsbD 7) (fSrc t (lane x .a 0 l))) (fRead (fmtOf t) (w.m.getLsbD 7) (fSrc t (lane x .b 0 l)))
      some (x.s, { preds := [(w.d.toNat, fun l => (g l).1)], flags := joinFlags x.act fun l => (g l).2 })
  | .fclass w => each fun a _ _ _ => plain (BitVec.ofNat 32 (fClass (fmtOf (modFt w.m)) (fSrc (modFt w.m) a)))
  | .frnd w => each fun a _ _ _ => coded (fRndInt (fmtOf (modFt w.m)) (modRnd w.m) (readF w a))
  | .fscale w => each fun a b _ _ => coded (fOut w (fScale (readF w a) b.toInt))
  | .fcvt w => each fun a _ _ _ =>
      cvtDest (w.m.toNat % 16) (w.m.toNat / 256 % 4) (w.m.getLsbD 10) (cvtSource (w.m.toNat / 16 % 16) a)
  | .fpack2 w => each fun a b _ _ =>
      let src (v : W32) : FVal × Nat := (fRead fp32 (modFtz w.m) v.toNat, if isSnan (fRead fp32 (modFtz w.m) v.toNat) then flIV else 0)
      coded (pack2 (fOut w (src a)) (fOut w (src b)))
  | .funpk2 w => each fun a _ _ _ =>
      let v := readElem w a (modFSub w.m)
      coded (fFinish fp32 0 false false (v, if isSnan v then flIV else 0))
  | .fma2 w => each fun a b c _ => packed w fun e => fFma (modRnd w.m) (readElem w a e) (readElem w b e) (readElem w c e)
  | .fadd2 w => each fun a b _ _ => packed w fun e => fAdd (modRnd w.m) (readElem w a e) (readElem w b e)
  | .fmul2 w => each fun a b _ _ => packed w fun e => fMul (readElem w a e) (readElem w b e)
  | .fdot2 w => each fun a b c _ => coded (fFinish fp32 (modRnd w.m) (modFSat w.m) (modFtz w.m)
      (fDot (modRnd w.m) (readElem w a 0) (readElem w b 0) (readElem w a 1) (readElem w b 1) (fDecode fp32 c.toNat)))
  | .faddI w => each fun a _ _ _ => coded (f32Add a.toNat w.imm.toNat)
  | .fmulI w => each fun a _ _ _ => coded (f32Mul a.toNat w.imm.toNat)
  | .frcp w => each fun a _ _ _ => coded (sfuRcp (fmtOf (modFt w.m)) (modRnd w.m) (modFSat w.m) (modFtz w.m) (readF w a))
  | .frsq w => each fun a _ _ _ => coded (sfuRsq (fmtOf (modFt w.m)) (modFSat w.m) (modFtz w.m) (readF w a))
  | .fsqrt w => each fun a _ _ _ => coded (sfuSqrt (fmtOf (modFt w.m)) (modRnd w.m) (modFSat w.m) (modFtz w.m) (readF w a))
  | .fex2 w => each fun a _ _ _ => coded (sfuEx2 (fmtOf (modFt w.m)) (modFSat w.m) (modFtz w.m) a.toNat (readF w a))
  | .flg2 w => each fun a _ _ _ => coded (sfuLg2 (fmtOf (modFt w.m)) (modFSat w.m) (modFtz w.m) a.toNat (readF w a))
  | .fsin w => each fun a _ _ _ => coded (sfuSin (fmtOf (modFt w.m)) (modFSat w.m) (modFtz w.m) a.toNat (readF w a))
  | .fcos w => each fun a _ _ _ => coded (sfuCos (fmtOf (modFt w.m)) (modFSat w.m) (modFtz w.m) a.toNat (readF w a))
  | .ftanh w => each fun a _ _ _ => coded (sfuTanh (fmtOf (modFt w.m)) (modFSat w.m) (modFtz w.m) a.toNat (readF w a))
  | .fpxrd _ => gives fun x _ => (crewD x.s x.b.crew).fpStat
  | .fpxset _ => only fun x => modCrew x.s x.b.crew fun c => { c with fpStat := fpStatWrite c.fpStat (uniVal x .a 0) (uniVal x .b 0) }
  | _ => none

/-- An effect that only a pinned batch has (R142). -/
def pinned (g : Exec → State × Results) : Option Effect := some fun x => if x.b.pin.isSome then some (g x) else none

/-- One register result of a pinned batch. -/
def pinnedGives (g : Exec → Nat → W32) (fl : Exec → LaneFlags) : Option Effect :=
  pinned fun x => (x.s, { regs := [(nameOf x .d 0, g x)], flags := fl x })

/-- The flags of a combination over the active lanes (R146): no lane raises them alone. -/
def overLanes (x : Exec) (fl : Nat) : LaneFlags := [(x.act.headD 0, BitVec.ofNat 32 fl)]

/-- Lane words (R142 to R148). -/
def laneTable : Instr → Option Effect
  | .shfl w => some fun x =>
      let got (l : Nat) : W32 := match shflSource (w.m.toNat % 4) l (lane x .b 0 l) with
        | some k => if k ∈ liveLanes x.b then lane x .a 0 k else 0
        | none => lane x .a 0 l
      if x.b.pin.isSome ∧ (shflFault x (w.m.toNat % 4)).isNone then some (x.s, { regs := [(nameOf x .d 0, got)] }) else none
  | .vote w =>
      let yes (x : Exec) : List Nat := x.act.filter fun l => predBit (fibreOf x.b l).pw w.a.toNat
      match w.m.toNat % 4 with
      | 3 => pinnedGives (fun x _ => maskOf (yes x)) fun _ => []
      | 0 => pinned fun x => (x.s, { preds := [(w.d.toNat, fun _ => decide (yes x = x.act))] })
      | 1 => pinned fun x => (x.s, { preds := [(w.d.toNat, fun _ => decide (yes x ≠ []))] })
      | _ => pinned fun x => (x.s, { preds := [(w.d.toNat, fun _ => decide (yes x = x.act ∨ yes x = []))] })
  | .redl w =>
      let r (x : Exec) : Option W32 × Nat :=
        treeReduce w.m.toNat (lanes32.map fun l => if x.act.contains l then some (lane x .a 0 l) else none)
      pinnedGives (fun x _ => (r x).1.getD 0) fun x => overLanes x (r x).2
  | .scanl w =>
      let r (x : Exec) : List (Nat × W32) × Nat :=
        scanLanes (w.m.toNat % 16) (w.m.getLsbD 4) (x.act.map fun l => (l, lane x .a 0 l))
      pinnedGives (fun x l => kvGetD (r x).1 l 0) fun x => overLanes x (r x).2
  | .matchL _ => pinnedGives (fun x l => maskOf (x.act.filter fun j => lane x .a 0 j = lane x .a 0 l)) fun _ => []
  | _ => none

/-- Words that move only their batch (R121 to R124), and the pair word (R69, Table 03-13). -/
def batchTable : Instr → Option Effect
  | .nop _ => only fun x => x.s
  | .unpin _ => only fun x => modBatch x.s x.b.id fun b => { b with pin := none }
  | .yield _ => only fun x => modBatch x.s x.b.id fun b => { b with lastIssue := x.s.clock + 64 }
  | .sleep w => only fun x =>
      if w.imm = 0 then x.s else modBatch x.s x.b.id fun b => { b with wake := x.s.clock + w.imm.toNat }
  | .pair w => some fun x =>
      let slot (d a : Fld) (sl : Slot) (l : Nat) : W32 × Nat := pairLane sl.op sl.m (lane x d 0 l) (lane x a 0 l)
      let reg (d a : Fld) (sl : Slot) : List (Nat × (Nat → W32)) :=
        if sl.op = .nop then [] else [(nameOf x d 0, fun l => (slot d a sl l).1)]
      let fl (d a : Fld) (sl : Slot) : LaneFlags := if sl.op = .nop then [] else joinFlags x.act fun l => (slot d a sl l).2
      some (x.s, { regs := reg .d .a w.x ++ reg .b .c w.y, flags := fl .d .a w.x ++ fl .b .c w.y })
  | _ => none

end Sys2Proof.Machine
end

