-- ==== Sys2Proof/Safety/RulesMem.lean ====
section
/-! DEFINITION. What the rules say that a word of chapter 06 does when it comes to its own effect: memory words, barriers,
buffers, timelines, shapes, extended sets and accumulator counts. -/
namespace Sys2Proof.Machine
open Sys2Proof

/-- An effect under a condition; elsewhere the word takes a cause or waits. -/
def given (p : Bool) (r : State × Results) : Option (State × Results) := if p then some r else none

/-! ### Memory (R153 to R164) -/

/-- The places of a load's lanes, every check of R156, R343 and R382 having passed. -/
def loadPlaces (x : Exec) (bytes : Nat) (atHome exempt : Bool) (addr : Nat → Nat) : Option (State × List (Nat × Loc)) :=
  match checkAddrs x .load bytes atHome addr with
  | .ok s locs => match checkGen x s atHome addr locs with
    | .ok s locs => match checkRaces x s bytes exempt false addr locs with
      | .ok s locs => some (s, locs)
      | _ => none
    | _ => none
  | _ => none

/-- The places of a store's or an atomic's lanes, every check having passed. -/
def storePlaces (x : Exec) (u : Use) (bytes : Nat) (atHome exempt atomic : Bool) (addr : Nat → Nat) :
    Option (State × List (Nat × Loc)) :=
  match checkAddrs x u bytes atHome addr with
  | .ok s locs => match checkRaces x s bytes exempt atomic addr locs with
    | .ok s locs => some (s, locs)
    | _ => none
  | _ => none

/-- The registers of a load: each lane's bytes, extended as its size says (R155); one lane's for all where the access is
uniform. -/
def loaded (x : Exec) (c : Nat) (uni : Bool) (vals : List (Nat × List Byte)) : Results :=
  { regs := (List.range (sizeNames c)).map fun j =>
      (nameOf x .d j, fun l => (loadWords c (kvGetD vals (if uni then x.act.headD 0 else l) [])).getD j 0) }

/-- The accesses of a load's word that may still be performed later (R318) stand in its batch, by place and by the lanes that it
serves: all of them where the access is uniform. -/
def deferred (x : Exec) (s : State) (c n : Nat) (uni : Bool) (locs : List (Nat × Loc)) : State :=
  deferLoads s x.b (locs.flatMap fun p => loadSrcs x.b (if uni then x.act else [p.1]) c n 0 p.2)

/-- The stores of a word, each with its lanes, its bytes and its place. The fibres' earlier loads of those bytes come first (R157).
The batch holds them all, to be performed later (R318; log 34), or they are performed in turn, after the fibres' held stores to those
bytes and after the activations that an earlier MMQ reads (R209). -/
def storeAll (x : Exec) (colour : Nat) (ps : List (List Nat × List Byte × Loc)) (s : State) : State :=
  let before (f : State → Batch → Nat → Nat → Loc → State) (s : State) : State :=
    ps.foldl (fun s p => p.1.foldl (fun s l => f s x.b l p.2.1.length p.2.2) s) s
  let s := if x.b.loads.isEmpty then s else before settleLoads s
  if x.b.late && (ps.map (·.2.2)).all holdable then
    modBatch s x.b.id fun c => { c with stores := c.stores ++ ps.flatMap fun p => storeSrcs s.clock p.1 colour p.2.1 p.2.2 }
  else
    let s := if x.b.stores.isEmpty then s else before settleStores (settleReads s x.b.id fun _ => true)
    ps.foldl (fun s p => storeLoc s x.b p.2.1 colour p.2.2) s

/-- One lane's read-modify-write after another (R163): the old values in increasing lane order. -/
def atomAll (x : Exec) (n scope ord op : Nat) (val : Fld → Nat → Nat) (s : State) (locs : List (Nat × Loc)) :
    State × List (Nat × List Byte) :=
  locs.foldl (fun st p =>
    let r := atomLane st.1 x.b n scope ord (fun old => atomNew op n old (val .b p.1) (if op = 9 then val .c p.1 else 0)) p.2
    (r.1, kvSet st.2 p.1 (leBytes n r.2))) (s, [])

/-- ATOM and RED. -/
def atomTable (w : FWord) (result : Bool) : Option Effect := some fun x =>
  let n := if w.m.getLsbD 0 then 8 else 4
  let op := w.m.toNat / 2 % 16
  let scope := w.m.toNat / 32 % 4
  let ord := w.m.toNat / 128 % 4
  let val (f : Fld) (l : Nat) : Nat := if w.m.getLsbD 0 then (lane64 x f l).toNat else (lane x f 0 l).toNat
  (storePlaces x .atomic n (decide (1 ≤ scope)) (ord != 0) true fun l => (lane64 x .a l).toNat).map fun p =>
    let r := atomAll x n scope ord op val p.1 p.2
    (if ord = 1 ∨ ord = 3 then acquire r.1 x.b scope else r.1,
      if result then loaded x (if w.m.getLsbD 0 then 1 else 0) false r.2 else {})

def memTable : Instr → Option Effect
  | .ld w => some fun x =>
      let n := sizeBytes (modSize w.m)
      (loadPlaces x n false false (ldAddr x w n)).map fun p =>
        let uni := modScope w.m != 1 && uniField x .a 2 && (modScope w.m == 0 || uniField x .b 1) && allMemory p.2
        let locs := if uni then p.2.take 1 else p.2
        let r := loadAll (orderStores p.1 x.b n p.2) (fun s l => loadLoc s x.b n l) locs
        (deferred x r.1 (modSize w.m) n uni locs, loaded x (modSize w.m) uni r.2)
  | .st w => some fun x =>
      let n := sizeBytes (modSize w.m)
      (storePlaces x .store n false false false (ldAddr x w n)).map fun p =>
        (storeAll x (modColour w.m) (p.2.map fun q => ([q.1], storeBytes x (modSize w.m) q.1, q.2)) p.1, {})
  | .ldl w => some fun x =>
      let n := min 4 (sizeBytes (modSize w.m))
      match flPlaces x w .load with
      | .ok s words =>
        let r := flRead (orderStores s x.b n words) x.b n words
        let srcs := (flIndexed words).flatMap fun p => loadSrcs x.b [p.1] (if sizeBytes (modSize w.m) < 4 then modSize w.m else 0) n p.2.1 p.2.2
        some (deferLoads r.1 x.b srcs, loaded x (modSize w.m) false r.2)
      | _ => none
  | .stl w => some fun x =>
      match flPlaces x w .store with
      | .ok s words =>
        let ps := (flIndexed words).map fun p => ([p.1], ((storeBytes x (modSize w.m) p.1).drop (4 * p.2.1)).take 4, p.2.2)
        some (storeAll x (modColour w.m) ps s, {})
      | _ => none
  | .ldsp w => some fun x => match spPlaces x w .load with
      | .error _ => none
      | .ok locs =>
        let n := sizeBytes (modSize w.m)
        let r := loadAll (orderStores x.s x.b n locs) (fun s l => loadLoc s x.b n l) locs
        some (deferred x r.1 (modSize w.m) n false locs, loaded x (modSize w.m) false r.2)
  | .stsp w => some fun x => match spPlaces x w .store with
      | .error _ => none
      | .ok locs => some (storeAll x (modColour w.m)
          (locs.map fun p => ([p.1], storeBytes x (modSize w.m) p.1, p.2)) x.s, {})
  | .lda w => some fun x =>
      let n := sizeBytes (modSize w.m)
      let scope := modScope w.m
      (loadPlaces x n (decide (1 ≤ scope)) true fun l => (lane64 x .a l + BitVec.ofInt 64 (imm18 w)).toNat).map fun p =>
        let uni := uniField x .a 2 && allMemory p.2
        let r := loadAll (orderStores (orderLoads p.1 x.b n p.2) x.b n p.2) (fun s l => acquireLoad s x.b n scope l) (if uni then p.2.take 1 else p.2)
        (acquire r.1 x.b scope, loaded x (modSize w.m) uni r.2)
  | .strel w => some fun x =>
      let scope := modScope w.m
      (storePlaces x .store (sizeBytes (modSize w.m)) (decide (1 ≤ scope)) true false fun l => (lane64 x .a l).toNat).map fun p =>
        (p.2.foldl (fun s q =>
          releaseStore s x.b (storeBytes x (modSize w.m) q.1) scope w.c.toNat (modColour w.m) q.2) p.1, {})
  | .atom w => atomTable w true
  | .red w => atomTable w false
  | .fence w => some fun x =>
      let ord := modOrder w.m
      let s := if 2 ≤ ord then drainCore (bumpEpoch x.s x.b.crew) x.b.core (modScope w.m) w.c.toNat else x.s
      given (fpxCheck x).isNone (if ord = 2 then s else acquire s x.b (modScope w.m), {})
  | .pref w => only fun x =>
      if (resolveFault x.s x.b x.sp).isSome then x.s
      else x.act.foldl (fun s l => prefLane x (modScope w.m == 2) s (lane64 x .a l + BitVec.ofInt 64 (imm18 w)).toNat) x.s
  | _ => none

/-! ### Barriers and buffers (R167 to R178) -/

/-- Barrier i of a crew changes: where its phase moves or its FAULT is set, the batches blocked on it are woken with what it holds
then (R169, R171). -/
def barrierNow (s : State) (crew i : Nat) (f : Barrier → Barrier) : State :=
  wakeWaiters (modCrew s crew fun c => { c with barriers := listMod c.barriers i f })

/-- A change of a barrier of the crew from the state that `from'` gives, and the word's results; none where a cause stands. -/
def onBarrier (x : Exec) (i : Nat) (from' : Barrier → State) (g : Barrier → Option ((Barrier → Barrier) × Results)) :
    Option (State × Results) :=
  match (crewD x.s x.b.crew).barriers[i]? with
  | none => none
  | some b => (g b).map fun r => (barrierNow (from' b) x.b.crew i r.1, r.2)

/-- The fibres of the word that have not arrived in the phase yet (R170). -/
def newcomers (x : Exec) (b : Barrier) : List Nat := (x.act.map fun l => 32 * x.b.row + l).filter fun f => !b.arrived.contains f

/-- The barrier once those fibres have arrived; its phase completes where ARR = EXP and PEND = 0 (R169). -/
def arrivedBarrier (x : Exec) (b : Barrier) : Barrier :=
  barSettle { b with arr := b.arr + (newcomers x b).length, arrived := b.arrived ++ newcomers x b }

/-- Each arriving fibre releases at CORE scope (Table 12-2, R341). -/
def arrivalReleases (x : Exec) (b : Barrier) : State :=
  (newcomers x b).foldl (fun s _ => bumpEpoch s x.b.crew) x.s

/-- U results in consecutive names of d. -/
def scalars (x : Exec) (ws : List W32) : Results := { regs := ws.zipIdx.map fun p => (nameOf x .d p.2, fun _ => p.1) }

/-- The same as one effect on a buffer of the crew. -/
def onBuffer (x : Exec) (i : Nat) (from' : State) (g : CBuf → Option ((CBuf → CBuf) × Results)) : Option (State × Results) :=
  match (crewD x.s x.b.crew).cbs[i]? with
  | none => none
  | some b => (g b).map fun r => (modCrew from' x.b.crew fun c => { c with cbs := listMod c.cbs i r.1 }, r.2)

def syncTable : Instr → Option Effect
  | .barinit w => some fun x =>
      let v := (uniVal x .b 0).toNat
      onBarrier x w.a.toNat (fun _ => x.s) fun b =>
        if 1 ≤ v ∧ v < 4096 ∧ (b.exp = 0 ∨ b.fault ∨ (b.arr = 0 ∧ b.pend = 0)) ∧ !barWaited x.s x.b.crew w.a.toNat ∧
            !barBound x.s x.b.crew w.a.toNat
        then some (fun _ => { exp := v }, {}) else none
  | .bararr w => some fun x => match fpxCheck x with
      | some _ => none
      | none => onBarrier x w.a.toNat (arrivalReleases x) fun b =>
          if b.exp ≠ 0 ∧ b.arr + (newcomers x b).length ≤ b.exp then some (fun _ => arrivedBarrier x b, scalars x [b.phase]) else none
  | .barwait w => some fun x => match fpxCheck x with
      | some _ => none
      | none => match (crewD x.s x.b.crew).barriers[w.a.toNat]? with
        | none => none
        | some b =>
          -- a batch that has been woken sees the barrier as it stood then
          let seen := (wokenBy x w.a.toNat).getD b
          given (b.exp != 0 && seen.phase != uniVal x .b 0) (acquire x.s x.b 0, {})
  | .barsync w => some fun x => match fpxCheck x with
      | some _ => none
      | none => match (crewD x.s x.b.crew).barriers[w.a.toNat]? with
        | none => none
        | some b =>
          if b.exp = 0 then none
          else if let some q := wokenBy x w.a.toNat then given (q.phase != uniVal x .b 0) (acquire x.s x.b 0, {})
          else if b.phase ≠ uniVal x .b 0 then some (acquire x.s x.b 0, {})
          else if b.arr + (newcomers x b).length ≤ b.exp ∧ (arrivedBarrier x b).phase ≠ uniVal x .b 0 then
            some (acquire (barrierNow (arrivalReleases x b) x.b.crew w.a.toNat fun _ => arrivedBarrier x b) x.b 0, {})
          else none
  | .barexp w => some fun x =>
      let n := (uni64 x .b).toNat
      onBarrier x w.a.toNat (fun _ => x.s) fun b =>
        let p := b.pend + n
        if b.exp ≠ 0 ∧ n < 2 ^ 47 ∧ p ≤ 2 ^ 47 - 1 ∧ -(2 ^ 47 - 1) ≤ p then some (fun b => barSettle { b with pend := p }, {}) else none
  | .barq w => some fun x => match (crewD x.s x.b.crew).barriers[w.a.toNat]? with
      | none => none
      | some b => some (x.s, scalars x (barWords b))
  | .cbinit w => some fun x =>
      let off := (uniVal x .b 0).toNat
      let cfg := (uniVal x .c 0).toNat
      let depth := cfg % 256 + 1
      let slot := cfg / 256 % 4096
      let bar := cfg / 2 ^ 20 % 16
      let c := crewD x.s x.b.crew
      onBuffer x w.a.toNat x.s fun cb =>
        if off % 16 = 0 ∧ cfg < 2 ^ 25 ∧ slot ≠ 0 ∧ off + 16 * slot * depth ≤ c.scratchBytes ∧
            (cfg.testBit 24 → bar < c.barriers.length) ∧ (cb.init → cb.free = cb.depth)
        then some (fun cb => {
          base := off, depth := depth, slot := slot, bar := bar, bind := if cfg.testBit 24 then some bar else none
          free := depth, init := true, flue := cb.flue }, {})
        else none
  | .cbacq w => some fun x =>
      let n := (uniVal x .b 0).toNat
      onBuffer x w.a.toNat (acquire x.s x.b 0) fun cb =>
        let at' (i : Nat) : Results := scalars x [BitVec.ofNat 32 (cb.base + 16 * cb.slot * i)]
        if !cb.init ∨ n = 0 ∨ cb.depth < n then none
        else if w.m.getLsbD 0 then
          if cb.flue.isNone ∧ n ≤ cb.free then
            some (fun cb => { cb with free := cb.free - n, ph := cb.ph + n, pidx := (cb.pidx + n) % cb.depth }, at' cb.pidx)
          else none
        else if n ≤ cb.filled then
          some (fun cb => { cb with filled := cb.filled - n, rh := cb.rh + n, ridx := (cb.ridx + n) % cb.depth }, at' cb.ridx)
        else none
  | .cbrel w => some fun x =>
      let n := (uniVal x .b 0).toNat
      onBuffer x w.a.toNat (bumpEpoch x.s x.b.crew) fun cb =>
        if cb.init ∧ n ≠ 0 ∧ n ≤ cb.depth ∧ n ≤ cb.rh then some (fun cb => { cb with rh := cb.rh - n, free := cb.free + n }, {}) else none
  | .cbput w => some fun x =>
      let n := (uniVal x .b 0).toNat
      onBuffer x w.a.toNat (bumpEpoch x.s x.b.crew) fun cb =>
        if cb.init ∧ n ≠ 0 ∧ n ≤ cb.depth ∧ n ≤ cb.ph ∧ cb.flue.isNone then
          some (fun cb => { cb with ph := cb.ph - n, filled := cb.filled + n }, {})
        else none
  | .cbq w => some fun x => match (crewD x.s x.b.crew).cbs[w.a.toNat]? with
      | none => none
      | some c => some (x.s, scalars x (cbWords c))
  | _ => none

/-! ### Timelines, shapes, extended sets, accumulator counts (R179 to R184) -/

def miscTable : Instr → Option Effect
  | .tlwait w => some fun x => match boundTimeline x.s x.b w.a.toNat with
      | none => none
      | some (_, t) => given (!isFill x && decide ((uni64 x .b).toNat ≤ t.count)) (acquire x.s x.b t.scope, {})
  | .tlq w => some fun x => match boundTimeline x.s x.b w.a.toNat with
      | none => none
      | some (_, t) => some (x.s, scalars x [BitVec.ofNat 32 t.count, BitVec.ofNat 32 (t.count / 2 ^ 32)])
  | .shape _ => some fun x => some (x.s, scalars x [BitVec.ofNat 32 (shapeCode (rawReg x.s x.b (nameOf x .a 0)))])
  | .shapeg _ => only fun x => modBatch x.s x.b.id fun b => { b with retbuf := b.retbuf ++ [.toGeneral (nameOf x .d 0)] }
  | .xacq _ => some fun x => match findXSet x.s x.b.core (x.b.slot / 2) with
      | none => none
      | some t => given (!isFill x && t.holder.isNone && (t.waiters.headD x.b.id == x.b.id)) (grantSet (queueSet x.s x.b) x.b, {})
  | .xrel _ => some fun x => given ((findXSet x.s x.b.core (x.b.slot / 2)).any fun t => t.holder == some x.b.slot)
      (releaseSet x.s x.b, {})
  | .accgrow w => some fun x =>
      let n := (uniVal x .a 0).toNat
      let c := crewD x.s x.b.crew
      let k := coreD x.s x.b.core
      if n = 0 ∨ 62 < c.tiles.length + n then none
      else if coreTiles x.s x.b.core + n ≤ 62 ∧ c.fill.isNone ∧ (k.array = none ∨ k.array = some c.cluster) then
        some (modCore (modCrew x.s x.b.crew fun c => { c with tiles := c.tiles ++ List.replicate n {} }) x.b.core fun k =>
          { k with array := some c.cluster }, { preds := [(w.d.toNat, fun _ => true)] })
      else some (x.s, { preds := [(w.d.toNat, fun _ => false)] })
  | .accfree _ => some fun x =>
      let n := (uniVal x .a 0).toNat
      let t := (crewD x.s x.b.crew).tiles.length
      let s := clearUpsets x.s fun u => match u with
        | .acc c i _ _ => c == x.b.crew && decide (t - n ≤ i)
        | _ => false
      given (n != 0 && decide (n ≤ t)) (modCrew s x.b.crew fun c => { c with tiles := c.tiles.take (t - n) }, {})
  | _ => none

end Sys2Proof.Machine
end

