-- ==== Sys2Proof/Safety/RulesSys.lean ====
section
/-! DEFINITION. What the rules say that a word of chapters 07 and 08 does when it comes to its own effect: the matrix
array, events, timelines, system values and registers, and the words of the Flue, the Splitter, Hearth and rays. -/
namespace Sys2Proof.Machine
open Sys2Proof

/-! ### The matrix array (chapter 07) -/

/-- The array is the crew's to use: it has tiles, or it is a fill that has borrowed the array; a word that names planes
finds no array lent to a fill (R188, R390). -/
def arrayOpen (x : Exec) (planes : Bool) : Bool := (matGate x planes).isNone

/-- The same, and no exchange is under way (R202). -/
def planesOpen (x : Exec) : Bool := arrayOpen x true && !(coreD x.s x.b.core).swap

/-- Plane p is READY and reads without an error (R190, R201). -/
def planeReady (x : Exec) (p : Nat) : Bool :=
  (planeOf (coreD x.s x.b.core) p).state == 2 && !x.s.upsets.contains (.plane x.b.core p)

/-- A quarter of an MMQ (R205): its tile, its activations and its plane, issued into the open pass. `late` numbers the reads of
activations that are still to be performed, in the order of the batch's held stores (R209, R318); else they are read now. -/
def issueQuarter (x : Exec) (w : FWord) (late : Option Nat) (s : State) (q : Nat × Nat × Nat) : State :=
  let p := planeOf (coreD x.s x.b.core) w.a.toNat
  let t := w.d.toNat + q.2.1
  let ps := quarterPlaces (slwOf x) p q.2.2
  modCore (beginWrite s x.b t fun _ => w.m.getLsbD 0) x.b.core fun k => { k with
    passes := joinPass s.clock w.a.toNat {
      batch := x.b.id, crew := x.b.crew, tile := t, zero := w.m.getLsbD 0, fmt := (slwOf x).fmt
      rows := if late.isSome then [] else readPlaces s x.b.crew (slwOf x).fmt ps, weights := p
      reads := late, places := if late.isSome then ps else [] } k.passes }

/-- The rows of a drained tile in the word's format (R215). -/
def drained (x : Exec) (w : FWord) (q : Tile) : Option (List (List Byte) × Nat × Bool) :=
  let f := w.m.toNat % 4
  ((if f = 3 then bandScale (uniVal x .c 0) else some 1)).map fun n => drainRows f n (tileView x.b q)

/-- The tile and the drain counts after a DRAIN (R214, R215, R218). -/
def drainedTile (x : Exec) (w : FWord) (s : State) (n : Nat) (miss : Bool) : State :=
  let t := w.a.toNat
  countDrain (if w.m.getLsbD 3 then
    modTile (beginWrite s x.b t fun _ => true) x.b.crew t fun q => { q with pend := [] } else s)
    x.b.crew n miss

def matrixTable : Instr → Option Effect
  | .wload _ => some fun x =>
      let va := (uni64 x .a).toNat
      match wIssue x true va 128 va with
      | .error _ => none
      | .ok s => given (planesOpen x && (coreD s x.b.core).planeS.state != 1 && (loaderWait s x.b).isNone)
          (modCore (freshPlane (orderLoader s x.b) x.b.core 1) x.b.core fun k => { k with
            load := some {
              target := 1, loader := some (x.b.crew, x.b.row), ctx := x.b.ctx, depth := accessDepth (orderLoader s x.b) x.b.crew
              cls := crewClass (orderLoader s x.b) x.b.crew, recVA := va }
            planeS := { k.planeS with state := 1, recVA := va, ctx := x.b.ctx, held := none } }, {})
  | .wswap _ => some fun x => given (planesOpen x && planeReady x 1)
      (modCore x.s x.b.core fun k => { k with swap := true, passes := k.passes.map fun p => { p with closed := true } }, {})
  | .wtab _ => some fun x =>
      let va := (uni64 x .a).toNat
      match wIssue x false va 8 (va / 32 * 32) with
      | .error _ => none
      | .ok s => match (coreD s x.b.core).load with
        | none => none
        | some l =>
          let ok : Bool := match loadHeader l with
            | none => true
            | some h => decide (4 ≤ h.fmt) && decide (l.tables.length < h.ncols) && va % wtrTable h.fmt == 0
          let r := match engineRead s (loadAgent s x.b.core l) (va / 32 * 32) 32 with
            | .ok s bs => (s, some bs)
            | .bad s _ _ _ => (s, none)
            | .wait s _ => (s, none)
          given (arrayOpen x true && isLoader x.b l && ok)
            (modCore r.1 x.b.core fun k => { k with load := k.load.map fun l => { l with tables := l.tables ++ [⟨va, r.2, false, 0⟩] } }, {})
  | .wwait w => some fun x => given (arrayOpen x true && planeReady x w.a.toNat) (x.s, {})
  | .mmq w => some fun x =>
      let p := planeOf (coreD x.s x.b.core) w.a.toNat
      let qs := quarterWords x
      given (planesOpen x && (slwFault x (slwOf x)).isNone && !(qs.any fun q => quarterOut x (slwOf x) p q.2.2) &&
          (qs.all fun q => tileWritable x.s x.b (w.d.toNat + q.2.1)) && planeReady x w.a.toNat &&
          decide (((coreD x.s x.b.core).passes.map fun p => p.quarters.length).sum + qs.length ≤ 32) &&
          (mmqBad x w (slwOf x) p qs).isNone)
        (qs.foldl (issueQuarter x w (orderReads x).2) (orderReads x).1, {})
  | .accz w => some fun x =>
      let t := w.d.toNat
      given (arrayOpen x false && tileWritable x.s x.b t && !tileBusy x.s x.b t)
        (modTile (beginWrite x.s x.b t fun _ => true) x.b.crew t fun q => { q with pend := [] }, {})
  | .accrd w => some fun x =>
      let t := w.a.toNat
      let c := (uniVal x .b 0).toNat
      match (crewD x.s x.b.crew).tiles[t]? with
      | none => none
      | some q => given (arrayOpen x false && decide (c ≤ 15) && !tileBusy x.s x.b t &&
            !accBad x t fun p => x.act.any fun l => p == (32 * c + l) / 2)
          (x.s, { regs := [(nameOf x .d 0, fun l => kvGetD (tileView x.b q) (32 * c + l) 0)] })
  | .accwr w => some fun x =>
      let t := w.d.toNat
      let c := (uniVal x .b 0).toNat
      let whole (p : Nat) : Bool := (List.range 2).all fun i => x.act.any fun l => 32 * c + l == 2 * p + i
      given (arrayOpen x false && decide (c ≤ 15) && tileWritable x.s x.b t && !tileBusy x.s x.b t)
        (modTile (beginWrite x.s x.b t whole) x.b.crew t fun q =>
          { q with pend := x.act.foldl (fun m l => kvPut 0 m (32 * c + l) (lane x .a 0 l)) q.pend }, {})
  | .drain w => some fun x =>
      let f := w.m.toNat % 4
      let t := w.a.toNat
      match (crewD x.s x.b.crew).tiles[t]? with
      | none => none
      | some q => match drained x w q with
        | none => none
        | some (img, cnt, miss) =>
          let free := arrayOpen x false && (!w.m.getLsbD 3 || tileWritable x.s x.b t) && !accBad x t fun _ => true
          if w.m.getLsbD 2 then
            let ps := drainPieces f (uni64 x .b).toNat (uniVal x .b 2).toNat
            match drainCheck x ps with
            | .ok s locs => given (free && (uni64 x .b).toNat % 16 == 0 && (uniVal x .b 2).toNat % 16 == 0 && !tileBusy s x.b t)
                (drainedTile x w (storeAll x (w.m.toNat / 16 % 8) (locs.map fun p =>
                  let d := ps.getD p.1 (0, 0, 0)
                  (liveLanes x.b, ((img.getD d.2.1 []).drop d.2.2).take 8, p.2)) s) cnt miss, {})
            | _ => none
          else
            let places := (List.range 8).flatMap fun r => (drainPlaces f (slwOf x) r).map fun p => (r, p)
            let ranges := places.map fun p => (p.2.2.1, p.2.2.2.2)
            let s := coverScratch x.s x.b.crew ranges
            -- stores that together end an error are performed with the word
            let y := { x with b := { x.b with late := x.b.late && s.upsets.length == x.s.upsets.length } }
            given (free && (slwFault x (slwOf x)).isNone && !tileBusy x.s x.b t && !partScratch x.s x.b.crew ranges &&
                places.all fun p => decide (p.2.1 + p.2.2.2.2 ≤ (crewD x.s x.b.crew).scratchBytes))
              (drainedTile x w (storeAll y 0 (places.map fun p =>
                (liveLanes y.b, ((img.getD p.1 []).drop p.2.2.2.1).take p.2.2.2.2, .scratch x.b.crew p.2.2.1)) s) cnt miss, {})
  | .drainst _ => some fun x =>
      let old := (crewD x.s x.b.crew).drainStat
      let a := uniVal x .a 0
      let clr : W32 := (if a.getLsbD 0 then 0xFFFF else 0) ||| (if a.getLsbD 16 then 0x10000 else 0)
      some (modCrew x.s x.b.crew fun c => { c with drainStat := old &&& ~~~clr }, scalars x [old])
  | .wstat w => some fun x => given (arrayOpen x false)
      (x.s, scalars x (planeWords x.s (coreD x.s x.b.core) (planeOf (coreD x.s x.b.core) w.a.toNat)))
  | .wbmap _ => some fun x => some (x.s, scalars x [wbmapWord x.s (uniVal x .a 0).toNat])
  | _ => none

/-! ### Events, triggers, timelines (R232 to R238) and the submissions of chapters 11 and 18 -/

/-- EVSIG of an event of the context (R233, R342): a release at DEVICE, the event's stamp, then the count. -/
def signalled (x : Exec) (n add : Nat) : Option (State × Results) :=
  (eventIdx x.s x.b.ctx n).map fun i =>
    (signalEvent (stampEvent (releaseAll x.s x.b 2) (crewD (releaseAll x.s x.b 2) x.b.crew) i) i add, {})

/-- EVWAIT that returns (R234, R235): the count has reached the threshold, or the batch has been woken. -/
def waited (x : Exec) (n thr : Nat) : Option (State × Results) :=
  match eventIdx x.s x.b.ctx n with
  | none => none
  | some i =>
    if isFill x then none
    else match x.b.block with
      | some (.event _ true) => some (acquire x.s x.b 2, {})
      | some (.event _ false) => none
      | _ => given (decide (thr ≤ eventCount x.s i))
          (acquire (acquireStamp x.s x.b.crew 2 false (kvGet x.s.evStamps i)) x.b 2, {})

/-- A submission: its predicate says whether the queue took it. -/
def submitted (w : FWord) (s : State) (o : Option State) : State × Results :=
  match o with
  | some t => (t, { preds := [(w.d.toNat, fun _ => true)] })
  | none => (s, { preds := [(w.d.toNat, fun _ => false)] })

def eventTable : Instr → Option Effect
  | .evsig _ => some fun x => signalled x (uniVal x .a 0).toNat (uniVal x .b 0).toNat
  | .evsigI w => some fun x => signalled x (w.imm.toNat % 65536) 1
  | .evsigClr _ => some fun x =>
      (eventIdx x.s x.b.ctx (uniVal x .a 0).toNat).map fun i => (clearEvent (releaseAll x.s x.b 2) i, {})
  | .evwait _ => some fun x => waited x (uniVal x .a 0).toNat (uniVal x .b 0).toNat
  | .evwaitI w => some fun x => waited x (w.imm.toNat % 65536) 1
  | .evq _ => some fun x => (eventIdx x.s x.b.ctx (uniVal x .a 0).toNat).map fun i => (x.s, scalars x [kvGetD x.s.events i 0])
  | .spawn w => some fun x =>
      let v := uni64 x .a
      let s := releaseAll x.s x.b 2
      given (!isFill x && bitsOf v 16 6 == x.b.ctx)
        (submitted w s (pushTrigger s v w.m.toNat (fibreOf x.b (x.act.headD 0)).wid))
  | .tladv w => some fun x => match boundTimeline x.s x.b w.a.toNat with
      | none => none
      | some (id, t) => given (t.kind == 1 && decide (t.count + (uni64 x .b).toNat < 2 ^ 64))
          (addTimeline (releaseAll x.s x.b t.scope) x.b.ctx id (uni64 x .b).toNat, {})
  | .fluesub w => some fun x => match boundFlue x.s x.b w.a.toNat with
      | none => none
      | some (k, _) =>
        let va := (uni64 x .b).toNat
        let n := (uniVal x .c 0).toNat
        let s := releaseAll x.s x.b 2
        let c := crewD s x.b.crew
        given (!isFill x && n != 0 && decide (n ≤ 65535) && va % 32 == 0 && decide (va < 2 ^ 54))
          (submitted w s (queueList s k (kvGetD s.flues k default)
            { va := va, count := n, crew := some (c.uid, c.cluster, ((findCluster s c.cluster).map (·.ranks)).getD []), node := none
              bars := c.barriers.length }))
  | .fluesubRst w => some fun x => match boundFlue x.s x.b w.a.toNat with
      | none => none
      | some (k, _) => given (!isFill x) (resetFlue x.s k, { preds := [(w.d.toNat, fun _ => true)] })
  | .cutsel w => some fun x => match boundSplit x.s x.b w.a.toNat with
      | none => none
      | some k =>
        let va := (uni64 x .b).toNat
        let s := releaseAll x.s x.b 2
        given (!isFill x && va % 128 == 0 && decide (va < 2 ^ 54)) (submitted w s (queueJob s k { va := va, node := none }))
  | .cutselRst w => some fun x => match boundSplit x.s x.b w.a.toNat with
      | none => none
      | some k => given (!isFill x) (modSplit x.s k fun f => { ctx := f.ctx, tl := f.tl, engine := f.engine },
          { preds := [(w.d.toNat, fun _ => true)] })
  | _ => none

/-! ### Fill words and rays (R394 to R398, chapter 18) -/

/-- The query of every active lane in increasing order; none where one of them takes a cause or waits. -/
def rayAll (f : State → Nat → RayAns (List W32)) : List Nat → State × List (Nat × List W32) → Option (State × List (Nat × List W32))
  | [], p => some p
  | l :: ls, p => match f p.1 l with
    | .ok s v => rayAll f ls (s, kvSet p.2 l v)
    | _ => none

/-- The words of a ray query's record, per lane. -/
def rayResults (x : Exec) (n : Nat) (vals : List (Nat × List W32)) : Results :=
  { regs := (List.range n).map fun j => (nameOf x .d j, fun l => (kvGetD vals l []).getD j 0) }

/-- RAYQ in a lane (R418 to R424). -/
def rayqLane (x : Exec) (w : FWord) (s : State) (l : Nat) : RayAns (List W32) :=
  let g (j : Nat) : Nat := (lane x .a j l).toNat
  if rayInvalid [g 0, g 1, g 2] [g 4, g 5, g 6] (g 3) (g 7) then .ok s (rayMiss 3)
  else
    let r : Ray := { o := [g 0, g 1, g 2], d := [g 4, g 5, g 6], tmin := g 3, cull := w.m.getLsbD 0, any := w.m.getLsbD 1 }
    (rayWalk x l r (2 ^ 48) s [(false, (uni64 x .b).toNat)] none (g 7)).andThen fun s b =>
      .ok s (match b with
        | some b => rayResult b
        | none => rayMiss 0)

/-- RAYRD in a lane (R425). -/
def rayrdLane (x : Exec) (s : State) (l : Nat) : RayAns (List W32) :=
  let sel := (lane x .b 0 l).toNat
  let none' : List W32 := [0x7FC00000, 0x7FC00000, 0x7FC00000, 0xFFFFFFFF]
  (readHead x s l (lane64 x .a l).toNat).andThen fun s h =>
    if sel / 8 % 4 = 3 ∨ 32 ≤ sel ∨ numAt h 21 1 ≤ sel % 8 then .ok s none'
    else
      (readLeaf x s l (lane64 x .a l).toNat).andThen fun s b =>
        let v := numAt b (40 + 3 * (sel % 8) + sel / 8 % 4) 1
        .ok s ((leafVertex b v).map (BitVec.ofNat 32) ++ [BitVec.ofNat 32 v])

/-- GENINV (R398): a release at DEVICE, the generator's stamp, and its generation moves on. -/
def invalidated (x : Exec) (g : Nat) : State :=
  let s := releaseAll x.s x.b 2
  let c := crewD s x.b.crew
  let p := releasePairs c
  let q := match kvGet s.genStamps g with
    | some t => let r := mergePairs t.pairs p.1; (r.1, r.2 || t.ovf || p.2)
    | none => p
  advanceGen { s with genStamps := kvSet s.genStamps g ⟨0, q.1, q.2, true, 2, c.core, c.core / 8, []⟩ } g

def unitTable : Instr → Option Effect
  | .fillarg _ => some fun x => (myFill x).map fun r => (x.s, scalars x [
      BitVec.ofNat 32 (r.idx / r.bytes * r.bytes),
      BitVec.ofNat 32 (r.idx / r.bytes * r.bytes / 2 ^ 32 % 64 + 64 * r.gen + 2 ^ 18 * unitCode r + 2 ^ 21 * r.depth),
      BitVec.ofNat 32 r.unit,
      BitVec.ofNat 32 (r.unit / 2 ^ 32)])
  | .fillput w => some fun x => match myFill x with
      | none => none
      | some r =>
        let o := (uniVal x .b 0).toNat
        let at' := (uniVal x .a 0).toNat
        let sp := w.m.getLsbD 0
        let line := if sp then scratchRead x.s x.b.crew at' 128
          else lanes32.flatMap fun l => leBytes 4 (if x.act.contains l then (lane x .a 0 l).toNat else 0)
        given ((!sp || (at' % 16 == 0 && decide (at' + 128 ≤ (crewD x.s x.b.crew).scratchBytes))) &&
            o % 128 == 0 && decide (o < r.bytes) && !(sp && scratchBad x.s .load x.b.crew at' 128))
          (modFill x.s r.id fun f => { f with put := kvSet f.put (o / 128) line }, {})
  | .geninv _ => some fun x =>
      let g := (uniVal x .a 0).toNat
      given (decide (g < 4096) && (genWord x.s g 1).getLsbD 10 && bitsOf (genWord x.s g 1) 4 6 == x.b.ctx && !isFill x)
        (invalidated x g, {})
  | .rayq w => some fun x => if (rayParked x).isSome then none else (rayAll (rayqLane x w) x.act (useEngines x.s [.ray x.b.core], [])).map fun p => (p.1, rayResults x 8 p.2)
  | .rayrd _ => some fun x => if (rayParked x).isSome then none else (rayAll (rayrdLane x) x.act (useEngines x.s [.ray x.b.core], [])).map fun p => (p.1, rayResults x 4 p.2)
  | _ => none

/-! ### System values and registers (R227 to R229, R239 to R245) -/

/-- A value in each lane, in one name or in two. -/
def perLane (x : Exec) (fs : List (Nat → W32)) : Results := { regs := fs.zipIdx.map fun p => (nameOf x .d p.2, p.1) }

/-- The two halves of a 64-bit value. -/
def halves (v : Nat) : List W32 := [BitVec.ofNat 32 v, BitVec.ofNat 32 (v / 2 ^ 32)]

/-- A CSR's value in d, and d+1 where it has 64 bits (R229). -/
def csrValue (x : Exec) (n : Nat) : Results :=
  let v := csrGet x.s x.b n
  scalars x (if csrClass n = ve then halves v.toNat else [BitVec.ofNat 32 v.toNat])

/-- The state with a CSR written from the operand a (R229). -/
def csrWritten (x : Exec) (n : Nat) : State :=
  csrSet x.s x.b n (if csrClass n = ve then uni64 x .a else (uniVal x .a 0).zeroExtend 64)

/-- PGBUMP and PGNEW (R241): whole frames, all in GDDR 7 or all in the weight stack, on whose columns no remap step runs (R482). -/
def framesOf (x : Exec) (new : Bool) : Option (State × Results) :=
  let pa := (uni64 x .a).toNat
  let n := (uniVal x .b 0).toNat
  let last := pa + 4096 * (n - 1)
  given (pa % 4096 == 0 && decide (pa < 2 ^ 50) && n != 0 && decide (n ≤ 4194304) && hasGen pa && hasGen last &&
      decide (0x800000000 ≤ pa ↔ 0x800000000 ≤ last) && (framesWait x.s pa n).isNone)
    (nextEpoch (bumpFrames x.s pa n new) x.b.ctx, {})

/-- A MONCTL word of the SYS context on monitor m (R245). -/
def onMonitor (x : Exec) (g : Nat → Option (State × Results)) : Option (State × Results) :=
  let m := (uniVal x .a 0).toNat
  if (ctxD x.s x.b.ctx).sys ∧ m < 32 then g m else none

def systemTable : Instr → Option Effect
  | .sysrd w => some fun x => some (x.s, match w.m.toNat with
      | 0 => perLane x [fun l => BitVec.ofNat 32 l]
      | 1 => perLane x [fun l => BitVec.ofNat 32 (32 * x.b.row + l)]
      | 2 => perLane x [fun l => (fibreOf x.b l).wid.extractLsb' 0 32, fun l => (fibreOf x.b l).wid.extractLsb' 32 32]
      | n => scalars x [BitVec.ofNat 32 (sysValue x.s x.b n)])
  | .csrrd w => some fun x => some (x.s, csrValue x w.m.toNat)
  | .csrwr w => some fun x => some (csrWritten x w.m.toNat, {})
  | .csrswp w => some fun x => some (csrWritten x w.m.toNat, csrValue x w.m.toNat)
  | .bkpt _ => some fun x => given (!(ctxD x.s x.b.ctx).dbgctl.getLsbD 0) (x.s, {})
  | .clock _ => some fun x => some (x.s, scalars x (halves x.s.clock))
  | .perfrd _ => some fun x =>
      let i := (uniVal x .a 0).toNat
      some (x.s, scalars x (halves (if i ≤ 7 then crewCount x.s x.b.crew i else 0)))
  | .pgbump _ => some fun x => framesOf x false
  | .pgnew _ => some fun x => framesOf x true
  | .tlbepoch _ => some fun x =>
      let s := nextEpoch x.s x.b.ctx
      some (s, scalars x [BitVec.ofNat 32 (ctxD s x.b.ctx).tlbep])
  | .halt _ => only fun x =>
      modCtx (recField x.s x.b.ctx 5 32 32 (uniVal x .a 0).toNat) x.b.ctx fun c => { c with state := .halting }
  | .wsremap _ => some fun x =>
      let c := (uniVal x .a 0).toNat
      let b := (uniVal x .b 0).toNat
      if !(ctxD x.s x.b.ctx).sys ∨ 128 ≤ c ∨ 128 ≤ b then none
      else
        -- whatever the batch waited for leaves the queue of steps
        let s := leaveRemaps x.s x.b.id
        if bankRetired x.s c b then some (nextRemap c s s.remaps, {}) else given (remapTurn x.s c x.b.id) (startRemap s c b, {})
  | .monctlCfg _ => some fun x => onMonitor x fun m =>
      let v := (uniVal x .b 0).toNat
      given (decide (v < 2 ^ 24) && uniVal x .b 1 == 0 && uniVal x .b 2 == 0 && uniVal x .b 3 == 0 &&
          decide (1 ≤ v % 256) && decide (v % 256 ≤ 10))
        (setMonitor x.s m {
          src := v % 256, en := v.testBit 8, e0 := v / 2 ^ 9 % 32, step := v / 2 ^ 14 % 8, ctx := v / 2 ^ 17 % 64
          allctx := v.testBit 23 }, {})
  | .monctlClr _ => some fun x => onMonitor x fun m =>
      some (setMonitor x.s m { kvGetD x.s.monitors m {} with min := satMax, max := 0, bins := [] }, {})
  | .monctlRd _ => some fun x => onMonitor x fun m =>
      let v := kvGetD x.s.monitors m {}
      let i := (uniVal x .b 0).toNat
      some (x.s, scalars x (if i = 0 then halves v.min ++ halves v.max
        else if i ≤ 8 then halves (kvGetD v.bins (2 * (i - 1)) 0) ++ halves (kvGetD v.bins (2 * i - 1) 0)
        else halves 0 ++ halves 0))
  | _ => none

end Sys2Proof.Machine
end

