-- ==== Sys2Proof/Safety/RulesJump.lean ====
section
/-! DEFINITION. What the rules say of the words that set the pcs of their batch themselves, or end fibres: branches and
calls (R111 to R116), QUIT, FORK, GATHER and FREEZE (R118 to R120, R180, R254 to R258), TRET (R231), and the ends of fills
(R396, R397); and of the words whose own effect is to take a trap (R230). -/
namespace Sys2Proof.Machine
open Sys2Proof

/-! ### Where the live lanes go (R111, R113 to R116) -/

/-- Every active lane takes the branch to its own place, every other lane falls through. -/
def taking (x : Exec) (g : Nat → VA × Nat) (l : Nat) : Dest :=
  if l ∈ x.act then (true, (g l).1, (g l).2) else (false, x.b.pc + 8, x.b.wb)

/-- The address PC + 8 × imm32 (R113). -/
def relative (x : Exec) (imm : W32) : VA := BitVec.ofInt 54 ((x.b.pc.toNat : Int) + 8 * imm.toInt)

/-- Whether every active lane's target is a place for code: a multiple of 8 below 2^54 (R113). -/
def targetsOk (x : Exec) : Bool := x.act.all fun l => (lane64 x .a l).toNat % 8 == 0 && decide ((lane64 x .a l).toNat < 2 ^ 54)

/-- Where each live lane goes: whether it takes the branch, its pc and its window base; none where a cause stands. -/
def goesTo : Instr → Option (Exec → Option (Nat → Dest))
  | .bra w => some fun x => some (taking x fun _ => (relative x w.imm, x.b.wb))
  | .bri _ => some fun x => if targetsOk x then some (taking x fun l => (BitVec.ofNat 54 (lane64 x .a l).toNat, x.b.wb)) else none
  | .loop w => some fun x => some fun l =>
      if l ∈ x.act ∧ lane x .d 0 l ≠ 1 then (true, relative x w.imm, x.b.wb) else (false, x.b.pc + 8, x.b.wb)
  | .call w => some fun x =>
      if x.b.wb + w.a.toNat + 8 ≤ windowLimit x.s x.b then
        some (taking x fun _ => (relative x w.imm, x.b.wb + w.a.toNat))
      else none
  | .calli w => some fun x =>
      if targetsOk x ∧ x.b.wb + 8 * (w.m.toNat % 64) + 8 ≤ windowLimit x.s x.b then
        some (taking x fun l => (BitVec.ofNat 54 (lane64 x .a l).toNat, x.b.wb + 8 * (w.m.toNat % 64)))
      else none
  | .ret _ => some fun x =>
      let back (l : Nat) : Nat := 8 * ((lane64 x .a l).toNat / 2 ^ 54 % 64)
      if x.act.all fun l => (lane64 x .a l).toNat % 8 == 0 && decide (back l ≤ x.b.wb) &&
          decide (x.b.wb - back l + 8 ≤ windowLimit x.s x.b) then
        some (taking x fun l => (BitVec.ofNat 54 (lane64 x .a l).toNat, x.b.wb - back l))
      else none
  | _ => none

/-- The live lanes go to more than one place. -/
def Diverges (x : Exec) (g : Nat → Dest) : Prop := ∃ l ∈ liveLanes x.b, ∃ k ∈ liveLanes x.b, g l ≠ g k

/-- The live lane l stands at its place in some batch of the slot, with its own fibre's state. -/
def Arrived (x : Exec) (t : State) (g : Nat → Dest) (l : Nat) : Prop :=
  ∃ c ∈ t.batches, c.core = x.b.core ∧ c.slot = x.b.slot ∧ c.crew = x.b.crew ∧ l ∈ liveLanes c ∧
    c.pc = (g l).2.1 ∧ c.wb = (g l).2.2 ∧ fibreOf c l = fibreOf x.b l

/-! ### Words that end with an own state and no results -/

/-- The end of a word that has set its pcs itself: it is counted, and the batches that come of it close their region and
park where the word says so. -/
def leaves (x : Exec) (u : State) (parts : List Nat) : State :=
  parts.foldl (fun s i => retire s i x.sp) (endWait (perfAdd u x.b.crew 0 1) x.b)

/-- The state once the active lanes of a word have ended (R118). -/
def withoutLanes (x : Exec) (s : State) : State :=
  endLanes (pushWindow (advance (perfAdd s x.b.crew 0 1) x.b.id) x.b.id []) x.b.id x.act

/-- FORK (R119): in increasing lane order each lane that has room makes its children; those that did, and the state. -/
def forked (x : Exec) (w : FWord) : State × List Nat :=
  x.act.foldl (fun r l =>
    let n := (lane x .a 0 l).toNat
    if n = 0 then (r.1, r.2 ++ [l])
    else if forkRoom r.1 x.b.crew < n then r
    else (forkLane x (nameOf x .d 0) w.b.toNat r.1 l n, r.2 ++ [l])) (x.s, [])

/-- FORK's result: 0 in the lanes that could, the old d elsewhere as its register has it, and the predicate of success; none where
a register that a child takes holds an error (R286). -/
def forkTable : Instr → Option Effect
  | .fork w => some fun x =>
      let r := forked x w
      let old := readReg x.s { x.b with window := [] } (nameOf x .d 0)
      if (baseFault x (r.2.filter fun l => lane x .a 0 l ≠ 0)).isSome then none else some (r.1, {
        regs := if r.2.isEmpty then [] else [(nameOf x .d 0, fun l => if l ∈ r.2 then 0 else laneVal old l)]
        preds := [(w.b.toNat, fun l => decide (l ∈ r.2))] })
  | _ => none

/-! ### Frozen contexts (R255) -/

/-- The context of a lane as the word freezes it: its registers, T ones by their image's values, its predicates and window base, the
next word, the scratch bytes that go with it, and its place among the images. -/
def frozenLane (x : Exec) (l level seed : Nat) (parent : Option Nat) (scratch : List Byte) (off : Nat) : Image :=
  let h := (crewD x.s x.b.crew).hdr
  { regs := x.b.regs.zipIdx.map fun p => match p.1 with
      | .t img => imageReg x.s img p.2
      | v => laneVal v l
    pw := (fibreOf x.b l).pw, wb := x.b.wb, pc := x.b.pc + 8, scratch := scratch, offset := off, level := level, seed := seed
    parent := parent, wid := (fibreOf x.b l).wid, crew := x.b.crew, ctx := x.b.ctx
    node := ((findCluster x.s (crewD x.s x.b.crew).cluster).map (·.node)).getD 0
    bytes := 128 + (4 * hdrN h + 127) / 128 * 128 + scratch.length }

/-- The images of a word are in the Kiln, each under a free id; none where they do not fit beside those that it holds. -/
def inKiln (s : State) (ims : List (Nat × Image)) : Option (State × List (Nat × Nat)) :=
  if s.kilnSize - (s.images.map fun p => p.2.bytes).sum < (ims.map fun p => p.2.bytes).sum then none
  else ims.foldl (fun r p => r.bind fun q => (pickImage q.1).map fun i =>
    ({ i.2 with images := kvSet i.2.images i.1 p.2 }, q.2 ++ [(p.1, i.1)])) (some (s, []))

/-! ### GATHER's pinned batch (R254) -/

/-- Every batch of the word's set is one, pinned, past the GATHER word, which is where it would start again; the others' waits end. -/
def gathered (s : State) (b : Batch) (idx : Nat) (mask : W32) : State :=
  let others := (gatherers s b.crew idx).filter fun o => o.id ≠ b.id ∧ o.block = some (.gather idx mask) ∧ o.pc = b.pc
  modBatch (joinBatches (others.foldl endWait s) b others) b.id fun c => { c with
    pin := some idx, gatherAt := some c.pc, pc := c.pc + 8, block := none, regionStart := b.regionStart }

/-! ### The ends of fills (R385, R390, R396, R397, Table 17-4) -/

/-- The planes of an array that a fill had borrowed are its holder's again: a READY one is read anew from its descriptor, and the
load into a LOADING one starts again with the tables recorded so far (R222, R390). A restored cluster's planes that were still to be
reloaded as the fill took the array are reloaded before it issues (R222). -/
def givenBack (k : Core) : Core :=
  match k.lent with
  | none => { k with borrow := none }
  | some (qa, qs, l) =>
    let anew (target : Nat) (q : Plane) : List (Nat × WLoad) :=
      if q.state = 2 then [(target, { target := target, loader := none, ctx := q.ctx, depth := 0, cls := 1, recVA := q.recVA
                                      tables := q.tabList.map fun va => ⟨va, none, false, 0⟩, reload := true, atRestore := k.lentRestored })]
      else []
    let again : List (Nat × WLoad) := match l with
      | some l => if qs.state = 1 then [(1, { l with
          lines := [], lineAt := [], total := none, stall := 0, horizontal := false, ratio4 := false, held := none, reload := false
          fillWait := [], atRestore := k.lentRestored
          tables := l.tables.map fun t => { t with block := none, arrived := false, at_ := 0 } })] else []
      | none => []
    let loads := anew 0 qa ++ anew 1 qs ++ again
    { k with
      planeA := qa, planeS := qs, swap := false, passes := [], load := loads.head?.map (·.2), reloads := loads.tail
      borrow := none, lent := none, lentRestored := false }

/-- A fill task is gone with its crew: its half of slab 3 is L1's again, and an array that it had borrowed goes back, without the errors
of what the fill had loaded (R271, R390); a load that the fill had in progress ends with its reads (R223). -/
def taskGone (s : State) (uid : Nat) : State :=
  match findCrew s uid with
  | none => s
  | some c =>
    let s := removeCrew s uid
    let loaded (u : Upset) : Bool := match u with
      | .plane k _ => k == c.core
      | .buffer k _ => k == c.core
      | _ => false
    let s := if (coreD s c.core).borrow = some uid then endReads (clearUpsets s loaded) c.core else s
    modCore s c.core fun k =>
      let k := { k with half30 := k.half30 && !decide (c.slots = [30]), half31 := k.half31 && !decide (c.slots = [31]) }
      if k.borrow = some uid then givenBack k else k

/-- A fill has ended without FILLDONE: a stale record, or one of a context that ends, is free, and its accesses are issued again; any
other is FAILED with its cause and code, its accesses take FILL_FAILED, and FAILS of the entry counts it. -/
def fillFailed (s : State) (id cause code : Nat) : State :=
  match findFill s id with
  | none => s
  | some f =>
    let s := taskGone s f.crew
    let s := monSample s 1 f.ctx (s.clock - f.born)
    if f.stale ∨ (ctxD s f.ctx).state = .destroying then delFill (endParks s id fun _ => none) id
    else
      let w := (genWord s f.gen 2).toNat
      let s := match findFill s id with
        | none => s
        | some g =>
          let g := { g with state := .failed, cause := cause, code := code, put := [] }
          endParks { s with fills := s.fills.map fun r => if r.id = id then g else r } id fun p => some { p with failed := some g }
      setGenWord s f.gen 2 (BitVec.ofNat 64 (w % 2 ^ 32 + 2 ^ 32 * min (2 ^ 32 - 1) (w / 2 ^ 32 + 1)))

/-- The accesses that wait for a fill acquire at DEVICE scope what its task has released (R346): those of batches with its history. -/
def waitersAcquire (s : State) (r : Nat) (released : List (Nat × Nat) × Bool) : State :=
  let waits (ps : List ParkLine) : Bool := ps.any fun p => p.record == some r
  let s := (s.batches.filter fun b => waits b.fillWait).foldl (fun s b =>
    acquire (modCrew s b.crew fun c =>
      let (h, o) := mergePairs c.hist released.1
      { c with hist := h, histOvf := c.histOvf || o || released.2 }) b 2) s
  (List.range s.cores.length).foldl (fun s k => if (coreD s k).load.any fun l => waits l.fillWait then acquireBump s k 2 else s) s

/-- FILLDONE: a release at DEVICE scope; the unit's lines, zeros where none was put, are in the LLC under the record's generation and
answer the accesses parked on them; the task is gone and the record free. Of a stale record, or one whose context has ended, nothing
is installed and the accesses are issued again. -/
def fillEnds (s : State) (b : Batch) (r : Fill) : State :=
  let gone : Bool := r.stale || (ctxD s r.ctx).state == .destroying || (ctxD s r.ctx).state == .free
  let line (i : Nat) : List Byte := kvGetD r.put i (List.replicate 128 0)
  let installed (s : State) (i : Nat) : State :=
    let l : GenLine := ⟨r.ctx, r.unit + 128 * i, r.gen, r.ggen, line i⟩
    { s with genLines := l :: s.genLines.filter fun k => !(k.ctx == l.ctx && k.va == l.va && k.gen == l.gen) }
  let s :=
    if gone then endParks s r.id fun _ => none
    else
      let s := releaseAll s b 2
      let s := evictGen (waitersAcquire s r.id (releasePairs (crewD s b.crew)))
      endParks ((List.range (r.bytes / 128)).foldl installed s) r.id fun p =>
        if r.unit ≤ p.line ∧ p.line < r.unit + r.bytes then some { p with bytes := some (line ((p.line - r.unit) / 128)) } else none
  let s := monSample (taskGone s r.crew) 1 r.ctx (s.clock - r.born)
  { s with fills := s.fills.filter fun f => f.id ≠ r.id }

/-- The state that a word of this kind leaves, and the batches that come of it; none where it takes a cause or waits. -/
def leavesTable : Instr → Option (Exec → Option (State × List Nat))
  | .quit _ => some fun x =>
      if (liveLanes x.b).all (fun l => x.act.contains l) ∨ !ownsTile x.s x.b then
        let s := x.act.foldl (fun s l => fibreQuit s (crewD x.s x.b.crew) (fibreOf x.b l)) (withoutLanes x x.s)
        some (reapImages (exitIfEmpty s x.b.crew), [x.b.id])
      else none
  | .gather _ => some fun x =>
      let mask := uniVal x .a 0
      let idx := (uniVal x .b 0).toNat
      let rest := (liveLanes x.b).filter fun l => !x.act.contains l
      let s := (splitBatch x.s x.b (if rest.isEmpty then [(x.act, id)] else [(x.act, id),
        (rest, fun c => { c with pc := c.pc + 8, block := none, window := ([] :: c.window).take 8 })])).1
      if gatherBad x idx mask ∨ ownsTile x.s x.b then none
      else match findBatch s x.b.id with
        | none => none
        | some b => if gatherReady s b idx mask ∧ (joinFault s (b :: gatherOthers s b idx mask)).isNone = true then
            some (gathered s b idx mask, [b.id])
          else none
  | .freeze _ => some fun x =>
      let c := crewD x.s x.b.crew
      let size := hdrImage (batchHdr x.s x.b)
      let off := if size = 0 then 0 else (uniVal x .a 0).toNat
      if freezeBarred x ∨ (x.act.any fun l => !(fibreOf x.b l).kindling) ∨ c.scratchBytes < off + size ∨
          (frozenFault x).isSome ∨ scratchBad x.s .load x.b.crew off size then none
      else (inKiln x.s (x.act.map fun l =>
          (l, frozenLane x l 1 (hdrSeed c.hdr) none (scratchRead x.s x.b.crew off size) off))).map fun p =>
        let s := p.2.foldl (fun s q => stampGroup s c (fibreOf x.b q.1).wid q.2) (withoutLanes x p.1)
        (reapImages (exitIfEmpty s x.b.crew), [x.b.id])
  | .freezeL w => some fun x =>
      let lvl := w.m.toNat / 2
      let h := batchHdr x.s x.b
      let wid (l : Nat) : W64 := (fibreOf x.b l).wid
      let old (l : Nat) : Nat := (fibreOf x.b l).img.getD 0
      let level (l : Nat) : Nat := ((kvGet x.s.images (old l)).map (·.level)).getD 0 + 1
      if freezeBarred x ∨ x.act.any (nestBarred x lvl) ∨ (frozenFault x).isSome then none
      else (inKiln x.s ((x.act.filter fun l => isLeader h (wid l) lvl).map fun l =>
          (l, frozenLane x l (level l) lvl (some (old l)) [] 0))).map fun p =>
        let s := x.act.foldl (waitMember x lvl) (withoutLanes x p.1)
        let s := p.2.foldl (fun s q => stampWaiting s h (old q.1) lvl (wid q.1) q.2) s
        let rest := x.act.filter fun l => (groupImage s h (old l) lvl (wid l)).isSome
        let s := rest.foldl (fun s l => match groupImage s h (old l) lvl (wid l) with
          | some img => stampWaiting s h (old l) lvl (wid l) img
          | none => s) s
        let s := dropLeaderless (x.act.foldl (fun s l => dropMembers s h (old l) (wid l) lvl) s) h x.b.crew
        (reapImages (exitIfEmpty s x.b.crew), [x.b.id])
  | .filldone _ => some fun x => (myFill x).map fun r => (fillEnds x.s x.b r, [])
  | .fillfail _ => some fun x => (myFill x).bind fun r =>
      if (uniVal x .a 0).toNat < 65536 then some (fillFailed x.s r.id 0xFF (uniVal x .a 0).toNat, []) else none
  | .tret _ => some fun x =>
      let k (i : Nat) : W32 := laneVal (readReg x.s x.b (512 + i)) 0
      let rpc := (k 0).toNat + 2 ^ 32 * (k 1).toNat
      let rwb := (k 2).toNat % 512
      if ([0, 1, 2].all fun i => isUni (rawReg x.s x.b (512 + i)) && (regFault x.s x.b x.act (512 + i)).isNone) ∧ (k 2).toNat < 1024 ∧ rpc % 8 = 0 ∧ rpc < 2 ^ 54 ∧
          rwb % 8 = 0 ∧ rwb + 8 ≤ windowLimit x.s x.b then
        some (modBatch x.s x.b.id fun b =>
          { b with pc := BitVec.ofNat 54 rpc, wb := rwb, priv := (k 2).getLsbD 9, window := [], newRegion := true }, [x.b.id])
      else none
  | _ => none

/-- TRAP, and BKPT where the context enables breakpoints (R230): the cause that the word takes. -/
def trapTable : Instr → Option (Exec → Option TrapInfo)
  | .trap w => some fun x => some {
      cause := .softTrap, code := (imm18 w).toNat, rpc := x.b.pc + 8, word := x.sp.word }
  | .bkpt w => some fun x => if (ctxD x.s x.b.ctx).dbgctl.getLsbD 0 then some {
      cause := .breakpoint, code := (imm18 w).toNat, rpc := x.b.pc + 8, word := x.sp.word } else none
  | _ => none

end Sys2Proof.Machine
end

