-- ==== Sys2Proof/Safety/RulesEvents.lean ====
section
/-! DEFINITION. What the rules say of the events of the opcode table that are no words: what the hardware does between
words, and what the host, the firmware and the world outside do. Each table gives an event's own effect where the event
is due. -/
namespace Sys2Proof.Machine
open Sys2Proof

/-- An event's own effect on the state; none where it is not due. -/
abbrev EventEffect := State → Option State

/-- A due event has the effect that the table gives, and an event that is not due changes nothing. -/
def Happens (table : Instr → Option EventEffect) : Prop :=
  ∀ i e, table i = some e → ∀ s, (∀ t, e s = some t → exec i s = .next t) ∧ (e s = none → exec i s = .next s)

def due (p : Bool) (t : State) : Option State := if p then some t else none

/-! ### Cores (chapter 02, R252, R331, R457, R465) -/

def coreEvents : Instr → Option EventEffect
  | .batchMerge a b => some fun s => (findBatch s a).bind fun x => (findBatch s b).bind fun y =>
      -- an error that the merge meets is one that no word reads
      due (canMerge s x y) (match joinFault s [x, y] with
        | some c => postUE s x c.1
        | none => joinBatches s x [y])
  | .parkResume b => some fun s => (findBatch s b).bind fun x => due (parkOver s x)
      (let u := modBatch (landAll (drainStores (perfAdd s x.crew 2 (s.clock - x.parkedAt)) b) b) b fun c => { c with parked := false }
       match landFault s x with
       | none => u
       | some c => match x.trap with
         -- the word that waited for the park has no effect: the error is taken in place of its own cause
         | some t => modBatch (countUE u x.core c) b fun k => { k with trap := some { cause := c, rpc := x.pc, word := t.word } }
         | none =>
           let r := faultWord u x
           let t : TrapInfo := { cause := c, rpc := x.pc, word := r.2 }
           if r.1.clock < x.wake then modBatch (countUE r.1 x.core c) b fun k => { k with trap := some t } else raise r.1 b t)
  | .sleepEnd b => some fun s => (findBatch s b).bind fun x => due (x.wake != 0 && decide (x.wake ≤ s.clock))
      (modBatch s b fun c => { c with wake := 0 })
  | .trapEntry b => some fun s => (findBatch s b).bind fun x => x.trap.bind fun t => due (!x.parked && decide (x.wake ≤ s.clock)) (takeTrap s x t)
  | .watchdog b => some fun s => match findBatch s b with
      | none => (findCrew s b).bind fun c =>
          let gone := overdueMembers s c
          due (!gone.isEmpty)
            (reapImages (exitIfEmpty (modCrew s c.uid fun c => { c with waiting := c.waiting.filter fun w => !gone.contains w }) c.uid))
      | some x => due (watchdogDue s x)
          (let s := dropWaiters (endWait s x) fun w => !w.node && w.who == b
           let s := modXSet s x.core (x.slot / 2) fun t => { t with waiters := t.waiters.filter fun i => i ≠ b }
           raise (modBatch s b fun c => { c with block := none }) b { cause := .watchdog, rpc := x.pc, word := x.word })
  | .xsetReacquire b => some fun s => (findBatch s b).bind fun x => (findXSet s x.core (x.slot / 2)).bind fun t =>
      if !wantsSet s x then none
      else if !setFree s x t then due (!t.waiters.contains x.id) (queueSet s x)
      else if t.holder.isSome && setBad s x then due s.posted.isEmpty (postUE s x .eccUeReg)
      else takeSetAgain (queueSet s x) x t
  | .lineWriteback core line => some fun s => some (writeBack s core line)
  | _ => none

/-! ### The matrix array (R196 to R209, R390) -/

/-- The loading plane of a core changes. -/
def onLoad (s : State) (core : Nat) (f : WLoad → WLoad) : State := modCore s core fun k => { k with load := k.load.map f }

/-- No remap step waits for a core's load any longer (R223). -/
def notReading (s : State) (core : Nat) : State :=
  { s with remaps := s.remaps.map fun r => { r with readers := r.readers.filter fun c => c ≠ core } }

def arrayEvents : Instr → Option EventEffect
  | .planeExchange core => some fun s =>
      let k := coreD s core
      let cross (u : Upset) : Upset := match u with
        | .plane c p => if c = core then .plane c (1 - p) else u
        | u => u
      due (k.swap && k.passes.isEmpty) (modCore { s with upsets := s.upsets.map cross } core fun k =>
        { k with swap := false, planeA := k.planeS, planeS := k.planeA })
  | .passClose core => some fun s => some (modCore s core fun k => { k with passes := closeOldest s.clock k.passes })
  | .passComplete core => some fun s =>
      -- quarters that have not read their activations read them, and what stands before them in their batches (R209)
      let s' := settlePass s core
      match (coreD s' core).passes with
      | [] => some s'
      | p :: ps => if !p.closed then some s' else some (modCore (p.quarters.foldl (fun s q =>
          perfAdd (modTile s q.crew q.tile fun t => { t with pend := quarterTile q t.pend }) q.crew 3 1) s') core fun k =>
            { k with passes := ps })
  | .fillArrayBorrow b => some fun s => (findBatch s b).bind fun x =>
      let k := coreD s x.core
      -- a depth-2 fill with a tile on the same core comes first
      let deeper := (crewD s x.crew).slots == [30] &&
        s.crews.any fun c => c.core == x.core && c.slots == [31] && c.fill.isSome && !c.tiles.isEmpty
      due (x.block == some (.array 2) && k.passes.isEmpty && !k.swap && k.borrow.isNone && !deeper)
        (modCore (useEngines (notReading s x.core) [.array x.core]) x.core fun k => { k with
          borrow := some x.crew, lent := some (k.planeA, k.planeS, planeLoad k 1)
          lentRestored := k.load.any (·.atRestore) || k.reloads.any fun r => r.2.atRestore
          planeA := if (planeLoad k 0).isSome then {} else k.planeA
          planeS := if (planeLoad k 1).isSome then {} else k.planeS
          load := none, reloads := [] })
  | .wloadComplete core => some fun s => (coreD s core).load.bind fun l => (loadedPlane s.clock (checkParity s core l)).map fun q =>
      let s := notReading (freshPlane (match q.held with
        | some h => countUE s core h.cause
        | none => s) core l.target) core
      modCore s core fun k =>
        let old := if l.target = 0 then k.planeA else k.planeS
        let q := { q with ratio4 := q.ratio4 || (q.path == 1 && old.ratio4) }
        let q := if q.state = 3 then { q with fmt := old.fmt, kseg := old.kseg, ncols := old.ncols, cgrp := old.cgrp } else q
        let k := if l.target = 0 then { k with planeA := q } else { k with planeS := q }
        match k.reloads with
        | [] => { k with load := none }
        | r :: rs => { k with load := some r.2, reloads := rs }
  | .recordLineArrival core => some fun s => (coreD s core).load.bind fun l =>
      let va := l.recVA + 128 * l.lines.length
      -- a load that read its column as a remap step began goes on from the old layout
      let skip := s.remaps.any fun r => r.running && r.col == core && r.readers.contains core && inColumn s core l.ctx va
      if l.held.isSome ∨ l.total = some l.lines.length then none
      else match engineRead s { loadAgent s core l with skip := skip, vert := readsVertical s core l && !l.horizontal } va 128 with
        | .wait s _ => some s
        | .bad s c f _ => some (leaveReaders (onLoad (postWalk (readDone s core va none) core l va) core fun l =>
            failLoad s.clock (notePath s core l) (heldOf c f)) core)
        | .ok s bs => some (leaveReaders (onLoad (readDone s core va none) core fun l =>
            notePath s core (endCheck s core (loadDecoded { l with lines := l.lines ++ [bs], lineAt := l.lineAt ++ [s.clock] }))) core)
  | .wtabTableArrival core idx => some fun s => (coreD s core).load.bind fun l => (l.tables[idx]?).bind fun t =>
      let land (s : State) (bs : List Byte) : State := onLoad s core fun l =>
        { l with tables := listMod l.tables idx fun t => { t with block := some bs, arrived := true, at_ := s.clock } }
      let va := t.va / 32 * 32
      if t.arrived then none
      else match t.block with
        | some bs => some (land s bs)
        | none => match engineRead s (loadAgent s core l) va 32 with
          | .wait s _ => some s
          | .bad s c f _ => some (leaveReaders (onLoad (postWalk (readDone s core va (some idx)) core l va) core fun l =>
              failLoad s.clock (notePath s core l) (heldOf c f)) core)
          | .ok s bs => some (land (readDone s core va (some idx)) bs)
  | _ => none

/-! ### Repair and power (R463, R479 to R488) -/

def healthEvents : Instr → Option EventEffect
  | .bankRetire col bank => some fun s =>
      let n := 128 * col + bank
      due (decide (col < 128) && decide (bank < 128) && s.bankDue.contains n)
        (let s := { s with bankDue := s.bankDue.filter fun m => m ≠ n }
         if bankRetired s col bank then s
         else
           let s := { s with remaps := s.remaps ++ [{ col := col, bank := bank, running := false, readers := [] }] }
           nextRemap col s s.remaps)
  | .padFail col pad => some fun s => due (decide (col < 128) && decide (pad < 560))
      { s with padsBad := kvSet s.padsBad col (kvGetD s.padsBad col 0 ||| 2 ^ pad) }
  | .remapStepEnd col => some fun s => match s.remaps.find? fun r => r.col == col && r.running with
      | none => some (nextRemap col s s.remaps)
      | some r =>
        let busy := r.readers.any fun k => (coreD s k).load.any fun l => l.held.isNone && l.total != some l.lines.length
        let lo := 0x800000000 + 0x10000000 * col
        let here (a : Nat) : Prop := lo ≤ a ∧ a < lo + 0x10000000
        let stays (w : Nat) : Bool := (chunkMove (liveBanks s col) r.bank ((8 * w - lo) / 2048)).isSome
        -- the errors that the moves meet show in their banks
        let met := s.upsets.filterMap fun e => match e with
          | .mem w => if here (8 * w) ∧ stays w = true then some w else none
          | _ => none
        let s := noteBanks s met
        let u := { s with remaps := s.remaps.filter fun q => !(q.col == col && q.running) }
        let top := lo + colCap u col
        -- an error of a chunk that moves goes with it; one of a byte that is lost ends
        let moved (e : Upset) : Option Upset := match e with
          | .mem w => if here (8 * w) then (if stays w then some (.chunk (8 * w / 2048) 0) else none) else some e
          | .llc w => if here (8 * w) then (if stays w then some (.chunk (8 * w / 2048) 0) else none) else some e
          | e => some e
        let upd (b : Batch) : Batch := match b.block with
          | some (.home i _) => if here (128 * i) then { b with blockedAt := s.clock } else b
          | some (.fetch i _) => if here (128 * i) then { b with blockedAt := s.clock } else b
          | _ => b
        let u := { u with
          upsets := (u.upsets.filterMap moved).eraseDups
          mem := u.mem.filter fun p => decide (p.1 < top) || decide (lo + 0x10000000 ≤ p.1)
          batches := u.batches.map upd }
        -- the write-backs that waited for the step are performed in their order; of lost bytes, none
        let back (p : Nat × Nat × L1Line) : Bool := decide (here (128 * p.2.1))
        let u := (u.backlog.filter back).foldl (fun u p => if 128 * p.2.1 < top then flushLine u p.1 p.2.1 p.2.2 else u)
          { u with backlog := u.backlog.filter fun p => !back p }
        due (!busy) (nextRemap col u u.remaps)
  | .engineGate e => some fun s => due (gateDue s e) { s with power := { s.power with gated := e :: s.power.gated } }
  | .engineWake e => some fun s => due (isGated s e && !engineIdle s e) (useEngines s [e])
  | .thermalTrip => some fun s => due (tripDue s)
      (let live := (List.range 64).filter fun c => (ctxD s c).state == .resident
       let s := live.foldl (fun s c => modCtx (recField s c 8 8 8 0x56) c fun k => { k with state := .halting }) s
       { s with power := { s.power with tripped := true } })
  | _ => none

end Sys2Proof.Machine
end

