-- ==== Sys2Proof/Safety/RulesGraph.lean ====
section
/-! DEFINITION. What the rules say of triggers, runs and nodes of graphs (R362 to R371, R408, R409, R418, R419): what each event of
the scheduler leaves in the trigger queues, the graph table, the runs, the engines' queues and the event table. -/
namespace Sys2Proof.Machine
open Sys2Proof

/-! ### The graph table and the nodes of a run -/

/-- A graph's entry takes STATE, CODE and NODE, and keeps RUNS (Table 16-4). -/
def graphIs (s : State) (g st code node : Nat) : State :=
  let g1 := BitVec.ofNat 64 (st + 4 * code + 1024 * (node % 2 ^ 14) + 2 ^ 24 * bitsOf (graphWord s g 1) 24 40)
  { s with graphTab := kvPut 0 s.graphTab (2 * g + 1) g1 }

/-- A node of a run changes. -/
def onNode (s : State) (run n : Nat) (f : NodeRun → NodeRun) : State :=
  { s with runs := s.runs.map fun r => if r.id = run then { r with nodes := kvMod r.nodes n f } else r }

/-- A run fails at node n (R362, R368): its graph is FAILED with the code, and no further node of it starts. A run fails once. -/
def runFails (s : State) (run n code : Nat) : State :=
  match s.runs.find? fun r => r.id = run with
  | none => s
  | some r =>
    if r.failed then s
    else
      let s := graphIs s r.graph 3 code n
      { s with runs := s.runs.map fun q => if q.id = run then { q with failed := true } else q }

/-- A node that has started is still at work. -/
def atWork (p : Nat × NodeRun) : Bool := p.2.state == .running || p.2.state == .deferred

/-- A failed run is gone once the nodes that it had started are complete (R368). -/
def failedRunGone (s : State) (run : Nat) : State :=
  { s with runs := s.runs.filter fun r => !(r.id == run && r.failed && !(r.nodes.any atWork)) }

/-- A node is refused (R362): its run fails at it with the code. -/
def nodeRefused (s : State) (run n code : Nat) : State := failedRunGone (runFails s run n code) run

/-! ### Triggers (R366) -/

/-- A trigger's place in its queue: at the end, but a REALTIME one goes before all but the REALTIME ones at the head. -/
def queuedTrigger (q : List Trigger) (t : Trigger) : List Trigger :=
  let ahead (u : Trigger) : Bool := u.begun || u.realtime
  if t.realtime then q.takeWhile ahead ++ [t] ++ q.dropWhile ahead else q ++ [t]

/-- A bit of word 8 of a context's record is set (Table 19-5): 1 TRIGLOST, 2 EVOVF, 4 DRAWERR. -/
def recordFlag (s : State) (ctx bit : Nat) : State := homeWriteNat s (recWordPA s ctx 8) 8 (recWord s ctx 8 ||| bit)

/-! ### The start of a run (R367, R369, R370) -/

/-- A wait entry whose threshold the count does not meet yet waits on its event; one that finds no room is left for a retry, which
EVOVF tells. -/
def entryWaits (s : State) (ctx run n : Nat) (h : List W64) (i : Nat) : State :=
  let left (s : State) : State := onNode s run n fun x => { x with unreg := x.unreg ++ [i] }
  match eventIdx s ctx (hdrWait h i).1 with
  | none => left s
  | some e =>
    if (hdrWait h i).2 ≤ eventCount s e then s
    else match addWaiter s { ev := e, ctx := ctx, node := true, who := nodeWho run n i, threshold := (hdrWait h i).2, overflow := none } with
      | .ok s _ => onNode s run n fun x => { x with waiting := x.waiting ++ [i] }
      | .wait s _ => left s
      | .bad s _ _ _ => recordFlag (left s) ctx 2

/-- The patches of a list take effect in order, up to one that names no node of the graph, the word 31 or a reserved bit: its node. -/
def patched (first count : Nat) (s : State) : List (Nat × W64) → State × Option Nat
  | [] => (s, none)
  | (e0, v) :: es =>
    if e0 % 65536 < count ∧ e0 / 65536 % 32 ≠ 31 ∧ e0 < 2 ^ 21 then
      patched first count { s with nodeStore := kvPut 0 s.nodeStore (32 * (first + e0 % 65536) + e0 / 65536 % 32) v } es
    else (s, some (e0 % 65536))

/-- The run of a trigger begins: every node is pending, and waits for those of its wait entries that are not met. -/
def runBegins (s : State) (ctx : Nat) (t : Trigger) (first count : Nat) : State :=
  let id := s.nextId
  let r : Run := {
    id := id, graph := bitsOf t.word 0 16, ctx := ctx, level := t.level, wid := t.wid, failed := false
    nodes := (List.range count).map fun n => (n, { readyAt := s.clock }) }
  (List.range count).foldl (fun s n =>
    let h := nodeWords s (first + n)
    (List.range (hdrNwait h)).foldl (fun s i => entryWaits s ctx id n h i) s) { s with nextId := id + 1, runs := s.runs ++ [r] }

/-- What R367 makes of the trigger at the head of a queue: FAILED with 0xFF where the graph is not the context's, with 0x01 where the
patch list cannot be read or breaks the rule, with 0x0A where a node's events are out of range; else the run begins. -/
def triggerTaken (s : State) (ctx : Nat) (t : Trigger) : Turn Unit :=
  let g := bitsOf t.word 0 16
  let first := graphFirst s g
  let count := graphCount s g
  let list := 4096 * bitsOf t.word 22 42
  if !t.begun ∧ (!graphResident s g ∨ graphCtx s g ≠ ctx) then .ok (graphIs s g 3 0xFF 0) ()
  else
    let s := if t.begun then s else graphIs s g 1 0 0
    match (if list = 0 then Turn.ok s [] else readPatches s ctx list) with
    | .wait s => .wait s
    | .susp => .susp
    | .stop s _ => .ok (graphIs s g 3 0x01 0) ()
    | .ok s es => match patched first count s es with
      | (s, some n) => .ok (graphIs s g 3 0x01 n) ()
      | (s, none) => match (List.range count).find? fun n => !eventsOk s ctx (nodeWords s (first + n)) with
        | some n => .ok (graphIs s g 3 0x0A n) ()
        | none => .ok (runBegins s ctx t first count) ()

/-! ### The start of a node (R368) -/

/-- A node may start: its run has not failed, its context is RESIDENT, it has not started, its wait entries are met, and no entry of
the run is left to register (R370). -/
def mayStart (s : State) (r : Run) (x : NodeRun) : Bool :=
  !r.failed && (ctxD s r.ctx).state == .resident && x.state == .pending && x.waiting.isEmpty && r.nodes.all fun p => p.2.unreg.isEmpty

/-- A node runs. -/
def nodeRuns (s : State) (run n : Nat) (f : NodeRun → NodeRun) : State := onNode s run n fun x => f { x with state := .running }

/-- The first 4 KiB of a launch's constant block are requested at their homes for the LLC, line by line (R361); a line that cannot be
loaded, or does not lie on plain memory, is left out, as PREF.LLC leaves it out (R164). -/
def constsRequested (s : State) (run n ctx : Nat) (h : List W64) : State :=
  let line (i : Nat) : Nat := hdrConstp h / 128 * 128 + 128 * i
  if hdrConstp h = 0 then s
  else (List.range 32).foldl (fun s i =>
    if 2 ^ 54 ≤ line i then s
    else match pieceAt s (schedAgent ctx (actorOf run n)) .load (line i) 128 with
      | .ok (.inl (.mem pa)) => countHome s 0 ctx pa
      | _ => s) s

/-- The clusters of a kernel launch are in the node's queue, once its constants have been requested; under a seed above the crew level
its kindling clusters are, and the clusters wait for them (R256). -/
def kernelRuns (s : State) (run n ctx : Nat) (h : List W64) : State :=
  let clusters := extProd h (hdrClusLevel h) (hdrFields h)
  let s := constsRequested s run n ctx h
  nodeRuns s run n fun x =>
    if hdrCrewLevel h < hdrSeed h then
      { x with hdr := h, kready := [(0, extProd h (hdrSeed h) (hdrFields h))], left := clusters }
    else { x with hdr := h, ready := [(0, clusters)], left := clusters }

/-- The timeline of the engine context that a submission node names. -/
def engineTl (h : List W64) : Nat := if hdrKind h = 2 then hdrBits h 0 0 16 else hdrBits h 16 0 16

/-- That engine context is STOPPED. -/
def engineStopped (s : State) (h : List W64) (ctx : Nat) : Bool :=
  if hdrKind h = 2 then ((kvGet s.flues (tlKey ctx (engineTl h))).map fun f => f.state == 3).getD false
  else ((kvGet s.splits (tlKey ctx (engineTl h))).map fun f => f.state == 3).getD false

/-- A release at DEVICE scope on every core: for the node's earlier writers (R292, R368, R408). -/
def allReleased (s : State) : State := (List.range 128).foldl (fun s k => drainCore s k 2 0xFF) s

/-- A node's list or descriptor joins the queue of its engine context, which then runs; none where the queue holds 16 or the context
is STOPPED (R292, R408, R409). -/
def joinsEngine (s : State) (run n : Nat) (h : List W64) (ctx : Nat) : Option State :=
  let k := tlKey ctx (engineTl h)
  if hdrKind h = 2 then
    match kvGet s.flues k with
    | none => none
    | some f =>
      if 16 ≤ f.queue.length ∨ f.state = 3 then none
      else
        let l : FlueList := { va := hdrBits h 1 0 54, count := hdrBits h 2 0 16, crew := none, node := some (run, n) }
        some (allReleased { s with flues := kvMod s.flues k fun f =>
          { f with queue := f.queue ++ [l], state := if f.state = 0 then 1 else f.state } })
  else
    match kvGet s.splits k with
    | none => none
    | some f =>
      if 16 ≤ f.queue.length ∨ f.state = 3 then none
      else
        let j : SplitJob := { va := 0, node := some (run, n, h.take 16) }
        some (allReleased { s with splits := kvMod s.splits k fun f =>
          { f with queue := f.queue ++ [j], state := if f.state = 0 then 1 else f.state } })

/-- A Flue-list or CUTSEL node starts: it is refused with 0x01, 0x09 or 0x0D, or its submission is queued, or is deferred. -/
def submissionRuns (s : State) (run n : Nat) (h : List W64) (ctx : Nat) : State :=
  if hdrKind h = 2 ∧ (hdrBits h 2 0 16 = 0 ∨ hdrBits h 1 0 5 ≠ 0) then nodeRefused s run n 0x01
  else if !timelineMade s ctx (engineTl h) (some (hdrKind h)) then nodeRefused s run n 0x09
  else if engineStopped s h ctx then nodeRefused s run n 0x0D
  else match joinsEngine s run n h ctx with
    | some s => nodeRuns s run n fun x => { x with hdr := h, open_ := 1 }
    | none => onNode s run n fun x => { x with state := .deferred, hdr := h }

/-- A pipeline node starts once its stage headers, which R371 checks, have been read: its queues are empty. -/
def pipelineRuns (s : State) (run n : Nat) (h : List W64) (ctx : Nat) : Turn Unit :=
  let k := hdrBits h 0 0 3 + 1
  match turnAll (fun s j => readHeader s ctx (actorOf run n) (hdrBits h (2 + j) 0 54)) s (List.range k) with
  | .wait s => .wait s
  | .susp => .susp
  | .stop s _ => .ok (nodeRefused s run n 0x0C) ()
  | .ok s hs =>
    if hs.all (stageOk s ctx) then
      let none' := List.replicate k 0
      let p : Pipe := {
        items := hdrBits h 1 0 32, stages := hs, claimed := none', produced := none', freed := none'
        shapes := (List.range k).map fun j =>
          (16 * (hdrBits h (18 + j / 4) (16 * (j % 4)) 4 + 1), hdrBits h (18 + j / 4) (16 * (j % 4) + 4) 12 + 1) }
      .ok (nodeRuns s run n fun x => { x with hdr := h, pipe := some p }) ()
    else .ok (nodeRefused s run n 0x0C) ()

/-- A CLUSTERDRAW node starts once its fragment header and NOUT have been read: it has min(NOUT, NREC) records to draw, none with
DRAWERR where NOUT cannot be read (R418, R419). -/
def drawRuns (s : State) (run n : Nat) (h : List W64) (ctx : Nat) : Turn Unit :=
  match readHeader s ctx (actorOf run n) (hdrBits h 3 0 54) with
  | .wait s => .wait s
  | .susp => .susp
  | .stop s _ => .ok (nodeRefused s run n 0x07) ()
  | .ok s fh =>
    let w := hdrBits h 5 0 16
    let ht := hdrBits h 5 16 16
    let drawing (s : State) (left : Nat) : State := nodeRuns s run n fun x => { x with
      hdr := h
      draw := some { left := left, recVA := hdrBits h 0 0 54, instVA := hdrBits h 2 0 54, hdr := fh, width := w, height := ht, f1 := hdrBase fh 1 } }
    if !drawOk s ctx fh w ht then .ok (nodeRefused s run n 0x07) ()
    else match engineRead s (schedAgent ctx (actorOf run n)) (hdrBits h 1 0 54) 4 with
      | .ok s b => .ok (drawing s (min (leNat b) (hdrBits h 4 0 32))) ()
      | .wait s _ => .wait s
      | .bad s _ _ _ => .ok (drawing (recordFlag s ctx 4) 0) ()

/-- A node starts, after an acquire at DEVICE scope on every core: a kernel launch (kind 0), a pipeline (1), a Flue list (2), a CUTSEL
descriptor (3), an empty node (4) or a CLUSTERDRAW (5); one that breaks R362 or R365 is refused. -/
def nodeStarts (s : State) (r : Run) (n : Nat) : Turn Unit :=
  let h := nodeWords s (graphFirst s r.graph + n)
  let s := (List.range 128).foldl (fun s k => acquireBump s k 2) s
  if hdrKind h = 0 then
    let h := spawnBase h r.level r.wid
    let c := launchCode s r.ctx h false
    .ok (if c = 0 then kernelRuns s r.id n r.ctx h else nodeRefused s r.id n c) ()
  else if nodeReserved h then .ok (nodeRefused s r.id n 0x01) ()
  else match hdrKind h with
    | 1 => pipelineRuns s r.id n h r.ctx
    | 4 => .ok (nodeRuns s r.id n fun x => { x with hdr := h }) ()
    | 5 => drawRuns s r.id n h r.ctx
    | _ => .ok (submissionRuns s r.id n h r.ctx) ()

/-! ### The raster front end (R418, R419) -/

/-- A fragment crew is launched: a waiting cluster whose field 1 is the next value of F1, and whose scratch holds the fragments
formed so far, 32 bytes each, with zeros after them. -/
def fragmentCrew (s : State) (run n ctx : Nat) (d : Draw) : State :=
  let s := onNode s run n fun x => { x with
    open_ := x.open_ + 1, draw := some { d with frags := [], f1 := (d.f1 + 1) % 2 ^ hdrWidth d.hdr 1 } }
  let ready := (((s.runs.find? fun r => r.id = run).bind fun r => kvGet r.nodes n).map (·.readyAt)).getD s.clock
  let h := (d.hdr.set 5 (BitVec.ofNat 64 d.f1)).set 11 (BitVec.ofNat 64 1)
  let k : Cluster := {
    id := s.nextId, ctx := ctx, run := run, node := n, index := 0, hdr := h, cls := hdrPrio h, eff := hdrPrio h
    state := .waiting, age := ready, cc := 0, saveSlot := 0, saves := 0, kindling := false, stampFrom := [], liveCrews := 0
    savedCrews := [], savedBatches := [], savedSets := [], savedPlanes := []
    init := d.frags.flatten ++ List.replicate (1024 - 32 * d.frags.length) 0 }
  { s with nextId := s.nextId + 1, clusters := s.clusters ++ [k] }

/-- One action of the front end: a crew is launched, once 32 fragments are formed, or nothing is left, or earlier; or the next record
is read; or a fragment of the first triangle is formed, or that triangle ends (log 2). -/
def drawGoesOn (s : State) (r : Run) (n : Nat) (d : Draw) : Turn Unit :=
  let drawing (s : State) (d : Draw) : State := onNode s r.id n fun x => { x with draw := some d }
  let ends := d.tris.isEmpty && d.left == 0
  let (early, s) := freeBool s
  if !d.frags.isEmpty ∧ (d.frags.length = 32 ∨ ends ∨ early) ∧ !hasWaiting s r.id n then .ok (fragmentCrew s r.id n r.ctx d) ()
  else if d.frags.length = 32 ∨ ends then .ok s ()
  else match d.tris with
    | [] => (drawRecord s r.ctx (actorOf r.id n) d).andThen fun s ts =>
        .ok (drawing (if ts.isNone then recordFlag s r.ctx 4 else s)
          { d with left := d.left - 1, recVA := d.recVA + 16, tris := ts.getD [], cover := 0 }) ()
    | t :: ts =>
      let (more, s) := freeBool s
      if more ∧ d.cover < d.width * d.height then
        let (f, s) := fragment s d t
        .ok (drawing s { d with frags := d.frags ++ [f], cover := d.cover + 1 }) ()
      else .ok (drawing s { d with tris := ts, cover := 0 }) ()

/-! ### The end of a node (R368, R372, R378, R419) -/

/-- A running node has nothing left: every cluster yielded and ended, every item out of the last stage, every record drawn; of a run
that a fatal error has ended, every cluster that had been placed ended (R462). -/
def nothingLeft (r : Run) (x : NodeRun) : Bool :=
  x.state == .running && x.open_ == 0 && (r.dead || (x.kready.isEmpty && x.ready.isEmpty && (x.left == 0 || r.failed) &&
    (match x.pipe with
    | some p => p.produced.getLast?.getD 0 == p.items
    | none => true) &&
    (match x.draw with
    | some d => d.left == 0 && d.tris.isEmpty && d.frags.isEmpty
    | none => true)))

/-- A node completes: after one release at DEVICE scope each of its signal entries acts as an EVSIG with its addend, in order; once
every node has completed, the graph is DONE, RUNS counts the run, and the run is gone. A node of a failed run signals nothing. -/
def nodeCompletes (s : State) (r : Run) (n : Nat) (x : NodeRun) : State :=
  let s := reapImages (onNode s r.id n fun x => { x with state := .done, kindlings := [] })
  if r.failed then failedRunGone s r.id
  else
    let s := (List.range (hdrNsig x.hdr)).foldl (fun s i => match eventIdx s r.ctx (hdrSig x.hdr i).1 with
      | some e => signalEvent s e (hdrSig x.hdr i).2
      | none => s) (allReleased s)
    match s.runs.find? fun q => q.id = r.id with
    | none => s
    | some q =>
      if q.nodes.all fun p => p.2.state == .done then
        let s := graphIs s r.graph 2 0 0
        let g1 := (graphWord s r.graph 1).toNat
        let counted := BitVec.ofNat 64 (g1 % 2 ^ 24 + 2 ^ 24 * min (2 ^ 40 - 1) (g1 / 2 ^ 24 + 1))
        { s with
          graphTab := kvPut 0 s.graphTab (2 * r.graph + 1) counted
          runs := s.runs.filter fun q => q.id ≠ r.id }
      else s

/-- The entries of a node that found no room are tried again, in order (R370). -/
def entriesRetried (s : State) (r : Run) (n : Nat) (x : NodeRun) : State :=
  let h := nodeWords s (graphFirst s r.graph + n)
  x.unreg.foldl (fun s i => entryWaits s r.ctx r.id n h i) (onNode s r.id n fun x => { x with unreg := [], readyAt := s.clock })

/-- How many entries of a node are left to register. -/
def entriesLeft (s : State) (run n : Nat) : Nat :=
  (((s.runs.find? fun r => r.id = run).bind fun r => kvGet r.nodes n).map fun x => x.unreg.length).getD 0

def graphEvents : Instr → Option EventEffect
  | .triggerWrite v => some fun s =>
      let c := bitsOf v 16 6
      let x := ctxD s c
      due ((x.state == .resident || x.state == .halting || x.state == .halted) && !s.ident.recov)
        (if x.trigQ.length < 64 then
          modCtx s c fun k => { k with trigQ := queuedTrigger x.trigQ ⟨v, 0, 0, graphRealtime s (bitsOf v 0 16), false⟩ }
        else recordFlag s c 1)
  | .graphRunStart ctx => some fun s =>
      let x := ctxD s ctx
      x.trigQ.head?.bind fun t =>
        if x.state = .resident ∧ (t.begun ∨ graphState s (bitsOf t.word 0 16) ≠ 1) then
          match triggerTaken s ctx t with
          | .ok s _ => some { modCtx (schedDone s (128 + ctx)) ctx (fun k => { k with trigQ := k.trigQ.tail }) with trigTurn := ctx }
          | .wait s => some { modCtx s ctx (fun k => { k with trigQ := match k.trigQ with
              | t :: r => { t with begun := true } :: r
              | [] => [] }) with trigTurn := ctx }
          | _ => none
        else none
  | .nodeStart run n => some fun s => (s.runs.find? fun r => r.id = run).bind fun r => (kvGet r.nodes n).bind fun x =>
      (if mayStart s r x then some (nodeStarts s r n)
      else x.draw.bind fun d => if !r.dead ∧ x.state = .running ∧ drawCanMove s r.id n d then some (drawGoesOn s r n d) else none).bind fun
        | .ok s _ => some (schedDone s (actorOf run n))
        -- the reads of a start that waits keep their records and what they have been served
        | .wait u => some { s with fills := u.fills, parked := u.parked, nextId := u.nextId, homeAsks := u.homeAsks }
        | _ => none
  | .nodeSubmitDeferred run n => some fun s => (s.runs.find? fun r => r.id = run).bind fun r => (kvGet r.nodes n).bind fun x =>
      if x.state ≠ .deferred then none
      else if engineStopped s x.hdr r.ctx then
        some (failedRunGone (onNode (runFails s run n 0x0D) run n fun x => { x with state := .done }) run)
      else (joinsEngine s run n x.hdr r.ctx).map fun s => nodeRuns s run n fun x => { x with open_ := 1 }
  | .nodeComplete run n => some fun s => (s.runs.find? fun r => r.id = run).bind fun r => (kvGet r.nodes n).bind fun x =>
      due (nothingLeft r x) (nodeCompletes s r n x)
  | .nodeWaitRetry run n => some fun s => (s.runs.find? fun r => r.id = run).bind fun r => (kvGet r.nodes n).bind fun x =>
      due (decide (entriesLeft (entriesRetried s r n x) run n < entriesLeft s run n)) (entriesRetried s r n x)
  | _ => none

end Sys2Proof.Machine
end

