-- ==== Sys2Proof/Safety/RulesFlue.lean ====
section
/-! DEFINITION. What the rules say of the commands of Flue contexts (R294 to R313) and of the runs of Splitter contexts (R409 to
R417): what each command or step of a run leaves in memory, scratch, buffers, barriers, timelines, events and the context. -/
namespace Sys2Proof.Machine
open Sys2Proof

/-! ### A Flue context (R288, R295, R312, R313) -/

/-- A Flue context changes. -/
def onFlue (s : State) (k : Nat) (f : FlueCtx → FlueCtx) : State := { s with flues := kvMod s.flues k f }

/-- The current command of a context is done: the next one follows. -/
def nextCommand (s : State) (k : Nat) : State := onFlue s k fun f => { f with pos := f.pos + 1, work := none, binds := [] }

/-- A data command has done n more of its bytes, elements or windows. -/
def workDone (s : State) (k : Nat) (w : FlueWork) (n : Nat) : State :=
  if w.at_ + n < w.total then onFlue s k fun f => { f with work := some { w with at_ := w.at_ + n } } else nextCommand s k

/-- A context stops with a cause, at the address of its command (R312): FAULT and FCAUSE of every barrier that one of its buffers binds,
or that its blocked BARARR names, say so (R313). -/
def flueStops (s : State) (k : Nat) (h : Held) : State :=
  match kvGet s.flues k with
  | none => s
  | some f =>
    let told (c : Crew) (i : Nat) : Bool :=
      (c.cbs.any fun b => b.init && b.flue == some k && b.bind == some i) || f.binds.contains (c.uid, i)
    let tell (c : Crew) : Crew := { c with
      barriers := c.barriers.zipIdx.map fun p =>
        if told c p.2 then { p.1 with fault := true, fcause := h.cause.code, faultBy := some k } else p.1 }
    let s := { s with
      crews := s.crews.map tell
      clusters := s.clusters.map fun k => { k with savedCrews := k.savedCrews.map tell } }
    onFlue (wakeWaiters s) k fun f => { f with
      state := 3, cause := some h, work := none, binds := [], fillWait := []
      causeAddr := (f.queue.head?.map (·.va)).getD 0 + 32 * f.pos }

/-! ### Tensors (R301 to R303) -/

/-- The place of element j of a window in its slot, for elements of `e` bytes (R303). -/
def slotAt (t : Tmr) (e : Nat) (j : List Nat) : Nat :=
  let b (k : Nat) : Nat := t.b.getD k 1
  16 * t.pitch * (j.getD 1 0 + b 1 * (j.getD 2 0 + b 2 * (j.getD 3 0 + b 3 * j.getD 4 0))) + e * j.getD 0 0

/-- The address of element x of a tensor (R302). -/
def tensorAt (t : Tmr) (x : List Nat) : Nat := t.base + ((List.range 5).map fun k => x.getD k 0 * t.st.getD k 0).sum

/-- An element's bytes in another format: raw ones pass unchanged (R302). -/
def recoded (src dst : Nat) (bs : List Byte) : List Byte :=
  if src ≤ 3 then bs else leBytes (elemBytes dst) (elemConvert src dst (leNat bs))

/-- The value of an element out of range (R302): zero, FCONST, or that of the nearest element in range; TMR_RANGE under FILL 3. -/
def outsideValue (f : FlueCtx) (l : FlueList) (t : Tmr) (s : State) (x : List Nat) : Turn (List Byte) :=
  let e := elemBytes t.fmt
  match t.fill with
  | 0 => .ok s (List.replicate e 0)
  | 1 => .ok s (leBytes e t.fconst)
  | 2 => tensorRead s f l t (tensorAt t ((List.range 5).map fun k => min (x.getD k 0) (t.d.getD k 1 - 1))) e
  | _ => stopWith s .tmrRange

/-- The elements of a row of a window, each with its place in the box and its bytes as delivered: those in range are read together, in
the tensor's format, and every one is converted, but for the zeros outside. -/
def rowDelivered (f : FlueCtx) (l : FlueList) (t : Tmr) (dfmt : Nat) (s : State) (row : List (List Nat × List Nat × Bool)) :
    Turn (List (List Nat × List Byte)) :=
  let ins := row.filter fun q => q.2.2
  let out := row.filter fun q => !q.2.2
  let read : Turn (List Byte) := match ins with
    | [] => .ok s []
    | q :: _ => tensorRead s f l t (tensorAt t q.2.1) (elemBytes t.fmt * ins.length)
  read.andThen fun s bs => (turnAll (fun s q => outsideValue f l t s q.2.1) s out).andThen fun s os =>
    .ok s (((ins.map (·.1)).zip (elemsOf (elemBytes t.fmt) bs) ++ (out.map (·.1)).zip os).map fun p =>
      (p.1, if t.fill = 0 ∧ out.any (fun q => q.1 == p.1) then List.replicate (elemBytes dfmt) 0 else recoded t.fmt dfmt p.2))

/-! ### STREAM (R297, R303 to R309) -/

/-- The targets of a STREAM, from the fields OWN, MC, RBASE and MASK of c0: crews by identity, 0 for one that has exited. -/
def targetsOf (s : State) (l : FlueList) (c0 : W64) : Except Cause (List Nat) :=
  let rbase := bitsOf c0 18 8
  let mask := bitsOf c0 32 16
  match l.crew, c0.getLsbD 26, c0.getLsbD 17 with
  | none, _, _ => .error .clusterAddr
  | some (uid, _, _), true, mc => if mc ∨ rbase ≠ 0 ∨ mask ≠ 0 then .error .flueCmd else .ok [uid]
  | some (_, cl, ranks), false, mc =>
    if mc = (mask == 0) then .error .flueCmd
    else
      let named := if mc then ((List.range 16).filter fun i => mask.testBit i).map (rbase + ·) else [rbase]
      if named.all ranks.contains then .ok (named.map fun r => ((rankCrew s cl r).map (·.uid)).getD 0) else .error .mcastOutside

/-- A STREAM is decoded: its checks, then buffer CB of every target attaches to the context, once none of them is attached to
another (R304). -/
def streamDecoded (s : State) (k : Nat) (f : FlueCtx) (l : FlueList) (c : List W64) : Turn Unit :=
  let c0 := c.getD 0 0
  let cb := bitsOf c0 8 4
  match targetsOf s l c0 with
  | .error e => stopWith s e
  | .ok ts =>
    let noBuffer := ts.any fun u => (anyCrew s u).any fun c => decide (c.cbs.length ≤ cb)
    if noBuffer ∨ (c0.getLsbD 16 ∧ l.bars ≤ bitsOf c0 12 4) then stopWith s .flueCmd
    else (loadTmr s f l (bitsOf (c.getD 1 0) 0 54)).andThen fun s p =>
      let t := p.2
      let dfmt := if bitsOf c0 27 4 = 0 then t.fmt else bitsOf c0 27 4
      let first := (bitsOf (c.getD 2 0) 0 32 + (f.loops.map fun l => l.iter * l.step).sum % 2 ^ 32) % 2 ^ 32
      let n := bitsOf (c.getD 2 0) 32 32
      if !pairOk t.fmt dfmt ∨ n = 0 ∨ (tmrWindows t).prod < first + n ∨ ts.any (badFit s t (elemBytes dfmt) cb) then stopWith s .flueCmd
      else if ts.any fun u => (targetBuf s u cb).any fun b => b.flue.isSome && b.flue != some k then .wait s
      else
        let attach (s : State) (u : Nat) : State := modAnyCrew s u fun c =>
          { c with cbs := listMod c.cbs cb fun b => { b with flue := some k } }
        .ok (onFlue (ts.foldl attach s) k fun f =>
          { f with work := some { words := c, first := first, at_ := 0, total := n, tmr := p.1, targets := ts } }) ()

/-- A window reaches one target: its elements lie in the next slot of the buffer, by scratch_place under DBANK, which goes from FREE to
FILLED (R303, R305), and the bound barrier counts an arrival and the bytes off its PEND (R306). -/
def windowReaches (t : Tmr) (e cb : Nat) (els : List (List Nat × List Byte)) (s : State) (uid : Nat) : Turn Unit :=
  match (crewD s uid).cbs[cb]? with
  | none => .ok s ()
  | some b =>
    let runs := els.map fun p => (b.base + 16 * b.slot * b.pidx + slotAt t e p.1, p.2)
    let places := runs.flatMap fun r => (List.range r.2.length).map fun i => (scratchPlace (r.1 + i) t.dbank, 1)
    if partScratch s uid places then stopWith s .eccUeScratch
    else
      let put (s : State) (r : Nat × List Byte) : State :=
        r.2.zipIdx.foldl (fun s p => scratchWrite s uid (scratchPlace (r.1 + p.2) t.dbank) [p.1]) s
      let s := modCrew (runs.foldl put (coverScratch s uid places)) uid fun c => { c with
        cbs := listMod c.cbs cb fun b => { b with free := b.free - 1, filled := b.filled + 1, pidx := (b.pidx + 1) % b.depth } }
      match b.bind with
      | none => .ok s ()
      | some i => .ok (barrierNow s uid i fun r => barSettle { r with arr := r.arr + 1, pend := r.pend - (e * t.b.prod : Nat) }) ()

/-- A window that meets a fault writes nothing (R312). -/
def wholeWindow {α : Type} (s : State) (t : Turn α) : Turn α :=
  match t with
  | .stop _ h => .stop s h
  | .wait s' => .wait { s with fills := s'.fills, nextId := s'.nextId, flues := s'.flues, homeAsks := s'.homeAsks }
  | t => t

/-- The next window of a STREAM: once every target that has not exited has a free slot, its rows are read and reach each of them; a
target that has exited is passed over, with MCDROP in the status barrier under SBEN (R305 to R309). After the last window the buffers
detach (R304). -/
def windowDelivered (s : State) (k : Nat) (f : FlueCtx) (l : FlueList) (w : FlueWork) : Turn Unit :=
  let c0 := w.words.getD 0 0
  let cb := bitsOf c0 8 4
  match readTmr w.tmr with
  | .error c => stopWith s c
  | .ok t =>
    let dfmt := if bitsOf c0 27 4 = 0 then t.fmt else bitsOf c0 27 4
    let e := elemBytes dfmt
    let live := w.targets.filter fun u => (anyCrew s u).isSome
    if live.any (badFit s t e cb) then stopWith s .flueCmd
    else if live.any (isSaved s) then .susp
    else if live.any fun u => targetHeld s u cb then .wait s
    else (turnAll (rowDelivered f l t dfmt) s (windowRows t (w.first + w.at_))).andThen fun s rows =>
      (wholeWindow s (turnAll (windowReaches t e cb rows.flatten) s live)).andThen fun s _ =>
        let s := match l.crew with
          | some (uid, _, _) =>
            if c0.getLsbD 16 ∧ live.length < w.targets.length then
              modAnyCrew s uid fun c => { c with barriers := listMod c.barriers (bitsOf c0 12 4) fun r => { r with mcdrop := true } }
            else s
          | none => s
        let detach (c : Crew) : Crew := { c with cbs := c.cbs.map fun b => if b.flue = some k then { b with flue := none } else b }
        if w.at_ + 1 = w.total then .ok (nextCommand (mapCrews s detach) k) ()
        else .ok (onFlue s k fun f => { f with work := some { w with at_ := w.at_ + 1 } }) ()

/-! ### COPY, FILLV, STORE, GATHERROWS (R298) -/

/-- COPY: the next unit of at most 128 bytes, which ends where a line of the destination does, is read and written. -/
def copyUnit (s : State) (k : Nat) (f : FlueCtx) (l : FlueList) (c : List W64) : Turn Unit :=
  let src := bitsOf (c.getD 1 0) 0 54
  let dst := bitsOf (c.getD 2 0) 0 54
  let n := bitsOf (c.getD 3 0) 0 32
  let w := f.work.getD { words := c, first := 0, at_ := 0, total := n, tmr := [], targets := [] }
  let m := min (128 - (dst + w.at_) % 128) (n - w.at_)
  if n = 0 ∨ (src < dst + n ∧ dst < src + n) then stopWith s .flueCmd
  else match (if f.work.isSome then none else (flueSpan s f .load src n).or (flueSpan s f .store dst n)) with
    | some c => stopWith s c
    | none => (flueRead s f l (src + w.at_) m true).andThen fun s bs =>
        (flueWrite s f l (dst + w.at_) bs).andThen fun s _ => .ok (workDone s k w m) ()

/-- FILLV: the next unit of at most 128 bytes is written with copies of the low bytes of c2. -/
def fillUnit (s : State) (k : Nat) (f : FlueCtx) (l : FlueList) (c : List W64) : Turn Unit :=
  let size := bitsOf (c.getD 0 0) 8 3
  let e := 2 ^ size
  let dst := bitsOf (c.getD 1 0) 0 54
  let n := bitsOf (c.getD 3 0) 0 32
  let w := f.work.getD { words := c, first := 0, at_ := 0, total := n * e, tmr := [], targets := [] }
  let m := min (128 - (dst + w.at_) % 128) (n * e - w.at_)
  if 3 < size ∨ n = 0 then stopWith s .flueCmd
  else if dst % e ≠ 0 then stopWith s .align
  else match (if f.work.isSome then none else flueSpan s f .store dst (n * e)) with
    | some c => stopWith s c
    | none => (flueWrite s f l (dst + w.at_) (List.replicate (m / e) (leBytes e (c.getD 2 0).toNat)).flatten).andThen fun s _ =>
        .ok (workDone s k w m) ()

/-- The TMR of a command: read with its checks as the command starts, and kept while it is at work. -/
def commandTmr (s : State) (f : FlueCtx) (l : FlueList) (c : List W64) : Turn (List W64 × Tmr) :=
  match f.work with
  | some w => match readTmr w.tmr with
    | .ok t => .ok s (w.tmr, t)
    | .error e => stopWith s e
  | none => loadTmr s f l (bitsOf (c.getD 1 0) 0 54)

/-- A scratch address in a command, as an address of the scratch window. -/
def windowAddr (c3 : W64) : Nat := 0x3FFFFF * 2 ^ 32 + bitsOf c3 0 32

/-- STORE: the next window, row by row: each element in range is read from its place in the reference crew's scratch, converted and
written to the tensor; under FILL 3 an element out of range is TMR_RANGE. -/
def storeWindow (s : State) (k : Nat) (f : FlueCtx) (l : FlueList) (c : List W64) : Turn Unit :=
  (commandTmr s f l c).andThen fun s p =>
    let t := p.2
    let sfmt := if bitsOf (c.getD 0 0) 8 4 = 0 then t.fmt else bitsOf (c.getD 0 0) 8 4
    let e := elemBytes sfmt
    let first := (bitsOf (c.getD 2 0) 0 32 + (f.loops.map fun l => l.iter * l.step).sum % 2 ^ 32) % 2 ^ 32
    let n := bitsOf (c.getD 2 0) 32 32
    let w := f.work.getD { words := c, first := first, at_ := 0, total := n, tmr := p.1, targets := [] }
    if !pairOk sfmt t.fmt ∨ n = 0 ∨ (tmrWindows t).prod < first + n then stopWith s .flueCmd
    else if t.fill = 3 ∧ (windowElems t (w.first + w.at_)).any fun q => !q.2.2 then stopWith s .tmrRange
    else
      let fetch (s : State) (q : List Nat × List Nat × Bool) : Turn (List Byte) :=
        (windowLoc s l (windowAddr (c.getD 3 0)) (16 * bitsOf (c.getD 3 0) 32 32 * w.at_ + slotAt t e q.1) e).andThen fun s o =>
          (bankRead s o.1 o.2 e t.dbank).andThen fun s bs => .ok s (recoded sfmt t.fmt bs)
      let row (s : State) (els : List (List Nat × List Nat × Bool)) : Turn Unit :=
        match els.filter fun q => q.2.2 with
        | [] => .ok s ()
        | q :: qs => (turnAll fetch s (q :: qs)).andThen fun s vs => tensorWrite s f l t (tensorAt t q.2.1) vs.flatten
      (wholeWindow s (turnAll row s (windowRows t (w.first + w.at_)))).andThen fun s _ => .ok (workDone s k w 1) ()

/-- GATHERROWS: the next elements of the current row, at most 128 bytes of the tensor, are read from scratch, converted and written to
the row that the index list names; a row at or above d1 is skipped, or TMR_RANGE under FILL 3. -/
def gatherUnit (s : State) (k : Nat) (f : FlueCtx) (l : FlueList) (c : List W64) : Turn Unit :=
  (commandTmr s f l c).andThen fun s p =>
    let t := p.2
    let sfmt := if bitsOf (c.getD 0 0) 8 4 = 0 then t.fmt else bitsOf (c.getD 0 0) 8 4
    let e := elemBytes sfmt
    let list := bitsOf (c.getD 2 0) 0 54
    let rows := bitsOf (c.getD 3 0) 32 16
    let m := min (t.b.getD 0 1) (t.d.getD 0 1)
    let w := f.work.getD { words := c, first := 0, at_ := 0, total := rows * m, tmr := p.1, targets := [] }
    let j := w.at_ / m
    let i := w.at_ % m
    if !pairOk sfmt t.fmt ∨ rows = 0 ∨ t.rank < 2 then stopWith s .flueCmd
    else if list % 4 ≠ 0 then stopWith s .align
    else (flueRead s f l (list + 4 * j) 4).andThen fun s ib =>
      let r := leNat ib
      if t.d.getD 1 1 ≤ r then (if t.fill = 3 then stopWith s .tmrRange else .ok (workDone s k w (m - i)) ())
      else
        let va := tensorAt t [i, r]
        let n := min (m - i) ((128 - va % 128) / elemBytes t.fmt)
        match (if i = 0 ∧ !inScratchWindow t.base then flueSpan s f .store va (elemBytes t.fmt * m) else none) with
        | some c => stopWith s c
        | none => (windowLoc s l (windowAddr (c.getD 3 0)) (16 * t.pitch * j + e * i) (e * n)).andThen fun s o =>
            (bankRead s o.1 o.2 (e * n) 0).andThen fun s bs =>
              (tensorWrite s f l t va ((elemsOf e bs).flatMap (recoded sfmt t.fmt))).andThen fun s _ => .ok (workDone s k w n) ()

/-! ### Loops and the synchronising commands (R299, R300, R307) -/

/-- LOOP opens a level, of four at most. -/
def loopOpens (s : State) (k : Nat) (f : FlueCtx) (c : List W64) : Turn Unit :=
  let count := bitsOf (c.getD 1 0) 0 32
  if count = 0 ∨ 4 ≤ f.loops.length then stopWith s .flueCmd
  else .ok (onFlue s k fun f => { f with
    pos := f.pos + 1, work := none, binds := []
    loops := { start := f.pos + 1, count := count, step := bitsOf (c.getD 2 0) 0 32, iter := 0 } :: f.loops }) ()

/-- ENDLOOP goes back to the command after its LOOP, until COUNT iterations are done. -/
def loopCloses (s : State) (k : Nat) (f : FlueCtx) : Turn Unit :=
  match f.loops with
  | [] => stopWith s .flueCmd
  | l :: outer =>
    if l.iter + 1 < l.count then .ok (onFlue s k fun f => { f with pos := l.start, loops := { l with iter := l.iter + 1 } :: outer }) ()
    else .ok (onFlue s k fun f => { f with pos := f.pos + 1, loops := outer, work := none, binds := [] }) ()

/-- TLWAIT goes on once the timeline's counter has reached c1. -/
def timelineWaits (s : State) (k : Nat) (f : FlueCtx) (c : List W64) : Turn Unit :=
  match kvGet (ctxD s f.ctx).timelines (bitsOf (c.getD 0 0) 16 16) with
  | none => stopWith s .tlContext
  | some t => if (c.getD 1 0).toNat ≤ t.count then .ok (nextCommand s k) () else .wait s

/-- TLADV adds c1 to the counter of the context itself. -/
def timelineAdvances (s : State) (k : Nat) (f : FlueCtx) (c : List W64) : Turn Unit :=
  let n := (c.getD 1 0).toNat
  let now := ((kvGet (ctxD s f.ctx).timelines f.tl).map (·.count)).getD 0
  if 2 ^ 64 ≤ now + n then stopWith s .tlContext
  else .ok (nextCommand (modCtx s f.ctx fun x =>
    { x with timelines := kvMod x.timelines f.tl fun t => { t with count := t.count + n } }) k) ()

/-- EVSIG adds c1 to an event's count, saturating, and wakes the waiters that it meets; under CLR the count is 0. -/
def eventSignals (s : State) (k : Nat) (f : FlueCtx) (c : List W64) : Turn Unit :=
  match eventIdx s f.ctx (bitsOf (c.getD 0 0) 16 16) with
  | none => stopWith s .evRange
  | some i =>
    if (c.getD 0 0).getLsbD 8 then
      .ok (nextCommand { s with events := kvPut 0 s.events i 0, evStamps := kvDel s.evStamps i } k) ()
    else
      let n := min (2 ^ 32 - 1) (eventCount s i + bitsOf (c.getD 1 0) 0 32)
      .ok (nextCommand (wakeMet { s with events := kvPut 0 s.events i (BitVec.ofNat 32 n) } i) k) ()

/-- BARARR arrives once at the barrier of its target and takes its bytes off PEND; it waits while the barrier is uninitialised or ARR =
EXP. -/
def barrierArrives (s : State) (k : Nat) (l : FlueList) (c : List W64) : Turn Unit :=
  let c0 := c.getD 0 0
  let i := bitsOf c0 8 4
  let own := c0.getLsbD 26
  let rbase := bitsOf c0 18 8
  match l.crew with
  | none => stopWith s .clusterAddr
  | some (uid, cl, ranks) =>
    if own ∧ rbase ≠ 0 then stopWith s .flueCmd
    else if !own ∧ !ranks.contains rbase then stopWith s .mcastOutside
    else
      let u := if own then uid else ((rankCrew s cl rbase).map (·.uid)).getD 0
      match anyCrew s u with
      | none => .ok (nextCommand s k) ()
      | some t => match t.barriers[i]? with
        | none => stopWith s .flueCmd
        | some b =>
          let p := b.pend - (bitsOf (c.getD 1 0) 0 48 : Nat)
          if isSaved s u then .susp
          else if b.exp = 0 ∨ b.arr = b.exp then .wait (onFlue s k fun f => { f with binds := [(u, i)] })
          else if p < -(2 ^ 47 - 1) then stopWith s .flueCmd
          else .ok (nextCommand (barrierNow s u i fun b => barSettle { b with arr := b.arr + 1, pend := p }) k) ()

/-- END closes the list: the next one of the queue starts, and the Flue-list node that submitted it has nothing left. -/
def listEnds (s : State) (k : Nat) (f : FlueCtx) (l : FlueList) : Turn Unit :=
  if !f.loops.isEmpty then stopWith s .flueCmd
  else
    let s := match l.node with
      | some (run, n) => onNode s run n fun x => { x with open_ := 0 }
      | none => s
    .ok (onFlue s k fun f => { f with
      queue := f.queue.tail, pos := 0, loops := [], work := none, state := if f.queue.length ≤ 1 then 0 else 1 }) ()

/-! ### Commands -/

/-- What the current command of a context does in one turn (R290), its words read: a command that needs a reference crew stops with
CLUSTER_ADDR in a list without one (R294), one with an unnamed bit or an unknown opcode with FLUE_CMD (R296). -/
def commandDoes (s : State) (k : Nat) (f : FlueCtx) (l : FlueList) : Turn Unit :=
  (cmdWords s f l).andThen fun s c =>
    if l.crew.isNone ∧ needsCrew c then stopWith s .clusterAddr
    else if !cmdOk c then stopWith s .flueCmd
    else match bitsOf (c.getD 0 0) 0 8, f.work with
      | 0x01, some w => windowDelivered s k f l w
      | 0x01, none => streamDecoded s k f l c
      | 0x02, _ => copyUnit s k f l c
      | 0x03, _ => gatherUnit s k f l c
      | 0x04, _ => storeWindow s k f l c
      | 0x05, _ => fillUnit s k f l c
      | 0x06, _ => loopOpens s k f c
      | 0x07, _ => loopCloses s k f
      | 0x08, _ => timelineWaits s k f c
      | 0x09, _ => timelineAdvances s k f c
      | 0x0A, _ => eventSignals s k f c
      | 0x0B, _ => barrierArrives s k l c
      | _, _ => listEnds s k f l

/-- A RUNNING context whose current command the event names takes its turn: the command moves, the context stops with a cause, or it is
BLOCKED or SUSPENDED. -/
def flueGoes (k : Nat) (p : FlueCtx → Option Nat → Bool) : Option EventEffect := some fun s =>
  (kvGet s.flues k).bind fun f => f.queue.head?.bind fun l =>
    if f.state = 1 ∧ p f (flueOp s f) then
      some (match commandDoes { s with turns := kvSet s.turns f.engine k } k f l with
        | .ok s _ => onFlue s k fun f => { f with fillWait := [] }
        | .stop s h => flueStops s k h
        | .wait s => onFlue s k fun f => { f with state := 2 }
        | .susp => onFlue { s with turns := kvSet s.turns f.engine k } k fun f => { f with state := 4 })
    else none

/-! ### Splitter contexts (R409 to R417) -/

/-- A Splitter context changes. -/
def onSplit (s : State) (k : Nat) (f : SplitCtx → SplitCtx) : State := { s with splits := kvMod s.splits k f }

/-- The cut of one instance (R411 to R413): the groups whose error is at most τ while their parent's is above it, each replaced by its
nearest resident ancestor and dropped where an ancestor of it is there too; the output names their clusters, the requests the
clusters that were not resident on the way, both by cluster. -/
def instanceCut (f : SplitCtx) (u : List W64) (gr : CutGraph) (i : CutInst) : Cut (List (Nat × Nat × Nat) × List (Nat × Nat)) :=
  let tau := bitsOf (u.getD 4 0) 32 32
  let errs := gr.groups.map (projError (cutView u) i)
  let q (g : Nat) : Nat := pathError gr.groups (fun g => errs.getD g 0) 64 g
  let parent (g : Nat) : Option Nat := (gr.groups[g]?).bind (·.parent)
  let chosen := (List.range gr.groups.length).filter fun g =>
    f32Le (q g) tau && match parent g with
      | none => true
      | some p => f32Lt tau (q p)
  (cutAll (repOf f u gr 64) chosen).andThen fun rs =>
    let reps := (rs.map (·.1)).eraseDups
    let kept := reps.filter fun g => !hasAncestor gr.groups reps 64 g
    let out := kept.flatMap fun g =>
      ((gr.members.getD g []).zipIdx (((gr.groups[g]?).map (·.first)).getD 0)).map fun c => (c.2, c.1.pay, c.1.ntri)
    .ok (sortBy out fun a b => decide (a.1 ≤ b.1), sortBy (rs.flatMap (·.2)).eraseDups fun a b => decide (a.1 ≤ b.1))

/-- The records of a run, instance by instance (R414): an output record is INST, CLID, the payload's VA and NTRI, a request INST, CLID
and the page, as numbers of 128 bits. -/
def runLists (f : SplitCtx) (u : List W64) : Cut (List Nat × List Nat) :=
  let one (n : Nat) : Cut (List Nat × List Nat) :=
    (cutRead f ((u.getD 0 0).toNat + 64 * n) 64).andThen fun b =>
      let i := readInst b
      if 2 ^ 54 ≤ i.hva then .stop .pageAbsent
      else if i.hva % 64 ≠ 0 then .stop .align
      else (readGraph f i.hva).andThen fun gr => (instanceCut f u gr i).andThen fun r =>
        .ok (r.1.map fun c => n + 2 ^ 32 * c.1 + 2 ^ 64 * c.2.1 + 2 ^ 121 * c.2.2, r.2.map fun c => n + 2 ^ 32 * c.1 + 2 ^ 64 * c.2)
  (cutAll one (List.range (bitsOf (u.getD 1 0) 0 24))).andThen fun rs => .ok (rs.flatMap (·.1), rs.flatMap (·.2))

/-- What a run writes, in order (R415): the first OUTCAP output records, the first REQCAP requests, then the status with NOUT, NREQ and
the two overflow bits; CUT_DESC where the descriptor breaks Table 18-3. -/
def runWrites (f : SplitCtx) (j : SplitJob) : Cut (List (Nat × Nat)) :=
  let words : Cut (List W64) := match j.node with
    | some (_, _, w) => .ok (w.take 16)
    | none => (cutRead f j.va 128).andThen fun b => .ok (wordsOf b 16)
  words.andThen fun u =>
    if !descOk u then .stop .cutDesc
    else (runLists f u).andThen fun r =>
      let outcap := bitsOf (u.getD 8 0) 0 32
      let reqcap := bitsOf (u.getD 10 0) 0 32
      let nout := r.1.length
      let nreq := r.2.length
      let place (va : Nat) (rs : List Nat) : List (Nat × Nat) := rs.zipIdx.map fun p => (va + 16 * p.2, p.1)
      let status := nout % 2 ^ 32 + 2 ^ 32 * (nreq % 2 ^ 32) + (if outcap < nout then 2 ^ 64 else 0) + (if reqcap < nreq then 2 ^ 65 else 0)
      .ok (place (u.getD 7 0).toNat (r.1.take outcap) ++ place (u.getD 9 0).toNat (r.2.take reqcap) ++ [((u.getD 11 0).toNat, status)])

/-- A step of a run: it reads one of the input ranges that it needs, each byte once (R416); or writes its next record; or, after the
last one, adds 1 to the context's counter, and the next descriptor starts (R409, R415). -/
def runGoes (s : State) (k : Nat) (f : SplitCtx) (j : SplitJob) : Turn Unit :=
  match runWrites f j with
  | .stop c => stopWith s c
  | .need rs =>
    let ready := rs.filter fun r => match engineRead s (splitAgent f) r.1 r.2 with
      | .wait _ _ => false
      | _ => true
    let cand := if ready.isEmpty then rs else ready
    let (i, s) := freePick s cand.length
    let r := cand.getD i (0, 0)
    match engineRead s (splitAgent f) r.1 r.2 with
    | .wait s _ => .wait s
    | .bad s c g _ => .stop s (heldOf c g)
    | .ok s bs => .ok (onSplit s k fun g => { g with
        seen := bs.zipIdx.foldl (fun m p => if (kvGet m (r.1 + p.2)).isSome then m else kvSet m (r.1 + p.2) p.1) g.seen
        fillWait := [] }) ()
  | .ok ws => match ws[f.wrote]? with
    | some (va, v) => (match engineWrite s (splitAgent f) va (leBytes 16 v) with
      | .wait s _ => .wait s
      | .bad s c g _ => .stop s (heldOf c g)
      | .ok s _ => .ok (onSplit s k fun g => { g with wrote := g.wrote + 1 }) ())
    | none =>
      let s := match j.node with
        | some (run, n, _) => onNode s run n fun x => { x with open_ := 0 }
        | none => s
      let s := modCtx s f.ctx fun x => { x with timelines := kvMod x.timelines f.tl fun t => { t with count := t.count + 1 } }
      .ok (onSplit s k fun f => { f with
        queue := f.queue.tail, state := if f.queue.length ≤ 1 then 0 else 1, seen := [], wrote := 0, fillWait := [] }) ()

def flueEvents : Instr → Option EventEffect
  | .flueStream c => flueGoes c fun f o => o == some 1 && f.work.isNone
  | .flueWindowDelivery c => flueGoes c fun f o => o == some 1 && f.work.isSome
  | .flueCopy c => flueGoes c fun _ o => o == some 2
  | .flueGatherrows c => flueGoes c fun _ o => o == some 3
  | .flueStore c => flueGoes c fun _ o => o == some 4
  | .flueFillv c => flueGoes c fun _ o => o == some 5
  | .flueLoop c => flueGoes c fun _ o => o == some 6
  | .flueEndloop c => flueGoes c fun _ o => o == some 7
  | .flueTlwait c => flueGoes c fun _ o => o == some 8
  | .flueTladv c => flueGoes c fun _ o => o == some 9
  | .flueEvsig c => flueGoes c fun _ o => o == some 10
  | .flueBararr c => flueGoes c fun _ o => o == some 11
  | .flueEnd c => flueGoes c fun _ o => o == some 12
  | .flueCmdInvalid c => flueGoes c fun _ o => o.isNone
  | .flueContextResume c => some fun s => (kvGet s.flues c).bind fun f => f.queue.head?.bind fun l =>
      -- a BLOCKED context whose command can move runs again, and a SUSPENDED one whose target is restored
      let moves := match commandDoes s c f l with
        | .wait _ => f.state == 4
        | .susp => false
        | _ => true
      due ((f.state == 2 || f.state == 4) && moves) (onFlue s c fun f => { f with state := 1 })
  | .cutRun c => some fun s => (kvGet s.splits c).bind fun f => f.queue.head?.bind fun j =>
      let u := { s with turns := kvSet s.turns (64 + f.engine) c }
      if f.state = 1 ∨ f.state = 2 then some (match runGoes u c f j with
        | .ok s _ => onSplit s c fun f => { f with state := if f.queue.isEmpty then 0 else 1 }
        | .stop s h => onSplit s c fun f => { f with
            state := 3, cause := some h, causeAddr := j.va, seen := [], wrote := 0, fillWait := [] }
        | .wait s => onSplit s c fun f => { f with state := 2 }
        | .susp => u)
      else none
  | _ => none

end Sys2Proof.Machine
end

