-- ==== Sys2Proof/Safety/RulesUnits.lean ====
section
/-! DEFINITION. What the rules say of clusters that are placed, saved and restored (R248, R262, R268, R372 to R376, R443 to R445), of
the Hearth (R381 to R391), of contexts (R378, R440 to R442) and of the device as the host and the firmware see it (R446 to R452,
R486, R491 to R493). -/
namespace Sys2Proof.Machine
open Sys2Proof

/-! ### Clusters (R248, R256, R262, R268, R270, R372 to R376, R443 to R445) -/

/-- The fibres of a crew as it starts: of a kindling cluster the one kindling fibre; of a launch without seed all; of one whose seed
is at or below the crew level the leaders, as kindling fibres; above it all, stamped from the image of their group (R248, R256,
R257). Bytes that the raster front end gives stand in its scratch (R419). -/
def crewStarts (k : Cluster) (s : State) (p : Nat × Nat) : State :=
  let (rank, uid) := p
  let wid0 := firstWid k rank
  let all := crewFibreWids k.hdr wid0
  let s := if k.init.isEmpty then s else scratchWrite s uid 0 k.init
  if k.kindling then launchFibres s uid [(0, { wid := wid0, kindling := true })]
  else if hdrSeed k.hdr = 0 then launchFibres s uid (all.map fun f => (f.1, { wid := f.2 }))
  else if hdrSeed k.hdr ≤ hdrCrewLevel k.hdr then
    launchFibres s uid ((all.filter fun f => isLeader k.hdr f.2 (hdrSeed k.hdr)).map fun f => (f.1, { wid := f.2, kindling := true }))
  else match k.stampFrom.find? fun q => q.1 == rank with
    | none => s
    | some (_, img) =>
      let s := match kvGet s.images img with
        | some im => scratchWrite s uid im.offset im.scratch
        | none => s
      stampFibres s uid img all

/-- A placed fresh cluster is RESIDENT, with a free save slot of its context (R443), and its crews' fibres have started. -/
def clusterBegins (s : State) (k : Cluster) (cc : Nat) (crews : List (Nat × Nat)) : State :=
  let x := ctxD s k.ctx
  let slots := (List.range x.nsave).filter fun i => !x.saveHeld.contains i
  let (i, s) := freePick s slots.length
  let q := slots.getD i 0
  let s := modCtx s k.ctx fun x => { x with saveHeld := q :: x.saveHeld }
  reapImages (modCluster (crews.foldl (crewStarts k) s) k.id fun k => { k with
    state := .resident, cc := cc, saveSlot := q, liveCrews := crews.length, stampFrom := [], init := [], ranks := crews.map (·.1) })

/-- Cluster number `i` of a node leaves its queue and waits for placement under the class of its header. -/
def clusterWaits (s : State) (r : Run) (n : Nat) (x : NodeRun) (i : Nat) : State :=
  let s := modNode s r.id n fun x => { x with
    ready := queueDrop x.ready i, left := x.left - 1, open_ := x.open_ + 1, kindlings := keepGroups x.hdr x.kindlings i }
  addWaiting s r.id n r.ctx i x.readyAt x.hdr false (stampsOf x.hdr x.kindlings i) []

/-- Every running node with clusters to place and none that waits has its next one wait, but for a run that a fatal error has ended: kindling
clusters first (R257, R374, R462). -/
def nodesYield (s : State) : State :=
  s.runs.foldl (fun s r => r.nodes.foldl (fun s p =>
    if !r.dead ∧ p.2.state = .running ∧ !(p.2.kready.isEmpty && p.2.ready.isEmpty) ∧ !hasWaiting s r.id p.1 then
      match p.2.kready, p.2.ready with
      | (g, _) :: _, _ =>
        addWaiting (modNode s r.id p.1 fun x => { x with kready := queueDrop x.kready g, open_ := x.open_ + 1 })
          r.id p.1 r.ctx g p.2.readyAt p.2.hdr true [] []
      | [], (i, _) :: _ => clusterWaits s r p.1 p.2 i
      | [], [] => s
    else s) s) s

/-- A batch as its save keeps it: fibres, registers, window base, mode and pin, at the word where it starts again, with nothing in
flight; a batch pinned in the region of its GATHER is unpinned there (R254, R262). -/
def keptBatch (s : State) (b : Batch) : SavedBatch :=
  { ext := if holdsXSet s b then some b.xregs else none
    evicted := b.reacquire
    pinned := b.pin.isSome && b.gatherAt.isNone
    b := { b with
      pc := restartPC b, regionStart := restartPC b, newRegion := true, pin := if b.gatherAt.isSome then none else b.pin
      gatherAt := none, window := [], retbuf := [], owed := 0, loads := [], stores := [], storesOwed := 0, fillWait := [], ahead := []
      parked := false, block := none, trap := none, wake := 0 } }

/-- A cluster is saved (R262, R444): its pending tiles are dropped, its crews' lines and their cores' written back; the areas of its
crews and its header stand in its save slot (R443), and it waits with its crews, batches, sets and planes, PREEMPTS counted for every
batch whose region is discarded, while its crews leave their cores. A store of its own that is lost meanwhile is fatal first (R461). -/
def clusterSaved (s : State) (id : Nat) : State :=
  let mine := (s.batches.filter fun b => (clusterCrewsOf s id).any fun c => c.uid == b.crew).map (·.id)
  let s := mine.foldl (fun s b => landOwed (settleTrap s b) b) s
  match findCluster s id with
  | none => s
  | some k =>
    let crews := (clusterCrewsOf s id).map fun c => { c with
      tiles := c.tiles.map fun t => { t with pend := [], owner := none }
      areaW := c.waiting.length
      counters := kvPut 0 c.counters 7
        (min satMax (kvGetD c.counters 7 0 + s.batches.countP fun b => b.crew == c.uid && !b.newRegion)) }
    let cores := (crews.map (·.core)).eraseDups
    let s := cores.foldl (fun s c => drainCore s c 3 0xFF) (crews.foldl saveFibreLocal s)
    if s.posted.any fun p => crews.any fun c => c.uid == p.2.1 then s
    else
      let parts (c : Crew) : List SavedBatch :=
        (sortBy (s.batches.filter fun b => b.crew == c.uid) fun a b => decide (a.row ≤ b.row)).map (keptBatch s)
      let areas := crews.map fun c => (c, crewArea s c (cores.findIdx fun r => r == c.core) (parts c))
      let offs := (areas.foldl (fun (st : List (Nat × Nat) × Nat) a => (st.1 ++ [(a.1.rank, st.2)], st.2 + a.2.length)) ([], 0x1000)).1
      let planes := cores.map fun c => clusterPlanes s id c
      let count := if k.kindling then 1 else clusterCrews k.hdr
      let head := layout ([(0, leBytes 8 (1 + 2 ^ 8 * (count - 1) + 2 ^ 16 * cores.length + 2 ^ 32 * (k.saves + 1)))] ++
        (planes.zipIdx.map fun p => (0x40 + 288 * p.2, planeDesc s p.1.1 none ++ planeDesc s p.1.2.1 p.1.2.2)) ++
        ((List.range 256).map fun r => (0xA00 + 4 * r, leBytes 4 ((kvGetD offs r 0) / 128)))) 0x1000
      let base := (ctxD s k.ctx).savepa + 4096 * (ctxD s k.ctx).savesz * k.saveSlot
      let s := homeWrite ((areas.zip offs).foldl (fun s a => homeWrite s (base + a.2.2) a.1.2) s) base head
      let kept := crews.flatMap fun c => (parts c).map (·.b)
      let sets := crews.flatMap fun c => (s.xsets.filter fun x => x.crew == c.uid).map (relativeSet c)
      let s := modCluster s id fun k => { k with
        state := .saved, age := s.clock, eff := k.cls, saves := k.saves + 1
        savedCrews := crews, savedBatches := kept, savedSets := sets, savedPlanes := (List.range cores.length).zip planes }
      crews.foldl (fun s c => unbindArray (let s := dropCrewWork s c; { s with crews := s.crews.filter fun d => d.uid ≠ c.uid }) c.core) s

/-- A batch as its image restores it (R54, R445): RPC, LIVE, WB, the predicates and the register values are those of the image, in the
shapes of the device's own copy, of which all else is; a lane that LIVE adds holds the fibre of its place. -/
def backFrom (s : State) (c : Crew) (sb : SavedBatch) (bs : List Byte) : SavedBatch :=
  let live := lanesOf (BitVec.ofNat 32 (numAt bs 8 4))
  let fibre (l : Nat) : Nat × Fibre :=
    let f := if (liveLanes sb.b).contains l then fibreOf sb.b l
      else { wid := (placeWid c.hdr c.wid0 sb.b.row l).getD (rowWid c.hdr c.wid0 sb.b.row) }
    (l, { f with pw := BitVec.ofNat 32 (numAt bs (0x80 + 4 * l) 4) })
  let vals := regsFrom live (savedRegs sb) (bs.drop 0x180)
  let kat := 0x180 + (valueBytes sb).length
  let pc := BitVec.ofNat 54 (numAt bs 0 8 / 8 * 8)
  { sb with
    b := { sb.b with
      fibres := live.map fibre, pc := pc, regionStart := pc, wb := numAt bs 12 2 % 512 / 8 * 8
      regs := vals.take sb.b.regs.length
      xregs := if sb.ext.isSome then vals.drop sb.b.regs.length else sb.b.xregs
      kregs := if sb.b.priv then
          (List.range 32).map fun i => retag live (laneList fun l => BitVec.ofNat 32 (numAt bs (kat + 128 * i + 4 * l) 4))
        else sb.b.kregs
      wake := s.clock, lastIssue := s.clock } }

/-- A crew's area read back: its tiles, its scratch and the images of its batches. -/
def areaRead (s : State) (k : Cluster) (c : Crew) (at_ : Nat) : Crew × List SavedBatch :=
  let rd (off n : Nat) : List Byte := homeRead s (at_ + off) n
  let tile (t : Tile × Nat) : Tile := { t.1 with
    com := (List.range 512).foldl (fun m j => kvPut 0 m j (BitVec.ofNat 32 (numAt (rd (areaTiles c + 2048 * t.2) 2048) (4 * j) 4))) [] }
  let cells := (List.range c.scratchBytes).foldl (fun m i => kvPut 0 m i ((rd (areaScratch c + i) 1).headD 0)) []
  let own := (k.savedBatches.filter fun b => b.crew == c.uid).map (ownSaved k)
  ({ c with tiles := c.tiles.zipIdx.map tile, scratch := cells },
    (own.foldl (fun st sb => (st.1 ++ [backFrom s c sb (rd st.2 (imageLen sb))], st.2 + imageLen sb)) ([], areaImages c)).1)

/-- A saved cluster is RESIDENT in the places found for its crews (R444): each of its cores acquires at SYSTEM scope and gives up the
lines that no acquire makes stale, its crews have their tiles, scratch, sets and planes again, its batches join their slots to start
their regions again, and members whose image exists by now are stamped (R258). -/
def clusterRestored (s : State) (k : Cluster) (placed : State) (cores : List (Nat × Nat)) (cc : Nat) : State :=
  let base := (ctxD s k.ctx).savepa + 4096 * (ctxD s k.ctx).savesz * k.saveSlot
  let uids := k.savedCrews.map (·.uid)
  let got := (k.savedCrews.foldl (fun (st : List (Crew × List SavedBatch) × Nat) c =>
    (st.1 ++ [areaRead s k c st.2], st.2 + savedSize k c)) ([], base + 0x1000)).1
  let s := cores.foldl (fun s r => dropLasting (acquireBump s r.2 3) r.2) placed
  let s := got.foldl (fun s g => modCrew s g.1.uid fun c => { c with tiles := g.1.tiles, scratch := g.1.scratch }) s
  let sets := k.savedSets.map fun x => restoredSet (crewD s x.crew) x
  let s := { s with xsets := (s.xsets.filter fun x => !uids.contains x.crew) ++ sets }
  let join (s : State) (sb : SavedBatch) : State :=
    let c := crewD s sb.b.crew
    if sb.b.fibres.isEmpty then s
    else { s with
      nextId := s.nextId + 1
      batches := s.batches ++ [{ sb.b with id := s.nextId, core := c.core, slot := c.slots.getD sb.b.row 0, restored := true }] }
  let s := (got.flatMap (·.2)).foldl join (cores.foldl (joinPlanes k) s)
  let s := modCluster s k.id fun k => { k with
    state := .resident, cc := cc, savedCrews := [], savedBatches := [], savedSets := [], savedPlanes := [] }
  reapImages (uids.foldl exitIfEmpty (uids.foldl stampAtRestore s))

def placeEvents : Instr → Option EventEffect
  | .preemptCluster cl => some fun s => (findCluster s cl).bind fun k => due (preemptDue s k)
      (match clusterUE s cl with
      | some (c, uid) => fatalError (countUE s (crewD s uid).core c) k.ctx uid c.code
      | none => clusterSaved s cl)
  | .clusterRestore => some fun s => if needsYield s ∨ s.clusters.any (agingDue s) then none else match nextPlace s with
      | some (k, cc, .back p cores) => due (allConverted (.back p cores) cc) (clusterRestored s k p cores cc)
      | _ => none
  | .clusterPlace => some fun s => if needsYield s then some (nodesYield s)
      else if s.clusters.any (agingDue s) then none
      else match nextPlace s with
        | some (k, cc, .fresh p crews) => due (allConverted (.fresh p crews) cc) (clusterBegins p k cc crews)
        | some _ => none
        | none => (smallerReady s).map fun q => clusterWaits s q.1 q.2.1 q.2.2.1 q.2.2.2
  | .classAging cl => some fun s => (findCluster s cl).bind fun k => due (agingDue s k)
      (modCluster s cl fun k => { k with eff := k.eff + 1 })
  | .slabConvert core => some fun s => due (convertDue s core)
      (modCore (shedLines s core) core fun k => { k with scratchSlabs := k.scratchSlabs + 1 })
  | .slabReturn core => some fun s => due (returnDue s core) (modCore s core fun k => { k with scratchSlabs := k.scratchSlabs - 1 })
  | .pipelineReassign run n => some fun s => match (findRun s run).bind fun r => (kvGet r.nodes n).bind fun x => pipeAdmit s r n x with
      | some ((j, m), k, cc, .fresh p crews) =>
        let uids := crews.map (·.2)
        let q := if j = 0 then p else uids.foldl (fun s u => acquireBump s (crewD s u).core 2) p
        due (allConverted (.fresh p crews) cc)
          (modNode (uids.foldl (fun s u => modCrew s u fun c => { c with items := some (j, m) }) (clusterBegins q k cc crews)) run n
            fun x => { x with
              open_ := x.open_ + 1
              pipe := x.pipe.map fun p => { p with
                claimed := listMod p.claimed j fun c => c + m, busy := p.busy ++ [(j, p.claimed.getD j 0)] } })
      | _ => none
  | _ => none

/-! ### Hearth (R381 to R391) -/

/-- VALID = 0 ends a generator (R381): its FAILED records are free, its QUEUED ones end FAILED with cause 0xFF and code 0xFFFE, their
accesses take FILL_FAILED, and each counts in FAILS and as a sample of its latency. -/
def generatorEnds (s : State) (g : Nat) : State :=
  let s := { s with fills := s.fills.filter fun (r : Fill) => !(r.gen == g && r.state == FillState.failed) }
  (s.fills.filter fun (r : Fill) => r.gen == g && r.state == .queued).foldl (fun s r =>
    let s := match findFill s r.id with
      | none => s
      | some f =>
        let f := { f with state := .failed, cause := 0xFF, code := 0xFFFE, put := [] }
        endParks { s with fills := s.fills.map fun q => if q.id = r.id then f else q } r.id fun p => some { p with failed := some f }
    let w := (genWord s g 2).toNat
    let s := setGenWord s g 2 (BitVec.ofNat 64 (w % 2 ^ 32 + 2 ^ 32 * min (2 ^ 32 - 1) (w / 2 ^ 32 + 1)))
    monSample s 1 r.ctx (s.clock - r.born)) s

/-- GEN of a generator goes up by one (R398): the lines of older generations are gone, from the victim store too where GEN comes round
to 0; QUEUED records take the new one, RUNNING ones are stale, FAILED ones are free. -/
def generationAdvances (s : State) (g : Nat) : State :=
  let w := (genWord s g 2).toNat
  let n := (w + 1) % 2 ^ 32
  let s := setGenWord s g 2 (BitVec.ofNat 64 (w / 2 ^ 32 * 2 ^ 32 + n))
  { s with
    genLines := s.genLines.filter fun l => l.gen ≠ g
    victims := if n = 0 then s.victims.filter fun v => v.2.gen ≠ g else s.victims
    fills := s.fills.filterMap fun r => if r.gen = g then
        match r.state with
        | .queued => some { r with ggen := n }
        | .running => some { r with stale := true }
        | .failed => none
      else some r }

/-- t1 of an entry as a write leaves it: VALID and ERR as the checks give them, the rest as written. -/
def entryLeft (t1 : W64) (valid : Bool) (err : Nat) : W64 :=
  BitVec.ofNat 64 (bitsOf t1 0 10 + (if valid then 2 ^ 10 else 0) + 2 ^ 11 * bitsOf t1 11 5 + 2 ^ 16 * err + 2 ^ 24 * bitsOf t1 24 40)

/-- A write of t1 with VALID = 1 (R381, R388): refused with the code of Table 17-7 in ERR, which ends a generator that stood there, or
accepted with the header that the Hearth reads. An entry accepted again advances GEN, and its QUEUED records take its context and unit.
A read of the header that cannot be performed yet keeps the write due. -/
def entrySubmitted (s : State) (i : Nat) (t1 : W64) : State :=
  match entryCode s i t1 with
  | .wait u _ => { u with agenda := .genEntrySubmit i t1 :: u.agenda }
  | .bad u _ _ _ => u
  | .ok u (err, h) =>
    let u := modParks u (.other 2) fun _ => []
    if err ≠ 0 then
      let u := setGenWord u i 1 (entryLeft t1 false err)
      if (genWord s i 1).getLsbD 10 then generatorEnds u i else u
    else
      let v := setGenWord { u with genHdrs := kvSet u.genHdrs i h } i 1 (entryLeft t1 true 0)
      if (kvGet u.genHdrs i).isSome then
        let v := generationAdvances v i
        let n := genUnitBytes v i
        { v with fills := v.fills.filterMap fun r => if r.gen = i then
            if r.state = .queued then
              -- the unit that holds the old one's first byte, whose index goes down with it
              some { r with
                ctx := bitsOf (genWord v i 1) 4 6, bytes := n, unit := r.unit / n * n, idx := (r.idx + 2 ^ 38 - r.unit % n) % 2 ^ 38 }
            else some r
          else some r }
      else v

/-- A fill task starts on a core (R271, R387, R388): its half of slab 3 leaves the L1, its crew has scratch and tiles of zeros, in slot
29 + d, after an acquire at DEVICE scope that synchronises with what the generator's entry has released; its record runs from now. -/
def fillStarts (s : State) (core : Nat) (f : Fill) : State :=
  let h := kvGetD s.genHdrs f.gen []
  let s := shedLines s core
  let uid := s.nextId
  let (id, s) := takeId { s with nextId := uid + 1 } f.ctx
  let s := modCore s core fun k => { k with half30 := k.half30 || f.depth == 1, half31 := k.half31 || f.depth == 2 }
  let c : Crew := {
    uid := uid, id := id, ctx := f.ctx, cluster := 0, rank := 0, core := core, hdr := h
    slots := [29 + f.depth], scratchBytes := hdrScratch h, tiles := List.replicate (hdrAcc h) {}, fill := some f.id
    wid0 := widOf h [0] }
  let s := acquireStamp (acquireBump { s with crews := s.crews ++ [c] } core 2) uid 2 false (kvGet s.genStamps f.gen)
  let s := { s with fills := s.fills.map fun r =>
    if r.id = f.id then { r with state := .running, core := core, crew := uid, start := s.clock } else r }
  launchFibres s uid ((crewFibreWids h c.wid0).map fun p => (p.1, { wid := p.2 }))

/-- A write of t1 with VALID = 0. -/
def entryInvalidated (s : State) (i : Nat) (t1 : W64) : State :=
  let u := setGenWord s i 1 (entryLeft t1 false (bitsOf (genWord s i 1) 16 8))
  if (genWord s i 1).getLsbD 10 then generatorEnds u i else u

/-- A write of VSCFG, or of VSBASE, empties the victim store (R383). -/
def victimStoreSet (s : State) (cfg : Bool) (v : W64) : State :=
  if cfg then { s with victims := [], vsRot := [], vsCfg := if bitsOf v 0 5 < 24 then bitsOf v 0 5 else 0 }
  else { s with victims := [], vsRot := [], vsBase := bitsOf v 12 38 * 4096 }

def hearthEvents : Instr → Option EventEffect
  | .fillPlace depth core => some fun s => (nextFill s depth).bind fun f =>
      due (decide (core < s.cores.length) && fillFits s core f) (fillStarts s core f)
  | .fillTimeout r => some fun s => (findFill s r).bind fun f =>
      due (f.state == .running && decide (f.start + 1900000 ≤ s.clock)) (fillFailed s r 0x43 0)
  | .genEntrySubmit i t1 => some fun s => due (decide (i < 4096) && !s.ident.recov) (entrySubmitted s i t1)
  | .genEntryInvalidate i t1 => some fun s => due (decide (i < 4096) && !s.ident.recov) (entryInvalidated s i t1)
  | .victimStoreConfig cfg v => some fun s => due (!s.ident.recov) (victimStoreSet s cfg v)
  | _ => none

/-! ### Contexts (R378, R440 to R442) -/

/-- CMDERR of a slot is set. -/
def cmdRefused (s : State) (c : Nat) : State := modCtx s c fun k => { k with cmderr := true }

/-- The timeline of entry j of a context's record (R442): none where its kind is 0, a reserved bit is set, the timeline exists, or its
engine does not exist or has 16 contexts; one of kind 2 or 3 has an engine context of its own. -/
def entryMade (s : State) (c j : Nat) (e : W64) : Option State :=
  let kind := bitsOf e 0 2
  let eng := bitsOf e 8 6
  if kind = 0 ∨ e.toNat &&& 0x3F0F ≠ e.toNat ∨ (kvGet (ctxD s c).timelines j).isSome ∨ (kind = 3 ∧ 2 ≤ eng) ∨
      (kind = 2 ∧ 16 ≤ s.flues.countP fun f => f.2.engine == eng) ∨ (kind = 3 ∧ 16 ≤ s.splits.countP fun f => f.2.engine == eng) then none
  else
    let s := modCtx s c fun k => { k with timelines := kvSet k.timelines j ⟨kind, bitsOf e 2 2, eng, 0⟩ }
    some { s with
      flues := if kind = 2 then kvSet s.flues (tlKey c j) { ctx := c, tl := j, engine := eng } else s.flues
      splits := if kind = 3 then kvSet s.splits (tlKey c j) { ctx := c, tl := j, engine := eng } else s.splits }

/-- Entry j of a context's record. -/
def timelineEntry (s : State) (c j : Nat) : W64 := BitVec.ofNat 64 (homeNat s ((ctxD s c).recPA + 0x800 + 8 * j) 8)

/-- The six fields that a context reads from its record at CREATE and at RESUME (Table 19-5). -/
def sixRead (s : State) (c : Nat) : State :=
  let x (i : Nat) : W64 := BitVec.ofNat 64 (recWord s c i)
  modCtx s c fun k => { k with
    ptroot := keepPtroot (x 0), tvec := keepTvec (x 1), evovfb := keepEvovfb (x 3), evovfn := bitsOf (x 4) 0 24
    wdog := (x 4).extractLsb' 32 32, dbgctl := (x 5).extractLsb' 0 32 &&& 1 }

/-- CREATE (R440 to R442): once the device is READY, with a record of 4 KiB in GDDR 7 whose reserved bits are zero, the slot is
RESIDENT with the record's fields, the events of its range are zero, and its timelines are made; an entry that cannot be sets CMDERR. -/
def contextMade (s : State) (c : Nat) : State :=
  let k := ctxD s c
  let x (i : Nat) : W64 := BitVec.ofNat 64 (recWord s c i)
  if !s.ident.ready ∨ k.recPA % 4096 ≠ 0 ∨ paKind k.recPA ≠ .gddr ∨ bitsOf (x 2) 33 31 ≠ 0 ∨ recWord s c 4 / 2 ^ 24 % 2 ^ 8 ≠ 0 then
    cmdRefused s c
  else
    let s := modCtx { s with xpair := s.xpair.filter fun p => p.1 / 8 ≠ c } c fun k => {
      state := .resident, cmderr := k.cmderr, cmd := k.cmd, recPA := k.recPA, evrange := (x 2).extractLsb' 0 32, sys := (x 2).getLsbD 32
      savepa := bitsOf (x 6) 12 38 * 4096, nsave := bitsOf (x 7) 0 16, savesz := bitsOf (x 7) 16 20 }
    let s := sixRead s c
    let r := (ctxD s c).evrange.toNat
    let mine (p : Nat × W32) : Bool := decide (r % 65536 ≤ p.1) && decide (p.1 < r % 65536 + r / 65536 + 1)
    let s := { s with
      events := s.events.filter fun p => !mine p
      evStamps := s.evStamps.filter fun p => !mine (p.1, 0) }
    (List.range 256).foldl (fun s j =>
      if timelineEntry s c j = 0 then s else (entryMade s c j (timelineEntry s c j)).getD (cmdRefused s c)) s

/-- RESUME (R441, R463): refused while the die has not cooled since a trip; else the six fields are read, FATAL is 0 and the slot is
RESIDENT. -/
def contextResumed (s : State) (c : Nat) : State :=
  if s.power.tripped then cmdRefused s c
  else modCtx (recField (sixRead s c) c 8 3 1 0) c fun k => { k with state := .resident }

/-- DESTROY (R378, Table 19-4, Table 17-4): its waits, runs, clusters, engine contexts, queued fills, generated lines, timelines and
triggers end; a run that had begun ends FAILED with 0xFD. Its running fills end later. -/
def contextDestroyed (s : State) (c : Nat) : State :=
  let s := dropWaiters s fun w => w.ctx == c
  let s := (s.runs.filter fun r => r.ctx = c).foldl (fun s r => if r.failed then s else graphIs s r.graph 3 0xFD 0) s
  let s := { s with runs := s.runs.filter fun r => r.ctx ≠ c }
  let s := ((ctxD s c).trigQ.filter (·.begun)).foldl (fun s t => graphIs s (bitsOf t.word 0 16) 3 0xFD 0) s
  let s := ((s.clusters.filter fun k => k.ctx == c).map (·.id)).foldl (fun s id =>
    reapImages (endCluster (((s.crews.filter fun d => d.cluster = id).map (·.uid)).foldl removeCrew s) id)) s
  let s := (s.fills.filter fun f => f.ctx == c && f.state == .queued).foldl (fun s f => monSample s 1 c (s.clock - f.born)) s
  modCtx { s with
    flues := s.flues.filter fun f => f.2.ctx ≠ c
    splits := s.splits.filter fun f => f.2.ctx ≠ c
    fills := s.fills.filter fun f => f.ctx ≠ c ∨ f.state = .running
    genLines := s.genLines.filter fun l => l.ctx ≠ c
    victims := s.victims.filter fun v => v.2.ctx ≠ c } c fun k => { k with state := .destroying, timelines := [], trigQ := [] }

/-- The six fields are in the record again at the end of a halt (Table 19-5). -/
def sixWritten (s : State) (c : Nat) : State :=
  let k := ctxD s c
  let s := homeWriteNat s (recWordPA s c 0) 8 k.ptroot.toNat
  let s := homeWriteNat s (recWordPA s c 1) 8 k.tvec.toNat
  let s := homeWriteNat s (recWordPA s c 3) 8 k.evovfb.toNat
  recField (recField (recField s c 4 0 24 k.evovfn) c 4 32 32 k.wdog.toNat) c 5 0 32 k.dbgctl.toNat

/-- A context that may be destroyed and given timelines: RESIDENT, HALTING or HALTED. -/
def contextLives (s : State) (c : Nat) : Bool :=
  (ctxD s c).state == .resident || (ctxD s c).state == .halting || (ctxD s c).state == .halted

/-- A write of CMD (Table 19-4): the slot keeps what was written, and the command has its effect where the slot's state permits it,
else sets CMDERR. -/
def commanded (s : State) (c : Nat) (v : W64) : State :=
  let s := modCtx s c fun k => { k with cmd := v }
  match bitsOf v 0 3 with
  | 1 => if (ctxD s c).state = .free then contextMade s c else cmdRefused s c
  | 2 => if (ctxD s c).state = .resident then modCtx s c fun k => { k with state := .halting } else cmdRefused s c
  | 3 => if (ctxD s c).state = .halted then contextResumed s c else cmdRefused s c
  | 4 => if contextLives s c then contextDestroyed s c else cmdRefused s c
  | 5 =>
    let j := bitsOf v 8 8
    if contextLives s c then (entryMade s c j (timelineEntry s c j)).getD (cmdRefused s c) else cmdRefused s c
  | _ => cmdRefused s c

/-- The host writes CMD; a device in recovery takes no write (R491). -/
def onCommand (c : Nat) (v : W64) : Option EventEffect := some fun s => due (decide (c < 64) && !s.ident.recov) (commanded s c v)

def contextEvents : Instr → Option EventEffect
  | .ctxCreate c => onCommand c 1
  | .ctxHalt c => onCommand c 2
  | .ctxResume c => onCommand c 3
  | .ctxDestroy c => onCommand c 4
  | .ctxTlset c id => onCommand c (BitVec.ofNat 64 (5 + 256 * (id % 256)))
  | .ctxCmdInvalid c code => some fun s =>
      if c < 64 ∧ s.ident.recov = false ∧ code % 8 ∈ [0, 6, 7] then some (commanded s c (BitVec.ofNat 64 (code % 8))) else none
  | .cmderrClear c => some fun s => due (!s.ident.recov) (modCtx s c fun k => { k with cmderr := false })
  | .ctxHalted c => some fun s =>
      due ((ctxD s c).state == .halting && !(s.clusters.any fun k => k.ctx == c && k.state == .resident))
        (modCtx (sixWritten s c) c fun k => { k with state := .halted })
  | .ctxFreed c => some fun s => due ((ctxD s c).state == .destroying && !(s.fills.any fun f => f.ctx == c))
      (modCtx { s with
          cores := s.cores.map fun k => { k with
            utlb := k.utlb.filter fun t => t.ctx ≠ c, ptes := k.ptes.filter fun t => t.ctx ≠ c }
          xpair := s.xpair.filter fun p => p.1 / 8 ≠ c } c fun k => { cmderr := k.cmderr, cmd := k.cmd, recPA := k.recPA })
  | _ => none

/-! ### Registers, reset and power (R8, R446, R491, R493) -/

/-- A host write of an identity, health or power register, under its mask and clamp (Tables 19-12 and 24-2). -/
def identWritten (s : State) (off : Nat) (v : W64) : State :=
  if 0x100 ≤ off ∧ off < 0x140 then { s with ident := { s.ident with nonce := kvPut 0 s.ident.nonce ((off - 0x100) / 8) v } }
  else if off = 0x140 then { s with ident := { s.ident with reppa := v &&& 0x0003FFFFFFFFFE00 } }
  else if off = 0x148 then { s with ident := { s.ident with attgo := s.ident.attgo || v.getLsbD 0 } }
  else if off = 0x8000 then { s with power := { s.power with budget := max 100 (min 540 (bitsOf v 0 16)) } }
  else if off = 0x8018 then
    { s with power := { s.power with gdcore := bitsOf v 0 8, gdcache := bitsOf v 8 8, gdtier := bitsOf v 16 16 } }
  else s

/-- A host write of a word of the graph store (R363, Table 16-4): g1, and the entry of a RUNNING graph, take no write. -/
def graphStoreWritten (s : State) (k : Nat) (v : W64) : State :=
  if 0x20000 ≤ k then { s with nodeStore := kvPut 0 s.nodeStore (k - 0x20000) v }
  else if k % 2 = 1 ∨ bitsOf (graphWord s (k / 2) 1) 0 2 = 1 then s
  else { s with graphTab := kvPut 0 s.graphTab k v }

/-- A host write of a scan-out register (R450): SURF waits for the next vertical blanking, as do control, timing and pitch while EN =
1; else the mode is judged at once. -/
def outputWritten (s : State) (o off : Nat) (v : W64) : State :=
  let v := v &&& outMask off
  let waits (s : State) : State := modOut s o fun p => { p with pending := kvSet p.pending off v }
  if off = 0x48 then setOutReg s o 0x48 (outReg s o 0x48 &&& ~~~(v &&& 0xC))
  else if off = 0x20 then waits s
  else if [0x00, 0x08, 0x10, 0x18, 0x28].contains off then
    if (outReg s o 0x00).getLsbD 0 then waits s else judgeMode (setOutReg s o off v) o
  else setOutReg s o off v

/-- A host write of the trigger register (R366). -/
def triggerWritten (s : State) (v : W64) : State :=
  let c := bitsOf v 16 6
  let q := (ctxD s c).trigQ
  if !contextLives s c then s
  else if q.length < 64 then
    modCtx s c fun k => { k with trigQ := queuedTrigger q ⟨v, 0, 0, graphRealtime s (bitsOf v 0 16), false⟩ }
  else recordFlag s c 1

/-- A host write of 8 bytes of the register space (R446): by the tables, its offset is a register that takes the write, or it is lost. -/
def registerWritten (s : State) (off : Nat) (v : W64) : State :=
  let c := (off - 0x10000) / 64
  let g := (off - 0x30000) / 32
  let o := (off - 0x60000) / 0x100
  if off < 0x10000 then identWritten s off v
  else if off < 0x11000 then
    if off % 64 = 0 then modCtx s c fun k => { k with recPA := bitsOf v 0 50 }
    else if off % 64 = 8 then commanded s c v
    else if off % 64 = 16 ∧ v.getLsbD 3 then modCtx s c fun k => { k with cmderr := false }
    else s
  else if off = 0x20000 then triggerWritten s v
  else if 0x30000 ≤ off ∧ off < 0x50000 then
    if off % 32 = 8 then (if v.getLsbD 10 then entrySubmitted s g v else entryInvalidated s g v)
    else if off % 32 = 16 then s
    else setGenWord s g (off % 32 / 8) v
  else if off = 0x50000 then victimStoreSet s false v
  else if off = 0x50008 then victimStoreSet s true v
  else if 0x51000 ≤ off ∧ off < 0x52000 then { s with xpair := kvPut 0 s.xpair ((off - 0x51000) / 8) (v &&& 0x1FF) }
  else if 0x60000 ≤ off ∧ off < 0x60400 then (if off % 0x100 ≤ 0x48 then outputWritten s o (off % 0x100) v else s)
  else if 0x400000 ≤ off ∧ off < 0x800000 then graphStoreWritten s ((off - 0x400000) / 8) v
  else s

/-- What is left of the machine when power goes (R8, R479, R483, R491): the bank and pad maps, the trip thresholds, the rollback number
and the stored image, and the bytes of the host and of peers. The model's own counters and inputs stay. -/
def powerGone (s : State) : State :=
  let others (pa : Nat) : Bool := match paKind pa with
    | .host => true
    | .peer _ => true
    | _ => false
  { State.reset with
    mem := s.mem.filter fun p => others p.1
    bankDead := s.bankDead, padsBad := s.padsBad
    power := { ttrip := s.power.ttrip, tresume := s.power.tresume }
    ident := { rollback := s.ident.rollback, image := s.ident.image }
    agenda := s.agenda, free := s.free, nextId := s.nextId }

/-- Training of a Cordlink (step 5 of R493): a peer is there with 1 to 8 lanes, or the link is DOWN with none. -/
def linkTrained (s : State) (k : Nat) : State :=
  let (up, s) := freeBool s
  let (n, s) := freePick s 8
  let lanes := if up then n + 1 else 0
  let s := setLinkState s k (if up then 2 else 0)
  { s with ident := if k = 0 then { s.ident with lanes0 := lanes } else { s.ident with lanes1 := lanes } }

/-- Bring-up with an accepted image (R493): memory is trained, the reserved range zero and other device bytes free values (log 14); the
pads that fail leave the map, and firmware's repair returns banks (log 86); the Kiln has its size, the victim store and the monitors
are empty, the image's numbers are in the identity block, the links are trained, and READY is 1. -/
def broughtUp (s : State) (img : List Byte) : State :=
  let s := s.mem.foldl (fun s p => match paKind p.1 with
    | .host => s
    | .peer _ => s
    | .reserved => { s with mem := kvDel s.mem p.1 }
    | _ => let (v, s) := freeVal s; { s with mem := kvPut 0 s.mem p.1 (v.extractLsb' 0 8) }) s
  let s := { s with
    free := s.free + 1
    padsBad := (List.range 128).foldl (fun t c => kvPut 0 t c (kvGetD t c 0 ||| Config.padTest s.free c % 2 ^ 560)) s.padsBad
    bankDead := s.bankDead.foldl (fun (t : List (Nat × Nat)) (p : Nat × Nat) =>
      kvPut 0 t p.1 (p.2 - (p.2 &&& Config.bankRepair s.free p.1))) [] }
  let s := { s with
    kilnSize := 0x2000000, victims := [], vsRot := [], monitors := []
    ident := { s.ident with
      fwver := numAt img 0 8, fwsvn := numAt img 8 8, digest := (img.drop 24).take 64, image := img, recov := false } }
  let s := linkTrained (linkTrained s 0) 1
  { s with ident := { s.ident with ready := true } }

/-- Bring-up where the boot ROM accepts the image (R491): signature, digest, and a security version not below the rollback number;
else the device is in recovery. -/
def booted (s : State) (img : List Byte) : State :=
  if 256 ≤ img.length ∧ Config.ed448Verify (img.take 202) ∧ Config.shake256 (img.drop 256) = (img.drop 24).take 64 ∧
      s.ident.rollback ≤ numAt img 8 8 then broughtUp s img
  else { s with ident := { s.ident with recov := true } }

/-! ### The events of the device (R446 to R452, R486) -/

/-- An access of a bus agent that can be performed, which uses the engines of its home and shows the errors that it reads there, or
that is answered with an error, as every one is in recovery (R485, R488, R491). -/
def onBus (peer : Bool) (a : BusAccess) : Option EventEffect := some fun s =>
  if s.ident.recov then some { s with busReply := [] }
  else match busRange s peer a.pa (busBytes a.op) with
  | .perform =>
    let s := busUse s a
    some (match a.op with
      | .read n => { s with busReply := homeRead s a.pa n }
      | .write bs => homeWrite { s with busReply := [] } a.pa bs
      | .atomic op n x y =>
        homeWriteNat { s with busReply := leBytes n (homeNat s a.pa n) } a.pa n (atomNew op n (homeNat s a.pa n) x.toNat y.toNat))
  | .error => some { s with busReply := [] }
  | _ => none

def busEvents : Instr → Option EventEffect
  | .hostMemAccess a => onBus false a
  | .peerAccess a => onBus true a
  | _ => none

def deviceEvents : Instr → Option EventEffect
  | .registerWrite off v => some fun s => due (off % 8 == 0 && !s.ident.recov) (registerWritten s off v)
  | .linkFail k => some fun s => due (decide (k < 2)) (loseStores (setLinkState s k 3) k)
  | .linkRetry k up => some fun s => due (decide (k < 2) && linkState s k != 3)
      (if up then (if linkState s k = 1 then setLinkState s k 2 else s) else setLinkState s k 1)
  | .vblank o => some fun s => due (decide (o < 4) && outEn s o)
      (let s := if sendsVideo s o then modOut s o fun p => { p with frames := (p.frames + 1) % 2 ^ 32 } else s
       blankSignal (takeFlip (takePending s o) o) o)
  | .dpLinkTrain o rate lanes fits => some fun s => due (decide (o < 4) && decide (rate < 8) && [0, 1, 2, 4].contains lanes)
      (let u := modOut (setLink s o rate lanes) o fun p => { p with training := false }
       if outEn u o ∧ !(fits && modeOk u o) then modeError u o else u)
  | .hpdChange o present => some fun s => due (decide (o < 4))
      (if present then outStatus s o 2
       else setOutReg (setLink s o 0 0) o 0x48 (outReg (setLink s o 0 0) o 0x48 &&& ~~~(2 : W64)))
  | .attgo => some fun s =>
      let u := { s with ident := { s.ident with attgo := false } }
      some (if s.ident.recov = false ∧ (paKind s.ident.reppa.toNat = .gddr ∨ paKind s.ident.reppa.toNat = .host) then
        homeWrite u s.ident.reppa.toNat (reportBytes s) else u)
  | .firmwareImage img => some fun s => due (!s.ident.ready) (booted s img)
  | .deviceReset => some fun s =>
      let u := { powerGone s with mem := s.mem }
      some (booted u u.ident.image)
  | .powerLoss => some fun s => some (powerGone s)
  | .powerInterval p => some fun s =>
      let s := countErrors s p
      let w := { s.power with
        pwr := p.draw, tdie := p.tdie, ttier := p.tiers.foldl max 0, tiers := p.tiers
        tripped := s.power.tripped && decide (s.power.tresume ≤ p.tdie) }
      let (scan, s) := scanFloor s
      let s := { s with power := { w with grants := grantsOf s (budgetEff w) scan p.engines } }
      let s := monSample (monSample (monSample s 7 0 p.draw) 8 0 p.tdie) 9 0 s.ivCorr
      let s := ((List.range 64).filter fun c => (ctxD s c).state != .free).foldl (fun s c => monSample s 6 c (kvGetD s.ivCopy c 0)) s
      some { noteWorn s with ivCopy := [], ivCorr := 0, upsets := s.upsets ++ p.upsets.filter fun u => !s.upsets.contains u }
  | _ => none

end Sys2Proof.Machine
end

