-- ==== Sys2Proof/Safety/Claims.lean ====
section
/-! DEFINITION. The terms in which the statements speak of a trap entered, a branch taken, a store that reaches memory, and
a value held in a register. -/
namespace Sys2Proof.Machine
open Sys2Proof

/-! ### Traps (R457) -/

/-- Batch `b` has entered the handler of its context from the state `s` with the cause `tr`: the frame of trap entry. -/
structure Entered (s t : State) (b c : Batch) (tr : TrapInfo) : Prop where
  now : findBatch t b.id = some c
  /-- WB, PW, lane order, registers, pin and live lanes unchanged; what entry writes -/
  same : c = { b with
    kregs := c.kregs, window := [], priv := true, pc := c.pc, newRegion := true, gatherAt := none
    owed := b.retbuf.length, storesOwed := b.stores.length, parked := false, block := none, fillWait := [], trap := none, wake := s.clock + 12 }
  pc : c.pc.toNat = (ctxD s b.ctx).tvec.toNat % 2 ^ 54 / 8 * 8
  rpc : ∀ l, laneVal (c.kregs.getD 0 (.u 0)) l = BitVec.ofNat 32 tr.rpc.toNat ∧
    laneVal (c.kregs.getD 1 (.u 0)) l = BitVec.ofNat 32 (tr.rpc.toNat / 2 ^ 32)
  wb : ∀ l, laneVal (c.kregs.getD 2 (.u 0)) l = BitVec.ofNat 32 (b.wb + if b.priv then 2 ^ 9 else 0)
  cause : ∀ l, (laneVal (c.kregs.getD 3 (.u 0)) l).extractLsb' 0 8 = BitVec.ofNat 8 tr.cause.code
  lane : ∀ l, (laneVal (c.kregs.getD 3 (.u 0)) l).getLsbD 13 = decide (tr.lanes ≠ 0) ∧
    (laneVal (c.kregs.getD 3 (.u 0)) l).extractLsb' 8 5 = BitVec.ofNat 5 ((lanesOf tr.lanes).headD 0)
  kind : tr.kind < 4 → ∀ l, (laneVal (c.kregs.getD 3 (.u 0)) l).extractLsb' 14 2 = BitVec.ofNat 2 tr.kind ∧
    (laneVal (c.kregs.getD 3 (.u 0)) l).extractLsb' 16 16 = BitVec.ofNat 16 tr.code
  addr : ∀ l, laneVal (c.kregs.getD 4 (.u 0)) l = BitVec.ofNat 32 tr.addr ∧
    laneVal (c.kregs.getD 5 (.u 0)) l = BitVec.ofNat 32 (tr.addr / 2 ^ 32)
  lanes : ∀ l, laneVal (c.kregs.getD 6 (.u 0)) l = tr.lanes
  src : tr.src < 8 → tr.sidx < 256 → tr.scause < 256 → tr.sdepth < 4 →
    ∀ l, (laneVal (c.kregs.getD 7 (.u 0)) l).extractLsb' 0 8 = BitVec.ofNat 8 tr.src ∧
      (laneVal (c.kregs.getD 7 (.u 0)) l).extractLsb' 8 8 = BitVec.ofNat 8 tr.sidx ∧
      (laneVal (c.kregs.getD 7 (.u 0)) l).extractLsb' 16 8 = BitVec.ofNat 8 tr.scause ∧
      (laneVal (c.kregs.getD 7 (.u 0)) l).extractLsb' 24 8 = BitVec.ofNat 8 tr.sdepth
  word : ∀ l, laneVal (c.kregs.getD 8 (.u 0)) l = tr.word.extractLsb' 0 32 ∧
    laneVal (c.kregs.getD 9 (.u 0)) l = tr.word.extractLsb' 32 32
  uniform : ∀ i, i < 10 → isUni (c.kregs.getD i (.u 0)) = true
  kept : ∀ i, 10 ≤ i → c.kregs.getD i (.u 0) = b.kregs.getD i (.u 0)
  /-- only this batch enters -/
  others : ∀ id, id ≠ b.id → findBatch t id = findBatch s id
  rest : t = { s with batches := t.batches, crews := t.crews, cores := t.cores, upsets := t.upsets, bankDue := t.bankDue }

/-! ### Branches (R111) -/

/-- What a branch-type word goes on from: before it parts the live lanes of its batch, the held stores of a word for several lanes
together, and those before them, are performed (R318; log 34). -/
def partedFrom (x : Exec) (go : Nat → Dest) : State :=
  if 1 < ((liveLanes x.b).map go).eraseDups.length then performStores x.s x.b (wordStores x.b) else x.s

/-- What a branch-type word leaves, its live lanes having gone where `go` says: each of them stands there with its fibre,
its mode, its pin and the registers that the word keeps. -/
structure Branched (x : Exec) (t : State) (go : Nat → Dest) (keeps : Nat → Prop) : Prop where
  lanes : ∀ l ∈ liveLanes x.b, ∃ c ∈ t.batches, c.core = x.b.core ∧ c.slot = x.b.slot ∧ c.crew = x.b.crew ∧ l ∈ liveLanes c ∧
    c.pc = (go l).2.1 ∧ c.wb = (go l).2.2 ∧ fibreOf c l = fibreOf x.b l ∧ c.priv = x.b.priv ∧ c.pin = x.b.pin ∧
    ∀ i, keeps i → bankReg t c i = bankReg x.s x.b i
  others : ∀ d ∈ x.s.batches, d.id ≠ x.b.id → d ∈ t.batches
  crews : x.sp.closes = false → t.crews.map Crew.bare = (partedFrom x go).crews.map Crew.bare
  rest : t = { partedFrom x go with
    batches := t.batches, crews := t.crews, monitors := t.monitors, upsets := t.upsets, ivCopy := t.ivCopy
    nextId := t.nextId }

/-- The registers that a branch-type word keeps: all but LOOP's counter, and for a call all but the two that hold the link,
v0 and v1 under the new window base (R115). -/
def branchKeeps (i : Instr) (x : Exec) (r : Nat) : Prop :=
  match i with
  | .loop _ => r ≠ nameOf x .d 0
  | .call w => r ≠ x.b.wb + w.a.toNat ∧ r ≠ x.b.wb + w.a.toNat + 1
  | .calli w => r ≠ x.b.wb + 8 * (w.m.toNat % 64) ∧ r ≠ x.b.wb + 8 * (w.m.toNat % 64) + 1
  | _ => True

/-! ### Stores (R155 to R164) -/

/-- The places, with the bytes stored to each, of the stores that a batch still holds: the end of its next word may perform
some of them (R318). -/
def heldPlaces (b : Batch) : List (Nat × Loc) := b.stores.map fun r => (r.data.length, r.loc)

/-- The bytes that an access of `n` bytes at a place touches at their home. -/
def touches (s : State) (ctx n : Nat) (loc : Loc) (a : Nat) : Prop :=
  match loc with
  | .mem pa _ _ => pa ≤ a ∧ a < pa + n
  | .checked pa _ => pa ≤ a ∧ a < pa + n
  | .xform va l => ∃ pa ∈ (xformElems s ctx l va n).1, pa ≤ a ∧ a < pa + elemBytes (xformElems s ctx l va n).2.1
  | _ => False

/-- The L1 lines through which an access at a place goes. -/
def linesOf (s : State) (ctx n : Nat) (loc : Loc) : List Nat :=
  match loc with
  | .mem pa _ _ => [pa / 128]
  | .xform va l => (xformElems s ctx l va n).1.map (· / 128)
  | _ => []

/-- The places to which ST, STL and STSP store, with the bytes stored to each: the same functions as the words use. -/
def storedAt (x : Exec) : Instr → Option (List (Nat × Loc))
  | .st w =>
    let n := sizeBytes (modSize w.m)
    (storePlaces x .store n false false false (ldAddr x w n)).map fun p => p.2.map fun q => (n, q.2)
  | .stl w => match flPlaces x w .store with
    | .ok _ words => some (words.map fun q => (min 4 (sizeBytes (modSize w.m)), q.2))
    | _ => none
  | .stsp w => match spPlaces x w .store with
    | .error _ => none
    | .ok locs => some (locs.map fun q => (sizeBytes (modSize w.m), q.2))
  | _ => none

/-- The places at which the words that order memory access it. -/
def orderedAt (x : Exec) : Instr → Option (List (Nat × Loc))
  | .lda w =>
    let n := sizeBytes (modSize w.m)
    (loadPlaces x n (decide (1 ≤ modScope w.m)) true fun l => (lane64 x .a l + BitVec.ofInt 64 (imm18 w)).toNat).map
      fun p => p.2.map fun q => (n, q.2)
  | .strel w =>
    let n := sizeBytes (modSize w.m)
    (storePlaces x .store n (decide (1 ≤ modScope w.m)) true false fun l => (lane64 x .a l).toNat).map
      fun p => p.2.map fun q => (n, q.2)
  | .atom w => atomic w
  | .red w => atomic w
  | .fence _ => some []
  | _ => none
where
  /-- the places of ATOM and RED -/
  atomic (w : FWord) : Option (List (Nat × Loc)) :=
    let n := if w.m.getLsbD 0 then 8 else 4
    (storePlaces x .atomic n (decide (1 ≤ w.m.toNat / 32 % 4)) (w.m.toNat / 128 % 4 != 0) true fun l => (lane64 x .a l).toNat).map
      fun p => p.2.map fun q => (n, q.2)

/-- Some core's L1 holds this byte dirty. -/
def dirtyAt (s : State) (a : Nat) : Prop :=
  ∃ k l, kvGet (coreD s k).l1 (a / 128) = some l ∧ l.dirty.testBit (a % 128) = true

/-! ### Registers -/

/-- The stored value of a register in a lane: a T register holds its image's value (R41). -/
def bankVal (s : State) (b : Batch) (i l : Nat) : W32 :=
  match bankReg s b i with
  | .t img => imageReg s img i
  | v => laneVal v l

/-- Whether a type of IADD, ISUB and IMUL keeps an affine result: .S32, .N32 or .B32 without SAT (Table 02-2). -/
def keepsAffine (m : BitVec 11) : Bool := [0, 1, 8].contains (modType m) && !modSat m

/-- The operands of a word that may give an affine result, as the registers hold them, an immediate being uniform (R94). -/
def affineOperands (x : Exec) : Instr → Option (RegVal × RegVal)
  | .iadd w => if keepsAffine w.m then some (rawReg x.s x.b (nameOf x .a 0), rawReg x.s x.b (nameOf x .b 0)) else none
  | .isub w => if keepsAffine w.m then some (rawReg x.s x.b (nameOf x .a 0), rawReg x.s x.b (nameOf x .b 0)) else none
  | .imul w => if keepsAffine w.m then some (rawReg x.s x.b (nameOf x .a 0), rawReg x.s x.b (nameOf x .b 0)) else none
  | .iaddI w => some (rawReg x.s x.b (nameOf x .a 0), .u w.imm)
  | .imulI w => some (rawReg x.s x.b (nameOf x .a 0), .u w.imm)
  | _ => none

/-- The rows of Table 02-2 for A and U in either order: the base and the stride of the affine result. -/
def affineResult (i : Instr) (va vb : RegVal) : Option (W32 × W32) :=
  match va, vb with
  | .a p st, .u v => match i with
    | .iadd _ => some (p + v, st)
    | .iaddI _ => some (p + v, st)
    | .isub _ => some (p - v, st)
    | .imul _ => some (p * v, st * v)
    | .imulI _ => some (p * v, st * v)
    | _ => none
  | .u v, .a p st => match i with
    | .iadd _ => some (v + p, st)
    | .isub _ => some (v - p, -st)
    | .imul _ => some (v * p, v * st)
    | _ => none
  | _, _ => none

/-- The instruction words that the spec makes privileged (R78). -/
def privileged : Instr → Bool
  | .tret _ => true
  | .pgbump _ => true
  | .pgnew _ => true
  | .tlbepoch _ => true
  | .halt _ => true
  | .wsremap _ => true
  | .monctlCfg _ => true
  | .monctlClr _ => true
  | .monctlRd _ => true
  | _ => false

end Sys2Proof.Machine
end

