-- ==== Sys2Proof/Safety/Normal.lean ====
section
/-! DEFINITION. The conditions on the state and the operands under which a word of chapters 04, 06 to 08, 11, 17 and 18
executes normally, each as its rule states it. Elsewhere the word takes a cause or waits. -/
namespace Sys2Proof.Machine
open Sys2Proof

/-- A condition on what a word's own effect starts from. -/
abbrev When := Exec → Bool

/-- Under its condition a word completes: it answers a next state, in which it has retired with the effect and the results that
the table of its family gives. -/
def Completing (when' : Instr → Option When) (table : Instr → Option Effect) : Prop :=
  ∀ s i f p b, formOf s i = some f → when' i = some p → f.Ready s b → p (f.start s b) = true →
    ∃ t, exec i s = .next t ∧ ∃ e u r, table i = some e ∧ e (f.start s b) = some (u, r) ∧ Shows (f.start s b) u t r

/-! ### Branches, calls and returns (R113 to R116) -/

/-- A branch address that is a place for code: a multiple of 8 below 2^54. -/
def codeAddr (x : Exec) (l : Nat) : Bool := (lane64 x .a l).toNat % 8 == 0 && decide ((lane64 x .a l).toNat < 2 ^ 54)

/-- Each active lane's address is a place for code, and the window that a call opens or a return goes back to exists. -/
def branchWhen : Instr → Option When
  | .bra _ => some fun _ => true
  | .bri _ => some fun x => x.act.all (codeAddr x)
  | .loop _ => some fun _ => true
  | .call w => some fun x => decide (x.b.wb + w.a.toNat + 8 ≤ windowLimit x.s x.b)
  | .calli w => some fun x => x.act.all (codeAddr x) && decide (x.b.wb + 8 * (w.m.toNat % 64) + 8 ≤ windowLimit x.s x.b)
  | .ret _ => some fun x => x.act.all fun l =>
      let back := 8 * ((lane64 x .a l).toNat / 2 ^ 54 % 64)
      (lane64 x .a l).toNat % 8 == 0 && decide (back ≤ x.b.wb) && decide (x.b.wb - back + 8 ≤ windowLimit x.s x.b)
  | _ => none

/-! ### Barriers, buffers, timelines, shapes, extended sets, accumulator counts (chapter 06) -/

/-- The crew has barrier i, with these contents. -/
def barrierIs (x : Exec) (i : W9) (p : Barrier → Bool) : Bool := ((crewD x.s x.b.crew).barriers[i.toNat]?).any p
/-- The crew has circular buffer i, with these contents. -/
def bufferIs (x : Exec) (i : W9) (p : CBuf → Bool) : Bool := ((crewD x.s x.b.crew).cbs[i.toNat]?).any p
/-- Timeline i is bound, with these contents. -/
def timelineIs (x : Exec) (i : W9) (p : Timeline → Bool) : Bool := (boundTimeline x.s x.b i.toNat).any fun q => p q.2

def barrierWhen : Instr → Option When
  | .barinit w => some fun x =>
      let v := (uniVal x .b 0).toNat
      decide (1 ≤ v) && decide (v < 4096) && !barWaited x.s x.b.crew w.a.toNat && !barBound x.s x.b.crew w.a.toNat &&
        barrierIs x w.a fun b => b.exp == 0 || b.fault || (b.arr == 0 && b.pend == 0)
  | .bararr w => some fun x => (fpxCheck x).isNone && barrierIs x w.a fun b =>
      b.exp != 0 && decide (b.arr + (newcomers x b).length ≤ b.exp)
  | .barwait w => some fun x => (fpxCheck x).isNone && barrierIs x w.a fun b =>
      b.exp != 0 && ((wokenBy x w.a.toNat).getD b).phase != uniVal x .b 0
  | .barsync w => some fun x => (fpxCheck x).isNone && barrierIs x w.a fun b => b.exp != 0 &&
      match wokenBy x w.a.toNat with
      | some q => q.phase != uniVal x .b 0
      | none => b.phase != uniVal x .b 0 || (b.arr + (newcomers x b).length == b.exp && b.pend == 0)
  | .barexp w => some fun x => barrierIs x w.a fun b =>
      let n := (uni64 x .b).toNat
      b.exp != 0 && decide (n < 2 ^ 47) && decide (b.pend + n ≤ 2 ^ 47 - 1) && decide (-(2 ^ 47 - 1) ≤ b.pend + n)
  | .barq w => some fun x => barrierIs x w.a fun _ => true
  | .cbinit w => some fun x => bufferIs x w.a fun cb =>
      let off := (uniVal x .b 0).toNat
      let cfg := (uniVal x .c 0).toNat
      let c := crewD x.s x.b.crew
      off % 16 == 0 && decide (cfg < 2 ^ 25) && cfg / 256 % 4096 != 0 &&
        decide (off + 16 * (cfg / 256 % 4096) * (cfg % 256 + 1) ≤ c.scratchBytes) &&
        (!cfg.testBit 24 || decide (cfg / 2 ^ 20 % 16 < c.barriers.length)) && (!cb.init || cb.free == cb.depth)
  | .cbacq w => some fun x => bufferIs x w.a fun cb =>
      let n := (uniVal x .b 0).toNat
      cb.init && n != 0 && decide (n ≤ cb.depth) &&
        if w.m.getLsbD 0 then cb.flue.isNone && decide (n ≤ cb.free) else decide (n ≤ cb.filled)
  | .cbrel w => some fun x => bufferIs x w.a fun cb =>
      let n := (uniVal x .b 0).toNat
      cb.init && n != 0 && decide (n ≤ cb.depth) && decide (n ≤ cb.rh)
  | .cbput w => some fun x => bufferIs x w.a fun cb =>
      let n := (uniVal x .b 0).toNat
      cb.init && n != 0 && decide (n ≤ cb.depth) && decide (n ≤ cb.ph) && cb.flue.isNone
  | .cbq w => some fun x => bufferIs x w.a fun _ => true
  | .tlwait w => some fun x => !isFill x && timelineIs x w.a fun t => decide ((uni64 x .b).toNat ≤ t.count)
  | .tlq w => some fun x => timelineIs x w.a fun _ => true
  | .shape _ => some fun _ => true
  | .shapeg _ => some fun _ => true
  | .xacq _ => some fun x => !isFill x && (findXSet x.s x.b.core (x.b.slot / 2)).any fun t =>
      t.holder.isNone && t.waiters.headD x.b.id == x.b.id
  | .xrel _ => some fun x => (findXSet x.s x.b.core (x.b.slot / 2)).any fun t => t.holder == some x.b.slot
  | .accgrow _ => some fun x =>
      let n := (uniVal x .a 0).toNat
      n != 0 && decide ((crewD x.s x.b.crew).tiles.length + n ≤ 62)
  | .accfree _ => some fun x =>
      let n := (uniVal x .a 0).toNat
      n != 0 && decide (n ≤ (crewD x.s x.b.crew).tiles.length)
  | _ => none

/-- What the words of `barrierWhen` do. -/
def barrierEffect (i : Instr) : Option Effect := (syncTable i).or (miscTable i)

/-! ### The matrix array (chapter 07) -/

/-- The address of a load of the array passes the checks of its issue (R195, R199), and `p` holds then: for WLOAD, that wS is not
LOADING and no store of another part of the loader waits at its home. -/
def loadAddrOk (x : Exec) (load : Bool) (align first : Nat) (p : State → Bool) : Bool :=
  match wIssue x load (uni64 x .a).toNat align first with
  | .ok s => p s
  | .error _ => false

/-- The load that WTAB appends to: the crew's own, whose header, where it has arrived, asks for another table. -/
def tableFits (x : Exec) (s : State) : Bool := (coreD s x.b.core).load.any fun l => isLoader x.b l && match loadHeader l with
  | none => true
  | some h => decide (4 ≤ h.fmt) && decide (l.tables.length < h.ncols) && (uni64 x .a).toNat % wtrTable h.fmt == 0

/-- A tile that no quarter still writes, and that reads without an error in the places that the word reads (R209). -/
def tileReadable (x : Exec) (t : Nat) (pairs : Nat → Bool) : Bool :=
  decide (t < (crewD x.s x.b.crew).tiles.length) && !tileBusy x.s x.b t && !accBad x t pairs

/-- DRAIN to scratch: its fields are in range, and its places lie in the crew's scratch and have no error (R216). -/
def scratchDrains (x : Exec) (f : Nat) : Bool :=
  let places := (List.range 8).flatMap (drainPlaces f (slwOf x))
  (slwFault x (slwOf x)).isNone && !partScratch x.s x.b.crew (places.map fun p => (p.2.1, p.2.2.2)) &&
    places.all fun p => decide (p.1 + p.2.2.2 ≤ (crewD x.s x.b.crew).scratchBytes)

/-- DRAIN to memory: its base and row stride are aligned, and every piece may be stored (R216). -/
def memoryDrains (x : Exec) (f t : Nat) : Bool :=
  (uni64 x .b).toNat % 16 == 0 && (uniVal x .b 2).toNat % 16 == 0 &&
    match drainCheck x (drainPieces f (uni64 x .b).toNat (uniVal x .b 2).toNat) with
    | .ok s _ => !tileBusy s x.b t
    | _ => false

def matrixWhen : Instr → Option When
  | .wload _ => some fun x => planesOpen x && loadAddrOk x true 128 (uni64 x .a).toNat fun s =>
      (coreD s x.b.core).planeS.state != 1 && (loaderWait s x.b).isNone
  | .wswap _ => some fun x => planesOpen x && planeReady x 1
  | .wtab _ => some fun x => arrayOpen x true && loadAddrOk x false 8 ((uni64 x .a).toNat / 32 * 32) (tableFits x)
  | .wwait w => some fun x => arrayOpen x true && planeReady x w.a.toNat
  | .mmq w => some fun x =>
      let p := planeOf (coreD x.s x.b.core) w.a.toNat
      let qs := quarterWords x
      planesOpen x && planeReady x w.a.toNat && (slwFault x (slwOf x)).isNone &&
        !(qs.any fun q => quarterOut x (slwOf x) p q.2.2) && (qs.all fun q => tileWritable x.s x.b (w.d.toNat + q.2.1)) &&
        decide (((coreD x.s x.b.core).passes.map fun p => p.quarters.length).sum + qs.length ≤ 32) &&
        (mmqBad x w (slwOf x) p qs).isNone
  | .accz w => some fun x => arrayOpen x false && tileWritable x.s x.b w.d.toNat && !tileBusy x.s x.b w.d.toNat
  | .accrd w => some fun x =>
      let c := (uniVal x .b 0).toNat
      arrayOpen x false && decide (c ≤ 15) && tileReadable x w.a.toNat fun p => x.act.any fun l => p == (32 * c + l) / 2
  | .accwr w => some fun x => arrayOpen x false && decide ((uniVal x .b 0).toNat ≤ 15) && tileWritable x.s x.b w.d.toNat &&
      !tileBusy x.s x.b w.d.toNat
  | .drain w => some fun x =>
      let f := w.m.toNat % 4
      arrayOpen x false && tileReadable x w.a.toNat (fun _ => true) && (!w.m.getLsbD 3 || tileWritable x.s x.b w.a.toNat) &&
        (f != 3 || (bandScale (uniVal x .c 0)).isSome) && if w.m.getLsbD 2 then memoryDrains x f w.a.toNat else scratchDrains x f
  | .drainst _ => some fun _ => true
  | .wstat _ => some fun x => arrayOpen x false
  | .wbmap _ => some fun _ => true
  | _ => none

/-! ### Events, submissions, fills and rays (chapters 08, 11, 17, 18), and the words that need more than their operands -/

/-- The operand names an event of the context, with this count. -/
def eventIs (x : Exec) (n : Nat) (p : Nat → Bool) : Bool := (eventIdx x.s x.b.ctx n).any fun i => p (eventCount x.s i)

/-- The batch has been woken, or it does not wait yet and the event's count has reached the threshold (R234, R235). -/
def eventMet (x : Exec) (n thr : Nat) : Bool :=
  !isFill x && match x.b.block with
    | some (.event _ woken) => woken && eventIs x n fun _ => true
    | _ => eventIs x n fun c => decide (thr ≤ c)

/-- Every lane's query ends, one after the other: each node and each leaf that it reads is readable and well formed. -/
def raysEnd (f : State → Nat → RayAns (List W32)) : List Nat → State → Bool
  | [], _ => true
  | l :: ls, s => match f s l with
    | .ok s _ => raysEnd f ls s
    | _ => false

/-- Whole frames, all in GDDR 7 or all in the weight stack (R241), on whose columns no remap step runs (R482). -/
def framesOk (x : Exec) : Bool :=
  let pa := (uni64 x .a).toNat
  let n := (uniVal x .b 0).toNat
  let last := pa + 4096 * (n - 1)
  pa % 4096 == 0 && decide (pa < 2 ^ 50) && n != 0 && decide (n ≤ 4194304) && hasGen pa && hasGen last &&
    decide (0x800000000 ≤ pa ↔ 0x800000000 ≤ last) && (framesWait x.s pa n).isNone

/-- The SYS context names one of the 32 monitors (R245). -/
def monitorOk (x : Exec) : Bool := (ctxD x.s x.b.ctx).sys && decide ((uniVal x .a 0).toNat < 32)

def unitWhen : Instr → Option When
  | .evsig _ => some fun x => eventIs x (uniVal x .a 0).toNat fun _ => true
  | .evsigI w => some fun x => eventIs x (w.imm.toNat % 65536) fun _ => true
  | .evsigClr _ => some fun x => eventIs x (uniVal x .a 0).toNat fun _ => true
  | .evwait _ => some fun x => eventMet x (uniVal x .a 0).toNat (uniVal x .b 0).toNat
  | .evwaitI w => some fun x => eventMet x (w.imm.toNat % 65536) 1
  | .evq _ => some fun x => eventIs x (uniVal x .a 0).toNat fun _ => true
  | .spawn _ => some fun x => !isFill x && bitsOf (uni64 x .a) 16 6 == x.b.ctx
  | .tladv w => some fun x => timelineIs x w.a fun t => t.kind == 1 && decide (t.count + (uni64 x .b).toNat < 2 ^ 64)
  | .fluesub w => some fun x =>
      let n := (uniVal x .c 0).toNat
      (boundFlue x.s x.b w.a.toNat).isSome && !isFill x && n != 0 && decide (n ≤ 65535) && (uni64 x .b).toNat % 32 == 0 &&
        decide ((uni64 x .b).toNat < 2 ^ 54)
  | .fluesubRst w => some fun x => (boundFlue x.s x.b w.a.toNat).isSome && !isFill x
  | .cutsel w => some fun x => (boundSplit x.s x.b w.a.toNat).isSome && !isFill x && (uni64 x .b).toNat % 128 == 0 &&
      decide ((uni64 x .b).toNat < 2 ^ 54)
  | .cutselRst w => some fun x => (boundSplit x.s x.b w.a.toNat).isSome && !isFill x
  | .fillarg _ => some fun x => (myFill x).isSome
  | .fillput w => some fun x => (myFill x).any fun r =>
      let o := (uniVal x .b 0).toNat
      let at' := (uniVal x .a 0).toNat
      o % 128 == 0 && decide (o < r.bytes) && (!w.m.getLsbD 0 ||
        (at' % 16 == 0 && decide (at' + 128 ≤ (crewD x.s x.b.crew).scratchBytes) && !scratchBad x.s .load x.b.crew at' 128))
  | .geninv _ => some fun x =>
      let g := (uniVal x .a 0).toNat
      decide (g < 4096) && (genWord x.s g 1).getLsbD 10 && bitsOf (genWord x.s g 1) 4 6 == x.b.ctx && !isFill x
  | .rayq w => some fun x => (rayParked x).isNone && raysEnd (rayqLane x w) x.act (useEngines x.s [.ray x.b.core])
  | .rayrd _ => some fun x => (rayParked x).isNone && raysEnd (rayrdLane x) x.act (useEngines x.s [.ray x.b.core])
  | .sysrd _ => some fun _ => true
  | .csrrd _ => some fun _ => true
  | .csrwr _ => some fun _ => true
  | .csrswp _ => some fun _ => true
  | .bkpt _ => some fun x => !(ctxD x.s x.b.ctx).dbgctl.getLsbD 0
  | .clock _ => some fun _ => true
  | .perfrd _ => some fun _ => true
  | .pgbump _ => some framesOk
  | .pgnew _ => some framesOk
  | .tlbepoch _ => some fun _ => true
  | .halt _ => some fun _ => true
  | .wsremap _ => some fun x =>
      let c := (uniVal x .a 0).toNat
      let b := (uniVal x .b 0).toNat
      (ctxD x.s x.b.ctx).sys && decide (c < 128) && decide (b < 128) && (bankRetired x.s c b || remapTurn x.s c x.b.id)
  | .monctlCfg _ => some fun x =>
      let v := (uniVal x .b 0).toNat
      monitorOk x && decide (v < 2 ^ 24) && decide (1 ≤ v % 256) && decide (v % 256 ≤ 10) && uniVal x .b 1 == 0 &&
        uniVal x .b 2 == 0 && uniVal x .b 3 == 0
  | .monctlClr _ => some monitorOk
  | .monctlRd _ => some monitorOk
  | _ => none

/-- What the words of `unitWhen` do. -/
def unitEffect (i : Instr) : Option Effect := ((eventTable i).or (unitTable i)).or (systemTable i)

end Sys2Proof.Machine
end

