-- ==== Sys2Proof/Certificates/Slice0/Obligations.lean ====
section
/-! DEFINITION. The statements for the provers. The tables of Safety/Rules*.lean say what each word and each event does; a
statement here says that the machine does so. -/
open Sys2Proof Sys2Proof.Machine

/-! ## Encoding (chapter 03) -/

/-- Words of the spec's worked examples decode to the instructions that they stand for (R69, R94, R145, R216). -/
def Obligations.SampleWordsDecode : Prop :=
  decodeWord 0x006E030040403011 = .imad { s := false, rgn := false, gp := 7, gn := false, d := 6, a := 1, b := 2, c := 3, eph := false, m := 0x011 } ∧
  decodeWord 0x8635050100A06008 = .fma { s := true, rgn := false, gp := 2, gn := true, d := 10, a := 4, b := 5, c := 6, eph := false, m := 0x008 } ∧
  decodeWord 0x60F8060700000100 = .iaddI { s := false, rgn := true, gp := 7, gn := false, d := 3, a := 7, imm := 0x100 } ∧
  decodeWord 0x1200402400808060 = .pair { s := false, rgn := false, pg := 0, x := { op := .fadd, d := 8, a := 9, m := 0 }, y := { op := .iadd, d := 2, a := 3, m := 0 } } ∧
  decodeWord 0x0D4E00000100C001 = .mmq { s := false, rgn := false, gp := 7, gn := false, d := 0, a := 0, b := 8, c := 12, eph := false, m := 1 } ∧
  decodeWord 0 = .nonInstructionEncoding 0

/-- Decoding the bytes of a well-formed instruction word gives the instruction back, with every operand at every value, and
leaves what follows. -/
def Obligations.DecodeAfterEncode : Prop :=
  ∀ (i : Instr) (rest : List Byte), WellFormed i = true → decode (encodeBytes i ++ rest) = .ok (i, rest)

/-- A word that is an instruction is the encoding of what it decodes to: no bit of a word is dropped. -/
def Obligations.EncodeAfterDecode : Prop := ∀ (x : W64) (i : Instr), instructionOf x = some i → encode i = some x

/-! ## Steps and reset -/

/-- Issuing from a batch fetches the eight bytes at its pc, decodes them and executes what they stand for, as the word of that
batch, a restored batch being marked as issued (R53); where that is the only move, it is the step. The fetch changes no batch
and no memory. -/
def Obligations.StepRunsDecoded : Prop :=
  ∀ (s t : State) (id : Nat) (b : Batch) (w : W64), findBatch s id = some b → fetchWord (beginIssue s b) b = .word t w →
    let u := if b.restored then modBatch t id fun c => { c with restored := false } else t
    (b.restored = true → b.wb + 8 ≤ windowLimit u b) →
    perform s (.issue id) = exec (decodeWord w) u ∧ (enabled s = [.issue id] → step s = exec (decodeWord w) u) ∧
      u.cur = id ∧ t.batches = (beginIssue s b).batches ∧ ∀ pa, memByte u pa = memByte s pa

/-- A step makes one of the moves that may come next; a free value chooses among several (log 2). -/
def Obligations.StepMakesAnEnabledMove : Prop :=
  ∀ s : State, ∃ m ∈ enabled s, step s = perform s m ∨ ∃ u, u = (freePick s (enabled s).length).2 ∧ step s = perform u m

/-- What reset leaves, where the spec gives the value: the clock, every context FREE, every slab L1, the generation counters
and page generations 0, no victim line, TTRIP and TRESUME, and the device not READY (R239, R266, R327, R383, R436, R440, R486,
R493, R496). -/
def Obligations.ResetValues : Prop :=
  State.reset.clock = 0 ∧ State.reset.cores.length = 128 ∧ State.reset.ctxs.length = 64 ∧
  (∀ c ∈ State.reset.ctxs, c.state = .free ∧ c.tvec = 0 ∧ c.cmderr = false) ∧
  (∀ k ∈ State.reset.cores, k.scratchSlabs = 0 ∧ k.genClus = 0 ∧ k.genDev = 0 ∧ k.genSys = 0) ∧
  (∀ f, kvGetD State.reset.pageGen f 0 = 0) ∧ State.reset.victims = [] ∧
  State.reset.power.ttrip = 1760 ∧ State.reset.power.tresume = 1520 ∧ State.reset.ident.ready = false

/-- Memory and the zero mask are in canonical form at reset. -/
def Obligations.ResetCanonical : Prop := State.reset.canonical

/-- Every step keeps memory and the zero mask in canonical form: addresses rise and no listed byte is zero. -/
def Obligations.StepsKeepMemoryCanonical : Prop := ∀ s t : State, s.canonical → step s = .next t → t.canonical

/-! ## Memory (R338, R430, R438, R448) -/

/-- A write at the home reads back, and every other byte keeps its value; a write behind a DOWN link is lost. -/
def Obligations.HomeWriteThenRead : Prop :=
  ∀ (s : State) (pa : Nat) (bs : List Byte),
    (paLost s pa = false → homeRead (homeWrite s pa bs) pa bs.length = bs) ∧
    (∀ a, a < pa ∨ pa + bs.length ≤ a → memByte (homeWrite s pa bs) a = memByte s a) ∧
    (paLost s pa = true → homeWrite s pa bs = s)

/-- A store to a line of plain memory is performed in the core's L1: the same core loads the stored bytes back, the other
bytes of the line load as before, other lines and other cores' lines are unchanged, and so is memory at its home. -/
def Obligations.StoreThenLoad : Prop :=
  ∀ (s : State) (b : Batch) (pa colour : Nat) (l : Leaf) (fl : Option Nat) (bs : List Byte),
    b.core < s.cores.length → pa % 128 + bs.length ≤ 128 →
    (loadLoc (storeLoc s b bs colour (.mem pa l fl)) b bs.length (.mem pa l fl)).2 = bs ∧
    (∀ a, a / 128 = pa / 128 → a < pa ∨ pa + bs.length ≤ a →
      (loadLoc (storeLoc s b bs colour (.mem pa l fl)) b 1 (.mem a l fl)).2 = (loadLoc s b 1 (.mem a l fl)).2) ∧
    (∀ k, k ≠ pa / 128 → kvGet (coreD (storeLoc s b bs colour (.mem pa l fl)) b.core).l1 k = kvGet (coreD s b.core).l1 k) ∧
    (∀ c, c ≠ b.core → coreD (storeLoc s b bs colour (.mem pa l fl)) c = coreD s c) ∧
    ∀ a, memByte (storeLoc s b bs colour (.mem pa l fl)) a = memByte s a

/-- Scratch: a write reads back, other bytes and other crews' scratch keep their values. -/
def Obligations.ScratchWriteThenRead : Prop :=
  ∀ (s : State) (u off : Nat) (bs : List Byte),
    ((findCrew s u).isSome = true → scratchRead (scratchWrite s u off bs) u off bs.length = bs) ∧
    (∀ a, a < off ∨ off + bs.length ≤ a → scratchRead (scratchWrite s u off bs) u a 1 = scratchRead s u a 1) ∧
    (∀ v, v ≠ u → findCrew (scratchWrite s u off bs) v = findCrew s v) ∧ (scratchWrite s u off bs).mem = s.mem

/-- LD, LDL, LDSP and PREF leave every byte of memory at its home, and every crew's scratch, but for stores that the batch
still held (R318): before a fibre's load its own are performed. -/
def Obligations.LoadsLeaveMemory : Prop :=
  ∀ (s : State) (i : Instr) (f : Form) (e : Effect) (b : Batch) (u : State) (r : Results),
    (match i with | .ld _ => true | .ldl _ => true | .ldsp _ => true | .pref _ => true | _ => false) = true →
    formOf s i = some f → memTable i = some e → f.Ready s b → e (f.start s b) = some (u, r) →
    ∃ t, exec i s = .next t ∧
      (∀ a, (∀ q ∈ heldPlaces b, ∀ pa l, q.2 = .checked pa l → ¬ touches s b.ctx q.1 q.2 a) → memByte t a = memByte s a) ∧
      ∀ c, (∀ q ∈ heldPlaces b, ∀ o, q.2 ≠ .scratch c o) → (crewD t c).scratch = (crewD s c).scratch

/-- ST, STL and STSP write, at the home, only the bytes of CHECKED places; in L1 they touch only the lines of their places
in their own core; in scratch only the bytes of their places. Their places are those that the word stores to and those of
the stores that the batch still held, which may be performed before it (R318). -/
def Obligations.StoresLeaveOtherBytes : Prop :=
  ∀ (s : State) (i : Instr) (f : Form) (e : Effect) (b : Batch) (u : State) (r : Results) (places : List (Nat × Loc)),
    formOf s i = some f → memTable i = some e → f.Ready s b → e (f.start s b) = some (u, r) →
    storedAt (f.start s b) i = some places →
    let all := places ++ heldPlaces b
    ∃ t, exec i s = .next t ∧
      (∀ a, (∀ q ∈ all, ∀ pa l, q.2 = .checked pa l → ¬ touches s b.ctx q.1 q.2 a) → memByte t a = memByte s a) ∧
      (∀ c, c ≠ b.core → (coreD t c).l1 = (coreD s c).l1) ∧
      (∀ k, (∀ q ∈ all, k ∉ linesOf s b.ctx q.1 q.2) → kvGet (coreD t b.core).l1 k = kvGet (coreD s b.core).l1 k) ∧
      ∀ c a, (∀ q ∈ all, ∀ o, q.2 = .scratch c o → a < o ∨ o + q.1 ≤ a) → scratchRead t c a 1 = scratchRead s c a 1

/-- LDA, STREL, ATOM, RED and FENCE change, at the home, only the bytes of their places, of the stores that the batch still
held, and bytes that some L1 held dirty. -/
def Obligations.OrderingLeavesOtherBytes : Prop :=
  ∀ (s : State) (i : Instr) (f : Form) (e : Effect) (b : Batch) (u : State) (r : Results) (places : List (Nat × Loc)),
    formOf s i = some f → memTable i = some e → f.Ready s b → e (f.start s b) = some (u, r) →
    orderedAt (f.start s b) i = some places →
    ∃ t, exec i s = .next t ∧
      ∀ a, (∀ q ∈ places ++ heldPlaces b, ¬ touches s b.ctx q.1 q.2 a) → ¬ dirtyAt s a → memByte t a = memByte s a

/-! ## Exceptions (chapters 08 and 20) -/

/-- A cause raised at a word of a batch with nothing outstanding enters the handler of its context. -/
def Obligations.TrapEntry : Prop :=
  ∀ (s : State) (b : Batch) (tr : TrapInfo), findBatch s b.id = some b → outstanding s b = false →
    (crewD s b.crew).fill = none → trapFatal s b tr = false →
    ∃ c, Entered s (raise s b.id tr) b c tr

/-- With a result outstanding the batch first parks, its cause kept, and nothing else of it changes (R457 step 1). -/
def Obligations.TrapWaitsForPark : Prop :=
  ∀ (s : State) (b : Batch) (tr : TrapInfo), findBatch s b.id = some b → outstanding s b = true →
    findBatch (raise s b.id tr) b.id = some { b with trap := some tr, parked := true, parkedAt := s.clock, block := none, fillWait := [] } ∧
    (∀ id, id ≠ b.id → findBatch (raise s b.id tr) id = findBatch s id) ∧ (raise s b.id tr).mem = s.mem

/-- TRET resumes at k0 and k1, under the window base and in the mode of k2, which hold no error, with an empty window, at the start
of a region, and changes nothing else of its batch. -/
def Obligations.TrapReturn : Prop :=
  ∀ (s : State) (w : FWord) (f : Form) (b : Batch), formOf s (.tret w) = some f → f.Ready s b →
    let x := f.start s b
    let k (i : Nat) : W32 := laneVal (readReg x.s x.b (512 + i)) 0
    let rpc := (k 0).toNat + 2 ^ 32 * (k 1).toNat
    (∀ i ∈ [0, 1, 2], isUni (rawReg x.s x.b (512 + i)) = true ∧ regFault x.s x.b x.act (512 + i) = none) → (k 2).toNat < 1024 → rpc % 8 = 0 → rpc < 2 ^ 54 →
    (k 2).toNat % 512 % 8 = 0 → (k 2).toNat % 512 + 8 ≤ windowLimit x.s x.b →
    ∃ t c, exec (.tret w) s = .next t ∧ findBatch t b.id = some c ∧ c.pc.toNat = rpc ∧ c.wb = (k 2).toNat % 512 ∧
      c.priv = (k 2).getLsbD 9 ∧ c.window = [] ∧ c.newRegion = true ∧
      c = { x.b with
        pc := c.pc, wb := c.wb, priv := c.priv, window := [], newRegion := true, gatherAt := none
        owed := x.b.retbuf.length, storesOwed := x.b.stores.length, parked := c.parked, parkedAt := c.parkedAt } ∧
      (∀ id, id ≠ b.id → findBatch t id = findBatch s id) ∧ t.mem = s.mem ∧ t.ctxs = s.ctxs

/-- The first failing check of a word is raised precisely at it, before its own effect (R75, Table 03-7); a blocked word
issued again has had its checks (R50). -/
def Obligations.WordChecksRaise : Prop :=
  ∀ (s : State) (i : Instr) (f : Form) (b : Batch) (c : Cause) (ls : W32), formOf s i = some f →
    findBatch s s.cur = some b → f.act b ≠ [] → mustPark s b (f.act b) f.sp = false → issuedAgain b f.sp = false →
    (decodeFault s b (f.act b) f.sp f.pairOk).or (readFault s b (f.act b) f.sp) = some (c, ls) →
    exec i s = .next (raise (f.start s b).s b.id { cause := c, lanes := ls, rpc := b.pc, word := f.sp.word })

/-- In unprivileged mode a privileged word, and a word with K = 1, takes PRIV, with none of its own effect (R78, R439). -/
def Obligations.PrivilegedWordsTrap : Prop :=
  ∀ (s : State) (i : Instr) (f : Form) (b : Batch), formOf s i = some f → (privileged i = true ∨ f.sp.k = true) →
    findBatch s s.cur = some b → b.priv = false → f.act b ≠ [] → mustPark s b (f.act b) f.sp = false →
    issuedAgain b f.sp = false →
    exec i s = .next (raise (f.start s b).s b.id { cause := .priv, rpc := b.pc, word := f.sp.word })

/-- A word whose guard is true in no live lane does nothing and raises nothing: it only retires (R75, R76). -/
def Obligations.InactiveWordsOnlyRetire : Prop :=
  ∀ (s : State) (i : Instr) (f : Form) (b : Batch), formOf s i = some f → findBatch s s.cur = some b → f.act b = [] →
    mustPark s b [] f.sp = false →
    ∃ t, exec i s = .next t ∧ Yields (f.start s b) t [] [] []

/-- A word that must wait for outstanding results parks its batch and does nothing else (R61, R62, R76). -/
def Obligations.WordsParkFirst : Prop :=
  ∀ (s : State) (i : Instr) (f : Form) (b : Batch), formOf s i = some f → findBatch s s.cur = some b →
    mustPark s b (f.act b) f.sp = true →
    ∃ t, exec i s = .next t ∧ findBatch t b.id = some { b with parked := true, parkedAt := s.clock } ∧
      (∀ id, id ≠ b.id → findBatch t id = findBatch s id) ∧ t = { s with batches := t.batches }

/-- A word that is no instruction raises ILL_FORM or ILL_OPCODE whatever its guard holds, its region begun where its bit 62
says so in a form that has that bit, and nothing else done before (R75, R77, R259). -/
def Obligations.NonInstructionsTrap : Prop :=
  ∀ (s : State) (b : Batch) (w : W64), findBatch s s.cur = some b → instructionOf w = none →
    exec (decodeWord w) s = .next (raise (startRegion s b (w.extractLsb' 60 2 != 3 && w.getLsbD 62)) b.id
      { cause := if w.extractLsb' 60 2 = 3 then .illForm else .illOpcode, rpc := b.pc, word := w })

/-! ## What each word does -/

/-- Integer arithmetic, addresses and moves. -/
def Obligations.IntegerWords : Prop := Fulfils integerTable
/-- Logic, shifts, bit fields, counts, compares and predicates. -/
def Obligations.LogicWords : Prop := Fulfils logicTable
/-- Floating-point and special-function words. -/
def Obligations.FloatWords : Prop := Fulfils floatTable
/-- Shuffles, votes, reductions, scans and matches of a pinned batch. -/
def Obligations.LaneWords : Prop := Fulfils laneTable
/-- NOP, UNPIN, YIELD, SLEEP and the pair word. -/
def Obligations.BatchWords : Prop := Fulfils batchTable
/-- Loads, stores, atomics, acquires, releases, fences and prefetches. -/
def Obligations.MemoryWords : Prop := Fulfils memTable
/-- Barriers and circular buffers. -/
def Obligations.BarrierWords : Prop := Fulfils syncTable
/-- Timelines, shapes, extended sets and accumulator counts. -/
def Obligations.ResourceWords : Prop := Fulfils miscTable
/-- The words of the matrix array. -/
def Obligations.MatrixWords : Prop := Fulfils matrixTable
/-- Events, triggers and submissions. -/
def Obligations.EventWords : Prop := Fulfils eventTable
/-- Fill arguments, generator lines, generator invalidation and ray queries. -/
def Obligations.FillAndRayWords : Prop := Fulfils unitTable
/-- System values, control and status registers, page generations, halts, remaps and monitors. -/
def Obligations.SystemWords : Prop := Fulfils systemTable
/-- FORK. -/
def Obligations.ForkWord : Prop := Fulfils forkTable

/-- Branches, calls and returns: each live lane goes to its own place, and the batch splits where the places differ. -/
def Obligations.BranchesGo : Prop :=
  ∀ (s : State) (i : Instr) (f : Form) (g : Exec → Option (Nat → Dest)) (b : Batch) (go : Nat → Dest),
    formOf s i = some f → goesTo i = some g → f.Ready s b → g (f.start s b) = some go →
    ¬ (Diverges (f.start s b) go ∧ (b.pin.isSome = true ∨ ownsTile s b = true)) →
    ∃ t, exec i s = .next t ∧ Branched (f.start s b) t go (branchKeeps i (f.start s b))

/-- A branch-type word that would send the live lanes of a pinned batch, or of one that owns a pending tile, to different
places raises XLANE_DIVERGE at the word, in the state in which it starts, with its own wait ended and no effect of its own
(R112, R212). -/
def Obligations.DivergenceTraps : Prop :=
  ∀ (s : State) (i : Instr) (f : Form) (g : Exec → Option (Nat → Dest)) (b : Batch) (go : Nat → Dest),
    formOf s i = some f → goesTo i = some g → f.Ready s b → g (f.start s b) = some go →
    Diverges (f.start s b) go → b.pin.isSome = true ∨ ownsTile s b = true →
    exec i s = .next (raise (endWait (f.start s b).s b) b.id { cause := .xlaneDiverge, rpc := b.pc, word := f.sp.word })

/-- LOOP decrements its counter in every active lane (R114). -/
def Obligations.LoopCountsDown : Prop :=
  ∀ (s : State) (w : IWord) (f : Form) (b : Batch), formOf s (.loop w) = some f → f.Ready s b →
    b.pin = none → ownsTile s b = false → Holds b (nameOf (f.start s b) .d 0) →
    ∃ t, exec (.loop w) s = .next t ∧ ∀ l ∈ f.act b, l < 32 → ∃ c ∈ t.batches, c.slot = b.slot ∧ l ∈ liveLanes c ∧
      laneVal (readReg t c (nameOf (f.start s b) .d 0)) l = lane (f.start s b) .d 0 l - 1

/-- A call writes its link to v0 and v1 under the new window base, in every lane that takes it, wherever the lanes go: the return
address with the frame count above it (R111, R115). Lanes that all go to one place stay one batch. -/
def Obligations.CallsWriteTheirLink : Prop :=
  ∀ (s : State) (i : Instr) (f : Form) (b : Batch) (g : Exec → Option (Nat → Dest)) (go : Nat → Dest) (frame : Nat),
    (∃ w, i = .call w ∧ frame = w.a.toNat) ∨ (∃ w, i = .calli w ∧ frame = 8 * (w.m.toNat % 64)) →
    formOf s i = some f → goesTo i = some g → f.Ready s b → g (f.start s b) = some go →
    ¬ (Diverges (f.start s b) go ∧ (b.pin.isSome = true ∨ ownsTile s b = true)) →
    Holds b (b.wb + frame) → Holds b (b.wb + frame + 1) →
    ∃ t, exec i s = .next t ∧ ∀ l ∈ f.act b, l < 32 → ∃ c ∈ t.batches, c.core = b.core ∧ c.slot = b.slot ∧ c.crew = b.crew ∧
      l ∈ liveLanes c ∧ c.pc = (go l).2.1 ∧ c.wb = b.wb + frame ∧
      (¬ Diverges (f.start s b) go → findBatch t b.id = some c ∧ liveLanes c = liveLanes b) ∧
      (laneVal (readReg t c c.wb) l).toNat + 2 ^ 32 * (laneVal (readReg t c (c.wb + 1)) l).toNat =
        (b.pc + 8).toNat + 2 ^ 54 * (frame / 8)

/-- QUIT, GATHER, FREEZE, the ends of fills and TRET leave the state that their rules give. -/
def Obligations.EndingWords : Prop :=
  ∀ (s : State) (i : Instr) (f : Form) (g : Exec → Option (State × List Nat)) (b : Batch) (u : State) (parts : List Nat),
    formOf s i = some f → leavesTable i = some g → f.Ready s b → g (f.start s b) = some (u, parts) →
    exec i s = .next (leaves (f.start s b) u parts)

/-- TRAP takes SOFT_TRAP, and BKPT takes BREAKPOINT where the context enables it, with the code of the word and the address
of the next word (R230). -/
def Obligations.TrapWords : Prop :=
  ∀ (s : State) (i : Instr) (f : Form) (g : Exec → Option TrapInfo) (b : Batch) (tr : TrapInfo),
    formOf s i = some f → trapTable i = some g → f.Ready s b → g (f.start s b) = some tr →
    exec i s = .next (raise (endWait (perfAdd (f.start s b).s b.crew 0 1) b) b.id tr)

/-- IADD, ISUB and IMUL of an affine and a uniform operand, in either order and with an immediate, that write every live lane
of a register that is not general leave it affine, with the base and the stride of Table 02-2 (R42; a general destination
stays general, R43). -/
def Obligations.AffineSums : Prop :=
  ∀ (s : State) (i : Instr) (f : Form) (b : Batch) (va vb : RegVal) (base stride : W32),
    formOf s i = some f → f.Ready s b → f.sp.eph = false →
    let x := f.start s b
    let d := nameOf x .d 0
    f.act b = liveLanes b → Holds b d → d < b.regs.length → (∀ ls, bankReg x.s x.b d ≠ .g ls) →
    affineOperands x i = some (va, vb) → affineResult i va vb = some (base, stride) →
    ∃ t c, exec i s = .next t ∧ findBatch t b.id = some c ∧ readReg t c d = .a base stride

/-- A write that leaves a live lane unwritten makes its register G and keeps the unwritten lanes' values, and a write to a
G register keeps it G, whatever the shape of the result (R43). -/
def Obligations.PartialWritesMakeGeneral : Prop :=
  ∀ (s : State) (b : Batch) (act : List Nat) (i : Nat) (new : RegVal), findBatch s b.id = some b → Holds b i →
    ∃ c, findBatch (putReg s b.id act i new) b.id = some c ∧
      ((∃ l ∈ liveLanes b, l < 32 ∧ l ∉ act) ∨ (∃ ls, bankReg s b i = .g ls) →
        ∃ ls, bankReg (putReg s b.id act i new) c i = .g ls) ∧
      ∀ l ∈ liveLanes b, l < 32 → l ∉ act → laneVal (bankReg (putReg s b.id act i new) c i) l = bankVal s b i l

/-- A write of the FP status word sets the flags and their enables under its mask; bit n of RPT clears where flag n becomes
0, and reserved bits read as zero (R149, R152). -/
def Obligations.FpStatusWrite : Prop :=
  ∀ (st a b : W32),
    (∀ i, i < 5 ∨ (8 ≤ i ∧ i < 13) →
      (fpStatWrite st a b).getLsbD i = ((st.getLsbD i && !b.getLsbD i) || (a.getLsbD i && b.getLsbD i))) ∧
    (∀ n, n < 5 → (fpStatWrite st a b).getLsbD (16 + n) = (st.getLsbD (16 + n) && (fpStatWrite st a b).getLsbD n)) ∧
    ∀ i, (5 ≤ i ∧ i < 8) ∨ (13 ≤ i ∧ i < 16) ∨ 21 ≤ i → (fpStatWrite st a b).getLsbD i = false

/-! ## When words complete -/

/-- BRA, BRI, LOOP, CALL, CALLI and RET of a batch that is not pinned and owns no pending tile complete where every active
lane's address is a place for code and the window exists (R113 to R116): exec answers a next state in which every live lane
stands where the word sends it. -/
def Obligations.BranchesComplete : Prop :=
  ∀ (s : State) (i : Instr) (f : Form) (p : When) (b : Batch), formOf s i = some f → branchWhen i = some p → f.Ready s b →
    b.pin = none → ownsTile s b = false → p (f.start s b) = true →
    ∃ t, exec i s = .next t ∧ ∃ g go, goesTo i = some g ∧ g (f.start s b) = some go ∧
      Branched (f.start s b) t go (branchKeeps i (f.start s b))

/-- BARINIT, BARARR, BARWAIT, BARSYNC, BAREXP, BARQ, CBINIT, CBACQ, CBREL, CBPUT, CBQ, TLWAIT, TLQ, SHAPE, SHAPE.G, XACQ, XREL,
ACCGROW and ACCFREE complete under the conditions of their rules (R167 to R184), with their effect. -/
def Obligations.BarrierAndResourceWordsComplete : Prop := Completing barrierWhen barrierEffect

/-- WLOAD, WSWAP, WTAB, WWAIT, MMQ, ACCZ, ACCRD, ACCWR, DRAIN, DRAINST, WSTAT and WBMAP complete under the conditions of their
rules (R188 to R220), with their effect. -/
def Obligations.MatrixWordsComplete : Prop := Completing matrixWhen matrixTable

/-- The event words, SPAWN, TLADV, FLUESUB, CUTSEL and their resets, FILLARG, FILLPUT, GENINV, RAYQ, RAYRD and the system words
complete under the conditions of their rules, with their effect. -/
def Obligations.UnitWordsComplete : Prop := Completing unitWhen unitEffect

/-! ## What the hardware and the world outside do -/

/-- Merges, parks, sleeps, trap entries after a park, the watchdog, extended sets taken again, and write-backs. A line that is
written back, and meets no error, is clean and keeps its bytes; its dirty bytes are at their home and every other byte of memory, and
every other line, is as before; while a remap step runs on the home's column, or behind a DOWN link, no byte of memory changes
(R331, R448, R482). The watchdog's waiting members (log 78), the word at which a landing error is raised (log 74), that a merge comes
between words only (log 59), what errors it meets (log 104) and write-backs that wait (log 48) are the model's. -/
def Obligations.CoreEvents : Prop :=
  Happens coreEvents ∧
  ∀ (s : State) (core line : Nat) (l : L1Line), kvGet (coreD s core).l1 line = some l → badBytes s core line l = 0 →
    ∃ t, exec (.lineWriteback core line) s = .next t ∧
      (∃ l', kvGet (coreD t core).l1 line = some l' ∧ l'.dirty = 0 ∧ l'.bytes = l.bytes) ∧
      (∀ k, k ≠ line → kvGet (coreD t core).l1 k = kvGet (coreD s core).l1 k) ∧ (∀ c, c ≠ core → coreD t c = coreD s c) ∧
      (remapBusy s (128 * line) = false → paLost s (128 * line) = false →
        ∀ i v, i < 128 → l.bytes[i]? = some v → l.dirty.testBit i = true → memByte t (128 * line + i) = v) ∧
      (∀ a, (a / 128 = line → l.dirty.testBit (a % 128) = false) → memByte t a = memByte s a) ∧
      (remapBusy s (128 * line) = true ∨ paLost s (128 * line) = true → ∀ a, memByte t a = memByte s a)
/-- Passes, plane exchanges, weight loads and their arrivals. -/
def Obligations.ArrayEvents : Prop := Happens arrayEvents
/-- Placement, pre-emption, restore, aging and slab roles. -/
def Obligations.PlacementEvents : Prop := Happens placeEvents
/-- Triggers, runs and nodes. -/
def Obligations.GraphEvents : Prop := Happens graphEvents
/-- The commands of Flue contexts and the runs of the Splitter. -/
def Obligations.FlueEvents : Prop := Happens flueEvents
/-- The Hearth and the generator table. -/
def Obligations.HearthEvents : Prop := Happens hearthEvents
/-- Repair, gating and the thermal trip. -/
def Obligations.HealthEvents : Prop := Happens healthEvents
/-- Commands of the driver to the context slots, and what ends them. -/
def Obligations.ContextEvents : Prop := Happens contextEvents
/-- Registers, links, scan-out, attestation, firmware, reset and power. -/
def Obligations.DeviceEvents : Prop := Happens deviceEvents

/-- Accesses of the host and of peers: performed at the home, or answered with an error or, in recovery, with nothing (R491);
an absent address faults. -/
def Obligations.BusEvents : Prop :=
  (∀ i e, busEvents i = some e → ∀ s t, e s = some t → exec i s = .next t) ∧
  (∀ (a : BusAccess) (s : State), s.ident.recov = false → busRange s false a.pa (busBytes a.op) = .absent → exec (.hostMemAccess a) s = .fault (.absentPA a.pa)) ∧
  ∀ (a : BusAccess) (s : State), s.ident.recov = false → busRange s true a.pa (busBytes a.op) = .absent → exec (.peerAccess a) s = .fault (.absentPA a.pa)

/-- A merge keeps every lane's fibre and the value of every register of the base set, of the extended set where the two hold it, and
of every k register in every lane, empties the forwarding window, and leaves one batch (R45, R252), where it meets no error
(log 104). -/
def Obligations.MergeKeepsLanes : Prop :=
  ∀ (s : State) (a b : Nat) (x y : Batch), findBatch s a = some x → findBatch s b = some y → canMerge s x y = true →
    joinFault s [x, y] = none →
    ∃ t c, exec (.batchMerge a b) s = .next t ∧ findBatch t a = some c ∧ findBatch t b = none ∧ c.window = [] ∧
      c.xheld = x.xheld ∧
      (∀ l, l ∈ liveLanes c ↔ l ∈ liveLanes x ∨ l ∈ liveLanes y) ∧
      (∀ l ∈ liveLanes x, fibreOf c l = fibreOf x l) ∧ (∀ l ∈ liveLanes y, fibreOf c l = fibreOf y l) ∧
      ∀ i, (i < x.regs.length ∧ i < 512) ∨
          (x.xheld = true ∧ x.regs.length ≤ i ∧ i < x.regs.length + x.xregs.length ∧ i < 512) ∨ (512 ≤ i ∧ i < 544) →
        ∀ l, l < 32 →
          (l ∈ liveLanes x → bankVal t c i l = bankVal s x i l) ∧ (l ∈ liveLanes y → bankVal t c i l = bankVal s y i l)

/-- At the end of a park every outstanding result is in its registers, in each lane that it has written and no later one writes
(R61: in program order), the return buffer is empty and the batch goes on, where no result meets an error (R287). -/
def Obligations.ParkWritesResults : Prop :=
  ∀ (s : State) (b : Batch) (ps qs : List Pending) (m : W32) (vals : List (Nat × RegVal)) (fl : LaneFlags),
    findBatch s b.id = some b → parkOver s b = true → landFault s b = none → b.retbuf = ps ++ .result m vals fl :: qs →
    (∀ l, m.getLsbD l = true → l ∈ liveLanes b) → (vals.map (·.1)).Nodup → (∀ p ∈ vals, ∀ i, p.2 ≠ .t i) →
    (∀ p ∈ vals, Holds b p.1) →
    ∃ t c, exec (.parkResume b.id) s = .next t ∧ findBatch t b.id = some c ∧ c.parked = false ∧ c.retbuf = [] ∧ c.pc = b.pc ∧
      ∀ p ∈ vals, ∀ l, l < 32 → m.getLsbD l = true →
        (∀ m' vals' fl', .result m' vals' fl' ∈ qs → m'.getLsbD l = true → ∀ q ∈ vals', q.1 ≠ p.1) →
        laneVal (readReg t c p.1) l = laneVal p.2 l
end

