-- ==== Sys2Proof/Laws/Memory.lean ====
section
/-! SUPPORT. Every memory operation keeps memory and the zero mask in canonical form, and a byte written at the home reads
back. -/
namespace Sys2Proof.Machine
open Sys2Proof

theorem canonical_of_eq {s t : State} (hm : t.mem = s.mem) (hz : t.zeroMask = s.zeroMask) (h : s.canonical) : t.canonical := by
  unfold State.canonical at *; rw [hm, hz]; exact h

theorem reset_canonical : State.reset.canonical := ⟨rfl, rfl⟩

/-- A fold of steps that keep the form keeps it. -/
theorem canonical_foldl {α : Type} (f : State → α → State) (hf : ∀ s a, s.canonical → (f s a).canonical) (l : List α) :
    ∀ s : State, s.canonical → (l.foldl f s).canonical := by
  induction l with
  | nil => exact fun _ h => h
  | cons a l ih => exact fun s h => ih _ (hf s a h)

/-- A write that ends errors ends nothing else of memory. -/
@[simp] theorem mendWords_mem (s : State) (pa n : Nat) : (mendWords s pa n).mem = s.mem := by unfold mendWords; split <;> rfl
@[simp] theorem mendWords_zeroMask (s : State) (pa n : Nat) : (mendWords s pa n).zeroMask = s.zeroMask := by
  unfold mendWords; split <;> rfl

theorem mendWords_canonical (s : State) (pa n : Nat) (h : s.canonical) : (mendWords s pa n).canonical :=
  canonical_of_eq (mendWords_mem s pa n) (mendWords_zeroMask s pa n) h

theorem unzeroLine_canonical (s : State) (pa : Nat) (h : s.canonical) : (unzeroLine s pa).canonical := by
  have h' := mendWords_canonical s (pa / 128 * 128) 128 h
  unfold unzeroLine
  split
  · exact ⟨kvWf_filter _ _ _ h'.1, kvPut_wf _ _ _ _ h'.2⟩
  · exact h

theorem homePut_canonical (s : State) (pa : Nat) (v : Byte) (h : s.canonical) : (homePut s pa v).canonical :=
  ⟨kvPut_wf _ _ _ _ (unzeroLine_canonical s pa h).1, (unzeroLine_canonical s pa h).2⟩

theorem modStamps_canonical (s : State) (pa n : Nat) (f : Nat × Stamp → Stamp) (h : s.canonical) :
    (modStamps s pa n f).canonical := by
  unfold modStamps; split <;> exact h

theorem touchStamps_canonical (s : State) (pa n : Nat) (h : s.canonical) : (touchStamps s pa n).canonical :=
  modStamps_canonical _ _ _ _ h

theorem homeWrite_canonical (s : State) (pa : Nat) (bs : List Byte) (h : s.canonical) : (homeWrite s pa bs).canonical := by
  unfold homeWrite
  split
  · exact h
  · refine touchStamps_canonical _ _ _ (mendWords_canonical _ _ _ ?_)
    have key : ∀ (bs : List Byte) (p : State × Nat), p.1.canonical →
        (bs.foldl (fun (p : State × Nat) v => (homePut p.1 p.2 v, p.2 + 1)) p).1.canonical := by
      intro bs
      induction bs with
      | nil => exact fun _ h => h
      | cons b bs ih => exact fun p h => ih _ (homePut_canonical p.1 p.2 b h)
    exact key bs (touchHome s pa bs.length, pa) h

theorem homeWriteNat_canonical (s : State) (pa n v : Nat) (h : s.canonical) : (homeWriteNat s pa n v).canonical :=
  homeWrite_canonical _ _ _ h

theorem recOr_canonical (s : State) (ctx i m : Nat) (h : s.canonical) : (recOr s ctx i m).canonical := homeWriteNat_canonical _ _ _ _ h

theorem recField_canonical (s : State) (ctx i lo n v : Nat) (h : s.canonical) : (recField s ctx i lo n v).canonical :=
  homeWriteNat_canonical _ _ _ _ h

theorem clearUpsets_mem (s : State) (p : Upset → Bool) :
    (clearUpsets s p).mem = s.mem ∧ (clearUpsets s p).zeroMask = s.zeroMask := by
  unfold clearUpsets; split <;> exact ⟨rfl, rfl⟩

theorem setL1_canonical (s : State) (core key : Nat) (l : L1Line) (h : s.canonical) : (setL1 s core key l).canonical := h

theorem clearLine_canonical (s : State) (core key : Nat) (h : s.canonical) : (clearLine s core key).canonical :=
  canonical_of_eq (clearUpsets_mem _ _).1 (clearUpsets_mem _ _).2 h

theorem dropL1_canonical (s : State) (core key : Nat) (h : s.canonical) : (dropL1 s core key).canonical :=
  clearLine_canonical s core key h

theorem loseBad_canonical (s : State) (core key : Nat) (h : s.canonical) : (loseBad s core key).canonical := by
  unfold loseBad
  split
  · exact h
  · split
    · exact h
    · dsimp only
      split
      · exact h
      · exact clearLine_canonical s core key h

theorem flushLine_canonical (s : State) (core key : Nat) (l : L1Line) (h : s.canonical) : (flushLine s core key l).canonical := by
  unfold flushLine
  split
  · exact h
  · refine canonical_of_eq rfl rfl (canonical_foldl (fun s w =>
        if l.dirty / 2 ^ (8 * w) % 256 = 255 then mendWords s (128 * key + 8 * w) 8 else s) ?_ (List.range 16) _
      (canonical_foldl (fun s (p : Nat × Byte) => homePut s (128 * key + p.1) p.2) (fun s a => homePut_canonical s _ _)
        (dirtyBytes l) (touchHome s (128 * key) 128) h))
    intro s a hs
    split
    · exact mendWords_canonical _ _ _ hs
    · exact hs

theorem writeBack_canonical (s : State) (core key : Nat) (h : s.canonical) : (writeBack s core key).canonical := by
  unfold writeBack
  have h' := loseBad_canonical s core key h
  revert h'
  generalize loseBad s core key = u
  intro h'
  dsimp only
  split
  · exact h'
  · next l _ =>
    split
    · exact h'
    · split
      · exact h'
      · exact flushLine_canonical _ _ _ _ h'

theorem drainCore_canonical (s : State) (core scope mask : Nat) (h : s.canonical) : (drainCore s core scope mask).canonical := by
  unfold drainCore
  split
  · exact h
  · exact canonical_foldl _ (fun s k => writeBack_canonical s core k) _ _ h

theorem drainRecords_canonical (s : State) (core pa : Nat) (h : s.canonical) : (drainRecords s core pa).canonical := by
  unfold drainRecords
  exact canonical_foldl (fun s (r : RelRec) => drainCore s r.core r.scope r.mask) (fun s r => drainCore_canonical s _ _ _) _ _ h

theorem homeStore_canonical (s : State) (core pa : Nat) (bs : List Byte) (h : s.canonical) : (homeStore s core pa bs).canonical := by
  unfold homeStore
  have h' := homeWrite_canonical s pa bs h
  dsimp only
  split <;> exact h'

theorem scratchWrite_canonical (s : State) (crew off : Nat) (bs : List Byte) (h : s.canonical) :
    (scratchWrite s crew off bs).canonical :=
  canonical_of_eq (clearUpsets_mem _ _).1 (clearUpsets_mem _ _).2 (touchStamps_canonical _ (scratchKey crew off) _ h)

theorem monSample_canonical (s : State) (a b c : Nat) (h : s.canonical) : (monSample s a b c).canonical := h

theorem useHome_canonical (s : State) (pa : Nat) (h : s.canonical) : (useHome s pa).canonical := h

theorem countHome_canonical (s : State) (crew ctx pa : Nat) (h : s.canonical) : (countHome s crew ctx pa).canonical := by
  unfold countHome
  have h' := useHome_canonical s pa h
  revert h'
  generalize useHome s pa = u
  intro h'
  dsimp only
  split
  · exact h'
  · split <;> exact h'

theorem countMiss_canonical (s : State) (crew ctx pa : Nat) (h : s.canonical) : (countMiss s crew ctx pa).canonical :=
  countHome_canonical (perfAdd s crew 4 1) _ _ _ h

theorem noteFill_canonical (s : State) (core key dirty : Nat) (h : s.canonical) : (noteFill s core key dirty).canonical :=
  modStamps_canonical _ _ _ _ h

theorem l1Fill_canonical (s : State) (core key : Nat) (leaf : W64) (bs : List Byte) (fl : Option Nat) (h : s.canonical) :
    (l1Fill s core key leaf bs fl).canonical := by
  unfold l1Fill
  refine setL1_canonical _ _ _ _ (noteFill_canonical _ _ _ _ ?_)
  split
  · exact clearLine_canonical s core key h
  · exact h

theorem l1Ensure_canonical (s : State) (core key crew ctx : Nat) (leaf : W64) (home : State → List Byte) (fl : Option Nat)
    (h : s.canonical) : (l1Ensure s core key crew ctx leaf home fl).canonical := by
  unfold l1Ensure
  split
  · split <;> exact h
  · exact l1Fill_canonical _ _ _ _ _ _ (countMiss_canonical _ _ _ _ h)

theorem l1Store_canonical (s : State) (core key off : Nat) (bs : List Byte) (colour : Nat) (owner : Nat × Nat) (h : s.canonical) :
    (l1Store s core key off bs colour owner).canonical := by
  unfold l1Store
  have h' : (clearUpsets s fun u => match u with
    | .line c k w => c == core && k == key && decide (off ≤ 8 * w) && decide (8 * w + 8 ≤ off + bs.length)
    | _ => false).canonical := canonical_of_eq (clearUpsets_mem _ _).1 (clearUpsets_mem _ _).2 h
  dsimp only
  split <;> exact h'

theorem overStamps_canonical (s : State) (core pa n : Nat) (h : s.canonical) : (overStamps s core pa n).canonical :=
  modStamps_canonical _ _ _ _ h

theorem refreshCopy_canonical (s : State) (core pa : Nat) (bs : List Byte) (h : s.canonical) :
    (refreshCopy s core pa bs).canonical := by
  unfold refreshCopy
  split
  · exact h
  · exact setL1_canonical _ _ _ _ (modStamps_canonical _ _ _ _ h)

theorem loadLoc_canonical (s : State) (b : Batch) (n : Nat) (loc : Loc) (h : s.canonical) : (loadLoc s b n loc).1.canonical := by
  cases loc with
  | scratch _ _ => exact h
  | checked pa _ => exact countHome_canonical _ _ _ _ h
  | mem pa l fl => exact l1Ensure_canonical _ _ _ _ _ _ _ _ h
  | gen va l line =>
    unfold loadLoc
    dsimp only
    split
    · exact h
    · exact l1Fill_canonical _ _ _ _ _ _ h
  | xform va l =>
    unfold loadLoc
    dsimp only
    have key : ∀ (els : List Nat) (f : State → Nat → List Byte) (p : State × List Byte), p.1.canonical →
        (els.foldl (fun (st : State × List Byte) pa =>
          (l1Ensure st.1 b.core (pa / 128) b.crew b.ctx l.e (homeLine (pa / 128)) none,
            st.2 ++ f (l1Ensure st.1 b.core (pa / 128) b.crew b.ctx l.e (homeLine (pa / 128)) none) pa)) p).1.canonical := by
      intro els f
      induction els with
      | nil => exact fun _ h => h
      | cons e els ih => exact fun p h => ih _ (l1Ensure_canonical _ _ _ _ _ _ _ _ h)
    exact key _ (fun s pa => leBytes (elemBytes (xformElems _ b.ctx l va n).2.2) (elemConvert (xformElems _ b.ctx l va n).2.1
      (xformElems _ b.ctx l va n).2.2 (leNat (lineRead (((kvGet (coreD s b.core).l1 (pa / 128)).map (·.bytes)).getD []) (pa % 128)
        (elemBytes (xformElems _ b.ctx l va n).2.1))))) (s, []) h

theorem storeLoc_canonical (s : State) (b : Batch) (bs : List Byte) (colour : Nat) (loc : Loc) (h : s.canonical) :
    (storeLoc s b bs colour loc).canonical := by
  cases loc with
  | scratch _ _ => exact scratchWrite_canonical _ _ _ _ h
  | checked pa l =>
    unfold storeLoc
    dsimp only
    split
    · exact countHome_canonical _ _ _ _ h
    · exact homeWrite_canonical (recordWriter (countHome s b.crew b.ctx pa) b.crew pa bs.length false) _ _
        (countHome_canonical _ _ _ _ h)
  | mem pa l fl => exact overStamps_canonical _ _ _ _ (l1Store_canonical _ _ _ _ _ _ _ (l1Ensure_canonical _ _ _ _ _ _ _ _ h))
  | gen _ _ _ => exact h
  | xform va l =>
    unfold storeLoc
    dsimp only
    have key : ∀ (els : List Nat) (f : List Byte → List Byte) (n : Nat) (p : State × List Byte), p.1.canonical →
        (els.foldl (fun (st : State × List Byte) pa =>
          (overStamps (l1Store (l1Ensure st.1 b.core (pa / 128) b.crew b.ctx l.e (homeLine (pa / 128)) none) b.core (pa / 128)
            (pa % 128) (f st.2) colour (b.ctx, b.crew)) b.core pa (elemBytes (xformElems s b.ctx l va bs.length).2.1),
            st.2.drop n)) p).1.canonical := by
      intro els f n
      induction els with
      | nil => exact fun _ h => h
      | cons e els ih =>
        exact fun p h => ih _ (overStamps_canonical _ _ _ _
          (l1Store_canonical _ _ _ _ _ _ _ (l1Ensure_canonical _ _ _ _ _ _ _ _ h)))
    exact key _ (fun bs' => leBytes (elemBytes (xformElems s b.ctx l va bs.length).2.1)
      (elemConvert (xformElems s b.ctx l va bs.length).2.2 (xformElems s b.ctx l va bs.length).2.1
        (leNat (bs'.take (elemBytes (xformElems s b.ctx l va bs.length).2.2)))))
      (elemBytes (xformElems s b.ctx l va bs.length).2.2) (s, bs) h

theorem homeLoad_canonical (s : State) (b : Batch) (n : Nat) (loc : Loc) (h : s.canonical) : (homeLoad s b n loc).1.canonical := by
  cases loc with
  | mem pa _ _ => exact refreshCopy_canonical _ _ _ _ (writeBack_canonical _ _ _ (countHome_canonical _ _ _ _ h))
  | _ => exact loadLoc_canonical _ _ _ _ h

/-! ### Held stores (R318) -/

theorem performStore_canonical (s : State) (b : Batch) (r : StoreSrc) (h : s.canonical) : (performStore s b r).canonical := by
  unfold performStore
  split
  · exact h
  · exact storeLoc_canonical _ _ _ _ _ h

theorem performThose_canonical (s : State) (b : Batch) (pick : Nat → Bool) (h : s.canonical) : (performThose s b pick).canonical := by
  unfold performThose
  dsimp only
  split
  · exact h
  · exact canonical_foldl (fun s (p : StoreSrc × Nat) => performStore s b p.1) (fun s a => performStore_canonical s b a.1) _ s h

theorem performStores_canonical (s : State) (b : Batch) (n : Nat) (h : s.canonical) : (performStores s b n).canonical :=
  performThose_canonical _ _ _ h

theorem settleStores_canonical (s : State) (b : Batch) (lane n : Nat) (loc : Loc) (h : s.canonical) :
    (settleStores s b lane n loc).canonical := by
  unfold settleStores
  split
  · exact h
  · split
    · exact h
    · exact performStores_canonical _ _ _ h

theorem drainStores_canonical (s : State) (bid : Nat) (h : s.canonical) : (drainStores s bid).canonical := by
  unfold drainStores
  split
  · exact h
  · split
    · exact h
    · exact performStores_canonical _ _ _ h

/-- A batch with no held store performs none. -/
theorem performStores_none (s : State) (b : Batch) (n : Nat) (h : b.stores = []) : performStores s b n = s := by
  simp [performStores, performThose, h]

/-! ### Reading after a write at the home -/

theorem kvGetD_filter {α : Type} (t : List (Nat × α)) (f : Nat → Bool) (j : Nat) (d : α) :
    kvGetD (t.filter fun p => f p.1) j d = if f j then kvGetD t j d else d := by
  unfold kvGetD; rw [kvGet_filter]; split <;> rfl

/-- The first write to a line ends its zero bit, and no other line's. -/
theorem lineZero_unzero (s : State) (pa a : Nat) : lineZero (unzeroLine s pa) a = (lineZero s a && decide (a / 128 ≠ pa / 128)) := by
  unfold unzeroLine
  split
  · next h =>
    unfold lineZero at h ⊢
    dsimp only
    rw [kvGetD_kvPut, mendWords_zeroMask]
    split
    · next e =>
      rw [Nat.testBit_xor, Nat.testBit_two_pow, e]
      by_cases e2 : a / 128 = pa / 128
      · simp [e2, h]
      · have : ¬ pa / 128 % 32 = a / 128 % 32 := by omega
        simp [e2, this]
    · next e =>
      have : a / 128 ≠ pa / 128 := by omega
      simp [this]
  · next h =>
    by_cases e : a / 128 = pa / 128
    · have : lineZero s a = lineZero s pa := by
        unfold lineZero
        have e1 : a / 4096 = pa / 4096 := by omega
        rw [e, e1]
      simp [e, this, h]
    · simp [e]

/-- A byte written at the home reads back; every other byte reads as before. -/
theorem homeByte_homePut (s : State) (pa : Nat) (v : Byte) (a : Nat) :
    homeByte (homePut s pa v) a = if a = pa then v else homeByte s a := by
  unfold homePut homeByte
  have hz : lineZero { unzeroLine s pa with mem := kvPut 0 (unzeroLine s pa).mem pa v } a = lineZero (unzeroLine s pa) a := rfl
  rw [hz, lineZero_unzero]
  dsimp only
  rw [kvGetD_kvPut]
  by_cases e : a = pa
  · subst e; simp
  · simp only [e, if_false]
    by_cases e2 : a / 128 = pa / 128
    · simp only [e2, ne_eq, not_true, decide_false, Bool.and_false, Bool.false_eq_true, if_false]
      unfold unzeroLine
      have hl : lineZero s a = lineZero s pa := by
        unfold lineZero
        have e1 : a / 4096 = pa / 4096 := by omega
        rw [e2, e1]
      rw [hl]
      split
      · next h =>
        dsimp only
        rw [mendWords_mem, kvGetD_filter s.mem (fun c => decide (c < pa / 128 * 128 ∨ pa / 128 * 128 + 128 ≤ c)) a 0]
        have : ¬ (a < pa / 128 * 128 ∨ pa / 128 * 128 + 128 ≤ a) := by omega
        simp [this]
      · rfl
    · simp only [e2, ne_eq, not_false_eq_true, decide_true, Bool.and_true]
      split
      · rfl
      · unfold unzeroLine
        split
        · dsimp only
          rw [mendWords_mem, kvGetD_filter s.mem (fun c => decide (c < pa / 128 * 128 ∨ pa / 128 * 128 + 128 ≤ c)) a 0]
          have : (a < pa / 128 * 128 ∨ pa / 128 * 128 + 128 ≤ a) := by omega
          simp [this]
        · rfl

end Sys2Proof.Machine
end

