-- ==== Sys2Proof/Tests/Slice0.lean ====
section
/-! SUPPORT. Tests: words of the spec's worked examples, ill-formed terms that the checks refuse, worked values of the
rules, and for every statement with hypotheses a state and operands that meet them all (a witness for every word and
every event of a table). -/
namespace Sys2Proof.Tests
open Sys2Proof Sys2Proof.Machine
set_option Elab.async false

/-! ### States and words of the tests -/

/-- Batch 2 of crew 1 on core 0 is the one whose word executes; 32 lanes are live, privileged, every predicate true. -/
def base : State := { State.reset.withFetchWord 64 0 with cur := 2 }

/-- The same with another batch, crew, context 0 or core 0. -/
def onBatch (f : Batch → Batch) (s : State) : State := modBatch s 2 f
def onCrew (f : Crew → Crew) (s : State) : State := modCrew s 1 f
def onCtx (f : Context → Context) (s : State) : State := modCtx s 0 f
def onCore (f : Core → Core) (s : State) : State := modCore s 0 f

/-- With these uniform registers. -/
def regs (rs : List (Nat × W32)) (s : State) : State :=
  onBatch (fun b => { b with regs := rs.foldl (fun r p => r.set p.1 (.u p.2)) b.regs }) s

/-- The registers of the witnesses: a data address in v0 and v1, small numbers above. -/
def st : State := regs [(0, 0x400000), (2, 3), (4, 1), (6, 0x100)] base

/-- The crew's launch header with another word. -/
def hdr (i : Nat) (v : W64) (s : State) : State := onCrew (fun c => { c with hdr := c.hdr.set i v }) s

/-- An unguarded F-form word of these fields, and an I-form word. -/
def fw (d a b c m : Nat) : FWord :=
  ⟨false, false, 7, false, BitVec.ofNat 9 d, BitVec.ofNat 9 a, BitVec.ofNat 9 b, BitVec.ofNat 9 c, false, BitVec.ofNat 11 m⟩
def iw (d a imm : Nat) : IWord := ⟨false, false, 7, false, BitVec.ofNat 9 d, BitVec.ofNat 9 a, BitVec.ofNat 32 imm⟩

/-! ### What a witness shows -/

/-- The word comes to its own effect and `p` holds of its form and batch. -/
def comesTo (s : State) (i : Instr) (p : Form → Batch → Bool) : Bool :=
  match formOf s i, findBatch s s.cur with
  | some f, some b => !(f.act b).isEmpty && !mustPark s b (f.act b) f.sp &&
      (decodeFault s b (f.act b) f.sp f.pairOk).isNone && (readFault s b (f.act b) f.sp).isNone && p f b
  | _, _ => false

theorem comesTo_ready {s : State} {i : Instr} {p : Form → Batch → Bool} (h : comesTo s i p = true) :
    ∃ f b, formOf s i = some f ∧ f.Ready s b ∧ p f b = true := by
  unfold comesTo at h
  split at h
  · rename_i f b hf hb
    simp only [Bool.and_eq_true, Bool.not_eq_true', Option.isNone_iff_eq_none] at h
    obtain ⟨⟨⟨⟨h1, h2⟩, h3⟩, h4⟩, h5⟩ := h
    exact ⟨f, b, hf, ⟨hb, by simpa using h1, h2, h3, h4⟩, h5⟩
  · cases h

/-- The hypotheses of Fulfils, met. -/
def Meets (table : Instr → Option Effect) (s : State) (i : Instr) : Prop :=
  ∃ f e b u r, formOf s i = some f ∧ table i = some e ∧ f.Ready s b ∧ e (f.start s b) = some (u, r)

def meetsB (table : Instr → Option Effect) (s : State) (i : Instr) : Bool :=
  comesTo s i fun f b => ((table i).bind fun e => e (f.start s b)).isSome

theorem meets_all {table : Instr → Option Effect} {cs : List (State × Instr)}
    (h : (cs.all fun p => meetsB table p.1 p.2) = true) : ∀ p ∈ cs, Meets table p.1 p.2 := by
  intro p hp
  obtain ⟨f, b, hf, hr, hx⟩ := comesTo_ready (List.all_eq_true.mp h p hp)
  obtain ⟨⟨u, r⟩, hq⟩ := Option.isSome_iff_exists.mp hx
  obtain ⟨e, he, hq⟩ := Option.bind_eq_some_iff.mp hq
  exact ⟨f, e, b, u, r, hf, he, hr, hq⟩

/-- An event that is due: the hypotheses of Happens, met. -/
def Due (table : Instr → Option EventEffect) (s : State) (i : Instr) : Prop := ∃ e t, table i = some e ∧ e s = some t

def dueB (table : Instr → Option EventEffect) (s : State) (i : Instr) : Bool := ((table i).bind fun e => e s).isSome

theorem due_all {table : Instr → Option EventEffect} {cs : List (State × Instr)}
    (h : (cs.all fun p => dueB table p.1 p.2) = true) : ∀ p ∈ cs, Due table p.1 p.2 := by
  intro p hp
  obtain ⟨t, ht⟩ := Option.isSome_iff_exists.mp (List.all_eq_true.mp h p hp)
  obtain ⟨e, he, ht⟩ := Option.bind_eq_some_iff.mp ht
  exact ⟨e, t, he, ht⟩

/-! ### Words -/

def on (s : State) (is : List Instr) : List (State × Instr) := is.map fun i => (s, i)

def integerCases : List (State × Instr) := on (regs [(1, 7)] st) [
  .iadd (fw 8 1 2 0 1), .isub (fw 8 1 2 0 1), .imul (fw 8 1 2 0 1), .imad (fw 8 1 2 3 1), .imin (fw 8 1 2 0 1),
  .imax (fw 8 1 2 0 1), .iabs (fw 8 1 0 0 0), .ineg (fw 8 1 0 0 0), .iclamp (fw 8 1 2 3 1), .imulh (fw 8 1 2 0 1),
  .idiv (fw 8 1 2 0 1), .irem (fw 8 1 2 0 1), .idot4 (fw 8 1 2 3 0), .iaddx (fw 8 1 2 0 1), .imadw (fw 8 1 2 4 1),
  .lea (fw 8 4 2 0 0), .add64 (fw 8 0 2 0 2), .sub64 (fw 8 0 2 0 2), .add64I (iw 8 0 5), .iaddI (iw 8 1 5),
  .imulI (iw 8 1 5), .movi (iw 8 0 5), .movhi (iw 8 0 5), .mov (fw 8 1 0 0 0), .sel (fw 8 1 2 0 0)]

def logicCases : List (State × Instr) := on st [
  .andB (fw 8 0 2 0 0), .orB (fw 8 0 2 0 0), .xorB (fw 8 0 2 0 0), .andnB (fw 8 0 2 0 0), .lop3 (fw 8 0 2 4 0xCA),
  .shl (fw 8 0 2 0 0), .shr (fw 8 0 2 0 0), .shra (fw 8 0 2 0 0), .rot (fw 8 0 2 0 0), .fshf (fw 8 0 2 4 0),
  .bfx (fw 8 0 2 4 0), .bfi (fw 8 0 2 4 0), .popc (fw 8 0 0 0 0), .clz (fw 8 0 0 0 0), .brev (fw 8 0 0 0 0),
  .bperm (fw 8 0 2 4 0), .andBI (iw 8 0 5), .orBI (iw 8 0 5), .xorBI (iw 8 0 5), .shlI (iw 8 0 5), .shrI (iw 8 0 5),
  .shraI (iw 8 0 5), .icmp (fw 3 0 2 0 9), .icmpi (iw (9 * 32 + 3) 0 5), .plop (fw 5 1 2 3 0xCA), .pmovr (fw 8 0 0 0 0),
  .pmovp (fw 0 0 2 0 0)]

def floatCases : List (State × Instr) := on (regs [(0, 0x3F800000), (2, 0x40000000)] base) [
  .fadd (fw 8 0 2 0 0), .fsub (fw 8 0 2 0 0), .fmul (fw 8 0 2 0 0), .fma (fw 8 0 2 0 0), .fmin (fw 8 0 2 0 0),
  .fmax (fw 8 0 2 0 0), .fcmp (fw 3 0 2 0 0), .fclass (fw 8 0 0 0 0), .frnd (fw 8 0 0 0 0), .fscale (fw 8 0 4 0 0),
  .fcvt (fw 8 0 0 0 1), .fpack2 (fw 8 0 2 0 1), .funpk2 (fw 8 0 0 0 1), .fma2 (fw 8 0 2 0 1), .fadd2 (fw 8 0 2 0 1),
  .fmul2 (fw 8 0 2 0 1), .fdot2 (fw 8 0 2 0 1), .faddI (iw 8 0 0x3F800000), .fmulI (iw 8 0 0x3F800000),
  .frcp (fw 8 2 0 0 0), .frsq (fw 8 0 0 0 0), .fsqrt (fw 8 0 0 0 0), .fex2 (fw 8 0 0 0 0), .flg2 (fw 8 0 0 0 0),
  .fsin (fw 8 4 0 0 0), .fcos (fw 8 4 0 0 0), .ftanh (fw 8 4 0 0 0), .fpxrd (fw 8 0 0 0 0), .fpxset (fw 0 0 2 0 0)]

def laneCases : List (State × Instr) := on (onBatch (fun b => { b with pin := some 0 }) st) [
  .shfl (fw 8 0 2 0 3), .vote (fw 8 1 0 0 3), .vote (fw 3 1 0 0 0), .vote (fw 3 1 0 0 1), .vote (fw 3 1 0 0 2),
  .redl (fw 8 0 0 0 0), .scanl (fw 8 0 0 0 16), .matchL (fw 8 0 0 0 0)]

def batchCases : List (State × Instr) := on st [
  .nop (fw 0 0 0 0 0), .unpin (fw 0 0 0 0 0), .yield (fw 0 0 0 0 0), .sleep (iw 0 0 9),
  .pair ⟨false, false, 0, ⟨.fadd, 8, 9, 0⟩, ⟨.iadd, 2, 3, 0⟩⟩]

/-- With its first n lanes alone, so that what a word does for each lane stays small. -/
def lanesOf (n : Nat) (s : State) : State := onBatch (fun b => { b with fibres := b.fibres.take n }) s

/-- Four live lanes. -/
def quad : State := lanesOf 4 st
def flState : State := hdr 17 0x500000 (hdr 18 256 quad)

def memCases : List (State × Instr) := on quad [
  .ld (fw 8 0 0 0 0), .st (fw 8 0 0 0 0), .ldsp (fw 8 10 0 0 0), .stsp (fw 8 10 0 0 0), .lda (fw 8 0 0 0 0x20),
  .strel (fw 8 0 0 255 0x40), .atom (fw 8 0 2 0 0), .red (fw 0 0 2 0 0), .fence (fw 0 0 0 255 0x20), .fence (fw 0 0 0 255 0x40),
  .pref (fw 0 0 0 0 0)] ++ on flState [.ldl (fw 8 10 0 0 0), .stl (fw 8 10 0 0 0)]

/-- With a barrier 0 and a circular buffer 0 of these contents. -/
def bar (b : Barrier) (s : State) : State := onCrew (fun c => { c with barriers := c.barriers.set 0 b }) s
def cbuf (b : CBuf) (s : State) : State := onCrew (fun c => { c with cbs := c.cbs.set 0 b }) s

def syncCases : List (State × Instr) :=
  on st [.barinit (fw 0 0 2 0 0), .barq (fw 8 0 0 0 0), .cbinit (fw 0 0 10 6 0), .cbq (fw 8 0 0 0 0)] ++
  on (bar { exp := 64, phase := 1 } st) [
    .bararr (fw 8 0 0 0 0), .barwait (fw 0 0 10 0 0), .barsync (fw 0 0 10 0 0), .barexp (fw 0 0 4 0 0)] ++
  on (bar { exp := 32 } st) [.barsync (fw 0 0 10 0 0)] ++
  on (cbuf { depth := 4, slot := 1, init := true, free := 1, filled := 1, rh := 1, ph := 1 } st) [
    .cbacq (fw 8 0 4 0 0), .cbacq (fw 8 0 4 0 1), .cbrel (fw 0 0 4 0 0), .cbput (fw 0 0 4 0 0)]

/-- With a timeline of this kind bound to tl0. -/
def tl (kind : Nat) (s : State) : State :=
  hdr 19 5 (onCtx (fun c => { c with timelines := [(5, { kind := kind, scope := 2, engine := 0, count := 10 })] }) s)

def set0 (holder : Option Nat) (s : State) : State :=
  { s with xsets := [{ crew := 1, core := 0, pair := 0, regs := List.replicate 8 (.u 0), holder := holder, evicted := none, last := none, waiters := [] }] }

def miscCases : List (State × Instr) :=
  on (tl 1 st) [.tlwait (fw 0 0 4 0 0), .tlq (fw 8 0 0 0 0)] ++
  on st [.shape (fw 8 2 0 0 0), .shapeg (fw 8 0 0 0 0), .accgrow (fw 1 2 0 0 0), .accfree (fw 0 2 0 0 0)] ++
  on (set0 none st) [.xacq (fw 0 0 0 0 0)] ++ on (set0 (some 0) st) [.xrel (fw 0 0 0 0 0)]

/-- A load of record 0x400000 by the batch's row, and a READY plane. -/
def loading : WLoad := { target := 1, loader := some (1, 0), ctx := 0, depth := 0, cls := 0, recVA := 0x400000 }
def ready (s : State) : State := onCore (fun k => { k with planeA := { state := 2 }, planeS := { state := 2 } }) s

def matrixCases : List (State × Instr) :=
  on st [.wload (fw 1 0 0 0 0), .accz (fw 0 0 0 0 0), .accrd (fw 8 0 10 0 0), .accwr (fw 0 2 10 0 0), .drain (fw 0 0 10 0 0),
    .drainst (fw 8 2 0 0 0), .wstat (fw 8 0 0 0 0), .wbmap (fw 8 2 0 0 0)] ++
  on (regs [(12, 0x400000), (16, 0x3F80)] st) [.drain (fw 0 0 12 16 7)] ++
  on (onCore (fun k => { k with planeS := { state := 1 }, load := some loading }) st) [.wtab (fw 0 0 0 0 0)] ++
  on (ready st) [.wswap (fw 0 0 0 0 0), .wwait (fw 0 0 0 0 0), .mmq (fw 0 0 10 13 1)]

def eventCases : List (State × Instr) :=
  on { st with events := [(3, 1)] } [.evsig (fw 0 2 4 0 0), .evsigI (iw 0 0 3), .evsigClr (fw 0 2 0 0 1), .evwait (fw 0 2 4 0 0),
    .evwaitI (iw 0 0 3), .evq (fw 8 2 0 0 0), .spawn (fw 1 4 0 0 0)] ++
  on (tl 1 st) [.tladv (fw 0 0 4 0 0)] ++
  on { tl 2 st with flues := [(5, { ctx := 0, tl := 5, engine := 0 })] } [.fluesub (fw 1 0 0 2 0), .fluesubRst (fw 1 0 0 0 1)] ++
  on { tl 3 st with splits := [(5, { ctx := 0, tl := 5, engine := 0 })] } [.cutsel (fw 1 0 0 0 0), .cutselRst (fw 1 0 0 0 1)]

/-- The crew as a fill task of record 9. -/
def filling : State :=
  { onCrew (fun c => { c with fill := some 9 }) st with
    fills := [{ id := 9, state := .running, ctx := 0, gen := 0, unit := 0x600000, idx := 0, depth := 1, ggen := 0, cls := 0, crew := 1, bytes := 4096 }] }

def unitCases : List (State × Instr) :=
  on filling [.fillarg (fw 8 0 0 0 0), .fillput (fw 0 0 10 0 0)] ++
  on { st with genTab := [(13, 0x400)] } [.geninv (fw 0 2 0 0 0)] ++
  on st [.rayq (fw 8 16 0 0 0)] ++
  -- a leaf of one triangle and three vertices
  on (lanesOf 1 { st with mem := putCells st.mem 0x400010 (2 ^ 40 + 3 * 2 ^ 48) }) [.rayrd (fw 8 0 6 0 0), .rayrd (fw 8 0 10 0 0)]

def systemCases : List (State × Instr) := on (regs [(12, 1)] st) [
  .sysrd (fw 8 0 0 0 0), .sysrd (fw 8 0 0 0 2), .csrrd (fw 8 0 0 0 0x100), .csrwr (fw 0 0 0 0 0x100), .csrswp (fw 8 0 0 0 0x100),
  .bkpt (fw 0 0 0 0 0), .clock (fw 8 0 0 0 0), .perfrd (fw 8 2 0 0 0), .pgbump (fw 0 0 2 0 0), .pgnew (fw 0 0 2 0 0),
  .tlbepoch (fw 8 0 0 0 0), .halt (fw 0 2 0 0 0), .wsremap (fw 0 2 4 0 0), .monctlCfg (fw 0 2 12 0 0), .monctlClr (fw 0 2 0 0 1),
  .monctlRd (fw 8 2 4 0 2)]

/-- Eight live lanes, so that FORK finds room. -/
def few : State := lanesOf 8 st

theorem witness_IntegerWords : ∀ p ∈ integerCases, Meets integerTable p.1 p.2 := meets_all (by decide +kernel)
theorem witness_LogicWords : ∀ p ∈ logicCases, Meets logicTable p.1 p.2 := meets_all (by decide +kernel)
theorem witness_FloatWords : ∀ p ∈ floatCases, Meets floatTable p.1 p.2 := meets_all (by decide +kernel)
theorem witness_LaneWords : ∀ p ∈ laneCases, Meets laneTable p.1 p.2 := meets_all (by decide +kernel)
theorem witness_BatchWords : ∀ p ∈ batchCases, Meets batchTable p.1 p.2 := meets_all (by decide +kernel)
theorem witness_MemoryWords : ∀ p ∈ memCases, Meets memTable p.1 p.2 := meets_all (by decide +kernel)
theorem witness_BarrierWords : ∀ p ∈ syncCases, Meets syncTable p.1 p.2 := meets_all (by decide +kernel)
theorem witness_ResourceWords : ∀ p ∈ miscCases, Meets miscTable p.1 p.2 := meets_all (by decide +kernel)
theorem witness_MatrixWords : ∀ p ∈ matrixCases, Meets matrixTable p.1 p.2 := meets_all (by decide +kernel)
theorem witness_EventWords : ∀ p ∈ eventCases, Meets eventTable p.1 p.2 := meets_all (by decide +kernel)
theorem witness_FillAndRayWords : ∀ p ∈ unitCases, Meets unitTable p.1 p.2 := meets_all (by decide +kernel)
theorem witness_SystemWords : ∀ p ∈ systemCases, Meets systemTable p.1 p.2 := meets_all (by decide +kernel)
theorem witness_ForkWord : ∀ p ∈ [(few, Instr.fork (fw 8 4 5 0 0))], Meets forkTable p.1 p.2 := meets_all (by decide +kernel)

/-! ### Conditions under which words complete -/

/-- The word comes to its own effect and its condition holds. -/
def whenB (when' : Instr → Option When) (s : State) (i : Instr) : Bool :=
  comesTo s i fun f b => ((when' i).map fun p => p (f.start s b)).getD false

theorem witness_BarrierAndResourceWordsComplete : ((syncCases ++ miscCases).all fun p => whenB barrierWhen p.1 p.2) = true := by
  decide +kernel
theorem witness_MatrixWordsComplete : (matrixCases.all fun p => whenB matrixWhen p.1 p.2) = true := by decide +kernel
theorem witness_UnitWordsComplete : ((eventCases ++ unitCases ++ systemCases).all fun p => whenB unitWhen p.1 p.2) = true := by
  decide +kernel

/-! ### Jumps, endings and traps -/

/-- The hypotheses of BranchesGo and of DivergenceTraps, met: the word's lanes go somewhere, and `d` says whether the
word would divide a batch that may not divide. -/
def Goes (d : Bool) (s : State) (i : Instr) : Prop :=
  ∃ f g b go, formOf s i = some f ∧ goesTo i = some g ∧ f.Ready s b ∧ g (f.start s b) = some go ∧
    if d then Diverges (f.start s b) go ∧ (b.pin.isSome = true ∨ ownsTile s b = true)
    else ¬ (Diverges (f.start s b) go ∧ (b.pin.isSome = true ∨ ownsTile s b = true))

def goesB (d : Bool) (s : State) (i : Instr) : Bool :=
  comesTo s i fun f b => match (goesTo i).bind fun g => g (f.start s b) with
    | some go =>
      let held := b.pin.isSome || ownsTile s b
      if d then held && (f.start s b).b.fibres.any fun p => (f.start s b).b.fibres.any fun q => go p.1 != go q.1
      else !held
    | none => false

theorem goes_all {d : Bool} {cs : List (State × Instr)} (h : (cs.all fun p => goesB d p.1 p.2) = true) :
    ∀ p ∈ cs, Goes d p.1 p.2 := by
  intro p hp
  obtain ⟨f, b, hf, hr, hx⟩ := comesTo_ready (List.all_eq_true.mp h p hp)
  split at hx
  · rename_i go hgo
    obtain ⟨g, hg, hgo⟩ := Option.bind_eq_some_iff.mp hgo
    refine ⟨f, g, b, go, hf, hg, hr, hgo, ?_⟩
    cases d with
    | true =>
      simp only [if_true, Bool.and_eq_true, Bool.or_eq_true, List.any_eq_true, bne_iff_ne] at hx ⊢
      obtain ⟨hh, ⟨p, hp, q, hq, hne⟩⟩ := hx
      exact ⟨⟨p.1, List.mem_map_of_mem hp, q.1, List.mem_map_of_mem hq, hne⟩, hh⟩
    | false =>
      simp only [Bool.false_eq_true, if_false, Bool.not_eq_true', Bool.or_eq_false_iff] at hx ⊢
      rintro ⟨-, h1 | h1⟩
      · rw [hx.1] at h1; cases h1
      · rw [hx.2] at h1; cases h1
  · cases hx

def jumpCases : List (State × Instr) := on st [
  .bra (iw 0 0 4), .bri (fw 0 0 0 0 0), .loop (iw 8 0 0xFFFFFFFF), .call (iw 0 8 4), .calli (fw 0 0 0 0 1), .ret (fw 0 0 0 0 0)]

/-- Half of the lanes have p0 false, and v8 differs by lane. -/
def mixed (s : State) : State := onBatch (fun b => { b with
  pin := some 0
  regs := (b.regs.set 8 (.a 0x400000 8)).set 9 (.u 0)
  fibres := b.fibres.map fun p => (p.1, { p.2 with pw := if p.1 < 16 then 0 else 1 }) }) s

def divergeCases : List (State × Instr) := on (mixed st) [
  .bra { iw 0 0 4 with gp := 0 }, .bri (fw 0 8 0 0 0), .loop { iw 2 0 4 with gp := 0 }, .call { iw 0 8 4 with gp := 0 },
  .calli (fw 0 8 0 0 1), .ret (fw 0 8 0 0 0)]

/-- The hypotheses of EndingWords, met. -/
def Leaves (s : State) (i : Instr) : Prop :=
  ∃ f g b u parts, formOf s i = some f ∧ leavesTable i = some g ∧ f.Ready s b ∧ g (f.start s b) = some (u, parts)

def leavesB (s : State) (i : Instr) : Bool :=
  comesTo s i fun f b => ((leavesTable i).bind fun g => g (f.start s b)).isSome

theorem leaves_all {cs : List (State × Instr)} (h : (cs.all fun p => leavesB p.1 p.2) = true) : ∀ p ∈ cs, Leaves p.1 p.2 := by
  intro p hp
  obtain ⟨f, b, hf, hr, hx⟩ := comesTo_ready (List.all_eq_true.mp h p hp)
  obtain ⟨⟨u, r⟩, hq⟩ := Option.isSome_iff_exists.mp hx
  obtain ⟨e, he, hq⟩ := Option.bind_eq_some_iff.mp hq
  exact ⟨f, e, b, u, r, hf, he, hr, hq⟩

/-- A kindling fibre of a kernel that freezes, and a fibre stamped from image 7 that nests a template at level 1. -/
def kindling : State :=
  let s := onBatch (fun b => { b with fibres := (b.fibres.take 1).map fun p => (p.1, { p.2 with kindling := true }) }) st
  { hdr 1 (32 * 2 ^ 21 + 0x200) s with kilnSize := 0x2000000 }

def stamped : State :=
  let im : Image := {
    regs := [], pw := 0, wb := 0, pc := 0, scratch := [], offset := 0, level := 1, seed := 3, parent := none, wid := 0, crew := 1
    ctx := 0, node := 0, bytes := 128 }
  let s := onBatch (fun b => { b with fibres := b.fibres.map fun p => (p.1, { p.2 with img := some 7 }) }) (lanesOf 1 st)
  { hdr 1 (32 * 2 ^ 21 + 4 + 8 * 3 + 64 * 4 + 512 * 3) s with kilnSize := 0x2000000, images := [(7, im)] }

/-- What a freezing word needs to make the image of its one lane: id 0 is free, and the Kiln has room. -/
def roomFor (s : State) (im : Image) : Bool := (kvGet s.images 0).isNone && decide (im.bytes ≤ s.kilnSize - (s.images.map fun p => p.2.bytes).sum)

theorem filter_range_isEmpty {n : Nat} {p : Nat → Bool} (hn : 0 < n) (h : p 0 = true) :
    ((List.range n).filter p).isEmpty = false := by
  rw [List.isEmpty_eq_false_iff]
  exact List.ne_nil_of_mem (List.mem_filter.mpr ⟨List.mem_range.mpr hn, h⟩)

theorem pickImage_first {s : State} (h : (kvGet s.images 0).isNone = true) : ∃ q, pickImage s = some q := by
  unfold pickImage
  have hn : 0 < 65535 := by decide
  generalize 65535 = n at hn ⊢
  have hc := filter_range_isEmpty (p := fun i => (kvGet s.images i).isNone) hn h
  exact ⟨_, if_neg (by rw [hc]; exact Bool.false_ne_true)⟩

theorem inKiln_roomFor {s : State} {l : Nat} {im : Image} (h : roomFor s im = true) :
    (inKiln s [(l, im)]).isSome = true := by
  simp only [roomFor, Bool.and_eq_true, decide_eq_true_eq] at h
  obtain ⟨q, hq⟩ := pickImage_first h.1
  simp [inKiln, hq, Nat.not_lt.mpr h.2]

/-- FREEZE of one lane without a cause. -/
def freezeB (x : Exec) : Bool :=
  let c := crewD x.s x.b.crew
  let size := hdrImage (batchHdr x.s x.b)
  let off := if size = 0 then 0 else (uniVal x .a 0).toNat
  match x.act with
  | [l] => !freezeBarred x && (fibreOf x.b l).kindling && decide (off + size ≤ c.scratchBytes) && (frozenFault x).isNone &&
      !scratchBad x.s .load x.b.crew off size &&
      roomFor x.s (frozenLane x l 1 (hdrSeed c.hdr) none (scratchRead x.s x.b.crew off size) off)
  | _ => false

theorem freezeB_leaves {w : FWord} {x : Exec} (h : freezeB x = true) :
    (((leavesTable (.freeze w)).bind fun g => g x).isSome) = true := by
  unfold freezeB at h
  split at h
  · rename_i l hl
    simp only [Bool.and_eq_true, Bool.not_eq_true', decide_eq_true_eq, Option.isNone_iff_eq_none] at h
    obtain ⟨⟨⟨⟨⟨h1, h2⟩, h3⟩, h4⟩, h5⟩, h6⟩ := h
    simp [leavesTable, hl, h1, h2, Nat.not_lt.mpr h3, h4, h5, inKiln_roomFor h6]
  · cases h

/-- FREEZE.L of one leading lane without a cause. -/
def freezeLB (w : FWord) (x : Exec) : Bool :=
  let lvl := w.m.toNat / 2
  match x.act with
  | [l] => !freezeBarred x && !nestBarred x lvl l && (frozenFault x).isNone &&
      isLeader (batchHdr x.s x.b) (fibreOf x.b l).wid lvl &&
      roomFor x.s (frozenLane x l (((kvGet x.s.images ((fibreOf x.b l).img.getD 0)).map (·.level)).getD 0 + 1) lvl
        (some ((fibreOf x.b l).img.getD 0)) [] 0)
  | _ => false

theorem freezeLB_leaves {w : FWord} {x : Exec} (h : freezeLB w x = true) :
    (((leavesTable (.freezeL w)).bind fun g => g x).isSome) = true := by
  unfold freezeLB at h
  split at h
  · rename_i l hl
    simp only [Bool.and_eq_true, Bool.not_eq_true', Option.isNone_iff_eq_none] at h
    obtain ⟨⟨⟨⟨h1, h2⟩, h3⟩, h4⟩, h5⟩ := h
    simp [leavesTable, hl, h1, h2, h3, h4, inKiln_roomFor h5]
  · cases h

theorem leaves_of {s : State} {i : Instr} {p : Exec → Bool} (h : comesTo s i (fun f b => p (f.start s b)) = true)
    (hp : ∀ x, p x = true → ((leavesTable i).bind fun g => g x).isSome = true) : Leaves s i := by
  obtain ⟨f, b, hf, hr, hx⟩ := comesTo_ready h
  obtain ⟨⟨u, r⟩, hq⟩ := Option.isSome_iff_exists.mp (hp _ hx)
  obtain ⟨e, he, hq⟩ := Option.bind_eq_some_iff.mp hq
  exact ⟨f, e, b, u, r, hf, he, hr, hq⟩

/-- k0 to k2 hold a legal resume state. -/
def trapped : State := onBatch (fun b => { b with kregs := (b.kregs.set 0 (.u 0x200008)).set 2 (.u 0x208) }) st

def endingCases : List (State × Instr) :=
  [(st, .quit (fw 0 0 0 0 0)), (regs [(1, 0xFFFFFFFF)] st, .gather (fw 0 1 10 0 0)), (filling, .filldone (fw 0 0 0 0 0)),
    (filling, .fillfail (fw 0 2 0 0 0)), (trapped, .tret (fw 0 0 0 0 0))]

/-- The hypotheses of TrapWords, met. -/
def TrapsAt (s : State) (i : Instr) : Prop :=
  ∃ f g b tr, formOf s i = some f ∧ trapTable i = some g ∧ f.Ready s b ∧ g (f.start s b) = some tr

def trapsB (s : State) (i : Instr) : Bool := comesTo s i fun f b => ((trapTable i).bind fun g => g (f.start s b)).isSome

theorem traps_all {cs : List (State × Instr)} (h : (cs.all fun p => trapsB p.1 p.2) = true) : ∀ p ∈ cs, TrapsAt p.1 p.2 := by
  intro p hp
  obtain ⟨f, b, hf, hr, hx⟩ := comesTo_ready (List.all_eq_true.mp h p hp)
  obtain ⟨tr, hq⟩ := Option.isSome_iff_exists.mp hx
  obtain ⟨e, he, hq⟩ := Option.bind_eq_some_iff.mp hq
  exact ⟨f, e, b, tr, hf, he, hr, hq⟩

def trapCases : List (State × Instr) :=
  [(st, .trap (fw 0 0 0 5 0)), (onCtx (fun c => { c with dbgctl := 1 }) st, .bkpt (fw 0 0 0 5 0))]

theorem witness_BranchesGo : ∀ p ∈ jumpCases, Goes false p.1 p.2 := goes_all (by decide +kernel)
theorem witness_BranchesComplete : (jumpCases.all fun p => comesTo p.1 p.2 fun f b => b.pin.isNone && !ownsTile p.1 b &&
    ((branchWhen p.2).map fun q => q (f.start p.1 b)).getD false) = true := by decide +kernel
theorem witness_DivergenceTraps : ∀ p ∈ divergeCases, Goes true p.1 p.2 := goes_all (by decide +kernel)
theorem witness_EndingWords : ∀ p ∈ endingCases, Leaves p.1 p.2 := leaves_all (by decide +kernel)
theorem witness_EndingWords_freeze : Leaves kindling (.freeze (fw 0 0 0 0 0)) := leaves_of (by decide +kernel) fun _ => freezeB_leaves
theorem witness_EndingWords_freezeL : Leaves stamped (.freezeL (fw 0 0 0 0 3)) :=
  leaves_of (p := freezeLB (fw 0 0 0 0 3)) (by decide +kernel) fun _ => freezeLB_leaves
theorem witness_TrapWords : ∀ p ∈ trapCases, TrapsAt p.1 p.2 := traps_all (by decide +kernel)

/-! ### Events -/

/-- The batch in two parts of one slot, at one pc. -/
def split2 : State :=
  let s := onBatch (fun b => { b with fibres := b.fibres.take 16 }) st
  { s with batches := s.batches ++ (base.batches.map fun b => { b with id := 3, fibres := b.fibres.drop 16 }) }

def later (s : State) : State := { s with clock := 10000000 }

def coreCases : List (State × Instr) := [
  (split2, .batchMerge 2 3),
  (onBatch (fun b => { b with parked := true }) st, .parkResume 2),
  (later (onBatch (fun b => { b with wake := 5 }) st), .sleepEnd 2),
  (onBatch (fun b => { b with trap := some { cause := .softTrap } }) st, .trapEntry 2),
  (later (onBatch (fun b => { b with block := some .xset }) (onCtx (fun c => { c with wdog := 1 }) st)), .watchdog 2),
  (set0 none (onBatch (fun b => { b with reacquire := true }) st), .xsetReacquire 2),
  (st, .lineWriteback 0 0x4000)]

def aPass : Pass := { plane := 0, opened := 0, closed := true, quarters := [] }

def arrayCases : List (State × Instr) := [
  (onCore (fun k => { k with swap := true }) st, .planeExchange 0),
  (st, .passClose 0),
  (onCore (fun k => { k with passes := [aPass] }) st, .passComplete 0),
  (onBatch (fun b => { b with block := some (.array 2) }) filling, .fillArrayBorrow 2),
  (onCore (fun k => { k with load := some { loading with held := some { cause := .wMeta } } }) st, .wloadComplete 0),
  (onCore (fun k => { k with load := some loading }) st, .recordLineArrival 0),
  (onCore (fun k => { k with load := some { loading with tables := [{ va := 0x400000, block := none, arrived := false }] } }) st, .wtabTableArrival 0 0)]

/-- A cluster of the tests. -/
def clus (state : ClState) : Cluster := {
  id := 9, ctx := 0, run := 8, node := 0, index := 0, hdr := fetchHeader, cls := 0, eff := 0, state := state, age := 0, cc := 0
  saveSlot := 0, saves := 0, kindling := false, stampFrom := [], liveCrews := 1, savedCrews := [], savedBatches := [], savedSets := []
  savedPlanes := [] }

/-- An empty device with one context that has save slots. -/
def vacant : State := onCtx (fun c => { c with nsave := 4 }) { base with batches := [], crews := [] }
def with9 (k : ClState) (s : State) : State := { s with clusters := [clus k] }

def pipeRun : Run := {
  id := 8, graph := 0, ctx := 0, level := 0, wid := 0, failed := false
  nodes := [(0, { state := .running, pipe := some {
    items := 4, stages := [fetchHeader, fetchHeader], shapes := [(0, 4)], claimed := [0, 0], produced := [0, 0], freed := [0] } })] }

def slabs (n : Nat) (s : State) : State := onCore (fun k => { k with scratchSlabs := n }) s

def placeCases : List (State × Instr) := [
  (onCtx (fun c => { c with state := .halting }) (with9 .resident st), .preemptCluster 9),
  (with9 .saved vacant, .clusterRestore),
  (slabs 1 (with9 .waiting vacant), .clusterPlace),
  (later (with9 .waiting vacant), .classAging 9),
  (with9 .waiting vacant, .slabConvert 0),
  (slabs 1 vacant, .slabReturn 0),
  (slabs 1 { vacant with runs := [pipeRun] }, .pipelineReassign 8 0)]

/-- A graph of one node at the start of the node store, RUNNING or not, and a run of it. -/
def graph1 (s : State) : State := { s with graphTab := [(0, 0x10000), (1, 0x800000)] }
def oneRun (x : NodeRun) : Run := { id := 8, graph := 0, ctx := 0, level := 0, wid := 0, nodes := [(0, x)], failed := false }
def runs1 (x : NodeRun) (s : State) : State := { graph1 s with runs := [oneRun x] }

/-- A node of kind Flue list whose context is the timeline 5. -/
def flueHdr : List W64 := ((List.replicate 32 0).set 0 5).set 27 0x200
def flue1 (f : FlueCtx) (s : State) : State := { tl 2 s with flues := [(5, f)] }
def idleFlue : FlueCtx := { ctx := 0, tl := 5, engine := 0 }

def graphCases : List (State × Instr) := [
  (st, .triggerWrite 0),
  (graph1 (onCtx (fun c => { c with trigQ := [{ word := 0, level := 0, wid := 0, realtime := false }] }) vacant), .graphRunStart 0),
  (runs1 {} vacant, .nodeStart 8 0),
  (flue1 idleFlue (runs1 { state := .deferred, hdr := flueHdr } vacant), .nodeSubmitDeferred 8 0),
  (runs1 { state := .running } vacant, .nodeComplete 8 0),
  (runs1 { state := .waiting, unreg := [0] } vacant, .nodeWaitRetry 8 0)]

/-- A Flue context that runs a list of one command with this first word. -/
def command (op : Nat) : State :=
  let l : FlueList := { va := 0x400000, count := 1, crew := some (1, 0, [1]), node := none }
  let s := flue1 { ctx := 0, tl := 5, engine := 0, state := 1, queue := [l] } st
  { s with mem := putCells s.mem 0x400000 op }

/-- The same with work under way. -/
def atWork : State :=
  let l : FlueList := { va := 0x400000, count := 1, crew := some (1, 0, [1]), node := none }
  flue1 { ctx := 0, tl := 5, engine := 0, state := 1, queue := [l]
          work := some { words := [1, 0, 0, 0], first := 0, at_ := 0, total := 1, tmr := [], targets := [] } } st

def flueCases : List (State × Instr) := [
  (command 1, .flueStream 5), (atWork, .flueWindowDelivery 5), (command 2, .flueCopy 5), (command 3, .flueGatherrows 5),
  (command 4, .flueStore 5), (command 5, .flueFillv 5), (command 6, .flueLoop 5), (command 7, .flueEndloop 5),
  (command 8, .flueTlwait 5), (command 9, .flueTladv 5), (command 10, .flueEvsig 5), (command 11, .flueBararr 5),
  (command 12, .flueEnd 5), (command 0, .flueCmdInvalid 5),
  ({ command 12 with flues := (command 12).flues.map fun p => (p.1, { p.2 with state := 2 }) }, .flueContextResume 5),
  ({ tl 3 st with splits := [(5, { ctx := 0, tl := 5, engine := 0, state := 1, queue := [{ va := 0x400000, node := none }] })] }, .cutRun 5)]

def aFill (state : FillState) : Fill :=
  { id := 9, state := state, ctx := 0, gen := 0, unit := 0x600000, idx := 0, depth := 1, ggen := 0, cls := 0 }

def hearthCases : List (State × Instr) := [
  ({ vacant with fills := [aFill .queued], genHdrs := [(0, fetchHeader)] }, .fillPlace 1 0),
  (later { vacant with fills := [aFill .running] }, .fillTimeout 9),
  (vacant, .genEntrySubmit 3 0x400), (vacant, .genEntryInvalidate 3 0), (vacant, .victimStoreConfig true 4),
  (vacant, .victimStoreConfig false 0)]

def healthCases : List (State × Instr) := [
  ({ st with bankDue := [388] }, .bankRetire 3 4), (st, .padFail 3 4), ({ st with remaps := [⟨3, 4, true, [], none⟩] }, .remapStepEnd 3),
  (later vacant, .engineGate (.flue 3)),
  ({ flue1 { idleFlue with engine := 3, state := 1 } st with power := { gated := [.flue 3] } }, .engineWake (.flue 3)),
  ({ st with power := { st.power with tdie := 1800 } }, .thermalTrip)]

def halt0 (x : CtxState) (s : State) : State := onCtx (fun c => { c with state := x }) s

theorem witness_CoreEvents : ∀ p ∈ coreCases, Due coreEvents p.1 p.2 := due_all (by decide +kernel)
theorem witness_ArrayEvents : ∀ p ∈ arrayCases, Due arrayEvents p.1 p.2 := due_all (by decide +kernel)
theorem witness_PlacementEvents : ∀ p ∈ placeCases, Due placeEvents p.1 p.2 := due_all (by decide +kernel)
theorem witness_GraphEvents : ∀ p ∈ graphCases, Due graphEvents p.1 p.2 := due_all (by decide +kernel)
theorem witness_FlueEvents : ∀ p ∈ flueCases, Due flueEvents p.1 p.2 := due_all (by decide +kernel)
theorem witness_HearthEvents : ∀ p ∈ hearthCases, Due hearthEvents p.1 p.2 := due_all (by decide +kernel)
theorem witness_HealthEvents : ∀ p ∈ healthCases, Due healthEvents p.1 p.2 := due_all (by decide +kernel)
theorem witness_ContextEvents : ∀ p ∈ [(vacant, Instr.ctxCreate 3), (st, .ctxHalt 0), (halt0 .halted st, .ctxResume 0),
    (st, .ctxDestroy 0), (st, .ctxTlset 0 5), (st, .ctxCmdInvalid 0 6), (st, .cmderrClear 0), (halt0 .halting vacant, .ctxHalted 0),
    (halt0 .destroying vacant, .ctxFreed 0)], Due contextEvents p.1 p.2 := due_all (by decide +kernel)
theorem witness_DeviceEvents : ∀ p ∈ [(st, Instr.registerWrite 0x10 0), (st, .linkFail 0), (st, .linkRetry 0 true),
    ({ st with outs := [(0, { regs := [(0, 1)] })] }, .vblank 0), (st, .dpLinkTrain 0 2 4 true), (st, .hpdChange 0 true),
    (st, .hpdChange 0 false), (st, .attgo), (st, .firmwareImage []), (st, .deviceReset), (st, .powerLoss),
    (st, .powerInterval ⟨300, 900, [900], [], [], [], []⟩)],
    Due deviceEvents p.1 p.2 := due_all (by decide +kernel)

/-! ### The other statements with hypotheses -/

def isNext (o : Host.Outcome State Fault Refusal) (p : State → Bool) : Bool :=
  match o with
  | .next t => p t
  | _ => false

/-- The state about to fetch and run IADD v3, v7, 0x100. -/
def fresh1 : State := State.reset.withFetchWord 64 0x60F8060700000100

theorem witness_DecodeAfterEncode : WellFormed (.iadd (fw 8 1 2 0 1)) = true := by decide +kernel
theorem witness_EncodeAfterDecode : (instructionOf 0x006E030040403011).isSome = true := by decide +kernel

theorem witness_StepRunsDecoded : enabled fresh1 = [.issue 2] ∧ ((findBatch fresh1 2).any fun b => !b.restored &&
    match fetchWord (beginIssue fresh1 b) b with
    | .word _ w => w == 0x60F8060700000100
    | _ => false) = true := by decide +kernel

/-- A restored batch whose window lies within its registers. -/
theorem witness_StepRunsDecoded_restored : (let s := modBatch fresh1 2 fun b => { b with restored := true }
    (findBatch s 2).any fun b => b.restored && match fetchWord (beginIssue s b) b with
      | .word t w => w == 0x60F8060700000100 && decide (b.wb + 8 ≤ windowLimit (modBatch t 2 fun c => { c with restored := false }) b)
      | _ => false) = true := by decide +kernel

theorem witness_StepsKeepMemoryCanonical : fresh1.canonical ∧ isNext (step fresh1) (fun _ => true) = true :=
  ⟨⟨by decide +kernel, by decide +kernel⟩, by decide +kernel⟩

/-- Both clauses of a home write: an address of GDDR 7, and a peer window whose link is DOWN. -/
theorem witness_HomeWriteThenRead : paLost base 0x400000 = false ∧
    paLost { base with ident := { base.ident with lstate0 := 3 } } 0x1000000000000 = true := by decide +kernel

theorem witness_StoreThenLoad : (findBatch base 2).any (fun b => decide (b.core < base.cores.length)) = true ∧
    0x40007C % 128 + 4 ≤ 128 := by decide +kernel

theorem witness_ScratchWriteThenRead : (findCrew base 1).isSome = true ∧ findCrew base 2 = none := by decide +kernel

theorem witness_LoadsLeaveMemory : ∀ p ∈ on quad [.ld (fw 8 0 0 0 0), .ldsp (fw 8 10 0 0 0), .pref (fw 0 0 0 0 0)] ++
    on flState [.ldl (fw 8 10 0 0 0)], Meets memTable p.1 p.2 := meets_all (by decide +kernel)

/-- A word meets the hypotheses of a statement on its places. -/
def placesB (at' : Exec → Instr → Option (List (Nat × Loc))) (s : State) (i : Instr) : Bool :=
  meetsB memTable s i && comesTo s i fun f b => (at' (f.start s b) i).isSome

theorem witness_StoresLeaveOtherBytes : ((on quad [.st (fw 8 0 0 0 0), .stsp (fw 8 10 0 0 0)] ++ on flState [.stl (fw 8 10 0 0 0)]).all
    fun p => placesB storedAt p.1 p.2) = true := by decide +kernel
theorem witness_OrderingLeavesOtherBytes : ((on quad [.lda (fw 8 0 0 0 0x20), .strel (fw 8 0 0 255 0x40), .atom (fw 8 0 2 0 0),
    .red (fw 0 0 2 0 0), .fence (fw 0 0 0 255 0x40)]).all fun p => placesB orderedAt p.1 p.2) = true := by decide +kernel

theorem witness_TrapEntry : (findBatch base 2).any (fun b => !outstanding base b && (crewD base b.crew).fill.isNone &&
    !trapFatal base b { cause := .align }) = true := by decide +kernel

/-- The batch with a load outstanding. -/
def loadingBatch : State := onBatch (fun b => { b with retbuf := [.result 0xFFFFFFFF [(8, .u 40)] []] }) st

theorem witness_TrapWaitsForPark : (findBatch loadingBatch 2).any (fun b => outstanding loadingBatch b) = true := by decide +kernel

theorem witness_TrapReturn : comesTo trapped (.tret (fw 0 0 0 0 0)) (fun f b =>
    let x := f.start trapped b
    let k (i : Nat) : W32 := laneVal (readReg x.s x.b (512 + i)) 0
    let rpc := (k 0).toNat + 2 ^ 32 * (k 1).toNat
    ([0, 1, 2].all fun i => isUni (rawReg x.s x.b (512 + i)) && (regFault x.s x.b x.act (512 + i)).isNone) && decide ((k 2).toNat < 1024) && decide (rpc % 8 = 0) &&
      decide (rpc < 2 ^ 54) && decide ((k 2).toNat % 512 % 8 = 0) &&
      decide ((k 2).toNat % 512 + 8 ≤ windowLimit x.s x.b)) = true := by decide +kernel

/-- A word with an active lane that need not park fails this check. -/
def failsB (s : State) (i : Instr) (c : Cause) : Bool :=
  match formOf s i, findBatch s s.cur with
  | some f, some b => !(f.act b).isEmpty && !mustPark s b (f.act b) f.sp && !issuedAgain b f.sp &&
      (((decodeFault s b (f.act b) f.sp f.pairOk).or (readFault s b (f.act b) f.sp)).any fun p => p.1 == c)
  | _, _ => false

def user (s : State) : State := onBatch (fun b => { b with priv := false }) s

theorem witness_WordChecksRaise : failsB st (.nop (fw 1 0 0 0 0)) .illField = true ∧ failsB st (.iadd (fw 300 1 2 0 1)) .regRange = true ∧
    failsB (user st) (.tret (fw 0 0 0 0 0)) .priv = true ∧ failsB (mixed st) (.gather (fw 0 8 0 0 0)) .shape = true := by
  decide +kernel

theorem witness_PrivilegedWordsTrap : ([Instr.tret (fw 0 0 0 0 0), .pgbump (fw 0 0 2 0 0), .tlbepoch (fw 8 0 0 0 0),
    .iadd (fw 8 1 2 0 0x401)].all fun i => failsB (user st) i .priv) = true := by decide +kernel

/-- A guard that is false in every lane. -/
theorem witness_InactiveWordsOnlyRetire : (match formOf st (.nop { fw 0 0 0 0 0 with gn := true }), findBatch st st.cur with
    | some f, some b => (f.act b).isEmpty && !mustPark st b [] f.sp
    | _, _ => false) = true := by decide +kernel

/-- With a load outstanding a region-closing word and QUIT park first. -/
theorem witness_WordsParkFirst : ([Instr.quit (fw 0 0 0 0 0), .trap (fw 0 0 0 0 0), .call (iw 0 8 4)].all fun i =>
    match formOf loadingBatch i, findBatch loadingBatch 2 with
    | some f, some b => mustPark loadingBatch b (f.act b) f.sp
    | _, _ => false) = true := by decide +kernel

theorem witness_NonInstructionsTrap : instructionOf 0 = none ∧ instructionOf 0x3000000000000000 = none ∧
    (findBatch base base.cur).isSome = true := by decide +kernel

def holdsB (_ : State) (b : Batch) (i : Nat) : Bool := decide (i < 512) && decide (i < b.regs.length)

theorem witness_LoopCountsDown : comesTo st (.loop (iw 2 0 4)) (fun f b => b.pin.isNone && !ownsTile st b &&
    holdsB st b (nameOf (f.start st b) .d 0)) = true := by decide +kernel

/-- A call of this window frame that no pin and no pending tile stops; whether its lanes part. -/
def callB (s : State) (i : Instr) (frame : Nat) (parts : Bool) : Bool := comesTo s i fun f b =>
  match (goesTo i).bind fun g => g (f.start s b) with
  | some go => !(f.act b).isEmpty && b.pin.isNone && !ownsTile s b && holdsB s b (b.wb + frame) && holdsB s b (b.wb + frame + 1) &&
      ((liveLanes b).any fun l => (liveLanes b).any fun k => go l != go k) == parts
  | none => false

/-- Lanes 16 and up have a true p0; v8 holds a target for each lane. -/
def parting : State := onBatch (fun b => { b with pin := none }) (mixed st)

theorem witness_CallsWriteTheirLink : callB st (.call (iw 0 8 4)) 0 false = true ∧ callB st (.calli (fw 0 0 0 0 1)) 8 false = true ∧
    callB parting (.call { iw 0 8 4 with gp := 0 }) 0 true = true ∧ callB parting (.calli (fw 0 8 0 0 1)) 8 true = true := by
  decide +kernel

/-- v9 is affine. -/
def affine : State := onBatch (fun b => { b with regs := b.regs.set 9 (.a 0x100 4) }) st

/-- A word of the affine and the uniform register, and what Table 02-2 gives it. -/
def affineB (i : Instr) (base stride : W32) : Bool := comesTo affine i fun f b =>
  let x := f.start affine b
  !f.sp.eph && f.act b == liveLanes b && decide (nameOf x .d 0 < b.regs.length) && bankReg x.s x.b (nameOf x .d 0) == .u 0 &&
    ((affineOperands x i).bind fun q => affineResult i q.1 q.2) == some (base, stride)

theorem witness_AffineSums : affineB (.iadd (fw 8 9 2 0 1)) 0x103 4 = true ∧ affineB (.iadd (fw 8 2 9 0 1)) 0x103 4 = true ∧
    affineB (.isub (fw 8 9 2 0 1)) 0xFD 4 = true ∧ affineB (.isub (fw 8 2 9 0 1)) 0xFFFFFF03 0xFFFFFFFC = true ∧
    affineB (.imul (fw 8 9 2 0 1)) 0x300 12 = true ∧ affineB (.imul (fw 8 2 9 0 1)) 0x300 12 = true ∧
    affineB (.iaddI (iw 8 9 5)) 0x105 4 = true ∧ affineB (.imulI (iw 8 9 5)) 0x500 20 = true := by decide +kernel

/-- A partial write, and a write to a G register, of registers that the batch holds. -/
theorem witness_PartialWritesMakeGeneral : (findBatch affine 2).any (fun b => holdsB affine b 9 && (liveLanes b).contains 3 &&
    !(([0, 1] : List Nat).contains 3) && (onBatch (fun b => { b with regs := b.regs.set 9 (.g []) }) affine).batches.all fun c =>
      c.regs.getD 9 (.u 0) == .g []) = true := by decide +kernel

theorem witness_BusEvents : (busRange base false 0x400000 8 == .perform) = true ∧ (busRange base false 0x7F8000000 8 == .error) = true ∧
    (busRange base false 0x1000000000 8 == .absent) = true ∧ (busRange base true 0x1000000000 8 == .absent) = true := by
  decide +kernel

theorem witness_BusEvents_performed : ∀ p ∈ [(st, Instr.hostMemAccess ⟨0x400000, .write [1, 2]⟩),
    (st, .peerAccess ⟨0x400000, .atomic 0 4 1 0⟩), (st, .hostMemAccess ⟨0x7F8000000, .read 8⟩)], Due busEvents p.1 p.2 :=
  due_all (by decide +kernel)

/-- Two batches of one slot that merge. -/
def mergeB (s : State) (held : Bool) : Bool :=
  match findBatch s 2, findBatch s 3 with
  | some x, some y => canMerge s x y && (joinFault s [x, y]).isNone && x.xheld == held && decide (0 < x.xregs.length) == held
  | _, _ => false

/-- Both hold the pair's extended set. -/
def heldSplit : State :=
  { split2 with batches := split2.batches.map fun b => { b with xheld := true, xregs := [.u 1, .a 2 3] } }

theorem witness_MergeKeepsLanes : mergeB split2 false = true ∧ mergeB heldSplit true = true := by decide +kernel

/-- A line of the core's L1 whose first byte is dirty: in GDDR 7, in a column of which a remap step runs, behind a link that is
DOWN. -/
def dirtyAt (line : Nat) : State := onCore (fun k => { k with l1 := [(line, { (default : L1Line) with dirty := 1, bytes := [7] })] }) st

theorem witness_CoreEvents_lineWriteback : (dirtyAt 0x8000).cores.any (fun k => (kvGet k.l1 0x8000).isSome) = true ∧
    (kvGet (coreD (dirtyAt 0x8000) 0).l1 0x8000).any (fun l => badBytes (dirtyAt 0x8000) 0 0x8000 l == 0 && l.dirty.testBit 0) = true ∧
    remapBusy (dirtyAt 0x8000) 0x400000 = false ∧ paLost (dirtyAt 0x8000) 0x400000 = false ∧
    remapBusy { dirtyAt 0x10000000 with remaps := [{ col := 0, bank := 5, running := true, readers := [] }] } 0x800000000 = true ∧
    paLost { dirtyAt 0x20000000000 with ident := { base.ident with lstate0 := 3 } } 0x1000000000000 = true := by decide +kernel

/-- A parked batch with two results to come, of which the second takes v9 and some lanes of v8. -/
def twoResults : State := onBatch (fun b => { b with
  parked := true
  retbuf := [.result 0xFFFFFFFF [(8, .u 40)] [], .result 0x0000FFFF [(8, .u 41), (9, .u 42)] []] }) st

theorem witness_ParkWritesResults : (findBatch twoResults 2).any (fun b =>
    parkOver twoResults b && (landFault twoResults b).isNone && b.retbuf == [] ++ .result 0xFFFFFFFF [(8, .u 40)] [] ::
      [.result 0x0000FFFF [(8, .u 41), (9, .u 42)] []] && (lanes32.all fun l => (liveLanes b).contains l) &&
    holdsB twoResults b 8 && !(0x0000FFFF : W32).getLsbD 16) = true := by decide +kernel

/-! ### Decoding: words of the spec's encodings, bit by bit -/

/-- R69: a pair of FADD v8, v9 and IADD v2, v3. -/
theorem test_decode_pair : decodeWord 0x1200402400808060 =
    .pair { s := false, rgn := false, pg := 0, x := ⟨.fadd, 8, 9, 0⟩, y := ⟨.iadd, 2, 3, 0⟩ } := by decide +kernel
/-- R457: LD.B32 v8, [v20 + 0]. -/
theorem test_decode_ld : decodeWord 0x0A0E040500000000 = .ld (fw 8 20 0 0 0) := by decide +kernel
theorem test_decode_iadd_imm : decodeWord 0x60F8060700000100 =
    .iaddI { s := false, rgn := true, gp := 7, gn := false, d := 3, a := 7, imm := 0x100 } := by decide +kernel
theorem test_decode_mmq : decodeWord 0x0D4E00000100C001 = .mmq (fw 0 0 8 12 1) := by decide +kernel
theorem test_decode_csrrd : decodeWord 0x0F1E030000000100 = .csrrd (fw 6 0 0 0 0x100) := by decide +kernel
theorem test_decode_evwait : decodeWord 0x287800000000000C = .evwaitI (iw 0 0 12) := by decide +kernel
theorem test_decode_spawn : decodeWord 0x0E4E018500000002 = .spawn (fw 3 20 0 0 2) := by decide +kernel
theorem test_decode_filldone : decodeWord 0x0E8E000000000000 = .filldone (fw 0 0 0 0 0) := by decide +kernel
theorem test_decode_fillput : decodeWord 0x0E7E000201200001 = .fillput (fw 0 8 9 0 1) := by decide +kernel
theorem test_decode_rayrd : decodeWord 0x0EDE060101200000 = .rayrd (fw 12 4 9 0 0) := by decide +kernel
theorem test_decode_zero : decodeWord 0 = .nonInstructionEncoding 0 := by decide +kernel
theorem test_table_word : decodeTableWord 64 0x0E8E000000000000 = some (.filldone (fw 0 0 0 0 0)) := by decide +kernel

/-! ### Ill-formed terms -/

theorem test_ill_variant : illFormed (.freeze (fw 0 0 0 0 3)) = some .variant := by decide +kernel
theorem test_ill_variant_level : illFormed (.freezeL (fw 0 0 0 0 0)) = some .variant := by decide +kernel
theorem test_ill_assigned : illFormed (.nonInstructionEncoding 0x0E8E000000000000) = some .assigned := by decide +kernel
theorem test_ill_event : illFormed (.thermalTrip) = some .noEncoding := by decide +kernel

/-! ### Worked values of the rules -/

/-- The value of a register of batch 2 in a lane after a word of the state. -/
def gives (s : State) (i : Instr) (n l : Nat) (v : W32) : Bool :=
  isNext (exec i s) fun t => (findBatch t 2).any fun b => laneVal (readReg t b n) l == v

/-- R95: IADD.S8 of 100 and 80, with and without SAT. -/
theorem test_iadd_s8 : gives (regs [(1, 100), (2, 80)] base) (.iadd (fw 8 1 2 0 6)) 8 5 0xFFFFFFB4 = true := by decide +kernel
theorem test_iadd_s8_sat : gives (regs [(1, 100), (2, 80)] base) (.iadd (fw 8 1 2 0 0x16)) 8 5 0x7F = true := by decide +kernel
/-- R95: INEG.S32.SAT of the least number; IMUL.N16.SAT of 300 and 300. -/
theorem test_ineg_sat : gives (regs [(1, 0x80000000)] base) (.ineg (fw 8 1 0 0 0x10)) 8 0 0x7FFFFFFF = true := by decide +kernel
theorem test_imul_n16_sat : gives (regs [(1, 300)] base) (.imul (fw 8 1 1 0 0x15)) 8 0 0xFFFF = true := by decide +kernel
/-- R97: adding 1 to all ones with pK 0 gives 0 and sets pK (p3 here). -/
theorem test_iaddx_carry : isNext (exec (.iaddx (fw 8 1 2 0 (1 + 32 * 3)))
    (onBatch (fun b => { b with fibres := b.fibres.map fun p => (p.1, { p.2 with pw := 0 }) }) (regs [(1, 0xFFFFFFFF), (2, 1)] base)))
    (fun t => (findBatch t 2).any fun b => laneVal (readReg t b 8) 0 == 0 && predBit (fibreOf b 9).pw 3) = true := by decide +kernel
/-- R98: −7 by 2, and the borderline cases. -/
theorem test_idiv : isNext (exec (.idiv (fw 8 1 2 0 0)) (regs [(1, 0xFFFFFFF9), (2, 2)] base)) (fun t =>
    (findBatch t 2).any fun b => b.retbuf == [.result 0xFFFFFFFF [(8, .g (List.replicate 32 0xFFFFFFFD))] []] ||
      b.retbuf == [.result 0xFFFFFFFF [(8, .u 0xFFFFFFFD)] []]) = true := by decide +kernel
/-- R104: FSHF.R by 32 gives b. -/
theorem test_fshf : gives (regs [(1, 7), (2, 9), (3, 32)] base) (.fshf (fw 8 1 2 3 1)) 8 0 9 = true := by decide +kernel
/-- R110: with v2 = 0xFFFF_FFFE, ICMPI.LT p3, v2, −1 sets p3. -/
theorem test_icmpi_lt : isNext (exec (.icmpi (iw (2 * 32 + 3) 2 0xFFFFFFFF)) (regs [(2, 0xFFFFFFFE)] base)) (fun t =>
    (findBatch t 2).any fun b => predBit (fibreOf b 0).pw 3) = true := by decide +kernel
/-- R129: the single rounding of FMA gives 2^−24. -/
theorem test_fma_single_rounding : gives (regs [(1, 0x3F800800), (2, 0xBF801000)] base) (.fma (fw 8 1 1 2 0)) 8 0 0x33800000 = true := by
  decide +kernel
/-- R140: IDOT4.SU of the worked bytes and 100 gives 161. -/
theorem test_idot4 : gives (regs [(1, 0xFF020301), (2, 0x0A0B0C0D), (3, 100)] base) (.idot4 (fw 8 1 2 3 0x20)) 8 0 161 = true := by
  decide +kernel
/-- FCVT.BF16.N32 of 0x02020001 gives 0x4C01 (R33, R136). -/
theorem test_fcvt : gives (regs [(6, 0x02020001)] base) (.fcvt (fw 5 6 0 0 0x92)) 5 0 0x4C01 = true := by decide +kernel

/-- The worked pinned batch: lanes 0 to 2 live, p0 = (1, 0, 1), v2 = (10, 20, 30). -/
def pinned3 : State := onBatch (fun b => { b with
  pin := some 0
  regs := ((b.regs.set 2 (.g [10, 20, 30])).set 5 (.u 1)).set 10 (.u 99)
  fibres := (b.fibres.take 3).map fun p => (p.1, { p.2 with pw := if p.1 = 1 then 0 else 1 }) }) base
def p0 (w : FWord) : FWord := { w with gp := 0 }

theorem test_shfl_rel : gives pinned3 (.shfl (p0 (fw 4 2 5 0 3))) 4 0 20 = true ∧ gives pinned3 (.shfl (p0 (fw 4 2 5 0 3))) 4 2 0 = true := by
  decide +kernel
theorem test_redl_add : gives pinned3 (.redl (p0 (fw 7 2 0 0 0))) 7 2 40 = true := by decide +kernel
theorem test_scanl_exc : gives pinned3 (.scanl (p0 (fw 8 2 0 0 16))) 8 2 10 = true := by decide +kernel
theorem test_vote_mask : gives pinned3 (.vote (p0 (fw 9 0 0 0 3))) 9 0 5 = true := by decide +kernel
theorem test_match : gives pinned3 (.matchL (p0 (fw 11 2 0 0 0))) 11 2 4 = true := by decide +kernel

/-- R42 and R43: an affine sum keeps the stride, and a G register stays G under a uniform write. -/
theorem test_affine_sum : isNext (exec (.iadd (fw 4 9 0 0 1)) (regs [(0, 7)] affine)) (fun t =>
    (findBatch t 2).any fun b => rawReg t b 4 == .a 0x107 4) = true := by decide +kernel
theorem test_general_stays : isNext (exec (.movi (iw 2 0 7)) pinned3) (fun t => (findBatch t 2).any fun b =>
    match rawReg t b 2 with
    | .g ls => ls.take 3 == [7, 7, 7]
    | _ => false) = true := by decide +kernel

/-- R281: the worked fibre-local address. -/
theorem test_fl_addr : flAddr ((fetchHeader.set 17 0x100000).set 18 256) 2 37 20 = 0x100000 + 0x82294 := by decide +kernel
/-- R248: the worked WID stands in lane 3 of launch batch 5, and lane 8 is vacant. -/
theorem test_wid :
    let h := (((((fetchHeader.set 1 (3 + 2 * 8 + 3 * 64)).set 3 (6 + 2 * 2 ^ 7 + 3 * 2 ^ 14 + 8 * 2 ^ 21)).set 10 40).set 11 3).set 12 4).set 13 200
    placeWid h (2 ^ 8 + 7 * 2 ^ 11) 5 3 = some 0x39A3 ∧ placeWid h (2 ^ 8 + 7 * 2 ^ 11) 5 8 = none := by decide +kernel

/-- R457: the worked entry. -/
def worked : State := onBatch (fun b => { b with
  priv := false, wb := 16, pc := 0x6000000100
  fibres := b.fibres.take 8
  regs := (b.regs.set 36 (.g ([0, 4, 8, 0xE, 16, 20, 24, 28]))).set 37 (.u 0x50) }) base

theorem test_trap_entry : isNext (exec (.ld (fw 8 20 0 0 0)) worked) (fun t => (findBatch t 2).any fun b =>
    (b.kregs.take 10).map (laneVal · 0) ==
      [0x100, 0x60, 0x10, 0x2314, 0xE, 0x50, 8, 0, 0, 0x0A0E0405] && b.priv && b.pc == 0x300000) = true := by decide +kernel

/-- R366: the worked trigger names graph 7, context 3 and the patch list at VA 0x1000003000. -/
theorem test_trigger_word : bitsOf (0x0000400000C30007 : W64) 0 16 = 7 ∧ bitsOf (0x0000400000C30007 : W64) 16 6 = 3 ∧
    4096 * bitsOf (0x0000400000C30007 : W64) 22 42 = 0x1000003000 := by decide +kernel

/-- R432: the worked leaf is a 2 MiB page at PA 0x240000000 of generation 5. -/
theorem test_leaf : leafPA 0x08140002400002DB = 0x240000000 ∧ leafPgen 0x08140002400002DB = 5 ∧ leafUser 0x08140002400002DB = true ∧
    leafRd 0x08140002400002DB = true ∧ leafWr 0x08140002400002DB = true ∧ leafEx 0x08140002400002DB = false := by decide +kernel
/-- R481, R482: once a bank of column 7 is retired and the step has ended, it has 0x0FE00000 bytes. -/
theorem test_bank_retire : isNext (exec (.bankRetire 7 5) { st with bankDue := [901] }) (fun t =>
    colCap t 7 == 0x10000000 && isNext (exec (.remapStepEnd 7) t) fun u => colCap u 7 == 0x0FE00000) = true := by decide +kernel

/-- The worked retirement: bank 5 of 128 leaves, chunk 5 goes to bank 6 and chunk 200 from bank 72 to bank 74. -/
theorem test_chunk_moves : chunkMove (List.range 128) 5 5 = some ((5, 0), (6, 0)) ∧
    chunkMove (List.range 128) 5 200 = some ((72, 2048), (74, 2048)) ∧
    chunkMove (List.range 128) 5 (127 * 1024) = none ∧ wslocIn (List.range 128) 0x2C40 = some (5, 0x440) := by decide +kernel

/-! ### One step -/

/-- The fetched word runs: IADD v3, v7, 0x100 leaves 0x100 in v3, the pc at the next word. -/
theorem test_step_runs : isNext (step fresh1) (fun t => (findBatch t 2).any fun b =>
    laneVal (readReg t b 3) 0 == 0x100 && b.pc == 0x200008) = true := by decide +kernel
/-- The word of zeros takes ILL_OPCODE at once (R77). -/
theorem test_step_zero : isNext (step (State.reset.withFetchWord 64 0)) (fun t => (findBatch t 2).any fun b =>
    b.pc == 0x300000 && (laneVal (readReg t b 515) 0).extractLsb' 0 8 == BitVec.ofNat 8 (Cause.code .illOpcode)) = true := by
  decide +kernel
/-- A store of v2 is read back from L1 by the same core, and its home byte stands (R155, R331). -/
theorem test_store_then_load : isNext (exec (.st (fw 2 0 0 0 0)) quad) (fun t =>
    memByte t 0x400000 == 0 && isNext (exec (.ld (fw 8 0 0 0 0)) t) fun u => (findBatch u 2).any fun c =>
      c.retbuf.any fun p => match p with
        | .result _ vs _ => vs.any fun v => v.1 == 8 && laneVal v.2 0 == 3
        | _ => false) = true := by decide +kernel

end Sys2Proof.Tests
end

section
/-! SUPPORT. The step makes one of the moves that may come next: the list of moves is never empty (R55, R56). -/
namespace Sys2Proof.Machine
open Sys2Proof

/-! ### The choice among the moves -/

theorem freePick_lt (s : State) {n : Nat} (hn : 0 < n) : (freePick s n).1 < n := by
  unfold freePick
  split
  · exact hn
  · exact Nat.mod_lt _ hn

/-- The step performs a move of a list that is not empty, in the state itself or in the one that the choice leaves. -/
theorem step_mem_enabled (s : State) (h : enabled s ≠ []) :
    ∃ m ∈ enabled s, step s = perform s m ∨ ∃ u, u = (freePick s (enabled s).length).2 ∧ step s = perform u m := by
  unfold step
  generalize enabled s = ms at h ⊢
  split
  · next m => exact ⟨m, List.mem_singleton_self m, .inl rfl⟩
  · have hi := freePick_lt s (List.length_pos_iff.mpr h)
    refine ⟨_, ?_, .inr ⟨_, rfl, rfl⟩⟩
    rw [List.getD_eq_getElem _ _ hi]
    exact List.getElem_mem hi

/-! ### The list of moves is never empty -/

/-- Of batches that may issue, one of the lowest slot comes after none of the others. -/
theorem exists_not_afterLower (s : State) {l : List Batch} (h : l ≠ []) : ∃ b ∈ l, afterLower s l b = false := by
  obtain ⟨b, hb⟩ := Option.ne_none_iff_exists'.mp (mt List.argmin_eq_none.mp (h : l ≠ []) : l.argmin (·.slot) ≠ none)
  have hlow : ∀ c ∈ l, b.slot ≤ c.slot := fun c hc => List.le_of_mem_argmin hc hb
  refine ⟨b, List.argmin_mem hb, ?_⟩
  unfold afterLower
  simp only [Bool.and_eq_false_iff, List.any_eq_false, Bool.and_eq_true, decide_eq_true_eq]
  exact .inr fun c hc hlt => absurd hlt.1.2 (Nat.not_lt.mpr (hlow c hc))

/-- A full L1 has lines. -/
theorem l1Over_full {k : Core} (h : l1Over k = true) : l1Full k = true ∧ k.l1 ≠ [] := by
  simp only [l1Over, l1Full, decide_eq_true_eq] at h ⊢
  exact ⟨by omega, List.ne_nil_of_length_pos (by omega)⟩

/-- What keeps an ac from passing at a core is a step of that core. -/
theorem coreMoves_of_coreHolds (s : State) (k : Core) (i : Nat) (h : coreHolds s k = true) : coreMoves s k i ≠ [] := by
  simp only [coreHolds, Bool.or_eq_true] at h
  unfold coreMoves
  rcases h with (h | h) | h
  · obtain ⟨hf, hl⟩ := l1Over_full h
    simp [hf, hl]
  · obtain ⟨p, hp, hd⟩ := List.any_eq_true.mp h
    have hw : (k.l1.filter fun p => p.2.dirty != 0) ≠ [] :=
      List.ne_nil_of_mem (List.mem_filter.mpr ⟨hp, (Bool.and_eq_true _ _ ▸ hd).1⟩)
    simp [hw]
  · simp [whenDue, h]

/-- Where no step of the hardware is due, no limit is, no thermal trip, and no core holds the ac. -/
theorem holds_nothing_of_dueMoves_nil {s : State} (h : dueMoves s = []) :
    limitDue s = false ∧ tripDue s = false ∧ s.cores.any (coreHolds s) = false := by
  simp only [dueMoves, List.append_eq_nil_iff, List.flatMap_eq_nil_iff, List.map_eq_nil_iff] at h
  obtain ⟨⟨⟨⟨⟨⟨⟨⟨⟨⟨⟨⟨-, hcrews⟩, hbatches⟩, hcores⟩, -⟩, -⟩, hfills⟩, -⟩, -⟩, -⟩, -⟩, hdev⟩, -⟩ := h
  have hwdog : s.batches.any (watchdogDue s) = false := List.any_eq_false.mpr fun b hb hw => by
    have := hbatches b hb
    simp [batchMoves, whenDue, hw] at this
  have hover : s.fills.any (fillOver s) = false := by
    simp only [fillMoves, List.append_eq_nil_iff, List.map_eq_nil_iff] at hfills
    exact List.any_eq_false.mpr (List.filter_eq_nil_iff.mp hfills.2)
  have hmembers : (s.crews.any fun c => !(overdueMembers s c).isEmpty) = false :=
    List.any_eq_false.mpr (List.filter_eq_nil_iff.mp hcrews)
  refine ⟨by simp [limitDue, hwdog, hover, hmembers], ?_, List.any_eq_false.mpr fun k hk hh => ?_⟩
  · by_contra ht
    simp [deviceMoves, whenDue, ht] at hdev
  · obtain ⟨i, hi⟩ := List.mem_iff_getElem?.mp hk
    exact coreMoves_of_coreHolds s k i hh (hcores (k, i) (List.mk_mem_zipIdx_iff_getElem?.mpr hi))

/-- A held store that must be performed before the ac passes has waited for 65,536 ac: its batch may then change how it performs
its stores. -/
theorem freeMoves_of_storeDue {s : State} {b : Batch} (ready : List Nat) (h : storeDue s b = true) : freeMoves s ready b ≠ [] := by
  obtain ⟨r, -, hr⟩ := List.any_eq_true.mp h
  have hclock : s.clock ≠ 0 := by
    simp only [Bool.and_eq_true, decide_eq_true_eq] at hr
    omega
  simp [freeMoves, hclock]

/-- Some move may always come next: where neither a word nor a step of the hardware does, the ac passes. -/
theorem enabled_ne_nil (s : State) : enabled s ≠ [] := by
  unfold enabled
  split
  · exact List.cons_ne_nil _ _
  · intro h
    simp only [List.append_eq_nil_iff, List.map_eq_nil_iff, List.flatMap_eq_nil_iff] at h
    obtain ⟨⟨⟨hissue, hdue⟩, hfree⟩, htick⟩ := h
    obtain ⟨hlimit, htrip, hcores⟩ := holds_nothing_of_dueMoves_nil hdue
    have hstores : s.batches.any (storeDue s) = false :=
      List.any_eq_false.mpr fun b hb hd => freeMoves_of_storeDue _ hd (hfree b hb)
    have hsel : ((selected s).filter fun b => !fillEnded s b) = [] := by
      by_contra hne
      obtain ⟨b, hb, hlow⟩ := exists_not_afterLower s (List.append_ne_nil_of_left_ne_nil hne
        (s.batches.filter fun b => !watchdogDue s b && retryMoves s b))
      exact List.filter_eq_nil_iff.mp hissue b hb (by rw [hlow]; rfl)
    simp [hsel, hcores, hstores, hlimit, htrip] at htick

/-- Settles O5: the list of moves is never empty, and the free choice is an index into it. -/
theorem stepMakesAnEnabledMove : Obligations.StepMakesAnEnabledMove := by
  unfold Obligations.StepMakesAnEnabledMove
  exact fun s => step_mem_enabled s (enabled_ne_nil s)

end Sys2Proof.Machine
end

section
/-! SUPPORT. A word that must wait for outstanding results parks its batch and does nothing else (R61, R62). -/
namespace Sys2Proof.Machine
open Sys2Proof

/-- The park of a batch is all that a word does which must park first (R62). -/
theorem runWord_parks {s : State} {guard : W32 → Bool} {sp : Spec} {b : Batch} (ok : Bool) (body : Exec → Eff)
    (hb : findBatch s s.cur = some b) (hp : mustPark s b (activeLanes b guard) sp = true) :
    runWord s guard sp ok body = .next (park s b.id) := by
  unfold runWord
  simp only [hb, hp, if_true]

/-- Reads of its registers hold no quadrant (R37) where an F-form word parks first. -/
theorem runF_parks {s : State} {w : FWord} {sp : Spec} {b : Batch} (body : Exec → Eff)
    (hb : findBatch s s.cur = some b) (hp : mustPark s b (actF b w) sp = true) :
    runF s w sp body = .next (park s b.id) := by
  unfold runF
  simp only [hb, show mustPark s b (activeLanes b (guardFI w.gp w.gn)) sp = true from hp, if_true]
  exact runWord_parks true body hb hp

/-- Every instruction word that must park first parks its batch, whatever its form. -/
theorem exec_parks {s : State} {i : Instr} {f : Form} {b : Batch} (hf : formOf s i = some f)
    (hb : findBatch s s.cur = some b) (hp : mustPark s b (f.act b) f.sp = true) : exec i s = .next (park s b.id) := by
  cases formOf_runs s i f hf with
  | f w sp body h => rw [h]; exact runF_parks body hb hp
  | i w sp body h => rw [h]; exact runWord_parks true body hb hp
  | p w sp body h hs => rw [h]; exact runWord_parks _ body hb hp

/-- A park marks its batch, and the ac at which it began. -/
theorem park_find {s : State} {b : Batch} (hb : findBatch s b.id = some b) :
    findBatch (park s b.id) b.id = some { b with parked := true, parkedAt := s.clock } := by
  unfold park
  rw [findBatch_modBatch s b.id _ (by intro _; rfl), hb]
  rfl

/-- Settles O21: the run of each of the three word forms asks first whether its batch must park. -/
theorem wordsParkFirst : Obligations.WordsParkFirst := by
  unfold Obligations.WordsParkFirst
  intro s i f b hf hb hp
  have hid : findBatch s b.id = some b := findBatch_id hb ▸ hb
  exact ⟨park s b.id, exec_parks hf hb hp, park_find hid, (OnlyWord.park s b.id).others, rfl⟩

end Sys2Proof.Machine
end

section
/-! SUPPORT. What a register write leaves in its register (R42 to R44): the shape, and the lanes that it does not write. -/
namespace Sys2Proof.Machine
open Sys2Proof

/-! ### The value that a write replaces -/

/-- A register as a write finds it: T counts as U with its frozen value (R44). -/
def frozenReg (s : State) (b : Batch) (i : Nat) : RegVal :=
  match bankReg s b i with
  | .t img => .u (imageReg s img i)
  | v => v

theorem frozenReg_of_t {s : State} {b : Batch} {i img : Nat} (h : bankReg s b i = .t img) :
    frozenReg s b i = .u (imageReg s img i) := by
  unfold frozenReg
  rw [h]

theorem frozenReg_of_ne_t {s : State} {b : Batch} {i : Nat} (h : ∀ img, bankReg s b i ≠ .t img) :
    frozenReg s b i = bankReg s b i := by
  unfold frozenReg
  split
  · next img e => exact absurd e (h img)
  · rfl

theorem frozenReg_of_g {s : State} {b : Batch} {i : Nat} {ls : List W32} (h : bankReg s b i = .g ls) : frozenReg s b i = .g ls := by
  rw [frozenReg_of_ne_t (by simp [h]), h]

theorem frozenReg_ne_g {s : State} {b : Batch} {i : Nat} (h : ∀ ls, bankReg s b i ≠ .g ls) (ls : List W32) :
    frozenReg s b i ≠ .g ls := by
  unfold frozenReg
  split
  · exact nofun
  · exact h ls

theorem laneVal_frozenReg (s : State) (b : Batch) (i l : Nat) : laneVal (frozenReg s b i) l = bankVal s b i l := by
  unfold frozenReg bankVal
  cases bankReg s b i <;> rfl

/-! ### The value that a write leaves -/

theorem not_all_contains {live act : List Nat} {l : Nat} (hl : l ∈ live) (ha : l ∉ act) :
    ¬ (live.all fun l => act.contains l) = true := fun h => ha (by simpa using List.all_eq_true.mp h l hl)

/-- A write that leaves a live lane unwritten makes G of anything. -/
theorem mergeReg_of_unwritten {live act : List Nat} (old new : RegVal) {l : Nat} (hl : l ∈ live) (ha : l ∉ act) :
    mergeReg live act old new =
      .g (laneList fun l => if act.contains l then laneVal new l else if live.contains l then laneVal old l else 0) :=
  if_neg (not_all_contains hl ha)

theorem laneVal_mergeReg_unwritten {live act : List Nat} (old new : RegVal) {l : Nat} (hl : l ∈ live) (h32 : l < 32)
    (ha : l ∉ act) : laneVal (mergeReg live act old new) l = laneVal old l := by
  rw [mergeReg_of_unwritten old new hl ha, laneVal_laneList _ _ h32]
  simp [ha, hl]

theorem overReg_of_g (live act : List Nat) (ls : List W32) (new : RegVal) : overReg live act (.g ls) new =
    .g (laneList fun l => if live.contains l then laneVal (mergeReg live act (.g ls) new) l else 0) := rfl

theorem overReg_of_ne_g (live act : List Nat) {old : RegVal} (new : RegVal) (h : ∀ ls, old ≠ .g ls) :
    overReg live act old new = mergeReg live act old new := by
  unfold overReg
  split
  · next ls => exact absurd rfl (h ls)
  · rfl

/-- A G register stays G, and a write that leaves a live lane unwritten makes its register G (R43). -/
theorem overReg_general {live act : List Nat} {old : RegVal} (new : RegVal)
    (h : (∃ l ∈ live, l ∉ act) ∨ ∃ ls, old = .g ls) : ∃ ls, overReg live act old new = .g ls := by
  by_cases hg : ∃ ls, old = .g ls
  · obtain ⟨ls, rfl⟩ := hg
    exact ⟨_, overReg_of_g live act ls new⟩
  · obtain ⟨l, hl, ha⟩ := h.resolve_right hg
    exact ⟨_, (overReg_of_ne_g live act new fun ls e => hg ⟨ls, e⟩).trans (mergeReg_of_unwritten old new hl ha)⟩

/-- The unwritten lanes keep their old values (R43). -/
theorem laneVal_overReg_unwritten {live act : List Nat} (old new : RegVal) {l : Nat} (hl : l ∈ live) (h32 : l < 32)
    (ha : l ∉ act) : laneVal (overReg live act old new) l = laneVal old l := by
  unfold overReg
  split
  · rw [laneVal_laneList _ _ h32, if_pos (by simpa using hl)]
    exact laneVal_mergeReg_unwritten _ new hl h32 ha
  · exact laneVal_mergeReg_unwritten old new hl h32 ha

/-- An affine result of every live lane stays affine over a register that is not G (R42). -/
theorem overReg_affine {live act : List Nat} {old : RegVal} (base stride : W32) (hall : ∀ l ∈ live, l ∈ act)
    (hg : ∀ ls, old ≠ .g ls) : overReg live act old (.a base stride) = .a base stride := by
  rw [overReg_of_ne_g live act _ hg]
  unfold mergeReg
  rw [if_pos (by simpa using hall)]

/-! ### The batch after a write -/

/-- A register write stores the merged value over the one that it finds, from a state with the same batches. -/
theorem putReg_frozen (s : State) (act : List Nat) (i : Nat) (v : RegVal) {b : Batch} (hb : findBatch s b.id = some b) :
    ∃ s2, putReg s b.id act i v = storeReg s2 b i (overReg (liveLanes b) act (frozenReg s b i) v) ∧ s2.batches = s.batches := by
  unfold putReg frozenReg
  rw [hb]
  dsimp only
  cases bankReg s b i <;> exact ⟨_, rfl, (clearUpsets_batches _ _).trans rfl⟩

/-- What a register write does to its batch: its register lines alone change, and of them only the one written. -/
theorem putReg_writes (s : State) (act : List Nat) (i : Nat) (v : RegVal) {b : Batch} (hb : findBatch s b.id = some b) :
    ∃ c, findBatch (putReg s b.id act i v) b.id = some c ∧ c = { b with regs := c.regs, kregs := c.kregs, xregs := c.xregs } ∧
      (∀ u j, j ≠ i → bankReg u c j = bankReg s b j) ∧
      (Holds b i → ∀ u, bankReg u c i = overReg (liveLanes b) act (frozenReg s b i) v) ∧ ∀ j, Holds c j ↔ Holds b j := by
  obtain ⟨s2, he, h2⟩ := putReg_frozen s act i v hb
  have hb2 : findBatch s2 b.id = some b := by unfold findBatch; rw [h2]; exact hb
  obtain ⟨c, hc, hsame, hoth, hval, hh⟩ := storeReg_spec s2 b i (overReg (liveLanes b) act (frozenReg s b i) v) hb2
  exact ⟨c, he ▸ hc, hsame, fun _ j hj => hoth j hj, fun hi _ => hval hi, hh⟩

/-- Settles O43: the value that the write stores, case by case. -/
theorem partialWritesMakeGeneral : Obligations.PartialWritesMakeGeneral := by
  unfold Obligations.PartialWritesMakeGeneral
  intro s b act i new hb hi
  obtain ⟨c, hc, -, -, hval, -⟩ := putReg_writes s act i new hb
  refine ⟨c, hc, fun h => ?_, fun l hl h32 ha => ?_⟩
  · rw [hval hi]
    refine overReg_general new (h.imp (fun ⟨l, hl, _, ha⟩ => ⟨l, hl, ha⟩) fun ⟨ls, hg⟩ => ⟨ls, frozenReg_of_g hg⟩)
  · rw [hval hi, laneVal_overReg_unwritten _ new hl h32 ha, laneVal_frozenReg]

end Sys2Proof.Machine
end

section
/-! SUPPORT. IADD, ISUB and IMUL of an affine and a uniform operand leave an affine register (R42, R94). -/
namespace Sys2Proof.Machine
open Sys2Proof

/-! ### One register result -/

/-- A word of fixed latency whose one result is affine in every live lane leaves its register affine, where that is not G. -/
theorem fin_affine (x : Exec) (s : State) {b : Batch} {d : Nat} (base stride : W32) (hb : findBatch s x.b.id = some b)
    (hvar : x.sp.var = false) (heph : x.sp.eph = false) (hall : ∀ l ∈ liveLanes b, l ∈ x.act) (hhold : Holds b d)
    (hg : ∀ ls, bankReg s b d ≠ .g ls) :
    ∃ c, findBatch (fin x (endWait s x.b) [(d, .a base stride)] [] []) x.b.id = some c ∧
      readReg (fin x (endWait s x.b) [(d, .a base stride)] [] []) c d = .a base stride := by
  have hid := findBatch_id hb
  let s1 := raiseFlags (endWait s x.b) x.b.crew []
  have hb1 : findBatch s1 b.id = some b := by
    rw [hid, findBatch, (raiseFlags_batches _ _ _).1, (endWait_batches s x.b).1]
    exact hb
  obtain ⟨c1, hc1, -, -, hval, -⟩ := putReg_writes s1 x.act d (.a base stride) hb1
  have hbank : ∀ u, bankReg u c1 d = .a base stride := fun u =>
    (hval hhold u).trans (overReg_affine base stride hall (frozenReg_ne_g hg))
  let e : WinEntry := [(d, RegVal.a base stride)].map fun p => (p.1, none)
  have hc2 := pushWindow_find e hc1
  have hfin : fin x (endWait s x.b) [(d, .a base stride)] [] [] = retire (advance (perfAdd
      (pushWindow (putReg s1 b.id x.act d (.a base stride)) b.id e) x.b.crew 0 1) b.id) b.id x.sp := by
    rw [hid]
    simp only [fin, writeResults, hvar, heph]
    rfl
  have hc3 : findBatch (advance (perfAdd
      (pushWindow (putReg s1 b.id x.act d (.a base stride)) b.id e) x.b.crew 0 1) b.id) b.id =
      some { c1 with window := (e :: c1.window).take 8, pc := c1.pc + 8, block := none, fillWait := [] } := by
    unfold advance
    rw [findBatch_modBatch _ b.id _ (by intro _; rfl)]
    exact congrArg _ hc2
  obtain ⟨c, hc, hsame, -, -, -⟩ := retire_find _ b.id x.sp _ hc3
  rw [hfin, ← hid]
  generalize retire _ b.id x.sp = t at hc ⊢
  have hnone : windowReg c.window d = none := by
    rw [hsame]
    exact windowReg_take (kvGetFirst_map_none [(d, .a base stride)] d ⟨_, List.mem_singleton_self _, rfl⟩)
  have hread : bankReg t c d = .a base stride := by
    rw [hsame]
    exact hbank t
  exact ⟨c, hc, (readReg_bank t c d hnone (by rw [hread]; exact nofun)).trans hread⟩

/-! ### The affine rows of Table 02-2 -/

/-- A register that is not T reads as it is held. -/
theorem readReg_of_ne_t {s : State} {b : Batch} {i : Nat} (h : ∀ img, rawReg s b i ≠ .t img) : readReg s b i = rawReg s b i := by
  unfold readReg
  split
  · next img e => exact absurd e (h img)
  · rfl

theorem affineResult_ne_t {i : Instr} {va vb : RegVal} {r : W32 × W32} (h : affineResult i va vb = some r) (img : Nat) :
    va ≠ .t img ∧ vb ≠ .t img := by
  cases va <;> cases vb <;> simp_all [affineResult]

theorem affineAdd_of_result {w : FWord} {va vb : RegVal} {p st : W32} (h : affineResult (.iadd w) va vb = some (p, st)) :
    affineAdd va vb = some (.a p st) := by
  cases va <;> cases vb <;> simp_all [affineResult, affineAdd]

theorem affineSub_of_result {w : FWord} {va vb : RegVal} {p st : W32} (h : affineResult (.isub w) va vb = some (p, st)) :
    affineSub va vb = some (.a p st) := by
  cases va <;> cases vb <;> simp_all [affineResult, affineSub]

theorem affineMul_of_result {w : FWord} {va vb : RegVal} {p st : W32} (h : affineResult (.imul w) va vb = some (p, st)) :
    affineMul va vb = some (.a p st) := by
  cases va <;> cases vb <;> simp_all [affineResult, affineMul]

theorem affineAdd_of_resultI {w : IWord} {va : RegVal} {p st imm : W32} (h : affineResult (.iaddI w) va (.u imm) = some (p, st)) :
    affineAdd va (.u imm) = some (.a p st) := by
  cases va <;> simp_all [affineResult, affineAdd]

theorem affineMul_of_resultI {w : IWord} {va : RegVal} {p st imm : W32} (h : affineResult (.imulI w) va (.u imm) = some (p, st)) :
    affineMul va (.u imm) = some (.a p st) := by
  cases va <;> simp_all [affineResult, affineMul]

/-- The types that keep an affine result are 32 bits wide. -/
theorem keepsAffine_wide {m : BitVec 11} (h : keepsAffine m = true) : typeBits (modType m) = 32 ∧ modSat m = false := by
  simp only [keepsAffine, Bool.and_eq_true, List.contains_eq_mem, List.mem_cons, List.not_mem_nil, or_false, decide_eq_true_eq,
    Bool.not_eq_true'] at h
  refine ⟨?_, h.2⟩
  rcases h.1 with h | h | h <;> rw [h] <;> rfl

theorem arithResult_affine {x : Exec} {t : Nat} {va vb r : RegVal} {aff : RegVal → RegVal → Option RegVal}
    (g : Int → Int → Int) (ht : typeBits t = 32) (haff : aff va vb = some r) : arithResult x t false va vb aff g = r := by
  simp [arithResult, ht, haff]

/-! ### The words -/

/-- The destination of a word whose affine result every live lane writes: held by the batch, and not G. -/
structure TakesAffine (x : Exec) : Prop where
  full : x.act = liveLanes x.b
  held : Holds x.b (nameOf x .d 0)
  notG : ∀ ls, bankReg x.s x.b (nameOf x .d 0) ≠ .g ls

/-- A word of one affine result, retired, reads back as that result. -/
theorem finish_affine {x : Exec} {base stride : W32} (hx : TakesAffine x) (hb : findBatch x.s x.b.id = some x.b)
    (hvar : x.sp.var = false) (heph : x.sp.eph = false) :
    ∃ c, findBatch (finish x (.res [(nameOf x .d 0, .a base stride)] [] [])) x.b.id = some c ∧
      readReg (finish x (.res [(nameOf x .d 0, .a base stride)] [] [])) c (nameOf x .d 0) = .a base stride := by
  rw [finish_res]
  exact fin_affine x x.s base stride hb hvar heph (fun l hl => hx.full ▸ hl) hx.held hx.notG

theorem arithF_affine {s : State} {op : Nat} {w : FWord} {aff : RegVal → RegVal → Option RegVal} (g : Int → Int → Int) {b : Batch}
    {base stride : W32} (h : Ready s b (actF b w) (specA op w v1 v1 v1 .z typesAdd true) true) (heph : w.eph = false)
    (hx : TakesAffine (fExec s b w (specA op w v1 v1 v1 .z typesAdd true))) (hk : keepsAffine w.m = true)
    (haff : aff (regOf (fExec s b w (specA op w v1 v1 v1 .z typesAdd true)) .a 0)
      (regOf (fExec s b w (specA op w v1 v1 v1 .z typesAdd true)) .b 0) = some (.a base stride)) :
    ∃ t c, arithF s op w aff g = .next t ∧ findBatch t b.id = some c ∧
      readReg t c (nameOf (fExec s b w (specA op w v1 v1 v1 .z typesAdd true)) .d 0) = .a base stride := by
  obtain ⟨hbits, hsat⟩ := keepsAffine_wide hk
  obtain ⟨c, hc, hr⟩ := finish_affine (base := base) (stride := stride) hx (fExec_find s b w _ h.cur) rfl heph
  refine ⟨_, c, ?_, (begunBatch_id b _) ▸ hc, hr⟩
  rw [arithF, runF_ready s w _ _ b h]
  simp only [hsat, arithResult_affine g hbits haff]

theorem arithI_affine {s : State} {op : Nat} {w : IWord} {aff : RegVal → RegVal → Option RegVal} (g : Int → Int → Int) {b : Batch}
    {base stride : W32} (h : Ready s b (actI b w) (iSpec op w v1 v1) true) (hx : TakesAffine (iExec s b w (iSpec op w v1 v1)))
    (haff : aff (regOf (iExec s b w (iSpec op w v1 v1)) .a 0) (.u w.imm) = some (.a base stride)) :
    ∃ t c, arithI s op w aff g = .next t ∧ findBatch t b.id = some c ∧
      readReg t c (nameOf (iExec s b w (iSpec op w v1 v1)) .d 0) = .a base stride := by
  obtain ⟨c, hc, hr⟩ := finish_affine (base := base) (stride := stride) hx (iExec_find s b w _ h.cur) rfl rfl
  refine ⟨_, c, ?_, (begunBatch_id b _) ▸ hc, hr⟩
  rw [arithI, runI_ready s w _ _ b h]
  simp only [arithResult_affine (t := 0) g rfl haff]

theorem takesAffine_begun {x : Exec} {b : Batch} {rgn : Bool} (hbx : x.b = begunBatch b rgn) (full : x.act = liveLanes b)
    (held : Holds b (nameOf x .d 0)) (notG : ∀ ls, bankReg x.s x.b (nameOf x .d 0) ≠ .g ls) : TakesAffine x where
  full := by rw [full, hbx, begunBatch_live]
  held := by
    rw [hbx]
    refine (Holds_congr ?_ ?_ ?_ _).mpr held <;> (unfold begunBatch; split <;> rfl)
  notG := notG

/-- Settles O42: the five words that give an affine result, each by its row of Table 02-2. -/
theorem affineSums : Obligations.AffineSums := by
  unfold Obligations.AffineSums
  intro s i f b va vb base stride hf hready heph x d hfull hhold _ hg hops hres
  have hva := fun img => (affineResult_ne_t hres img).1
  have hvb := fun img => (affineResult_ne_t hres img).2
  unfold affineOperands at hops
  split at hops
  case h_1 w =>
    obtain ⟨hk, hops⟩ := Option.ite_none_right_eq_some.mp hops
    cases Option.some.inj hf
    cases hops
    exact arithF_affine _ hready heph (takesAffine_begun rfl hfull hhold hg) hk
      ((congrArg₂ affineAdd (readReg_of_ne_t hva) (readReg_of_ne_t hvb)).trans (affineAdd_of_result hres))
  case h_2 w =>
    obtain ⟨hk, hops⟩ := Option.ite_none_right_eq_some.mp hops
    cases Option.some.inj hf
    cases hops
    exact arithF_affine _ hready heph (takesAffine_begun rfl hfull hhold hg) hk
      ((congrArg₂ affineSub (readReg_of_ne_t hva) (readReg_of_ne_t hvb)).trans (affineSub_of_result hres))
  case h_3 w =>
    obtain ⟨hk, hops⟩ := Option.ite_none_right_eq_some.mp hops
    cases Option.some.inj hf
    cases hops
    exact arithF_affine _ hready heph (takesAffine_begun rfl hfull hhold hg) hk
      ((congrArg₂ affineMul (readReg_of_ne_t hva) (readReg_of_ne_t hvb)).trans (affineMul_of_result hres))
  case h_4 w =>
    cases Option.some.inj hf
    cases hops
    exact arithI_affine _ hready (takesAffine_begun rfl hfull hhold hg)
      ((congrArg₂ affineAdd (readReg_of_ne_t hva) rfl).trans (affineAdd_of_resultI hres))
  case h_5 w =>
    cases Option.some.inj hf
    cases hops
    exact arithI_affine _ hready (takesAffine_begun rfl hfull hhold hg)
      ((congrArg₂ affineMul (readReg_of_ne_t hva) rfl).trans (affineMul_of_resultI hres))
  case h_6 => exact absurd hops nofun

end Sys2Proof.Machine
end

section
/-! SUPPORT. The tag that the hardware recomputes from lane values keeps those values (R45), and what a merge leaves of the
batches that join (R252). -/
namespace Sys2Proof.Machine
open Sys2Proof

/-! ### Lanes in increasing order -/

theorem insertBy_eq_orderedInsert (a : Nat) (l : List Nat) :
    insertBy (fun a b => decide (a ≤ b)) a l = l.orderedInsert (· ≤ ·) a := by
  induction l with
  | nil => rfl
  | cons b l ih => simp [insertBy, List.orderedInsert, ih]

theorem sortBy_eq_insertionSort (l : List Nat) : sortBy l (fun a b => decide (a ≤ b)) = l.insertionSort (· ≤ ·) := by
  induction l with
  | nil => rfl
  | cons a l ih => exact (insertBy_eq_orderedInsert a _).trans (congrArg _ ih)

theorem mem_sortBy {l : List Nat} {a : Nat} : a ∈ sortBy l (fun a b => decide (a ≤ b)) ↔ a ∈ l := by
  rw [sortBy_eq_insertionSort]
  exact (List.perm_insertionSort _ l).mem_iff

theorem sortBy_pairwise (l : List Nat) : (sortBy l fun a b => decide (a ≤ b)).Pairwise (· ≤ ·) := by
  rw [sortBy_eq_insertionSort]
  exact List.pairwise_insertionSort _ l

/-! ### The recomputed tag (R45) -/

theorem retag_ne_t (live : List Nat) (vals : List W32) (img : Nat) : retag live vals ≠ .t img := by
  unfold retag
  dsimp only
  repeat' split
  all_goals exact nofun

/-- A value of the sequence that starts below a lane, reckoned from lane 0. -/
theorem affine_from_zero (v st : W32) {l l0 : Nat} (h : l0 ≤ l) :
    v - st * BitVec.ofNat 32 l0 + st * BitVec.ofNat 32 l = v + st * BitVec.ofNat 32 (l - l0) := by
  obtain ⟨k, rfl⟩ := Nat.exists_eq_add_of_le h
  rw [Nat.add_sub_cancel_left, BitVec.ofNat_add, BitVec.mul_add]
  abel

/-- A general line of the live lanes' values holds the value of each. -/
theorem laneVal_liveLine {live : List Nat} (vals : List W32) {l : Nat} (hl : l ∈ live) (h32 : l < 32) :
    laneVal (.g (laneList fun l => if live.contains l then vals.getD l 0 else 0)) l = vals.getD l 0 := by
  rw [laneVal_laneList _ _ h32, if_pos (by simpa using hl)]

/-- Whatever tag R45 gives a register, it keeps the value of every live lane. -/
theorem laneVal_retag {live : List Nat} (vals : List W32) (hs : live.Pairwise (· ≤ ·)) {l : Nat} (hl : l ∈ live) (h32 : l < 32) :
    laneVal (retag live vals) l = vals.getD l 0 := by
  cases live with
  | nil => exact absurd hl List.not_mem_nil
  | cons l0 rest =>
    have hlow : l0 ≤ l := by
      rcases List.mem_cons.mp hl with rfl | hl
      · exact Nat.le_refl _
      · exact (List.pairwise_cons.mp hs).1 l hl
    unfold retag
    dsimp only
    split
    · next hall =>
      rcases List.mem_cons.mp hl with rfl | hl
      · rfl
      · exact (of_decide_eq_true (List.all_eq_true.mp hall l hl)).symm
    · split
      · next hne => exact absurd rfl hne
      · split
        · exact laneVal_liveLine vals hl h32
        · split
          · next st hst =>
            have hfits := List.find?_some hst
            exact (affine_from_zero _ _ hlow).trans (of_decide_eq_true (List.all_eq_true.mp hfits l hl)).symm
          · exact laneVal_liveLine vals hl h32

/-! ### One register of two batches that join -/

/-- The value of lane `l` of a register, from the batch of those that join which has the lane. -/
def joinVal (s : State) (bs : List Batch) (i l : Nat) : W32 :=
  match bs.find? fun b => (liveLanes b).contains l with
  | some b => bankVal s b i l
  | none => 0

/-- A register that the batches share as T stays T; any other takes the tag of its lane values (R45). -/
theorem joinReg_cases (s : State) (bs : List Batch) (i : Nat) :
    (∃ img, joinReg s bs i = .t img ∧ ∀ b ∈ bs, bankReg s b i = .t img) ∨
      joinReg s bs i = retag (sortBy (bs.flatMap liveLanes) fun a b => decide (a ≤ b)) (laneList (joinVal s bs i)) := by
  unfold joinReg
  dsimp only
  split
  · next img rest htags =>
    split
    · next hall =>
      refine .inl ⟨img, rfl, fun b hb => ?_⟩
      have hb' : bankReg s b i ∈ RegVal.t img :: rest := htags ▸ List.mem_map_of_mem hb
      rcases List.mem_cons.mp hb' with h | h
      · exact h
      · exact of_decide_eq_true (List.all_eq_true.mp hall _ h)
    · exact .inr rfl
  · exact .inr rfl

theorem bankVal_of_ne_t {s : State} {b : Batch} {i : Nat} (h : ∀ img, bankReg s b i ≠ .t img) (l : Nat) :
    bankVal s b i l = laneVal (bankReg s b i) l := by
  rw [← laneVal_frozenReg, frozenReg_of_ne_t h]

theorem bankVal_of_t {s : State} {b : Batch} {i img : Nat} (h : bankReg s b i = .t img) (l : Nat) :
    bankVal s b i l = imageReg s img i := by
  rw [← laneVal_frozenReg, frozenReg_of_t h]
  rfl

/-- A batch whose register is the joined one reads in each lane what the batch of that lane held there. -/
theorem bankVal_of_joinReg {s t : State} {bs : List Batch} {b c : Batch} {i l : Nat} (himg : t.images = s.images)
    (hreg : bankReg t c i = joinReg s bs i) (hb : bs.find? (fun b => (liveLanes b).contains l) = some b) (h32 : l < 32) :
    bankVal t c i l = bankVal s b i l := by
  have hmem : b ∈ bs := List.mem_of_find?_eq_some hb
  have hl : l ∈ liveLanes b := by simpa using List.find?_some hb
  rcases joinReg_cases s bs i with ⟨img, h, hall⟩ | h
  · rw [bankVal_of_t (hreg.trans h), bankVal_of_t (hall b hmem), imageReg, imageReg, himg]
  · rw [bankVal_of_ne_t (by rw [hreg, h]; exact retag_ne_t _ _), hreg, h,
      laneVal_retag _ (sortBy_pairwise _) (mem_sortBy.mpr (List.mem_flatMap.mpr ⟨b, hmem, hl⟩)) h32, laneList_getD _ _ h32,
      joinVal, hb]

/-! ### The fibres of batches that join -/

/-- Entries put into a table one after the other: the first of a key stands, and the table's own where there is none. -/
theorem kvGet_foldr_kvSet {α : Type} (ps t : List (Nat × α)) (k : Nat) :
    kvGet (ps.foldr (fun p t => kvSet t p.1 p.2) t) k = (kvGet ps k).or (kvGet t k) := by
  induction ps with
  | nil => rfl
  | cons p ps ih =>
    rw [List.foldr_cons, kvGet_kvSet, ih, kvGet]
    by_cases e : p.1 = k
    · simp [e]
    · simp [e, Ne.symm e]

theorem mem_keys_iff {α : Type} (t : List (Nat × α)) (k : Nat) : k ∈ t.map (·.1) ↔ (kvGet t k).isSome = true := by
  induction t with
  | nil => simp [kvGet]
  | cons p t ih =>
    rw [List.map_cons, List.mem_cons, ih, kvGet]
    by_cases e : p.1 = k
    · simp [e]
    · simp [e, Ne.symm e]

theorem kvGet_of_not_mem {α : Type} {t : List (Nat × α)} {k : Nat} (h : k ∉ t.map (·.1)) : kvGet t k = none :=
  Option.not_isSome_iff_eq_none.mp (mt (mem_keys_iff t k).mpr h)

/-! ### The batch that a merge leaves -/

theorem findBatch_delBatch_self (s : State) (id : Nat) : findBatch (delBatch s id) id = none :=
  List.find?_eq_none.mpr fun b hb => by simpa using (List.mem_filter.mp hb).2

theorem findBatch_delBatch_ne (s : State) {id j : Nat} (h : j ≠ id) : findBatch (delBatch s id) j = findBatch s j := by
  unfold findBatch delBatch
  rw [List.find?_filter]
  congr 1
  funext b
  by_cases e : b.id = j <;> simp [e, h]

/-- What joining makes of a batch `x` into which `y` merges: the lanes of both, the joined registers, and an empty window
(R45, R252). -/
def mergeInto (s : State) (x y c : Batch) : Batch :=
  { c with
    regs := (List.range x.regs.length).map (joinReg s [x, y])
    kregs := (List.range 32).map fun j => joinReg s [x, y] (512 + j)
    fibres := y.fibres.foldr (fun p t => kvSet t p.1 p.2) x.fibres
    window := []
    xregs := (List.range (max x.xregs.length y.xregs.length)).map fun j => joinReg s [x, y] (x.regs.length + j)
    xheld := x.xheld || y.xheld
    ahead := []
    late := x.late || y.late
    issued := ([x, y].filterMap (·.issued)).max?
    lastIssue := max x.lastIssue y.lastIssue }

theorem joinBatches_two (s : State) (x y : Batch) :
    joinBatches s x [y] = modBatch (delBatch s y.id) x.id (mergeInto s x y) := by
  show _ = modBatch _ _ fun c => mergeInto s x y c
  simp [joinBatches, mergeInto]

theorem joinBatches_find {s : State} {x y : Batch} (hx : findBatch s x.id = some x) (hne : x.id ≠ y.id) :
    findBatch (joinBatches s x [y]) x.id = some (mergeInto s x y x) := by
  rw [joinBatches_two, findBatch_modBatch _ _ (mergeInto s x y) fun _ => rfl, findBatch_delBatch_ne s hne, hx]
  rfl

theorem joinBatches_find_gone (s : State) {x y : Batch} (hne : x.id ≠ y.id) : findBatch (joinBatches s x [y]) y.id = none := by
  rw [joinBatches_two, findBatch_modBatch_ne _ _ _ (mergeInto s x y) (fun _ => rfl) hne.symm, findBatch_delBatch_self]

theorem joinBatches_images (s : State) (x y : Batch) : (joinBatches s x [y]).images = s.images := rfl

/-- The names of the base set, of the extended set of the batch that stays, and of the k registers are joined registers. -/
theorem bankReg_mergeInto (s t : State) (x y c : Batch) {i : Nat}
    (hi : i < x.regs.length ∧ i < 512 ∨ x.regs.length ≤ i ∧ i < x.regs.length + x.xregs.length ∧ i < 512 ∨ 512 ≤ i ∧ i < 544) :
    bankReg t (mergeInto s x y c) i = joinReg s [x, y] i := by
  unfold bankReg mergeInto
  rcases hi with ⟨hn, h512⟩ | ⟨hn, hm, h512⟩ | ⟨h512, h544⟩
  · simp [Nat.not_le.mpr h512, hn, List.getD]
  · have hlt : i - x.regs.length < max x.xregs.length y.xregs.length := by omega
    simp [Nat.not_le.mpr h512, Nat.not_lt.mpr hn, List.getD, List.getElem?_map, List.getElem?_range hlt, Nat.add_sub_cancel' hn]
  · have hlt : i - 512 < 32 := by omega
    simp [h512, List.getD, List.getElem?_map, List.getElem?_range hlt, Nat.add_sub_cancel' h512]

theorem kvGet_mergeInto (s : State) (x y c : Batch) (l : Nat) :
    kvGet (mergeInto s x y c).fibres l = (kvGet y.fibres l).or (kvGet x.fibres l) := kvGet_foldr_kvSet y.fibres x.fibres l

theorem mem_liveLanes_mergeInto (s : State) (x y c : Batch) (l : Nat) :
    l ∈ liveLanes (mergeInto s x y c) ↔ l ∈ liveLanes x ∨ l ∈ liveLanes y := by
  simp only [liveLanes, mem_keys_iff, kvGet_mergeInto, Option.isSome_or, Bool.or_eq_true]
  exact or_comm

/-! ### The merge -/

/-- What the conditions of R252 say of two batches that merge. -/
theorem canMerge_spec {s : State} {x y : Batch} (h : canMerge s x y = true) :
    x.id ≠ y.id ∧ x.xheld = y.xheld ∧ ∀ l ∈ liveLanes x, l ∉ liveLanes y := by
  simp only [canMerge, Bool.and_eq_true, bne_iff_ne, beq_iff_eq, Bool.not_eq_true', List.any_eq_false, List.contains_iff_mem] at h
  tauto

theorem execBatchMerge_joins {s : State} {a b : Nat} {x y : Batch} (hx : findBatch s a = some x) (hy : findBatch s b = some y)
    (hm : canMerge s x y = true) (hj : joinFault s [x, y] = none) :
    execBatchMerge a b s = .next (joinBatches s x [y]) := by
  unfold execBatchMerge
  simp only [hx, hy, hm, hj, if_true]

/-- Settles O59: the fibres are those of both batches, and the recomputed tags keep every lane value. -/
theorem mergeKeepsLanes : Obligations.MergeKeepsLanes := by
  unfold Obligations.MergeKeepsLanes
  intro s a b x y hx hy hm hj
  obtain rfl := findBatch_id hx
  obtain rfl := findBatch_id hy
  obtain ⟨hne, hheld, hdisj⟩ := canMerge_spec hm
  have hfind : ∀ l, (l ∈ liveLanes x → [x, y].find? (fun b => (liveLanes b).contains l) = some x) ∧
      (l ∈ liveLanes y → [x, y].find? (fun b => (liveLanes b).contains l) = some y) := by
    intro l
    refine ⟨fun h => by simp [h], fun h => ?_⟩
    have hnx : l ∉ liveLanes x := fun h' => hdisj l h' h
    simp [h, hnx]
  refine ⟨_, _, execBatchMerge_joins hx hy hm hj, joinBatches_find hx hne, joinBatches_find_gone s hne, rfl,
    by simp [mergeInto, ← hheld], mem_liveLanes_mergeInto s x y x, ?_, ?_, ?_⟩
  · intro l hl
    rw [fibreOf, kvGetD, kvGet_mergeInto, kvGet_of_not_mem (hdisj l hl)]
    rfl
  · intro l hl
    obtain ⟨f, hf⟩ := kvGet_live y l hl
    rw [fibreOf, kvGetD, kvGet_mergeInto, fibreOf, kvGetD, hf]
    rfl
  · intro i hi l h32
    have hreg := bankReg_mergeInto s (joinBatches s x [y]) x y x
      (hi.imp id fun h => h.imp (fun ⟨_, h⟩ => h) id)
    exact ⟨fun hl => bankVal_of_joinReg (joinBatches_images s x y) hreg ((hfind l).1 hl) h32,
      fun hl => bankVal_of_joinReg (joinBatches_images s x y) hreg ((hfind l).2 hl) h32⟩

end Sys2Proof.Machine
end

section
/-! SUPPORT. Stores and the reads of an MMQ, performed after their words (R209, R318), change no batch. -/
namespace Sys2Proof.Machine
open Sys2Proof

/-- A fold of steps that keep the batches keeps them. -/
theorem foldl_batches {α : Type} {f : State → α → State} (hf : ∀ s a, (f s a).batches = s.batches) (l : List α) :
    ∀ s : State, (l.foldl f s).batches = s.batches := by
  induction l with
  | nil => exact fun _ => rfl
  | cons a l ih => exact fun s => (ih _).trans (hf s a)

/-- The same of a fold that carries something beside the state. -/
theorem foldl_fst_batches {α β : Type} {f : State × β → α → State × β} (hf : ∀ p a, (f p a).1.batches = p.1.batches)
    (l : List α) : ∀ p : State × β, (l.foldl f p).1.batches = p.1.batches := by
  induction l with
  | nil => exact fun _ => rfl
  | cons a l ih => exact fun p => (ih _).trans (hf p a)

/-! ### The home -/

@[simp] theorem mendWords_batches (s : State) (pa n : Nat) : (mendWords s pa n).batches = s.batches := by
  unfold mendWords; split <;> rfl

@[simp] theorem modStamps_batches (s : State) (pa n : Nat) (f : Nat × Stamp → Stamp) :
    (modStamps s pa n f).batches = s.batches := by
  unfold modStamps; split <;> rfl

@[simp] theorem touchStamps_batches (s : State) (pa n : Nat) : (touchStamps s pa n).batches = s.batches :=
  modStamps_batches ..

@[simp] theorem overStamps_batches (s : State) (core pa n : Nat) : (overStamps s core pa n).batches = s.batches :=
  modStamps_batches ..

@[simp] theorem homePut_batches (s : State) (pa : Nat) (v : Byte) : (homePut s pa v).batches = s.batches := by
  show (unzeroLine s pa).batches = s.batches
  unfold unzeroLine
  split
  · exact mendWords_batches s _ _
  · rfl

@[simp] theorem homeWrite_batches (s : State) (pa : Nat) (bs : List Byte) : (homeWrite s pa bs).batches = s.batches := by
  unfold homeWrite
  split
  · rfl
  · rw [touchStamps_batches, mendWords_batches, foldl_fst_batches fun p v => homePut_batches p.1 p.2 v]
    rfl

@[simp] theorem recordWriter_batches (s : State) (crew pa n : Nat) (atomic : Bool) :
    (recordWriter s crew pa n atomic).batches = s.batches := rfl

@[simp] theorem useEngines_batches (s : State) (es : List Engine) : (useEngines s es).batches = s.batches := rfl

@[simp] theorem freeBool_batches (s : State) : (freeBool s).2.batches = s.batches := rfl

@[simp] theorem freeVal_batches (s : State) : (freeVal s).2.batches = s.batches := rfl

@[simp] theorem monSample_batches (s : State) (src ctx x : Nat) : (monSample s src ctx x).batches = s.batches := rfl

@[simp] theorem perfAdd_batches (s : State) (crew idx n : Nat) : (perfAdd s crew idx n).batches = s.batches := rfl

@[simp] theorem countHome_batches (s : State) (crew ctx pa : Nat) : (countHome s crew ctx pa).batches = s.batches := by
  unfold countHome
  generalize hu : useHome s pa = u
  have hs : u.batches = s.batches := by rw [← hu, useHome, useEngines_batches]
  dsimp only
  split
  · simp [hs]
  · split <;> simp [hs]

/-! ### The L1 -/

@[simp] theorem clearLine_batches (s : State) (core key : Nat) : (clearLine s core key).batches = s.batches :=
  clearUpsets_batches _ _

@[simp] theorem l1Fill_batches (s : State) (core key : Nat) (leaf : W64) (home : List Byte) (fl : Option Nat) :
    (l1Fill s core key leaf home fl).batches = s.batches := by
  refine (modStamps_batches _ _ _ _).trans ?_
  split
  · exact clearLine_batches s core key
  · rfl

@[simp] theorem l1Ensure_batches (s : State) (core key crew ctx : Nat) (leaf : W64) (home : State → List Byte) (fl : Option Nat) :
    (l1Ensure s core key crew ctx leaf home fl).batches = s.batches := by
  unfold l1Ensure
  split
  · split <;> rfl
  · exact (l1Fill_batches ..).trans (countHome_batches ..)

@[simp] theorem l1Store_batches (s : State) (core key off : Nat) (bs : List Byte) (colour : Nat) (owner : Nat × Nat) :
    (l1Store s core key off bs colour owner).batches = s.batches := by
  unfold l1Store
  dsimp only
  split <;> exact clearUpsets_batches _ _

/-! ### Scratch, and the places of a store -/

@[simp] theorem scratchWrite_batches (s : State) (crew off : Nat) (bs : List Byte) :
    (scratchWrite s crew off bs).batches = s.batches :=
  (clearUpsets_batches _ _).trans (touchStamps_batches ..)

@[simp] theorem storeLoc_batches (s : State) (b : Batch) (bs : List Byte) (colour : Nat) (loc : Loc) :
    (storeLoc s b bs colour loc).batches = s.batches := by
  unfold storeLoc
  cases loc with
  | scratch c o => exact scratchWrite_batches ..
  | checked pa l =>
    dsimp only
    split
    · exact countHome_batches ..
    · exact (homeWrite_batches ..).trans (countHome_batches ..)
  | mem pa l fl => simp
  | gen va l line => rfl
  | xform va l => exact foldl_fst_batches (fun p pa => by simp) _ _

/-! ### Held stores -/

@[simp] theorem performStore_batches (s : State) (b : Batch) (r : StoreSrc) : (performStore s b r).batches = s.batches := by
  unfold performStore
  split
  · rfl
  · exact storeLoc_batches ..

/-- Performing held stores takes them from their batch, and changes nothing else of any batch. -/
theorem performStores_find {s : State} {b : Batch} (n : Nat) (hb : findBatch s b.id = some b) :
    ∃ c, findBatch (performStores s b n) b.id = some c ∧ c = { b with stores := c.stores, storesOwed := c.storesOwed } := by
  unfold performStores performThose
  dsimp only
  split
  · exact ⟨b, hb, rfl⟩
  · rw [findBatch_modBatch _ _ _ (by intro _; rfl), findBatch,
      foldl_batches fun s (p : StoreSrc × Nat) => performStore_batches s b p.1]
    exact ⟨_, congrArg _ hb, rfl⟩

theorem drainStores_find {s : State} {b : Batch} (hb : findBatch s b.id = some b) :
    ∃ c, findBatch (drainStores s b.id) b.id = some c ∧ c = { b with stores := c.stores, storesOwed := c.storesOwed } := by
  unfold drainStores
  simp only [hb]
  split
  · exact ⟨b, hb, rfl⟩
  · exact performStores_find _ hb

end Sys2Proof.Machine
end

section
/-! SUPPORT. The results that the end of a park writes: each stands in its register until a later one writes it there
(R60, R61, R287). -/
namespace Sys2Proof.Machine
open Sys2Proof

/-! ### A value that stands in a register -/

/-- Lane `l` of register `i` holds a value of its own, not that of a Kiln image. -/
def Stands (b : Batch) (i l : Nat) (v : W32) : Prop :=
  ∀ u : State, (∀ img, bankReg u b i ≠ .t img) ∧ laneVal (bankReg u b i) l = v

/-- Between two states of a batch only its register lines have changed, and none was gained or lost. -/
structure LinesOnly (b c : Batch) : Prop where
  same : c = { b with regs := c.regs, kregs := c.kregs, xregs := c.xregs }
  holds : ∀ j, Holds c j ↔ Holds b j

theorem LinesOnly.refl (b : Batch) : LinesOnly b b := ⟨rfl, fun _ => Iff.rfl⟩

theorem LinesOnly.trans {b c d : Batch} (h : LinesOnly b c) (k : LinesOnly c d) : LinesOnly b d :=
  ⟨by rw [k.same, h.same], fun j => (k.holds j).trans (h.holds j)⟩

theorem LinesOnly.live {b c : Batch} (h : LinesOnly b c) : liveLanes c = liveLanes b := by
  rw [h.same]
  rfl

theorem LinesOnly.id {b c : Batch} (h : LinesOnly b c) : c.id = b.id := by
  rw [h.same]

/-- What of a batch's registers a change keeps: every value that stands in a live lane which the change does not write. -/
def KeepsBut (writes : Nat → Nat → Prop) (b c : Batch) : Prop :=
  ∀ i l v, l ∈ liveLanes b → l < 32 → Holds b i → ¬ writes i l → Stands b i l v → Stands c i l v

/-- The batch of an id goes on in `t` with the lines that `writes` does not name. -/
def GoesOn (writes : Nat → Nat → Prop) (b : Batch) (t : State) : Prop :=
  ∃ c, findBatch t b.id = some c ∧ LinesOnly b c ∧ KeepsBut writes b c

theorem goesOn_refl {writes : Nat → Nat → Prop} {b : Batch} {s : State} (hb : findBatch s b.id = some b) : GoesOn writes b s :=
  ⟨b, hb, LinesOnly.refl b, fun _ _ _ _ _ _ _ h => h⟩

/-- Two changes, one after the other, keep what neither of them writes. -/
theorem GoesOn.trans {w1 w2 writes : Nat → Nat → Prop} {b : Batch} {t u : State} (h : GoesOn w1 b t)
    (k : ∀ c, c.id = b.id → findBatch t c.id = some c → GoesOn w2 c u) (h1 : ∀ i l, w1 i l → writes i l) (h2 : ∀ i l, w2 i l → writes i l) :
    GoesOn writes b u := by
  obtain ⟨c, hc, hbc, hk⟩ := h
  obtain ⟨d, hd, hcd, hk2⟩ := k c hbc.id (hbc.id ▸ hc)
  refine ⟨d, hbc.id ▸ hd, hbc.trans hcd, fun i l v hl h32 hi hw hv => ?_⟩
  exact hk2 i l v (hbc.live ▸ hl) h32 ((hbc.holds i).mpr hi) (mt (h2 i l) hw)
    (hk i l v hl h32 hi (mt (h1 i l) hw) hv)

/-! ### One write, and the writes of one result -/

/-- A write keeps the values of other registers, of lanes that it does not write, and those that it writes again. -/
theorem putReg_goesOn {s : State} {b : Batch} (act : List Nat) (i : Nat) (new : RegVal) (hb : findBatch s b.id = some b) :
    GoesOn (fun j l => j = i ∧ l ∈ act) b (putReg s b.id act i new) := by
  obtain ⟨c, hc, hsame, hoth, hval, hh⟩ := putReg_writes s act i new hb
  refine ⟨c, hc, ⟨hsame, hh⟩, fun j l v hl h32 hj hw hv u => ?_⟩
  by_cases e : j = i
  · subst e
    have ha : l ∉ act := fun ha => hw ⟨rfl, ha⟩
    obtain ⟨ls, hg⟩ := overReg_general (old := frozenReg s b j) new (.inl ⟨l, hl, ha⟩)
    rw [hval hj u]
    refine ⟨fun img e => by simp [hg] at e, ?_⟩
    rw [laneVal_overReg_unwritten _ new hl h32 ha, frozenReg_of_ne_t (hv s).1, (hv s).2]
  · rw [hoth u j e]
    exact hv u

theorem putRegs_goesOn (act : List Nat) (vs : List (Nat × RegVal)) : ∀ {s : State} {b : Batch}, findBatch s b.id = some b →
    GoesOn (fun j l => l ∈ act ∧ ∃ q ∈ vs, q.1 = j) b (putRegs s b.id act vs) := by
  induction vs with
  | nil => exact fun hb => goesOn_refl hb
  | cons p ps ih =>
    intro s b hb
    refine (putReg_goesOn act p.1 p.2 hb).trans (w2 := fun j l => l ∈ act ∧ ∃ q ∈ ps, q.1 = j) ?_ ?_ ?_
    · intro c hid hc
      have h := ih hc
      rwa [hid] at h
    · rintro j l ⟨rfl, hl⟩
      exact ⟨hl, p, List.mem_cons_self, rfl⟩
    · rintro j l ⟨hl, q, hq, hj⟩
      exact ⟨hl, q, List.mem_cons_of_mem _ hq, hj⟩

/-! ### One returned result -/

theorem mem_lanesOf {m : W32} {l : Nat} : l ∈ lanesOf m ↔ l < 32 ∧ m.getLsbD l = true := by
  simp [lanesOf, lanes32]

/-- What one returned result writes: its registers in the lanes of its mask. SHAPEG writes no value that was not there. -/
def pendingWrites (p : Pending) (j l : Nat) : Prop :=
  match p with
  | .result m vals _ => m.getLsbD l = true ∧ ∃ q ∈ vals, q.1 = j
  | .toGeneral _ => False

theorem findBatch_raiseFlags (s : State) (crew : Nat) (fl : LaneFlags) (id : Nat) :
    findBatch (raiseFlags s crew fl) id = findBatch s id := by
  rw [findBatch, (raiseFlags_batches s crew fl).1, findBatch]

/-- A result lands as the writes of its registers, from a state in which its flags have joined. -/
theorem landPending_result {s : State} {b : Batch} (m : W32) (vals : List (Nat × RegVal)) (fl : LaneFlags)
    (hb : findBatch s b.id = some b) :
    landPending s b.id (.result m vals fl) = putRegs (raiseFlags s b.crew fl) b.id (lanesOf m) vals := by
  unfold landPending
  simp only [hb]

/-- SHAPEG's conversion of a register that is not G yet writes back the values of its lanes. -/
theorem landPending_toGeneral {s : State} {b : Batch} (i : Nat) (hb : findBatch s b.id = some b) :
    landPending s b.id (.toGeneral i) = s ∨
      landPending s b.id (.toGeneral i) = putReg s b.id (liveLanes b) i (.g (laneList (laneVal (frozenReg s b i)))) := by
  unfold landPending frozenReg
  simp only [hb]
  cases bankReg s b i
  · exact .inr rfl
  · exact .inr rfl
  · exact .inl rfl
  · exact .inr rfl

/-- A write of the values that its register holds keeps them all. -/
theorem putReg_rewrite_goesOn {s : State} {b : Batch} (i : Nat) (writes : Nat → Nat → Prop) (hb : findBatch s b.id = some b) :
    GoesOn writes b (putReg s b.id (liveLanes b) i (.g (laneList (laneVal (frozenReg s b i))))) := by
  obtain ⟨c, hc, hsame, hoth, hval, hh⟩ := putReg_writes s (liveLanes b) i (.g (laneList (laneVal (frozenReg s b i)))) hb
  refine ⟨c, hc, ⟨hsame, hh⟩, fun j l v hl h32 hj _ hv u => ?_⟩
  by_cases e : j = i
  · subst e
    rw [hval hj u]
    refine ⟨fun img => overReg_ne_t _ _ _ _ (by exact nofun) img, ?_⟩
    rw [laneVal_overReg _ _ _ _ l hl hl h32, laneVal_laneList _ _ h32, frozenReg_of_ne_t (hv s).1, (hv s).2]
  · rw [hoth u j e]
    exact hv u

theorem landPending_goesOn {s : State} {b : Batch} (p : Pending) (hb : findBatch s b.id = some b) :
    GoesOn (pendingWrites p) b (landPending s b.id p) := by
  cases p with
  | result m vals fl =>
    rw [landPending_result m vals fl hb]
    obtain ⟨c, hc, hlines, hkeep⟩ := putRegs_goesOn (lanesOf m) vals (s := raiseFlags s b.crew fl)
      ((findBatch_raiseFlags s b.crew fl b.id).trans hb)
    exact ⟨c, hc, hlines, fun i l v hl h32 hi hw =>
      hkeep i l v hl h32 hi fun h => hw ⟨(mem_lanesOf.mp h.1).2, h.2⟩⟩
  | toGeneral i =>
    rcases landPending_toGeneral i hb with h | h <;> rw [h]
    · exact goesOn_refl hb
    · exact putReg_rewrite_goesOn i _ hb

/-- A result of several registers stands in them, in the lanes of its mask. -/
theorem landPending_stands {s : State} {b : Batch} {m : W32} {vals : List (Nat × RegVal)} (fl : LaneFlags)
    (hb : findBatch s b.id = some b) (hlive : ∀ l, m.getLsbD l = true → l ∈ liveLanes b) (hnd : (vals.map (·.1)).Nodup)
    (ht : ∀ p ∈ vals, ∀ i, p.2 ≠ .t i) :
    ∃ c, findBatch (landPending s b.id (.result m vals fl)) b.id = some c ∧ LinesOnly b c ∧
      ∀ p ∈ vals, Holds b p.1 → ∀ l, l < 32 → m.getLsbD l = true → Stands c p.1 l (laneVal p.2 l) := by
  rw [landPending_result m vals fl hb]
  obtain ⟨c, hc, hsame, -, hval, hh⟩ := putRegs_spec vals b.id (lanesOf m) (raiseFlags s b.crew fl) b
    ((findBatch_raiseFlags s b.crew fl b.id).trans hb) (fun l hl => hlive l (mem_lanesOf.mp hl).2) ht
  refine ⟨c, hc, ⟨hsame, hh⟩, fun p hp hi l h32 hm _ => ?_⟩
  obtain ⟨hne, hlane⟩ := hval hnd p hp hi
  exact ⟨hne, hlane l (mem_lanesOf.mpr ⟨h32, hm⟩) h32⟩

/-! ### The whole return buffer -/

theorem landFold_goesOn (ps : List Pending) : ∀ {s : State} {b : Batch}, findBatch s b.id = some b →
    GoesOn (fun j l => ∃ p ∈ ps, pendingWrites p j l) b (ps.foldl (fun s p => landPending s b.id p) s) := by
  induction ps with
  | nil => exact fun hb => goesOn_refl hb
  | cons p ps ih =>
    intro s b hb
    refine (landPending_goesOn p hb).trans (w2 := fun j l => ∃ p ∈ ps, pendingWrites p j l) ?_ ?_ ?_
    · intro c hid hc
      have h := ih hc
      rwa [hid] at h
    · exact fun j l h => ⟨p, List.mem_cons_self, h⟩
    · exact fun j l ⟨q, hq, h⟩ => ⟨q, List.mem_cons_of_mem _ hq, h⟩

/-- Every lane that a result writes, and no later one, stands in the result's registers once all have landed (R61). -/
theorem landFold_stands {s : State} {b : Batch} {ps qs : List Pending} {m : W32} {vals : List (Nat × RegVal)} (fl : LaneFlags)
    (hb : findBatch s b.id = some b) (hlive : ∀ l, m.getLsbD l = true → l ∈ liveLanes b) (hnd : (vals.map (·.1)).Nodup)
    (ht : ∀ p ∈ vals, ∀ i, p.2 ≠ .t i) :
    ∃ c, findBatch ((ps ++ .result m vals fl :: qs).foldl (fun s p => landPending s b.id p) s) b.id = some c ∧ LinesOnly b c ∧
      ∀ p ∈ vals, Holds b p.1 → ∀ l, l < 32 → m.getLsbD l = true → (¬ ∃ q ∈ qs, pendingWrites q p.1 l) →
        Stands c p.1 l (laneVal p.2 l) := by
  rw [List.foldl_append, List.foldl_cons]
  obtain ⟨c1, hc1, hl1, -⟩ := landFold_goesOn ps hb
  obtain ⟨c2, hc2, hl2, hstands⟩ := landPending_stands fl (hl1.id ▸ hc1) (fun l hm => hl1.live ▸ hlive l hm) hnd ht
  obtain ⟨c3, hc3, hl3, hkeep⟩ := landFold_goesOn qs (hl2.id ▸ hc2)
  rw [hl2.id, hl1.id] at hc3
  refine ⟨c3, hc3, (hl1.trans hl2).trans hl3, fun p hp hi l h32 hm hno => ?_⟩
  have hlive2 : l ∈ liveLanes c2 := by
    rw [hl2.live, hl1.live]
    exact hlive l hm
  exact hkeep p.1 l _ hlive2 h32 (((hl1.trans hl2).holds p.1).mpr hi) hno (hstands p hp ((hl1.holds p.1).mpr hi) l h32 hm)

/-- The names that the window no longer forwards. -/
theorem windowReg_of_dropped {names : List Nat} {i : Nat} (hi : i ∈ names) (w : List WinEntry) :
    windowReg (w.map fun e => e.filter fun p => !names.contains p.1) i = none := by
  have hentry : ∀ e : WinEntry, windowReg.kvGetFirst (e.filter fun p => !names.contains p.1) i = none := by
    intro e
    induction e with
    | nil => rfl
    | cons p e ih =>
      rw [List.filter_cons]
      split
      · next hp =>
        have hne : p.1 ≠ i := fun h => by simp [h, hi] at hp
        rw [windowReg.kvGetFirst, if_neg hne, ih]
      · exact ih
  induction w with
  | nil => rfl
  | cons e w ih => rw [List.map_cons, windowReg, hentry e]; exact ih

/-- The batch once its return buffer is empty. -/
def emptied (b c : Batch) : Batch :=
  { c with
    retbuf := []
    owed := 0
    loads := []
    window := c.window.map fun e => e.filter fun p => !(b.retbuf.flatMap pendingNames).contains p.1 }

/-- A value that stands in a register of a landed result is what the next word reads. -/
theorem laneVal_readReg_emptied (t : State) {b c : Batch} {i l : Nat} {v : W32} (hi : i ∈ b.retbuf.flatMap pendingNames)
    (hv : Stands c i l v) : laneVal (readReg t (emptied b c) i) l = v := by
  obtain ⟨hne, hlane⟩ := hv t
  exact (congrArg (laneVal · l) (readReg_bank t (emptied b c) i (windowReg_of_dropped hi c.window) hne)).trans hlane

theorem landAll_find {s : State} {b c : Batch} (hb : findBatch s b.id = some b)
    (hc : findBatch (b.retbuf.foldl (fun s p => landPending s b.id p) s) b.id = some c) :
    findBatch (landAll s b.id) b.id = some (emptied b c) := by
  have h : landAll s b.id = modBatch (b.retbuf.foldl (fun s p => landPending s b.id p) s) b.id (emptied b) := by
    unfold landAll
    simp only [hb]
    rfl
  rw [h, findBatch_modBatch _ _ (emptied b) (fun _ => rfl), hc]
  rfl

/-- Once the return buffer has landed, each register of a result reads it in the lanes that no later result writes. -/
theorem landAll_stands {s : State} {b : Batch} {ps qs : List Pending} {m : W32} {vals : List (Nat × RegVal)} {fl : LaneFlags}
    (hb : findBatch s b.id = some b) (hbuf : b.retbuf = ps ++ .result m vals fl :: qs)
    (hlive : ∀ l, m.getLsbD l = true → l ∈ liveLanes b) (hnd : (vals.map (·.1)).Nodup) (ht : ∀ p ∈ vals, ∀ i, p.2 ≠ .t i) :
    ∃ c, findBatch (landAll s b.id) b.id = some c ∧ c.retbuf = [] ∧ c.pc = b.pc ∧
      ∀ p ∈ vals, Holds b p.1 → ∀ l, l < 32 → m.getLsbD l = true → (¬ ∃ q ∈ qs, pendingWrites q p.1 l) →
        ∀ t, laneVal (readReg t c p.1) l = laneVal p.2 l := by
  obtain ⟨c, hc, hlines, hstands⟩ := landFold_stands (ps := ps) (qs := qs) fl hb hlive hnd ht
  refine ⟨_, landAll_find hb (hbuf ▸ hc), rfl, ?_, fun p hp hi l h32 hm hno t => ?_⟩
  · show c.pc = b.pc
    rw [hlines.same]
  · have hname : p.1 ∈ b.retbuf.flatMap pendingNames := by
      rw [hbuf]
      exact List.mem_flatMap.mpr ⟨.result m vals fl, by simp, List.mem_map_of_mem hp⟩
    exact laneVal_readReg_emptied t hname (hstands p hp hi l h32 hm hno)

/-! ### The end of a park -/

/-- A park that is over, and whose results meet no error, performs the held stores, lands the results and lets the batch go on. -/
theorem execParkResume_over {s : State} {b : Batch} (hb : findBatch s b.id = some b) (ho : parkOver s b = true)
    (hf : landFault s b = none) :
    execParkResume b.id s = .next (modBatch (landAll (drainStores (perfAdd s b.crew 2 (s.clock - b.parkedAt)) b.id) b.id) b.id
      fun c => { c with parked := false }) := by
  unfold execParkResume
  simp only [hb, ho, hf, if_true]

/-- Only results of register values write, each in the lanes of its mask. -/
theorem not_pendingWrites {qs : List Pending} {i l : Nat} (h : ∀ m vals fl, Pending.result m vals fl ∈ qs →
    m.getLsbD l = true → ∀ q ∈ vals, q.1 ≠ i) : ¬ ∃ q ∈ qs, pendingWrites q i l := by
  rintro ⟨q, hq, hw⟩
  cases q with
  | result m vals fl =>
    obtain ⟨hm, r, hr, e⟩ := hw
    exact h m vals fl hq hm r hr e
  | toGeneral i => exact hw

/-- Settles O60: the results land in program order, each in registers that later results leave to it in the lanes that they do
not write. -/
theorem parkWritesResults : Obligations.ParkWritesResults := by
  unfold Obligations.ParkWritesResults
  intro s b ps qs m vals fl hb ho hf hbuf hlive hnd ht hhold
  obtain ⟨d, hd, hsame⟩ := drainStores_find (s := perfAdd s b.crew 2 (s.clock - b.parkedAt)) hb
  have hid : d.id = b.id := by rw [hsame]
  have hdlive : liveLanes d = liveLanes b := by rw [hsame]; rfl
  have hdhold : ∀ i, Holds d i ↔ Holds b i := Holds_congr (by rw [hsame]) (by rw [hsame]) (by rw [hsame])
  obtain ⟨c, hc, hempty, hpc, hread⟩ := landAll_stands (hid ▸ hd) ((by rw [hsame] : d.retbuf = b.retbuf).trans hbuf)
    (fun l hm => hdlive ▸ hlive l hm) hnd ht
  refine ⟨_, { c with parked := false }, execParkResume_over hb ho hf, ?_, rfl, hempty, ?_, ?_⟩
  · rw [findBatch_modBatch _ _ _ (by intro _; rfl), ← hid, hc]
    rfl
  · show c.pc = b.pc
    rw [hpc, hsame]
  · intro p hp l h32 hm hlater
    exact hread p hp ((hdhold p.1).mpr (hhold p hp)) l h32 hm (not_pendingWrites hlater) _

end Sys2Proof.Machine
end

section
/-! SUPPORT. Decode and encode are inverse: every word that is an instruction, and every well-formed instruction (R65 to R69, R77). -/
namespace Sys2Proof

/-! ### A word from its fields -/

/-- A flag of a word, as the one-bit field that it is. -/
theorem bit1_bitOf (x : W64) (i : Nat) : bit1 (bitOf x i) = x.extractLsb' i 1 := by
  refine BitVec.eq_of_getLsbD_eq fun j hj => ?_
  obtain rfl : j = 0 := by omega
  simp [bit1, bitOf]

/-- The fields of Table 03-1, joined again, are the whole F-form word. -/
theorem encodeF_fWordOf {x : W64} (h : x.extractLsb' 60 2 = 0#2) : encodeF (x.extractLsb' 52 8) (fWordOf x) = x := by
  simp (disch := decide) only [encodeF, fWordOf, bit1_bitOf, ← h, BitVec.extractLsb'_append_extractLsb'_eq_extractLsb']
  exact BitVec.extractLsb'_eq_self

/-- The fields of Table 03-2, joined again, are the whole I-form word. -/
theorem encodeI_iWordOf {x : W64} (h : x.extractLsb' 60 2 = 2#2) : encodeI (x.extractLsb' 54 6) (iWordOf x) = x := by
  simp (disch := decide) only [encodeI, iWordOf, bit1_bitOf, ← h, BitVec.extractLsb'_append_extractLsb'_eq_extractLsb']
  exact BitVec.extractLsb'_eq_self

/-- A code of Table 03-13 is that of the pair op that it gives. -/
theorem code_of_pairOpOf {c : BitVec 6} {op : PairOp} (h : pairOpOf c = some op) : op.code = c := by
  have hall : ∀ c : BitVec 6, ∀ o ∈ pairOpOf c, o.code = c := by decide
  exact hall c op h

/-- A slot of a pair is the slot that its op and fields make. -/
theorem encodeSlot_of_slotOf {x : BitVec 29} {p : Slot} (h : slotOf x = some p) : encodeSlot p = x := by
  obtain ⟨op, hop, rfl⟩ := Option.map_eq_some_iff.mp h
  simp (disch := decide) only [encodeSlot, code_of_pairOpOf hop, BitVec.extractLsb'_append_extractLsb'_eq_extractLsb']
  exact BitVec.extractLsb'_eq_self

/-- The fields of Table 03-3, joined again, are the whole P-form word. -/
theorem encodeP_slots {x : W64} {p q : Slot} (h : x.extractLsb' 60 2 = 1#2) (hp : slotOf (x.extractLsb' 29 29) = some p)
    (hq : slotOf (x.extractLsb' 0 29) = some q) : encodeP ⟨bitOf x 63, bitOf x 62, x.extractLsb' 58 2, p, q⟩ = x := by
  simp (disch := decide) only [encodeP, encodeSlot_of_slotOf hp, encodeSlot_of_slotOf hq, bit1_bitOf, ← h,
    BitVec.extractLsb'_append_extractLsb'_eq_extractLsb']
  exact BitVec.extractLsb'_eq_self

/-! ### The encoding of what a word decodes to -/

/-- Every row of Table 03-11 encodes with the op8 of its cell. -/
theorem encode_of_decodeF {op : Nat} {w : FWord} {i : Instr} (h : decodeF op w = some i) :
    encode i = some (encodeF (BitVec.ofNat 8 op) w) := by
  unfold decodeF at h
  split at h <;> cases h
  any_goals rfl
  -- what is left are the opcodes that several rows share, told apart by modifier bits
  all_goals split <;> rfl

/-- Every row of Table 03-12 encodes with the op6 of its cell. -/
theorem encode_of_decodeI {op : Nat} {w : IWord} {i : Instr} (h : decodeI op w = some i) :
    encode i = some (encodeI (BitVec.ofNat 6 op) w) := by
  unfold decodeI at h
  split at h <;> cases h
  all_goals rfl

theorem encode_of_decodeP {x : W64} {i : Instr} (hx : x.extractLsb' 60 2 = 1#2) (h : decodeP x = some i) : encode i = some x := by
  unfold decodeP at h
  split at h
  · next p q hp hq =>
    cases h
    exact congrArg some (encodeP_slots hx hp hq)
  · cases h

/-- Settles O3: the form of the word says which layout, and each layout keeps every bit. -/
theorem encodeAfterDecode : Obligations.EncodeAfterDecode := by
  unfold Obligations.EncodeAfterDecode
  intro x i h
  unfold instructionOf at h
  split at h
  case h_1 hform =>
    rw [encode_of_decodeF h, BitVec.ofNat_toNat, BitVec.setWidth_eq, encodeF_fWordOf (BitVec.eq_of_toNat_eq hform)]
  case h_2 hform => exact encode_of_decodeP (BitVec.eq_of_toNat_eq hform) h
  case h_3 hform =>
    rw [encode_of_decodeI h, BitVec.ofNat_toNat, BitVec.setWidth_eq, encodeI_iWordOf (BitVec.eq_of_toNat_eq hform)]
  case h_4 => cases h

/-! ### The decoding of what an instruction encodes to -/

/-- Eight little-endian bytes of a word are the word (R6). -/
theorem bytesWord_wordBytes (x : W64) : bytesWord (wordBytes x) = x := by
  have hlt := x.isLt
  refine BitVec.eq_of_toNat_eq ?_
  simp only [wordBytes, bytesWord, byteOf, List.range, List.range.loop, List.map, leNat, BitVec.extractLsb'_toNat,
    BitVec.toNat_ofNat, Nat.shiftRight_eq_div_pow]
  omega

/-- Eight bytes and what follows decode to the word of those eight. -/
theorem decode_wordBytes (x : W64) (rest : List Byte) : decode (wordBytes x ++ rest) = .ok (decodeWord x, rest) :=
  congrArg (fun y => Except.ok (decodeWord y, rest)) (bytesWord_wordBytes x)

namespace Laws.EncodeDecode

/-- The round trip of every row of the opcode table. -/
theorem statement_every : ∀ i : Instr, Statement i
  | .iadd w => iadd w | .iaddI w => iaddI w | .isub w => isub w | .iaddx w => iaddx w | .imul w => imul w
  | .imulI w => imulI w | .imulh w => imulh w | .imad w => imad w | .imadw w => imadw w | .idiv w => idiv w
  | .irem w => irem w | .imin w => imin w | .imax w => imax w | .iabs w => iabs w | .ineg w => ineg w
  | .iclamp w => iclamp w | .lea w => lea w | .add64 w => add64 w | .add64I w => add64I w | .sub64 w => sub64 w
  | .mov w => mov w | .movi w => movi w | .movhi w => movhi w | .sel w => sel w | .andB w => andB w
  | .andBI w => andBI w | .orB w => orB w | .orBI w => orBI w | .xorB w => xorB w | .xorBI w => xorBI w
  | .andnB w => andnB w | .lop3 w => lop3 w | .shl w => shl w | .shlI w => shlI w | .shr w => shr w
  | .shrI w => shrI w | .shra w => shra w | .shraI w => shraI w | .rot w => rot w | .fshf w => fshf w
  | .bfx w => bfx w | .bfi w => bfi w | .popc w => popc w | .clz w => clz w | .brev w => brev w | .bperm w => bperm w
  | .icmp w => icmp w | .icmpi w => icmpi w | .plop w => plop w | .pmovr w => pmovr w | .pmovp w => pmovp w
  | .bra w => bra w | .bri w => bri w | .loop w => loop w | .call w => call w | .calli w => calli w | .ret w => ret w
  | .quit w => quit w | .fork w => fork w | .gather w => gather w | .unpin w => unpin w | .yield w => yield w
  | .sleep w => sleep w | .nop w => nop w | .pair w => pair w | .fadd w => fadd w | .faddI w => faddI w
  | .fsub w => fsub w | .fmul w => fmul w | .fmulI w => fmulI w | .fma w => fma w | .fmin w => fmin w
  | .fmax w => fmax w | .fcmp w => fcmp w | .fclass w => fclass w | .frnd w => frnd w | .fscale w => fscale w
  | .fcvt w => fcvt w | .fpack2 w => fpack2 w | .funpk2 w => funpk2 w | .fma2 w => fma2 w | .fadd2 w => fadd2 w
  | .fmul2 w => fmul2 w | .fdot2 w => fdot2 w | .idot4 w => idot4 w | .frcp w => frcp w | .frsq w => frsq w
  | .fsqrt w => fsqrt w | .fex2 w => fex2 w | .flg2 w => flg2 w | .fsin w => fsin w | .fcos w => fcos w
  | .ftanh w => ftanh w | .fpxrd w => fpxrd w | .fpxset w => fpxset w | .shfl w => shfl w | .vote w => vote w
  | .redl w => redl w | .scanl w => scanl w | .matchL w => matchL w | .ld w => ld w | .st w => st w | .ldl w => ldl w
  | .stl w => stl w | .ldsp w => ldsp w | .stsp w => stsp w | .lda w => lda w | .strel w => strel w
  | .atom w => atom w | .red w => red w | .fence w => fence w | .pref w => pref w | .barinit w => barinit w
  | .bararr w => bararr w | .barwait w => barwait w | .barsync w => barsync w | .barexp w => barexp w
  | .barq w => barq w | .cbinit w => cbinit w | .cbacq w => cbacq w | .cbrel w => cbrel w | .cbput w => cbput w
  | .cbq w => cbq w | .tlwait w => tlwait w | .tlq w => tlq w | .freeze w => freeze w | .freezeL w => freezeL w
  | .shape w => shape w | .shapeg w => shapeg w | .xacq w => xacq w | .xrel w => xrel w | .accgrow w => accgrow w
  | .accfree w => accfree w | .wload w => wload w | .wswap w => wswap w | .wtab w => wtab w | .wwait w => wwait w
  | .mmq w => mmq w | .accz w => accz w | .accrd w => accrd w | .accwr w => accwr w | .drain w => drain w
  | .drainst w => drainst w | .wstat w => wstat w | .wbmap w => wbmap w | .fluesub w => fluesub w
  | .fluesubRst w => fluesubRst w | .evsig w => evsig w | .evsigI w => evsigI w | .evsigClr w => evsigClr w
  | .evwait w => evwait w | .evwaitI w => evwaitI w | .evq w => evq w | .spawn w => spawn w | .tladv w => tladv w
  | .fillarg w => fillarg w | .fillput w => fillput w | .filldone w => filldone w | .fillfail w => fillfail w
  | .geninv w => geninv w | .cutsel w => cutsel w | .cutselRst w => cutselRst w | .rayq w => rayq w
  | .rayrd w => rayrd w | .sysrd w => sysrd w | .csrrd w => csrrd w | .csrwr w => csrwr w | .csrswp w => csrswp w
  | .trap w => trap w | .bkpt w => bkpt w | .tret w => tret w | .clock w => clock w | .perfrd w => perfrd w
  | .pgbump w => pgbump w | .pgnew w => pgnew w | .tlbepoch w => tlbepoch w | .halt w => halt w
  | .wsremap w => wsremap w | .monctlCfg w => monctlCfg w | .monctlClr w => monctlClr w | .monctlRd w => monctlRd w
  | .batchMerge a b => batchMerge a b | .parkResume b => parkResume b | .xsetReacquire b => xsetReacquire b
  | .sleepEnd b => sleepEnd b | .trapEntry b => trapEntry b | .watchdog b => watchdog b
  | .wloadComplete core => wloadComplete core | .wtabTableArrival core idx => wtabTableArrival core idx
  | .planeExchange core => planeExchange core | .passClose core => passClose core
  | .passComplete core => passComplete core | .preemptCluster cl => preemptCluster cl
  | .clusterRestore => clusterRestore | .clusterPlace => clusterPlace | .classAging cl => classAging cl
  | .slabConvert core => slabConvert core | .slabReturn core => slabReturn core | .triggerWrite v => triggerWrite v
  | .graphRunStart ctx => graphRunStart ctx | .nodeStart g n => nodeStart g n
  | .nodeSubmitDeferred g n => nodeSubmitDeferred g n | .nodeComplete g n => nodeComplete g n
  | .pipelineReassign g n => pipelineReassign g n | .nodeWaitRetry g n => nodeWaitRetry g n
  | .flueStream c => flueStream c | .flueCopy c => flueCopy c | .flueGatherrows c => flueGatherrows c
  | .flueStore c => flueStore c | .flueFillv c => flueFillv c | .flueLoop c => flueLoop c
  | .flueEndloop c => flueEndloop c | .flueTlwait c => flueTlwait c | .flueTladv c => flueTladv c
  | .flueEvsig c => flueEvsig c | .flueBararr c => flueBararr c | .flueEnd c => flueEnd c
  | .flueCmdInvalid c => flueCmdInvalid c | .flueWindowDelivery c => flueWindowDelivery c
  | .flueContextResume c => flueContextResume c | .cutRun c => cutRun c
  | .fillPlace depth core => fillPlace depth core | .fillArrayBorrow b => fillArrayBorrow b
  | .fillTimeout r => fillTimeout r | .genEntrySubmit entry t1 => genEntrySubmit entry t1
  | .genEntryInvalidate entry t1 => genEntryInvalidate entry t1 | .victimStoreConfig cfg v => victimStoreConfig cfg v
  | .lineWriteback core line => lineWriteback core line | .remapStepEnd col => remapStepEnd col
  | .bankRetire col bank => bankRetire col bank | .engineGate e => engineGate e | .engineWake e => engineWake e
  | .thermalTrip => thermalTrip | .ctxHalt c => ctxHalt c | .ctxHalted c => ctxHalted c | .ctxFreed c => ctxFreed c
  | .deviceReset => deviceReset | .powerLoss => powerLoss | .nonInstructionEncoding w => nonInstructionEncoding w
  | .recordLineArrival core => recordLineArrival core | .padFail col pad => padFail col pad
  | .powerInterval p => powerInterval p | .ctxCreate c => ctxCreate c | .ctxResume c => ctxResume c
  | .ctxDestroy c => ctxDestroy c | .ctxTlset c id => ctxTlset c id | .ctxCmdInvalid c code => ctxCmdInvalid c code
  | .cmderrClear c => cmderrClear c | .registerWrite off v => registerWrite off v
  | .hostMemAccess a => hostMemAccess a | .peerAccess a => peerAccess a | .linkFail link => linkFail link
  | .vblank o => vblank o | .dpLinkTrain o rate lanes fits => dpLinkTrain o rate lanes fits | .attgo => attgo
  | .firmwareImage img => firmwareImage img | .linkRetry link up => linkRetry link up
  | .hpdChange o present => hpdChange o present
end Laws.EncodeDecode

/-- A well-formed instruction is a word, and the word decodes to it. -/
theorem decodeWord_of_wellFormed {i : Instr} (h : WellFormed i = true) : ∃ x, encode i = some x ∧ decodeWord x = i := by
  have hnone : illFormed i = none := Option.isNone_iff_eq_none.mp h
  have hi := Laws.EncodeDecode.statement_every i
  unfold Laws.EncodeDecode.Statement at hi
  split at hi
  · rw [hnone] at hi
    cases hi
  · next x hx => exact ⟨x, hx, hi hnone⟩

/-- Settles O2: the eight bytes of the encoding are the word, which decodes to the instruction row by row. -/
theorem decodeAfterEncode : Obligations.DecodeAfterEncode := by
  unfold Obligations.DecodeAfterEncode
  intro i rest h
  obtain ⟨x, hx, hd⟩ := decodeWord_of_wellFormed h
  rw [encodeBytes, hx, ← hd]
  exact decode_wordBytes x rest

/-- Settles O1: each word of the worked examples, decoded. -/
theorem sampleWordsDecode : Obligations.SampleWordsDecode := by
  unfold Obligations.SampleWordsDecode
  exact ⟨rfl, rfl, rfl, rfl, rfl, rfl⟩

end Sys2Proof
end

section
/-! SUPPORT. What a word comes to that does not reach its own effect: it raises the first failing check of Table 03-7, or has no active
lane and only retires (R75, R76). -/
namespace Sys2Proof.Machine
open Sys2Proof

/-! ### What the start of a word leaves alone -/

/-- Holding a quadrant changes no part of the state that the checks look at. -/
theorem decodeFault_hold (s : State) (b : Batch) (sp sp' : Spec) (act : List Nat) (ok : Bool) :
    decodeFault (holdQuad s b sp') b act sp ok = decodeFault s b act sp ok := by
  unfold holdQuad
  dsimp only
  split <;> rfl

theorem readFault_hold (s : State) (b : Batch) (sp sp' : Spec) (act : List Nat) :
    readFault (holdQuad s b sp') b act sp = readFault s b act sp := by
  unfold holdQuad
  dsimp only
  split <;> rfl

theorem mustPark_hold (s : State) (b : Batch) (sp sp' : Spec) (act : List Nat) :
    mustPark (holdQuad s b sp') b act sp = mustPark s b act sp := by
  unfold mustPark outstanding hasQuarters
  rw [holdQuad_passes]

@[simp] theorem begunBatch_pc (b : Batch) (rgn : Bool) : (begunBatch b rgn).pc = b.pc := by
  unfold begunBatch; split <;> rfl

@[simp] theorem begunBatch_crew (b : Batch) (rgn : Bool) : (begunBatch b rgn).crew = b.crew := by
  unfold begunBatch; split <;> rfl

theorem issuedAgain_begun (b : Batch) (rgn : Bool) (sp : Spec) : issuedAgain (begunBatch b rgn) sp = issuedAgain b sp := by
  unfold begunBatch; split <;> rfl

/-! ### A check that fails -/

/-- The trap that a failing check raises. -/
def checkTrap (b : Batch) (sp : Spec) (c : Cause) (ls : W32) : TrapInfo := { cause := c, lanes := ls, rpc := b.pc, word := sp.word }

theorem runWord_raises {s : State} {guard : W32 → Bool} {sp : Spec} {ok : Bool} {b : Batch} {c : Cause} {ls : W32}
    (body : Exec → Eff) (hb : findBatch s s.cur = some b) (hact : activeLanes b guard ≠ [])
    (hp : mustPark s b (activeLanes b guard) sp = false) (hi : issuedAgain b sp = false)
    (hc : (decodeFault s b (activeLanes b guard) sp ok).or (readFault s b (activeLanes b guard) sp) = some (c, ls)) :
    runWord s guard sp ok body = .next (raise (startRegion s b sp.rgn) b.id (checkTrap b sp c ls)) := by
  have hne : (activeLanes b guard).isEmpty = false := List.isEmpty_eq_false_iff.mpr hact
  unfold runWord
  simp only [hb, hp, hne, hc, Bool.false_eq_true, if_false, startRegion_cur, startRegion_find s b sp.rgn s.cur hb,
    decodeFault_begun, readFault_begun, issuedAgain_begun, hi, begunBatch_id, begunBatch_pc]
  rfl

/-- An F-form word that need not park holds its quadrant, and runs from there. -/
theorem runF_free {s : State} {w : FWord} {sp : Spec} {b : Batch} (body : Exec → Eff) (hb : findBatch s s.cur = some b)
    (hp : mustPark s b (actF b w) sp = false) :
    runF s w sp body = runWord (holdQuad s b sp) (guardFI w.gp w.gn) sp true body := by
  unfold runF
  simp only [hb, show mustPark s b (activeLanes b (guardFI w.gp w.gn)) sp = false from hp, Bool.false_eq_true, if_false]

theorem holdQuad_findCur {s : State} {b : Batch} (sp : Spec) (hb : findBatch s s.cur = some b) :
    findBatch (holdQuad s b sp) (holdQuad s b sp).cur = some b := by
  rw [holdQuad_cur, holdQuad_find, hb]

/-- The first failing check of any word is raised at it, from where its own effect would start. -/
theorem exec_raises {s : State} {i : Instr} {f : Form} {b : Batch} {c : Cause} {ls : W32} (hf : formOf s i = some f)
    (hb : findBatch s s.cur = some b) (hact : f.act b ≠ []) (hp : mustPark s b (f.act b) f.sp = false)
    (hi : issuedAgain b f.sp = false)
    (hc : (decodeFault s b (f.act b) f.sp f.pairOk).or (readFault s b (f.act b) f.sp) = some (c, ls)) :
    exec i s = .next (raise (f.start s b).s b.id (checkTrap b f.sp c ls)) := by
  cases formOf_runs s i f hf with
  | f w sp body h =>
    have hfree : mustPark s b (actF b w) sp = false := hp
    rw [h, runF_free body hb hfree]
    exact runWord_raises body (holdQuad_findCur sp hb) hact ((mustPark_hold ..).trans hp) hi
      (by rw [decodeFault_hold, readFault_hold]; exact hc)
  | i w sp body h =>
    rw [h]
    exact runWord_raises body hb hact hp hi hc
  | p w sp body h hs =>
    rw [h]
    exact runWord_raises body hb hact hp hi hc

/-- Settles O18: the run of each of the three word forms makes the checks in the order of Table 03-7, before the word's own part. -/
theorem wordChecksRaise : Obligations.WordChecksRaise := by
  unfold Obligations.WordChecksRaise
  exact fun s i f b c ls hf hb hact hp hi hc => exec_raises hf hb hact hp hi hc

/-! ### Privileged words -/

/-- Every word that the spec makes privileged is so by its form. -/
theorem form_privileged {s : State} {i : Instr} {f : Form} (hf : formOf s i = some f) (hi : privileged i = true) :
    f.sp.priv = true := by
  unfold privileged at hi
  split at hi
  case h_10 => cases hi
  all_goals
    cases Option.some.inj hf
    rfl

/-- An unprivileged batch fails step 4 of Table 03-7 first at a privileged word, and at one with K = 1. -/
theorem decodeFault_priv {s : State} {b : Batch} {sp : Spec} (act : List Nat) (ok : Bool) (hsp : sp.priv = true ∨ sp.k = true)
    (hb : b.priv = false) : decodeFault s b act sp ok = some (.priv, 0) := by
  have h : (sp.priv || sp.k) = true := by simpa using hsp
  simp [decodeFault, h, hb]

/-- Settles O19: the privilege check is the first of those that follow the guard. -/
theorem privilegedWordsTrap : Obligations.PrivilegedWordsTrap := by
  unfold Obligations.PrivilegedWordsTrap
  intro s i f b hf hpriv hb hmode hact hp hi
  have hsp : f.sp.priv = true ∨ f.sp.k = true := hpriv.imp_left (form_privileged hf)
  exact exec_raises hf hb hact hp hi (by rw [decodeFault_priv _ _ hsp hmode]; rfl)

/-! ### A word without an active lane -/

/-- A retirement depends on the word's own part of its start alone: the batch's crew, the active lanes, the word. -/
theorem Retires.of_start {x y : Exec} {s t : State} {b c : Batch} {regs : List (Nat × RegVal)} {preds : List (Nat × W32)}
    {fl : LaneFlags} (h : Retires x s t b c regs preds fl) (hact : x.act = y.act) (hsp : x.sp = y.sp) (hcrew : x.b.crew = y.b.crew) :
    Retires y s t b c regs preds fl := by
  obtain ⟨now, pc, same, owed, storesOwed, wrote, late, kept, predWrote, predKept, fibreSame, lanesOnly, others, crews, flags, rest⟩ := h
  rw [hact] at wrote late predWrote predKept
  rw [hsp] at owed storesOwed wrote late kept crews flags
  rw [hcrew] at flags
  exact ⟨now, pc, same, owed, storesOwed, wrote, late, kept, predWrote, predKept, fibreSame, lanesOnly, others, crews, flags, rest⟩

/-- Two changes of one batch that do not look at each other may come in either order. -/
theorem modBatch_comm (s : State) (id : Nat) {f g : Batch → Batch} (hf : ∀ b, (f b).id = b.id) (hg : ∀ b, (g b).id = b.id)
    (h : ∀ b, f (g b) = g (f b)) : modBatch (modBatch s id g) id f = modBatch (modBatch s id f) id g := by
  unfold modBatch
  simp only [List.map_map]
  congr 1
  refine List.map_congr_left fun b _ => ?_
  by_cases e : b.id = id <;> simp [e, hf, hg, h]

/-- A word without results enters the window, and nothing else of its results is written. -/
theorem writeResults_nil {s : State} {b : Batch} (act : List Nat) (sp : Spec) (hb : findBatch s b.id = some b) :
    writeResults s b.id act sp [] [] = pushWindow s b.id [] := by
  unfold writeResults
  split
  · rfl
  · split
    · simp only [hb, List.map_nil]
    · rfl

/-- What a word without an active lane leaves: it has passed, without a result. -/
def idle (x : Exec) : State := retire (pushWindow (advance (perfAdd x.s x.b.crew 0 1) x.b.id) x.b.id []) x.b.id x.sp

/-- The word as of a batch that waits for nothing: where no lane is active there is no wait to end. -/
def unblocked (x : Exec) : Exec := { x with b := { x.b with block := none } }

/-- A word without an active lane retires as a word without results does. -/
theorem idle_eq_fin {x : Exec} (hb : findBatch x.s x.b.id = some x.b) :
    idle x = fin (unblocked x) (endWait x.s (unblocked x).b) [] [] [] := by
  have hraise : (if x.sp.var then x.s else raiseFlags x.s x.b.crew []) = x.s := by split <;> rfl
  have hfin : fin (unblocked x) (endWait x.s (unblocked x).b) [] [] [] =
      retire (advance (perfAdd (pushWindow x.s x.b.id []) x.b.crew 0 1) x.b.id) x.b.id x.sp := by
    rw [← writeResults_nil x.act x.sp hb]
    exact congrArg (fun u => retire (advance (perfAdd (writeResults u x.b.id x.act x.sp [] []) x.b.crew 0 1) x.b.id) x.b.id x.sp) hraise
  rw [hfin]
  exact congrArg (retire · x.b.id x.sp)
    (modBatch_comm (perfAdd x.s x.b.crew 0 1) x.b.id (fun _ => rfl) (fun _ => rfl) fun _ => rfl)

/-- The retirement of a word without an active lane: the pc goes on, and there is no result. -/
theorem idle_yields {x : Exec} (hb : findBatch x.s x.b.id = some x.b) (hact : ∀ l ∈ x.act, l ∈ liveLanes x.b) :
    Yields x (idle x) [] [] [] := by
  obtain ⟨c, hc⟩ := fin_retires (unblocked x) x.s x.b [] [] [] hb hact nofun
  exact ⟨c, idle_eq_fin hb ▸ hc.of_start rfl rfl rfl⟩

theorem runWord_idle {s : State} {guard : W32 → Bool} {sp : Spec} (ok : Bool) {b : Batch} (body : Exec → Eff)
    (hb : findBatch s s.cur = some b) (hact : activeLanes b guard = []) (hp : mustPark s b [] sp = false) :
    runWord s guard sp ok body = .next (idle ⟨startRegion s b sp.rgn, begunBatch b sp.rgn, [], sp⟩) := by
  unfold runWord
  simp only [hb, hact, hp, Bool.false_eq_true, if_false, List.isEmpty_nil, if_true, startRegion_cur,
    startRegion_find s b sp.rgn s.cur hb]
  rfl

/-- Every word that has no active lane only retires, whatever its form. -/
theorem exec_idle {s : State} {i : Instr} {f : Form} {b : Batch} (hf : formOf s i = some f) (hb : findBatch s s.cur = some b)
    (hact : f.act b = []) (hp : mustPark s b [] f.sp = false) : exec i s = .next (idle (f.start s b)) := by
  cases formOf_runs s i f hf with
  | f w sp body h =>
    have hnone : actF b w = [] := hact
    rw [h, runF_free body hb (hnone ▸ hp)]
    exact runWord_idle true body (holdQuad_findCur sp hb) hact ((mustPark_hold ..).trans hp)
  | i w sp body h =>
    rw [h]
    exact runWord_idle true body hb hact hp
  | p w sp body h hs =>
    rw [h]
    exact runWord_idle _ body hb hact hp

/-- Where a word's own effect starts, its batch is that of the word. -/
theorem start_find {s : State} {i : Instr} {f : Form} {b : Batch} (hf : formOf s i = some f) (hb : findBatch s s.cur = some b) :
    findBatch (f.start s b).s (f.start s b).b.id = some (f.start s b).b := by
  cases formOf_runs s i f hf with
  | f w sp body h => exact fExec_find s b w sp hb
  | i w sp body h => exact iExec_find s b w sp hb
  | p w sp body h hs =>
    show findBatch (startRegion s b sp.rgn) (begunBatch b sp.rgn).id = some (begunBatch b sp.rgn)
    rw [begunBatch_id]
    exact startRegion_find s b sp.rgn b.id (findBatch_id hb ▸ hb)

/-- The lanes that are active for a word are live. -/
theorem start_live {s : State} {i : Instr} {f : Form} (b : Batch) (hf : formOf s i = some f) :
    ∀ l ∈ (f.start s b).act, l ∈ liveLanes (f.start s b).b := by
  cases formOf_runs s i f hf with
  | f w sp body h => exact fExec_live s b w sp
  | i w sp body h => exact iExec_live s b w sp
  | p w sp body h hs => exact fun l hl => (begunBatch_live b sp.rgn).symm ▸ activeLanes_live b _ l hl

/-- Settles O20: a word without an active lane retires as one that has no result. -/
theorem inactiveWordsOnlyRetire : Obligations.InactiveWordsOnlyRetire := by
  unfold Obligations.InactiveWordsOnlyRetire
  intro s i f b hf hb hact hp
  exact ⟨_, exec_idle hf hb hact hp, idle_yields (start_find hf hb) (start_live b hf)⟩

/-! ### A word that is no instruction -/

/-- Settles O22: such a word decodes to the row that takes ILL_FORM or ILL_OPCODE at once, without looking at a guard. -/
theorem nonInstructionsTrap : Obligations.NonInstructionsTrap := by
  unfold Obligations.NonInstructionsTrap
  intro s b w hb hw
  have hrow : exec (decodeWord w) s = execNonInstructionEncoding w s := by
    rw [decodeWord, hw]
    rfl
  have hrgn : (!decide (w.extractLsb' 60 2 = 3) && w.getLsbD 62) = (w.extractLsb' 60 2 != 3 && w.getLsbD 62) := by
    simp only [bne, beq_eq_decide]
  rw [hrow]
  unfold execNonInstructionEncoding
  simp only [hb, hrgn]

end Sys2Proof.Machine
end
section
/-! SUPPORT. NOP, UNPIN, YIELD, SLEEP and the pair word (R69, R121 to R124): each retires with the effect of its rule. -/
namespace Sys2Proof.Machine
open Sys2Proof

/-! ### Words that only change their batch -/

/-- A word whose own part leaves the state alone and gives no result retires from there. -/
theorem finish_shows_nothing {x : Exec} (hb : findBatch x.s x.b.id = some x.b) (hlive : ∀ l ∈ x.act, l ∈ liveLanes x.b) :
    Shows x x.s (finish x (.res [] [] [])) {} := by
  obtain ⟨c, hc⟩ := fin_retires x x.s x.b [] [] [] hb hlive nofun
  exact ⟨x.b, c, [], [], hb, hc, .nil, .nil⟩

/-- A word whose own part changes its batch alone, and none of its lanes, retires from there. -/
theorem finish_shows_modBatch {x : Exec} {g : Batch → Batch} (hb : findBatch x.s x.b.id = some x.b)
    (hlive : ∀ l ∈ x.act, l ∈ liveLanes x.b) (hid : ∀ b, (g b).id = b.id) (hlanes : liveLanes (g x.b) = liveLanes x.b) :
    Shows x (modBatch x.s x.b.id g) (finish x (.done (modBatch x.s x.b.id g) [] [] [])) {} := by
  have hg : findBatch (modBatch x.s x.b.id g) x.b.id = some (g x.b) := by
    rw [findBatch_modBatch _ _ _ hid, hb]
    rfl
  obtain ⟨c, hc⟩ := fin_retires x _ (g x.b) [] [] [] hg (hlanes ▸ hlive) nofun
  exact ⟨g x.b, c, [], [], hg, hc, .nil, .nil⟩

/-! ### The pair word -/

theorem laneVal_affineAdd {va vb r : RegVal} (h : affineAdd va vb = some r) (l : Nat) : laneVal r l = laneVal va l + laneVal vb l := by
  unfold affineAdd at h
  split at h <;> cases h
  all_goals
    simp only [laneVal]
    ring

theorem laneVal_affineSub {va vb r : RegVal} (h : affineSub va vb = some r) (l : Nat) : laneVal r l = laneVal va l - laneVal vb l := by
  unfold affineSub at h
  split at h <;> cases h
  all_goals
    simp only [laneVal]
    ring

theorem laneVal_affineMul {va vb r : RegVal} (h : affineMul va vb = some r) (l : Nat) : laneVal r l = laneVal va l * laneVal vb l := by
  unfold affineMul at h
  split at h <;> cases h
  all_goals
    simp only [laneVal]
    ring

/-- A row of Table 02-2 gives in each lane what the op gives there. -/
theorem laneVal_pairAffine {o : PairOp} {m : BitVec 5} {d a v : RegVal} (h : pairAffine o m d a = some v) (l : Nat) :
    laneVal v l = (pairLane o m (laneVal d l) (laneVal a l)).1 := by
  unfold pairAffine at h
  split at h
  case h_1 => exact laneVal_affineAdd h l
  case h_2 => exact laneVal_affineSub h l
  case h_3 => exact laneVal_affineAdd h l
  case h_4 => exact laneVal_affineSub h l
  case h_5 => exact laneVal_affineMul h l
  case h_6 =>
    cases h
    rfl
  case h_7 => cases h

theorem readReg_ne_t (s : State) (b : Batch) (i img : Nat) : readReg s b i ≠ .t img := by
  unfold readReg
  split
  · exact nofun
  · next h => exact h img

theorem affine_ne_t {aff : RegVal → RegVal → Option RegVal} (haff : aff = affineAdd ∨ aff = affineSub ∨ aff = affineMul)
    {va vb r : RegVal} (h : aff va vb = some r) (img : Nat) : r ≠ .t img := by
  rcases haff with rfl | rfl | rfl
  · unfold affineAdd at h
    split at h <;> cases h <;> exact nofun
  · unfold affineSub at h
    split at h <;> cases h <;> exact nofun
  · unfold affineMul at h
    split at h <;> cases h <;> exact nofun

theorem pairAffine_ne_t {o : PairOp} {m : BitVec 5} {d a v : RegVal} (h : pairAffine o m d a = some v)
    (ha : ∀ img, a ≠ .t img) (img : Nat) : v ≠ .t img := by
  unfold pairAffine at h
  split at h
  case h_1 => exact affine_ne_t (.inl rfl) h img
  case h_2 => exact affine_ne_t (.inr (.inl rfl)) h img
  case h_3 => exact affine_ne_t (.inl rfl) h img
  case h_4 => exact affine_ne_t (.inr (.inl rfl)) h img
  case h_5 => exact affine_ne_t (.inr (.inr rfl)) h img
  case h_6 =>
    cases h
    exact ha img
  case h_7 => cases h

/-- An op that does not read its d field gives the same of every old value of d. -/
theorem pairLane_of_not_readsD {o : PairOp} (hr : pairReadsD o = false) (ho : o ≠ .nop) (m : BitVec 5) (d d' a : W32) :
    pairLane o m d a = pairLane o m d' a := by
  cases o <;> simp_all [pairReadsD, pairLane]

/-- What Table 03-13 says of a slot in a lane: the value of its register, and the flags. -/
def slotLane (x : Exec) (fd fa : Fld) (sl : Slot) (l : Nat) : W32 × Nat := pairLane sl.op sl.m (lane x fd 0 l) (lane x fa 0 l)

/-- A lane result of the two sources of a slot is what the op gives in each active lane. -/
theorem laneVal_slotLane {x : Exec} {fd fa : Fld} {sl : Slot} {l : Nat} (ho : sl.op ≠ .nop) (hl : l ∈ x.act) (h32 : l < 32) :
    laneVal (laneResult x (isUni (regOf x fa 0) && (!pairReadsD sl.op || isUni (regOf x fd 0))) fun l => (slotLane x fd fa sl l).1) l =
      (slotLane x fd fa sl l).1 := by
  refine laneResult_val x _ _ l hl h32 fun hu i j => ?_
  obtain ⟨ha, hd⟩ := (Bool.and_eq_true _ _).mp hu
  have hsame : lane x fa 0 i = lane x fa 0 j := laneVal_uni _ ha i j
  unfold slotLane
  rw [hsame]
  rcases (Bool.or_eq_true _ _).mp hd with hn | hd
  · rw [pairLane_of_not_readsD (by simpa using hn) ho]
  · rw [show lane x fd 0 i = lane x fd 0 j from laneVal_uni _ hd i j]

/-- A slot that is no NOP has one register result, of the shape of Table 02-2, with the lane values of Table 03-13. -/
theorem slotResult_of_ne_nop {x : Exec} {fd fa : Fld} {sl : Slot} (ho : sl.op ≠ .nop) :
    ∃ v, slotResult x fd fa sl = ([(nameOf x fd 0, v)], joinFlags x.act fun l => (slotLane x fd fa sl l).2) ∧
      (∀ img, v ≠ .t img) ∧ ∀ l ∈ x.act, l < 32 → laneVal v l = (slotLane x fd fa sl l).1 := by
  unfold slotResult
  rw [if_neg ho]
  refine ⟨_, rfl, fun img => ?_, fun l hl h32 => ?_⟩
  · split
    · next h => exact pairAffine_ne_t h (readReg_ne_t _ _ _) img
    · exact laneResult_ne_t _ _ _ img
  · split
    · next h => exact laneVal_pairAffine h l
    · exact laneVal_slotLane ho hl h32

/-- The register results and the flags of a slot, lane by lane. -/
def slotRegs (x : Exec) (fd fa : Fld) (sl : Slot) : List (Nat × (Nat → W32)) :=
  if sl.op = .nop then [] else [(nameOf x fd 0, fun l => (slotLane x fd fa sl l).1)]

def slotFlags (x : Exec) (fd fa : Fld) (sl : Slot) : LaneFlags :=
  if sl.op = .nop then [] else joinFlags x.act fun l => (slotLane x fd fa sl l).2

/-- The results of a slot show its lane values, and none of them is T. -/
theorem slotResult_shows (x : Exec) (fd fa : Fld) (sl : Slot) :
    List.Forall₂ (fun (p : Nat × RegVal) (q : Nat × (Nat → W32)) => p.1 = q.1 ∧ ∀ l ∈ x.act, l < 32 → laneVal p.2 l = q.2 l)
      (slotResult x fd fa sl).1 (slotRegs x fd fa sl) ∧
    (∀ p ∈ (slotResult x fd fa sl).1, ∀ img, p.2 ≠ .t img) ∧ (slotResult x fd fa sl).2 = slotFlags x fd fa sl := by
  unfold slotRegs slotFlags
  by_cases ho : sl.op = .nop
  · have hnop : slotResult x fd fa sl = ([], []) := if_pos ho
    rw [hnop, if_pos ho, if_pos ho]
    exact ⟨.nil, nofun, rfl⟩
  · obtain ⟨v, hv, ht, hlane⟩ := slotResult_of_ne_nop (x := x) (fd := fd) (fa := fa) ho
    rw [hv, if_neg ho, if_neg ho]
    exact ⟨.cons ⟨rfl, hlane⟩ .nil, fun p hp => List.mem_singleton.mp hp ▸ ht, rfl⟩

/-- A pair writes the results of slot X, then those of slot Y, both from the values before the word (R69). -/
theorem finish_shows_pair {x : Exec} (w : PWord) (hb : findBatch x.s x.b.id = some x.b) (hlive : ∀ l ∈ x.act, l ∈ liveLanes x.b) :
    Shows x x.s (finish x (.res ((slotResult x .d .a w.x).1 ++ (slotResult x .b .c w.y).1) []
      ((slotResult x .d .a w.x).2 ++ (slotResult x .b .c w.y).2)))
      { regs := slotRegs x .d .a w.x ++ slotRegs x .b .c w.y, flags := slotFlags x .d .a w.x ++ slotFlags x .b .c w.y } := by
  obtain ⟨hx, hxt, hxf⟩ := slotResult_shows x .d .a w.x
  obtain ⟨hy, hyt, hyf⟩ := slotResult_shows x .b .c w.y
  obtain ⟨c, hc⟩ := fin_retires x x.s x.b _ [] ((slotResult x .d .a w.x).2 ++ (slotResult x .b .c w.y).2) hb hlive
    fun p hp => (List.mem_append.mp hp).elim (hxt p) (hyt p)
  rw [finish_res]
  rw [hxf, hyf] at hc ⊢
  exact ⟨x.b, c, _, [], hb, hc, List.rel_append hx hy, .nil⟩

/-- SLEEP of 0 changes nothing; any other sets the ac at which the batch wakes (R123). -/
theorem finish_shows_sleep {x : Exec} (imm : W32) (hb : findBatch x.s x.b.id = some x.b) (hlive : ∀ l ∈ x.act, l ∈ liveLanes x.b) :
    Shows x (if imm = 0 then x.s else modBatch x.s x.b.id fun b => { b with wake := x.s.clock + imm.toNat })
      (finish x (if imm = 0 then .res [] [] []
        else .done (modBatch x.s x.b.id fun b => { b with wake := x.s.clock + imm.toNat }) [] [] [])) {} := by
  split
  · exact finish_shows_nothing hb hlive
  · exact finish_shows_modBatch hb hlive (fun _ => rfl) rfl

/-! ### The words -/

theorem exec_nop (s : State) (w : FWord) : exec (.nop w) s = runF s w (bareSpec 0x4D w) fun _ => .res [] [] [] := rfl

theorem exec_unpin (s : State) (w : FWord) : exec (.unpin w) s = runF s w (bareSpec 0x4B w) fun x =>
    .done (modBatch x.s x.b.id fun b => { b with pin := none }) [] [] [] := rfl

theorem exec_yield (s : State) (w : FWord) : exec (.yield w) s = runF s w (bareSpec 0x4C w) fun x =>
    .done (modBatch x.s x.b.id fun b => { b with lastIssue := x.s.clock + 64 }) [] [] [] := rfl

theorem exec_sleep (s : State) (w : IWord) : exec (.sleep w) s = runI s w (iSpec 0x13 w .z .z) fun x =>
    if w.imm = 0 then .res [] [] []
    else .done (modBatch x.s x.b.id fun b => { b with wake := x.s.clock + w.imm.toNat }) [] [] [] := rfl

theorem exec_pair (s : State) (w : PWord) :
    exec (.pair w) s = runWord s (guardP w.pg) (pSpec w) (pairLegal w.x w.y) fun x =>
      .res ((slotResult x .d .a w.x).1 ++ (slotResult x .b .c w.y).1) []
        ((slotResult x .d .a w.x).2 ++ (slotResult x .b .c w.y).2) := rfl

/-- Settles O27: each word's own part, from where its effect starts. -/
theorem batchWords : Obligations.BatchWords := by
  unfold Obligations.BatchWords
  intro s i f e hf he b hready u r heff
  have hb := start_find hf hready.cur
  have hlive := start_live b hf
  unfold batchTable at he
  split at he
  case h_6 => cases he
  all_goals
    cases he
    cases Option.some.inj hf
    cases heff
  · next w => exact ⟨_, (exec_nop s w).trans (runF_ready s w _ _ b hready), finish_shows_nothing hb hlive⟩
  · next w =>
    exact ⟨_, (exec_unpin s w).trans (runF_ready s w _ _ b hready), finish_shows_modBatch hb hlive (fun _ => rfl) rfl⟩
  · next w =>
    exact ⟨_, (exec_yield s w).trans (runF_ready s w _ _ b hready), finish_shows_modBatch hb hlive (fun _ => rfl) rfl⟩
  · next w => exact ⟨_, (exec_sleep s w).trans (runI_ready s w _ _ b hready), finish_shows_sleep w.imm hb hlive⟩
  · next w => exact ⟨_, (exec_pair s w).trans (runWord_ready s _ _ _ _ b hready), finish_shows_pair w hb hlive⟩

end Sys2Proof.Machine
end

section
/-! SUPPORT. The fetch of a word (R64) changes no batch, no byte of memory at its home, and not which batch is the current one; the
issue runs what the fetched bytes decode to. -/
namespace Sys2Proof.Machine
open Sys2Proof

/-! ### What a fetch leaves alone -/

/-- The batches, the bytes at the homes and the batch in charge are the same. -/
structure SameHomes (s t : State) : Prop where
  batches : t.batches = s.batches
  mem : t.mem = s.mem
  zeroMask : t.zeroMask = s.zeroMask
  cur : t.cur = s.cur

theorem SameHomes.refl (s : State) : SameHomes s s := ⟨rfl, rfl, rfl, rfl⟩

theorem SameHomes.trans {s t u : State} (h : SameHomes s t) (k : SameHomes t u) : SameHomes s u :=
  ⟨k.batches.trans h.batches, k.mem.trans h.mem, k.zeroMask.trans h.zeroMask, k.cur.trans h.cur⟩

theorem SameHomes.memByte {s t : State} (h : SameHomes s t) (pa : Nat) : memByte t pa = memByte s pa := by
  unfold Machine.memByte homeByte lineZero
  rw [h.mem, h.zeroMask]

theorem SameHomes.foldl {α β : Type} {f : State × β → α → State × β} (hf : ∀ p a, SameHomes p.1 (f p a).1) (l : List α) :
    ∀ p : State × β, SameHomes p.1 (l.foldl f p).1 := by
  induction l with
  | nil => exact fun p => .refl p.1
  | cons a l ih => exact fun p => (hf p a).trans (ih _)

theorem SameHomes.freePick (s : State) (n : Nat) : SameHomes s (freePick s n).2 := by
  unfold Machine.freePick
  split <;> exact ⟨rfl, rfl, rfl, rfl⟩

theorem SameHomes.clearUpsets (s : State) (p : Upset → Bool) : SameHomes s (clearUpsets s p) := by
  unfold Machine.clearUpsets
  split <;> exact ⟨rfl, rfl, rfl, rfl⟩

theorem SameHomes.modStamps (s : State) (pa n : Nat) (f : Nat × Stamp → Stamp) : SameHomes s (modStamps s pa n f) := by
  unfold Machine.modStamps
  split <;> exact ⟨rfl, rfl, rfl, rfl⟩

/-! ### The translation of its address -/

theorem SameHomes.cacheWalk (s : State) (core ctx : Nat) (w : Option Leaf × List PteEntry) : SameHomes s (cacheWalk s core ctx w).1 := by
  unfold Machine.cacheWalk
  split <;> exact ⟨rfl, rfl, rfl, rfl⟩

theorem SameHomes.translate (s : State) (core ctx va : Nat) : SameHomes s (translate s core ctx va).1 := by
  unfold Machine.translate
  dsimp only
  split
  · exact (SameHomes.freePick s _).trans (.cacheWalk ..)
  · split
    · exact .refl s
    · split
      · exact .freePick s _
      · exact (SameHomes.freePick s _).trans (.cacheWalk ..)

theorem SameHomes.retranslate (s : State) (core ctx va : Nat) : SameHomes s (retranslate s core ctx va).1 := by
  unfold Machine.retranslate
  split
  · exact ⟨rfl, rfl, rfl, rfl⟩
  · exact .refl s

theorem SameHomes.useHome (s : State) (pa : Nat) : SameHomes s (useHome s pa) := ⟨rfl, rfl, rfl, rfl⟩

theorem SameHomes.locateLane (x : Exec) (s : State) (u : Use) (bytes va : Nat) (atHome : Bool) (fl : Option Nat) :
    SameHomes s (locateLane x s u bytes va atHome fl).1 := by
  unfold Machine.locateLane
  dsimp only
  split
  · exact .refl s
  split
  · exact .refl s
  have ht := SameHomes.translate s x.b.core x.b.ctx va
  split
  · exact ht
  split
  · exact ht
  split
  · exact ht
  split
  · exact ht
  · exact ht.trans (.useHome ..)
  have hr := ht.trans (SameHomes.retranslate (Machine.translate s x.b.core x.b.ctx va).1 x.b.core x.b.ctx va)
  split
  · exact hr
  split
  · exact hr
  split
  · exact hr
  split
  · exact hr
  · exact hr.trans (.useHome ..)
  · exact hr

/-! ### The load of its bytes -/

theorem SameHomes.countHome (s : State) (crew ctx pa : Nat) : SameHomes s (countHome s crew ctx pa) := by
  unfold Machine.countHome
  generalize hu : Machine.useHome s pa = u
  have h : SameHomes s u := hu ▸ .useHome s pa
  dsimp only
  split
  · exact h.trans ⟨rfl, rfl, rfl, rfl⟩
  · split <;> exact h.trans ⟨rfl, rfl, rfl, rfl⟩

theorem SameHomes.countMiss (s : State) (crew ctx pa : Nat) : SameHomes s (countMiss s crew ctx pa) :=
  SameHomes.trans (t := perfAdd s crew 4 1) ⟨rfl, rfl, rfl, rfl⟩ (.countHome ..)

theorem SameHomes.l1Fill (s : State) (core key : Nat) (leaf : W64) (home : List Byte) (fl : Option Nat) :
    SameHomes s (l1Fill s core key leaf home fl) := by
  unfold Machine.l1Fill
  dsimp only
  refine SameHomes.trans ?_ ((SameHomes.modStamps _ (128 * key) 128 _).trans ⟨rfl, rfl, rfl, rfl⟩)
  split
  · exact .clearUpsets ..
  · exact .refl s

theorem SameHomes.l1Ensure (s : State) (core key crew ctx : Nat) (leaf : W64) (home : State → List Byte) (fl : Option Nat) :
    SameHomes s (l1Ensure s core key crew ctx leaf home fl) := by
  unfold Machine.l1Ensure
  split
  · split
    · exact .refl s
    · exact ⟨rfl, rfl, rfl, rfl⟩
  · exact (SameHomes.countMiss ..).trans (.l1Fill ..)

theorem SameHomes.loadLoc (s : State) (b : Batch) (n : Nat) (loc : Loc) : SameHomes s (loadLoc s b n loc).1 := by
  cases loc with
  | scratch c o => exact .refl s
  | checked pa l => exact .countHome ..
  | mem pa l fl => exact .l1Ensure ..
  | gen va l line =>
    unfold Machine.loadLoc
    dsimp only
    split
    · exact .refl s
    · exact SameHomes.trans (t := perfAdd s b.crew 4 1) ⟨rfl, rfl, rfl, rfl⟩ (.l1Fill ..)
  | xform va l =>
    refine SameHomes.foldl (fun p pa => ?_) _ (s, [])
    exact .l1Ensure ..

/-! ### The fetch -/

theorem readWord_sameHomes {s t : State} {b : Batch} {va : Nat} {w : W64} (h : readWord s b va = .word t w) : SameHomes s t := by
  have hl := SameHomes.locateLane { hwExec s b with b := b } s .fetch 8 va false none
  unfold readWord at h
  split at h
  · cases h
  · cases h
  · next u loc hu =>
    rw [hu] at hl
    split at h
    · cases h
    · cases h
      exact hl.trans (.loadLoc ..)

theorem fetchWord_sameHomes {s t : State} {b : Batch} {w : W64} (h : fetchWord s b = .word t w) : SameHomes s t := by
  unfold fetchWord at h
  split at h
  · exact readWord_sameHomes h
  · have hl := SameHomes.locateLane { hwExec s b with b := b } s .fetch 8 b.pc.toNat false none
    split at h
    · cases h
    · next u r hu =>
      cases h
      rw [hu] at hl
      exact hl

/-- The marks of issue leave every byte of memory, and the batch is the one in charge. -/
theorem beginIssue_spec (s : State) (b : Batch) : (beginIssue s b).cur = b.id ∧ ∀ pa, memByte (beginIssue s b) pa = memByte s pa := by
  unfold beginIssue
  split
  · exact ⟨rfl, fun _ => rfl⟩
  · refine ⟨rfl, fun pa => ?_⟩
    split
    · have h := (OnlyWord.endWait s b.id b).rest
      show memByte (endWait s b) pa = _
      rw [h]
      rfl
    · rfl

/-- A restored batch that issues is restored no longer (R53). -/
def unmarkRestored (t : State) (id : Nat) (b : Batch) : State :=
  if b.restored then modBatch t id fun c => { c with restored := false } else t

theorem unmarkRestored_spec (t : State) (id : Nat) (b : Batch) :
    (unmarkRestored t id b).cur = t.cur ∧ ∀ pa, memByte (unmarkRestored t id b) pa = memByte t pa := by
  unfold unmarkRestored
  split <;> exact ⟨rfl, fun _ => rfl⟩

/-- The issue of a word that the fetch gives, and that no check of a restored batch refuses, is its execution. -/
theorem issueWord_word {s t : State} {id : Nat} {b : Batch} {w : W64} (hb : findBatch s id = some b)
    (hw : fetchWord (beginIssue s b) b = .word t w)
    (hwin : b.restored = true → b.wb + 8 ≤ windowLimit (unmarkRestored t id b) b) :
    issueWord s id = exec (decodeWord w) (unmarkRestored t id b) := by
  unfold issueWord
  simp only [hb, hw]
  exact if_neg fun h => Nat.not_lt.mpr (hwin h.1) h.2

theorem step_of_enabled_singleton {s : State} {m : Move} (h : enabled s = [m]) : step s = perform s m := by
  unfold step
  rw [h]

/-- Settles O4: the issue is that execution, and the fetch before it leaves the batches and the homes alone. -/
theorem stepRunsDecoded : Obligations.StepRunsDecoded := by
  unfold Obligations.StepRunsDecoded
  intro s t id b w hb hw u hwin
  have hissue : perform s (.issue id) = exec (decodeWord w) u := issueWord_word hb hw hwin
  have hfetch := fetchWord_sameHomes hw
  obtain ⟨hcur, hmem⟩ := beginIssue_spec s b
  obtain ⟨hucur, humem⟩ : u.cur = t.cur ∧ ∀ pa, memByte u pa = memByte t pa := unmarkRestored_spec t id b
  refine ⟨hissue, fun h => (step_of_enabled_singleton h).trans hissue, ?_, hfetch.batches, fun pa => ?_⟩
  · rw [hucur, hfetch.cur, hcur, findBatch_id hb]
  · rw [humem, hfetch.memByte, hmem]

end Sys2Proof.Machine
end

section
/-! SUPPORT. Words whose own part is a list of results by lanes: each retires with the results of its rule. -/
namespace Sys2Proof.Machine
open Sys2Proof

/-! ### Results by lanes -/

/-- A register value that is not T and has these values in the active lanes. -/
structure LaneVals (x : Exec) (v : RegVal) (g : Nat → W32) : Prop where
  ne_t : ∀ img, v ≠ .t img
  lanes : ∀ l ∈ x.act, l < 32 → laneVal v l = g l

/-- A predicate mask that has these values in the active lanes. -/
def MaskVals (x : Exec) (m : W32) (g : Nat → Bool) : Prop := ∀ l ∈ x.act, l < 32 → m.getLsbD l = g l

/-- The results of a word whose table entry is `each k`. -/
def eachOf (x : Exec) (k : W32 → W32 → W32 → W32 → W32 × Nat) : Results :=
  { regs := [(nameOf x .d 0, fun l => (k (lane x .a 0 l) (lane x .b 0 l) (lane x .c 0 l) (lane x .d 0 l)).1)]
    flags := joinFlags x.act fun l => (k (lane x .a 0 l) (lane x .b 0 l) (lane x .c 0 l) (lane x .d 0 l)).2 }

theorem allFlags_joinFlags_zero (act : List Nat) {f : Nat → Nat} (hf : ∀ l, f l = 0) : allFlags (joinFlags act f) = 0 := by
  have hfold : ∀ m : W32, (joinFlags act f).foldl (fun m p => m ||| p.2) m = m := by
    induction act with
    | nil => exact fun _ => rfl
    | cons a act ih =>
      intro m
      simp only [joinFlags, List.map_cons, List.foldl_cons, hf] at ih ⊢
      simpa using ih m
  exact hfold 0

/-- A result of fixed latency raises its flags at once: a list of flags that are all zero is as good as none. -/
theorem Retires.of_no_flags {x : Exec} {s t : State} {b c : Batch} {regs : List (Nat × RegVal)} {preds : List (Nat × W32)}
    {fl : LaneFlags} (h : Retires x s t b c regs preds []) (hvar : x.sp.var = false) (hfl : allFlags fl = 0) :
    Retires x s t b c regs preds fl := by
  obtain ⟨now, pc, same, owed, storesOwed, wrote, -, kept, predWrote, predKept, fibreSame, lanesOnly, others, crews, flags, rest⟩ := h
  refine ⟨now, pc, same, owed, storesOwed, wrote, fun hv => ?_, kept, predWrote, predKept, fibreSame, lanesOnly, others, crews, ?_, rest⟩
  · rw [hvar] at hv
    cases hv
  · rw [hfl]
    exact flags

theorem forall₂_left {α β : Type} {R : α → β → Prop} {P : α → Prop} (hR : ∀ a b, R a b → P a) {l : List α} {u : List β}
    (h : List.Forall₂ R l u) : ∀ a ∈ l, P a := by
  induction h with
  | nil => exact nofun
  | cons hab _ ih => exact List.forall_mem_cons.mpr ⟨hR _ _ hab, ih⟩

/-- A word whose own part gives results without flags shows them. -/
theorem finish_shows {x : Exec} {regs : List (Nat × RegVal)} {preds : List (Nat × W32)} {r : Results}
    (hb : findBatch x.s x.b.id = some x.b) (hlive : ∀ l ∈ x.act, l ∈ liveLanes x.b)
    (hregs : List.Forall₂ (fun p q => p.1 = q.1 ∧ LaneVals x p.2 q.2) regs r.regs)
    (hpreds : List.Forall₂ (fun p q => p.1 = q.1 ∧ MaskVals x p.2 q.2) preds r.preds)
    (hfl : r.flags = [] ∨ x.sp.var = false ∧ allFlags r.flags = 0) : Shows x x.s (finish x (.res regs preds [])) r := by
  have ht : ∀ p ∈ regs, ∀ img, p.2 ≠ .t img := forall₂_left (fun _ _ h => h.2.ne_t) hregs
  obtain ⟨c, hc⟩ := fin_retires x x.s x.b regs preds [] hb hlive ht
  refine ⟨x.b, c, regs, preds, hb, ?_, hregs.imp fun _ _ h => ⟨h.1, h.2.lanes⟩, hpreds⟩
  rcases hfl with hfl | ⟨hvar, hfl⟩
  · rw [hfl]
    exact hc
  · exact hc.of_no_flags hvar hfl


/-- One register result, without flags, of a word of fixed latency. -/
theorem finish_shows_each {x : Exec} {v : RegVal} {k : W32 → W32 → W32 → W32 → W32 × Nat} (hb : findBatch x.s x.b.id = some x.b)
    (hlive : ∀ l ∈ x.act, l ∈ liveLanes x.b) (hvar : x.sp.var = false) (hzero : ∀ a b c d, (k a b c d).2 = 0)
    (hv : LaneVals x v fun l => (k (lane x .a 0 l) (lane x .b 0 l) (lane x .c 0 l) (lane x .d 0 l)).1) :
    Shows x x.s (finish x (.res [(nameOf x .d 0, v)] [] [])) (eachOf x k) :=
  finish_shows hb hlive (.cons ⟨rfl, hv⟩ .nil) .nil
    (.inr ⟨hvar, allFlags_joinFlags_zero x.act fun _ => hzero _ _ _ _⟩)

/-! ### Sources that agree -/

/-- Every register that a word reads in the fields `fs` has one value in two lanes. -/
def SameSrcs (x : Exec) (fs : List Fld) (i j : Nat) : Prop :=
  ∀ f ∈ fs, ∀ n al q k, fieldOf x.sp f = some (.v n al, q) → k < n → lane x f k i = lane x f k j

theorem SameSrcs.lane {x : Exec} {fs : List Fld} {i j : Nat} (h : SameSrcs x fs i j) {f : Fld} {n al k : Nat} {q : W9} (hf : f ∈ fs)
    (hq : fieldOf x.sp f = some (.v n al, q)) (hk : k < n) : lane x f k i = lane x f k j := h f hf n al q k hq hk

/-- The sources a, or a and b, or a, b and c of a word, each one 32-bit name. -/
theorem SameSrcs.one {x : Exec} {fs : List Fld} {i j : Nat} (h : SameSrcs x fs i j) {f : Fld} {q : W9} (hf : f ∈ fs)
    (hq : fieldOf x.sp f = some (v1, q)) : Machine.lane x f 0 i = Machine.lane x f 0 j := h.lane hf hq Nat.one_pos

theorem SameSrcs.ab {x : Exec} {i j : Nat} (h : SameSrcs x [.a, .b] i j) {p q : W9} (ha : fieldOf x.sp .a = some (v1, p))
    (hb : fieldOf x.sp .b = some (v1, q)) :
    Machine.lane x .a 0 i = Machine.lane x .a 0 j ∧ Machine.lane x .b 0 i = Machine.lane x .b 0 j :=
  ⟨h.one (by simp) ha, h.one (by simp) hb⟩

theorem SameSrcs.abc {x : Exec} {i j : Nat} (h : SameSrcs x [.a, .b, .c] i j) {p q r : W9} (ha : fieldOf x.sp .a = some (v1, p))
    (hb : fieldOf x.sp .b = some (v1, q)) (hc : fieldOf x.sp .c = some (v1, r)) :
    Machine.lane x .a 0 i = Machine.lane x .a 0 j ∧ Machine.lane x .b 0 i = Machine.lane x .b 0 j ∧
      Machine.lane x .c 0 i = Machine.lane x .c 0 j :=
  ⟨h.one (by simp) ha, h.one (by simp) hb, h.one (by simp) hc⟩

/-- The two names of a 64-bit source (class VE). -/
theorem SameSrcs.lane64 {x : Exec} {fs : List Fld} {i j : Nat} (h : SameSrcs x fs i j) {f : Fld} {q : W9} (hf : f ∈ fs)
    (hq : fieldOf x.sp f = some (ve, q)) : lane64 x f i = lane64 x f j := by
  unfold Machine.lane64
  rw [h.lane hf hq Nat.one_lt_two, h.lane hf hq Nat.two_pos]

/-- A lane result of sources of which it is a function gives that function in each active lane. -/
theorem laneVals_srcs {x : Exec} {fs : List Fld} {f g : Nat → W32} (hdep : ∀ i j, SameSrcs x fs i j → f i = f j)
    (hval : ∀ l ∈ x.act, l < 32 → f l = g l) : LaneVals x (laneResult x (uniSrcs x fs) f) g where
  ne_t := laneResult_ne_t _ _ _
  lanes l hl h32 := by
    rw [laneResult_val x _ f l hl h32 fun hu i j => hdep i j fun fd hfd n al q k hq hk => lane_uniSrcs x fs hu fd hfd n al k q hq hk i j,
      hval l hl h32]

/-- A result that no uniformity shortens, as of a word that reads predicates. -/
theorem laneVals_general (x : Exec) (f : Nat → W32) : LaneVals x (laneResult x false f) f :=
  ⟨laneResult_ne_t _ _ _, fun l hl h32 => laneResult_val x false f l hl h32 nofun⟩

theorem getLsbD_maskOf {ls : List Nat} {l : Nat} (h32 : l < 32) : (maskOf ls).getLsbD l = ls.contains l := by
  have hfold : ∀ m : Nat, (ls.foldl (fun m l => m ||| (1 <<< l)) m).testBit l = (m.testBit l || ls.contains l) := by
    induction ls with
    | nil => exact fun m => by simp
    | cons a ls ih =>
      intro m
      rw [List.foldl_cons, ih, Nat.testBit_or, Nat.one_shiftLeft, Nat.testBit_two_pow, List.contains_cons, Bool.or_assoc]
      congr 2
      simp [eq_comm, beq_eq_decide]
  unfold maskOf
  rw [BitVec.getLsbD_ofNat, hfold 0]
  simp [h32]

/-- The mask of the lanes of a word that a predicate names. -/
theorem maskVals_predMask (x : Exec) (f : Nat → Bool) : MaskVals x (predMask x f) f := by
  intro l hl h32
  unfold predMask
  rw [getLsbD_maskOf h32]
  cases hf : f l <;> simp [hf, hl]

/-! ### The families of words that share one run -/

/-- A word of one 32-bit result that is a function of its sources, none of it late. -/
theorem alu_shows {s : State} {w : FWord} {sp : Spec} {fs : List Fld} {f : Exec → Nat → W32} {b : Batch}
    {k : W32 → W32 → W32 → W32 → W32 × Nat} (h : Ready s b (actF b w) sp true) (hvar : sp.var = false)
    (hzero : ∀ a b c d, (k a b c d).2 = 0)
    (hdep : ∀ i j, SameSrcs (fExec s b w sp) fs i j → f (fExec s b w sp) i = f (fExec s b w sp) j)
    (hval : ∀ x l, f x l = (k (lane x .a 0 l) (lane x .b 0 l) (lane x .c 0 l) (lane x .d 0 l)).1) :
    ∃ t, alu s w sp fs f = .next t ∧ Shows (fExec s b w sp) (fExec s b w sp).s t (eachOf (fExec s b w sp) k) :=
  ⟨_, runF_ready s w sp _ b h, finish_shows_each (fExec_find s b w sp h.cur) (fExec_live s b w sp) hvar hzero
    (laneVals_srcs hdep fun l _ _ => hval _ l)⟩

/-- The same of a word whose result may be late (R60): it raises no flags. -/
theorem alu_shows_late {s : State} {w : FWord} {sp : Spec} {fs : List Fld} {f : Exec → Nat → W32} {b : Batch}
    (h : Ready s b (actF b w) sp true)
    (hdep : ∀ i j, SameSrcs (fExec s b w sp) fs i j → f (fExec s b w sp) i = f (fExec s b w sp) j) :
    ∃ t, alu s w sp fs f = .next t ∧ Shows (fExec s b w sp) (fExec s b w sp).s t
      { regs := [(nameOf (fExec s b w sp) .d 0, f (fExec s b w sp))] } :=
  ⟨_, runF_ready s w sp _ b h, finish_shows (fExec_find s b w sp h.cur) (fExec_live s b w sp)
    (.cons ⟨rfl, laneVals_srcs hdep fun _ _ _ => rfl⟩ .nil) .nil (.inl rfl)⟩

/-- The results of a word whose table entry is `gives64`. -/
def of64 (x : Exec) (f : Nat → W64) : Results :=
  { regs := [(nameOf x .d 0, fun l => (f l).extractLsb' 0 32), (nameOf x .d 1, fun l => (f l).extractLsb' 32 32)] }

/-- A 64-bit result in two names, of sources of which it is a function (R10). -/
theorem finish_shows_64 {x : Exec} {fs : List Fld} {f : Nat → W64} (hb : findBatch x.s x.b.id = some x.b)
    (hlive : ∀ l ∈ x.act, l ∈ liveLanes x.b) (hdep : ∀ i j, SameSrcs x fs i j → f i = f j) :
    Shows x x.s (finish x (.res (result64 x fs f) [] [])) (of64 x f) :=
  finish_shows hb hlive
    (.cons ⟨rfl, laneVals_srcs (fun i j h => by rw [hdep i j h]) fun _ _ _ => rfl⟩
      (.cons ⟨rfl, laneVals_srcs (fun i j h => by rw [hdep i j h]) fun _ _ _ => rfl⟩ .nil)) .nil (.inl rfl)

/-- A word of one predicate result. -/
theorem finish_shows_pred {x : Exec} (n : Nat) (f : Nat → Bool) (hb : findBatch x.s x.b.id = some x.b)
    (hlive : ∀ l ∈ x.act, l ∈ liveLanes x.b) :
    Shows x x.s (finish x (.res [] [(n, predMask x f)] [])) { preds := [(n, f)] } :=
  finish_shows hb hlive .nil (.cons ⟨rfl, maskVals_predMask x f⟩ .nil) (.inl rfl)

/-- A word of one register result that depends on predicates. -/
theorem finish_shows_general {x : Exec} (f : Nat → W32) (hb : findBatch x.s x.b.id = some x.b)
    (hlive : ∀ l ∈ x.act, l ∈ liveLanes x.b) :
    Shows x x.s (finish x (.res [(nameOf x .d 0, laneResult x false f)] [] [])) { regs := [(nameOf x .d 0, f)] } :=
  finish_shows hb hlive (.cons ⟨rfl, laneVals_general x f⟩ .nil) .nil (.inl rfl)

end Sys2Proof.Machine
end

section
/-! SUPPORT. Integer arithmetic, addresses and moves (R94 to R101): each word gives the value of its rule in every active lane. -/
namespace Sys2Proof.Machine
open Sys2Proof

/-! ### Sums, differences and products with their shapes (R95, Table 02-2) -/

/-- Extending and fitting lose nothing of a 32-bit value. -/
theorem ofInt_extInt {t : Nat} (ht : typeBits t = 32) (a : W32) : BitVec.ofInt 32 (extInt t a) = a := by
  have hmod : a.toNat % 2 ^ 32 = a.toNat := Nat.mod_eq_of_lt a.isLt
  unfold extInt
  simp only [ht, hmod]
  apply BitVec.eq_of_toNat_eq
  split
  · rw [BitVec.toNat_ofInt]
    have := a.isLt
    omega
  · rw [BitVec.toNat_ofInt]
    have := a.isLt
    omega

theorem fitInt_wrap {t : Nat} (ht : typeBits t = 32) (v : Int) : fitInt t false v = BitVec.ofInt 32 v := by
  unfold fitInt
  simp only [ht, Bool.false_eq_true, if_false]
  apply BitVec.eq_of_toNat_eq
  split <;> simp only [BitVec.toNat_ofInt] <;> omega

/-- The exact operation of R95 and the one on words that an affine row makes agree. -/
structure Agree (aff : RegVal → RegVal → Option RegVal) (f : Int → Int → Int) (g : W32 → W32 → W32) : Prop where
  ne_t : ∀ va vb r, aff va vb = some r → ∀ img, r ≠ .t img
  lanes : ∀ va vb r, aff va vb = some r → ∀ l, laneVal r l = g (laneVal va l) (laneVal vb l)
  exact : ∀ t, typeBits t = 32 → ∀ a b, fitInt t false (f (extInt t a) (extInt t b)) = g a b

theorem agree_add : Agree affineAdd (· + ·) (· + ·) where
  ne_t _ _ _ h := affine_ne_t (.inl rfl) h
  lanes _ _ _ h := laneVal_affineAdd h
  exact t ht a b := by rw [fitInt_wrap ht, BitVec.ofInt_add, ofInt_extInt ht, ofInt_extInt ht]

theorem agree_sub : Agree affineSub (· - ·) (· - ·) where
  ne_t _ _ _ h := affine_ne_t (.inr (.inl rfl)) h
  lanes _ _ _ h := laneVal_affineSub h
  exact t ht a b := by
    rw [fitInt_wrap ht, Int.sub_eq_add_neg, BitVec.ofInt_add, BitVec.ofInt_neg, ofInt_extInt ht, ofInt_extInt ht, BitVec.sub_eq_add_neg]

theorem agree_mul : Agree affineMul (· * ·) (· * ·) where
  ne_t _ _ _ h := affine_ne_t (.inr (.inr rfl)) h
  lanes _ _ _ h := laneVal_affineMul h
  exact t ht a b := by rw [fitInt_wrap ht, BitVec.ofInt_mul, ofInt_extInt ht, ofInt_extInt ht]

/-- The result of R95 has in each lane the exact value, fitted, whatever its shape. -/
theorem laneVals_arithResult {x : Exec} {t : Nat} {sat : Bool} {va vb : RegVal} {aff : RegVal → RegVal → Option RegVal}
    {f : Int → Int → Int} {g : W32 → W32 → W32} (hfg : Agree aff f g) :
    LaneVals x (arithResult x t sat va vb aff f) fun l => fitInt t sat (f (extInt t (laneVal va l)) (extInt t (laneVal vb l))) := by
  unfold arithResult
  dsimp only
  split
  · next r h =>
    obtain ⟨⟨ht, hsat⟩, hr⟩ := Option.ite_none_right_eq_some.mp h
    have hsat : sat = false := by simpa using hsat
    subst hsat
    exact ⟨hfg.ne_t _ _ _ hr, fun l _ _ => (hfg.lanes _ _ _ hr l).trans (hfg.exact t ht _ _).symm⟩
  · refine ⟨laneResult_ne_t _ _ _, fun l hl h32 => laneResult_val x _ _ l hl h32 fun hu i j => ?_⟩
    obtain ⟨ha, hb⟩ := (Bool.and_eq_true _ _).mp hu
    rw [laneVal_uni va ha i j, laneVal_uni vb hb i j]

theorem arithF_shows {s : State} {op : Nat} {w : FWord} {aff : RegVal → RegVal → Option RegVal} {f : Int → Int → Int}
    {g : W32 → W32 → W32} {b : Batch} (hfg : Agree aff f g)
    (h : Ready s b (actF b w) (specA op w v1 v1 v1 .z typesAdd true) true) :
    let x := fExec s b w (specA op w v1 v1 v1 .z typesAdd true)
    ∃ t, arithF s op w aff f = .next t ∧ Shows x x.s t (eachOf x fun a b _ _ => exact2 w f a b) :=
  ⟨_, runF_ready s w _ _ b h, finish_shows_each (fExec_find s b w _ h.cur) (fExec_live s b w _) rfl (fun _ _ _ _ => rfl)
    (laneVals_arithResult hfg)⟩

theorem arithI_shows {s : State} {op : Nat} {w : IWord} {aff : RegVal → RegVal → Option RegVal} {f : Int → Int → Int}
    {g : W32 → W32 → W32} {b : Batch} (hfg : Agree aff f g) (h : Ready s b (actI b w) (iSpec op w v1 v1) true) :
    let x := iExec s b w (iSpec op w v1 v1)
    ∃ t, arithI s op w aff f = .next t ∧ Shows x x.s t (eachOf x fun a _ _ _ => plain (g a w.imm)) := by
  intro x
  have hv := laneVals_arithResult (x := x) (t := 0) (sat := false) (va := regOf x .a 0) (vb := .u w.imm) hfg
  exact ⟨_, runI_ready s w _ _ b h, finish_shows_each (iExec_find s b w _ h.cur) (iExec_live s b w _) rfl (fun _ _ _ _ => rfl)
    ⟨hv.ne_t, fun l hl h32 => (hv.lanes l hl h32).trans (hfg.exact 0 rfl _ _)⟩⟩


/-! ### The other words of R95 -/

theorem intLane1_shows {s : State} {op : Nat} {w : FWord} {types : List Nat} {sat : Bool} (f : Int → Int) {b : Batch}
    (h : Ready s b (actF b w) (specA op w v1 v1 .z .z types sat) true) :
    let x := fExec s b w (specA op w v1 v1 .z .z types sat)
    ∃ t, alu s w (specA op w v1 v1 .z .z types sat) [.a] (intLane w fun a _ _ => f a) = .next t ∧
      Shows x x.s t (eachOf x fun a _ _ _ => exact2 w (fun x _ => f x) a 0) :=
  alu_shows h rfl (fun _ _ _ _ => rfl)
    (fun i j hs => by
      have ha := hs.one (f := .a) (by simp) rfl
      simp only [intLane, ha])
    fun _ _ => rfl

theorem intLane2_shows {s : State} {op : Nat} {w : FWord} {types : List Nat} {sat : Bool} (f : Int → Int → Int) {b : Batch}
    (h : Ready s b (actF b w) (specA op w v1 v1 v1 .z types sat) true) :
    let x := fExec s b w (specA op w v1 v1 v1 .z types sat)
    ∃ t, alu s w (specA op w v1 v1 v1 .z types sat) [.a, .b] (intLane w fun a b _ => f a b) = .next t ∧
      Shows x x.s t (eachOf x fun a b _ _ => exact2 w f a b) :=
  alu_shows h rfl (fun _ _ _ _ => rfl)
    (fun i j hs => by
      obtain ⟨ha, hb⟩ := hs.ab rfl rfl
      simp only [intLane, ha, hb])
    fun _ _ => rfl

theorem intLane3_shows {s : State} {op : Nat} {w : FWord} {types : List Nat} {sat : Bool} (f : Int → Int → Int → Int) {b : Batch}
    (h : Ready s b (actF b w) (specA op w v1 v1 v1 v1 types sat) true) :
    let x := fExec s b w (specA op w v1 v1 v1 v1 types sat)
    ∃ t, alu s w (specA op w v1 v1 v1 v1 types sat) [.a, .b, .c] (intLane w f) = .next t ∧
      Shows x x.s t (eachOf x fun a b c _ => exact3 w f a b c) :=
  alu_shows h rfl (fun _ _ _ _ => rfl)
    (fun i j hs => by
      obtain ⟨ha, hb, hc⟩ := hs.abc rfl rfl rfl
      simp only [intLane, ha, hb, hc])
    fun _ _ => rfl

/-! ### IMULH, IDOT4, IADDX, IDIV and IREM (R96 to R98, R141) -/

theorem imulh_shows {s : State} {w : FWord} {b : Batch} (h : Ready s b (actF b w) (specA 0x05 w v1 v1 v1 .z typesSN false) true) :
    let x := fExec s b w (specA 0x05 w v1 v1 v1 .z typesSN false)
    ∃ t, execImulh w s = .next t ∧ Shows x x.s t (eachOf x fun a b _ _ =>
      plain (BitVec.ofInt 32 ((extInt (modType w.m) a * extInt (modType w.m) b) / 2 ^ 32))) :=
  alu_shows h rfl (fun _ _ _ _ => rfl)
    (fun i j hs => by
      obtain ⟨ha, hb⟩ := hs.ab rfl rfl
      simp only [ha, hb])
    fun _ _ => rfl

/-- Byte `i` of a packed source as an exact integer. -/
def dotElem (sg : Bool) (x : W32) (i : Nat) : Int := if sg then (x.extractLsb' (8 * i) 8).toInt else (x.extractLsb' (8 * i) 8).toNat

theorem dotElem_eq (sg : Bool) (x : W32) (i : Nat) :
    (if sg ∧ 128 ≤ x.toNat / 256 ^ i % 256 then ((x.toNat / 256 ^ i % 256 : Nat) : Int) - 256 else (x.toNat / 256 ^ i % 256 : Nat)) =
      dotElem sg x i := by
  have hb : (x.extractLsb' (8 * i) 8).toNat = x.toNat / 256 ^ i % 256 := by
    rw [BitVec.extractLsb'_toNat, Nat.shiftRight_eq_div_pow, pow_mul]
    rfl
  unfold dotElem
  rw [BitVec.toInt_eq_toNat_cond, hb]
  cases sg
  · simp
  · simp only [true_and, if_true]
    split <;> split <;> omega

theorem idot4Lane_eq (sa sb sat : Bool) (a b c : W32) : idot4Lane sa sb sat a b c =
    fitInt 0 sat (c.toInt + dotElem sa a 0 * dotElem sb b 0 + dotElem sa a 1 * dotElem sb b 1 + dotElem sa a 2 * dotElem sb b 2 +
      dotElem sa a 3 * dotElem sb b 3) := by
  unfold idot4Lane
  simp only [dotElem_eq]
  rfl

theorem idot4_shows {s : State} {w : FWord} {b : Batch} (h : Ready s b (actF b w) { specA 0x77 w v1 v1 v1 v1 [0] true with
      legal := modType w.m == 0 && decide (modSub w.m < 4) } true) :
    let x := fExec s b w { specA 0x77 w v1 v1 v1 v1 [0] true with legal := modType w.m == 0 && decide (modSub w.m < 4) }
    ∃ t, execIdot4 w s = .next t ∧ Shows x x.s t (eachOf x fun a b c _ =>
      plain (fitInt 0 (modSat w.m) (c.toInt + dotElem (w.m.getLsbD 5) a 0 * dotElem (w.m.getLsbD 6) b 0 +
        dotElem (w.m.getLsbD 5) a 1 * dotElem (w.m.getLsbD 6) b 1 + dotElem (w.m.getLsbD 5) a 2 * dotElem (w.m.getLsbD 6) b 2 +
        dotElem (w.m.getLsbD 5) a 3 * dotElem (w.m.getLsbD 6) b 3))) :=
  alu_shows h rfl (fun _ _ _ _ => rfl)
    (fun i j hs => by
      obtain ⟨ha, hb, hc⟩ := hs.abc rfl rfl rfl
      simp only [ha, hb, hc])
    fun _ _ => idot4Lane_eq ..

theorem idiv_shows {s : State} {w : FWord} {b : Batch}
    (h : Ready s b (actF b w) { specA 0x08 w v1 v1 v1 .z typesSN true with ephOk := false, var := true } true) :
    let x := fExec s b w { specA 0x08 w v1 v1 v1 .z typesSN true with ephOk := false, var := true }
    ∃ t, execIdiv w s = .next t ∧ Shows x x.s t
      { regs := [(nameOf x .d 0, fun l => idivLane (modType w.m) (modSat w.m) (lane x .a 0 l) (lane x .b 0 l))] } :=
  alu_shows_late h fun i j hs => by
    obtain ⟨ha, hb⟩ := hs.ab rfl rfl
    simp only [ha, hb]

theorem irem_shows {s : State} {w : FWord} {b : Batch}
    (h : Ready s b (actF b w) { specA 0x09 w v1 v1 v1 .z typesSN false with ephOk := false, var := true } true) :
    let x := fExec s b w { specA 0x09 w v1 v1 v1 .z typesSN false with ephOk := false, var := true }
    ∃ t, execIrem w s = .next t ∧ Shows x x.s t
      { regs := [(nameOf x .d 0, fun l => iremLane (modType w.m) (lane x .a 0 l) (lane x .b 0 l))] } :=
  alu_shows_late h fun i j hs => by
    obtain ⟨ha, hb⟩ := hs.ab rfl rfl
    simp only [ha, hb]

/-- IADDX's sum in a lane, with the carry that comes in (R97). -/
def carrySum (x : Exec) (p l : Nat) : Nat :=
  (lane x .a 0 l).toNat + (lane x .b 0 l).toNat + (if predBit (fibreOf x.b l).pw p then 1 else 0)

theorem finish_shows_carry {x : Exec} (p : Nat) (hb : findBatch x.s x.b.id = some x.b) (hlive : ∀ l ∈ x.act, l ∈ liveLanes x.b) :
    Shows x x.s (finish x (.res [(nameOf x .d 0, laneResult x false fun l => BitVec.ofNat 32 (carrySum x p l))]
      [(p, predMask x fun l => 2 ^ 32 ≤ carrySum x p l)] []))
      { regs := [(nameOf x .d 0, fun l => BitVec.ofNat 32 (carrySum x p l))], preds := [(p, fun l => decide (2 ^ 32 ≤ carrySum x p l))] } :=
  finish_shows hb hlive (.cons ⟨rfl, laneVals_general x _⟩ .nil) (.cons ⟨rfl, maskVals_predMask x _⟩ .nil) (.inl rfl)

/-! ### Addresses and moves (R96, R99 to R101) -/

theorem imadw_shows {s : State} {w : FWord} {b : Batch} (h : Ready s b (actF b w) (specA 0x07 w ve v1 v1 ve typesSN false) true) :
    let x := fExec s b w (specA 0x07 w ve v1 v1 ve typesSN false)
    ∃ t, execImadw w s = .next t ∧ Shows x x.s t (of64 x fun l =>
      BitVec.ofInt 64 (extInt (modType w.m) (lane x .a 0 l) * extInt (modType w.m) (lane x .b 0 l)) + lane64 x .c l) :=
  ⟨_, runF_ready s w _ _ b h, finish_shows_64 (fExec_find s b w _ h.cur) (fExec_live s b w _) fun i j hs => by
    rw [hs.one (f := .a) (by simp) rfl, hs.one (f := .b) (by simp) rfl, hs.lane64 (f := .c) (by simp) rfl]⟩

/-- LEA's address: the base and the extended index, shifted (R99). -/
def leaLane (x : Exec) (w : FWord) (l : Nat) : W64 :=
  lane64 x .a l + (BitVec.ofInt 64 (extInt (if w.m.getLsbD 3 then 0 else 1) (lane x .b 0 l)) <<< (w.m.toNat % 8))

theorem lea_shows {s : State} {w : FWord} {b : Batch}
    (h : Ready s b (actF b w) { fSpec 0x10 w ve ve v1 .z with legal := w.m.toNat < 16, ephOk := true } true) :
    let x := fExec s b w { fSpec 0x10 w ve ve v1 .z with legal := w.m.toNat < 16, ephOk := true }
    ∃ t, execLea w s = .next t ∧ Shows x x.s t (of64 x (leaLane x w)) := by
  unfold execLea
  refine ⟨_, runF_ready s w _ _ b h, finish_shows_64 (fExec_find s b w _ h.cur) (fExec_live s b w _) fun i j hs => ?_⟩
  rw [hs.one (f := .b) (by simp) rfl, hs.lane64 (f := .a) (by simp) rfl]

/-- ADD64 and SUB64 on two names each. -/
theorem wide2_shows {s : State} {op : Nat} {w : FWord} {types : List Nat} {sat : Bool} (f : W64 → W64 → W64) {b : Batch}
    (h : Ready s b (actF b w) (specA op w ve ve ve .z types sat) true) :
    let x := fExec s b w (specA op w ve ve ve .z types sat)
    ∃ t, runF s w (specA op w ve ve ve .z types sat) (fun x =>
        .res (result64 x [.a, .b] fun l => f (lane64 x .a l) (lane64 x .b l)) [] []) = .next t ∧
      Shows x x.s t (of64 x fun l => f (lane64 x .a l) (lane64 x .b l)) :=
  ⟨_, runF_ready s w _ _ b h, finish_shows_64 (fExec_find s b w _ h.cur) (fExec_live s b w _) fun i j hs => by
    rw [hs.lane64 (f := .a) (by simp) rfl, hs.lane64 (f := .b) (by simp) rfl]⟩

theorem add64I_shows {s : State} {w : IWord} {b : Batch} (h : Ready s b (actI b w) (iSpec 0x0B w ve ve) true) :
    let x := iExec s b w (iSpec 0x0B w ve ve)
    ∃ t, execAdd64I w s = .next t ∧ Shows x x.s t (of64 x fun l => lane64 x .a l + w.imm.signExtend 64) :=
  ⟨_, runI_ready s w _ _ b h, finish_shows_64 (iExec_find s b w _ h.cur) (iExec_live s b w _) fun i j hs => by
    rw [hs.lane64 (f := .a) (by simp) rfl]⟩

/-- MOV and the words with an immediate value write values that all lanes have as they are read. -/
theorem finish_shows_mov {x : Exec} (n : Nat) (hb : findBatch x.s x.b.id = some x.b) (hlive : ∀ l ∈ x.act, l ∈ liveLanes x.b) :
    Shows x x.s (finish x (.res ((List.range n).map fun j => (nameOf x .d j, regOf x .a j)) [] []))
      { regs := (List.range n).map fun j => (nameOf x .d j, lane x .a j) } := by
  refine finish_shows hb hlive ?_ .nil (.inl rfl)
  rw [List.forall₂_map_left_iff, List.forall₂_map_right_iff, List.forall₂_same]
  exact fun j _ => ⟨rfl, fun img => readReg_ne_t _ _ _ img, fun _ _ _ => rfl⟩

theorem finish_shows_imm {x : Exec} (v : W32) (hb : findBatch x.s x.b.id = some x.b) (hlive : ∀ l ∈ x.act, l ∈ liveLanes x.b)
    (hvar : x.sp.var = false) :
    Shows x x.s (finish x (.res [(nameOf x .d 0, .u v)] [] [])) (eachOf x fun _ _ _ _ => plain v) :=
  finish_shows_each hb hlive hvar (fun _ _ _ _ => rfl) ⟨fun _ => nofun, fun _ _ _ => rfl⟩

/-- Settles O23: each word's own part is a list of results, whose values in the lanes are those of its rule. -/
theorem integerWords : Obligations.IntegerWords := by
  unfold Obligations.IntegerWords
  intro s i f e hf he b hready u r heff
  have hb := start_find hf hready.cur
  have hlive := start_live b hf
  unfold integerTable at he
  split at he
  case h_26 => cases he
  all_goals
    cases he
    cases Option.some.inj hf
    cases heff
  · exact arithF_shows agree_add hready
  · exact arithF_shows agree_sub hready
  · exact arithF_shows agree_mul hready
  · exact intLane3_shows _ hready
  · exact intLane2_shows _ hready
  · exact intLane2_shows _ hready
  · exact intLane1_shows (fun a => if a < 0 then -a else a) hready
  · exact intLane1_shows (fun a => -a) hready
  · exact intLane3_shows _ hready
  · exact imulh_shows hready
  · exact idiv_shows hready
  · exact irem_shows hready
  · exact idot4_shows hready
  · next w =>
    unfold exec execIaddx
    exact ⟨_, runF_ready s w _ _ b hready, finish_shows_carry (modSub w.m) hb hlive⟩
  · exact imadw_shows hready
  · exact lea_shows hready
  · exact wide2_shows (· + ·) hready
  · exact wide2_shows (· - ·) hready
  · exact add64I_shows hready
  · exact arithI_shows agree_add hready
  · exact arithI_shows agree_mul hready
  · next w => exact ⟨_, (runI_ready s w _ _ b hready : execMovi w s = _), finish_shows_imm w.imm hb hlive rfl⟩
  · next w => exact ⟨_, (runI_ready s w _ _ b hready : execMovhi w s = _), finish_shows_imm w.imm hb hlive rfl⟩
  · next w =>
    unfold exec execMov
    exact ⟨_, runF_ready s w _ _ b hready, finish_shows_mov _ hb hlive⟩
  · next w => exact ⟨_, (runF_ready s w _ _ b hready : execSel w s = _), finish_shows_general _ hb hlive⟩

end Sys2Proof.Machine
end

section
/-! SUPPORT. Logic, shifts, bit fields, counts, compares and predicates (R102 to R110): the lane functions of the words, bit by bit, and
the words. -/
namespace Sys2Proof.Machine
open Sys2Proof

/-! ### A value from its bits -/

/-- The sum of the powers of two that `f` names below `n` has these bits. -/
theorem sumBits_spec (f : Nat → Bool) (n : Nat) :
    (List.range n).foldl (fun r i => r + if f i then 2 ^ i else 0) 0 < 2 ^ n ∧
      ∀ j, ((List.range n).foldl (fun r i => r + if f i then 2 ^ i else 0) 0).testBit j = (decide (j < n) && f j) := by
  induction n with
  | zero => exact ⟨by simp, fun j => by simp⟩
  | succ n ih =>
    obtain ⟨hlt, hbits⟩ := ih
    rw [List.range_succ, List.foldl_append]
    simp only [List.foldl_cons, List.foldl_nil]
    generalize (List.range n).foldl (fun r i => r + if f i then 2 ^ i else 0) 0 = r at hlt hbits ⊢
    have hsum : (r + if f n then 2 ^ n else 0) = 2 ^ n * (if f n then 1 else 0) + r := by
      split <;> simp [Nat.add_comm]
    refine ⟨?_, fun j => ?_⟩
    · rw [pow_succ]
      split <;> omega
    · rw [hsum, Nat.testBit_two_pow_mul_add _ hlt, hbits]
      rcases Nat.lt_trichotomy j n with h | rfl | h
      · simp [h, Nat.lt_succ_of_lt h]
      · cases f j <;> simp
      · have h1 : ¬ j < n := Nat.not_lt.mpr h.le
        have h2 : ¬ j < n + 1 := by omega
        have h3 : j - n ≠ 0 := by omega
        simp only [h1, h2, if_false, decide_false, Bool.false_and]
        cases f n
        · simp
        · simpa using (Nat.testBit_one_eq_true_iff_self_eq_zero).not.mpr h3

theorem getLsbD_fromBits (f : Nat → Bool) {i : Nat} (hi : i < 32) : (fromBits f).getLsbD i = f i := by
  unfold fromBits
  rw [BitVec.getLsbD_ofNat, (sumBits_spec f 32).2]
  simp [hi]

/-- A value with these bits is the value from these bits. -/
theorem eq_fromBits {v : W32} {f : Nat → Bool} (h : ∀ i, i < 32 → v.getLsbD i = f i) : v = fromBits f :=
  BitVec.eq_of_getLsbD_eq fun i hi => (h i hi).trans (getLsbD_fromBits f hi).symm

/-! ### Logic and shifts (R102 to R104) -/

/-- Bit `i` of a source, or of its complement, as the minterm `p` takes it. -/
theorem getLsbD_literal (p : Bool) (v : W32) {i : Nat} (hi : i < 32) : (if p then v else ~~~v).getLsbD i = (v.getLsbD i == p) := by
  cases p
  · rw [if_neg (by simp), BitVec.getLsbD_not]
    simp [hi]
  · rw [if_pos rfl]
    simp

/-- A minterm of LOP3's table that is absent has no bit. -/
theorem getLsbD_minterm (p : Bool) (v : W32) (i : Nat) : (if p then v else 0).getLsbD i = (p && v.getLsbD i) := by
  cases p <;> simp

theorem lop3_bits (m : BitVec 11) (a b c : W32) : lop3 m.toNat a b c = fromBits (lop3Bit m a b c) := by
  refine eq_fromBits fun i hi => ?_
  unfold lop3 lop3Bit
  simp only [show List.range 8 = [0, 1, 2, 3, 4, 5, 6, 7] from rfl, List.foldl_cons, List.foldl_nil, BitVec.getLsbD_or,
    getLsbD_minterm, BitVec.getLsbD_and, getLsbD_literal _ _ hi, BitVec.testBit_toNat]
  cases a.getLsbD i <;> cases b.getLsbD i <;> cases c.getLsbD i <;> simp [Nat.testBit]

theorem shlLane_eq (a n : W32) : shlLane a n = BitVec.ofNat 32 (a.toNat * 2 ^ min n.toNat 32) := by
  unfold shlLane
  apply BitVec.eq_of_toNat_eq
  split
  · next h => rw [min_eq_left h.le, BitVec.toNat_shiftLeft, Nat.shiftLeft_eq, BitVec.toNat_ofNat]
  · next h => 
    rw [min_eq_right (Nat.not_lt.mp h), BitVec.toNat_ofNat]
    simp

theorem shrLane_eq (a n : W32) : shrLane a n = BitVec.ofNat 32 (a.toNat / 2 ^ min n.toNat 32) := by
  unfold shrLane
  have ha := a.isLt
  apply BitVec.eq_of_toNat_eq
  rw [BitVec.toNat_ofNat, Nat.mod_eq_of_lt ((Nat.div_le_self _ _).trans_lt ha)]
  split
  · next h => rw [min_eq_left h.le, BitVec.toNat_ushiftRight, Nat.shiftRight_eq_div_pow]
  · next h =>
    rw [min_eq_right (Nat.not_lt.mp h), Nat.div_eq_of_lt ha]
    rfl

theorem shraLane_eq (a n : W32) : shraLane a n = BitVec.ofInt 32 (a.toInt / 2 ^ min n.toNat 32) := by
  unfold shraLane
  rw [min_comm, BitVec.sshiftRight, Int.shiftRight_eq_div_pow]
  norm_cast

theorem rotLane_bits (a n : W32) : rotLane a n = fromBits fun i => a.getLsbD ((i + 32 - n.toNat % 32) % 32) := by
  refine eq_fromBits fun i hi => ?_
  unfold rotLane
  rw [BitVec.getLsbD_rotateLeft, Nat.mod_mod]
  have hn : n.toNat % 32 < 32 := Nat.mod_lt _ (by decide)
  generalize n.toNat % 32 = k at hn
  by_cases h : i < k
  · simp only [h, decide_true, cond_true]
    congr 1
    omega
  · simp only [h, decide_false, cond_false, hi, decide_true, Bool.true_and]
    congr 1
    omega

/-! ### Bit fields (R105, R106) -/

/-- The width-`len` number `f`, sign-extended where its top bit is set and `signed`, has these bits. -/
theorem getLsbD_signed {f len : Nat} (hf : f < 2 ^ len) (hlen : 0 < len) (h32 : len ≤ 32) (signed : Bool) {i : Nat} (hi : i < 32) :
    (if signed ∧ 2 ^ (len - 1) ≤ f then BitVec.ofInt 32 ((f : Int) - 2 ^ len) else BitVec.ofNat 32 f).getLsbD i =
      if i < len then f.testBit i else signed && f.testBit (len - 1) := by
  have htop : f.testBit (len - 1) = decide (2 ^ (len - 1) ≤ f) := by
    rw [Nat.testBit_eq_decide_div_mod_eq, decide_eq_decide]
    have hpow : 2 ^ len = 2 * 2 ^ (len - 1) := by rw [← pow_succ', Nat.sub_add_cancel hlen]
    rw [Nat.mod_eq_of_lt ((Nat.div_lt_iff_lt_mul (by positivity)).mpr (hpow ▸ hf))]
    constructor
    · intro h
      exact (Nat.one_le_div_iff (by positivity)).mp h.ge
    · intro h
      exact le_antisymm (Nat.lt_succ_iff.mp ((Nat.div_lt_iff_lt_mul (by positivity)).mpr (hpow ▸ hf))) ((Nat.one_le_div_iff (by positivity)).mpr h)
  have hhigh : ¬ i < len → f.testBit i = false := fun h =>
    Nat.testBit_lt_two_pow (hf.trans_le (Nat.pow_le_pow_right (by decide) (Nat.not_lt.mp h)))
  split
  · next h =>
    have hneg : BitVec.ofInt 32 ((f : Int) - 2 ^ len) = BitVec.ofNat 32 (2 ^ len * (2 ^ (32 - len) - 1) + f) := by
      have hn : 2 ^ len * (2 ^ (32 - len) - 1) + 2 ^ len = 2 ^ 32 := by
        rw [← Nat.mul_succ, Nat.succ_eq_add_one, Nat.sub_add_cancel Nat.one_le_two_pow, ← pow_add, Nat.add_sub_cancel' h32]
      have hq : ((2 ^ len : Nat) : Int) = 2 ^ len := by push_cast; rfl
      rw [← hq]
      generalize 2 ^ len * (2 ^ (32 - len) - 1) = m at hn ⊢
      generalize (2 ^ len : Nat) = q at hn hf ⊢
      apply BitVec.eq_of_toNat_eq
      rw [BitVec.toNat_ofInt, BitVec.toNat_ofNat]
      omega
    rw [hneg, BitVec.getLsbD_ofNat, Nat.testBit_two_pow_mul_add _ hf, htop, Nat.testBit_two_pow_sub_one]
    by_cases hl : i < len
    · simp [hl, hi]
    · have : i - len < 32 - len := by omega
      simp [hl, hi, this, h.1, h.2]
  · next h =>
    rw [BitVec.getLsbD_ofNat, htop]
    by_cases hl : i < len
    · simp [hl, hi]
    · simp only [hl, hi, hhigh hl, if_false]
      cases signed <;> simp_all

/-- Bit `i` of a source extended beyond its 32 bits. -/
def extBit (signed : Bool) (a : W32) (i : Nat) : Bool := if i < 32 then a.getLsbD i else signed && a.getLsbD 31

theorem getLsbD_extended (signed : Bool) (a : W32) {i : Nat} (hi : i < 64) :
    (if signed then a.signExtend 64 else a.zeroExtend 64 : W64).getLsbD i = extBit signed a i := by
  unfold extBit
  cases signed
  · simp only [Bool.false_eq_true, if_false, BitVec.getLsbD_setWidth, hi, decide_true, Bool.true_and, Bool.false_and]
    split
    · rfl
    · next h => exact BitVec.getLsbD_of_ge a i (Nat.not_lt.mp h)
  · simp only [if_true, BitVec.getLsbD_signExtend, hi, decide_true, Bool.true_and, BitVec.msb_eq_getLsbD_last]

/-- The bits that R105 gives BFX in a lane. -/
def bfxBits (signed : Bool) (a b c : W32) : W32 :=
  let pos := min (b.toNat % 256) 32
  let len := min (c.toNat % 256) 32
  fromBits fun i => if i < len then extBit signed a (pos + i) else decide (0 < len) && signed && extBit signed a (pos + len - 1)

theorem bfxLane_eq (signed : Bool) (a b c : W32) : bfxLane signed a b c = bfxBits signed a b c := by
  refine eq_fromBits fun i hi => ?_
  unfold bfxLane
  dsimp only
  have hpos : min (b.toNat % 256) 32 ≤ 32 := min_le_right _ _
  have hlen : min (c.toNat % 256) 32 ≤ 32 := min_le_right _ _
  generalize min (b.toNat % 256) 32 = pos at hpos ⊢
  generalize min (c.toNat % 256) 32 = len at hlen ⊢
  split
  · next h => simp [h]
  · next h =>
    have h0 : 0 < len := Nat.pos_of_ne_zero h
    have hbit : ∀ j < len, (((if signed then a.signExtend 64 else a.zeroExtend 64 : W64) >>> pos).toNat % 2 ^ len).testBit j =
        extBit signed a (pos + j) := fun j hj => by
      rw [Nat.testBit_mod_two_pow, BitVec.testBit_toNat, BitVec.getLsbD_ushiftRight, getLsbD_extended signed a (by omega)]
      simp [hj]
    rw [getLsbD_signed (Nat.mod_lt _ (by positivity)) h0 hlen signed hi]
    by_cases hl : i < len
    · rw [if_pos hl, if_pos hl, hbit i hl]
    · rw [if_neg hl, if_neg hl, hbit _ (by omega), Nat.add_sub_assoc h0]
      simp [h0]

/-- The bits that R106 gives BFI in a lane. -/
def bfiBits (d a b c : W32) : W32 :=
  let pos := min (b.toNat % 256) 32
  let len := min (c.toNat % 256) 32
  fromBits fun i => if pos ≤ i ∧ i < pos + len then a.getLsbD (i - pos) else d.getLsbD i

theorem bfiLane_eq (d a b c : W32) : bfiLane d a b c = bfiBits d a b c := by
  refine eq_fromBits fun i hi => ?_
  unfold bfiLane
  dsimp only
  have hlen : min (c.toNat % 256) 32 ≤ 32 := min_le_right _ _
  generalize min (b.toNat % 256) 32 = pos
  generalize min (c.toNat % 256) 32 = len at hlen ⊢
  have hmask : ∀ j < 64, (BitVec.ofNat 64 (2 ^ len - 1)).getLsbD j = decide (j < len) := fun j hj => by
    rw [BitVec.getLsbD_ofNat, Nat.testBit_two_pow_sub_one]
    simp [hj]
  have h64 : i < 64 := by omega
  have hsub : i - pos < 64 := by omega
  rw [BitVec.getLsbD_extractLsb']
  simp only [Nat.zero_add, BitVec.getLsbD_or, BitVec.getLsbD_and, BitVec.getLsbD_not, BitVec.getLsbD_shiftLeft, BitVec.getLsbD_setWidth,
    hmask _ hsub, hi, h64, hsub, decide_true, Bool.true_and]
  by_cases hp : i < pos
  · simp [hp, Nat.not_le.mpr hp]
  · by_cases hl : i - pos < len
    · have h : pos ≤ i ∧ i < pos + len := by omega
      simp [hp, hl, h]
    · have h : ¬ (pos ≤ i ∧ i < pos + len) := by omega
      simp [hp, hl, h]

/-! ### Counts (R107) -/

theorem popLane_eq (a : W32) : popLane a = BitVec.ofNat 32 ((List.range 32).filter fun i => a.getLsbD i).length := by
  unfold popLane
  rw [List.countP_eq_length_filter]

/-- The start of a range on which `p` holds ends where `p` first fails. -/
theorem length_takeWhile_range {p : Nat → Bool} {m n : Nat} (hp : ∀ i < m, p i = true) (hm : m < n) (hf : p m = false) :
    ((List.range n).takeWhile p).length = m := by
  have hsplit : List.range n = List.range m ++ (m :: (List.range (n - m - 1)).map (m + 1 + ·)) := by
    rw [← List.singleton_append, ← List.append_assoc, ← List.range_succ, ← List.range_add]
    congr 1
    omega
  rw [hsplit, List.takeWhile_append_of_pos (by simpa using hp), List.takeWhile_cons_of_neg (by simp [hf]), List.append_nil, List.length_range]

theorem clzLane_eq (a : W32) : clzLane a = BitVec.ofNat 32 ((List.range 32).takeWhile fun i => !a.getLsbD (31 - i)).length := by
  unfold clzLane
  split
  · next h =>
    subst h
    rfl
  · next h =>
    have h0 : a.toNat ≠ 0 := fun e => h (BitVec.eq_of_toNat_eq e)
    have hlog : Nat.log2 a.toNat < 32 := (Nat.log2_lt h0).mpr a.isLt
    rw [length_takeWhile_range (m := 31 - Nat.log2 a.toNat) (fun i hi => ?_) (by omega) ?_]
    · rw [Nat.sub_sub_self (by omega), BitVec.getLsbD]
      simp [Nat.testBit_log2 h0]
    · rw [Bool.not_eq_true', BitVec.getLsbD]
      exact Nat.testBit_lt_two_pow ((Nat.log2_lt h0).mp (by omega))

/-- The bits taken in so far stand in the opposite order. -/
theorem reverseBits_spec (f : Nat → Bool) (n j : Nat) :
    ((List.range n).foldl (fun r i => 2 * r + if f i then 1 else 0) 0).testBit j = (decide (j < n) && f (n - 1 - j)) := by
  induction n generalizing j with
  | zero => simp
  | succ n ih =>
    rw [List.range_succ, List.foldl_append]
    simp only [List.foldl_cons, List.foldl_nil]
    cases j with
    | zero => cases h : f n <;> simp [h, Nat.testBit_zero]
    | succ j =>
      rw [Nat.testBit_succ, show (2 * ((List.range n).foldl (fun r i => 2 * r + if f i then 1 else 0) 0) + if f n then 1 else 0) / 2 =
        (List.range n).foldl (fun r i => 2 * r + if f i then 1 else 0) 0 by split <;> omega, ih]
      rw [show n + 1 - 1 - (j + 1) = n - 1 - j by omega]
      simp

theorem brevLane_bits (a : W32) : brevLane a = fromBits fun i => a.getLsbD (31 - i) := by
  refine eq_fromBits fun i hi => ?_
  unfold brevLane
  rw [BitVec.getLsbD_ofNat, reverseBits_spec]
  simp [hi]

/-! ### BPERM (R107) -/

/-- A byte of the eight that BPERM chooses from, or its sign spread. -/
def permByte (a b c : W32) (i : Nat) : BitVec 8 :=
  let v := (b ++ a : W64).extractLsb' (8 * (c.extractLsb' (4 * i) 3).toNat) 8
  if c.getLsbD (4 * i + 3) then (if v.getLsbD 7 then 255 else 0) else v

theorem toNat_permByte (a b c : W32) (i : Nat) : (permByte a b c i).toNat =
    if c.getLsbD (4 * i + 3) then
      (if 128 ≤ (b.toNat * 2 ^ 32 + a.toNat) / 2 ^ (8 * (c.toNat / 2 ^ (4 * i) % 8)) % 256 then 255 else 0)
    else (b.toNat * 2 ^ 32 + a.toNat) / 2 ^ (8 * (c.toNat / 2 ^ (4 * i) % 8)) % 256 := by
  have hy : (b ++ a : W64).toNat = b.toNat * 2 ^ 32 + a.toNat := by
    rw [BitVec.toNat_append, ← Nat.shiftLeft_add_eq_or_of_lt a.isLt, Nat.shiftLeft_eq]
  have hv : ((b ++ a : W64).extractLsb' (8 * (c.extractLsb' (4 * i) 3).toNat) 8).toNat =
      (b.toNat * 2 ^ 32 + a.toNat) / 2 ^ (8 * (c.toNat / 2 ^ (4 * i) % 8)) % 256 := by
    rw [BitVec.extractLsb'_toNat, hy, Nat.shiftRight_eq_div_pow, BitVec.extractLsb'_toNat, Nat.shiftRight_eq_div_pow]
  have htop : ∀ v : BitVec 8, v.getLsbD 7 = decide (128 ≤ v.toNat) := by decide
  unfold permByte
  simp only [htop, hv, decide_eq_true_eq]
  split
  · split <;> rfl
  · exact hv

theorem bpermLane_eq (a b c : W32) :
    bpermLane a b c = (permByte a b c 3 ++ permByte a b c 2 ++ permByte a b c 1 ++ permByte a b c 0 : BitVec 32) := by
  unfold bpermLane
  simp only [← toNat_permByte]
  apply BitVec.eq_of_toNat_eq
  have h0 := (permByte a b c 0).isLt
  have h1 := (permByte a b c 1).isLt
  have h2 := (permByte a b c 2).isLt
  have h3 := (permByte a b c 3).isLt
  rw [BitVec.toNat_append, ← Nat.shiftLeft_add_eq_or_of_lt h0, BitVec.toNat_append, ← Nat.shiftLeft_add_eq_or_of_lt h1,
    BitVec.toNat_append, ← Nat.shiftLeft_add_eq_or_of_lt h2, BitVec.toNat_ofNat]
  simp only [Nat.shiftLeft_eq]
  omega

end Sys2Proof.Machine
end

section
/-! SUPPORT. The words of R102 to R110: each shows the bits of its rule. -/
namespace Sys2Proof.Machine
open Sys2Proof

/-! ### The families of logic words -/

theorem logic1_shows {s : State} {op : Nat} {w : FWord} {f k : W32 → W32} (hk : ∀ a, f a = k a) {b : Batch}
    (h : Ready s b (actF b w) (specA op w v1 v1 .z .z types32 false) true) :
    let x := fExec s b w (specA op w v1 v1 .z .z types32 false)
    ∃ t, logic1 s op w f = .next t ∧ Shows x x.s t (eachOf x fun a _ _ _ => plain (k a)) :=
  alu_shows h rfl (fun _ _ _ _ => rfl)
    (fun i j hs => by
      have ha := hs.one (f := .a) (by simp) rfl
      simp only [ha])
    fun _ _ => hk _

theorem logic2_shows {s : State} {op : Nat} {w : FWord} {f k : W32 → W32 → W32} (hk : ∀ a b, f a b = k a b) {b : Batch}
    (h : Ready s b (actF b w) (specA op w v1 v1 v1 .z types32 false) true) :
    let x := fExec s b w (specA op w v1 v1 v1 .z types32 false)
    ∃ t, logic2 s op w f = .next t ∧ Shows x x.s t (eachOf x fun a b _ _ => plain (k a b)) :=
  alu_shows h rfl (fun _ _ _ _ => rfl)
    (fun i j hs => by
      obtain ⟨ha, hb⟩ := hs.ab rfl rfl
      simp only [ha, hb])
    fun _ _ => hk _ _

/-- An I-form word takes its immediate as its second source. -/
theorem aluI_shows {s : State} {op : Nat} {w : IWord} {f k : W32 → W32 → W32} (hk : ∀ a b, f a b = k a b) {b : Batch}
    (h : Ready s b (actI b w) (iSpec op w v1 v1) true) :
    let x := iExec s b w (iSpec op w v1 v1)
    ∃ t, aluI s op w f = .next t ∧ Shows x x.s t (eachOf x fun a _ _ _ => plain (k a w.imm)) :=
  ⟨_, runI_ready s w _ _ b h, finish_shows_each (iExec_find s b w _ h.cur) (iExec_live s b w _) rfl (fun _ _ _ _ => rfl)
    (laneVals_srcs
      (fun i j hs => by
        have ha := hs.one (f := .a) (by simp) rfl
        simp only [ha])
      fun _ _ _ => hk _ _)⟩

/-! ### Words with an entry of their own -/

theorem lop3_shows {s : State} {w : FWord} {b : Batch}
    (h : Ready s b (actF b w) { fSpec 0x24 w v1 v1 v1 v1 with legal := w.m.toNat < 256, ephOk := true } true) :
    let x := fExec s b w { fSpec 0x24 w v1 v1 v1 v1 with legal := w.m.toNat < 256, ephOk := true }
    ∃ t, execLop3 w s = .next t ∧ Shows x x.s t (eachOf x fun a b c _ => plain (fromBits (lop3Bit w.m a b c))) :=
  alu_shows h rfl (fun _ _ _ _ => rfl)
    (fun i j hs => by
      obtain ⟨ha, hb, hc⟩ := hs.abc rfl rfl rfl
      simp only [ha, hb, hc])
    fun _ _ => lop3_bits ..

/-- The specification of FSHF (R104): its sub-op says which half it gives. -/
def fshfSpec (w : FWord) : Spec :=
  { specA 0x29 w v1 v1 v1 v1 types32 false with legal := types32.contains (modType w.m) && !modSat w.m && modSub w.m < 2 }

theorem fshf_shows {s : State} {w : FWord} {b : Batch} (h : Ready s b (actF b w) (fshfSpec w) true) :
    let x := fExec s b w (fshfSpec w)
    ∃ t, execFshf w s = .next t ∧ Shows x x.s t (eachOf x fun a b c _ => plain (if modSub w.m = 1
      then ((b ++ a : W64) <<< (c.toNat % 64)).extractLsb' 32 32 else ((b ++ a : W64) >>> (c.toNat % 64)).extractLsb' 0 32)) :=
  alu_shows h rfl (fun _ _ _ _ => rfl)
    (fun i j hs => by
      obtain ⟨ha, hb, hc⟩ := hs.abc rfl rfl rfl
      simp only [ha, hb, hc])
    fun _ _ => rfl

theorem bfx_shows {s : State} {w : FWord} {b : Batch} (h : Ready s b (actF b w) (specA 0x2A w v1 v1 v1 v1 typesSN false) true) :
    let x := fExec s b w (specA 0x2A w v1 v1 v1 v1 typesSN false)
    ∃ t, execBfx w s = .next t ∧ Shows x x.s t (eachOf x fun a b c _ => plain (bfxBits (modType w.m == 0) a b c)) :=
  alu_shows h rfl (fun _ _ _ _ => rfl)
    (fun i j hs => by
      obtain ⟨ha, hb, hc⟩ := hs.abc rfl rfl rfl
      simp only [ha, hb, hc])
    fun _ _ => (bfxLane_eq ..).trans (congrArg (bfxBits · _ _ _) (beq_eq_decide ..).symm)

theorem bperm_shows {s : State} {w : FWord} {b : Batch} (h : Ready s b (actF b w) (specA 0x2F w v1 v1 v1 v1 types32 false) true) :
    let x := fExec s b w (specA 0x2F w v1 v1 v1 v1 types32 false)
    ∃ t, execBperm w s = .next t ∧ Shows x x.s t (eachOf x fun a b c _ =>
      plain (permByte a b c 3 ++ permByte a b c 2 ++ permByte a b c 1 ++ permByte a b c 0 : BitVec 32)) :=
  alu_shows h rfl (fun _ _ _ _ => rfl)
    (fun i j hs => by
      obtain ⟨ha, hb, hc⟩ := hs.abc rfl rfl rfl
      simp only [ha, hb, hc])
    fun _ _ => bpermLane_eq ..

theorem bfi_shows {s : State} {w : FWord} {b : Batch}
    (h : Ready s b (actF b w) { specA 0x2B w v1 v1 v1 v1 types32 false with reads := [.d, .a, .b, .c] } true) :
    let x := fExec s b w { specA 0x2B w v1 v1 v1 v1 types32 false with reads := [.d, .a, .b, .c] }
    ∃ t, execBfi w s = .next t ∧ Shows x x.s t (eachOf x fun a b c d => plain (bfiBits d a b c)) :=
  alu_shows h rfl (fun _ _ _ _ => rfl)
    (fun i j hs => by
      have hd := hs.one (f := .d) (by simp) rfl
      have ha := hs.one (f := .a) (by simp) rfl
      have hb := hs.one (f := .b) (by simp) rfl
      have hc := hs.one (f := .c) (by simp) rfl
      simp only [hd, ha, hb, hc])
    fun _ _ => bfiLane_eq ..

/-- PMOVP's value of predicate `i` in a lane: bit `i` of a where that of b is set (R110). -/
def pmovpLane (x : Exec) (i l : Nat) : Bool :=
  if (lane x .b 0 l).getLsbD i then (lane x .a 0 l).getLsbD i else predBit (fibreOf x.b l).pw i

theorem finish_shows_pmovp {x : Exec} (hb : findBatch x.s x.b.id = some x.b) (hlive : ∀ l ∈ x.act, l ∈ liveLanes x.b) :
    Shows x x.s (finish x (.res [] ((List.range 32).map fun i => (i, predMask x (pmovpLane x i))) []))
      { preds := (List.range 32).map fun i => (i, pmovpLane x i) } := by
  refine finish_shows hb hlive .nil ?_ (.inl rfl)
  rw [List.forall₂_map_left_iff, List.forall₂_map_right_iff, List.forall₂_same]
  exact fun i _ => ⟨rfl, maskVals_predMask x _⟩

/-- Settles O24: each word's own part is a list of results, whose bits in the lanes are those of its rule. -/
theorem logicWords : Obligations.LogicWords := by
  unfold Obligations.LogicWords
  intro s i f e hf he b hready u r heff
  have hb := start_find hf hready.cur
  have hlive := start_live b hf
  unfold logicTable at he
  split at he
  case h_28 => cases he
  all_goals
    cases he
    cases Option.some.inj hf
    cases heff
  · exact logic2_shows (k := (· &&& ·)) (fun _ _ => rfl) hready
  · exact logic2_shows (k := (· ||| ·)) (fun _ _ => rfl) hready
  · exact logic2_shows (k := (· ^^^ ·)) (fun _ _ => rfl) hready
  · exact logic2_shows (k := fun a b => a &&& ~~~b) (fun _ _ => rfl) hready
  · exact lop3_shows hready
  · exact logic2_shows shlLane_eq hready
  · exact logic2_shows shrLane_eq hready
  · exact logic2_shows shraLane_eq hready
  · exact logic2_shows rotLane_bits hready
  · exact fshf_shows hready
  · exact bfx_shows hready
  · exact bfi_shows hready
  · exact logic1_shows popLane_eq hready
  · exact logic1_shows clzLane_eq hready
  · exact logic1_shows brevLane_bits hready
  · exact bperm_shows hready
  · exact aluI_shows (k := (· &&& ·)) (fun _ _ => rfl) hready
  · exact aluI_shows (k := (· ||| ·)) (fun _ _ => rfl) hready
  · exact aluI_shows (k := (· ^^^ ·)) (fun _ _ => rfl) hready
  · exact aluI_shows shlLane_eq hready
  · exact aluI_shows shrLane_eq hready
  · exact aluI_shows shraLane_eq hready
  · next w =>
    unfold exec execIcmp
    exact ⟨_, runF_ready s w _ _ b hready, finish_shows_pred w.d.toNat _ hb hlive⟩
  · next w =>
    unfold exec execIcmpi
    exact ⟨_, runI_ready s w _ _ b hready, finish_shows_pred (w.d.toNat % 32) _ hb hlive⟩
  · next w => exact ⟨_, (runF_ready s w _ _ b hready : execPlop w s = _), finish_shows_pred w.d.toNat _ hb hlive⟩
  · next w => exact ⟨_, (runF_ready s w _ _ b hready : execPmovr w s = _), finish_shows_general _ hb hlive⟩
  · next w => exact ⟨_, (runF_ready s w _ _ b hready : execPmovp w s = _), finish_shows_pmovp hb hlive⟩

end Sys2Proof.Machine
end

section
/-! SUPPORT. Where branch-type words send their lanes (R111 to R116): each of the six words runs as one parting of its batch, to the
places of its rule. -/
namespace Sys2Proof.Machine
open Sys2Proof

/-! ### Lanes that diverge -/

theorem one_lt_length_eraseDups {α : Type} [BEq α] [LawfulBEq α] (l : List α) :
    1 < l.eraseDups.length ↔ ∃ a ∈ l, ∃ b ∈ l, a ≠ b := by
  cases l with
  | nil => simp
  | cons a l =>
    rw [List.eraseDups_cons, List.length_cons, Nat.lt_add_left_iff_pos]
    constructor
    · intro h
      obtain ⟨b, hb⟩ := List.exists_mem_of_length_pos h
      obtain ⟨hb, hne⟩ := List.mem_filter.mp (List.mem_eraseDups.mp hb)
      exact ⟨b, List.mem_cons_of_mem _ hb, a, List.mem_cons_self, by simpa using hne⟩
    · rintro ⟨b, hb, c, hc, hne⟩
      obtain ⟨d, hd, hda⟩ : ∃ d ∈ a :: l, d ≠ a := by
        by_cases h : b = a
        · exact ⟨c, hc, fun e => hne (h.trans e.symm)⟩
        · exact ⟨b, hb, h⟩
      refine List.length_pos_of_mem (List.mem_eraseDups.mpr (List.mem_filter.mpr ⟨(List.mem_cons.mp hd).resolve_left hda, ?_⟩))
      simpa using hda

theorem diverges_iff (x : Exec) (go : Nat → Dest) : Diverges x go ↔ 1 < ((liveLanes x.b).map go).eraseDups.length := by
  rw [one_lt_length_eraseDups]
  simp only [List.mem_map, Diverges]
  constructor
  · rintro ⟨l, hl, k, hk, h⟩
    exact ⟨_, ⟨l, hl, rfl⟩, _, ⟨k, hk, rfl⟩, h⟩
  · rintro ⟨_, ⟨l, hl, rfl⟩, _, ⟨k, hk, rfl⟩, h⟩
    exact ⟨l, hl, k, hk, h⟩

/-! ### Targets (R113) -/

theorem ofInt_toNat {n : Nat} (x : BitVec n) : BitVec.ofInt n (x.toNat : Int) = x := by
  rw [BitVec.ofInt_natCast, BitVec.ofNat_toNat, BitVec.setWidth_eq]

theorem relTarget_eq (x : Exec) (imm : W32) : relTarget x imm = relative x imm := by
  unfold relTarget relative
  rw [BitVec.ofInt_add, BitVec.ofInt_mul, ofInt_toNat, BitVec.mul_comm]
  rfl

/-- The lanes whose address is no place for code, by the two checks of R113. -/
theorem targetFault_none {x : Exec} (h : targetsOk x = true) : targetFault x (lane64 x .a) = none := by
  have hall := List.all_eq_true.mp h
  have hlow : (x.act.filter fun l => (lane64 x .a l).toNat % 8 ≠ 0) = [] := List.filter_eq_nil_iff.mpr fun l hl => by
    have := hall l hl
    simp_all
  have hhigh : (x.act.filter fun l => 2 ^ 54 ≤ (lane64 x .a l).toNat) = [] := List.filter_eq_nil_iff.mpr fun l hl => by
    have := hall l hl
    simp_all
  unfold targetFault
  rw [hlow, hhigh]

theorem laneDest_eq (x : Exec) (pc : Nat → VA) (wb : Nat → Nat) :
    laneDest x (fun l => (true, pc l, wb l)) = taking x fun l => (pc l, wb l) := by
  funext l
  unfold laneDest taking fallThrough
  simp

/-! ### The six words as one parting -/

/-- What a branch-type word does to its whole batch before the lanes part. -/
def branchFirst (i : Instr) (x : Exec) : State → State :=
  match i with
  | .loop _ => fun s => pushWindow (putRegs s x.b.id x.act [(nameOf x .d 0, loopCounter x)]) x.b.id [(nameOf x .d 0, none)]
  | .call _ => id
  | .calli _ => id
  | _ => passWindow x

/-- What it does to each part. -/
def branchPart (i : Instr) (x : Exec) : State → Nat → Dest → State :=
  match i with
  | .call w => writeLink x w.a.toNat
  | .calli w => writeLink x (8 * (w.m.toNat % 64))
  | _ => noPart

/-- The body of a branch-type word whose checks pass. -/
def branchBody (i : Instr) (x : Exec) (go : Nat → Dest) : Eff := branchTo x (branchFirst i x) go (branchPart i x)

theorem callEff_ok {x : Exec} {frame : Nat} {target : Nat → VA} (h : x.b.wb + frame + 8 ≤ windowLimit x.s x.b) :
    callEff x frame target = branchTo x id (taking x fun l => (target l, x.b.wb + frame)) (writeLink x frame) := by
  unfold callEff
  rw [if_neg (Nat.not_lt.mpr h), laneDest_eq x target fun _ => x.b.wb + frame]

theorem loop_dest (x : Exec) (imm : W32) :
    (laneDest x fun l => if lane x .d 0 l - 1 ≠ 0 then (true, relTarget x imm, x.b.wb) else fallThrough x) = fun l =>
      if l ∈ x.act ∧ lane x .d 0 l ≠ 1 then (true, relative x imm, x.b.wb) else (false, x.b.pc + 8, x.b.wb) := by
  funext l
  have h1 : lane x .d 0 l - 1 ≠ 0 ↔ lane x .d 0 l ≠ 1 := not_congr sub_eq_zero
  unfold laneDest fallThrough
  simp only [relTarget_eq, h1, List.contains_iff_mem]
  by_cases ha : l ∈ x.act <;> simp [ha]

/-- A return's checks pass where each active lane's link is a place for code under a window that exists (R116). -/
theorem ret_checks {x : Exec} (h : (x.act.all fun l => (lane64 x .a l).toNat % 8 == 0 &&
      decide (8 * ((lane64 x .a l).toNat / 2 ^ 54 % 64) ≤ x.b.wb) &&
      decide (x.b.wb - 8 * ((lane64 x .a l).toNat / 2 ^ 54 % 64) + 8 ≤ windowLimit x.s x.b)) = true) :
    (x.act.filter fun l => (lane64 x .a l).toNat % 8 ≠ 0) = [] ∧
      (x.act.filter fun l => x.b.wb < 8 * ((lane64 x .a l).toNat / 2 ^ 54 % 64) ∨
        windowLimit x.s x.b < x.b.wb - 8 * ((lane64 x .a l).toNat / 2 ^ 54 % 64) + 8) = [] := by
  have hall := List.all_eq_true.mp h
  refine ⟨List.filter_eq_nil_iff.mpr fun l hl => ?_, List.filter_eq_nil_iff.mpr fun l hl => ?_⟩
  · have := hall l hl
    simp_all
  · have := hall l hl
    simp only [Bool.and_eq_true, decide_eq_true_eq] at this
    simp only [decide_eq_true_eq, not_or, Nat.not_lt]
    exact ⟨this.1.2, this.2⟩

theorem bra_body (x : Exec) (w : IWord) :
    branchTo x (passWindow x) (laneDest x fun _ => (true, relTarget x w.imm, x.b.wb)) noPart =
      branchBody (.bra w) x (taking x fun _ => (relative x w.imm, x.b.wb)) := by
  rw [relTarget_eq, laneDest_eq x (fun _ => _) fun _ => _]
  rfl

theorem bri_body (x : Exec) (w : FWord) :
    branchTo x (passWindow x) (laneDest x fun l => (true, (lane64 x .a l).extractLsb' 0 54, x.b.wb)) noPart =
      branchBody (.bri w) x (taking x fun l => (BitVec.ofNat 54 (lane64 x .a l).toNat, x.b.wb)) := by
  rw [laneDest_eq x (fun l => _) fun l => _]
  rfl

theorem loop_body (x : Exec) (w : IWord) :
    branchTo x (branchFirst (.loop w) x)
        (laneDest x fun l => if lane x .d 0 l - 1 ≠ 0 then (true, relTarget x w.imm, x.b.wb) else fallThrough x) noPart =
      branchBody (.loop w) x fun l =>
        if l ∈ x.act ∧ lane x .d 0 l ≠ 1 then (true, relative x w.imm, x.b.wb) else (false, x.b.pc + 8, x.b.wb) := by
  rw [loop_dest]
  rfl

theorem call_body (x : Exec) (w : IWord) (h : x.b.wb + w.a.toNat + 8 ≤ windowLimit x.s x.b) :
    callEff x w.a.toNat (fun _ => relTarget x w.imm) =
      branchBody (.call w) x (taking x fun _ => (relative x w.imm, x.b.wb + w.a.toNat)) := by
  rw [callEff_ok h, relTarget_eq]
  rfl

theorem calli_body (x : Exec) (w : FWord) (h : x.b.wb + 8 * (w.m.toNat % 64) + 8 ≤ windowLimit x.s x.b) :
    callEff x (8 * (w.m.toNat % 64)) (fun l => (lane64 x .a l).extractLsb' 0 54) =
      branchBody (.calli w) x (taking x fun l => (BitVec.ofNat 54 (lane64 x .a l).toNat, x.b.wb + 8 * (w.m.toNat % 64))) := by
  rw [callEff_ok h]
  rfl

theorem ret_body (x : Exec) (w : FWord) :
    branchTo x (passWindow x) (laneDest x fun l => (true, BitVec.ofNat 54 (lane64 x .a l).toNat,
        x.b.wb - 8 * ((lane64 x .a l).toNat / 2 ^ 54 % 64))) noPart =
      branchBody (.ret w) x (taking x fun l => (BitVec.ofNat 54 (lane64 x .a l).toNat,
        x.b.wb - 8 * ((lane64 x .a l).toNat / 2 ^ 54 % 64))) := by
  rw [laneDest_eq x (fun l => _) fun l => _]
  rfl

/-- A ready word whose own part is one effect in the state that it starts in. -/
theorem exec_runF {s : State} {w : FWord} {sp : Spec} {body : Exec → Eff} {b : Batch} {e : Eff}
    {o : Host.Outcome State Fault Refusal} (hexec : o = runF s w sp body) (h : (formF w sp).Ready s b) (hbody : body ((formF w sp).start s b) = e) :
    o = .next (finish ((formF w sp).start s b) e) :=
  (hexec.trans (runF_ready s w sp body b h)).trans (by rw [← hbody]; rfl)

theorem exec_runI {s : State} {w : IWord} {sp : Spec} {body : Exec → Eff} {b : Batch} {e : Eff}
    {o : Host.Outcome State Fault Refusal} (hexec : o = runI s w sp body) (h : (formI w sp).Ready s b) (hbody : body ((formI w sp).start s b) = e) :
    o = .next (finish ((formI w sp).start s b) e) :=
  (hexec.trans (runI_ready s w sp body b h)).trans (by rw [← hbody]; rfl)

/-- A branch-type word whose checks pass parts its batch. -/
theorem exec_branch {s : State} {i : Instr} {f : Form} {g : Exec → Option (Nat → Dest)} {b : Batch} {go : Nat → Dest}
    (hf : formOf s i = some f) (hg : goesTo i = some g) (hready : f.Ready s b) (hgo : g (f.start s b) = some go) :
    exec i s = .next (finish (f.start s b) (branchBody i (f.start s b) go)) := by
  unfold goesTo at hg
  split at hg
  case h_7 => cases hg
  all_goals
    cases hg
    cases Option.some.inj hf
  case h_1 w =>
    cases hgo
    exact exec_runI (o := execBra w s) rfl hready (bra_body _ w)
  case h_2 w =>
    obtain ⟨hok, hgo⟩ := Option.ite_none_right_eq_some.mp hgo
    cases hgo
    refine exec_runF (o := execBri w s) rfl hready ?_
    dsimp only
    rw [targetFault_none hok]
    exact bri_body _ w
  case h_3 w =>
    cases hgo
    exact exec_runI (o := execLoop w s) rfl hready (loop_body _ w)
  case h_4 w =>
    obtain ⟨hok, hgo⟩ := Option.ite_none_right_eq_some.mp hgo
    cases hgo
    exact exec_runI (o := execCall w s) rfl hready (call_body _ w hok)
  case h_5 w =>
    obtain ⟨⟨hok, hlim⟩, hgo⟩ := Option.ite_none_right_eq_some.mp hgo
    cases hgo
    refine exec_runF (o := execCalli w s) rfl hready ?_
    dsimp only
    rw [targetFault_none hok]
    exact calli_body _ w hlim
  case h_6 w =>
    obtain ⟨hok, hgo⟩ := Option.ite_none_right_eq_some.mp hgo
    cases hgo
    obtain ⟨halign, hwin⟩ := ret_checks hok
    refine exec_runF (o := execRet w s) rfl hready ?_
    dsimp only
    rw [halign, hwin]
    exact ret_body _ w

/-! ### The start of a word -/

theorem holdQuad_crews (s : State) (b : Batch) (sp : Spec) : (holdQuad s b sp).crews = s.crews := by
  unfold holdQuad
  dsimp only
  split <;> rfl

theorem startRegion_crews (s : State) (b : Batch) (rgn : Bool) : (startRegion s b rgn).crews = s.crews := by
  unfold startRegion
  split <;> rfl

/-- What every word's own effect starts from: its batch with its region begun, and the crews as they were. -/
theorem start_eq {s : State} {i : Instr} {f : Form} (b : Batch) (hf : formOf s i = some f) :
    ∃ u, f.start s b = ⟨u, begunBatch b f.sp.rgn, f.act b, f.sp⟩ ∧ u.crews = s.crews := by
  cases formOf_runs s i f hf with
  | f w sp body h => exact ⟨_, rfl, (startRegion_crews ..).trans (holdQuad_crews ..)⟩
  | i w sp body h => exact ⟨_, rfl, startRegion_crews ..⟩
  | p w sp body h hs => exact ⟨_, rfl, startRegion_crews ..⟩

theorem begunBatch_pin (b : Batch) (rgn : Bool) : (begunBatch b rgn).pin = b.pin := by
  unfold begunBatch; split <;> rfl

theorem endWait_begunBatch (s : State) (b : Batch) (rgn : Bool) : endWait s (begunBatch b rgn) = endWait s b := by
  unfold begunBatch; split <;> rfl

theorem ownsTile_begunBatch {s u : State} (h : u.crews = s.crews) (b : Batch) (rgn : Bool) :
    ownsTile u (begunBatch b rgn) = ownsTile s b := by
  unfold ownsTile crewD findCrew
  rw [begunBatch_crew, begunBatch_id, h]

/-! ### XLANE_DIVERGE (R112, R212) -/

/-- A parting that is forbidden is the trap, before anything of it is done. -/
theorem branchTo_forbidden {x : Exec} {go : Nat → Dest} (first : State → State) (onPart : State → Nat → Dest → State)
    (hd : Diverges x go) (hh : x.b.pin.isSome = true ∨ ownsTile x.s x.b = true) :
    branchTo x first go onPart = .trap x.s (wordTrap x .xlaneDiverge) := by
  unfold branchTo
  exact if_pos ⟨(diverges_iff x go).mp hd, hh⟩

/-- Settles O37: the parting is refused as the first thing that the word's own effect does. -/
theorem divergenceTraps : Obligations.DivergenceTraps := by
  unfold Obligations.DivergenceTraps
  intro s i f g b go hf hg hready hgo hd hh
  rw [exec_branch hf hg hready hgo]
  obtain ⟨u, hx, hcrews⟩ := start_eq b hf
  rw [hx] at hd ⊢
  have hh' : (begunBatch b f.sp.rgn).pin.isSome = true ∨ ownsTile u (begunBatch b f.sp.rgn) = true := by
    rw [begunBatch_pin, ownsTile_begunBatch hcrews]
    exact hh
  unfold branchBody
  rw [branchTo_forbidden _ _ hd hh']
  have hwait := endWait_begunBatch u b f.sp.rgn
  have hid := begunBatch_id b f.sp.rgn
  have hpc := begunBatch_pc b f.sp.rgn
  show Host.Outcome.next (raise (endWait u (begunBatch b f.sp.rgn)) (begunBatch b f.sp.rgn).id
    { cause := .xlaneDiverge, rpc := (begunBatch b f.sp.rgn).pc, word := f.sp.word }) = _
  rw [hwait, hid, hpc]

end Sys2Proof.Machine
end

section
/-! SUPPORT. A branch parts its batch (R111): each part goes on by itself, and nothing else of the machine changes but what retiring words
count. -/
namespace Sys2Proof.Machine
open Sys2Proof

/-! ### What changes beside the batches of a word -/

/-- From `s` to `t` only the batches of these ids have changed, new ones have come, and what retiring words count; where no region closes
(`closes` false), the crews are as they were but for their counters and flags. -/
structure Frame (closes : Bool) (ids : List Nat) (s t : State) : Prop where
  members : ∀ d ∈ s.batches, d.id ∉ ids → d ∈ t.batches
  crews : closes = false → CrewsAs Crew.bare s t
  rest : t = { s with
    batches := t.batches, crews := t.crews, monitors := t.monitors, upsets := t.upsets, ivCopy := t.ivCopy, nextId := t.nextId }

theorem Frame.refl (closes : Bool) (ids : List Nat) (s : State) : Frame closes ids s s := ⟨fun _ h _ => h, fun _ => rfl, rfl⟩

theorem Frame.trans {closes : Bool} {ids : List Nat} {s t u : State} (h : Frame closes ids s t) (k : Frame closes ids t u) :
    Frame closes ids s u where
  members d hd hid := k.members d (h.members d hd hid) hid
  crews hc := (h.crews hc).trans (k.crews hc)
  rest := by
    have h1 := h.rest
    have h2 := k.rest
    rw [h2, h1]

theorem Frame.mono {closes : Bool} {ids js : List Nat} {s t : State} (h : Frame closes ids s t) (hsub : ids ⊆ js) :
    Frame closes js s t :=
  ⟨fun d hd hid => h.members d hd fun hm => hid (hsub hm), h.crews, h.rest⟩

/-- Batches of other ids are kept by a word that changes the batch of one id. -/
theorem mem_modBatch {s : State} {id : Nat} {f : Batch → Batch} {d : Batch} (hd : d ∈ s.batches) (hne : d.id ≠ id) :
    d ∈ (modBatch s id f).batches := List.mem_map.mpr ⟨d, hd, if_neg hne⟩

/-! ### One batch that goes on -/

/-- The batch of one id has gone on from `s` to `t`, as `R` says, and nothing else. -/
structure Step (closes : Bool) (R : Batch → Batch → Prop) (id : Nat) (s t : State) : Prop where
  frame : Frame closes [id] s t
  others : ∀ j, j ≠ id → findBatch t j = findBatch s j
  found : ∀ b, findBatch s id = some b → ∃ c, findBatch t id = some c ∧ R b c

theorem Step.refl (closes : Bool) (id : Nat) (s : State) : Step closes (fun b c => c = b) id s s :=
  ⟨Frame.refl .., fun _ _ => rfl, fun b hb => ⟨b, hb, rfl⟩⟩

theorem Step.trans {closes : Bool} {Q R : Batch → Batch → Prop} {id : Nat} {s t u : State} (h : Step closes Q id s t)
    (k : Step closes R id t u) : Step closes (fun b d => ∃ c, Q b c ∧ R c d) id s u where
  frame := h.frame.trans k.frame
  others j hj := (k.others j hj).trans (h.others j hj)
  found b hb := by
    obtain ⟨c, hc, hq⟩ := h.found b hb
    obtain ⟨d, hd, hr⟩ := k.found c hc
    exact ⟨d, hd, c, hq, hr⟩

theorem Step.imp {closes : Bool} {Q R : Batch → Batch → Prop} {id : Nat} {s t : State} (h : Step closes Q id s t)
    (hR : ∀ b c, Q b c → R b c) : Step closes R id s t :=
  ⟨h.frame, h.others, fun b hb => let ⟨c, hc, hq⟩ := h.found b hb; ⟨c, hc, hR b c hq⟩⟩

/-- A step from what is known of a word of one batch (`OnlyWord`, `CrewsAs`). -/
theorem Step.of_onlyWord {closes : Bool} {R : Batch → Batch → Prop} {id : Nat} {s t : State} (h : OnlyWord s t id)
    (hm : ∀ d ∈ s.batches, d.id ≠ id → d ∈ t.batches) (hc : closes = false → CrewsAs Crew.bare s t)
    (hf : ∀ b, findBatch s id = some b → ∃ c, findBatch t id = some c ∧ R b c) : Step closes R id s t where
  frame := ⟨fun d hd hid => hm d hd fun h => hid (List.mem_singleton.mpr h), hc, by
    have h1 := h.rest
    rw [h1]⟩
  others := h.others
  found := hf

theorem Step.modBatch (closes : Bool) (s : State) (id : Nat) (f : Batch → Batch) (hf : ∀ b, (f b).id = b.id) :
    Step closes (fun b c => c = f b) id s (modBatch s id f) :=
  Step.of_onlyWord (OnlyWord.modBatch s id f hf) (fun _ hd hne => mem_modBatch hd hne) (fun _ => CrewsAs.of_eq rfl)
    fun b hb => ⟨f b, by rw [findBatch_modBatch s id f hf, hb]; rfl, rfl⟩

/-! ### The members of the list through the parts of a word -/

theorem mem_storeReg {s : State} {b : Batch} {i : Nat} {v : RegVal} {d : Batch} (hd : d ∈ s.batches) (hne : d.id ≠ b.id) :
    d ∈ (storeReg s b i v).batches := by
  unfold storeReg
  split
  · exact mem_modBatch hd hne
  · split
    · exact mem_modBatch hd hne
    · exact mem_modBatch hd hne

theorem mem_putReg {s : State} {id : Nat} {act : List Nat} {i : Nat} {v : RegVal} {d : Batch} (hd : d ∈ s.batches)
    (hne : d.id ≠ id) : d ∈ (putReg s id act i v).batches := by
  cases hb : findBatch s id with
  | none => unfold putReg; rw [hb]; exact hd
  | some b =>
    obtain rfl := findBatch_id hb
    obtain ⟨s2, old, he, h2⟩ := putReg_store s act i v b hb
    rw [he]
    exact mem_storeReg (h2 ▸ hd) hne

theorem mem_putRegs {id : Nat} {act : List Nat} {d : Batch} (hne : d.id ≠ id) (vs : List (Nat × RegVal)) :
    ∀ s : State, d ∈ s.batches → d ∈ (putRegs s id act vs).batches := by
  induction vs with
  | nil => exact fun _ hd => hd
  | cons p ps ih => exact fun s hd => ih (putReg s id act p.1 p.2) (mem_putReg hd hne)

theorem mem_closeRegion {s : State} {id : Nat} {d : Batch} (hd : d ∈ s.batches) (hne : d.id ≠ id) :
    d ∈ (closeRegion s id).batches := by
  have h : (commitTiles s id).batches = s.batches := by
    unfold commitTiles commitUpsets
    split
    · rfl
    · dsimp only
      split <;> rfl
  exact mem_modBatch (h ▸ hd) hne

theorem mem_retire {s : State} {id : Nat} (sp : Spec) {d : Batch} (hd : d ∈ s.batches) (hne : d.id ≠ id) :
    d ∈ (retire s id sp).batches := by
  have h : d ∈ (if sp.closes then closeRegion s id else s).batches := by
    split
    · exact mem_closeRegion hd hne
    · exact hd
  unfold retire
  revert h
  generalize (if sp.closes then closeRegion s id else s) = u
  intro h
  dsimp only
  split
  · exact h
  · split
    · exact mem_modBatch h hne
    · exact h

theorem bare_counters (c : Crew) (k : List (Nat × Nat)) : Crew.bare { c with counters := k } = Crew.bare c := rfl

/-! ### Results, and the end of a word -/

/-- Only the lines of registers and the forwarding window of a batch have changed. -/
def Written (b c : Batch) : Prop := c = { b with regs := c.regs, kregs := c.kregs, xregs := c.xregs, window := c.window }

/-- These results have been written to the batch in these lanes: each register of another name is as it was, and each of these that the
batch has holds its value, which no entry of the window hides. -/
structure Writes (act : List Nat) (vs : List (Nat × RegVal)) (b c : Batch) : Prop where
  written : Written b c
  holds : ∀ i, Holds c i ↔ Holds b i
  spares : ∀ i, i ∉ vs.map (·.1) → ∀ u v, bankReg u c i = bankReg v b i
  clear : ∀ i, windowReg b.window i = none → windowReg c.window i = none
  bears : ∀ p ∈ vs, Holds b p.1 → windowReg c.window p.1 = none ∧ ∀ l ∈ act, l < 32 → Stands c p.1 l (laneVal p.2 l)

theorem Writes.none (act : List Nat) (b : Batch) : Writes act [] b b :=
  ⟨rfl, fun _ => Iff.rfl, fun _ _ _ _ => rfl, fun _ h => h, nofun⟩

theorem kvGetFirst_none (e : List (Nat × Option RegVal)) (i : Nat) (h : i ∉ e.map (·.1)) : windowReg.kvGetFirst e i = none := by
  induction e with
  | nil => rfl
  | cons p e ih =>
    obtain ⟨hne, he⟩ := not_or.mp (mt List.mem_cons.mpr h)
    simp only [windowReg.kvGetFirst]
    rw [if_neg fun hp => hne hp.symm]
    exact ih he

/-- What a window does not hide, its latest entries do not hide. -/
theorem windowReg_take_none (n i : Nat) : ∀ w : List WinEntry, windowReg w i = none → windowReg (w.take n) i = none := by
  induction n with
  | zero => exact fun _ _ => rfl
  | succ n ih =>
    intro w h
    cases w with
    | nil => rfl
    | cons e w =>
      simp only [windowReg] at h
      simp only [List.take_succ_cons, windowReg]
      cases he : windowReg.kvGetFirst e i with
      | none =>
        rw [he] at h
        exact ih w h
      | some v =>
        rw [he] at h
        exact h

/-- A word's results reach their registers and its entry the window. -/
theorem Step.putRegs_pushWindow (closes : Bool) {s : State} {id : Nat} {act : List Nat} {vs : List (Nat × RegVal)}
    (ht : ∀ p ∈ vs, ∀ i, p.2 ≠ .t i) (hnd : (vs.map (·.1)).Nodup)
    (hact : ∀ b, findBatch s id = some b → ∀ l ∈ act, l ∈ liveLanes b) :
    Step closes (Writes act vs) id s (pushWindow (putRegs s id act vs) id (vs.map fun p => (p.1, none))) := by
  refine Step.of_onlyWord ((OnlyWord.putRegs ..).trans (OnlyWord.pushWindow ..))
    (fun d hd hne => mem_modBatch (mem_putRegs hne vs s hd) hne)
    (fun _ => (CrewsAs.putRegs bare_counters ..).trans (CrewsAs.of_eq rfl)) fun b hb => ?_
  obtain ⟨c, hc, hsame, hkept, hval, hholds⟩ := putRegs_spec vs id act s b hb (hact b hb) ht
  have hw : c.window = b.window := by rw [hsame]
  have hnamed : ∀ i, i ∈ vs.map (·.1) → windowReg (((vs.map fun p => (p.1, none)) :: c.window).take 8) i = none := fun i hi =>
    windowReg_take (kvGetFirst_map_none vs i (List.mem_map.mp hi))
  refine ⟨_, pushWindow_find _ hc, ?_, hholds, fun i hi u v => ?_, fun i hi => ?_, fun p hp hh => ⟨?_, fun l hl h32 u => ?_⟩⟩
  · unfold Written
    rw [hsame]
  · exact hkept i fun p hp e => hi (e ▸ List.mem_map_of_mem hp)
  · by_cases hin : i ∈ vs.map (·.1)
    · exact hnamed i hin
    · have hnone := kvGetFirst_none (vs.map fun p => (p.1, (Option.none : Option RegVal))) i (by rwa [List.map_map])
      simp only [List.take_succ_cons, windowReg, hnone]
      exact windowReg_take_none 7 i _ (hw ▸ hi)
  · exact hnamed p.1 (List.mem_map_of_mem hp)
  · obtain ⟨hne, hv⟩ := hval hnd p hp hh
    exact ⟨hne, hv l hl h32⟩

/-- A word without results only enters the window. -/
theorem Step.pushWindow_nil (closes : Bool) (s : State) (id : Nat) (act : List Nat) :
    Step closes (Writes act []) id s (pushWindow s id []) :=
  (Step.putRegs_pushWindow closes (s := s) (id := id) (act := []) (vs := []) nofun List.nodup_nil fun _ _ => nofun).imp
    fun _ _ h => ⟨h.written, h.holds, h.spares, h.clear, nofun⟩

/-- The end of a word leaves its batch all but its park and the start of its next region. -/
def Retired (b c : Batch) : Prop := c = { b with
  parked := c.parked, parkedAt := c.parkedAt, newRegion := c.newRegion, gatherAt := c.gatherAt, owed := c.owed, storesOwed := c.storesOwed }

theorem Step.retire (s : State) (id : Nat) (sp : Spec) : Step sp.closes Retired id s (retire s id sp) :=
  Step.of_onlyWord (OnlyWord.retire s id sp) (fun _ hd hne => mem_retire sp hd hne) (CrewsAs.retire s id sp) fun b hb =>
    let ⟨c, hc, hs, _⟩ := retire_find s id sp b hb
    ⟨c, hc, hs⟩

/-- The wait of a batch ends, and the word is counted, whoever goes on from there. -/
theorem Frame.endWait (closes : Bool) (ids : List Nat) (s : State) (crew : Nat) (b : Batch) :
    Frame closes ids s (endWait (perfAdd s crew 0 1) b) := by
  have hb : (Machine.endWait (perfAdd s crew 0 1) b).batches = s.batches := (endWait_batches ..).1
  refine ⟨fun d hd _ => hb ▸ hd,
    fun _ => (CrewsAs.perfAdd bare_counters s crew 0 1).trans (CrewsAs.endWait bare_counters _ b), ?_⟩
  have h := ((OnlyWord.perfAdd s 0 crew 0 1).trans (OnlyWord.endWait _ 0 b)).rest
  rw [h]

/-! ### Several batches, one after the other -/

/-- Every batch of a list of different ones goes on by its own step. -/
theorem steps_frame {β : Type} {closes : Bool} {op : State → Nat → β → State} {R : β → Batch → Batch → Prop}
    (hstep : ∀ s i d, Step closes (R d) i s (op s i d)) (ps : List (Nat × β)) :
    ∀ s : State, Frame closes (ps.map (·.1)) s (ps.foldl (fun s p => op s p.1 p.2) s) ∧
      ∀ j, j ∉ ps.map (·.1) → findBatch (ps.foldl (fun s p => op s p.1 p.2) s) j = findBatch s j := by
  induction ps with
  | nil => exact fun s => ⟨Frame.refl .., fun _ _ => rfl⟩
  | cons p ps ih =>
    intro s
    obtain ⟨hf, hj⟩ := ih (op s p.1 p.2)
    have h := hstep s p.1 p.2
    refine ⟨(h.frame.mono (by simp)).trans (hf.mono (List.subset_cons_self ..)), fun j hne => ?_⟩
    obtain ⟨hne1, hne2⟩ := not_or.mp (mt List.mem_cons.mpr hne)
    exact (hj j hne2).trans (h.others j hne1)

theorem steps_found {β : Type} {closes : Bool} {op : State → Nat → β → State} {R : β → Batch → Batch → Prop}
    (hstep : ∀ s i d, Step closes (R d) i s (op s i d)) (ps : List (Nat × β)) (hnd : (ps.map (·.1)).Nodup) :
    ∀ s : State, ∀ p ∈ ps, ∀ b, findBatch s p.1 = some b →
      ∃ c, findBatch (ps.foldl (fun s p => op s p.1 p.2) s) p.1 = some c ∧ R p.2 b c := by
  induction ps with
  | nil => exact fun _ _ hp => absurd hp List.not_mem_nil
  | cons q ps ih =>
    intro s p hp b hb
    obtain ⟨hq, hnd⟩ := List.nodup_cons.mp hnd
    rcases List.mem_cons.mp hp with rfl | hp
    · obtain ⟨c, hc, hr⟩ := (hstep s p.1 p.2).found b hb
      exact ⟨c, ((steps_frame hstep ps _).2 p.1 hq).trans hc, hr⟩
    · refine ih hnd (op s q.1 q.2) p hp b (((hstep s q.1 q.2).others p.1 fun e => hq ?_).trans hb)
      exact List.mem_map.mpr ⟨p, hp, e⟩

/-! ### The parts of a batch -/

theorem le_foldl_max (l : List Nat) : ∀ n, n ≤ l.foldl max n ∧ ∀ m ∈ l, m ≤ l.foldl max n := by
  induction l with
  | nil => exact fun n => ⟨le_rfl, nofun⟩
  | cons a l ih =>
    intro n
    obtain ⟨h1, h2⟩ := ih (max n a)
    refine ⟨(le_max_left n a).trans h1, fun m hm => ?_⟩
    rcases List.mem_cons.mp hm with rfl | hm
    · exact (le_max_right n m).trans h1
    · exact h2 m hm

/-- A new batch's number is above those of all batches. -/
theorem lt_freshBatch {s : State} {d : Batch} (hd : d ∈ s.batches) : d.id < (freshBatch s).1 :=
  (le_foldl_max (s.batches.map (·.id + 1)) s.nextId).2 _ (List.mem_map_of_mem (f := fun c : Batch => c.id + 1) hd)

theorem findBatch_lt_freshBatch {s : State} {id : Nat} {b : Batch} (h : findBatch s id = some b) : id < (freshBatch s).1 :=
  findBatch_id h ▸ lt_freshBatch (List.mem_of_find?_eq_some h)

/-- One part more of the batch `b`, as a new batch. -/
def addPart (b : Batch) (r : State × List Nat) (p : List Nat × (Batch → Batch)) : State × List Nat :=
  let (id, s) := freshBatch r.1
  ({ s with batches := s.batches ++ [p.2 (partOf b id p.1)] }, r.2 ++ [id])

/-- The parts after the first are new batches under new numbers, and all that was there stays. -/
theorem addParts_spec (closes : Bool) (b : Batch) (ps : List (List Nat × (Batch → Batch))) (hp : ∀ p ∈ ps, ∀ c, (p.2 c).id = c.id) :
    ∀ r : State × List Nat, ∃ ids, (ps.foldl (addPart b) r).2 = r.2 ++ ids ∧ ids.length = ps.length ∧ ids.Nodup ∧
      (∀ i ∈ ids, ∀ d ∈ r.1.batches, d.id < i) ∧ Frame closes [] r.1 (ps.foldl (addPart b) r).1 ∧
      (∀ j c, findBatch r.1 j = some c → findBatch (ps.foldl (addPart b) r).1 j = some c) ∧
      ∀ q ∈ ids.zip ps, findBatch (ps.foldl (addPart b) r).1 q.1 = some (q.2.2 (partOf b q.1 q.2.1)) := by
  induction ps with
  | nil => exact fun r => ⟨[], (List.append_nil _).symm, rfl, List.nodup_nil, nofun, Frame.refl .., fun _ _ h => h, nofun⟩
  | cons p ps ih =>
    intro r
    obtain ⟨ids, hids, hlen, hnd, hlt, hframe, hkept, hfound⟩ := ih (fun q hq => hp q (List.mem_cons_of_mem _ hq)) (addPart b r p)
    have hnew : (p.2 (partOf b (freshBatch r.1).1 p.1)).id = (freshBatch r.1).1 := hp p List.mem_cons_self _
    have hbatches : (addPart b r p).1.batches = r.1.batches ++ [p.2 (partOf b (freshBatch r.1).1 p.1)] := rfl
    have hstay : ∀ j c, findBatch r.1 j = some c → findBatch (addPart b r p).1 j = some c := fun j c h => by
      unfold findBatch
      rw [hbatches, List.find?_append, show r.1.batches.find? _ = some c from h]
      rfl
    have hself : findBatch (addPart b r p).1 (freshBatch r.1).1 = some (p.2 (partOf b (freshBatch r.1).1 p.1)) := by
      have hnone : findBatch r.1 (freshBatch r.1).1 = none := by
        by_contra h
        obtain ⟨c, hc⟩ := Option.ne_none_iff_exists'.mp h
        exact lt_irrefl _ (findBatch_lt_freshBatch hc)
      unfold findBatch
      rw [hbatches, List.find?_append, show r.1.batches.find? _ = none from hnone, List.find?_singleton]
      simp [hnew]
    refine ⟨(freshBatch r.1).1 :: ids, ?_, ?_, ?_, ?_, ?_, fun j c h => hkept j c (hstay j c h), ?_⟩
    · rw [List.foldl_cons, hids]
      exact List.append_assoc ..
    · simp [hlen]
    · refine List.nodup_cons.mpr ⟨fun hm => ?_, hnd⟩
      have := hlt _ hm (p.2 (partOf b (freshBatch r.1).1 p.1)) (by simp [hbatches])
      exact lt_irrefl _ (hnew ▸ this)
    · intro i hi d hd
      rcases List.mem_cons.mp hi with rfl | hi
      · exact lt_freshBatch hd
      · exact hlt i hi d (by simp [hbatches, hd])
    · have h : Frame closes [] r.1 (addPart b r p).1 := ⟨fun d hd _ => hbatches ▸ List.mem_append_left _ hd, fun _ => rfl, rfl⟩
      exact h.trans hframe
    · intro q hq
      rcases List.mem_cons.mp hq with rfl | hq
      · exact hkept _ _ hself
      · exact hfound q hq

/-- A change of the batch of an id is what it does to batches of that id. -/
theorem modBatch_congr (s : State) (id : Nat) {f g : Batch → Batch} (h : ∀ c, c.id = id → f c = g c) :
    modBatch s id f = modBatch s id g := by
  unfold modBatch
  congr 1
  refine List.map_congr_left fun c _ => ?_
  split
  · next hc => exact h c hc
  · rfl

theorem spreadScalars_frame (closes : Bool) (ids : List Nat) (s : State) (b : Batch) (parts : List (List Nat)) :
    Frame closes ids s (spreadScalars s b parts) ∧ (spreadScalars s b parts).batches = s.batches := by
  unfold spreadScalars
  split
  · exact ⟨Frame.refl .., rfl⟩
  · exact ⟨⟨fun _ hd _ => hd, fun _ => rfl, rfl⟩, rfl⟩

/-- A batch that is divided: the first part keeps its number, the others are new batches, and no other batch changes. -/
theorem splitBatch_spec (closes : Bool) {s : State} {b : Batch} {parts : List (List Nat × (Batch → Batch))}
    (hb : findBatch s b.id = some b) (hp : ∀ p ∈ parts, ∀ c, (p.2 c).id = c.id) (hne : parts ≠ []) :
    ∃ ids, (splitBatch s b parts).2 = b.id :: ids ∧ (b.id :: ids).length = parts.length ∧ (b.id :: ids).Nodup ∧
      (∀ i ∈ ids, ∀ d ∈ s.batches, d.id ≠ i) ∧ Frame closes [b.id] s (splitBatch s b parts).1 ∧
      ∀ q ∈ (b.id :: ids).zip parts, findBatch (splitBatch s b parts).1 q.1 = some (q.2.2 (partOf b q.1 q.2.1)) := by
  obtain ⟨p, ps, rfl⟩ := List.exists_cons_of_ne_nil hne
  -- the scalar table, then the part that keeps the number, then the others
  obtain ⟨u, hu, hframe1, hbatches⟩ : ∃ u, u = (if ps.isEmpty then s else spreadScalars s b (p.1 :: ps.map (·.1))) ∧
      Frame closes [b.id] s u ∧ u.batches = s.batches := by
    refine ⟨_, rfl, ?_⟩
    split
    · exact ⟨Frame.refl .., rfl⟩
    · exact spreadScalars_frame ..
  have hid : ∀ c, (p.2 (partOf c c.id p.1)).id = c.id := fun c => hp p List.mem_cons_self _
  have hstep := Step.modBatch closes u b.id (fun c => p.2 (partOf c c.id p.1)) hid
  have hsame : modBatch u b.id (fun c => p.2 (partOf c b.id p.1)) = modBatch u b.id (fun c => p.2 (partOf c c.id p.1)) :=
    modBatch_congr u b.id fun c hc => by rw [hc]
  have hbu : findBatch u b.id = some b := by rw [findBatch, hbatches]; exact hb
  obtain ⟨ids, hids, hlen, hnd, hlt, hframe, hkept, hfound⟩ := addParts_spec closes b ps
    (fun q hq => hp q (List.mem_cons_of_mem _ hq)) (modBatch u b.id (fun c => p.2 (partOf c c.id p.1)), [b.id])
  have hsplit : splitBatch s b (p :: ps) = ps.foldl (addPart b) (modBatch u b.id (fun c => p.2 (partOf c c.id p.1)), [b.id]) := by
    rw [← hsame, hu]
    rfl
  have hkeeps : ∀ d ∈ s.batches, ∃ e ∈ (modBatch u b.id (fun c => p.2 (partOf c c.id p.1))).batches, e.id = d.id := fun d hd =>
    ⟨_, List.mem_map_of_mem (hbatches ▸ hd), by
      split
      · exact hid d
      · rfl⟩
  have hfresh : ∀ i ∈ ids, ∀ d ∈ s.batches, d.id < i := fun i hi d hd =>
    let ⟨e, he, hed⟩ := hkeeps d hd
    hed ▸ hlt i hi e he
  rw [hsplit]
  refine ⟨ids, hids, by simp [hlen], List.nodup_cons.mpr ⟨fun hm => ?_, hnd⟩, fun i hi d hd => (hfresh i hi d hd).ne,
    (hframe1.trans hstep.frame).trans (hframe.mono (List.nil_subset _)), fun q hq => ?_⟩
  · exact lt_irrefl _ (hfresh _ hm b (List.mem_of_find?_eq_some hb))
  · rcases List.mem_cons.mp hq with rfl | hq
    · obtain ⟨c, hc, rfl⟩ := hstep.found b hbu
      exact hkept _ _ hc
    · exact hfound q hq

/-! ### Where the lanes land -/

/-- Stores that its batch held have been performed, and nothing else of it has changed. -/
def Unheld (b c : Batch) : Prop := c = { b with stores := c.stores, storesOwed := c.storesOwed }

/-- The part of the batch `b` that goes with the lane `l` of the word's batch, as the batch `i`. -/
def partAt (x : Exec) (go : Nat → Dest) (l : Nat) (b : Batch) (i : Nat) : Batch :=
  { partOf b i ((liveLanes x.b).filter fun k => go k = go l) with pc := (go l).2.1, wb := (go l).2.2, block := none }

theorem partedFrom_find {x : Exec} (go : Nat → Dest) (hb : findBatch x.s x.b.id = some x.b) :
    ∃ b, findBatch (partedFrom x go) x.b.id = some b ∧ Unheld x.b b := by
  unfold partedFrom
  split
  · exact performStores_find _ hb
  · exact ⟨x.b, hb, rfl⟩

theorem mem_partedFrom {x : Exec} (go : Nat → Dest) {d : Batch} (hd : d ∈ x.s.batches) (hne : d.id ≠ x.b.id) :
    d ∈ (partedFrom x go).batches := by
  unfold partedFrom
  split
  · unfold performStores performThose
    dsimp only
    split
    · exact hd
    · refine mem_modBatch ?_ hne
      rw [foldl_batches fun s (p : StoreSrc × Nat) => performStore_batches s x.b p.1]
      exact hd
  · exact hd

/-- What a branch leaves of the lane `l` in the state `t`: the batch `i` that it is in has come from the word's batch by the word's own
part `F` before the batch parts, the parting, and the word's own part `P` for its destination. -/
structure Lands (x : Exec) (go : Nat → Dest) (F : Batch → Batch → Prop) (P : Dest → Batch → Batch → Prop) (t : State) (l i : Nat)
    (b b' c c' : Batch) : Prop where
  unheld : Unheld x.b b
  first : F b b'
  part : P (go l) (partAt x go l b' i) c
  retired : Retired c c'
  now : findBatch t i = some c'
  whole : ¬ Diverges x go → i = x.b.id

theorem mem_zip_of_mem_right {α β : Type} {l : List α} {m : List β} (h : l.length = m.length) {b : β} (hb : b ∈ m) :
    ∃ a, (a, b) ∈ l.zip m := by
  obtain ⟨n, hn, rfl⟩ := List.mem_iff_getElem.mp hb
  have hz : n < (l.zip m).length := by simp [h, hn]
  refine ⟨l[n], ?_⟩
  have := List.getElem_mem hz
  rwa [List.getElem_zip] at this

/-- The places to which the live lanes go. -/
def branchDests (x : Exec) (go : Nat → Dest) : List Dest := ((liveLanes x.b).map go).eraseDups

/-- The part of a batch for one place. -/
def branchPartAt (x : Exec) (go : Nat → Dest) (d : Dest) : List Nat × (Batch → Batch) :=
  ((liveLanes x.b).filter fun l => go l = d, fun c => { c with pc := d.2.1, wb := d.2.2, block := none })

/-- The state in which the parts of a branch stand, before the word's own part for each. -/
def branchSplit (x : Exec) (go : Nat → Dest) (s : State) (b : Batch) : State × List Nat :=
  splitBatch s b ((branchDests x go).map (branchPartAt x go))

/-- A branch that may part its batch: the parting, the word's own part for each of its parts, and the ends of those. -/
theorem finish_branchTo {x : Exec} {go : Nat → Dest} {first : State → State} (onPart : State → Nat → Dest → State) {b : Batch}
    (hok : ¬ (Diverges x go ∧ (x.b.pin.isSome = true ∨ ownsTile x.s x.b = true)))
    (hb : findBatch (first (partedFrom x go)) x.b.id = some b) :
    finish x (branchTo x first go onPart) =
      (branchSplit x go (first (partedFrom x go)) b).2.foldl (fun s i => retire s i x.sp)
        (endWait (perfAdd (((branchSplit x go (first (partedFrom x go)) b).2.zip (branchDests x go)).foldl
          (fun s p => onPart s p.1 p.2) (branchSplit x go (first (partedFrom x go)) b).1) x.b.crew 0 1) x.b) := by
  rw [diverges_iff] at hok
  unfold branchTo
  dsimp only
  unfold partedFrom at hb ⊢
  rw [if_neg hok, hb]
  rfl

theorem mem_branchDests {x : Exec} (go : Nat → Dest) {l : Nat} (hl : l ∈ liveLanes x.b) : go l ∈ branchDests x go :=
  List.mem_eraseDups.mpr (List.mem_map_of_mem hl)

/-- Where the lanes do not diverge there is one part, and it keeps the batch's number. -/
theorem part_eq_of_not_diverges {x : Exec} {go : Nat → Dest} (h : ¬ Diverges x go) {i j : Nat} {ids : List Nat} {d : Dest}
    (hlen : (j :: ids).length = (branchDests x go).length) (hm : (i, d) ∈ (j :: ids).zip (branchDests x go)) : i = j := by
  rw [diverges_iff, Nat.not_lt] at h
  have hids : ids = [] := List.length_eq_zero_iff.mp (by
    have : (branchDests x go).length ≤ 1 := h
    simp only [List.length_cons] at hlen
    omega)
  subst hids
  exact List.mem_singleton.mp (List.of_mem_zip hm).1

theorem branch_lands {x : Exec} {go : Nat → Dest} {first : State → State} {onPart : State → Nat → Dest → State}
    {F : Batch → Batch → Prop} {P : Dest → Batch → Batch → Prop} (hb : findBatch x.s x.b.id = some x.b) (hlive : liveLanes x.b ≠ [])
    (hok : ¬ (Diverges x go ∧ (x.b.pin.isSome = true ∨ ownsTile x.s x.b = true)))
    (hF : Step x.sp.closes F x.b.id (partedFrom x go) (first (partedFrom x go)))
    (hP : ∀ s i d, Step x.sp.closes (P d) i s (onPart s i d)) :
    Frame x.sp.closes [x.b.id] (partedFrom x go) (finish x (branchTo x first go onPart)) ∧
      ∀ l ∈ liveLanes x.b, ∃ i b b' c c', Lands x go F P (finish x (branchTo x first go onPart)) l i b b' c c' := by
  obtain ⟨b, hbs, hunheld⟩ := partedFrom_find go hb
  obtain ⟨b', hb', hfirst⟩ := hF.found b hbs
  have hid : b'.id = x.b.id := findBatch_id hb'
  have hne : (branchDests x go).map (branchPartAt x go) ≠ [] := by
    obtain ⟨l, hl⟩ := List.exists_mem_of_ne_nil _ hlive
    exact List.ne_nil_of_mem (List.mem_map_of_mem (mem_branchDests go hl))
  have hpid : ∀ p ∈ (branchDests x go).map (branchPartAt x go), ∀ c, (p.2 c).id = c.id := by
    intro p hp c
    obtain ⟨d, -, rfl⟩ := List.mem_map.mp hp
    rfl
  obtain ⟨ids, hids, hlen, hnd, hfresh, hframe1, hfound1⟩ :=
    splitBatch_spec x.sp.closes (hid ▸ hb' : findBatch (first (partedFrom x go)) b'.id = some b') hpid hne
  rw [List.length_map] at hlen
  rw [finish_branchTo onPart hok hb']
  unfold branchSplit
  rw [hids]
  rw [hid] at hids hlen hnd hframe1 hfound1 ⊢
  revert hframe1 hfound1
  generalize (splitBatch (first (partedFrom x go)) b' ((branchDests x go).map (branchPartAt x go))).1 = u
  intro hframe1 hfound1
  -- the word's own part for each of the parts, then their ends
  obtain ⟨ps, hps⟩ : ∃ ps, ps = (x.b.id :: ids).zip (branchDests x go) := ⟨_, rfl⟩
  have hkeys : ps.map (·.1) = x.b.id :: ids := hps ▸ List.map_fst_zip hlen.le
  have hretire : ∀ s, (x.b.id :: ids).foldl (fun s i => retire s i x.sp) s = ps.foldl (fun s p => retire s p.1 x.sp) s := fun s => by
    rw [← hkeys, List.foldl_map]
  rw [hretire, ← hps]
  have hpart := steps_frame hP ps u
  have hend := steps_frame (op := fun s i (_ : Dest) => retire s i x.sp) (R := fun _ => Retired) (fun s i _ => Step.retire s i x.sp) ps
    (endWait (perfAdd (ps.foldl (fun s p => onPart s p.1 p.2) u) x.b.crew 0 1) x.b)
  rw [hkeys] at hpart hend
  constructor
  · have h1 := hF.frame.trans hframe1
    have h2 := (hpart.1.trans (Frame.endWait x.sp.closes _ _ x.b.crew x.b)).trans hend.1
    have h := (h1.mono (by simp)).trans h2
    refine ⟨fun d hd hne => h2.members d (h1.members d hd hne) fun hm => ?_, h.crews, h.rest⟩
    rcases List.mem_cons.mp hm with he | hm
    · exact hne (List.mem_singleton.mpr he)
    · exact hfresh _ hm d (hF.frame.members d hd hne) rfl
  · intro l hl
    obtain ⟨i, hi⟩ := mem_zip_of_mem_right hlen (mem_branchDests go hl)
    have hnow : findBatch u i = some (partAt x go l b' i) := hfound1 (i, branchPartAt x go (go l)) (by
      rw [List.zip_map_right]
      exact List.mem_map_of_mem (f := Prod.map id (branchPartAt x go)) hi)
    obtain ⟨c, hc, hown⟩ := steps_found hP ps (hkeys ▸ hnd) u (i, go l) (hps ▸ hi) _ hnow
    have hcw : findBatch (endWait (perfAdd (ps.foldl (fun s p => onPart s p.1 p.2) u) x.b.crew 0 1) x.b) i = some c := by
      rw [findBatch, (endWait_batches ..).1]
      exact hc
    obtain ⟨c', hc', hret⟩ := steps_found (op := fun s i (_ : Dest) => retire s i x.sp) (R := fun _ => Retired)
      (fun s i _ => Step.retire s i x.sp) ps (hkeys ▸ hnd) _ (i, go l) (hps ▸ hi) c hcw
    exact ⟨i, b, b', c, c', hunheld, hfirst, hown, hret, hc', fun hd => part_eq_of_not_diverges hd hlen hi⟩

end Sys2Proof.Machine
end

section
/-! SUPPORT. The six branch-type words: what each leaves in the batches that its lanes land in (R111 to R116). -/
namespace Sys2Proof.Machine
open Sys2Proof

/-! ### What the words write -/

/-- What a branch-type word writes before its batch parts: LOOP its counter. -/
def firstWrites (i : Instr) (x : Exec) : List (Nat × RegVal) :=
  match i with
  | .loop _ => [(nameOf x .d 0, loopCounter x)]
  | _ => []

/-- The two registers of a call's link, with their values, where the lanes of the destination take the call. -/
def linkWrites (x : Exec) (frame : Nat) (d : Dest) : List (Nat × RegVal) :=
  if d.1 then
    [(d.2.2, .u ((callLink x.b.pc frame).extractLsb' 0 32)), (d.2.2 + 1, .u ((callLink x.b.pc frame).extractLsb' 32 32))]
  else []

/-- What a branch-type word writes in a part of its batch: a call its link. -/
def partWrites (i : Instr) (x : Exec) (d : Dest) : List (Nat × RegVal) :=
  match i with
  | .call w => linkWrites x w.a.toNat d
  | .calli w => linkWrites x (8 * (w.m.toNat % 64)) d
  | _ => []

theorem loopCounter_ne_t (x : Exec) (img : Nat) : loopCounter x ≠ .t img := by
  unfold loopCounter
  split <;> nofun

/-- LOOP's counter after the word is one less in every lane. -/
theorem laneVal_loopCounter (x : Exec) {l : Nat} (h : l < 32) : laneVal (loopCounter x) l = lane x .d 0 l - 1 := by
  unfold loopCounter lane
  cases hv : regOf x .d 0 with
  | u v => rfl
  | a p st => exact sub_add_eq_add_sub ..
  | g ls => exact laneVal_laneList _ _ h
  | t img => exact absurd hv (readReg_ne_t x.s x.b _ img)

/-! ### The steps of the words -/

theorem Unheld.live {b c : Batch} (h : Unheld b c) : liveLanes c = liveLanes b := by
  rw [h]
  rfl

/-- The words that go to places are six. -/
theorem goesTo_words {i : Instr} {g : Exec → Option (Nat → Dest)} (hg : goesTo i = some g) :
    (∃ w, i = .bra w) ∨ (∃ w, i = .bri w) ∨ (∃ w, i = .loop w) ∨ (∃ w, i = .call w) ∨ (∃ w, i = .calli w) ∨ ∃ w, i = .ret w := by
  unfold goesTo at hg
  split at hg
  case h_7 => cases hg
  all_goals simp

theorem stay_step (closes : Bool) (id : Nat) (s : State) (act : Batch → List Nat) :
    Step closes (fun b c => Writes (act b) [] b c) id s s :=
  (Step.refl closes id s).imp fun b c h => by
    subst h
    exact Writes.none _ _

theorem branchFirst_step {i : Instr} {g : Exec → Option (Nat → Dest)} {x : Exec} (go : Nat → Dest) (hg : goesTo i = some g)
    (hb : findBatch x.s x.b.id = some x.b) (hact : ∀ l ∈ x.act, l ∈ liveLanes x.b) :
    Step x.sp.closes (Writes x.act (firstWrites i x)) x.b.id (partedFrom x go) (branchFirst i x (partedFrom x go)) := by
  obtain ⟨w, rfl⟩ | ⟨w, rfl⟩ | ⟨w, rfl⟩ | ⟨w, rfl⟩ | ⟨w, rfl⟩ | ⟨w, rfl⟩ := goesTo_words hg
  case inr.inr.inl =>
    obtain ⟨b, hpb, hunheld⟩ := partedFrom_find go hb
    refine Step.putRegs_pushWindow x.sp.closes (vs := [(nameOf x .d 0, loopCounter x)]) ?_ (List.nodup_singleton _) fun c hc l hl => ?_
    · intro p hp
      rw [List.mem_singleton.mp hp]
      exact loopCounter_ne_t x
    · obtain rfl := Option.some.inj (hpb.symm.trans hc)
      rw [hunheld.live]
      exact hact l hl
  case inr.inr.inr.inl => exact stay_step ..
  case inr.inr.inr.inr.inl => exact stay_step ..
  all_goals exact Step.pushWindow_nil ..

theorem writeLink_step (closes : Bool) (x : Exec) (frame : Nat) (s : State) (id : Nat) (d : Dest) :
    Step closes (fun b c => Writes (liveLanes b) (linkWrites x frame d) b c) id s (writeLink x frame s id d) := by
  unfold writeLink linkWrites
  split
  · next htaken =>
    cases hb : findBatch s id with
    | none => exact ⟨Frame.refl .., fun _ _ => rfl, fun b h => absurd (hb.symm.trans h) nofun⟩
    | some b =>
      have h := Step.putRegs_pushWindow closes (s := s) (id := id) (act := liveLanes b)
        (vs := [(d.2.2, .u ((callLink x.b.pc frame).extractLsb' 0 32)), (d.2.2 + 1, .u ((callLink x.b.pc frame).extractLsb' 32 32))])
        (by simp) (by simp) fun c hc l hl => Option.some.inj (hb.symm.trans hc) ▸ hl
      refine ⟨h.frame, h.others, fun c hc => ?_⟩
      obtain rfl := Option.some.inj (hb.symm.trans hc)
      exact h.found b hb
  · exact (Step.pushWindow_nil closes s id []).imp fun b c h => ⟨h.written, h.holds, h.spares, h.clear, nofun⟩

theorem branchPart_step {i : Instr} {g : Exec → Option (Nat → Dest)} (hg : goesTo i = some g) (x : Exec) (closes : Bool) (s : State)
    (id : Nat) (d : Dest) :
    Step closes (fun b c => Writes (liveLanes b) (partWrites i x d) b c) id s (branchPart i x s id d) := by
  obtain ⟨w, rfl⟩ | ⟨w, rfl⟩ | ⟨w, rfl⟩ | ⟨w, rfl⟩ | ⟨w, rfl⟩ | ⟨w, rfl⟩ := goesTo_words hg
  case inr.inr.inr.inl => exact writeLink_step ..
  case inr.inr.inr.inr.inl => exact writeLink_step ..
  all_goals exact stay_step ..

/-! ### The landing of the six words -/

/-- What a branch-type word leaves of the lane `l`. -/
abbrev BranchLands (i : Instr) (x : Exec) (go : Nat → Dest) : State → Nat → Nat → Batch → Batch → Batch → Batch → Prop :=
  Lands x go (Writes x.act (firstWrites i x)) fun d b c => Writes (liveLanes b) (partWrites i x d) b c

/-- The batch of a word that starts is one that its state finds, with the word's active lanes, some of them, live. -/
theorem start_lives {s : State} {i : Instr} {f : Form} {b : Batch} (hf : formOf s i = some f) (hready : f.Ready s b) :
    findBatch (f.start s b).s (f.start s b).b.id = some (f.start s b).b ∧
      (∀ l ∈ (f.start s b).act, l ∈ liveLanes (f.start s b).b) ∧ liveLanes (f.start s b).b ≠ [] := by
  have hact : ∀ l ∈ (f.start s b).act, l ∈ liveLanes (f.start s b).b := by
    cases formOf_runs s i f hf with
    | f w sp body h => exact fExec_live s b w sp
    | i w sp body h => exact iExec_live s b w sp
    | p w sp body h hs => exact fun l hl => (begunBatch_live b sp.rgn).symm ▸ activeLanes_live b _ l hl
  obtain ⟨l, hl⟩ := List.exists_mem_of_ne_nil _ hready.active
  obtain ⟨u, hx, -⟩ := start_eq b hf
  have hlx : l ∈ (f.start s b).act := by rw [hx]; exact hl
  exact ⟨start_find hf hready.cur, hact, List.ne_nil_of_mem (hact l hlx)⟩

/-- A batch may part where it starts the word as where it stands before. -/
theorem mayPart_start {s : State} {i : Instr} {f : Form} {b : Batch} {go : Nat → Dest} (hf : formOf s i = some f)
    (hok : ¬ (Diverges (f.start s b) go ∧ (b.pin.isSome = true ∨ ownsTile s b = true))) :
    ¬ (Diverges (f.start s b) go ∧ ((f.start s b).b.pin.isSome = true ∨ ownsTile (f.start s b).s (f.start s b).b = true)) := by
  obtain ⟨u, hx, hcrews⟩ := start_eq b hf
  rw [hx] at hok ⊢
  rwa [begunBatch_pin, ownsTile_begunBatch hcrews]

/-- A branch-type word whose checks pass, and that may part its batch, leaves each live lane in a batch that has come from its own. -/
theorem exec_branch_lands {s : State} {i : Instr} {f : Form} {g : Exec → Option (Nat → Dest)} {b : Batch} {go : Nat → Dest}
    (hf : formOf s i = some f) (hg : goesTo i = some g) (hready : f.Ready s b) (hgo : g (f.start s b) = some go)
    (hok : ¬ (Diverges (f.start s b) go ∧ (b.pin.isSome = true ∨ ownsTile s b = true))) :
    ∃ t, exec i s = .next t ∧ Frame (f.start s b).sp.closes [(f.start s b).b.id] (partedFrom (f.start s b) go) t ∧
      ∀ l ∈ liveLanes (f.start s b).b, ∃ j b₁ b₂ c₁ c₂, BranchLands i (f.start s b) go t l j b₁ b₂ c₁ c₂ := by
  obtain ⟨hb, hact, hlive⟩ := start_lives hf hready
  exact ⟨_, exec_branch hf hg hready hgo, branch_lands hb hlive (mayPart_start hf hok) (branchFirst_step go hg hb hact)
    fun s j d => branchPart_step hg _ _ s j d⟩

/-! ### The batch that a lane lands in -/

/-- The parts of a batch that say whose fibres it holds and where it stands. -/
def Batch.place (b : Batch) : (Nat × Nat × Nat) × Bool × Option Nat × VA × Nat × List (Nat × Fibre) :=
  ((b.core, b.slot, b.crew), b.priv, b.pin, b.pc, b.wb, b.fibres)

theorem Unheld.place {b c : Batch} (h : Unheld b c) : c.place = b.place := by
  rw [h]
  rfl

theorem Written.place {b c : Batch} (h : Written b c) : c.place = b.place := by
  rw [h]
  rfl

theorem Retired.place {b c : Batch} (h : Retired b c) : c.place = b.place := by
  rw [h]
  rfl

section
variable {i : Instr} {x : Exec} {go : Nat → Dest} {t : State} {l j : Nat} {b b' c c' : Batch}

/-- The lanes that go with one. -/
def along (x : Exec) (go : Nat → Dest) (l : Nat) : List Nat := (liveLanes x.b).filter fun k => go k = go l

theorem BranchLands.place (h : BranchLands i x go t l j b b' c c') : c'.place =
    ((x.b.core, x.b.slot, x.b.crew), x.b.priv, x.b.pin, (go l).2.1, (go l).2.2,
      x.b.fibres.filter fun p => (along x go l).contains p.1) := by
  have hb : b'.place = x.b.place := h.first.written.place.trans h.unheld.place
  have hc : c'.place = (partAt x go l b' j).place := h.retired.place.trans h.part.written.place
  simp only [Batch.place, Prod.mk.injEq] at hb
  obtain ⟨⟨hcore, hslot, hcrew⟩, hpriv, hpin, -, -, hfibres⟩ := hb
  rw [hc]
  unfold Batch.place partAt partOf along
  simp only [hcore, hslot, hcrew, hpriv, hpin, hfibres]

theorem BranchLands.fibres (h : BranchLands i x go t l j b b' c c') :
    c'.fibres = x.b.fibres.filter fun p => (along x go l).contains p.1 := congrArg (·.2.2.2.2.2) h.place

theorem mem_along (go : Nat → Dest) {l k : Nat} : k ∈ along x go l ↔ k ∈ liveLanes x.b ∧ go k = go l := by
  simp [along]

theorem BranchLands.fibre (h : BranchLands i x go t l j b b' c c') (hl : l ∈ liveLanes x.b) :
    fibreOf c' l = fibreOf x.b l := by
  have hin : (along x go l).contains l = true := List.contains_iff_mem.mpr ((mem_along go).mpr ⟨hl, rfl⟩)
  unfold fibreOf kvGetD
  rw [h.fibres, kvGet_filter x.b.fibres (fun k => (along x go l).contains k) l, if_pos hin]

theorem BranchLands.lanes (h : BranchLands i x go t l j b b' c c') : liveLanes c' = along x go l := by
  have hmap : liveLanes c' = (liveLanes x.b).filter fun k => (along x go l).contains k := by
    unfold liveLanes
    rw [h.fibres, List.filter_map]
    rfl
  rw [hmap]
  refine List.filter_congr fun k hk => ?_
  rw [Bool.eq_iff_iff, List.contains_iff_mem, mem_along]
  simp [hk]

/-- Where the lanes do not diverge they all go along. -/
theorem along_of_not_diverges {go : Nat → Dest} {l : Nat} (h : ¬ Diverges x go) (hl : l ∈ liveLanes x.b) :
    along x go l = liveLanes x.b := by
  refine List.filter_eq_self.mpr fun k hk => ?_
  by_contra hne
  exact h ⟨k, hk, l, hl, by simpa using hne⟩

/-! ### Its registers -/

theorem BranchLands.registers (h : BranchLands i x go t l j b b' c c') {r : Nat} (hfirst : r ∉ (firstWrites i x).map (·.1))
    (hpart : r ∉ (partWrites i x (go l)).map (·.1)) (u v : State) : bankReg u c' r = bankReg v x.b r := by
  have h1 : bankReg u c' r = bankReg u c r := by rw [h.retired]; rfl
  have h2 : bankReg u c r = bankReg u b' r := h.part.spares r hpart u u
  have h3 : bankReg u b' r = bankReg v b r := h.first.spares r hfirst u v
  have h4 : bankReg v b r = bankReg v x.b r := by rw [h.unheld]; rfl
  rw [h1, h2, h3, h4]

end

/-! ### Calls -/

/-- The word is a call with this frame. -/
abbrev IsCall (i : Instr) (frame : Nat) : Prop :=
  (∃ w, i = .call w ∧ frame = w.a.toNat) ∨ ∃ w, i = .calli w ∧ frame = 8 * (w.m.toNat % 64)

/-- A call takes its active lanes to its target, under the new window base, and the others to the next word. -/
theorem call_goes {i : Instr} {frame : Nat} {g : Exec → Option (Nat → Dest)} {x : Exec} {go : Nat → Dest} (hi : IsCall i frame)
    (hg : goesTo i = some g) (hgo : g x = some go) : ∃ target : Nat → VA, go = taking x fun l => (target l, x.b.wb + frame) := by
  obtain ⟨w, rfl, rfl⟩ | ⟨w, rfl, rfl⟩ := hi
  all_goals
    cases hg
    obtain ⟨-, hgo⟩ := Option.ite_none_right_eq_some.mp hgo
    exact ⟨_, (Option.some.inj hgo).symm⟩

theorem partWrites_call {i : Instr} {frame : Nat} (hi : IsCall i frame) (x : Exec) (d : Dest) :
    firstWrites i x = [] ∧ partWrites i x d = linkWrites x frame d := by
  obtain ⟨w, rfl, rfl⟩ | ⟨w, rfl, rfl⟩ := hi <;> exact ⟨rfl, rfl⟩

/-- The link of a call takes two registers under its new window base. -/
theorem linkWrites_names {x : Exec} {frame : Nat} (target : Nat → VA) (l : Nat) {r : Nat}
    (hr : r ∈ (linkWrites x frame (taking x (fun l => (target l, x.b.wb + frame)) l)).map (·.1)) :
    r = x.b.wb + frame ∨ r = x.b.wb + frame + 1 := by
  unfold linkWrites taking at hr
  by_cases hl : l ∈ x.act
  · simpa [hl] using hr
  · simp [hl] at hr

/-! ### The statement of every branch-type word -/

/-- A register that a call keeps is none of the two that hold its link. -/
theorem spared_of_call {i : Instr} {frame : Nat} {g : Exec → Option (Nat → Dest)} {x : Exec} {go : Nat → Dest} {r : Nat}
    (hi : IsCall i frame) (hg : goesTo i = some g) (hgo : g x = some go) (hk : r ≠ x.b.wb + frame ∧ r ≠ x.b.wb + frame + 1) (l : Nat) :
    r ∉ (firstWrites i x).map (·.1) ∧ r ∉ (partWrites i x (go l)).map (·.1) := by
  obtain ⟨target, rfl⟩ := call_goes hi hg hgo
  obtain ⟨hfirst, hpart⟩ := partWrites_call hi x (taking x (fun l => (target l, x.b.wb + frame)) l)
  rw [hfirst, hpart]
  exact ⟨List.not_mem_nil, fun hr => (linkWrites_names target l hr).elim hk.1 hk.2⟩

/-- A register that a word keeps is none that it writes where a lane goes. -/
theorem spared_of_keeps {i : Instr} {g : Exec → Option (Nat → Dest)} {x : Exec} {go : Nat → Dest} {r : Nat} (hg : goesTo i = some g)
    (hgo : g x = some go) (hk : branchKeeps i x r) (l : Nat) :
    r ∉ (firstWrites i x).map (·.1) ∧ r ∉ (partWrites i x (go l)).map (·.1) := by
  obtain ⟨w, rfl⟩ | ⟨w, rfl⟩ | ⟨w, rfl⟩ | ⟨w, rfl⟩ | ⟨w, rfl⟩ | ⟨w, rfl⟩ := goesTo_words hg
  case inr.inr.inl => exact ⟨fun hr => hk (List.mem_singleton.mp hr), List.not_mem_nil⟩
  case inr.inr.inr.inl => exact spared_of_call (.inl ⟨w, rfl, rfl⟩) hg hgo hk l
  case inr.inr.inr.inr.inl => exact spared_of_call (.inr ⟨w, rfl, rfl⟩) hg hgo hk l
  all_goals exact ⟨List.not_mem_nil, List.not_mem_nil⟩

/-- Where a branch-type word may part its batch, it leaves what its rules say. -/
theorem exec_branched {s : State} {i : Instr} {f : Form} {g : Exec → Option (Nat → Dest)} {b : Batch} {go : Nat → Dest}
    (hf : formOf s i = some f) (hg : goesTo i = some g) (hready : f.Ready s b) (hgo : g (f.start s b) = some go)
    (hok : ¬ (Diverges (f.start s b) go ∧ (b.pin.isSome = true ∨ ownsTile s b = true))) :
    ∃ t, exec i s = .next t ∧ Branched (f.start s b) t go (branchKeeps i (f.start s b)) := by
  obtain ⟨t, hexec, hframe, hlands⟩ := exec_branch_lands hf hg hready hgo hok
  refine ⟨t, hexec, fun l hl => ?_, fun d hd hne => ?_, hframe.crews, hframe.rest⟩
  · obtain ⟨j, b₁, b₂, c₁, c, h⟩ := hlands l hl
    have hplace := h.place
    simp only [Batch.place, Prod.mk.injEq] at hplace
    obtain ⟨⟨hcore, hslot, hcrew⟩, hpriv, hpin, hpc, hwb, -⟩ := hplace
    refine ⟨c, List.mem_of_find?_eq_some h.now, hcore, hslot, hcrew, ?_, hpc, hwb, h.fibre hl, hpriv, hpin, fun r hr => ?_⟩
    · rw [h.lanes]
      exact (mem_along go).mpr ⟨hl, rfl⟩
    · obtain ⟨hfirst, hpart⟩ := spared_of_keeps hg hgo hr l
      exact h.registers hfirst hpart t _
  · exact hframe.members d (mem_partedFrom go hd hne) fun hm => hne (List.mem_singleton.mp hm)

/-- Settles O36: each live lane lands in a part that has come from its batch by the word's own writes and the parting alone. -/
theorem branchesGo : Obligations.BranchesGo := by
  unfold Obligations.BranchesGo
  exact fun s i f g b go hf hg hready hgo hok => exec_branched hf hg hready hgo hok

/-- Where the addresses are places for code and the window exists, every branch-type word has somewhere to go. -/
theorem goesTo_of_branchWhen {i : Instr} {p : When} {x : Exec} (hp : branchWhen i = some p) (h : p x = true) :
    ∃ g go, goesTo i = some g ∧ g x = some go := by
  unfold branchWhen at hp
  split at hp
  case h_7 => cases hp
  all_goals cases hp
  case h_1 w => exact ⟨_, _, rfl, rfl⟩
  case h_2 w => exact ⟨_, _, rfl, if_pos h⟩
  case h_3 w => exact ⟨_, _, rfl, rfl⟩
  case h_4 w => exact ⟨_, _, rfl, if_pos (of_decide_eq_true h)⟩
  case h_5 w =>
    obtain ⟨h1, h2⟩ := (Bool.and_eq_true ..).mp h
    exact ⟨_, _, rfl, if_pos ⟨h1, of_decide_eq_true h2⟩⟩
  case h_6 w => exact ⟨_, _, rfl, if_pos h⟩

/-- Settles O45: a batch that is not pinned and owns no pending tile may always part. -/
theorem branchesComplete : Obligations.BranchesComplete := by
  unfold Obligations.BranchesComplete
  intro s i f p b hf hp hready hpin hown h
  obtain ⟨g, go, hg, hgo⟩ := goesTo_of_branchWhen hp h
  obtain ⟨t, hexec, ht⟩ := exec_branched hf hg hready hgo fun hd => by simp [hpin, hown] at hd
  exact ⟨t, hexec, g, go, hg, hgo, ht⟩

/-! ### LOOP's counter and a call's link -/

/-- A value that stands in a register, and that no entry of the window hides, is what the register reads. -/
theorem Stands.reads {c : Batch} {i l : Nat} {v : W32} (h : Stands c i l v) (hw : windowReg c.window i = none) (t : State) :
    laneVal (readReg t c i) l = v := by
  obtain ⟨hne, hv⟩ := h t
  rw [readReg_bank t c i hw hne, hv]

theorem Stands.of_bankReg {b c : Batch} {i l : Nat} {v : W32} (h : Stands b i l v) (hsame : ∀ u, bankReg u c i = bankReg u b i) :
    Stands c i l v := fun u => by rw [hsame]; exact h u

theorem Retired.registers {b c : Batch} (h : Retired b c) (u : State) (i : Nat) : bankReg u c i = bankReg u b i := by
  rw [h]
  rfl

theorem Retired.window {b c : Batch} (h : Retired b c) : c.window = b.window := by rw [h]

theorem Unheld.holds {b c : Batch} (h : Unheld b c) (i : Nat) : Holds c i ↔ Holds b i := by
  rw [h]
  exact Iff.rfl

section
variable {i : Instr} {x : Exec} {go : Nat → Dest} {t : State} {l j : Nat} {b b' c c' : Batch} {p : Nat × RegVal}

/-- A value written before the batch parts reads so where its lane lands. -/
theorem BranchLands.reads_first (h : BranchLands i x go t l j b b' c c') (hp : p ∈ firstWrites i x) (hpart : partWrites i x (go l) = [])
    (hh : Holds x.b p.1) (hl : l ∈ x.act) (h32 : l < 32) : laneVal (readReg t c' p.1) l = laneVal p.2 l := by
  obtain ⟨hwindow, hstands⟩ := h.first.bears p hp ((h.unheld.holds p.1).mpr hh)
  have hsame : ∀ u, bankReg u c' p.1 = bankReg u b' p.1 := fun u =>
    (h.retired.registers u p.1).trans (h.part.spares p.1 (by simp [hpart]) u u)
  refine ((hstands l hl h32).of_bankReg hsame).reads ?_ t
  rw [h.retired.window]
  exact h.part.clear p.1 hwindow

/-- A value written in the part of a lane reads so there. -/
theorem BranchLands.reads_part (h : BranchLands i x go t l j b b' c c') (hp : p ∈ partWrites i x (go l))
    (hh : Holds x.b p.1) (hl : l ∈ liveLanes x.b) (h32 : l < 32) : laneVal (readReg t c' p.1) l = laneVal p.2 l := by
  have hlive : l ∈ liveLanes (partAt x go l b' j) := by
    have hc : liveLanes c' = liveLanes (partAt x go l b' j) := by
      have hplace := h.retired.place.trans h.part.written.place
      exact congrArg (fun q => q.2.2.2.2.2.map (·.1)) hplace
    rw [← hc, h.lanes]
    exact (mem_along go).mpr ⟨hl, rfl⟩
  have hholds : Holds (partAt x go l b' j) p.1 := (h.first.holds p.1).mpr ((h.unheld.holds p.1).mpr hh)
  obtain ⟨hwindow, hstands⟩ := h.part.bears p hp hholds
  refine ((hstands l hlive h32).of_bankReg fun u => h.retired.registers u p.1).reads ?_ t
  rw [h.retired.window]
  exact hwindow

end

theorem begunBatch_holds (b : Batch) (rgn : Bool) (i : Nat) : Holds (begunBatch b rgn) i ↔ Holds b i := by
  unfold begunBatch
  split <;> exact Iff.rfl

/-- Settles O38: the counter is written in the batch before its lanes part, and the parts keep it. -/
theorem loopCountsDown : Obligations.LoopCountsDown := by
  unfold Obligations.LoopCountsDown
  intro s w f b hf hready hpin hown hholds
  obtain ⟨t, hexec, -, hlands⟩ := exec_branch_lands hf rfl hready rfl fun hd => by simp [hpin, hown] at hd
  obtain ⟨-, hact, -⟩ := start_lives hf hready
  obtain ⟨u, hx, -⟩ := start_eq b hf
  refine ⟨t, hexec, fun l hl h32 => ?_⟩
  have hlx : l ∈ (f.start s b).act := by rw [hx]; exact hl
  obtain ⟨j, b₁, b₂, c₁, c, h⟩ := hlands l (hact l hlx)
  have hslot : c.slot = b.slot := (congrArg (·.1.2.1) h.place).trans (by rw [hx]; unfold begunBatch; split <;> rfl)
  refine ⟨c, List.mem_of_find?_eq_some h.now, hslot, ?_, ?_⟩
  · rw [h.lanes]
    exact (mem_along _).mpr ⟨hact l hlx, rfl⟩
  · rw [← laneVal_loopCounter _ h32]
    refine h.reads_first (p := (nameOf (f.start s b) .d 0, loopCounter (f.start s b))) (List.mem_singleton_self _) rfl ?_ hlx h32
    have hb : Holds (f.start s b).b (nameOf (f.start s b) .d 0) ↔ Holds b (nameOf (f.start s b) .d 0) := by
      generalize nameOf (f.start s b) .d 0 = r
      rw [hx]
      exact begunBatch_holds b _ r
    exact hb.mpr hholds

/-- The two halves of a 64-bit value. -/
theorem toNat_halves (v : W64) : (v.extractLsb' 0 32).toNat + 2 ^ 32 * (v.extractLsb' 32 32).toNat = v.toNat := by
  simp only [BitVec.extractLsb'_toNat, Nat.shiftRight_eq_div_pow]
  have := v.isLt
  omega

/-- A call's link is the return address with the frame count above it (R115). -/
theorem callLink_toNat (pc : VA) {frame : Nat} (hf : frame / 8 < 64) :
    (callLink pc frame).toNat = (pc + 8).toNat + 2 ^ 54 * (frame / 8) := by
  unfold callLink
  generalize frame / 8 = q at hf ⊢
  have hpc := (pc + 8).isLt
  have hshift : (BitVec.ofNat 64 q <<< 54).toNat = q <<< 54 := by
    rw [BitVec.toNat_shiftLeft, BitVec.toNat_ofNat, Nat.mod_eq_of_lt (a := q) (by omega), Nat.mod_eq_of_lt]
    rw [Nat.shiftLeft_eq]
    omega
  have hlow : ((pc + 8).zeroExtend 64).toNat = (pc + 8).toNat := by
    rw [BitVec.zeroExtend, BitVec.toNat_setWidth, Nat.mod_eq_of_lt]
    omega
  rw [BitVec.toNat_or, hshift, hlow, Nat.or_comm, ← Nat.shiftLeft_add_eq_or_of_lt hpc, Nat.shiftLeft_eq]
  omega

theorem specLegal_of_decodeFault {s : State} {b : Batch} {act : List Nat} {sp : Spec} {ok : Bool}
    (h : decodeFault s b act sp ok = none) : specLegal sp = true := by
  unfold decodeFault at h
  split at h
  · cases h
  · split at h
    · cases h
    · next hl => simpa using hl

/-- The frame of a call has at most 63 groups of registers. -/
theorem frame_lt {s : State} {i : Instr} {f : Form} {b : Batch} {frame : Nat} (hi : IsCall i frame) (hf : formOf s i = some f)
    (hready : f.Ready s b) : frame / 8 < 64 := by
  obtain ⟨w, rfl, rfl⟩ | ⟨w, rfl, rfl⟩ := hi
  · cases Option.some.inj hf
    have h := specLegal_of_decodeFault hready.legal
    unfold specLegal at h
    obtain ⟨h, -⟩ := (Bool.and_eq_true ..).mp h
    obtain ⟨h, -⟩ := (Bool.and_eq_true ..).mp h
    obtain ⟨h, -⟩ := (Bool.and_eq_true ..).mp h
    have hframe : w.a.toNat ≤ 504 := of_decide_eq_true h
    omega
  · omega

/-- Where a lane that takes a call lands, v0 and v1 under its window base hold the link. -/
theorem BranchLands.link {i : Instr} {x : Exec} {target : Nat → VA} {t : State} {l j frame : Nat} {b b' c c' : Batch}
    (h : BranchLands i x (taking x fun l => (target l, x.b.wb + frame)) t l j b b' c c') (hi : IsCall i frame) (hf : frame / 8 < 64)
    (hl : l ∈ x.act) (hlive : l ∈ liveLanes x.b) (h32 : l < 32) (hlow : Holds x.b (x.b.wb + frame))
    (hhigh : Holds x.b (x.b.wb + frame + 1)) :
    (laneVal (readReg t c' (x.b.wb + frame)) l).toNat + 2 ^ 32 * (laneVal (readReg t c' (x.b.wb + frame + 1)) l).toNat =
      (x.b.pc + 8).toNat + 2 ^ 54 * (frame / 8) := by
  have hgo : taking x (fun l => (target l, x.b.wb + frame)) l = (true, target l, x.b.wb + frame) := if_pos hl
  have hw : partWrites i x (taking x (fun l => (target l, x.b.wb + frame)) l) =
      [(x.b.wb + frame, .u ((callLink x.b.pc frame).extractLsb' 0 32)),
        (x.b.wb + frame + 1, .u ((callLink x.b.pc frame).extractLsb' 32 32))] := by
    rw [(partWrites_call hi x _).2, hgo]
    rfl
  have h0 := h.reads_part (p := (x.b.wb + frame, .u ((callLink x.b.pc frame).extractLsb' 0 32))) (by simp [hw]) hlow hlive h32
  have h1 := h.reads_part (p := (x.b.wb + frame + 1, .u ((callLink x.b.pc frame).extractLsb' 32 32))) (by simp [hw]) hhigh hlive h32
  rw [h0, h1, ← callLink_toNat x.b.pc hf]
  exact toNat_halves _

theorem begunBatch_place (b : Batch) (rgn : Bool) : (begunBatch b rgn).place = b.place := by
  unfold begunBatch
  split <;> rfl

/-- Settles O39: each part of the batch that takes the call writes the link under its own new window base. -/
theorem callsWriteTheirLink : Obligations.CallsWriteTheirLink := by
  unfold Obligations.CallsWriteTheirLink
  intro s i f b g go frame hi hf hg hready hgo hok hlow hhigh
  obtain ⟨t, hexec, -, hlands⟩ := exec_branch_lands hf hg hready hgo hok
  obtain ⟨-, hact, -⟩ := start_lives hf hready
  obtain ⟨target, rfl⟩ := call_goes hi hg hgo
  have hframe := frame_lt hi hf hready
  -- the batch as it starts the word stands as it stood
  obtain ⟨hxact, hid, hplace, hholds⟩ : (f.start s b).act = f.act b ∧ (f.start s b).b.id = b.id ∧ (f.start s b).b.place = b.place ∧
      ∀ r, Holds (f.start s b).b r ↔ Holds b r := by
    obtain ⟨u, hx, -⟩ := start_eq b hf
    rw [hx]
    exact ⟨rfl, begunBatch_id .., begunBatch_place .., begunBatch_holds b _⟩
  simp only [Batch.place, Prod.mk.injEq] at hplace
  obtain ⟨⟨hcore, hslot, hcrew⟩, -, -, hpc, hwb, hfibres⟩ := hplace
  refine ⟨t, hexec, fun l hl h32 => ?_⟩
  rw [← hxact] at hl
  have hlive := hact l hl
  obtain ⟨j, b₁, b₂, c₁, c, h⟩ := hlands l hlive
  have hlink := h.link hi hframe hl hlive h32 ((hholds _).mpr (hwb ▸ hlow)) ((hholds _).mpr (hwb ▸ hhigh))
  have hc := h.place
  have hgo : taking (f.start s b) (fun l => (target l, (f.start s b).b.wb + frame)) l = (true, target l, b.wb + frame) :=
    (if_pos hl).trans (by rw [hwb])
  simp only [Batch.place, Prod.mk.injEq, hgo] at hc
  obtain ⟨⟨hccore, hcslot, hccrew⟩, -, -, hcpc, hcwb, -⟩ := hc
  refine ⟨c, List.mem_of_find?_eq_some h.now, hccore.trans hcore, hcslot.trans hslot, hccrew.trans hcrew, ?_, ?_, hcwb,
    fun hd => ⟨?_, ?_⟩, ?_⟩
  · rw [h.lanes]
    exact (mem_along _).mpr ⟨hlive, rfl⟩
  · rw [hcpc, hgo]
  · rw [← hid, ← h.whole hd]
    exact h.now
  · rw [h.lanes, along_of_not_diverges hd hlive]
    exact congrArg (List.map (·.1)) hfibres
  · rw [hcwb, ← hpc, ← hwb]
    exact hlink

end Sys2Proof.Machine
end

section
/-! SUPPORT. FORK (R119): the lanes that have room make their children as new batches beside their own. -/
namespace Sys2Proof.Machine
open Sys2Proof

/-! ### States with more batches -/

/-- The batches of `t` are those of `s`, and new ones after them. -/
def Grows (s t : State) : Prop := ∃ new, t.batches = s.batches ++ new

theorem Grows.refl (s : State) : Grows s s := ⟨[], (List.append_nil _).symm⟩

theorem Grows.trans {s t u : State} (h : Grows s t) (k : Grows t u) : Grows s u := by
  obtain ⟨new, hn⟩ := h
  obtain ⟨more, hm⟩ := k
  exact ⟨new ++ more, by rw [hm, hn, List.append_assoc]⟩

theorem Grows.find {s t : State} (h : Grows s t) {id : Nat} {b : Batch} (hb : findBatch s id = some b) : findBatch t id = some b := by
  obtain ⟨new, hn⟩ := h
  unfold findBatch at hb ⊢
  rw [hn, List.find?_append, hb]
  rfl

theorem foldl_grows {α : Type} {f : State → α → State} (hf : ∀ s a, Grows s (f s a)) (l : List α) :
    ∀ s, Grows s (l.foldl f s) := by
  induction l with
  | nil => exact Grows.refl
  | cons a l ih => exact fun s => (hf s a).trans (ih (f s a))

theorem newBatch_grows (s : State) (c : Crew) (row : Nat) (fibres : List (Nat × Fibre)) (regs : List RegVal) (pc : VA) (wb : Nat) :
    Grows s (newBatch s c row fibres regs pc wb) := by
  unfold newBatch mendRow
  exact ⟨_, congrArg (· ++ _) (clearUpsets_batches ..)⟩

theorem newRows_grows (s : State) (uid : Nat) (fs : List (Nat × Fibre)) (regs : Nat → List RegVal) (pc : VA) (wb : Nat) :
    Grows s (newRows s uid fs regs pc wb) := by
  unfold newRows
  refine foldl_grows (fun u r => ?_) _ s
  dsimp only
  split
  · exact Grows.refl u
  · exact newBatch_grows ..

/-! ### The lanes that fork -/

/-- FORK in one lane: the state so far, with the lanes that could. -/
def forkStep (x : Exec) (w : FWord) (r : State × List Nat) (l : Nat) : State × List Nat :=
  if (lane x .a 0 l).toNat = 0 then (r.1, r.2 ++ [l])
  else if forkRoom r.1 x.b.crew < (lane x .a 0 l).toNat then r
  else (forkLane x (nameOf x .d 0) w.b.toNat r.1 l (lane x .a 0 l).toNat, r.2 ++ [l])

theorem forked_eq (x : Exec) (w : FWord) : forked x w = x.act.foldl (forkStep x w) (x.s, []) := rfl

theorem forkStep_grows (x : Exec) (w : FWord) (r : State × List Nat) (l : Nat) : Grows r.1 (forkStep x w r l).1 := by
  unfold forkStep
  split
  · exact Grows.refl _
  · split
    · exact Grows.refl _
    · exact newRows_grows ..

theorem forkStep_lanes (x : Exec) (w : FWord) (r : State × List Nat) (l : Nat) :
    (forkStep x w r l).2 = r.2 ∨ (forkStep x w r l).2 = r.2 ++ [l] := by
  unfold forkStep
  split
  · exact .inr rfl
  · split
    · exact .inl rfl
    · exact .inr rfl

/-- The word's batch is there after its lanes have forked, and the lanes that could are some of the active ones, in order. -/
theorem forkSteps_spec (x : Exec) (w : FWord) (act : List Nat) : ∀ r : State × List Nat,
    Grows r.1 (act.foldl (forkStep x w) r).1 ∧ ∃ ok, (act.foldl (forkStep x w) r).2 = r.2 ++ ok ∧ ok.Sublist act := by
  induction act with
  | nil => exact fun r => ⟨Grows.refl _, [], (List.append_nil _).symm, .slnil⟩
  | cons l act ih =>
    intro r
    obtain ⟨hg, ok, hok, hsub⟩ := ih (forkStep x w r l)
    refine ⟨(forkStep_grows x w r l).trans hg, ?_⟩
    rw [List.foldl_cons, hok]
    rcases forkStep_lanes x w r l with h | h
    · exact ⟨ok, by rw [h], hsub.cons l⟩
    · exact ⟨l :: ok, by rw [h, List.append_assoc]; rfl, hsub.cons_cons l⟩

theorem forked_find {x : Exec} (w : FWord) (hb : findBatch x.s x.b.id = some x.b) : findBatch (forked x w).1 x.b.id = some x.b :=
  (forkSteps_spec x w x.act (x.s, [])).1.find hb

theorem forked_sublist (x : Exec) (w : FWord) : (forked x w).2.Sublist x.act := by
  obtain ⟨-, ok, hok, hsub⟩ := forkSteps_spec x w x.act (x.s, [])
  rw [forked_eq, hok]
  exact hsub

/-! ### Its result -/

/-- A word that leaves the state `u`, with its own batch as it stood, shows its results there. -/
theorem finish_shows_done {x : Exec} {u : State} {regs : List (Nat × RegVal)} {preds : List (Nat × W32)}
    {rregs : List (Nat × (Nat → W32))} {rpreds : List (Nat × (Nat → Bool))} (hb : findBatch u x.b.id = some x.b)
    (hlive : ∀ l ∈ x.act, l ∈ liveLanes x.b) (hregs : List.Forall₂ (fun p q => p.1 = q.1 ∧ LaneVals x p.2 q.2) regs rregs)
    (hpreds : List.Forall₂ (fun p q => p.1 = q.1 ∧ MaskVals x p.2 q.2) preds rpreds) :
    Shows x u (finish x (.done u regs preds [])) { regs := rregs, preds := rpreds } := by
  obtain ⟨c, hc⟩ := fin_retires x u x.b regs preds [] hb hlive (forall₂_left (fun _ _ h => h.2.ne_t) hregs)
  exact ⟨x.b, c, regs, preds, hb, hc, hregs.imp fun _ _ h => ⟨h.1, h.2.lanes⟩, hpreds⟩

/-- The register that FORK writes: uniform where every active lane could. -/
def forkResult (x : Exec) (ok : List Nat) : RegVal :=
  if ok.length = x.act.length && uniField x .a 1 then .u 0
  else .g (laneList fun l => if ok.contains l then 0 else laneVal (readReg x.s { x.b with window := [] } (nameOf x .d 0)) l)

theorem laneVals_forkResult {x : Exec} {ok : List Nat} (hsub : ok.Sublist x.act) : LaneVals x (forkResult x ok)
    fun l => if l ∈ ok then 0 else laneVal (readReg x.s { x.b with window := [] } (nameOf x .d 0)) l := by
  unfold forkResult
  split
  · next h =>
    have hall : ok = x.act := hsub.eq_of_length (of_decide_eq_true ((Bool.and_eq_true ..).mp h).1)
    exact ⟨nofun, fun l hl _ => (if_pos (hall ▸ hl)).symm⟩
  · exact ⟨nofun, fun l _ h32 => by simp [laneVal_laneList _ _ h32]⟩

/-- FORK's own part, where no register that a child takes holds an error. -/
theorem exec_fork {s : State} {w : FWord} {f : Form} {b : Batch} (hf : formOf s (.fork w) = some f) (hready : f.Ready s b)
    (hfault : baseFault (f.start s b) ((forked (f.start s b) w).2.filter fun l => lane (f.start s b) .a 0 l ≠ 0) = none) :
    exec (.fork w) s = .next (finish (f.start s b) (.done (forked (f.start s b) w).1
      (if (forked (f.start s b) w).2.isEmpty then [] else
        [(nameOf (f.start s b) .d 0, forkResult (f.start s b) (forked (f.start s b) w).2)])
      [(w.b.toNat, maskOf (forked (f.start s b) w).2)] [])) := by
  cases Option.some.inj hf
  refine exec_runF (o := execFork w s) rfl hready ?_
  revert hfault
  generalize (formF w _).start s b = x
  intro hfault
  show (match baseFault x ((forked x w).2.filter fun l => lane x .a 0 l ≠ 0) with
    | some (c, ls) => Eff.trap x.s { wordTrap x c with lanes := ls }
    | none => .done (forked x w).1 (if (forked x w).2.isEmpty then [] else [(nameOf x .d 0, forkResult x (forked x w).2)])
        [(w.b.toNat, maskOf (forked x w).2)] []) = _
  rw [hfault]

/-- Settles O35: the children are new batches, so the word's own batch retires with the lanes' results. -/
theorem forkWord : Obligations.ForkWord := by
  unfold Obligations.ForkWord Fulfils
  intro s i f e hf he b hready u r hr
  unfold forkTable at he
  split at he
  case h_2 => cases he
  case h_1 w =>
    obtain rfl := Option.some.inj he
    obtain ⟨hb, hact, -⟩ := start_lives hf hready
    obtain ⟨hfault, hr⟩ := Option.ite_none_left_eq_some.mp hr
    obtain ⟨rfl, rfl⟩ := Prod.mk.inj (Option.some.inj hr)
    refine ⟨_, exec_fork hf hready (Option.not_isSome_iff_eq_none.mp hfault), ?_⟩
    generalize f.start s b = x at hb hact
    have hsub := forked_sublist x w
    refine finish_shows_done (forked_find w hb) hact ?_ (.cons ⟨rfl, fun l hl h32 => ?_⟩ .nil)
    · split
      · exact .nil
      · exact .cons ⟨rfl, laneVals_forkResult hsub⟩ .nil
    · rw [getLsbD_maskOf h32, ← List.elem_eq_contains]
      simp

end Sys2Proof.Machine
end

section
/-! SUPPORT. FILLDONE (R385, R397): the lines that it installs have no error any more, which the statement about the words that end
fibres and fills does not say (its table keeps the errors of the old lines). -/
namespace Sys2Proof.Machine
open Sys2Proof

/-! ### A fill task whose unit had a line with an error -/

/-- The one lane of a fill task, about to execute FILLDONE. -/
def fillBatch : Batch where
  id := 1
  core := 0
  slot := 30
  crew := 1
  row := 0
  ctx := 0
  fibres := [(0, {})]
  wb := 0
  pc := 0x200000
  regs := List.replicate 8 (.u 0)
  kregs := List.replicate 32 (.u 0)
  priv := false
  pin := none
  regionStart := 0x200000
  newRegion := true
  gatherAt := none
  window := []
  retbuf := []
  parked := false
  parkedAt := 0
  block := none
  blockedAt := 0
  trap := none
  wake := 0
  lastIssue := 0
  reacquire := false

/-- The crew of that task, which fills for record 9. -/
def fillCrew : Crew where
  uid := 1
  id := 1
  ctx := 0
  cluster := 0
  rank := 0
  core := 0
  hdr := []
  slots := [30]
  fill := some 9

/-- The record: the unit of 4 KiB at 0x600000, generator 0, now of generation 1. -/
def fillRecord : Fill where
  id := 9
  state := .running
  ctx := 0
  gen := 0
  unit := 0x600000
  idx := 0
  depth := 1
  ggen := 1
  cls := 0
  crew := 1

/-- The LLC still holds the unit's first line from generation 0, with an uncorrectable error in it. -/
def fillState : State :=
  { State.reset with
    cur := 1, batches := [fillBatch], crews := [fillCrew], fills := [fillRecord]
    ctxs := State.reset.ctxs.set 0 { state := .resident }
    genLines := [⟨0, 0x600000, 0, 0, List.replicate 128 0⟩], upsets := [.gen 0 0x600000] }

/-- FILLDONE, unguarded. -/
def fillDoneWord : FWord := ⟨false, false, 7, false, 0, 0, 0, 0, false, 0⟩

/-- The errors in the state that a word answers. -/
def nextUpsets : Host.Outcome State Fault Refusal → List Upset
  | .next t => t.upsets
  | _ => []

/-- What FILLDONE starts from in that state. -/
def fillForm : Form := formF fillDoneWord { fillSpec fillState 0xE8 fillDoneWord .z .z .z (fillDoneWord.m = 0) with closes := true }

theorem fillForm_ready : fillForm.Ready fillState fillBatch where
  cur := rfl
  active := by decide
  free := by decide
  legal := by decide +kernel
  whole := by decide +kernel

theorem myFill_fillState : myFill (fillForm.start fillState fillBatch) = some fillRecord := by decide +kernel

/-- FILLDONE installs the line anew, so that its error ends. -/
theorem exec_filldone_upsets : nextUpsets (exec (.filldone fillDoneWord) fillState) = [] := by decide +kernel

/-- The table installs the line and keeps the error of the old one. -/
theorem leaves_fillEnds_upsets :
    (leaves (fillForm.start fillState fillBatch) (fillEnds (fillForm.start fillState fillBatch).s (fillForm.start fillState fillBatch).b fillRecord)
      []).upsets = [.gen 0 0x600000] := by decide +kernel

/-- Refutes O40: FILLDONE ends the error of a line that it installs anew, and the statement's table keeps it. -/
theorem not_endingWords : ¬ Obligations.EndingWords := by
  unfold Obligations.EndingWords
  intro h
  have hnext := h fillState (.filldone fillDoneWord) fillForm (fun x => (myFill x).map fun r => (fillEnds x.s x.b r, [])) fillBatch
    (fillEnds (fillForm.start fillState fillBatch).s (fillForm.start fillState fillBatch).b fillRecord) [] rfl rfl fillForm_ready
    (by rw [myFill_fillState]; rfl)
  have hupsets := exec_filldone_upsets
  rw [hnext] at hupsets
  exact absurd (leaves_fillEnds_upsets.symm.trans hupsets) (by decide)

end Sys2Proof.Machine
end

section
/-! SUPPORT. The FP status word (R149, R152): its layout, and a write under a mask, bit by bit. -/
namespace Sys2Proof.Machine
open Sys2Proof

/-! ### The layout of the status word (R149) -/

/-- A mask is known from its bits below 32. -/
theorem getLsbD_mask {m : W32} {p : Nat → Prop} [DecidablePred p] (hp : ∀ i, p i → i < 32) (hm : ∀ i < 32, m.getLsbD i = decide (p i))
    (i : Nat) : m.getLsbD i = decide (p i) := by
  by_cases hi : i < 32
  · exact hm i hi
  · rw [BitVec.getLsbD_of_ge _ _ (Nat.not_lt.mp hi), decide_eq_false fun h => hi (hp i h)]

/-- FLAGS stand in bits 0 to 4 and EN in bits 8 to 12: the bits that a write reaches. -/
theorem getLsbD_flagsAndEnables (i : Nat) : (0x1F1F#32).getLsbD i = decide (i < 5 ∨ (8 ≤ i ∧ i < 13)) :=
  getLsbD_mask (m := 0x1F1F#32) (p := fun i => i < 5 ∨ (8 ≤ i ∧ i < 13)) (fun _ _ => by omega) (by decide) i

theorem getLsbD_reported (i : Nat) : (0x1F0000#32).getLsbD i = decide (16 ≤ i ∧ i < 21) :=
  getLsbD_mask (m := 0x1F0000#32) (p := fun i => 16 ≤ i ∧ i < 21) (fun _ _ => by omega) (by decide) i

theorem getLsbD_flags (i : Nat) : (0x1F#32).getLsbD i = decide (i < 5) :=
  getLsbD_mask (m := 0x1F#32) (p := fun i => i < 5) (fun _ _ => by omega) (by decide) i

/-! ### A write (R152) -/

/-- Bit `i` of a value written under a mask. -/
def maskedBit (st a b : W32) (i : Nat) : Bool := (st.getLsbD i && !b.getLsbD i) || (a.getLsbD i && b.getLsbD i)

/-- FLAGS and EN take the value under the mask. -/
theorem getLsbD_fpStatWrite_written (st a b : W32) {i : Nat} (hi : i < 5 ∨ (8 ≤ i ∧ i < 13)) :
    (fpStatWrite st a b).getLsbD i = maskedBit st a b i := by
  have h32 : i < 32 := by omega
  have hr : ¬ (16 ≤ i ∧ i < 21) := by omega
  unfold fpStatWrite maskedBit
  simp only [BitVec.getLsbD_or, BitVec.getLsbD_and, BitVec.getLsbD_not, getLsbD_flagsAndEnables, getLsbD_reported, hi, h32, hr]
  simp

/-- A bit of RPT stays only with its flag. -/
theorem getLsbD_fpStatWrite_reported (st a b : W32) {n : Nat} (hn : n < 5) :
    (fpStatWrite st a b).getLsbD (16 + n) = (st.getLsbD (16 + n) && maskedBit st a b n) := by
  have hw : ¬ (16 + n < 5 ∨ (8 ≤ 16 + n ∧ 16 + n < 13)) := by omega
  have hr : 16 ≤ 16 + n ∧ 16 + n < 21 := by omega
  have h32 : 16 + n < 32 := by omega
  have hn32 : n < 32 := by omega
  unfold fpStatWrite maskedBit
  simp only [BitVec.getLsbD_or, BitVec.getLsbD_and, BitVec.getLsbD_not, BitVec.getLsbD_shiftLeft, getLsbD_flagsAndEnables, getLsbD_reported,
    getLsbD_flags, Nat.add_sub_cancel_left, hw, hr, h32, hn, hn32]
  simp

/-- Every other bit is 0. -/
theorem getLsbD_fpStatWrite_reserved (st a b : W32) {i : Nat} (hw : ¬ (i < 5 ∨ (8 ≤ i ∧ i < 13))) (hr : ¬ (16 ≤ i ∧ i < 21)) :
    (fpStatWrite st a b).getLsbD i = false := by
  unfold fpStatWrite
  simp only [BitVec.getLsbD_or, BitVec.getLsbD_and, getLsbD_flagsAndEnables, getLsbD_reported, hw, hr]
  simp

/-- Settles O44: the bits that a write reaches, those of RPT, and the reserved ones. -/
theorem fpStatusWrite : Obligations.FpStatusWrite := by
  unfold Obligations.FpStatusWrite
  refine fun st a b => ⟨fun i hi => getLsbD_fpStatWrite_written st a b hi, fun n hn => ?_, fun i hi => ?_⟩
  · rw [getLsbD_fpStatWrite_reported st a b hn, getLsbD_fpStatWrite_written st a b (.inl hn)]
  · exact getLsbD_fpStatWrite_reserved st a b (by omega) (by omega)

end Sys2Proof.Machine
end

section
/-! SUPPORT. Words whose own part is one register result with FP flags (R126, R150): each retires with the value and the flags of its
rule in every active lane. -/
namespace Sys2Proof.Machine
open Sys2Proof

/-! ### Results with flags -/

/-- A word whose own part gives results and raises the flags of its rule shows them. -/
theorem finish_shows_flagged {x : Exec} {regs : List (Nat × RegVal)} {preds : List (Nat × W32)} {fl : LaneFlags} {r : Results}
    (hb : findBatch x.s x.b.id = some x.b) (hlive : ∀ l ∈ x.act, l ∈ liveLanes x.b)
    (hregs : List.Forall₂ (fun p q => p.1 = q.1 ∧ LaneVals x p.2 q.2) regs r.regs)
    (hpreds : List.Forall₂ (fun p q => p.1 = q.1 ∧ MaskVals x p.2 q.2) preds r.preds) (hfl : fl = r.flags) :
    Shows x x.s (finish x (.res regs preds fl)) r := by
  subst hfl
  obtain ⟨c, hc⟩ := fin_retires x x.s x.b regs preds r.flags hb hlive (forall₂_left (fun _ _ h => h.2.ne_t) hregs)
  exact ⟨x.b, c, regs, preds, hb, hc, hregs.imp fun _ _ h => ⟨h.1, h.2.lanes⟩, hpreds⟩

/-- What a table entry `each k` says of a word. -/
theorem shows_of_each {x : Exec} {k : W32 → W32 → W32 → W32 → W32 × Nat} {e : Effect} {u : State} {r : Results}
    {o : Host.Outcome State Fault Refusal} (he : each k = some e) (heff : e x = some (u, r))
    (h : ∃ t, o = .next t ∧ Shows x x.s t (eachOf x k)) : ∃ t, o = .next t ∧ Shows x u t r := by
  cases he
  cases heff
  exact h

/-! ### One register result by lanes -/

/-- A floating-point word whose lanes give code and flags `f`, a function of its sources. -/
theorem fpu_shows {s : State} {w : FWord} {sp : Spec} {fs : List Fld} {f : Exec → Nat → Nat × Nat} {b : Batch}
    {k : W32 → W32 → W32 → W32 → W32 × Nat} (h : Ready s b (actF b w) sp true)
    (hk : ∀ x l, coded (f x l) = k (lane x .a 0 l) (lane x .b 0 l) (lane x .c 0 l) (lane x .d 0 l))
    (hdep : ∀ i j, SameSrcs (fExec s b w sp) fs i j → coded (f (fExec s b w sp) i) = coded (f (fExec s b w sp) j)) :
    ∃ t, fpu s w sp fs f = .next t ∧ Shows (fExec s b w sp) (fExec s b w sp).s t (eachOf (fExec s b w sp) k) := by
  refine ⟨_, runF_ready s w sp _ b h, ?_⟩
  have hflags : lanesFlags (fExec s b w sp) (fun l => (f (fExec s b w sp) l).2) = (eachOf (fExec s b w sp) k).flags := by
    unfold eachOf
    simp only [← hk]
    rfl
  exact finish_shows_flagged (fExec_find s b w sp h.cur) (fExec_live s b w sp)
    (.cons ⟨rfl, laneVals_srcs (fun i j hs => congrArg Prod.fst (hdep i j hs)) fun l _ _ => congrArg Prod.fst (hk _ l)⟩ .nil) .nil hflags

section
variable {s : State} {o : Host.Outcome State Fault Refusal} {w : FWord} {sp : Spec} {f : Exec → Nat → Nat × Nat} {b : Batch} {p q r : W9}

/-- The same of a word of one source, of two and of three. -/
theorem fpu1_shows {g : W32 → W32 × Nat} (ho : o = fpu s w sp [.a] f) (h : Ready s b (actF b w) sp true)
    (ha : fieldOf sp .a = some (v1, p)) (hg : ∀ x l, coded (f x l) = g (lane x .a 0 l)) :
    ∃ t, o = .next t ∧ Shows (fExec s b w sp) (fExec s b w sp).s t (eachOf (fExec s b w sp) fun a _ _ _ => g a) :=
  ho ▸ fpu_shows h hg fun i j hs => by rw [hg, hg, hs.one (f := .a) (by simp) ha]

theorem fpu2_shows {g : W32 → W32 → W32 × Nat} (ho : o = fpu s w sp [.a, .b] f) (h : Ready s b (actF b w) sp true)
    (ha : fieldOf sp .a = some (v1, p)) (hb : fieldOf sp .b = some (v1, q))
    (hg : ∀ x l, coded (f x l) = g (lane x .a 0 l) (lane x .b 0 l)) :
    ∃ t, o = .next t ∧ Shows (fExec s b w sp) (fExec s b w sp).s t (eachOf (fExec s b w sp) fun a b _ _ => g a b) :=
  ho ▸ fpu_shows h hg fun i j hs => by
    obtain ⟨hsa, hsb⟩ := hs.ab ha hb
    rw [hg, hg, hsa, hsb]

theorem fpu3_shows {g : W32 → W32 → W32 → W32 × Nat} (ho : o = fpu s w sp [.a, .b, .c] f) (h : Ready s b (actF b w) sp true)
    (ha : fieldOf sp .a = some (v1, p)) (hb : fieldOf sp .b = some (v1, q)) (hc : fieldOf sp .c = some (v1, r))
    (hg : ∀ x l, coded (f x l) = g (lane x .a 0 l) (lane x .b 0 l) (lane x .c 0 l)) :
    ∃ t, o = .next t ∧ Shows (fExec s b w sp) (fExec s b w sp).s t (eachOf (fExec s b w sp) fun a b c _ => g a b c) :=
  ho ▸ fpu_shows h hg fun i j hs => by
    obtain ⟨hsa, hsb, hsc⟩ := hs.abc ha hb hc
    rw [hg, hg, hsa, hsb, hsc]

end

/-- An I-form word takes its immediate as its second source (Table 03-12). -/
theorem fpuI_shows {s : State} {op : Nat} {w : IWord} {f : Nat → Nat → Nat × Nat} {b : Batch}
    (h : Ready s b (actI b w) (iSpec op w v1 v1) true) :
    let x := iExec s b w (iSpec op w v1 v1)
    ∃ t, fpuI s op w f = .next t ∧ Shows x x.s t (eachOf x fun a _ _ _ => coded (f a.toNat w.imm.toNat)) :=
  ⟨_, runI_ready s w _ _ b h, finish_shows_flagged (iExec_find s b w _ h.cur) (iExec_live s b w _)
    (.cons ⟨rfl, laneVals_srcs
      (fun i j hs => congrArg (fun a : W32 => BitVec.ofNat 32 (f a.toNat w.imm.toNat).1) (hs.one (f := .a) (by simp) rfl))
      fun _ _ _ => rfl⟩ .nil) .nil rfl⟩

/-! ### Words with an entry of their own -/

/-- FCVT's lanes give a 32-bit value with their flags (R135). -/
theorem coded_toNat (r : W32 × Nat) : coded (r.1.toNat, r.2) = r := by
  unfold coded
  rw [BitVec.ofNat_toNat, BitVec.setWidth_eq]

/-- A special-function word: its result, with its flags, is late (R60, R141). -/
theorem sfu_shows {s : State} {o : Host.Outcome State Fault Refusal} {op : Nat} {w : FWord} {rnd : Bool}
    {f : Fmt → Nat → FVal → Nat × Nat} {b : Batch} (ho : o = sfu s op w rnd f) (h : Ready s b (actF b w) (sfuSpec op w rnd) true) :
    let x := fExec s b w (sfuSpec op w rnd)
    ∃ t, o = .next t ∧ Shows x x.s t (eachOf x fun a _ _ _ => coded (f (fmtOf (modFt w.m)) a.toNat (readF w a))) :=
  fpu1_shows ho h rfl fun _ _ => rfl

theorem fclass_shows {s : State} {w : FWord} {b : Batch}
    (h : Ready s b (actF b w) (specF 0x67 w v1 v1 .z .z typesF false false false) true) :
    let x := fExec s b w (specF 0x67 w v1 v1 .z .z typesF false false false)
    ∃ t, execFclass w s = .next t ∧
      Shows x x.s t (eachOf x fun a _ _ _ => plain (BitVec.ofNat 32 (fClass (fmtOf (modFt w.m)) (fSrc (modFt w.m) a)))) :=
  alu_shows h rfl (fun _ _ _ _ => rfl) (fun i j hs => by rw [hs.one (f := .a) (by simp) rfl]) fun _ _ => rfl

/-- A word of one predicate result, with the flags of its lanes (R131). -/
theorem finish_shows_compare {x : Exec} (n : Nat) (g : Nat → Bool × Nat) (hb : findBatch x.s x.b.id = some x.b)
    (hlive : ∀ l ∈ x.act, l ∈ liveLanes x.b) :
    Shows x x.s (finish x (.res [] [(n, predMask x fun l => (g l).1)] (lanesFlags x fun l => (g l).2)))
      { preds := [(n, fun l => (g l).1)], flags := joinFlags x.act fun l => (g l).2 } :=
  finish_shows_flagged hb hlive .nil (.cons ⟨rfl, maskVals_predMask x _⟩ .nil) rfl

/-- FPXRD reads the status word of its crew (R152). -/
theorem finish_shows_fpxrd {x : Exec} (hb : findBatch x.s x.b.id = some x.b) (hlive : ∀ l ∈ x.act, l ∈ liveLanes x.b) :
    Shows x x.s (finish x (.res [(nameOf x .d 0, .u (crewD x.s x.b.crew).fpStat)] [] []))
      { regs := [(nameOf x .d 0, fun _ => (crewD x.s x.b.crew).fpStat)] } :=
  finish_shows hb hlive (.cons ⟨rfl, nofun, fun _ _ _ => rfl⟩ .nil) .nil (.inl rfl)

/-- Settles O25: each word's own part gives the values of the format rules and raises their flags. -/
theorem floatWords : Obligations.FloatWords := by
  unfold Obligations.FloatWords
  intro s i f e hf he b hready u r heff
  have hb := start_find hf hready.cur
  have hlive := start_live b hf
  unfold floatTable at he
  split at he
  case h_30 => cases he
  all_goals cases Option.some.inj hf
  · next w => exact shows_of_each he heff (fpu2_shows (o := execFadd w s) rfl hready rfl rfl fun _ _ => rfl)
  · next w => exact shows_of_each he heff (fpu2_shows (o := execFsub w s) rfl hready rfl rfl fun _ _ => rfl)
  · next w => exact shows_of_each he heff (fpu2_shows (o := execFmul w s) rfl hready rfl rfl fun _ _ => rfl)
  · next w => exact shows_of_each he heff (fpu3_shows (o := execFma w s) rfl hready rfl rfl rfl fun _ _ => rfl)
  · next w => exact shows_of_each he heff (fpu2_shows (o := execFmin w s) rfl hready rfl rfl fun _ _ => rfl)
  · next w => exact shows_of_each he heff (fpu2_shows (o := execFmax w s) rfl hready rfl rfl fun _ _ => rfl)
  · next w =>
    cases he
    cases heff
    unfold exec execFcmp
    exact ⟨_, runF_ready s w _ _ b hready, finish_shows_compare w.d.toNat _ hb hlive⟩
  · next w => exact shows_of_each he heff (fclass_shows hready)
  · next w => exact shows_of_each he heff (fpu1_shows (o := execFrnd w s) rfl hready rfl fun _ _ => rfl)
  · next w => exact shows_of_each he heff (fpu2_shows (o := execFscale w s) rfl hready rfl rfl fun _ _ => rfl)
  · next w => exact shows_of_each he heff (fpu1_shows (o := execFcvt w s) rfl hready rfl fun _ _ => coded_toNat _)
  · next w => exact shows_of_each he heff (fpu2_shows (o := execFpack2 w s) rfl hready rfl rfl fun _ _ => rfl)
  · next w => exact shows_of_each he heff (fpu1_shows (o := execFunpk2 w s) rfl hready rfl fun _ _ => rfl)
  · next w => exact shows_of_each he heff (fpu3_shows (o := execFma2 w s) rfl hready rfl rfl rfl fun _ _ => rfl)
  · next w => exact shows_of_each he heff (fpu2_shows (o := execFadd2 w s) rfl hready rfl rfl fun _ _ => rfl)
  · next w => exact shows_of_each he heff (fpu2_shows (o := execFmul2 w s) rfl hready rfl rfl fun _ _ => rfl)
  · next w => exact shows_of_each he heff (fpu3_shows (o := execFdot2 w s) rfl hready rfl rfl rfl fun _ _ => rfl)
  · next w => exact shows_of_each he heff (fpuI_shows hready)
  · next w => exact shows_of_each he heff (fpuI_shows hready)
  · next w => exact shows_of_each he heff (sfu_shows (o := execFrcp w s) rfl hready)
  · next w => exact shows_of_each he heff (sfu_shows (o := execFrsq w s) rfl hready)
  · next w => exact shows_of_each he heff (sfu_shows (o := execFsqrt w s) rfl hready)
  · next w => exact shows_of_each he heff (sfu_shows (o := execFex2 w s) rfl hready)
  · next w => exact shows_of_each he heff (sfu_shows (o := execFlg2 w s) rfl hready)
  · next w => exact shows_of_each he heff (sfu_shows (o := execFsin w s) rfl hready)
  · next w => exact shows_of_each he heff (sfu_shows (o := execFcos w s) rfl hready)
  · next w => exact shows_of_each he heff (sfu_shows (o := execFtanh w s) rfl hready)
  · next w =>
    cases he
    cases heff
    exact ⟨_, (runF_ready s w _ _ b hready : execFpxrd w s = _), finish_shows_fpxrd hb hlive⟩
  · next w =>
    cases he
    cases heff
    exact ⟨_, (runF_ready s w _ _ b hready : execFpxset w s = _), finish_shows_done hb hlive .nil .nil⟩

end Sys2Proof.Machine
end

section
/-! SUPPORT. Words that combine the lanes of a pinned batch (R142 to R148): each retires with the combination of its rule in every
active lane. -/
namespace Sys2Proof.Machine
open Sys2Proof

/-! ### Pinned batches (R142) -/

/-- A ready lane word of a pinned batch comes to its own part. -/
theorem laneOp_pinned {s : State} {o : Host.Outcome State Fault Refusal} {w : FWord} {sp : Spec} {body : Exec → Eff} {b : Batch}
    (ho : o = laneOp s w sp body) (h : (formF w sp).Ready s b) (hpin : ((formF w sp).start s b).b.pin.isSome = true) :
    o = .next (finish ((formF w sp).start s b) (body ((formF w sp).start s b))) :=
  exec_runF (ho.trans rfl) h (if_neg (by simpa [Option.isSome_iff_ne_none] using hpin))

/-- What a table entry `pinned g` says of a word. -/
theorem of_pinned {g : Exec → State × Results} {e : Effect} {x : Exec} {u : State} {r : Results} (he : pinned g = some e)
    (heff : e x = some (u, r)) : x.b.pin.isSome = true ∧ g x = (u, r) := by
  cases he
  exact Option.ite_none_right_eq_some.mp heff |>.imp_right Option.some.inj

/-! ### Results that combine the lanes -/

/-- One register result, which no uniformity shortens, with flags that the lanes raise together. -/
theorem finish_shows_combined {x : Exec} (f : Nat → W32) (fl : LaneFlags) (hb : findBatch x.s x.b.id = some x.b)
    (hlive : ∀ l ∈ x.act, l ∈ liveLanes x.b) :
    Shows x x.s (finish x (.res [(nameOf x .d 0, laneResult x false f)] [] fl)) { regs := [(nameOf x .d 0, f)], flags := fl } :=
  finish_shows_flagged hb hlive (.cons ⟨rfl, laneVals_general x f⟩ .nil) .nil rfl

/-- One truth for all the lanes, as a predicate of each active lane. -/
theorem finish_shows_verdict {x : Exec} (n : Nat) {v p : Bool} (hv : v = p) (hb : findBatch x.s x.b.id = some x.b)
    (hlive : ∀ l ∈ x.act, l ∈ liveLanes x.b) :
    Shows x x.s (finish x (.res [] [(n, if v then maskOf x.act else 0)] [])) { preds := [(n, fun _ => p)] } := by
  subst hv
  refine finish_shows hb hlive .nil (.cons ⟨rfl, fun l hl h32 => ?_⟩ .nil) (.inl rfl)
  cases v
  · simp
  · simp [getLsbD_maskOf h32, hl]

/-! ### SHFL (R143, R144) -/

/-- What a lane gets: the value of its source lane, zero when that lane is vacant, and its own where there is none. -/
def shflGets (x : Exec) (mode l : Nat) : W32 :=
  match shflSource mode l (lane x .b 0 l) with
  | some k => laneSrc x .a k
  | none => lane x .a 0 l

theorem laneSrc_eq (x : Exec) (f : Fld) (l : Nat) : laneSrc x f l = if l ∈ liveLanes x.b then lane x f 0 l else 0 := by
  simp only [laneSrc, List.contains_eq_mem, decide_eq_true_eq]

/-- SHFL's own part in a pinned batch: it takes a cause where a source lane holds an error (R286). -/
def shflEff (mode : Nat) (x : Exec) : Eff :=
  match shflFault x mode with
  | some (c, ls) => .trap x.s { wordTrap x c with lanes := ls }
  | none => .res [(nameOf x .d 0, laneResult x false (shflGets x mode))] [] []

theorem finish_shows_shfl {x : Exec} {w : FWord} {e : Effect} {u : State} {r : Results} (he : laneTable (.shfl w) = some e)
    (heff : e x = some (u, r)) (hb : findBatch x.s x.b.id = some x.b) (hlive : ∀ l ∈ x.act, l ∈ liveLanes x.b) :
    x.b.pin.isSome = true ∧ Shows x u (finish x (shflEff (w.m.toNat % 4) x)) r := by
  cases he
  obtain ⟨⟨hpin, hfault⟩, hr⟩ := Option.ite_none_right_eq_some.mp heff
  cases hr
  refine ⟨hpin, ?_⟩
  unfold shflEff
  rw [Option.isNone_iff_eq_none.mp hfault]
  simp only [← laneSrc_eq]
  exact finish_shows_combined (shflGets x (w.m.toNat % 4)) [] hb hlive

/-! ### VOTE (R145) -/

/-- The active lanes whose predicate is true. -/
def votes (x : Exec) (n : Nat) : List Nat := x.act.filter fun l => predBit (fibreOf x.b l).pw n

theorem votes_all (x : Exec) (n : Nat) : ((votes x n).length == x.act.length) = decide (votes x n = x.act) := by
  rw [beq_eq_decide, decide_eq_decide]
  exact ⟨List.filter_sublist.eq_of_length, congrArg List.length⟩

theorem votes_any (x : Exec) (n : Nat) : (!(votes x n).isEmpty) = decide (votes x n ≠ []) := by
  cases votes x n <;> simp

theorem votes_alike (x : Exec) (n : Nat) :
    ((votes x n).length == x.act.length || (votes x n).isEmpty) = decide (votes x n = x.act ∨ votes x n = []) := by
  rw [votes_all, Bool.decide_or]
  cases votes x n <;> simp

/-- VOTE's own part in a pinned batch. -/
def voteEff (w : FWord) (x : Exec) : Eff :=
  match w.m.toNat % 4 with
  | 3 => .res [(nameOf x .d 0, laneResult x false fun _ => maskOf (votes x w.a.toNat))] [] []
  | mode =>
    let r := match mode with
      | 0 => (votes x w.a.toNat).length == x.act.length
      | 1 => !(votes x w.a.toNat).isEmpty
      | _ => (votes x w.a.toNat).length == x.act.length || (votes x w.a.toNat).isEmpty
    .res [] [(w.d.toNat, if r then maskOf x.act else 0)] []

theorem finish_shows_vote {x : Exec} {w : FWord} {e : Effect} {u : State} {r : Results} (he : laneTable (.vote w) = some e)
    (heff : e x = some (u, r)) (hb : findBatch x.s x.b.id = some x.b) (hlive : ∀ l ∈ x.act, l ∈ liveLanes x.b) :
    x.b.pin.isSome = true ∧ Shows x u (finish x (voteEff w x)) r := by
  unfold laneTable at he
  unfold voteEff
  dsimp only at he
  split at he
  all_goals
    obtain ⟨hpin, hr⟩ := of_pinned he heff
    cases hr
    refine ⟨hpin, ?_⟩
  case h_1 hm =>
    rw [hm]
    exact finish_shows_combined _ [] hb hlive
  case h_2 hm =>
    rw [hm]
    exact finish_shows_verdict _ (votes_all x _) hb hlive
  case h_3 hm =>
    rw [hm]
    exact finish_shows_verdict _ (votes_any x _) hb hlive
  case h_4 h3 h0 h1 =>
    simp only [imp_false] at h3 h0 h1
    rw [show w.m.toNat % 4 = 2 by omega]
    exact finish_shows_verdict _ (votes_alike x _) hb hlive

/-! ### The words -/

/-- Settles O26: in a pinned batch each word's own part combines the lanes as its rule says. -/
theorem laneWords : Obligations.LaneWords := by
  unfold Obligations.LaneWords
  intro s i f e hf he b hready u r heff
  have hb := start_find hf hready.cur
  have hlive := start_live b hf
  unfold laneTable at he
  split at he
  case h_6 => cases he
  all_goals cases Option.some.inj hf
  case h_1 w =>
    obtain ⟨hpin, hshows⟩ := finish_shows_shfl he heff hb hlive
    exact ⟨_, laneOp_pinned (o := execShfl w s) (body := shflEff (w.m.toNat % 4)) rfl hready hpin, hshows⟩
  case h_2 w =>
    obtain ⟨hpin, hshows⟩ := finish_shows_vote he heff hb hlive
    exact ⟨_, laneOp_pinned (o := execVote w s) (body := voteEff w) rfl hready hpin, hshows⟩
  all_goals
    obtain ⟨hpin, hr⟩ := of_pinned he heff
    cases hr
  case h_3 w => exact ⟨_, laneOp_pinned (o := execRedl w s) rfl hready hpin, finish_shows_combined _ _ hb hlive⟩
  case h_4 w => exact ⟨_, laneOp_pinned (o := execScanl w s) rfl hready hpin, finish_shows_combined _ _ hb hlive⟩
  case h_5 w => exact ⟨_, laneOp_pinned (o := execMatchL w s) rfl hready hpin, finish_shows_combined _ _ hb hlive⟩

end Sys2Proof.Machine
end

section
/-! SUPPORT. The matrix array where the statements' tables say something else than a word and an event do: WWAIT while an exchange is under
way (R202, R203, R286), and the completion of a pass that is not closed (R208, R209). -/
namespace Sys2Proof.Machine
open Sys2Proof

/-! ### A crew with a tile, on an array at rest -/

/-- A batch of core 0 with one lane, whose stores the hardware may hold. -/
def arrayBatch : Batch := { fillBatch with slot := 0, late := true }

/-- Its crew, which has one tile. -/
def arrayCrew : Crew := { fillCrew with slots := [0], fill := none, tiles := [{}] }

/-- The device with that crew alone and its batch in charge, core 0 as `k`, these errors and these stores that the batch still holds. -/
def arrayState (k : Core) (errors : List Upset) (stores : List StoreSrc) : State :=
  { State.reset with
    cur := 1, batches := [{ arrayBatch with stores := stores }], crews := [arrayCrew], upsets := errors
    cores := State.reset.cores.set 0 k, ctxs := State.reset.ctxs.set 0 { state := .resident } }

/-- What one sees of a core in the state that an instruction answers. -/
def nextCore {α : Type} (see : Core → α) : Host.Outcome State Fault Refusal → Option α
  | .next t => some (see (coreD t 0))
  | _ => none

/-! ### WWAIT of a plane whose error goes by its place -/

/-- Both planes are READY, and a WSWAP has been issued: wA names the plane that stands in the place of wS until the planes change
places. That plane has a parity error. -/
def exchangingState : State :=
  arrayState { planeA := { state := 2 }, planeS := { state := 2 }, swap := true } [.plane 0 1] []

/-- WWAIT wA, unguarded. -/
def wwaitWord : FWord := ⟨false, false, 7, false, 0, 0, 0, 0, false, 0⟩

def wwaitForm : Form := formF wwaitWord (matSpec 0xD3 wwaitWord .z .wp .z .z (wwaitWord.m = 0))

/-- What the effect of that WWAIT starts from. -/
def wwaitStart : Exec := wwaitForm.start exchangingState arrayBatch

theorem wwaitForm_ready : wwaitForm.Ready exchangingState arrayBatch where
  cur := rfl
  active := by decide
  free := by decide +kernel
  legal := by decide +kernel
  whole := by decide +kernel

/-- The tables ask for the error in the place of wA, where there is none. -/
theorem wwaitStart_planeReady : (arrayOpen wwaitStart true && planeReady wwaitStart 0) = true := by decide +kernel

/-- The plane that wA names is READY as WWAIT starts. -/
theorem wwaitStart_plane : (coreD wwaitStart.s 0).planeS.state = 2 := by decide +kernel

/-- WWAIT meets the error of the plane that it names, which is FAULTED. -/
theorem exec_wwait_faults : nextCore (·.planeS.state) (exec (.wwait wwaitWord) exchangingState) = some 3 := by decide +kernel

/-- A word that retires leaves the cores as its own part did. -/
theorem Shows.cores {x : Exec} {u t : State} {r : Results} (h : Shows x u t r) : t.cores = u.cores := by
  obtain ⟨_, _, _, _, _, hret, _⟩ := h
  rw [hret.rest]

/-- So this WWAIT does not retire with the effect of the tables, which leaves every plane as it was. -/
theorem wwait_not_shows {t : State} {r : Results} (ht : exec (.wwait wwaitWord) exchangingState = .next t) :
    ¬ Shows wwaitStart wwaitStart.s t r := by
  intro hshows
  have hfaulted := exec_wwait_faults
  rw [ht] at hfaulted
  have hkept : coreD t 0 = coreD wwaitStart.s 0 := congrArg (·.getD 0 default) hshows.cores
  have hready : (coreD t 0).planeS.state = 2 := hkept ▸ wwaitStart_plane
  exact absurd (hready.symm.trans (Option.some.inj hfaulted)) (by decide)

/-- What the table gives for WWAIT in that state. -/
theorem matrixTable_wwait {e : Effect} (he : matrixTable (.wwait wwaitWord) = some e) : e wwaitStart = some (wwaitStart.s, {}) := by
  cases Option.some.inj he
  exact if_pos wwaitStart_planeReady

/-- Refutes O31: after a WSWAP and before the planes change places, WWAIT of a plane with a parity error takes its cause, and the
table asks for the error in the other place and lets the word complete. -/
theorem not_matrixWords : ¬ Obligations.MatrixWords := by
  unfold Obligations.MatrixWords
  intro h
  obtain ⟨t, ht, hshows⟩ := h exchangingState (.wwait wwaitWord) wwaitForm _ rfl rfl _ wwaitForm_ready _ _ (matrixTable_wwait rfl)
  exact wwait_not_shows ht hshows

/-- Refutes O47: in the same state the condition for WWAIT holds, and the word takes the cause of the plane. -/
theorem not_matrixWordsComplete : ¬ Obligations.MatrixWordsComplete := by
  unfold Obligations.MatrixWordsComplete
  intro h
  obtain ⟨t, ht, e, u, r, he, hu, hshows⟩ :=
    h exchangingState (.wwait wwaitWord) wwaitForm _ _ rfl rfl wwaitForm_ready wwaitStart_planeReady
  cases Option.some.inj ((matrixTable_wwait he).symm.trans hu)
  exact wwait_not_shows ht hshows

/-! ### The completion of an open pass -/

/-- A quarter of MMQ number 7, which has not read its activations. -/
def lateQuarter : Quarter where
  batch := 1
  crew := 1
  tile := 0
  zero := true
  fmt := 0
  rows := []
  weights := {}
  reads := some 7

/-- An open pass with that quarter, and the place of the quarter's reads among the stores that its batch holds. -/
def openPassState : State :=
  arrayState { passes := [{ plane := 0, opened := 0, closed := false, quarters := [lateQuarter] }] } []
    [{ lanes := [0], data := [], colour := 0, loc := .scratch 1 0, since := 0, reads := some 7 }]

/-- The reads that the passes of a core have still to perform. -/
def readsToCome (k : Core) : List (Option Nat) := k.passes.flatMap fun p => p.quarters.map (·.reads)

/-- A pass that is not closed does not complete: its quarters have still to read. -/
theorem exec_passComplete_open : nextCore readsToCome (exec (.passComplete 0) openPassState) = some [some 7] := by decide +kernel

/-- The quarters of the pass have read in the state that the table gives. -/
theorem settlePass_openPassState : readsToCome (coreD (settlePass openPassState 0) 0) = [none] := by decide +kernel

/-- The table has the quarters of the first pass read, also where that pass is open and the event is not due. -/
theorem arrayEvents_passComplete_open {e : EventEffect} (he : arrayEvents (.passComplete 0) = some e) :
    e openPassState = some (settlePass openPassState 0) := by
  cases Option.some.inj he
  decide +kernel

/-- Refutes O50: PASS_COMPLETE of a pass that is open changes nothing, and the table performs the reads of its quarters. -/
theorem not_arrayEvents : ¬ Obligations.ArrayEvents := by
  unfold Obligations.ArrayEvents
  intro h
  have hnext := (h (.passComplete 0) _ rfl openPassState).1 _ (arrayEvents_passComplete_open rfl)
  have hwait := exec_passComplete_open
  rw [hnext] at hwait
  exact absurd (settlePass_openPassState.symm.trans (Option.some.inj hwait)) (by decide)

end Sys2Proof.Machine
end

section
/-! SUPPORT. What a table of events says, as a function of the state: the form in which each event is proved. -/
namespace Sys2Proof.Machine
open Sys2Proof

/-- The state that a table of events gives for an event: that of the event's effect, or the same one where the event is not due. -/
def tableNext (table : Instr → Option EventEffect) (i : Instr) (s : State) : State := ((table i).bind fun e => e s).getD s

/-- The events of a table happen where each answers the state that the table gives. -/
theorem happens_of_tableNext {table : Instr → Option EventEffect}
    (h : ∀ i e, table i = some e → ∀ s, exec i s = .next (tableNext table i s)) : Happens table := by
  intro i e he s
  have hnext := h i e he s
  rw [tableNext, he, Option.bind_some] at hnext
  exact ⟨fun t ht => by rw [hnext, ht, Option.getD_some], fun ht => by rw [hnext, ht, Option.getD_none]⟩

/-- The model tests whether an event is due where the table says it with `due`. -/
theorem next_due (p : Bool) (t s : State) :
    (if p then .next t else .next s : Host.Outcome State Fault Refusal) = .next ((due p t).getD s) := by
  cases p <;> rfl

end Sys2Proof.Machine
end

section
/-! SUPPORT. A line of an L1 is written back (R331, R448, R482): what its core, the other cores and memory hold then. -/
namespace Sys2Proof.Machine
open Sys2Proof

/-- A fold of steps that keep what one sees of the state keeps it. -/
theorem foldl_keeps {α β : Type} {see : State → β} {f : State → α → State} (hf : ∀ s a, see (f s a) = see s) (l : List α) :
    ∀ s : State, see (l.foldl f s) = see s := by
  induction l with
  | nil => exact fun _ => rfl
  | cons a l ih => exact fun s => (ih _).trans (hf s a)

/-! ### Words mended and bytes written at their home -/

@[simp] theorem mendWords_cores (s : State) (pa n : Nat) : (mendWords s pa n).cores = s.cores := by
  unfold mendWords; split <;> rfl

@[simp] theorem homePut_cores (s : State) (pa : Nat) (v : Byte) : (homePut s pa v).cores = s.cores := by
  show (unzeroLine s pa).cores = s.cores
  unfold unzeroLine
  split
  · exact mendWords_cores ..
  · rfl

@[simp] theorem memByte_mendWords (s : State) (pa n a : Nat) : memByte (mendWords s pa n) a = memByte s a := by
  unfold memByte homeByte lineZero
  rw [mendWords_mem, mendWords_zeroMask]

theorem memByte_homePut (s : State) (pa : Nat) (v : Byte) (a : Nat) :
    memByte (homePut s pa v) a = if a = pa then v else memByte s a := homeByte_homePut s pa v a

/-- The words that the write-back of a line replaces whole end their errors: the second fold of `flushLine`. -/
def mendFull (key : Nat) (l : L1Line) (s : State) : State :=
  (List.range 16).foldl (fun s w => if l.dirty / 2 ^ (8 * w) % 256 = 255 then mendWords s (128 * key + 8 * w) 8 else s) s

theorem mendFull_cores (key : Nat) (l : L1Line) (s : State) : (mendFull key l s).cores = s.cores := by
  refine foldl_keeps (see := State.cores) (fun s w => ?_) _ s
  split
  · exact mendWords_cores ..
  · rfl

theorem memByte_mendFull (key : Nat) (l : L1Line) (s : State) (a : Nat) : memByte (mendFull key l s) a = memByte s a := by
  refine foldl_keeps (see := (memByte · a)) (fun s w => ?_) _ s
  split
  · exact memByte_mendWords ..
  · rfl

/-- Bytes written at their places from an address on: the first fold of `flushLine`. -/
def putBytes (base : Nat) (ps : List (Nat × Byte)) (s : State) : State := ps.foldl (fun s p => homePut s (base + p.1) p.2) s

theorem putBytes_cores (base : Nat) (ps : List (Nat × Byte)) (s : State) : (putBytes base ps s).cores = s.cores := by
  refine foldl_keeps (see := State.cores) (fun s p => ?_) ps s
  exact homePut_cores ..

theorem memByte_putBytes_ne {base a : Nat} {ps : List (Nat × Byte)} :
    ∀ {s : State}, (∀ p ∈ ps, base + p.1 ≠ a) → memByte (putBytes base ps s) a = memByte s a := by
  induction ps with
  | nil => exact fun _ => rfl
  | cons p ps ih =>
    intro s h
    obtain ⟨hp, hps⟩ := List.forall_mem_cons.mp h
    exact (ih hps).trans ((memByte_homePut ..).trans (if_neg (Ne.symm hp)))

/-- A place that is written with one value alone holds it. -/
theorem memByte_putBytes_mem {base i : Nat} {v : Byte} {ps : List (Nat × Byte)} (hone : ∀ w, (i, w) ∈ ps → w = v)
    (h : (i, v) ∈ ps) : ∀ s : State, memByte (putBytes base ps s) (base + i) = v := by
  induction ps with
  | nil => cases h
  | cons p ps ih =>
    intro s
    by_cases hlater : (i, v) ∈ ps
    · exact ih (fun w hw => hone w (List.mem_cons_of_mem _ hw)) hlater _
    · obtain rfl : (i, v) = p := (List.mem_cons.mp h).resolve_right hlater
      have hne : ∀ q ∈ ps, base + q.1 ≠ base + i := by
        rintro ⟨j, w⟩ hq hj
        obtain rfl : j = i := Nat.add_left_cancel hj
        exact hlater (hone w (List.mem_cons_of_mem _ hq) ▸ hq)
      exact (memByte_putBytes_ne hne).trans ((memByte_homePut ..).trans (if_pos rfl))

/-! ### The dirty bytes of a line reach its home -/

theorem mem_dirtyBytes {l : L1Line} {i : Nat} {v : Byte} :
    (i, v) ∈ dirtyBytes l ↔ i < 128 ∧ l.bytes[i]? = some v ∧ l.dirty.testBit i = true := by
  rw [dirtyBytes, List.mem_filter, List.mem_iff_getElem?, ← and_assoc]
  refine and_congr_left fun _ => ⟨fun ⟨j, hj⟩ => ?_, fun ⟨hi, hv⟩ => ⟨i, ?_⟩⟩
  · obtain ⟨hr, hv⟩ := List.getElem?_zip_eq_some.mp hj
    obtain ⟨hlt, rfl⟩ := List.getElem?_eq_some_iff.mp hr
    rw [List.getElem_range] at hv ⊢
    exact ⟨by rwa [List.length_range] at hlt, hv⟩
  · exact List.getElem?_zip_eq_some.mpr ⟨List.getElem?_range hi, hv⟩

theorem flushLine_cores (s : State) (core key : Nat) (l : L1Line) : (flushLine s core key l).cores = s.cores := by
  unfold flushLine
  split
  · rfl
  · exact (mendFull_cores key l _).trans (putBytes_cores (128 * key) (dirtyBytes l) (touchHome s (128 * key) 128))

theorem flushLine_lost {s : State} {core key : Nat} {l : L1Line} (h : paLost s (128 * key) = true) :
    flushLine s core key l = postLost s l.owner := if_pos h

theorem memByte_flushLine {s : State} {core key : Nat} {l : L1Line} (h : paLost s (128 * key) = false) (a : Nat) :
    memByte (flushLine s core key l) a = memByte (putBytes (128 * key) (dirtyBytes l) (touchHome s (128 * key) 128)) a := by
  unfold flushLine
  rw [if_neg (Bool.eq_false_iff.mp h)]
  exact memByte_mendFull key l _ a

theorem memByte_flushLine_dirty {s : State} {core key i : Nat} {l : L1Line} {v : Byte} (h : paLost s (128 * key) = false)
    (hi : i < 128) (hv : l.bytes[i]? = some v) (hd : l.dirty.testBit i = true) :
    memByte (flushLine s core key l) (128 * key + i) = v := by
  rw [memByte_flushLine h]
  refine memByte_putBytes_mem (fun w hw => ?_) (mem_dirtyBytes.mpr ⟨hi, hv, hd⟩) _
  obtain ⟨-, hw, -⟩ := mem_dirtyBytes.mp hw
  exact Option.some.inj (hw.symm.trans hv)

/-- A byte that is no dirty one of the line stays as it was. -/
theorem memByte_flushLine_other (s : State) (core key : Nat) (l : L1Line) {a : Nat}
    (h : a / 128 = key → l.dirty.testBit (a % 128) = false) : memByte (flushLine s core key l) a = memByte s a := by
  cases hlost : paLost s (128 * key) with
  | true => rw [flushLine_lost hlost]; rfl
  | false =>
    rw [memByte_flushLine hlost]
    refine memByte_putBytes_ne fun ⟨i, v⟩ hp ha => ?_
    obtain ⟨hi, -, hd⟩ := mem_dirtyBytes.mp hp
    obtain ⟨rfl, rfl⟩ : a / 128 = key ∧ a % 128 = i := by dsimp only at ha; omega
    rw [h rfl] at hd
    cases hd

/-! ### The line in its L1 -/

/-- A line as its write-back leaves it. -/
def cleanLine (l : L1Line) : L1Line := { l with dirty := 0, colours := 0 }

theorem lt_cores_of_l1 {s : State} {core key : Nat} {l : L1Line} (h : kvGet (coreD s core).l1 key = some l) :
    core < s.cores.length := by
  by_contra hge
  rw [coreD, List.getD_eq_default _ _ (Nat.not_lt.mp hge)] at h
  cases h

theorem l1_setL1 {s : State} {core : Nat} (hc : core < s.cores.length) (key : Nat) (l : L1Line) (k : Nat) :
    kvGet (coreD (setL1 s core key l) core).l1 k = if k = key then some l else kvGet (coreD s core).l1 k := by
  rw [setL1, coreD_modCore, if_pos ⟨rfl, hc⟩]
  exact kvGet_kvSet ..

theorem coreD_setL1_ne {s : State} {core c : Nat} (hc : c ≠ core) (key : Nat) (l : L1Line) :
    coreD (setL1 s core key l) c = coreD s c := by
  rw [setL1, coreD_modCore, if_neg fun h => hc h.1]

/-! ### The write-back of a line whose dirty bytes meet no error -/

section
variable {s : State} {core key : Nat} {l : L1Line} (hl : kvGet (coreD s core).l1 key = some l) (hb : badBytes s core key l = 0)
include hl hb

theorem loseBad_of_sound : loseBad s core key = s := by
  unfold loseBad
  rw [hl]
  dsimp only
  rw [if_pos hb]
  exact ite_self s

theorem writeBack_clean (hd : l.dirty = 0) : writeBack s core key = s := by
  unfold writeBack
  rw [loseBad_of_sound hl hb]
  dsimp only
  rw [hl]
  exact if_pos hd

theorem writeBack_dirty (hd : l.dirty ≠ 0) :
    writeBack s core key =
      if remapBusy s (128 * key) then { setL1 s core key (cleanLine l) with backlog := s.backlog ++ [(core, key, l)] }
      else flushLine (setL1 s core key (cleanLine l)) core key l := by
  unfold writeBack
  rw [loseBad_of_sound hl hb]
  dsimp only
  rw [hl]
  exact if_neg hd

/-- The cores change in that line alone, whether or not its bytes reach their home. -/
theorem coreD_writeBack (hd : l.dirty ≠ 0) (c : Nat) :
    coreD (writeBack s core key) c = coreD (setL1 s core key (cleanLine l)) c := by
  have hcores : (writeBack s core key).cores = (setL1 s core key (cleanLine l)).cores := by
    rw [writeBack_dirty hl hb hd]
    split
    · rfl
    · exact flushLine_cores ..
  exact congrArg (·.getD c default) hcores

theorem l1_writeBack_self : ∃ l', kvGet (coreD (writeBack s core key) core).l1 key = some l' ∧ l'.dirty = 0 ∧ l'.bytes = l.bytes := by
  by_cases hd : l.dirty = 0
  · exact ⟨l, by rw [writeBack_clean hl hb hd, hl], hd, rfl⟩
  · refine ⟨cleanLine l, ?_, rfl, rfl⟩
    rw [coreD_writeBack hl hb hd, l1_setL1 (lt_cores_of_l1 hl), if_pos rfl]

theorem l1_writeBack_ne {k : Nat} (hk : k ≠ key) : kvGet (coreD (writeBack s core key) core).l1 k = kvGet (coreD s core).l1 k := by
  by_cases hd : l.dirty = 0
  · rw [writeBack_clean hl hb hd]
  · rw [coreD_writeBack hl hb hd, l1_setL1 (lt_cores_of_l1 hl), if_neg hk]

theorem coreD_writeBack_ne {c : Nat} (hc : c ≠ core) : coreD (writeBack s core key) c = coreD s c := by
  by_cases hd : l.dirty = 0
  · rw [writeBack_clean hl hb hd]
  · rw [coreD_writeBack hl hb hd, coreD_setL1_ne hc]

theorem memByte_writeBack_dirty (hbusy : remapBusy s (128 * key) = false) (hup : paLost s (128 * key) = false) {i : Nat} {v : Byte}
    (hi : i < 128) (hv : l.bytes[i]? = some v) (hbit : l.dirty.testBit i = true) :
    memByte (writeBack s core key) (128 * key + i) = v := by
  have hd : l.dirty ≠ 0 := fun h => by simp [h] at hbit
  rw [writeBack_dirty hl hb hd, hbusy]
  exact memByte_flushLine_dirty hup hi hv hbit

theorem memByte_writeBack_other {a : Nat} (ha : a / 128 = key → l.dirty.testBit (a % 128) = false) :
    memByte (writeBack s core key) a = memByte s a := by
  by_cases hd : l.dirty = 0
  · rw [writeBack_clean hl hb hd]
  · rw [writeBack_dirty hl hb hd]
    split
    · rfl
    · exact memByte_flushLine_other _ core key l ha

/-- While a remap step runs on the column (R482), or behind a link that is DOWN (R448), no byte of memory changes. -/
theorem memByte_writeBack_held (h : remapBusy s (128 * key) = true ∨ paLost s (128 * key) = true) (a : Nat) :
    memByte (writeBack s core key) a = memByte s a := by
  by_cases hd : l.dirty = 0
  · rw [writeBack_clean hl hb hd]
  · rw [writeBack_dirty hl hb hd]
    split
    · rfl
    · next hbusy =>
      have hlost : paLost (setL1 s core key (cleanLine l)) (128 * key) = true := h.resolve_left hbusy
      rw [flushLine_lost hlost]
      rfl

end

end Sys2Proof.Machine
end

section
/-! SUPPORT. The events of the cores (R50, R61, R123, R252, R331, R457, R465) against their table. -/
namespace Sys2Proof.Machine
open Sys2Proof

theorem exec_batchMerge (a b : Nat) (s : State) :
    exec (.batchMerge a b) s = .next (tableNext coreEvents (.batchMerge a b) s) := by
  show execBatchMerge a b s = .next (((findBatch s a).bind fun x => (findBatch s b).bind fun y => due (canMerge s x y) _).getD s)
  unfold execBatchMerge
  rcases findBatch s a with _ | x
  · rfl
  rcases findBatch s b with _ | y
  · rfl
  rw [Option.bind_some, Option.bind_some, ← next_due]
  dsimp only
  cases joinFault s [x, y] <;> rfl

/-- The table and `landTrap` tell the same cases apart in another order: whether a trap waited for the park, and whether the batch
sleeps on. -/
theorem exec_parkResume (b : Nat) (s : State) :
    exec (.parkResume b) s = .next (tableNext coreEvents (.parkResume b) s) := by
  show execParkResume b s = .next (((findBatch s b).bind fun x => due (parkOver s x) _).getD s)
  unfold execParkResume
  cases hx : findBatch s b with
  | none => rfl
  | some x =>
    have hid : x.id = b := findBatch_id hx
    rw [Option.bind_some, ← next_due]
    dsimp only
    cases landFault s x with
    | none => rfl
    | some c =>
      simp only [landTrap, hid]
      cases x.trap with
      | none => simp
      | some t => simp

theorem exec_sleepEnd (b : Nat) (s : State) :
    exec (.sleepEnd b) s = .next (tableNext coreEvents (.sleepEnd b) s) := by
  show execSleepEnd b s = .next (((findBatch s b).bind _).getD s)
  unfold execSleepEnd
  cases findBatch s b with
  | none => rfl
  | some x => exact next_due (sleepOver s x) _ s

theorem exec_trapEntry (b : Nat) (s : State) :
    exec (.trapEntry b) s = .next (tableNext coreEvents (.trapEntry b) s) := by
  show execTrapEntry b s = .next (((findBatch s b).bind fun x => x.trap.bind _).getD s)
  unfold execTrapEntry
  cases findBatch s b with
  | none => rfl
  | some x =>
    dsimp only
    rw [Option.bind_some]
    cases ht : x.trap with
    | none => rfl
    | some t =>
      simp only [entryDue, ht, Option.isSome_some, Bool.true_and]
      exact next_due _ _ s

/-- An identity that is no batch's may be a crew's, whose waiting members the watchdog drops (log 78). -/
theorem exec_watchdog (b : Nat) (s : State) :
    exec (.watchdog b) s = .next (tableNext coreEvents (.watchdog b) s) := by
  show execWatchdog b s = .next (Option.getD (match findBatch s b with
      | none => (findCrew s b).bind fun c => due (!(overdueMembers s c).isEmpty) _
      | some x => due (watchdogDue s x) _) s)
  unfold execWatchdog
  cases findBatch s b with
  | none =>
    cases findCrew s b with
    | none => rfl
    | some c =>
      simp only [Option.map_some, Option.getD_some, Option.bind_some, dropOverdue]
      cases (overdueMembers s c).isEmpty <;> rfl
  | some x =>
    dsimp only
    rw [← next_due]
    cases watchdogDue s x <;> rfl

/-- The table looks for the set before it asks whether the batch wants it, and the model the other way round: without either nothing
moves. -/
theorem exec_xsetReacquire (b : Nat) (s : State) :
    exec (.xsetReacquire b) s = .next (tableNext coreEvents (.xsetReacquire b) s) := by
  show execXsetReacquire b s = .next (((findBatch s b).bind fun x => (findXSet s x.core (x.slot / 2)).bind _).getD s)
  unfold execXsetReacquire
  cases findBatch s b with
  | none => rfl
  | some x =>
    rw [Option.bind_some]
    dsimp only [reacquired]
    cases findXSet s x.core (x.slot / 2) with
    | none => cases wantsSet s x <;> rfl
    | some t =>
      rw [Option.bind_some]
      dsimp only
      cases wantsSet s x with
      | false => rfl
      | true =>
        cases setFree s x t with
        | false => cases t.waiters.contains x.id <;> rfl
        | true => rfl

theorem happens_coreEvents : Happens coreEvents := by
  refine happens_of_tableNext fun i e he s => ?_
  unfold coreEvents at he
  split at he
  · exact exec_batchMerge _ _ s
  · exact exec_parkResume _ s
  · exact exec_sleepEnd _ s
  · exact exec_trapEntry _ s
  · exact exec_watchdog _ s
  · exact exec_xsetReacquire _ s
  · rfl
  · cases he

/-- Settles O49: each event gives the state of its table, and a write-back leaves its line clean with the dirty bytes at their home. -/
theorem coreEventsHold : Obligations.CoreEvents := by
  unfold Obligations.CoreEvents
  refine ⟨happens_coreEvents, fun s core line l hl hb => ⟨writeBack s core line, rfl, ?_⟩⟩
  exact ⟨l1_writeBack_self hl hb, fun _ => l1_writeBack_ne hl hb, fun _ => coreD_writeBack_ne hl hb,
    fun hbusy hup _ _ => memByte_writeBack_dirty hl hb hbusy hup, fun _ => memByte_writeBack_other hl hb,
    memByte_writeBack_held hl hb⟩

end Sys2Proof.Machine
end

section
/-! SUPPORT. Placement, pre-emption, restore, aging, slabs and pipeline crews (R248, R262, R268, R373, R375, R376, R444) against their
table. -/
namespace Sys2Proof.Machine
open Sys2Proof

/-! ### The states that the table writes out -/

theorem yields_iff (s : State) (r : Run) (p : Nat × NodeRun) :
    yields s r p = true ↔
      !r.dead ∧ p.2.state = .running ∧ !(p.2.kready.isEmpty && p.2.ready.isEmpty) ∧ !hasWaiting s r.id p.1 := by
  simp only [yields, Bool.and_eq_true, beq_iff_eq, and_assoc]

theorem nodesYield_eq (s : State) : nodesYield s = withYield s := by
  unfold nodesYield withYield
  congr
  funext s r
  congr
  funext s p
  unfold yieldNode
  by_cases h : yields s r p = true
  · simp only [h, Bool.not_true, Bool.false_eq_true, if_false]
    exact if_pos ((yields_iff s r p).mp h)
  · simp only [h, Bool.not_false, if_true]
    exact if_neg fun hn => h ((yields_iff s r p).mpr hn)

/-- The save slot is picked and the crews' fibres start in the same order (R443, R248). -/
theorem clusterBegins_eq (s : State) (k : Cluster) (cc : Nat) (crews : List (Nat × Nat)) :
    clusterBegins s k cc crews = beginCluster s k cc crews := rfl

/-- The table's kept batches, areas and header of a save slot are those that the model writes (R262, R443). -/
theorem clusterSaved_eq (s : State) (id : Nat) : clusterSaved s id = saveCluster s id := rfl

/-- The table reads back each area at the same place, in the same order (R444, R445). -/
theorem clusterRestored_eq (s : State) (k : Cluster) (placed : State) (cores : List (Nat × Nat)) (cc : Nat) :
    clusterRestored s k placed cores cc = restoreCluster s k placed cores cc := rfl

/-! ### The events -/

theorem exec_preemptCluster (cl : Nat) (s : State) :
    exec (.preemptCluster cl) s = .next (tableNext placeEvents (.preemptCluster cl) s) := by
  show execPreemptCluster cl s = .next (((findCluster s cl).bind _).getD s)
  unfold execPreemptCluster
  cases findCluster s cl with
  | none => rfl
  | some k =>
    rw [Option.bind_some, clusterSaved_eq, ← next_due]
    dsimp only
    cases clusterUE s cl <;> rfl

theorem exec_clusterRestore (s : State) : exec .clusterRestore s = .next (tableNext placeEvents .clusterRestore s) := by
  show execClusterRestore s = .next (Option.getD (if needsYield s ∨ s.clusters.any (agingDue s) then none else _) s)
  unfold execClusterRestore
  split
  · rfl
  rcases nextPlace s with _ | ⟨k, cc, _ | ⟨p, cores⟩⟩
  · rfl
  · rfl
  · dsimp only
    rw [clusterRestored_eq]
    exact next_due (allConverted (.back p cores) cc) _ s

theorem exec_clusterPlace (s : State) : exec .clusterPlace s = .next (tableNext placeEvents .clusterPlace s) := by
  show execClusterPlace s = .next (Option.getD (if needsYield s then _ else if s.clusters.any (agingDue s) then none else _) s)
  unfold execClusterPlace
  rw [nodesYield_eq]
  split
  · rfl
  split
  · rfl
  rcases nextPlace s with _ | ⟨k, cc, ⟨p, crews⟩ | _⟩
  · cases smallerReady s <;> rfl
  · dsimp only
    rw [clusterBegins_eq]
    exact next_due (allConverted (.fresh p crews) cc) _ s
  · rfl

theorem exec_classAging (cl : Nat) (s : State) :
    exec (.classAging cl) s = .next (tableNext placeEvents (.classAging cl) s) := by
  show execClassAging cl s = .next (((findCluster s cl).bind _).getD s)
  unfold execClassAging
  cases findCluster s cl with
  | none => rfl
  | some k => exact next_due (agingDue s k) _ s

theorem exec_slabConvert (core : Nat) (s : State) :
    exec (.slabConvert core) s = .next (tableNext placeEvents (.slabConvert core) s) :=
  next_due (convertDue s core) _ s

theorem exec_slabReturn (core : Nat) (s : State) :
    exec (.slabReturn core) s = .next (tableNext placeEvents (.slabReturn core) s) :=
  next_due (returnDue s core) _ s

theorem exec_pipelineReassign (run n : Nat) (s : State) :
    exec (.pipelineReassign run n) s = .next (tableNext placeEvents (.pipelineReassign run n) s) := by
  show execPipelineReassign run n s =
    .next (Option.getD (match (findRun s run).bind fun r => (kvGet r.nodes n).bind fun x => pipeAdmit s r n x with
      | some ((j, m), k, cc, .fresh p crews) => _
      | _ => none) s)
  unfold execPipelineReassign
  rcases (findRun s run).bind fun r => (kvGet r.nodes n).bind fun x => pipeAdmit s r n x with
    _ | ⟨⟨j, m⟩, k, cc, ⟨p, crews⟩ | _⟩
  · rfl
  · dsimp only
    rw [clusterBegins_eq, ← next_due]
    cases allConverted (.fresh p crews) cc <;> rfl
  · rfl

/-- Settles O51: the state that the table writes out for each event is the one that the event gives. -/
theorem placementEvents : Obligations.PlacementEvents := by
  unfold Obligations.PlacementEvents
  refine happens_of_tableNext fun i e he s => ?_
  unfold placeEvents at he
  split at he
  · exact exec_preemptCluster _ s
  · exact exec_clusterRestore s
  · exact exec_clusterPlace s
  · exact exec_classAging _ s
  · exact exec_slabConvert _ s
  · exact exec_slabReturn _ s
  · exact exec_pipelineReassign _ _ s
  · cases he

end Sys2Proof.Machine
end

section
/-! SUPPORT. The commands of Flue contexts (R294 to R313) and the runs of Splitters (R409 to R417) against their table. Many entries of the
table are the model's own definitions under other names, and agree by unfolding; the lemmas below keep to the places where the two say one
thing in two ways. -/
namespace Sys2Proof.Machine
open Sys2Proof

/-! ### What several commands share -/

/-- The table asks whether work is left, and the model whether none is. -/
theorem workDone_eq : workDone = stepWork := by
  funext s k w n
  unfold workDone stepWork
  by_cases h : w.at_ + n < w.total
  · rw [if_pos h, if_neg (Nat.not_le.mpr h)]
    rfl
  · rw [if_neg h, if_pos (Nat.not_lt.mp h)]
    rfl

theorem kvMod_kvMod {α : Type} (m : List (Nat × α)) (k : Nat) (f g : α → α) :
    kvMod (kvMod m k f) k g = kvMod m k fun a => g (f a) := by
  induction m with
  | nil => rfl
  | cons p m ih => by_cases h : p.1 = k <;> simp [kvMod, h, ih]

/-- Two changes of a context, one after the other, are one. -/
theorem modFlue_modFlue (s : State) (k : Nat) (f g : FlueCtx → FlueCtx) :
    modFlue (modFlue s k f) k g = modFlue s k fun a => g (f a) :=
  congrArg (fun m => { s with flues := m }) (kvMod_kvMod s.flues k f g)

/-! ### The crews that a rank names (R297, R308) -/

section
variable {l : FlueList} {uid cl : Nat} {ranks : List Nat} (hl : l.crew = some (uid, cl, ranks))
include hl

theorem rankTarget_eq (s : State) (r : Nat) :
    rankTarget s l r = if ranks.contains r then some (((rankCrew s cl r).map (·.uid)).getD 0) else none := by
  unfold rankTarget
  rw [hl]
  dsimp only
  cases ranks.contains r <;> rfl

/-- The crews of several ranks: all of them, or none where one is no rank of the list. -/
theorem namedTargets_eq (s : State) (named : List Nat) :
    (if (named.map (rankTarget s l)).all (·.isSome) then .ok ((named.map (rankTarget s l)).map fun t => t.getD 0)
      else .error .mcastOutside : Except Cause (List Nat)) =
    if named.all ranks.contains then .ok (named.map fun r => ((rankCrew s cl r).map (·.uid)).getD 0) else .error .mcastOutside := by
  have hall : (named.map (rankTarget s l)).all (·.isSome) = named.all ranks.contains := by
    rw [List.all_map]
    congr
    funext r
    rw [Function.comp_apply, rankTarget_eq hl]
    cases ranks.contains r <;> rfl
  rw [hall]
  refine if_ctx_congr Iff.rfl (fun h => ?_) fun _ => rfl
  rw [List.map_map]
  refine congrArg Except.ok (List.map_congr_left fun r hr => ?_)
  rw [Function.comp_apply, rankTarget_eq hl, if_pos (List.all_eq_true.mp h r hr), Option.getD_some]

end

/-! ### STREAM and its windows (R297, R303 to R309) -/

/-- The table takes OWN first; the model checks the fields of both forms together. -/
theorem targetsOf_eq : targetsOf = streamTargets := by
  funext s l c0
  unfold targetsOf streamTargets
  rcases hl : l.crew with _ | ⟨uid, cl, ranks⟩
  · rfl
  dsimp only
  rw [namedTargets_eq hl]
  cases c0.getLsbD 26 with
  | true =>
    refine if_congr ?_ rfl rfl
    cases c0.getLsbD 17 <;> simp
  | false =>
    refine if_congr ?_ rfl rfl
    cases c0.getLsbD 17 <;> simp

theorem streamDecoded_eq : streamDecoded = streamTurn := by
  funext s k f l c
  simp only [streamDecoded, streamTurn, targetsOf_eq]
  rfl

/-- What follows a write of several runs to scratch follows where no word that it replaces in part has an error (R286, R312). -/
theorem bankWrite_andThen {α : Type} (s : State) (uid : Nat) (runs : List (Nat × List Byte)) (mode : Nat) (g : State → Unit → Turn α) :
    (bankWrite s uid runs mode).andThen g =
      if partScratch s uid (runs.flatMap fun r => bankPlaces r.1 r.2.length mode) then stopWith s .eccUeScratch
      else g (runs.foldl (fun s r => bankPut s uid r.1 r.2 mode)
        (coverScratch s uid (runs.flatMap fun r => bankPlaces r.1 r.2.length mode))) () := by
  unfold bankWrite
  dsimp only
  split <;> rfl

theorem windowReaches_eq : windowReaches = deliverTo := by
  funext t e cb els s uid
  unfold windowReaches deliverTo
  cases (crewD s uid).cbs[cb]? with
  | none => rfl
  | some b =>
    dsimp only
    rw [bankWrite_andThen]
    rfl

theorem windowDelivered_eq : windowDelivered = windowTurn := by
  funext s k f l w
  simp only [windowDelivered, windowTurn, windowReaches_eq]
  rfl

/-! ### COPY, FILLV, STORE, GATHERROWS (R298) -/

theorem copyUnit_eq : copyUnit = copyTurn := by
  funext s k f l c
  simp only [copyUnit, copyTurn, workDone_eq] <;> rfl

theorem fillUnit_eq : fillUnit = fillvTurn := by
  funext s k f l c
  simp only [fillUnit, fillvTurn, workDone_eq] <;> rfl

theorem storeWindow_eq : storeWindow = storeTurn := by
  funext s k f l c
  simp only [storeWindow, storeTurn, workDone_eq]
  rfl

theorem gatherUnit_eq : gatherUnit = gatherTurn := by
  funext s k f l c
  simp only [gatherUnit, gatherTurn, workDone_eq]
  rfl

/-! ### Loops and the synchronising commands (R299, R300, R307) -/

/-- The model opens the level and then goes on to the next command, and the table does both at once. -/
theorem loopOpens_eq : loopOpens = loopTurn := by
  funext s k f c
  simp only [loopOpens, loopTurn, cmdDone, modFlue_modFlue]
  rfl

theorem loopCloses_eq : loopCloses = endloopTurn := by
  funext s k f
  unfold loopCloses endloopTurn cmdDone
  cases f.loops with
  | nil => rfl
  | cons l outer =>
    dsimp only
    rw [modFlue_modFlue]
    rfl

theorem timelineWaits_eq : timelineWaits = tlwaitTurn := rfl

theorem timelineAdvances_eq : timelineAdvances = tladvTurn := rfl

theorem eventSignals_eq : eventSignals = evsigTurn := by
  funext s k f c
  unfold eventSignals evsigTurn
  cases eventIdx s f.ctx (bitsOf (c.getD 0 0) 16 16) with
  | none => rfl
  | some i =>
    dsimp only
    cases (c.getD 0 0).getLsbD 8 <;> rfl

theorem barrierArrives_eq : barrierArrives = bararrTurn := by
  funext s k l c
  unfold barrierArrives bararrTurn
  rcases hl : l.crew with _ | ⟨uid, cl, ranks⟩
  · rfl
  dsimp only
  rw [rankTarget_eq hl]
  cases (c.getD 0 0).getLsbD 26 with
  | true => rfl
  | false => cases ranks.contains (bitsOf (c.getD 0 0) 18 8) <;> rfl

theorem listEnds_eq : listEnds = endTurn := rfl

/-! ### A turn of a context -/

/-- The table tells STREAM and its windows apart beside the opcode, and the model within STREAM's. -/
theorem commandDoes_eq : commandDoes = flueTurn := by
  funext s k f l
  unfold commandDoes flueTurn
  congr
  funext s c
  rw [windowDelivered_eq, streamDecoded_eq, copyUnit_eq, gatherUnit_eq, storeWindow_eq, fillUnit_eq, loopOpens_eq, loopCloses_eq,
    timelineWaits_eq, timelineAdvances_eq, eventSignals_eq, barrierArrives_eq, listEnds_eq]
  refine if_congr Iff.rfl rfl (if_congr Iff.rfl rfl ?_)
  exact match bitsOf (c.getD 0 0) 0 8, f.work with
    | 1, some _ | 1, none => rfl
    | 0, _ | 2, _ | 3, _ | 4, _ | 5, _ | 6, _ | 7, _ | 8, _ | 9, _ | 10, _ | 11, _ | 12, _ | _ + 13, _ => rfl

/-- A turn leaves what the table gives: where the current command is the one that the event names, the command's outcome is written to the
context. -/
theorem flueStep_eq (k : Nat) (p : FlueCtx → Option Nat → Bool) (s : State) :
    flueStep k s p = .next (((flueGoes k p).bind fun e => e s).getD s) := by
  show _ = Host.Outcome.next (((kvGet s.flues k).bind fun f => f.queue.head?.bind _).getD s)
  unfold flueStep
  cases kvGet s.flues k with
  | none => rfl
  | some f =>
    rw [Option.bind_some]
    dsimp only
    cases f.queue with
    | nil => rfl
    | cons l ls =>
      dsimp only [tookTurn, List.head?_cons, Option.bind_some]
      rw [commandDoes_eq]
      by_cases h : f.state = 1 ∧ p f (flueOp s f) = true
      · obtain ⟨hrun, hp⟩ := h
        rw [if_neg (by simp [hrun, hp]), if_pos ⟨hrun, hp⟩, Option.getD_some]
        cases flueTurn { s with turns := kvSet s.turns f.engine k } k f l <;> rfl
      · have hstays : f.state ≠ 1 ∨ (!p f (flueOp s f)) = true := (not_and_or.mp h).imp_right fun hp => by simpa using hp
        rw [if_pos hstays, if_neg h, Option.getD_none]

theorem exec_flueContextResume (c : Nat) (s : State) :
    exec (.flueContextResume c) s = .next (tableNext flueEvents (.flueContextResume c) s) := by
  show execFlueContextResume c s = .next (((kvGet s.flues c).bind fun f => f.queue.head?.bind _).getD s)
  unfold execFlueContextResume
  cases kvGet s.flues c with
  | none => rfl
  | some f =>
    rw [Option.bind_some, commandDoes_eq]
    unfold flueCanMove
    dsimp only
    cases f.queue with
    | nil => exact if_neg fun h => Bool.false_ne_true h.2
    | cons l ls =>
      dsimp only [List.head?_cons, Option.bind_some]
      rw [← next_due]
      have hheld : f.state = 2 ∨ f.state = 4 ↔ (f.state == 2 || f.state == 4) = true := by simp
      exact if_congr ((and_congr_left' hheld).trans Bool.and_eq_true_iff.symm) rfl rfl

/-! ### The runs of a Splitter (R409 to R417) -/

theorem runWrites_eq : runWrites = cutRecords := rfl

theorem runGoes_eq : runGoes = cutTurn := by
  funext s k f j
  unfold runGoes cutTurn
  rw [runWrites_eq]
  cases cutRecords f j with
  | stop c => rfl
  | need rs =>
    show _ = cutFetch s k f rs
    unfold cutFetch cutReadable
    dsimp only
    cases engineRead (freePick s _).2 (splitAgent f) _ _ <;> rfl
  | ok ws =>
    dsimp only
    rcases ws[f.wrote]? with _ | ⟨va, v⟩
    · rfl
    · dsimp only
      cases engineWrite s (splitAgent f) va (leBytes 16 v) <;> rfl

theorem exec_cutRun (c : Nat) (s : State) : exec (.cutRun c) s = .next (tableNext flueEvents (.cutRun c) s) := by
  show execCutRun c s = .next (((kvGet s.splits c).bind fun f => f.queue.head?.bind _).getD s)
  unfold execCutRun
  cases kvGet s.splits c with
  | none => rfl
  | some f =>
    rw [Option.bind_some]
    dsimp only
    cases f.queue with
    | nil => rfl
    | cons j js =>
      dsimp only [List.head?_cons, Option.bind_some]
      rw [runGoes_eq]
      by_cases h : f.state = 1 ∨ f.state = 2
      · rw [if_neg fun hn => h.elim hn.1 hn.2, if_pos h, Option.getD_some]
        cases cutTurn { s with turns := kvSet s.turns (64 + f.engine) c } c f j <;> rfl
      · rw [if_pos (not_or.mp h), if_neg h, Option.getD_none]

/-! ### The events -/

/-- Settles O53: the state that the table writes out for each event is the one that the event gives. -/
theorem flueEventsHold : Obligations.FlueEvents := by
  unfold Obligations.FlueEvents
  refine happens_of_tableNext fun i e he s => ?_
  unfold flueEvents at he
  split at he
  · exact flueStep_eq _ (fun f o => o == some 1 && f.work.isNone) s
  · exact flueStep_eq _ (fun f o => o == some 1 && f.work.isSome) s
  · exact flueStep_eq _ (isOp 2) s
  · exact flueStep_eq _ (isOp 3) s
  · exact flueStep_eq _ (isOp 4) s
  · exact flueStep_eq _ (isOp 5) s
  · exact flueStep_eq _ (isOp 6) s
  · exact flueStep_eq _ (isOp 7) s
  · exact flueStep_eq _ (isOp 8) s
  · exact flueStep_eq _ (isOp 9) s
  · exact flueStep_eq _ (isOp 10) s
  · exact flueStep_eq _ (isOp 11) s
  · exact flueStep_eq _ (isOp 12) s
  · exact flueStep_eq _ (fun _ o => o.isNone) s
  · exact exec_flueContextResume _ s
  · exact exec_cutRun _ s
  · cases he

end Sys2Proof.Machine
end

section
/-! SUPPORT. A store to plain memory is performed in its L1 (R324, R329): the line that serves it is in the core, no other line and no
byte at its home changes, and a load after it is served by the same line. -/
namespace Sys2Proof.Machine
open Sys2Proof

/-! ### The bytes of a line -/

theorem lineBytes_getD (old bs : List Byte) {off i : Nat} (hi : i < 128) :
    (lineBytes old off bs).getD i 0 = if off ≤ i ∧ i < off + bs.length then bs.getD (i - off) 0 else old.getD i 0 := by
  simp [lineBytes, List.getD_eq_getElem?_getD, hi]

theorem lineRead_lineBytes_same (old bs : List Byte) {off : Nat} (h : off + bs.length ≤ 128) :
    lineRead (lineBytes old off bs) off bs.length = bs := by
  refine List.ext_getElem (by simp [lineRead]) fun i hi hbs => ?_
  have hw : off ≤ off + i ∧ off + i < off + bs.length := ⟨Nat.le_add_right .., Nat.add_lt_add_left hbs off⟩
  simp only [lineRead, List.getElem_map, List.getElem_range]
  rw [lineBytes_getD old bs (by omega), if_pos hw, Nat.add_sub_cancel_left, List.getD_eq_getElem _ _ hbs]

theorem lineRead_lineBytes_other (old bs : List Byte) {off i : Nat} (hi : i < 128) (h : i < off ∨ off + bs.length ≤ i) :
    lineRead (lineBytes old off bs) i 1 = lineRead old i 1 := by
  have hout : ¬ (off ≤ i ∧ i < off + bs.length) := by omega
  show [(lineBytes old off bs).getD i 0] = [old.getD i 0]
  rw [lineBytes_getD old bs hi, if_neg hout]

/-! ### What the bookkeeping of an access leaves of the cores and of the errors -/

@[simp] theorem modStamps_cores (s : State) (pa n : Nat) (f : Nat × Stamp → Stamp) : (modStamps s pa n f).cores = s.cores := by
  unfold modStamps; split <;> rfl

@[simp] theorem modStamps_upsets (s : State) (pa n : Nat) (f : Nat × Stamp → Stamp) : (modStamps s pa n f).upsets = s.upsets := by
  unfold modStamps; split <;> rfl

@[simp] theorem clearUpsets_cores (s : State) (p : Upset → Bool) : (clearUpsets s p).cores = s.cores := by
  unfold clearUpsets; split <;> rfl

theorem mem_clearUpsets {s : State} {p : Upset → Bool} {u : Upset} : u ∈ (clearUpsets s p).upsets ↔ u ∈ s.upsets ∧ p u = false := by
  unfold clearUpsets
  split
  · next h => simp [List.isEmpty_iff.mp h]
  · simp

@[simp] theorem countHome_cores (s : State) (crew ctx pa : Nat) : (countHome s crew ctx pa).cores = s.cores := by
  unfold countHome
  generalize hu : useHome s pa = u
  have hs : u.cores = s.cores := by rw [← hu]; rfl
  dsimp only
  split
  · exact hs
  · split <;> exact hs

@[simp] theorem countMiss_cores (s : State) (crew ctx pa : Nat) : (countMiss s crew ctx pa).cores = s.cores :=
  countHome_cores ..

theorem coreD_congr {s t : State} (h : t.cores = s.cores) (c : Nat) : coreD t c = coreD s c := by
  rw [coreD, coreD, h]

/-! ### Changes of one line -/

/-- The other lines of a core's L1, and the other cores, are the same. -/
structure OnlyLine (s t : State) (core key : Nat) : Prop where
  lines : ∀ k, k ≠ key → kvGet (coreD t core).l1 k = kvGet (coreD s core).l1 k
  cores : ∀ c, c ≠ core → coreD t c = coreD s c

theorem OnlyLine.trans {s t u : State} {core key : Nat} (h : OnlyLine s t core key) (k : OnlyLine t u core key) :
    OnlyLine s u core key :=
  ⟨fun j hj => (k.lines j hj).trans (h.lines j hj), fun c hc => (k.cores c hc).trans (h.cores c hc)⟩

theorem OnlyLine.of_cores {s t : State} (h : t.cores = s.cores) (core key : Nat) : OnlyLine s t core key :=
  ⟨fun k _ => by rw [coreD_congr h], fun c _ => coreD_congr h c⟩

theorem OnlyLine.setL1 (s : State) (core key : Nat) (l : L1Line) : OnlyLine s (setL1 s core key l) core key := by
  refine ⟨fun k hk => ?_, fun c hc => coreD_setL1_ne hc key l⟩
  rw [Machine.setL1, coreD_modCore]
  split
  · exact (kvGet_kvSet ..).trans (if_neg hk)
  · rfl

/-! ### The line that serves an access -/

/-- Where a line shows no error, none shows at a line that is clean only if that one was, in a state with no new error. -/
theorem lineBad_mono {s t : State} {core key : Nat} {l l' : L1Line} (hup : ∀ u ∈ t.upsets, u ∈ s.upsets)
    (hd : l'.dirty = 0 → l.dirty = 0) (h : lineBad s core key l = false) : lineBad t core key l' = false := by
  unfold lineBad at h ⊢
  rw [Bool.and_eq_false_iff] at h ⊢
  by_cases hz : l'.dirty = 0
  · have hs := h.resolve_left (by simp [hd hz])
    rw [List.any_eq_false] at hs
    exact .inr (List.any_eq_false.mpr fun u hu => hs u (hup u hu))
  · exact .inl (beq_false_of_ne hz)

theorem lineBad_clearLine (s : State) (core key : Nat) (l : L1Line) : lineBad (clearLine s core key) core key l = false := by
  unfold lineBad
  refine Bool.and_eq_false_iff.mpr (.inr (List.any_eq_false.mpr fun u hu => ?_))
  obtain ⟨-, hu⟩ := mem_clearUpsets.mp hu
  cases u <;> simp_all

/-- A line of a core that serves an access of a page generation, with the crew's mark where the access is fibre-local (R282). -/
structure Serves (s : State) (core key pgen : Nat) (fl : Option Nat) (line : L1Line) : Prop where
  present : kvGet (coreD s core).l1 key = some line
  current : lineStale (coreD s core) line = false
  pgen : line.pgen = pgen
  sound : lineBad s core key line = false
  marked : (fl.isNone || line.fl == fl) = true

section
variable {s : State} {core key pgen : Nat} {fl : Option Nat} {line : L1Line}

theorem l1Hit_eq_some : l1Hit s core key pgen = some line ↔ kvGet (coreD s core).l1 key = some line ∧
    lineStale (coreD s core) line = false ∧ line.pgen = pgen ∧ lineBad s core key line = false := by
  unfold l1Hit
  cases kvGet (coreD s core).l1 key with
  | none => simp
  | some l =>
    simp only [Option.some.injEq, ite_eq_iff, reduceCtorEq, and_false, false_or, Bool.or_eq_true, bne_iff_ne, not_or,
      Bool.not_eq_true, not_not]
    constructor
    · rintro ⟨⟨⟨hs, hp⟩, hb⟩, rfl⟩
      exact ⟨rfl, hs, hp, hb⟩
    · rintro ⟨rfl, hs, hp, hb⟩
      exact ⟨⟨⟨hs, hp⟩, hb⟩, rfl⟩

theorem Serves.hit (h : Serves s core key pgen fl line) : l1Hit s core key pgen = some line :=
  l1Hit_eq_some.mpr ⟨h.present, h.current, h.pgen, h.sound⟩

/-- Where a line serves already, nothing is fetched and nothing marked. -/
theorem Serves.l1Ensure {leaf : W64} (h : Serves s core key (leafPgen leaf) fl line) (crew ctx : Nat)
    (home : State → List Byte) : l1Ensure s core key crew ctx leaf home fl = s := by
  unfold Machine.l1Ensure
  rw [h.hit]
  exact if_pos h.marked

/-- Whether a line is stale goes by its core's counters, which no line sets. -/
theorem lineStale_setL1 (s : State) (core key c : Nat) (l l' : L1Line) :
    lineStale (coreD (setL1 s core key l) c) l' = lineStale (coreD s c) l' := by
  rw [setL1, coreD_modCore]
  split <;> rfl

/-- A line that is put where no error is, current and of the page generation, serves. -/
theorem serves_setL1 (hc : core < s.cores.length) (hstale : lineStale (coreD s core) line = false) (hpgen : line.pgen = pgen)
    (hsound : lineBad s core key line = false) (hmark : (fl.isNone || line.fl == fl) = true) :
    Serves (setL1 s core key line) core key pgen fl line where
  present := (l1_setL1 hc ..).trans (if_pos rfl)
  current := (lineStale_setL1 ..).trans hstale
  pgen := hpgen
  sound := hsound
  marked := hmark

/-- Without a change of the cores, and with no new error, the line still serves. -/
theorem Serves.congr {t : State} (h : Serves s core key pgen fl line) (hcores : t.cores = s.cores) (hup : t.upsets = s.upsets) :
    Serves t core key pgen fl line where
  present := coreD_congr hcores core ▸ h.present
  current := coreD_congr hcores core ▸ h.current
  pgen := h.pgen
  sound := lineBad_mono (fun _ => (hup ▸ ·)) id h.sound
  marked := h.marked

/-! ### A fill -/

/-- A fill puts one line, where no error is left that shows at it: current, of the leaf's page generation, and marked. -/
theorem l1Fill_eq (s : State) (core key : Nat) (leaf : W64) (home : List Byte) (fl : Option Nat) :
    ∃ u line, l1Fill s core key leaf home fl = setL1 u core key line ∧ u.cores = s.cores ∧ lineBad u core key line = false ∧
      lineStale (coreD s core) line = false ∧ line.pgen = leafPgen leaf ∧ (fl.isNone || line.fl == fl) = true := by
  refine ⟨_, _, rfl, ?_, ?_, by simp [lineStale], rfl, by cases fl <;> simp⟩ <;>
    generalize ((kvGet (coreD s core).l1 key).map (·.dirty)).getD 0 = dirty
  · rw [noteFill, modStamps_cores]
    split
    · exact clearUpsets_cores ..
    · rfl
  · by_cases hz : dirty = 0
    · rw [if_pos hz]
      exact lineBad_mono (fun _ => (modStamps_upsets (clearLine s core key) .. ▸ ·)) id (lineBad_clearLine ..)
    · exact Bool.and_eq_false_iff.mpr (.inl (beq_false_of_ne hz))

theorem OnlyLine.l1Fill (s : State) (core key : Nat) (leaf : W64) (home : List Byte) (fl : Option Nat) :
    OnlyLine s (l1Fill s core key leaf home fl) core key := by
  obtain ⟨u, line, heq, hcores, -⟩ := l1Fill_eq s core key leaf home fl
  rw [heq]
  exact (OnlyLine.of_cores hcores core key).trans (.setL1 ..)

theorem serves_l1Fill (hc : core < s.cores.length) (leaf : W64) (home : List Byte) (fl : Option Nat) :
    ∃ line, Serves (l1Fill s core key leaf home fl) core key (leafPgen leaf) fl line := by
  obtain ⟨u, line, heq, hcores, hsound, hstale, hpgen, hmark⟩ := l1Fill_eq s core key leaf home fl
  rw [heq]
  exact ⟨line, serves_setL1 (hcores ▸ hc) (coreD_congr hcores core ▸ hstale) hpgen hsound hmark⟩

theorem OnlyLine.l1Ensure (s : State) (core key crew ctx : Nat) (leaf : W64) (home : State → List Byte) (fl : Option Nat) :
    OnlyLine s (l1Ensure s core key crew ctx leaf home fl) core key := by
  unfold Machine.l1Ensure
  split
  · split
    · exact .of_cores rfl core key
    · exact .setL1 ..
  · exact (OnlyLine.of_cores (countMiss_cores ..) core key).trans (.l1Fill ..)

theorem serves_l1Ensure (hc : core < s.cores.length) (crew ctx : Nat) (leaf : W64) (home : State → List Byte) (fl : Option Nat) :
    ∃ line, Serves (l1Ensure s core key crew ctx leaf home fl) core key (leafPgen leaf) fl line := by
  unfold l1Ensure
  split
  · next line hit =>
    obtain ⟨hpresent, hstale, hpgen, hsound⟩ := l1Hit_eq_some.mp hit
    split
    · next hmark => exact ⟨line, hpresent, hstale, hpgen, hsound, hmark⟩
    · exact ⟨{ line with fl := fl }, serves_setL1 hc hstale hpgen hsound (by simp)⟩
  · exact serves_l1Fill ((countMiss_cores s ..).symm ▸ hc) leaf _ fl

/-! ### A store in L1 -/

/-- A line with bytes stored over its own (R324). -/
def storedLine (now : Nat) (l : L1Line) (off : Nat) (bs : List Byte) (colour : Nat) (owner : Nat × Nat) : L1Line :=
  { l with
    bytes := lineBytes l.bytes off bs
    dirty := l.dirty ||| ((2 ^ bs.length - 1) * 2 ^ off)
    colours := l.colours ||| 2 ^ colour
    owner := owner
    since := if l.dirty = 0 then now else l.since }

/-- A store in L1 ends errors, and writes its line where the line is there. -/
theorem l1Store_eq (s : State) (core key off : Nat) (bs : List Byte) (colour : Nat) (owner : Nat × Nat) :
    ∃ u, u.cores = s.cores ∧ (∀ e ∈ u.upsets, e ∈ s.upsets) ∧ SameHomes s u ∧
      l1Store s core key off bs colour owner = ((kvGet (coreD s core).l1 key).map fun l =>
        setL1 u core key (storedLine u.clock l off bs colour owner)).getD u := by
  unfold l1Store
  generalize hu : clearUpsets s _ = u
  have hcores : u.cores = s.cores := hu ▸ clearUpsets_cores ..
  refine ⟨u, hcores, fun e he => ?_, hu ▸ .clearUpsets .., ?_⟩
  · rw [← hu] at he
    exact (mem_clearUpsets.mp he).1
  · dsimp only
    rw [coreD_congr hcores]
    cases kvGet (coreD s core).l1 key <;> rfl

theorem OnlyLine.l1Store (s : State) (core key off : Nat) (bs : List Byte) (colour : Nat) (owner : Nat × Nat) :
    OnlyLine s (l1Store s core key off bs colour owner) core key := by
  obtain ⟨u, hcores, -, -, heq⟩ := l1Store_eq s core key off bs colour owner
  rw [heq]
  have hu := OnlyLine.of_cores hcores core key
  cases kvGet (coreD s core).l1 key with
  | none => exact hu
  | some l => exact hu.trans (.setL1 ..)

theorem SameHomes.l1Store (s : State) (core key off : Nat) (bs : List Byte) (colour : Nat) (owner : Nat × Nat) :
    SameHomes s (l1Store s core key off bs colour owner) := by
  obtain ⟨u, -, -, hu, heq⟩ := l1Store_eq s core key off bs colour owner
  rw [heq]
  cases kvGet (coreD s core).l1 key with
  | none => exact hu
  | some l => exact hu.trans ⟨rfl, rfl, rfl, rfl⟩

/-- The line holds the stored bytes over its own, and serves as it did. -/
theorem Serves.l1Store (h : Serves s core key pgen fl line) (off : Nat) (bs : List Byte) (colour : Nat) (owner : Nat × Nat) :
    ∃ now, Serves (l1Store s core key off bs colour owner) core key pgen fl (storedLine now line off bs colour owner) := by
  obtain ⟨u, hcores, hup, -, heq⟩ := l1Store_eq s core key off bs colour owner
  rw [heq, h.present, Option.map_some, Option.getD_some]
  have hsound := lineBad_mono (l' := storedLine u.clock line off bs colour owner) hup (fun hz => (Nat.or_eq_zero_iff.mp hz).1) h.sound
  exact ⟨_, serves_setL1 (hcores ▸ lt_cores_of_l1 h.present) (coreD_congr hcores core ▸ h.current) h.pgen hsound h.marked⟩

end

/-! ### Loads and stores of plain memory -/

section
variable {s : State} {b : Batch} {a pa : Nat} {l : Leaf} {fl : Option Nat} {line : L1Line}

/-- A load gives the bytes of the line that serves it. -/
theorem loadLoc_mem (n : Nat) (hkey : a / 128 = pa / 128)
    (h : Serves (l1Ensure s b.core (pa / 128) b.crew b.ctx l.e (homeLine (pa / 128)) fl) b.core (pa / 128) (leafPgen l.e) fl line) :
    (loadLoc s b n (.mem a l fl)).2 = lineRead line.bytes (a % 128) n := by
  show lineRead (((kvGet (coreD (l1Ensure s b.core (a / 128) b.crew b.ctx l.e (homeLine (a / 128)) fl) b.core).l1 (a / 128)).map
    (·.bytes)).getD []) (a % 128) n = _
  rw [hkey, h.present, Option.map_some, Option.getD_some]

/-- Where a line serves already, a load gives its bytes. -/
theorem Serves.loadLoc (h : Serves s b.core (pa / 128) (leafPgen l.e) fl line) (n : Nat) (hkey : a / 128 = pa / 128) :
    (loadLoc s b n (.mem a l fl)).2 = lineRead line.bytes (a % 128) n :=
  loadLoc_mem n hkey (by rwa [h.l1Ensure])

theorem OnlyLine.storeLoc_mem (s : State) (b : Batch) (bs : List Byte) (colour pa : Nat) (l : Leaf) (fl : Option Nat) :
    OnlyLine s (storeLoc s b bs colour (.mem pa l fl)) b.core (pa / 128) :=
  (OnlyLine.l1Ensure ..).trans ((OnlyLine.l1Store ..).trans (.of_cores (modStamps_cores ..) ..))

theorem SameHomes.storeLoc_mem (s : State) (b : Batch) (bs : List Byte) (colour pa : Nat) (l : Leaf) (fl : Option Nat) :
    SameHomes s (storeLoc s b bs colour (.mem pa l fl)) :=
  (SameHomes.l1Ensure ..).trans ((SameHomes.l1Store ..).trans (.modStamps ..))

/-- A store brings its line into the L1 and leaves there, serving, the line with the stored bytes. -/
theorem serves_storeLoc (hc : b.core < s.cores.length) (bs : List Byte) (colour : Nat) : ∃ line line',
    Serves (l1Ensure s b.core (pa / 128) b.crew b.ctx l.e (homeLine (pa / 128)) fl) b.core (pa / 128) (leafPgen l.e) fl line ∧
    Serves (storeLoc s b bs colour (.mem pa l fl)) b.core (pa / 128) (leafPgen l.e) fl line' ∧
    line'.bytes = lineBytes line.bytes (pa % 128) bs := by
  obtain ⟨line, hline⟩ := serves_l1Ensure (key := pa / 128) hc b.crew b.ctx l.e (homeLine (pa / 128)) fl
  obtain ⟨now, hstored⟩ := hline.l1Store (pa % 128) bs colour (b.ctx, b.crew)
  exact ⟨line, _, hline, hstored.congr (modStamps_cores ..) (modStamps_upsets ..), rfl⟩

end

/-- Settles O10: the line that the store leaves serves the loads after it, and a store changes no other line and no home. -/
theorem storeThenLoad : Obligations.StoreThenLoad := by
  unfold Obligations.StoreThenLoad
  intro s b pa colour l fl bs hc hlen
  obtain ⟨line, line', hbefore, hafter, hbytes⟩ := serves_storeLoc (pa := pa) (l := l) (fl := fl) hc bs colour
  have only := OnlyLine.storeLoc_mem s b bs colour pa l fl
  refine ⟨?_, fun a hkey hout => ?_, only.lines, only.cores, (SameHomes.storeLoc_mem s b bs colour pa l fl).memByte⟩
  · rw [hafter.loadLoc _ rfl, hbytes, lineRead_lineBytes_same _ _ hlen]
  · have hin : a % 128 < 128 := by omega
    have hoff : a % 128 < pa % 128 ∨ pa % 128 + bs.length ≤ a % 128 := by omega
    rw [hafter.loadLoc 1 hkey, loadLoc_mem 1 hkey hbefore, hbytes, lineRead_lineBytes_other _ _ hin hoff]

end Sys2Proof.Machine
end

section
/-! SUPPORT. Triggers (R366), runs (R367 to R370) and nodes (R362, R368, R371, R372, R408, R418, R419) against their table. Many entries of
the table are the model's own definitions under other names, and agree by unfolding; the lemmas below name the larger of them and prove the
places where the two say one thing in two ways. -/
namespace Sys2Proof.Machine
open Sys2Proof

theorem findRun_id {s : State} {run : Nat} {r : Run} (h : findRun s run = some r) : r.id = run := by
  simpa using List.find?_some h

theorem graphIs_eq : graphIs = setGraphStatus := rfl

/-! ### Triggers (R366) -/

/-- The table names the three states in which a slot takes triggers, and the model tells all states apart. -/
theorem takesTriggers_eq (s : State) (c : Nat) :
    takesTriggers s c = ((ctxD s c).state == .resident || (ctxD s c).state == .halting || (ctxD s c).state == .halted) := by
  unfold takesTriggers
  cases (ctxD s c).state <;> rfl

/-- The table asks whether the queue has room, and the model whether it is full. -/
theorem pushTrigger_getD (s u : State) (v : W64) : (pushTrigger s v 0 0).getD u =
    if (ctxD s (bitsOf v 16 6)).trigQ.length < 64 then
      modCtx s (bitsOf v 16 6) fun k => { k with
        trigQ := queuedTrigger (ctxD s (bitsOf v 16 6)).trigQ ⟨v, 0, 0, graphRealtime s (bitsOf v 0 16), false⟩ }
    else u := by
  unfold pushTrigger
  by_cases h : (ctxD s (bitsOf v 16 6)).trigQ.length < 64
  · rw [if_pos h, if_neg (Nat.not_le.mpr h)]
    rfl
  · rw [if_neg h, if_pos (Nat.not_lt.mp h)]
    rfl

/-- The model tests what keeps an event from being due where the table says with `due` that nothing does. -/
theorem unless_eq_due (p q : Bool) (s t : State) : (if (!p) = true ∨ q = true then s else t) = (due (p && !q) t).getD s := by
  cases p <;> cases q <;> rfl

theorem exec_triggerWrite (v : W64) (s : State) :
    exec (.triggerWrite v) s = .next (tableNext graphEvents (.triggerWrite v) s) := by
  show Host.Outcome.next (writeTrigger s v) = .next (Option.getD (due _ _) s)
  rw [← takesTriggers_eq, ← pushTrigger_getD s (recordFlag s (bitsOf v 16 6) 1)]
  exact congrArg Host.Outcome.next (unless_eq_due ..)

/-! ### The start of a run (R367, R369, R370) -/

/-- The table finds an entry's event once; the model first asks whether the entry is met. -/
theorem entryWaits_eq : entryWaits = registerWait := by
  funext s ctx run n h i
  unfold entryWaits registerWait waitMet
  cases eventIdx s ctx (hdrWait h i).1 with
  | none => rfl
  | some e =>
    dsimp only
    refine if_ctx_congr decide_eq_true_iff.symm (fun _ => rfl) fun _ => ?_
    cases addWaiter s _ <;> rfl

/-- A patch is good in the table where the model finds none of the faults of R367. -/
theorem patched_eq (first count : Nat) (es : List (Nat × W64)) :
    ∀ s : State, patched first count s es = applyPatches first count es s := by
  induction es with
  | nil => exact fun _ => rfl
  | cons e es ih =>
    intro s
    unfold patched applyPatches
    by_cases h : count ≤ e.1 % 65536 ∨ e.1 / 65536 % 32 = 31 ∨ 2 ^ 21 ≤ e.1
    · rw [if_neg (by omega), if_pos h]
    · rw [if_pos (by omega), if_neg h]
      exact ih _

theorem runBegins_eq (s : State) (ctx : Nat) (t : Trigger) (first count : Nat) : runBegins s ctx t first count =
    registerRun { s with
      nextId := s.nextId + 1
      runs := s.runs ++ [{
        id := s.nextId, graph := bitsOf t.word 0 16, ctx := ctx, level := t.level, wid := t.wid, failed := false
        nodes := (List.range count).map fun n => (n, { readyAt := s.clock }) }] } s.nextId ctx first count := by
  unfold runBegins
  rw [entryWaits_eq]
  rfl

theorem triggerTaken_eq : triggerTaken = triggerTurn := by
  funext s ctx t
  unfold triggerTaken triggerTurn startRun
  dsimp only
  rw [graphIs_eq]
  refine if_congr Iff.rfl rfl ?_
  generalize (if 4096 * bitsOf t.word 22 42 = 0 then Turn.ok _ [] else _) = read
  cases read with
  | wait _ => rfl
  | susp => rfl
  | stop _ _ => rfl
  | ok u es =>
    dsimp only
    rw [patched_eq]
    rcases applyPatches _ _ es u with ⟨w, _ | n⟩
    · dsimp only
      split
      · rfl
      · exact congrArg (Turn.ok · ()) (runBegins_eq ..)
    · rfl

/-- The trigger that may be taken is the head of the queue, where its context is RESIDENT and its graph does not run for another. -/
theorem nextTrigger_eq (s : State) (ctx : Nat) : nextTrigger s ctx = (ctxD s ctx).trigQ.head?.bind fun t =>
    if (ctxD s ctx).state = .resident ∧ (t.begun = true ∨ graphState s (bitsOf t.word 0 16) ≠ 1) then some t else none := by
  unfold nextTrigger
  by_cases hr : (ctxD s ctx).state = .resident
  · cases (ctxD s ctx).trigQ.head? <;> simp [hr, Option.filter]
  · simp [hr]

theorem exec_graphRunStart (ctx : Nat) (s : State) :
    exec (.graphRunStart ctx) s = .next (tableNext graphEvents (.graphRunStart ctx) s) := by
  show execGraphRunStart ctx s = .next (((ctxD s ctx).trigQ.head?.bind _).getD s)
  unfold execGraphRunStart
  rw [nextTrigger_eq, triggerTaken_eq]
  cases (ctxD s ctx).trigQ.head? with
  | none => rfl
  | some t =>
    rw [Option.bind_some, Option.bind_some]
    split_ifs
    · dsimp only
      cases triggerTurn s ctx t <;> rfl
    · rfl

/-! ### The start of a node (R362, R368, R371, R418, R419) -/

theorem joinsEngine_eq : joinsEngine = submitNode := by
  funext s run n h ctx
  unfold joinsEngine submitNode engineTl
  by_cases hk : hdrKind h = 2
  · simp only [if_pos hk]
    cases kvGet s.flues (tlKey ctx (hdrBits h 0 0 16)) with
    | none => rfl
    | some f =>
      dsimp only
      unfold queueList
      split <;> rfl
  · simp only [if_neg hk]
    unfold queueJob
    cases kvGet s.splits (tlKey ctx (hdrBits h 16 0 16)) with
    | none => rfl
    | some f =>
      dsimp only
      split <;> rfl

theorem engineStopped_eq : engineStopped = submitStopped := by
  funext s h ctx
  unfold engineStopped submitStopped engineTl
  split <;> rfl

theorem submissionRuns_eq : submissionRuns = submitStart := by
  funext s run n h ctx
  unfold submissionRuns submitStart
  rw [engineStopped_eq, joinsEngine_eq]
  rfl

theorem pipelineRuns_eq : pipelineRuns = pipelineStart := by
  funext s run n h ctx
  unfold pipelineRuns pipelineStart
  dsimp only
  generalize turnAll _ s _ = read
  cases read with
  | wait _ => rfl
  | susp => rfl
  | stop _ _ => rfl
  | ok u hs => cases hok : hs.all (stageOk u ctx) <;> simp [hok] <;> rfl

theorem drawRuns_eq : drawRuns = drawStart := by
  funext s run n h ctx
  unfold drawRuns drawStart
  dsimp only
  cases readHeader s ctx (actorOf run n) (hdrBits h 3 0 54) with
  | wait _ => rfl
  | susp => rfl
  | stop _ _ => rfl
  | ok u fh =>
    dsimp only
    refine if_congr Iff.rfl rfl ?_
    cases engineRead u (schedAgent ctx (actorOf run n)) (hdrBits h 1 0 54) 4 <;> rfl

theorem nodeStarts_eq : nodeStarts = startNode := by
  funext s r n
  unfold nodeStarts startNode
  rw [submissionRuns_eq, pipelineRuns_eq, drawRuns_eq]
  rfl

theorem drawGoesOn_eq : drawGoesOn = drawStep := rfl

/-- The model tells a node's state and its draw apart together, and the table one after the other. -/
theorem nodeTurn_eq (s : State) (r : Run) (n : Nat) : nodeTurn s r n = (kvGet r.nodes n).bind fun x =>
    if mayStart s r x = true then some (nodeStarts s r n)
    else x.draw.bind fun d =>
      if (!r.dead) = true ∧ x.state = .running ∧ drawCanMove s r.id n d = true then some (drawGoesOn s r n d) else none := by
  unfold nodeTurn nodeReady
  rw [nodeStarts_eq]
  cases kvGet r.nodes n with
  | none => rfl
  | some x =>
    rw [Option.bind_some]
    refine if_congr Iff.rfl rfl ?_
    dsimp only
    cases x.draw with
    | none => cases x.state <;> rfl
    | some d => cases x.state with
      | running => simp [drawGoesOn_eq]
      | _ => simp

theorem exec_nodeStart (run n : Nat) (s : State) :
    exec (.nodeStart run n) s = .next (tableNext graphEvents (.nodeStart run n) s) := by
  show execNodeStart run n s = .next (((findRun s run).bind fun r => (kvGet r.nodes n).bind _).getD s)
  unfold execNodeStart
  cases findRun s run with
  | none => rfl
  | some r =>
    rw [Option.bind_some]
    dsimp only
    rw [← Option.bind_assoc, ← nodeTurn_eq]
    rcases nodeTurn s r n with _ | t
    · rfl
    · cases t <;> rfl

/-! ### Submissions, ends and waits -/

theorem exec_nodeSubmitDeferred (run n : Nat) (s : State) :
    exec (.nodeSubmitDeferred run n) s = .next (tableNext graphEvents (.nodeSubmitDeferred run n) s) := by
  show execNodeSubmitDeferred run n s = .next (((findRun s run).bind fun r => (kvGet r.nodes n).bind _).getD s)
  unfold execNodeSubmitDeferred
  cases findRun s run with
  | none => rfl
  | some r =>
    rw [Option.bind_some]
    dsimp only
    cases kvGet r.nodes n with
    | none => rfl
    | some x =>
      rw [Option.bind_some, engineStopped_eq, joinsEngine_eq]
      dsimp only
      split
      · rfl
      split
      · rfl
      cases submitNode s run n x.hdr r.ctx <;> rfl

theorem nodeCompletes_eq : nodeCompletes = completeNode := rfl

theorem exec_nodeComplete (run n : Nat) (s : State) :
    exec (.nodeComplete run n) s = .next (tableNext graphEvents (.nodeComplete run n) s) := by
  show execNodeComplete run n s = .next (((findRun s run).bind fun r => (kvGet r.nodes n).bind _).getD s)
  unfold execNodeComplete
  cases findRun s run with
  | none => rfl
  | some r =>
    rw [Option.bind_some]
    dsimp only
    cases kvGet r.nodes n with
    | none => rfl
    | some x =>
      rw [Option.bind_some, nodeCompletes_eq, ← next_due]
      rfl

theorem retryWait_eq {s : State} {run n : Nat} {r : Run} {x : NodeRun} (hr : findRun s run = some r) (hx : kvGet r.nodes n = some x) :
    retryWait s run n = entriesRetried s r n x := by
  unfold retryWait entriesRetried
  rw [hr, entryWaits_eq]
  dsimp only
  rw [hx, findRun_id hr]
  rfl

theorem exec_nodeWaitRetry (run n : Nat) (s : State) :
    exec (.nodeWaitRetry run n) s = .next (tableNext graphEvents (.nodeWaitRetry run n) s) := by
  show (if waitCanRetry s run n then .next (retryWait s run n) else .next s) =
    Host.Outcome.next (((findRun s run).bind fun r => (kvGet r.nodes n).bind _).getD s)
  cases hr : findRun s run with
  | none => simp [waitCanRetry, hr]
  | some r =>
    rw [Option.bind_some]
    cases hx : kvGet r.nodes n with
    | none => simp [waitCanRetry, hr, hx]
    | some x =>
      rw [Option.bind_some, ← retryWait_eq hr hx, ← next_due]
      rfl

/-- Settles O52: the state that the table writes out for each event is the one that the event gives. -/
theorem graphEventsHold : Obligations.GraphEvents := by
  unfold Obligations.GraphEvents
  refine happens_of_tableNext fun i e he s => ?_
  unfold graphEvents at he
  split at he
  · exact exec_triggerWrite _ s
  · exact exec_graphRunStart _ s
  · exact exec_nodeStart _ _ s
  · exact exec_nodeSubmitDeferred _ _ s
  · exact exec_nodeComplete _ _ s
  · exact exec_nodeWaitRetry _ _ s
  · cases he

end Sys2Proof.Machine
end

section
/-! SUPPORT. DESTROY (R281, R378, Table 19-4): the fibre-local slots of the crews of a saved cluster are given back with it, which the
statement about the commands to the context slots does not say (its table keeps them held until the slot is FREE). -/
namespace Sys2Proof.Machine
open Sys2Proof

/-- A cluster of context 0 that has been saved, with one crew, which keeps its fibre-local slot 5. -/
def savedCluster : Cluster where
  id := 9
  ctx := 0
  run := 8
  node := 0
  index := 0
  hdr := []
  cls := 0
  eff := 0
  state := .saved
  age := 0
  cc := 0
  saveSlot := 0
  saves := 1
  kindling := false
  stampFrom := []
  liveCrews := 1
  savedCrews := [{ fillCrew with fill := none, flSlot := 5 }]
  savedBatches := []
  savedSets := []
  savedPlanes := []

/-- The device with that cluster alone; its context is RESIDENT and holds the cluster's save slot and the crew's fibre-local slot. -/
def savedClusterState : State :=
  { State.reset with
    clusters := [savedCluster]
    ctxs := State.reset.ctxs.set 0 { state := .resident, nsave := 4, saveHeld := [0], flHeld := [5] } }

/-- The fibre-local slots that context 0 holds in the state that an instruction answers. -/
def nextSlots : Host.Outcome State Fault Refusal → Option (List Nat)
  | .next t => some (ctxD t 0).flHeld
  | _ => none

/-- DESTROY gives the slot of the saved crew back. -/
theorem exec_ctxDestroy_frees : nextSlots (exec (.ctxDestroy 0) savedClusterState) = some [] := by decide +kernel

/-- The table keeps it held. -/
theorem commanded_destroy_keeps : (ctxD (commanded savedClusterState 0 4) 0).flHeld = [5] := by decide +kernel

/-- The command is due: the slot exists and the device is not in recovery. -/
theorem contextEvents_ctxDestroy {e : EventEffect} (he : contextEvents (.ctxDestroy 0) = some e) :
    e savedClusterState = some (commanded savedClusterState 0 4) := by
  cases Option.some.inj he
  exact if_pos rfl

/-- Refutes O56: DESTROY of a context with a saved cluster gives back the fibre-local slots of the cluster's crews, and the table keeps
them. -/
theorem not_contextEvents : ¬ Obligations.ContextEvents := by
  unfold Obligations.ContextEvents
  intro h
  have hnext := (h (.ctxDestroy 0) _ rfl savedClusterState).1 _ (contextEvents_ctxDestroy rfl)
  have hfreed := exec_ctxDestroy_frees
  rw [hnext] at hfreed
  exact absurd (commanded_destroy_keeps.symm.trans (Option.some.inj hfreed)) (by decide)

end Sys2Proof.Machine
end

section
/-! SUPPORT. Canonical memory (log 4) through the operations that words, exits and traps share. A function that does not branch and
does not call another that does keeps memory as it stands, and has no lemma here: its result is canonical by definition. -/
namespace Sys2Proof.Machine
open Sys2Proof

/-! The proofs of this block are elaborated one after another: taken all at once they would need much more memory. -/
set_option Elab.async false

/-! ### Ways to canonical states -/

/-- A state with the memory and the zero mask of a canonical state is canonical. -/
theorem State.canonical.same {s t : State} (h : s.canonical) (hm : t.mem = s.mem := by rfl)
    (hz : t.zeroMask = s.zeroMask := by rfl) : t.canonical := canonical_of_eq hm hz h

theorem canonical_ite {c : Prop} [Decidable c] {s t : State} (hs : s.canonical) (ht : t.canonical) :
    (if c then s else t).canonical := by split <;> assumption

/-- A fold that carries something beside the state. -/
theorem canonical_foldl_fst {α β : Type} {f : State × β → α → State × β} (hf : ∀ p a, p.1.canonical → (f p a).1.canonical)
    (l : List α) : ∀ p : State × β, p.1.canonical → (l.foldl f p).1.canonical := by
  induction l with
  | nil => exact fun _ h => h
  | cons a l ih => exact fun p h => ih _ (hf p a h)

theorem canonical_foldl_snd {α β : Type} {f : β × State → α → β × State} (hf : ∀ p a, p.2.canonical → (f p a).2.canonical)
    (l : List α) : ∀ p : β × State, p.2.canonical → (l.foldl f p).2.canonical := by
  induction l with
  | nil => exact fun _ h => h
  | cons a l ih => exact fun p h => ih _ (hf p a h)

theorem canonical_of_fst {α : Type} {p : State × α} {t : State} {a : α} (h : p.1.canonical) (e : p = (t, a)) : t.canonical := by
  subst e; exact h

theorem canonical_of_snd {α : Type} {p : α × State} {t : State} {a : α} (h : p.2.canonical) (e : p = (a, t)) : t.canonical := by
  subst e; exact h

/-- Every state that an answer holds is canonical. -/
def AllCanonical (o : Option State) : Prop := ∀ t ∈ o, t.canonical

theorem AllCanonical.none : AllCanonical none := fun _ h => nomatch h

theorem AllCanonical.some {s : State} (h : s.canonical) : AllCanonical (some s) := fun _ e => Option.some.inj e ▸ h

section
variable {s : State} (h : s.canonical)
include h

/-! ### The named operations -/

theorem modBatch_canonical {i : Nat} {f : Batch → Batch} : (modBatch s i f).canonical := h

theorem modCrew_canonical {i : Nat} {f : Crew → Crew} : (modCrew s i f).canonical := h

theorem modCore_canonical {i : Nat} {f : Core → Core} : (modCore s i f).canonical := h

theorem modCtx_canonical {i : Nat} {f : Context → Context} : (modCtx s i f).canonical := h

theorem modCluster_canonical {i : Nat} {f : Cluster → Cluster} : (modCluster s i f).canonical := h

theorem modFill_canonical {i : Nat} {f : Fill → Fill} : (modFill s i f).canonical := h

theorem modRun_canonical {i : Nat} {f : Run → Run} : (modRun s i f).canonical := h

theorem modFlue_canonical {i : Nat} {f : FlueCtx → FlueCtx} : (modFlue s i f).canonical := h

theorem modSplit_canonical {i : Nat} {f : SplitCtx → SplitCtx} : (modSplit s i f).canonical := h

theorem modXSet_canonical {i j : Nat} {f : XSet → XSet} : (modXSet s i j f).canonical := h

theorem modNode_canonical {i j : Nat} {f : NodeRun → NodeRun} : (modNode s i j f).canonical := h

theorem perfAdd_canonical {i j n : Nat} : (perfAdd s i j n).canonical := h

theorem freeBool_canonical : (freeBool s).2.canonical := h

theorem freeVal_canonical : (freeVal s).2.canonical := h

theorem freePick_canonical {n : Nat} : (freePick s n).2.canonical := by
  unfold freePick; split <;> exact h

theorem clearUpsets_canonical {p : Upset → Bool} : (clearUpsets s p).canonical :=
  canonical_of_eq (clearUpsets_mem _ _).1 (clearUpsets_mem _ _).2 h

theorem storeReg_canonical {b : Batch} {i : Nat} {v : RegVal} : (storeReg s b i v).canonical := by
  unfold storeReg
  split
  · exact h
  · split <;> exact h

theorem putReg_canonical {bid : Nat} {act : List Nat} {i : Nat} {new : RegVal} : (putReg s bid act i new).canonical := by
  unfold putReg
  split
  · exact h
  · next b _ =>
    dsimp only
    refine storeReg_canonical (clearUpsets_canonical ?_)
    split <;> exact h

theorem putRegs_canonical {bid : Nat} {act : List Nat} {vals : List (Nat × RegVal)} : (putRegs s bid act vals).canonical :=
  canonical_foldl _ (fun _ _ h => putReg_canonical h) _ _ h

theorem raiseFlags_canonical {crew : Nat} {fl : LaneFlags} : (raiseFlags s crew fl).canonical :=
  canonical_ite h h

theorem landPending_canonical {bid : Nat} {p : Pending} : (landPending s bid p).canonical := by
  cases p with
  | result mask vals fl =>
    refine putRegs_canonical ?_
    split
    · exact raiseFlags_canonical h
    · exact h
  | toGeneral i =>
    dsimp only [landPending]
    split
    · exact h
    · split
      · exact h
      · exact putReg_canonical h

theorem landAll_canonical {bid : Nat} : (landAll s bid).canonical := by
  unfold landAll
  split
  · exact h
  · exact (canonical_foldl _ (fun _ _ h => landPending_canonical h) _ _ h).same

theorem commitUpsets_canonical {crew : Nat} {p : Tile → Bool} : (commitUpsets s crew p).canonical := by
  unfold commitUpsets; split <;> exact h

theorem commitTiles_canonical {bid : Nat} : (commitTiles s bid).canonical := by
  unfold commitTiles
  split
  · exact h
  · exact (commitUpsets_canonical h).same

theorem closeRegion_canonical {bid : Nat} : (closeRegion s bid).canonical := (commitTiles_canonical h).same

theorem mendTrapRegs_canonical {bid : Nat} : (mendTrapRegs s bid).canonical := by
  unfold mendTrapRegs
  split
  · exact h
  · exact clearUpsets_canonical h

theorem trapEntry_canonical {bid : Nat} {t : TrapInfo} : (trapEntry s bid t).canonical :=
  (mendTrapRegs_canonical (commitTiles_canonical h)).same

/-! ### Home and L1 -/

theorem noteBanks_canonical {ws : List Nat} : (noteBanks s ws).canonical := canonical_ite h h

theorem failRun_canonical {g n code : Nat} : (failRun s g n code).canonical := by
  unfold failRun
  split
  · exact h
  · exact canonical_ite h h

theorem dropLasting_canonical {core : Nat} : (dropLasting s core).canonical :=
  canonical_foldl _ (fun _ _ h => dropL1_canonical _ _ _ (writeBack_canonical _ _ _ h)) _ _ h

theorem replaceLine_canonical {core key : Nat} : (replaceLine s core key).canonical :=
  canonical_ite (dropL1_canonical _ _ _ (writeBack_canonical _ _ _ h)) h

theorem shedLines_canonical {core : Nat} : (shedLines s core).canonical :=
  canonical_foldl (fun s k => if (freeBool s).1 then dropL1 (writeBack (freeBool s).2 core k) core k else (freeBool s).2)
    (fun _ _ h => canonical_ite (dropL1_canonical _ _ _ (writeBack_canonical _ _ _ h)) h) _ _ h

/-! ### Exits (R54, R250) -/

theorem reapImages_canonical : (reapImages s).canonical := h

theorem endFailed_canonical {run : Nat} : (endFailed s run).canonical := h

theorem endWait_canonical {b : Batch} : (endWait s b).canonical := by
  unfold endWait
  split
  · exact h
  · next k _ => cases k <;> exact canonical_ite h h

theorem endReads_canonical {core : Nat} : (endReads s core).canonical := h

theorem unbindArray_canonical {core : Nat} : (unbindArray s core).canonical := by
  unfold unbindArray
  split
  · exact h
  · exact canonical_ite h (canonical_ite h h)

theorem removeCrew_canonical {uid : Nat} : (removeCrew s uid).canonical := by
  unfold removeCrew
  split
  · exact h
  · exact unbindArray_canonical (clearUpsets_canonical (canonical_foldl endWait (fun _ _ h => endWait_canonical h) _ _ h)).same

theorem endCluster_canonical {id : Nat} : (endCluster s id).canonical := by
  unfold endCluster; split <;> exact h

/-! ### Ends of fills (R392) -/

theorem failRecord_canonical {id cause code : Nat} : (failRecord s id cause code).canonical := by
  unfold failRecord; split <;> exact h

theorem freeFillTask_canonical {uid : Nat} : (freeFillTask s uid).canonical := by
  unfold freeFillTask
  split
  · exact h
  · exact modCore_canonical (canonical_ite (endReads_canonical (clearUpsets_canonical (removeCrew_canonical h))) (removeCrew_canonical h))

theorem failFill_canonical {id cause code : Nat} : (failFill s id cause code).canonical := by
  unfold failFill
  split
  · exact h
  · next f _ =>
    have hfree := freeFillTask_canonical (uid := f.crew) h
    exact canonical_ite hfree.same (failRecord_canonical (s := monSample _ _ _ _) hfree).same

theorem commitCrew_canonical {c : Crew} : (commitCrew s c).canonical := (commitUpsets_canonical h).same

theorem pipeExit_canonical {c : Crew} : (pipeExit s c).canonical := by
  unfold pipeExit
  split
  · exact (drainCore_canonical _ _ _ _ h).same
  · exact h

theorem exitCrew_canonical {uid : Nat} : (exitCrew s uid).canonical := by
  unfold exitCrew
  split
  · exact h
  · next c _ =>
    split
    · exact failFill_canonical h
    · refine reapImages_canonical ?_
      have hgone := removeCrew_canonical (uid := uid) (pipeExit_canonical (c := c) (commitCrew_canonical (c := c) h))
      split
      · exact canonical_ite (endCluster_canonical hgone.same) hgone.same
      · exact hgone.same

theorem exitIfEmpty_canonical {uid : Nat} : (exitIfEmpty s uid).canonical := by
  unfold exitIfEmpty
  split
  · exact h
  · exact canonical_ite h (exitCrew_canonical h)

/-! ### Fatal errors (R461, R462) and traps (R456 to R458) -/

theorem discardCluster_canonical {id : Nat} : (discardCluster s id).canonical := by
  unfold discardCluster
  refine reapImages_canonical (endCluster_canonical (canonical_foldl _ (fun _ _ h => removeCrew_canonical h) _ _ ?_))
  split <;> exact h

theorem stopRun_canonical {run n : Nat} : (stopRun s run n).canonical := (failRun_canonical h).same

theorem discardFor_canonical {g : Gone} : (discardFor s g).canonical := by
  unfold discardFor
  cases g.run with
  | none => exact canonical_ite (discardCluster_canonical h) h
  | some r =>
    exact endFailed_canonical (reapImages_canonical
      (canonical_ite (discardCluster_canonical (stopRun_canonical h)) (stopRun_canonical h)))

theorem fatalError_canonical {ctx crew cause : Nat} : (fatalError s ctx crew cause).canonical := by
  have hrec := recOr_canonical _ ctx 8 8 (recField_canonical s ctx 8 8 8 cause h)
  have hnote := fun v => modCtx_canonical (i := ctx) (f := fun c => { c with state := if c.state = .resident then .halting else c.state })
    (recField_canonical _ ctx 9 0 32 v hrec)
  unfold fatalError
  cases fatalCrew s crew with
  | none => exact canonical_ite (hnote _) h
  | some g => exact discardFor_canonical (canonical_ite (hnote _) h)

theorem takeTrap_canonical {b : Batch} {t : TrapInfo} : (takeTrap s b t).canonical := by
  unfold takeTrap
  split
  · exact failFill_canonical h
  · exact canonical_ite (fatalError_canonical h) (trapEntry_canonical h)

theorem countUE_canonical {core : Nat} {c : Cause} : (countUE s core c).canonical := canonical_ite h h

theorem postUE_canonical {b : Batch} {c : Cause} : (postUE s b c).canonical := (countUE_canonical h).same

theorem raise_canonical {bid : Nat} {t : TrapInfo} : (raise s bid t).canonical := by
  unfold raise
  split
  · exact h
  · next b _ =>
    have hnote := noteBanks_canonical (ws := t.words) (canonical_ite (c := t.kind = 1) h (countUE_canonical (core := b.core) (c := t.cause) h))
    exact canonical_ite (modBatch_canonical hnote) (takeTrap_canonical hnote)

end

/-! Canonical memory through translation, GEN lines and the checks that come before the accesses of a word. -/

/-- The state with which a check of accesses answers is canonical. -/
def Acc.canonical : Acc → Prop
  | .ok s _ => s.canonical
  | .trap s _ => s.canonical
  | .wait s _ => s.canonical

section
variable {s : State} (h : s.canonical)
include h

/-! ### Translation (R434, R436) -/

theorem utlbAdd_canonical {core ctx : Nat} {l : Leaf} : (utlbAdd s core ctx l).canonical := h

theorem cacheWalk_canonical {core ctx : Nat} {w : Option Leaf × List PteEntry} : (cacheWalk s core ctx w).1.canonical := by
  unfold cacheWalk; split <;> exact h

theorem translate_canonical {core ctx va : Nat} : (translate s core ctx va).1.canonical := by
  unfold translate
  dsimp only
  split
  · exact cacheWalk_canonical (freePick_canonical h)
  · split
    · exact h
    · split
      · exact freePick_canonical h
      · exact cacheWalk_canonical (freePick_canonical h)

theorem retranslate_canonical {core ctx va : Nat} : (retranslate s core ctx va).1.canonical := by
  unfold retranslate; split <;> exact h

/-! ### Acquires and releases (R328 to R342) -/

theorem acquireBump_canonical {core scope : Nat} : (acquireBump s core scope).canonical :=
  canonical_foldl (fun s i => bumpGen s core (i + 1)) (fun _ _ h => h) _ _ h

theorem addRecord_canonical {core pa scope mask : Nat} : (addRecord s core pa scope mask).canonical := by
  unfold addRecord
  dsimp only
  split
  · exact h
  · split
    · exact h
    · split
      · exact (drainCore_canonical _ _ _ _ h).same
      · exact h

theorem stampLoc_canonical {c : Crew} {pa n scope : Nat} {merge : Bool} : (stampLoc s c pa n scope merge).canonical := h

theorem atomStamps_canonical {core pa n : Nat} {home : Bool} : (atomStamps s core pa n home).canonical :=
  modStamps_canonical _ _ _ _ h

theorem acquireStamp_canonical {crew scope : Nat} {copy : Bool} {t : Option Stamp} : (acquireStamp s crew scope copy t).canonical := by
  unfold acquireStamp
  split
  · exact h
  · exact canonical_ite h h

theorem coverScratch_canonical {crew : Nat} {rs : List (Nat × Nat)} : (coverScratch s crew rs).canonical := clearUpsets_canonical h

/-! ### GEN lines (R382 to R386) -/

theorem countLlcMiss_canonical {crew ctx : Nat} : (countLlcMiss s crew ctx).canonical := h

theorem modParks_canonical {w : Who} {f : List ParkLine → List ParkLine} : (modParks s w f).canonical := by
  cases w <;> exact h

theorem keepLine_canonical {w : Who} {p : ParkLine} : (keepLine s w p).canonical := modParks_canonical h

theorem parkOn_canonical {w : Who} {ctx va : Nat} {leaf : Leaf} {rec : Option Nat} : (parkOn s w ctx va leaf rec).canonical :=
  modParks_canonical h

theorem holdServed_canonical {w : Who} {ctx va : Nat} {leaf : Leaf} {bs : List Byte} : (holdServed s w ctx va leaf bs).canonical :=
  modParks_canonical h

theorem victimPut_canonical {l : GenLine} : (victimPut s l).canonical := by
  unfold victimPut
  dsimp only
  split
  · exact h
  · split <;> exact h

theorem mendGen_canonical {ctx va : Nat} : (mendGen s ctx va).canonical := clearUpsets_canonical h

theorem evictGen_canonical : (evictGen s).canonical := by
  unfold evictGen
  split
  · exact h
  · split
    next t e =>
    have ht : t.canonical := canonical_of_snd (freeBool_canonical h) e
    split
    · split
      next u e =>
      have hu : u.canonical := canonical_of_snd (freePick_canonical ht) e
      split
      · exact hu
      · exact canonical_ite (victimPut_canonical (mendGen_canonical hu).same) (mendGen_canonical hu).same
    · exact ht

theorem putGenLine_canonical {l : GenLine} : (putGenLine s l).canonical := (mendGen_canonical h).same

theorem victimGet_canonical {ctx line g : Nat} : (victimGet s ctx line g).1.canonical := by
  unfold victimGet; split <;> exact h

theorem roomForFill_canonical {depth : Nat} : AllCanonical (roomForFill s depth) := by
  unfold roomForFill
  dsimp only
  split
  · exact .some h
  · rintro t ht
    obtain ⟨f, -, rfl⟩ := Option.map_eq_some_iff.mp ht
    exact h

omit h in
theorem raiseClass_canonical {cls : Nat} (fuel : Nat) : ∀ {s : State} {id : Nat}, s.canonical → (raiseClass s id cls fuel).canonical := by
  induction fuel with
  | zero => exact fun h => h
  | succ fuel ih => exact fun h => canonical_foldl _ (fun _ _ h => ih h) _ _ h

theorem genAccess_create_canonical {w : Who} {ctx depth cls va : Nat} {leaf : Leaf} {g unit : Nat} :
    (genAccess.create w ctx depth cls va leaf s g unit).1.canonical := by
  unfold genAccess.create
  split
  · exact parkOn_canonical h
  · next t ht => exact parkOn_canonical (s := { (fresh t).2 with fills := _ }) (roomForFill_canonical h t ht)

theorem genAccess_canonical {w : Who} {ctx depth cls va : Nat} {leaf : Leaf} : (genAccess s w ctx depth cls va leaf).1.canonical := by
  unfold genAccess
  dsimp only
  split
  · exact h
  · split
    · exact h
    · split
      · next t v e => exact putGenLine_canonical (canonical_of_fst (victimGet_canonical h) e)
      · next t e =>
        have ht := canonical_of_fst (victimGet_canonical h) e
        have huse : ∀ f : Fill, (raiseClass (parkOn t w ctx va leaf (some f.id)) f.id (max 1 cls) 3).canonical := fun f =>
          raiseClass_canonical 3 (parkOn_canonical ht)
        split
        · exact ht
        · split
          · split
            · exact ht
            · exact huse _
          · split
            · split
              · exact genAccess_create_canonical ht
              · split
                · exact ht
                · exact huse _
            · exact genAccess_create_canonical ht

/-! ### The places of a word's accesses (R156) -/

theorem locateLane_canonical {x : Exec} {u : Use} {bytes va : Nat} {atHome : Bool} {fl : Option Nat} :
    (locateLane x s u bytes va atHome fl).1.canonical := by
  have ht := translate_canonical (core := x.b.core) (ctx := x.b.ctx) (va := va) h
  have hr := retranslate_canonical (core := x.b.core) (ctx := x.b.ctx) (va := va) ht
  unfold locateLane
  dsimp only
  split
  · exact h
  · split
    · exact h
    · split
      · exact ht
      · split
        · exact ht
        · split
          · exact ht
          · split
            · exact ht
            · exact ht
            · split
              · exact hr
              · split
                · exact hr
                · split
                  · exact hr
                  · split <;> exact hr

omit h in
theorem locateLanes_canonical {x : Exec} {u : Use} {bytes : Nat} {atHome : Bool} {fl : Option Nat} (ls : List (Nat × Nat)) :
    ∀ {s : State}, s.canonical → (locateLanes x u bytes atHome fl s ls).1.canonical := by
  induction ls with
  | nil => exact fun h => h
  | cons p ls ih => exact fun h => ih (locateLane_canonical h)

theorem checkMem_canonical {x : Exec} {u : Use} {bytes : Nat} {atHome : Bool} {fl : Option Nat} {ls : List (Nat × Nat)} :
    (checkMem x s u bytes atHome fl ls).canonical := by
  have hl := locateLanes_canonical (x := x) (u := u) (bytes := bytes) (atHome := atHome) (fl := fl) ls h
  unfold checkMem
  dsimp only
  split
  · exact hl
  · split
    · exact hl
    · split
      · exact hl
      · split <;> exact hl

omit h in
theorem checkAddrs_canonical {x : Exec} (h : x.s.canonical) {u : Use} {bytes : Nat} {atHome : Bool} {addr : Nat → Nat} :
    (checkAddrs x u bytes atHome addr).canonical := by
  unfold checkAddrs
  dsimp only
  split
  · exact h
  · split
    · exact h
    · split
      · exact h
      · split
        · exact h
        · split
          · exact h
          · have hm := checkMem_canonical (x := x) (u := u) (bytes := bytes) (atHome := atHome) (fl := none)
              (ls := (x.act.filter fun l => !inScratchWindow (addr l)).map fun l => (l, addr l)) h
            split
            · next e => rw [e] at hm; exact hm
            · exact hm

theorem checkGen_canonical {x : Exec} {atHome : Bool} {addr : Nat → Nat} {locs : List (Nat × Loc)} :
    (checkGen x s atHome addr locs).canonical := by
  unfold checkGen
  dsimp only
  generalize hr : List.foldl _ (s, _) locs = r
  have ht : r.1.canonical := by
    subst hr
    refine canonical_foldl_fst (fun p a hp => ?_) locs (s, _) h
    split
    · split
      · exact hp
      · have hg := fun va l => genAccess_canonical (w := .batch x.b.id) (ctx := x.b.ctx) (depth := accessDepth s x.b.crew)
          (cls := crewClass s x.b.crew) (va := va) (leaf := l) hp
        split <;> exact canonical_ite (hg _ _) (countLlcMiss_canonical (hg _ _))
    · exact hp
  split
  · exact ht
  · exact ht
  · split
    · exact ht
    · refine canonical_foldl _ (fun s p hs => ?_) r.2.1 _ ht
      split
      · exact canonical_ite hs (holdServed_canonical hs)
      · exact hs

theorem checkRaces_canonical {x : Exec} {bytes : Nat} {exempt atomic : Bool} {addr : Nat → Nat} {locs : List (Nat × Loc)} :
    (checkRaces x s bytes exempt atomic addr locs).canonical := by
  unfold checkRaces
  dsimp only
  split <;> exact h

/-! ### Accesses performed late (R209, R318) -/

theorem settle_canonical {core pa : Nat} : (settle s core pa).canonical := writeBack_canonical _ _ _ h

theorem settleLoads_canonical {b : Batch} {l n : Nat} {loc : Loc} : (settleLoads s b l n loc).canonical := by
  unfold settleLoads
  split
  · exact h
  · exact h

theorem settleReads_canonical {bid : Nat} {p : Nat → Bool} : (settleReads s bid p).canonical := by
  unfold settleReads
  split
  · exact h
  · exact performThose_canonical _ _ _ h

theorem settleScratch_canonical {bid : Nat} : (settleScratch s bid).canonical := by
  unfold settleScratch
  split
  · exact h
  · exact performThose_canonical _ _ _ h

end

/-! Canonical memory through the frame of every word: the checks, the word's own part, and its retirement. -/

/-- A next state that an instruction answers is canonical. -/
def Answers (o : Host.Outcome State Fault Refusal) : Prop := ∀ t, o = .next t → t.canonical

theorem Answers.next {s : State} (h : s.canonical) : Answers (.next s) := fun _ e => Host.Outcome.next.inj e ▸ h

theorem Answers.fault {r : Fault} : Answers (.fault r) := fun _ e => nomatch e

theorem Answers.refused {r : Refusal} : Answers (.refused r) := fun _ e => nomatch e

/-- The state that a word's own part leaves is canonical. -/
def Eff.canonical : Eff → Prop
  | .res _ _ _ => True
  | .done s _ _ _ => s.canonical
  | .jump s _ => s.canonical
  | .wait s _ => s.canonical
  | .trap s _ => s.canonical

theorem Eff.done_canonical {s : State} (h : s.canonical) {regs : List (Nat × RegVal)} {preds : List (Nat × W32)} {fl : LaneFlags} :
    (Eff.done s regs preds fl).canonical := h

theorem Eff.jump_canonical {s : State} (h : s.canonical) {parts : List Nat} : (Eff.jump s parts).canonical := h

theorem Eff.wait_canonical {s : State} (h : s.canonical) {k : Block} : (Eff.wait s k).canonical := h

theorem Eff.trap_canonical {s : State} (h : s.canonical) {t : TrapInfo} : (Eff.trap s t).canonical := h

theorem Eff.canonical_ite {c : Prop} [Decidable c] {e f : Eff} (he : e.canonical) (hf : f.canonical) :
    (if c then e else f).canonical := by split <;> assumption

section
variable {s : State} (h : s.canonical)
include h

/-! ### Retirement (R56 to R62) -/

theorem startRegion_canonical {b : Batch} {rgn : Bool} : (startRegion s b rgn).canonical := canonical_ite h h

theorem pushWindow_canonical {bid : Nat} {e : WinEntry} : (pushWindow s bid e).canonical := h

theorem writeResults_canonical {bid : Nat} {act : List Nat} {sp : Spec} {regs : List (Nat × RegVal)} {fl : LaneFlags} :
    (writeResults s bid act sp regs fl).canonical := by
  unfold writeResults
  split
  · split <;> exact h
  · split
    · split <;> exact h
    · exact pushWindow_canonical (putRegs_canonical h)

theorem advance_canonical {bid : Nat} : (advance s bid).canonical := h

theorem park_canonical {bid : Nat} : (park s bid).canonical := h

theorem putPred_canonical {bid n : Nat} {act : List Nat} {v : W32} : (putPred s bid act n v).canonical := h

theorem delBatch_canonical {bid : Nat} : (delBatch s bid).canonical := h

theorem retire_canonical {bid : Nat} {sp : Spec} : (retire s bid sp).canonical := by
  have hclose := canonical_ite (c := sp.closes) (closeRegion_canonical (bid := bid) h) h
  unfold retire
  dsimp only
  split
  · exact hclose
  · exact canonical_ite hclose hclose

theorem blockOn_canonical {bid : Nat} {k : Block} : (blockOn s bid k).canonical := by
  unfold blockOn
  split
  · exact h
  · exact canonical_ite h (modBatch_canonical (endWait_canonical h))

omit h in
theorem finish_canonical {x : Exec} {e : Eff} (hx : x.s.canonical) (he : e.canonical) : (finish x e).canonical := by
  have hfin : ∀ {t : State} (regs : List (Nat × RegVal)) (preds : List (Nat × W32)) (fl : LaneFlags), t.canonical →
      (retire (advance (perfAdd (writeResults (preds.foldl (fun s p => putPred s x.b.id x.act p.1 p.2)
        (if x.sp.var then t else raiseFlags t x.b.crew fl)) x.b.id x.act x.sp regs fl) x.b.crew 0 1) x.b.id) x.b.id x.sp).canonical :=
    fun regs preds fl ht => retire_canonical (advance_canonical (perfAdd_canonical (writeResults_canonical
      (canonical_foldl _ (fun s p h => putPred_canonical h) preds _ (canonical_ite ht (raiseFlags_canonical ht))))))
  cases e with
  | res regs preds fl => exact hfin regs preds fl (endWait_canonical hx)
  | done s regs preds fl => exact hfin regs preds fl (endWait_canonical he)
  | jump s parts => exact canonical_foldl _ (fun s p h => retire_canonical h) _ _ (endWait_canonical (perfAdd_canonical he))
  | wait s k => exact blockOn_canonical (modBatch_canonical he)
  | trap s t => exact raise_canonical (endWait_canonical he)

/-! ### The three word forms -/

theorem runWord_canonical {guard : W32 → Bool} {sp : Spec} {ok : Bool} {body : Exec → Eff}
    (hbody : ∀ x : Exec, x.s.canonical → (body x).canonical) : Answers (runWord s guard sp ok body) := by
  unfold runWord
  split
  · exact .refused
  · dsimp only
    split
    · exact .next (park_canonical h)
    · have hs := fun b => startRegion_canonical (b := b) (rgn := sp.rgn) h
      split
      · exact .refused
      · split
        · exact .next (retire_canonical (pushWindow_canonical (advance_canonical (perfAdd_canonical (hs _)))))
        · split
          · exact .next (raise_canonical (hs _))
          · exact .next (finish_canonical (hs _) (hbody _ (hs _)))

theorem holdQuad_canonical {b : Batch} {sp : Spec} : (holdQuad s b sp).canonical := canonical_ite h h

theorem runF_canonical {w : FWord} {sp : Spec} {body : Exec → Eff}
    (hbody : ∀ x : Exec, x.s.canonical → (body x).canonical) : Answers (runF s w sp body) := by
  refine runWord_canonical ?_ hbody
  split
  · exact h
  · exact canonical_ite h (holdQuad_canonical h)

theorem runI_canonical {w : IWord} {sp : Spec} {body : Exec → Eff}
    (hbody : ∀ x : Exec, x.s.canonical → (body x).canonical) : Answers (runI s w sp body) := runWord_canonical h hbody

/-! ### Batches that split and join (R111 to R121) -/

theorem spreadScalars_canonical {b : Batch} {parts : List (List Nat)} : (spreadScalars s b parts).canonical := by
  unfold spreadScalars; split <;> exact h

theorem splitBatch_canonical {b : Batch} {parts : List (List Nat × (Batch → Batch))} : (splitBatch s b parts).1.canonical := by
  unfold splitBatch
  split
  · exact h
  · refine canonical_foldl_fst (fun p a hp => ?_) _ (_, _) (modBatch_canonical ?_)
    · exact hp
    · exact canonical_ite h (spreadScalars_canonical h)

theorem joinBatches_canonical {b : Batch} {others : List Batch} : (joinBatches s b others).canonical :=
  modBatch_canonical (canonical_foldl _ (fun _ _ h => delBatch_canonical h) others s h)

theorem formPinned_canonical {b : Batch} {idx : Nat} {mask : W32} : (formPinned s b idx mask).canonical :=
  modBatch_canonical (joinBatches_canonical (canonical_foldl endWait (fun _ _ h => endWait_canonical h) _ _ h))

theorem writeLink_canonical {x : Exec} {frame id : Nat} {d : Dest} : (writeLink x frame s id d).canonical := by
  unfold writeLink
  split
  · split
    · exact h
    · exact pushWindow_canonical (putRegs_canonical h)
  · exact h

end

theorem branchTo_canonical {x : Exec} (h : x.s.canonical) {first : State → State} {dest : Nat → Dest}
    {onPart : State → Nat → Dest → State} (hfirst : ∀ s : State, s.canonical → (first s).canonical)
    (hpart : ∀ s i d, s.canonical → (onPart s i d).canonical) : (branchTo x first dest onPart).canonical := by
  unfold branchTo
  dsimp only
  split
  · exact h
  · have hs := hfirst _ (canonical_ite (c := 1 < ((liveLanes x.b).map dest).eraseDups.length)
      (performStores_canonical x.s x.b (wordStores x.b) h) h)
    split
    · exact hs
    · exact canonical_foldl (fun s (p : Nat × Dest) => onPart s p.1 p.2) (fun s p h => hpart s p.1 p.2 h) _ _ (splitBatch_canonical hs)

theorem callEff_canonical {x : Exec} (h : x.s.canonical) {frame : Nat} {target : Nat → VA} : (callEff x frame target).canonical :=
  Eff.canonical_ite h (branchTo_canonical h (fun _ h => h) fun _ _ _ h => writeLink_canonical h)

/-! ### Branches, calls, pins and sleeps (R113 to R124) -/

section
variable {s : State} (h : s.canonical)
include h

theorem execBra_canonical {w : IWord} : Answers (execBra w s) :=
  runI_canonical h fun _ hx => branchTo_canonical hx (fun _ h => h) fun _ _ _ h => h

theorem execBri_canonical {w : FWord} : Answers (execBri w s) := runF_canonical h fun x hx => by
  split
  · exact hx
  · exact branchTo_canonical hx (fun _ h => h) fun _ _ _ h => h

theorem execLoop_canonical {w : IWord} : Answers (execLoop w s) :=
  runI_canonical h fun _ hx => branchTo_canonical hx (fun _ h => pushWindow_canonical (putRegs_canonical h)) fun _ _ _ h => h

theorem execCall_canonical {w : IWord} : Answers (execCall w s) := runI_canonical h fun _ hx => callEff_canonical hx

theorem execCalli_canonical {w : FWord} : Answers (execCalli w s) := runF_canonical h fun x hx => by
  split
  · exact hx
  · exact callEff_canonical hx

theorem execRet_canonical {w : FWord} : Answers (execRet w s) := runF_canonical h fun x hx => by
  dsimp only
  split
  · exact hx
  · split
    · exact hx
    · exact branchTo_canonical hx (fun _ h => h) fun _ _ _ h => h

theorem execGather_canonical {w : FWord} : Answers (execGather w s) := by
  unfold execGather
  refine runF_canonical h fun x hx => ?_
  dsimp only
  split
  · exact hx
  · split
    · exact hx
    · generalize hr : splitBatch x.s x.b _ = r
      have ht : r.1.canonical := hr ▸ splitBatch_canonical hx
      split
      · exact ht
      · split
        · split
          · exact hx
          · exact formPinned_canonical ht
        · exact ht

theorem execSleep_canonical {w : IWord} : Answers (execSleep w s) := runI_canonical h fun _ hx => Eff.canonical_ite trivial hx

end

/-! Canonical memory through loads and stores, acquires and releases, atomics and prefetches (R153 to R164). -/

section
variable {s : State} (h : s.canonical)
include h

/-! ### Loads and stores (R155 to R159) -/

theorem loadAll_canonical {read : State → Loc → State × List Byte} {locs : List (Nat × Loc)}
    (hread : ∀ {s l}, s.canonical → (read s l).1.canonical) : (loadAll s read locs).1.canonical := by
  refine canonical_foldl_fst (fun p a hp => ?_) locs (s, []) h
  exact hread hp

omit h in
theorem withLoad_canonical {x : Exec} (hx : x.s.canonical) {bytes : Nat} {atHome exempt : Bool} {addr : Nat → Nat}
    {body : State → List (Nat × Loc) → Eff} (hbody : ∀ {s locs}, s.canonical → (body s locs).canonical) :
    (withLoad x bytes atHome exempt addr body).canonical := by
  have hplaces := checkAddrs_canonical (u := .load) (bytes := bytes) (atHome := atHome) (addr := addr) hx
  unfold withLoad
  split
  · next e => rw [e] at hplaces; exact hplaces
  · next e => rw [e] at hplaces; exact hplaces
  · next s locs e =>
    rw [e] at hplaces
    have hlines := checkGen_canonical (s := s) (x := x) (atHome := atHome) (addr := addr) (locs := locs) hplaces
    split
    · next e => rw [e] at hlines; exact hlines
    · next e => rw [e] at hlines; exact hlines
    · next s locs e =>
      rw [e] at hlines
      have hraces := checkRaces_canonical (s := s) (x := x) (bytes := bytes) (exempt := exempt) (atomic := false) (addr := addr)
        (locs := locs) hlines
      split
      · next e => rw [e] at hraces; exact hraces
      · next e => rw [e] at hraces; exact hraces
      · next e => rw [e] at hraces; exact hbody hraces

omit h in
theorem withStore_canonical {x : Exec} (hx : x.s.canonical) {u : Use} {bytes : Nat} {atHome exempt atomic : Bool} {addr : Nat → Nat}
    {body : State → List (Nat × Loc) → Eff} (hbody : ∀ {s locs}, s.canonical → (body s locs).canonical) :
    (withStore x u bytes atHome exempt atomic addr body).canonical := by
  have hplaces := checkAddrs_canonical (u := u) (bytes := bytes) (atHome := atHome) (addr := addr) hx
  unfold withStore
  split
  · next e => rw [e] at hplaces; exact hplaces
  · next e => rw [e] at hplaces; exact hplaces
  · next s locs e =>
    rw [e] at hplaces
    have hraces := checkRaces_canonical (s := s) (x := x) (bytes := bytes) (exempt := exempt) (atomic := atomic) (addr := addr)
      (locs := locs) hplaces
    split
    · next e => rw [e] at hraces; exact hraces
    · next e => rw [e] at hraces; exact hraces
    · next e => rw [e] at hraces; exact hbody hraces

theorem deferLoads_canonical {b : Batch} {srcs : List LoadSrc} : (deferLoads s b srcs).canonical := canonical_ite h h

theorem orderLoads_canonical {b : Batch} {n : Nat} {locs : List (Nat × Loc)} : (orderLoads s b n locs).canonical :=
  canonical_foldl _ (fun _ _ h => settleLoads_canonical h) locs s h

theorem orderStores_canonical {b : Batch} {n : Nat} {locs : List (Nat × Loc)} : (orderStores s b n locs).canonical :=
  canonical_foldl _ (fun _ _ h => settleStores_canonical _ _ _ _ _ h) locs s h

theorem placeStores_canonical {b : Batch} {colour : Nat} {ps : List (List Nat × List Byte × Loc)} :
    (placeStores s b colour ps).canonical := by
  have hloads := canonical_ite (c := b.loads.isEmpty) h (canonical_foldl (fun s (p : List Nat × List Byte × Loc) =>
    p.1.foldl (fun s l => settleLoads s b l p.2.1.length p.2.2) s)
    (fun s p h => canonical_foldl _ (fun _ _ h => settleLoads_canonical h) _ s h) ps s h)
  unfold placeStores
  dsimp only
  split
  · exact modBatch_canonical hloads
  · refine canonical_foldl (fun s (p : List Nat × List Byte × Loc) => storeLoc s b p.2.1 colour p.2.2)
      (fun s p h => storeLoc_canonical _ _ _ _ _ h) ps _ (canonical_ite hloads ?_)
    exact canonical_foldl (fun s (p : List Nat × List Byte × Loc) => p.1.foldl (fun s l => settleStores s b l p.2.1.length p.2.2) s)
      (fun s p h => canonical_foldl _ (fun _ _ h => settleStores_canonical _ _ _ _ _ h) _ s h) ps _ (settleReads_canonical hloads)

theorem execLd_canonical {w : FWord} : Answers (execLd w s) := by
  unfold execLd
  refine runF_canonical h fun x hx => withLoad_canonical hx fun {t locs} ht => ?_
  dsimp only
  exact Eff.done_canonical (deferLoads_canonical (loadAll_canonical (orderStores_canonical ht) fun h => loadLoc_canonical _ _ _ _ h))

theorem execSt_canonical {w : FWord} : Answers (execSt w s) :=
  runF_canonical h fun _ hx => withStore_canonical hx fun hs => placeStores_canonical hs

omit h in
theorem flPlaces_canonical {x : Exec} (hx : x.s.canonical) {w : FWord} {u : Use} : (flPlaces x w u).canonical := by
  unfold flPlaces
  dsimp only
  split
  · exact hx
  · split
    · exact hx
    · split
      · exact hx
      · generalize hr : checkMem x x.s u _ false _ _ = r
        have hmem : r.canonical := hr ▸ checkMem_canonical hx
        split
        · exact hmem
        · exact hmem
        · split
          · exact checkGen_canonical hmem
          · exact hmem

omit h in
theorem accEff_canonical {a : Acc} (ha : a.canonical) : (accEff a).canonical := by cases a <;> exact ha

theorem flRead_canonical {b : Batch} {n : Nat} {locs : List (Nat × Loc)} : (flRead s b n locs).1.canonical := by
  refine canonical_foldl_fst (fun p a hp => ?_) locs (s, []) h
  exact loadLoc_canonical _ _ _ _ hp

theorem execLdl_canonical {w : FWord} : Answers (execLdl w s) := runF_canonical h fun x hx => by
  have hpl := flPlaces_canonical hx (w := w) (u := .load)
  dsimp only
  split
  · next e => rw [e] at hpl; exact deferLoads_canonical (flRead_canonical (orderStores_canonical hpl))
  · exact accEff_canonical hpl

theorem execStl_canonical {w : FWord} : Answers (execStl w s) := runF_canonical h fun x hx => by
  have hpl := flPlaces_canonical hx (w := w) (u := .store)
  dsimp only
  split
  · next e => rw [e] at hpl; exact placeStores_canonical hpl
  · exact accEff_canonical hpl

theorem execLdsp_canonical {w : FWord} : Answers (execLdsp w s) := runF_canonical h fun x hx => by
  dsimp only
  split
  · exact hx
  · exact deferLoads_canonical (loadAll_canonical (orderStores_canonical hx) (loadLoc_canonical _ _ _ _))

theorem execStsp_canonical {w : FWord} : Answers (execStsp w s) := runF_canonical h fun x hx => by
  dsimp only
  split
  · exact hx
  · exact placeStores_canonical hx

/-! ### Acquires and releases (R160 to R162) -/

theorem stampIn_canonical {b : Batch} {n scope : Nat} {loc : Loc} : (stampIn s b n scope loc).canonical := acquireStamp_canonical h

theorem leaveL1_canonical {b : Batch} {n : Nat} {loc : Loc} : (leaveL1 s b n loc).canonical := by
  cases loc with
  | xform va l => exact canonical_foldl _ (fun _ _ h => dropL1_canonical _ _ _ (writeBack_canonical _ _ _ h)) _ _ h
  | gen va l line => exact dropL1_canonical _ _ _ h
  | _ => exact h

theorem acquireLoad_canonical {b : Batch} {n scope : Nat} {loc : Loc} : (acquireLoad s b n scope loc).1.canonical := by
  unfold acquireLoad
  split
  · exact stampIn_canonical (loadLoc_canonical _ _ _ _ h)
  · split
    · exact drainRecords_canonical _ _ _ (stampIn_canonical (homeLoad_canonical _ _ _ _ h))
    · exact canonical_foldl _ (fun _ _ h => drainRecords_canonical _ _ _ h) _ _
        (stampIn_canonical (loadLoc_canonical _ _ _ _ (leaveL1_canonical h)))
    · exact stampIn_canonical (loadLoc_canonical _ _ _ _ (leaveL1_canonical h))

theorem acquire_canonical {b : Batch} {scope : Nat} : (acquire s b scope).canonical :=
  canonical_ite (acquireBump_canonical h) (modBatch_canonical (acquireBump_canonical h))

theorem execLda_canonical {w : FWord} : Answers (execLda w s) := by
  unfold execLda
  refine runF_canonical h fun x hx => withLoad_canonical hx fun {t locs} ht => ?_
  dsimp only
  exact Eff.done_canonical (acquire_canonical (loadAll_canonical (orderStores_canonical (orderLoads_canonical ht))
    fun h => acquireLoad_canonical h))

theorem bumpEpoch_canonical {crew : Nat} : (bumpEpoch s crew).canonical := h

theorem releaseAt_canonical {b : Batch} {scope mask n : Nat} {loc : Loc} : (releaseAt s b scope mask n loc).canonical :=
  canonical_ite (bumpEpoch_canonical h) (canonical_ite (drainCore_canonical _ _ _ _ (bumpEpoch_canonical h))
    (canonical_foldl _ (fun _ _ h => addRecord_canonical h) _ _ (bumpEpoch_canonical h)))

theorem postLost_canonical {owner : Nat × Nat} : (postLost s owner).canonical := h

theorem releaseStore_canonical {b : Batch} {bs : List Byte} {scope mask colour : Nat} {loc : Loc} :
    (releaseStore s b bs scope mask colour loc).canonical := by
  have hrel := releaseAt_canonical (b := b) (scope := scope) (mask := mask) (n := bs.length) (loc := loc) h
  have hdone : ∀ {t : State}, t.canonical → (match locPA t b.ctx bs.length loc with
      | some p => stampLoc t (crewD t b.crew) p.1 p.2 scope false
      | none => t).canonical := fun ht => by split <;> exact ht
  unfold releaseStore
  cases loc with
  | mem pa l fl =>
    have hhome := countHome_canonical _ b.crew b.ctx pa hrel
    exact hdone (canonical_ite (storeLoc_canonical _ _ _ _ _ hrel)
      (canonical_ite (postLost_canonical hhome) (homeStore_canonical _ _ _ _ hhome)))
  | xform va l =>
    have hstore := storeLoc_canonical _ b bs colour (.xform va l) hrel
    exact hdone (canonical_ite hstore (canonical_foldl _ (fun s pa h => writeBack_canonical s b.core (pa / 128) h) _ _ hstore))
  | _ => exact hdone (storeLoc_canonical _ _ _ _ _ hrel)

theorem execStrel_canonical {w : FWord} : Answers (execStrel w s) := by
  unfold execStrel
  refine runF_canonical h fun x hx => withStore_canonical hx fun {s locs} hs => ?_
  exact Eff.done_canonical (canonical_foldl _ (fun _ _ h => by exact releaseStore_canonical h) locs s hs)

theorem execFence_canonical {w : FWord} : Answers (execFence w s) := by
  unfold execFence fpxCheck
  refine runF_canonical h fun x hx => ?_
  have hdrain := canonical_ite (c := 2 ≤ modOrder w.m) (drainCore_canonical _ x.b.core (modScope w.m) w.c.toNat
    (bumpEpoch_canonical (crew := x.b.crew) hx)) hx
  dsimp only
  split
  · next e =>
    split at e
    · cases e
    · cases e; exact hx
  · exact canonical_ite hdrain (acquire_canonical hdrain)

/-! ### Atomics and prefetches (R163, R164) -/

theorem recordWriter_canonical {crew pa n : Nat} {atomic : Bool} : (recordWriter s crew pa n atomic).canonical := h

theorem atomLane_canonical {b : Batch} {n scope ord : Nat} {f : Nat → Nat} {loc : Loc} : (atomLane s b n scope ord f loc).1.canonical := by
  have hrel := canonical_ite (c := decide (2 ≤ ord) = true)
    (releaseAt_canonical (b := b) (scope := scope) (mask := 255) (n := n) (loc := loc) h) h
  have hstamp : ∀ {t : State}, t.canonical → (match locPA t b.ctx n loc with
      | some p => if decide (2 ≤ ord) = true then stampLoc t (crewD t b.crew) p.1 n scope true
          else atomStamps t b.core p.1 n (!readsCopy scope loc)
      | none => t).canonical := fun ht => by
    split
    · exact canonical_ite (stampLoc_canonical ht) (atomStamps_canonical ht)
    · exact ht
  unfold atomLane
  dsimp only
  generalize (if decide (2 ≤ ord) = true then _ else s : State) = t at hrel
  cases loc with
  | mem pa l fl =>
    dsimp only
    have hset := canonical_ite (c := scope = 0) hrel (settle_canonical (core := b.core) (pa := pa) hrel)
    generalize (if scope = 0 then t else _ : State) = u at hset
    generalize hr : (if scope = 0 then (_, _) else (_, _) : State × Nat) = r
    have hacc : r.1.canonical := by
      subst hr
      split
      · exact storeLoc_canonical _ _ _ _ _ (loadLoc_canonical _ _ _ _ hset)
      · exact homeStore_canonical _ _ _ _ (countHome_canonical _ _ _ _ hset)
    have hacq := fun o => acquireStamp_canonical (crew := b.crew) (scope := scope) (copy := readsCopy scope (.mem pa l fl)) (t := o)
      (hstamp hacc)
    exact canonical_ite (canonical_ite (hacq _) (drainRecords_canonical _ _ _ (hacq _))) (hstamp hacc)
  | checked pa l =>
    have hacc := homeWrite_canonical _ pa (leBytes n (f (homeNat (countHome t b.crew b.ctx pa) pa n)))
      (recordWriter_canonical (crew := b.crew) (pa := pa) (n := n) (atomic := true) (countHome_canonical _ b.crew b.ctx pa hrel))
    exact canonical_ite (acquireStamp_canonical (hstamp hacc)) (hstamp hacc)
  | _ =>
    dsimp only
    refine canonical_ite (acquireStamp_canonical (hstamp ?_)) (hstamp ?_)
    all_goals exact storeLoc_canonical _ _ _ _ _ (loadLoc_canonical _ _ _ _ hrel)

omit h in
theorem atomEff_canonical {x : Exec} (hx : x.s.canonical) {w : FWord} {result : Bool} : (atomEff x w result).canonical := by
  unfold atomEff
  refine withStore_canonical hx fun {s locs} hs => ?_
  dsimp only
  generalize hr : List.foldl _ (s, _) locs = r
  have ht : r.1.canonical := by
    subst hr
    refine canonical_foldl_fst (fun p a hp => ?_) locs (s, _) hs
    dsimp only
    exact atomLane_canonical hp
  exact Eff.done_canonical (canonical_ite (acquire_canonical ht) ht)

theorem execAtom_canonical {w : FWord} : Answers (execAtom w s) := runF_canonical h fun _ hx => atomEff_canonical hx

theorem execRed_canonical {w : FWord} : Answers (execRed w s) := runF_canonical h fun _ hx => atomEff_canonical hx

theorem prefLane_canonical {x : Exec} {llc : Bool} {va : Nat} : (prefLane x llc s va).canonical := by
  have hloc := locateLane_canonical (x := x) (u := .load) (bytes := 4) (va := va) (atHome := llc) (fl := none) h
  unfold prefLane
  split
  · exact h
  · split
    · next e =>
      have ht := canonical_of_fst hloc e
      exact canonical_ite (countHome_canonical _ _ _ _ ht) (l1Ensure_canonical _ _ _ _ _ _ _ _ ht)
    · next e => exact canonical_of_fst hloc e

theorem execPref_canonical {w : FWord} : Answers (execPref w s) := by
  unfold execPref
  refine runF_canonical h fun x hx => Eff.canonical_ite trivial ?_
  exact Eff.done_canonical (canonical_foldl _ (fun _ _ h => by exact prefLane_canonical h) _ _ hx)

end

/-! Canonical memory through the accesses of the device's own agents, events with their waiters, barriers, buffers and
extended sets. -/

/-- The state with which an agent's access answers is canonical. -/
def Eng.canonical {α : Type} : Eng α → Prop
  | .ok s _ => s.canonical
  | .bad s _ _ _ => s.canonical
  | .wait s _ => s.canonical

section
variable {s : State} (h : s.canonical)
include h

/-! ### Accesses of agents -/

theorem noteBad_canonical {a : Agent} {u : Use} {p : Nat × Nat × Piece} : (noteBad s a u p).canonical := by
  unfold noteBad
  split
  · exact h
  · exact countUE_canonical h
  · exact noteBanks_canonical h
  · exact noteBanks_canonical h
  · exact h

theorem pieceUse_canonical {a : Agent} {p : Nat × Nat × Piece} : (pieceUse a s p).canonical := by
  have hask := fun pa => canonical_ite (c := a.vert) (s := useEngines s (homeEngines s pa).tail) h
    (countHome_canonical s (missCrew a) a.ctx pa h)
  unfold pieceUse
  dsimp only
  split
  · exact hask _
  · exact hask _
  · exact h

theorem askHome_canonical {a : Agent} {k : Block} : (askHome s a k).canonical := by
  unfold askHome
  split
  · next i g => exact canonical_ite h (canonical_of_eq (s := useHome s (128 * i)) rfl rfl (useHome_canonical _ _ h))
  · exact h

theorem askedHome_canonical {a : Agent} : (askedHome s a).canonical := canonical_ite h h

theorem piecesOf_canonical {a : Agent} {u : Use} {va n : Nat} : (piecesOf s a u va n).canonical := by
  unfold piecesOf
  dsimp only
  split
  · exact h
  · split
    · exact h
    · split
      · exact askedHome_canonical h
      · split
        · exact askHome_canonical h
        · exact askedHome_canonical h

omit h in
theorem pieceGen_canonical {a : Agent} (ps : List (Nat × Nat × Piece)) : ∀ {s : State} {out : List (Nat × Nat × Piece)} {recs : List Nat}
    {waits : Bool}, s.canonical → (pieceGen a s ps out recs waits).canonical := by
  induction ps with
  | nil =>
    intro s out recs waits h
    unfold pieceGen
    split
    · refine canonical_foldl _ (fun s p h => ?_) out s h
      split
      · exact canonical_ite h (holdServed_canonical h)
      · exact h
    · exact h
  | cons p ps ih =>
    intro s out recs waits h
    obtain ⟨va, n, q⟩ := p
    cases q with
    | gen l bs =>
      have hg := genAccess_canonical (w := a.who) (ctx := a.ctx) (depth := a.depth) (cls := a.cls) (va := va) (leaf := l)
        (canonical_ite (c := (llcGen s a.ctx va (leafGenId l.e)).isSome || isParked s a.who a.ctx va) h
          (countLlcMiss_canonical (crew := missCrew a) (ctx := a.ctx) h))
      unfold pieceGen
      dsimp only
      split
      · next e => exact ih (canonical_of_fst hg e)
      · next e => exact ih (canonical_of_fst hg e)
      · next e => exact canonical_of_fst hg e
      · next e => exact canonical_of_fst hg e
    | _ => exact ih h

theorem pieceSettle_canonical {a : Agent} {p : Nat × Nat × Piece} : (pieceSettle a s p).canonical := by
  unfold pieceSettle
  split
  · exact writeBack_canonical _ _ _ h
  · exact canonical_foldl _ (fun _ _ h => by exact writeBack_canonical _ _ _ h) _ _ h
  · exact h

theorem engineRead_canonical {a : Agent} {va n : Nat} : (engineRead s a va n).canonical := by
  have hpieces := piecesOf_canonical (a := a) (u := .load) (va := va) (n := n) h
  unfold engineRead
  split
  · next e => rw [e] at hpieces; exact hpieces
  · next e => rw [e] at hpieces; exact hpieces
  · next t ps e =>
    rw [e] at hpieces
    have hgen := pieceGen_canonical (a := a) ps (s := t) (out := []) (recs := []) (waits := false) hpieces
    split
    · next e => rw [e] at hgen; exact hgen
    · next e => rw [e] at hgen; exact hgen
    · next t ps e =>
      rw [e] at hgen
      have huse := canonical_foldl (pieceUse a) (fun _ _ h => pieceUse_canonical h) ps _
        (canonical_foldl (pieceSettle a) (fun _ _ h => pieceSettle_canonical h) ps t hgen)
      dsimp only
      split
      · exact canonical_foldl _ (fun _ _ h => noteBad_canonical h) ps _ huse
      · exact huse

theorem agentWrite_canonical {a : Agent} {pa : Nat} {bs : List Byte} : (agentWrite a s pa bs).canonical :=
  canonical_ite (postLost_canonical h) (homeWrite_canonical _ _ _ h)

theorem pieceWrite_canonical {a : Agent} {p : Nat × Nat × Piece} {bs : List Byte} : (pieceWrite a s p bs).canonical := by
  obtain ⟨va, n, q⟩ := p
  cases q with
  | scratch c off => exact scratchWrite_canonical _ _ _ _ h
  | mem pa => exact agentWrite_canonical h
  | gen l bs => exact h
  | xform l =>
    refine canonical_foldl_fst (fun p pa hp => ?_) _ (s, bs) h
    exact agentWrite_canonical hp

theorem engineWrite_canonical {a : Agent} {va : Nat} {bs : List Byte} : (engineWrite s a va bs).canonical := by
  have hpieces := piecesOf_canonical (a := a) (u := .store) (va := va) (n := bs.length) h
  unfold engineWrite
  split
  · next e => rw [e] at hpieces; exact hpieces
  · next e => rw [e] at hpieces; exact hpieces
  · next t ps e =>
    rw [e] at hpieces
    have huse := canonical_foldl (pieceUse a) (fun _ _ h => pieceUse_canonical h) ps _
      (canonical_foldl (pieceSettle a) (fun _ _ h => pieceSettle_canonical h) ps t hpieces)
    dsimp only
    split
    · exact canonical_foldl _ (fun _ _ h => noteBad_canonical h) ps _ huse
    · exact canonical_foldl _ (fun _ _ h => pieceWrite_canonical h) ps _ huse

/-! ### Events and their waiters (R369, R370) -/

theorem putRecord_canonical {w : Waiter} {k : Nat} {valid : Bool} : (putRecord s w k valid).canonical := engineWrite_canonical h

theorem getRecord_canonical {ctx k : Nat} : (getRecord s ctx k).canonical := by
  have hread := engineRead_canonical (a := tableAgent ctx) (va := recordVA s ctx k) (n := 16) h
  unfold getRecord
  split
  · next e => rw [e] at hread; exact modParks_canonical hread
  · next e => rw [e] at hread; exact hread
  · next e => rw [e] at hread; exact hread

theorem freeRecord_canonical {w : Waiter} : (freeRecord s w).canonical := by
  unfold freeRecord
  split
  · next k _ =>
    have hput := putRecord_canonical (w := w) (k := k) (valid := false) h
    split
    · next e => rw [e] at hput; exact hput
    · exact h
  · exact h

theorem reapWaiters_canonical : (reapWaiters s).canonical :=
  canonical_ite h (canonical_foldl freeRecord (fun _ _ h => freeRecord_canonical h) _ { s with waiters := _ } h)

theorem dropWaiters_canonical {p : Waiter → Bool} : (dropWaiters s p).canonical :=
  canonical_foldl freeRecord (fun _ _ h => freeRecord_canonical h) _ { s with waiters := _ } h

omit h in
theorem spillWaiter_canonical {w : Waiter} (fuel : Nat) : ∀ {s : State} {k : Nat}, s.canonical → (spillWaiter s w k fuel).canonical := by
  induction fuel with
  | zero => exact fun h => h
  | succ fuel ih =>
    intro s k h
    have hget := getRecord_canonical (ctx := w.ctx) (k := k) h
    unfold spillWaiter
    split
    · next e => rw [e] at hget; exact hget
    · next e => rw [e] at hget; exact hget
    · next t r e =>
      rw [e] at hget
      split
      · exact ih hget
      · have hput := putRecord_canonical (s := t) (w := w) (k := k) (valid := true) hget
        split
        · next e => rw [e] at hput; exact hput
        · exact hput

theorem addWaiter_canonical {w : Waiter} : (addWaiter s w).canonical := by
  unfold addWaiter
  dsimp only
  split
  · exact (reapWaiters_canonical h).same
  · exact spillWaiter_canonical _ (reapWaiters_canonical h)

theorem wakeWaiter_canonical {w : Waiter} : (wakeWaiter s w).canonical := by
  unfold wakeWaiter
  split
  · exact h
  · split
    · exact h
    · exact modBatch_canonical (acquireStamp_canonical h)

theorem waiterMet_canonical {w : Waiter} {count : Nat} : (waiterMet s w count).1.canonical := by
  unfold waiterMet
  split
  · exact h
  · next k _ =>
    have hget := getRecord_canonical (ctx := w.ctx) (k := k) h
    split
    · next e => rw [e] at hget; exact hget
    · exact h

theorem wakeMet_canonical {i : Nat} : (wakeMet s i).canonical := by
  unfold wakeMet
  refine canonical_foldl _ (fun s w h => ?_) _ _ (reapWaiters_canonical h)
  split
  · next t e =>
    have ht : t.canonical := canonical_of_fst (waiterMet_canonical h) e
    refine wakeWaiter_canonical (freeRecord_canonical ?_)
    exact ht.same rfl rfl
  · next e => exact canonical_of_fst (waiterMet_canonical h) e

theorem signalEvent_canonical {i add : Nat} : (signalEvent s i add).canonical := by
  unfold signalEvent
  refine wakeMet_canonical ?_
  exact h

theorem clearEvent_canonical {i : Nat} : (clearEvent s i).canonical := h

theorem stampEvent_canonical {c : Crew} {i : Nat} : (stampEvent s c i).canonical := h

/-! ### Barriers, buffers and timelines (R167 to R179) -/

omit h in
theorem fpxCheck_canonical {x : Exec} (hx : x.s.canonical) {t : State} {tr : TrapInfo} (e : fpxCheck x = some (t, tr)) : t.canonical := by
  unfold fpxCheck at e
  dsimp only at e
  split at e
  · cases e
  · cases e; exact hx

theorem setBarrier_canonical {crew i : Nat} {f : Barrier → Barrier} : (setBarrier s crew i f).canonical := h

theorem bumpArrivals_canonical {x : Exec} {b : Barrier} : (bumpArrivals x b s).canonical :=
  canonical_foldl _ (fun _ _ h => bumpEpoch_canonical h) _ s h

theorem execBararr_canonical {w : FWord} : Answers (execBararr w s) := by
  unfold execBararr
  refine runF_canonical h fun x hx => ?_
  split
  · next e => exact fpxCheck_canonical hx e
  · split
    · exact hx
    · split
      · exact hx
      · exact Eff.done_canonical (setBarrier_canonical (bumpArrivals_canonical hx))

theorem barWait_canonical {x : Exec} {i : Nat} {phase : W32} {b : Barrier} {sync : Bool} : (barWait x s i phase b sync).canonical :=
  Eff.canonical_ite (Eff.done_canonical (acquire_canonical h)) (Eff.canonical_ite h h)

theorem execBarwait_canonical {w : FWord} : Answers (execBarwait w s) := by
  unfold execBarwait
  refine runF_canonical h fun x hx => ?_
  split
  · next e => exact fpxCheck_canonical hx e
  · split
    · exact hx
    · exact barWait_canonical hx

theorem execBarsync_canonical {w : FWord} : Answers (execBarsync w s) := by
  unfold execBarsync
  refine runF_canonical h fun x hx => ?_
  split
  · next e => exact fpxCheck_canonical hx e
  · split
    · exact hx
    · dsimp only
      split
      · exact barWait_canonical hx
      · split
        · exact Eff.done_canonical (acquire_canonical hx)
        · split
          · exact hx
          · exact barWait_canonical (setBarrier_canonical (bumpArrivals_canonical hx))

theorem setBuffer_canonical {crew i : Nat} {f : CBuf → CBuf} : (setBuffer s crew i f).canonical := h

theorem execCbacq_canonical {w : FWord} : Answers (execCbacq w s) := by
  unfold execCbacq
  refine runF_canonical h fun x hx => ?_
  have hdone := fun (f : CBuf → CBuf) => setBuffer_canonical (crew := x.b.crew) (i := w.a.toNat) (f := f)
    (acquire_canonical (b := x.b) (scope := 0) hx)
  dsimp only
  split
  · exact hx
  · split
    · exact hx
    · split
      · exact hx
      · split
        · exact Eff.canonical_ite hx (hdone _)
        · split
          · split <;> exact hx
          · exact hdone _

theorem execTlwait_canonical {w : FWord} : Answers (execTlwait w s) := by
  unfold execTlwait
  refine runF_canonical h fun x hx => ?_
  dsimp only
  split
  · exact hx
  · split
    · exact hx
    · split
      · exact Eff.done_canonical (acquire_canonical hx)
      · split <;> exact hx

/-! ### Extended sets (R49, R50, R183) and accumulator counts (R184) -/

omit h in
theorem evictReg_canonical {x : Exec} {b : Batch} {r : Acc} {i : Nat} (hr : r.canonical) : (evictReg x b r i).canonical := by
  unfold evictReg
  split
  · next t locs =>
    dsimp only
    generalize hq : checkMem _ t .store 4 false _ _ = q
    have hplaces : q.canonical := hq ▸ checkMem_canonical hr
    split
    · exact hplaces
    · exact hplaces
    · exact canonical_foldl _ (fun _ _ h => by exact storeLoc_canonical _ _ _ _ _ h) _ _ hplaces
  · exact hr

omit h in
/-- A fold of checks that answer canonical states. -/
theorem Acc.canonical_foldl {α : Type} {f : Acc → α → Acc} (hf : ∀ r a, r.canonical → (f r a).canonical) (l : List α) :
    ∀ r : Acc, r.canonical → (l.foldl f r).canonical := by
  induction l with
  | nil => exact fun _ h => h
  | cons a l ih => exact fun r h => ih _ (hf r a h)

omit h in
theorem evict_canonical {x : Exec} (hx : x.s.canonical) {holder : Nat} : (evict x holder).canonical :=
  Acc.canonical_foldl (fun _ _ h => Acc.canonical_foldl (fun _ _ h => evictReg_canonical h) _ _ h) _ (.ok x.s []) hx

theorem markEvicted_canonical {core slot : Nat} : (markEvicted s core slot).canonical := h

theorem grantSet_canonical {b : Batch} : (grantSet s b).canonical := by
  unfold grantSet; split <;> exact h

theorem queueSet_canonical {b : Batch} : (queueSet s b).canonical := h

theorem unqueueSet_canonical {b : Batch} : (unqueueSet s b).canonical := h

theorem execXacq_canonical {w : FWord} : Answers (execXacq w s) := by
  unfold execXacq
  refine runF_canonical h fun x hx => ?_
  have hq := queueSet_canonical (b := x.b) hx
  dsimp only
  split
  · exact hx
  · split
    · exact unqueueSet_canonical hx
    · split
      · exact Eff.canonical_ite (Eff.done_canonical (grantSet_canonical hq)) hq
      · split
        · split
          · exact Eff.wait_canonical (postUE_canonical hq)
          · generalize hr : evict _ _ = r
            have hev : r.canonical := hr ▸ evict_canonical (x := { x with s := queueSet x.s x.b }) hq
            split
            · next e => exact unqueueSet_canonical hev
            · next e => exact hev
            · next e => exact Eff.done_canonical (grantSet_canonical (markEvicted_canonical hev))
        · exact hq

theorem releaseSet_canonical {b : Batch} : (releaseSet s b).canonical := canonical_ite h h

theorem execXrel_canonical {w : FWord} : Answers (execXrel w s) :=
  runF_canonical h fun _ hx => Eff.canonical_ite (Eff.done_canonical (releaseSet_canonical hx)) hx

theorem execAccfree_canonical {w : FWord} : Answers (execAccfree w s) :=
  runF_canonical h fun _ hx => Eff.canonical_ite hx (Eff.done_canonical (modCrew_canonical (clearUpsets_canonical hx)))

end

/-! Canonical memory through the matrix unit's words, loads and passes (R194 to R220), and the repair of columns (R479 to
R485). -/

section
variable {s : State} (h : s.canonical)
include h

/-! ### The rest of barriers and buffers -/

theorem execBarinit_canonical {w : FWord} : Answers (execBarinit w s) := by
  unfold execBarinit
  refine runF_canonical h fun x hx => ?_
  dsimp only
  split
  · exact hx
  · exact Eff.canonical_ite hx (Eff.done_canonical (setBarrier_canonical hx))

theorem execBarexp_canonical {w : FWord} : Answers (execBarexp w s) := by
  unfold execBarexp
  refine runF_canonical h fun x hx => ?_
  split
  · exact hx
  · exact Eff.canonical_ite hx (Eff.done_canonical (setBarrier_canonical hx))

theorem execCbinit_canonical {w : FWord} : Answers (execCbinit w s) := by
  unfold execCbinit
  refine runF_canonical h fun x hx => ?_
  dsimp only
  split
  · exact hx
  · exact Eff.canonical_ite hx (Eff.done_canonical (setBuffer_canonical hx))

omit h in
theorem cbMove_canonical {x : Exec} (hx : x.s.canonical) {w : FWord} {bad : Bool} {held : CBuf → Nat} {move : Nat → CBuf → CBuf} :
    (cbMove x w bad held move).canonical := by
  unfold cbMove
  dsimp only
  split
  · exact hx
  · exact Eff.canonical_ite hx (Eff.canonical_ite hx (Eff.done_canonical (setBuffer_canonical (bumpEpoch_canonical hx))))

theorem execCbrel_canonical {w : FWord} : Answers (execCbrel w s) := runF_canonical h fun _ hx => cbMove_canonical hx

theorem execCbput_canonical {w : FWord} : Answers (execCbput w s) := runF_canonical h fun _ hx => cbMove_canonical hx

theorem execAccgrow_canonical {w : FWord} : Answers (execAccgrow w s) := by
  unfold execAccgrow
  refine runF_canonical h fun x hx => ?_
  exact Eff.canonical_ite hx (Eff.canonical_ite (Eff.done_canonical (modCore_canonical (modCrew_canonical hx))) trivial)

/-! ### What a word of the matrix unit waits for -/

omit h in
theorem matGate_canonical {x : Exec} (hx : x.s.canonical) {planes : Bool} {e : Eff} (he : matGate x planes = some e) : e.canonical := by
  unfold matGate at he
  dsimp only at he
  split at he
  · cases he; exact hx
  · split at he
    · split at he <;> cases he
      exact hx
    · split at he <;> cases he
      exact hx

omit h in
theorem swapGate_canonical {x : Exec} (hx : x.s.canonical) {e : Eff} (he : swapGate x = some e) : e.canonical := by
  unfold swapGate at he
  obtain hm | ⟨-, hs⟩ := Option.or_eq_some_iff.mp he
  · exact matGate_canonical hx hm
  · split at hs <;> cases hs
    exact hx

omit h in
theorem planeWait_canonical {x : Exec} (hx : x.s.canonical) {p : Nat} {w : Bool} {e : Eff} (he : planeWait x p w = some e) :
    e.canonical := by
  unfold planeWait at he
  dsimp only at he
  split at he
  · cases he; exact hx
  · split at he
    · split at he <;> cases he <;> exact hx
    · cases he; exact hx
  · obtain ⟨-, he⟩ := Option.ite_none_right_eq_some.mp he
    cases he
    exact Eff.trap_canonical (countUE_canonical (modCore_canonical hx))
  · cases he; exact hx

omit h in
theorem wIssue_canonical {x : Exec} (hx : x.s.canonical) {load : Bool} {va align first : Nat} {t : State}
    (he : wIssue x load va align first = .ok t) : t.canonical := by
  unfold wIssue at he
  split at he
  · cases he
  · split at he
    · cases he
    · split at he
      · split at he <;> cases he
        exact hx
      · have ht := translate_canonical (core := x.b.core) (ctx := x.b.ctx) (va := first) hx
        dsimp only at he
        split at he
        · cases he
        · split at he
          · split at he <;> cases he
            exact ht
          · split at he <;> cases he
            exact ht

theorem freshPlane_canonical {core p : Nat} : (freshPlane s core p).canonical := clearUpsets_canonical h

theorem orderLoader_canonical {b : Batch} : (orderLoader s b).canonical :=
  canonical_foldl _ (fun s c h => modBatch_canonical (drainStores_canonical s c.id h)) _ s h

theorem execWload_canonical {w : FWord} : Answers (execWload w s) := by
  unfold execWload
  refine runF_canonical h fun x hx => ?_
  dsimp only
  split
  · next e => exact swapGate_canonical hx e
  · split
    · exact hx
    · next t e =>
      have ht := wIssue_canonical hx e
      split
      · exact ht
      · split
        · exact ht
        · exact Eff.done_canonical (modCore_canonical (freshPlane_canonical (orderLoader_canonical ht)))

theorem execWtab_canonical {w : FWord} : Answers (execWtab w s) := by
  unfold execWtab
  refine runF_canonical h fun x hx => ?_
  dsimp only
  split
  · next e => exact matGate_canonical hx e
  · split
    · exact hx
    · next t e =>
      have ht := wIssue_canonical hx e
      split
      · exact ht
      · next l _ =>
        split
        · exact ht
        · have hread := engineRead_canonical (a := loadAgent t x.b.core l) (va := (uni64 x .a).toNat / 32 * 32) (n := 32) ht
          refine Eff.done_canonical (modCore_canonical ?_)
          split
          · next e => rw [e] at hread; exact hread
          · next e => rw [e] at hread; exact hread
          · next e => rw [e] at hread; exact hread

theorem execWwait_canonical {w : FWord} : Answers (execWwait w s) := by
  unfold execWwait
  refine runF_canonical h fun x hx => ?_
  split
  · next e =>
    obtain hm | ⟨-, hp⟩ := Option.or_eq_some_iff.mp e
    · exact matGate_canonical hx hm
    · exact planeWait_canonical hx hp
  · trivial

theorem execWswap_canonical {w : FWord} : Answers (execWswap w s) := by
  unfold execWswap
  refine runF_canonical h fun x hx => ?_
  split
  · next e =>
    obtain hm | ⟨-, hp⟩ := Option.or_eq_some_iff.mp e
    · exact swapGate_canonical hx hm
    · exact planeWait_canonical hx hp
  · exact Eff.done_canonical (modCore_canonical hx)

/-! ### Tiles -/

theorem modTile_canonical {crew t : Nat} {f : Tile → Tile} : (modTile s crew t f).canonical := modCrew_canonical h

theorem spreadErrors_canonical {crew t : Nat} : (spreadErrors s crew t).canonical := canonical_ite h h

theorem startPending_canonical {b : Batch} {t : Nat} : (startPending s b t).canonical :=
  modTile_canonical (canonical_ite (spreadErrors_canonical h) h)

theorem clearAcc_canonical {crew t : Nat} {pair : Nat → Bool} : (clearAcc s crew t pair).canonical := clearUpsets_canonical h

theorem beginWrite_canonical {b : Batch} {t : Nat} {whole : Nat → Bool} : (beginWrite s b t whole).canonical :=
  clearAcc_canonical (startPending_canonical h)

theorem fresh_canonical : (fresh s).2.canonical := h

omit h in
theorem orderReads_canonical {x : Exec} (hx : x.s.canonical) : (orderReads x).1.canonical := by
  unfold orderReads
  split
  · exact modBatch_canonical (fresh_canonical hx)
  · exact settleScratch_canonical hx

theorem execMmq_canonical {w : FWord} : Answers (execMmq w s) := by
  unfold execMmq
  refine runF_canonical h fun x hx => ?_
  dsimp only
  split
  · next e => exact swapGate_canonical hx e
  · split
    · exact hx
    · split
      · exact hx
      · split
        · exact hx
        · split
          · next e => exact planeWait_canonical hx e
          · split
            · exact hx
            · split
              · exact hx
              · exact Eff.done_canonical (canonical_foldl _
                  (fun _ _ h => by exact modCore_canonical (beginWrite_canonical h)) _ _ (orderReads_canonical hx))

theorem execAccz_canonical {w : FWord} : Answers (execAccz w s) := by
  unfold execAccz
  refine runF_canonical h fun x hx => ?_
  dsimp only
  split
  · next e => exact matGate_canonical hx e
  · exact Eff.canonical_ite hx (Eff.canonical_ite hx (Eff.done_canonical (modTile_canonical (beginWrite_canonical hx))))

theorem execAccrd_canonical {w : FWord} : Answers (execAccrd w s) := by
  unfold execAccrd
  refine runF_canonical h fun x hx => ?_
  dsimp only
  split
  · next e => exact matGate_canonical hx e
  · split
    · exact hx
    · exact Eff.canonical_ite hx (Eff.canonical_ite hx (Eff.canonical_ite hx trivial))

theorem execAccwr_canonical {w : FWord} : Answers (execAccwr w s) := by
  unfold execAccwr
  refine runF_canonical h fun x hx => ?_
  dsimp only
  split
  · next e => exact matGate_canonical hx e
  · exact Eff.canonical_ite hx (Eff.canonical_ite hx (Eff.done_canonical (modTile_canonical (beginWrite_canonical hx))))

theorem countDrain_canonical {crew n : Nat} {miss : Bool} : (countDrain s crew n miss).canonical := modCrew_canonical h

theorem drainEnd_canonical {x : Exec} {w : FWord} {n : Nat} {miss : Bool} : (drainEnd x w s n miss).canonical :=
  Eff.done_canonical (countDrain_canonical (canonical_ite (modTile_canonical (beginWrite_canonical h)) h))

omit h in
theorem drainCheck_canonical {x : Exec} (hx : x.s.canonical) {ps : List (Nat × Nat × Nat)} : (drainCheck x ps).canonical := by
  unfold drainCheck
  dsimp only
  generalize hr : checkAddrs _ _ _ _ _ = r
  have hc : r.canonical := hr ▸ checkAddrs_canonical (x := { x with act := List.range ps.length }) hx
  split
  · next t locs =>
    generalize hq : checkRaces _ _ _ _ _ _ _ = q
    have hcr : q.canonical := hq ▸ checkRaces_canonical hc
    split
    · exact hcr
    · exact hcr
  · exact hc
  · exact hc

theorem execDrain_canonical {w : FWord} : Answers (execDrain w s) := by
  unfold execDrain
  refine runF_canonical h fun x hx => ?_
  dsimp only
  split
  · next e => exact matGate_canonical hx e
  · split
    · exact hx
    · split
      · exact hx
      · split
        · split
          · exact hx
          · generalize hr : drainCheck _ _ = r
            have hc : r.canonical := hr ▸ drainCheck_canonical hx
            split
            · exact hc
            · exact hc
            · split
              · exact hc
              · split
                · exact hc
                · split
                  · exact hc
                  · exact drainEnd_canonical (placeStores_canonical hc)
        · split
          · exact hx
          · split
            · exact hx
            · split
              · exact hx
              · split
                · exact hx
                · split
                  · exact hx
                  · split
                    · exact hx
                    · exact drainEnd_canonical (placeStores_canonical (coverScratch_canonical hx))

theorem execDrainst_canonical {w : FWord} : Answers (execDrainst w s) :=
  runF_canonical h fun _ hx => Eff.done_canonical (modCrew_canonical hx)

theorem execWstat_canonical {w : FWord} : Answers (execWstat w s) := by
  unfold execWstat
  refine runF_canonical h fun x hx => ?_
  split
  · next e => exact matGate_canonical hx e
  · trivial

/-! ### Loads of planes and passes -/

theorem modLoad_canonical {core : Nat} {f : WLoad → WLoad} : (modLoad s core f).canonical := modCore_canonical h

theorem postWalk_canonical {core va : Nat} {l : WLoad} : (postWalk s core l va).canonical := canonical_ite h h

theorem readDone_canonical {core va : Nat} {i : Option Nat} : (readDone s core va i).canonical := canonical_ite h (modParks_canonical h)

theorem leaveReaders_canonical {core : Nat} : (leaveReaders s core).canonical := canonical_ite (endReads_canonical h) h

theorem execRecordLineArrival_canonical {core : Nat} : Answers (execRecordLineArrival core s) := by
  unfold execRecordLineArrival
  split
  · exact .next h
  · next l _ =>
    split
    · exact .next h
    · dsimp only
      generalize hr : engineRead _ _ _ _ = r
      have hread : r.canonical := hr ▸ engineRead_canonical h
      split
      · exact .next hread
      · exact .next (leaveReaders_canonical (modLoad_canonical (postWalk_canonical (readDone_canonical hread))))
      · exact .next (leaveReaders_canonical (modLoad_canonical (readDone_canonical hread)))

theorem execWtabTableArrival_canonical {core i : Nat} : Answers (execWtabTableArrival core i s) := by
  unfold execWtabTableArrival
  split
  · exact .next h
  · split
    · exact .next h
    · split
      · exact .next h
      · dsimp only
        split
        · exact .next (modLoad_canonical h)
        · generalize hr : engineRead _ _ _ _ = r
          have hread : r.canonical := hr ▸ engineRead_canonical h
          split
          · exact .next hread
          · exact .next (leaveReaders_canonical (modLoad_canonical (postWalk_canonical (readDone_canonical hread))))
          · exact .next (modLoad_canonical (readDone_canonical hread))

theorem countHeld_canonical {core : Nat} {q : Plane} : (countHeld s core q).canonical := by
  unfold countHeld
  split
  · exact countUE_canonical h
  · exact h

theorem execWloadComplete_canonical {core : Nat} : Answers (execWloadComplete core s) := by
  unfold execWloadComplete
  split
  · exact .next h
  · split
    · exact .next h
    · exact .next (modCore_canonical (endReads_canonical (freshPlane_canonical (countHeld_canonical h))))

theorem execPlaneExchange_canonical {core : Nat} : Answers (execPlaneExchange core s) := by
  unfold execPlaneExchange
  dsimp only
  split
  · exact .next (canonical_of_eq rfl rfl h)
  · exact .next h

theorem execPassClose_canonical {core : Nat} : Answers (execPassClose core s) := .next (modCore_canonical h)

theorem settlePass_canonical {core : Nat} : (settlePass s core).canonical := by
  unfold settlePass
  split
  · refine canonical_foldl _ (fun s q h => ?_) _ s h
    split
    · exact settleReads_canonical h
    · exact h
  · exact h

theorem quarterDone_canonical {q : Quarter} : (quarterDone s q).canonical := perfAdd_canonical (modTile_canonical h)

theorem execPassComplete_canonical {core : Nat} : Answers (execPassComplete core s) := by
  unfold execPassComplete
  dsimp only
  split
  · split
    · exact .next (modCore_canonical (canonical_foldl quarterDone (fun _ _ h => quarterDone_canonical h) _ _ (settlePass_canonical h)))
    · exact .next h
  · exact .next h

theorem useEngines_canonical {es : List Engine} : (useEngines s es).canonical := h

theorem execFillArrayBorrow_canonical {b : Nat} : Answers (execFillArrayBorrow b s) := by
  unfold execFillArrayBorrow
  split
  · exact .next h
  · dsimp only
    split
    · exact .next (modCore_canonical (useEngines_canonical (endReads_canonical h)))
    · exact .next h

/-! ### Repair of columns -/

theorem startRemap_canonical {c b : Nat} : (startRemap s c b).canonical := h

theorem leaveRemaps_canonical {id : Nat} : (leaveRemaps s id).canonical := h

theorem queueRemap_canonical {c bank : Nat} {b : Batch} : (queueRemap s c bank b).canonical := canonical_ite h h

omit h in
theorem nextRemap_canonical {c : Nat} (rs : List Remap) : ∀ {s : State}, s.canonical → (nextRemap c s rs).canonical := by
  induction rs with
  | nil => exact fun h => h
  | cons r rs ih =>
    intro s h
    unfold nextRemap
    refine canonical_ite h ?_
    split
    · refine canonical_ite h ?_
      exact canonical_ite (ih (h.same rfl rfl)) (canonical_of_eq (s := s) rfl rfl h)
    · exact ih h

/-- Canonical memory stays so where whole addresses are left out of it. -/
theorem State.canonical.filter_mem (p : Nat × Byte → Bool) : ({ s with mem := s.mem.filter p } : State).canonical := by
  obtain ⟨hm, hz⟩ := h
  exact ⟨kvWf_filter 0 _ p hm, hz⟩

theorem execRemapStepEnd_canonical {col : Nat} : Answers (execRemapStepEnd col s) := by
  unfold execRemapStepEnd
  dsimp only
  split
  · exact .next (nextRemap_canonical _ h)
  · split
    · exact .next h
    · refine .next (nextRemap_canonical _ ?_)
      refine canonical_foldl _ (fun s p h => ?_) _ _ ?_
      · exact canonical_ite (flushLine_canonical _ _ _ _ h) h
      · exact (noteBanks_canonical h).filter_mem _

theorem execBankRetire_canonical {col bank : Nat} : Answers (execBankRetire col bank s) := by
  unfold execBankRetire
  dsimp only
  split
  · exact .next h
  · split
    · exact .next h
    · exact .next (nextRemap_canonical _ (h.same rfl rfl))

theorem execPadFail_canonical {col pad : Nat} : Answers (execPadFail col pad s) := by
  unfold execPadFail; split <;> exact .next h

end

/-! Canonical memory through the launch of crews (R118 to R130), QUIT, FORK and FREEZE (R185 to R193), and the system
words (R226 to R245). -/

section
variable {s : State} (h : s.canonical)
include h

/-! ### Launch -/

theorem mendRow_canonical {core slot n : Nat} {ls : List Nat} : (mendRow s core slot n ls).canonical := clearUpsets_canonical h

theorem newBatch_canonical {c : Crew} {row wb : Nat} {fibres : List (Nat × Fibre)} {regs : List RegVal} {pc : VA} :
    (newBatch s c row fibres regs pc wb).canonical := (mendRow_canonical (fresh_canonical h)).same

theorem newRows_canonical {uid wb : Nat} {fs : List (Nat × Fibre)} {regs : Nat → List RegVal} {pc : VA} :
    (newRows s uid fs regs pc wb).canonical := by
  unfold newRows
  refine canonical_foldl _ (fun s r h => ?_) _ s h
  exact canonical_ite h (newBatch_canonical h)

theorem stampFibres_canonical {uid img : Nat} {fs : List (Nat × W64)} : (stampFibres s uid img fs).canonical := by
  unfold stampFibres
  split
  · exact h
  · exact newRows_canonical h

theorem launchFibres_canonical {uid : Nat} {fs : List (Nat × Fibre)} : (launchFibres s uid fs).canonical := newRows_canonical h

theorem pickFl_canonical {ctx i : Nat} {t : State} (e : pickFl s ctx = some (i, t)) : t.canonical := by
  unfold pickFl at e
  dsimp only at e
  generalize List.filter _ (List.range _) = cand at e
  obtain ⟨-, e⟩ := Option.ite_none_left_eq_some.mp e
  cases e
  exact freePick_canonical h

theorem placeCrew_canonical {core : Nat} {sl : List Nat} {c : Crew} : (placeCrew s core sl c).canonical := by
  unfold placeCrew
  dsimp only
  split
  · refine modCore_canonical ?_
    exact h
  · exact h

theorem takeId_canonical {ctx : Nat} : (takeId s ctx).2.canonical := modCtx_canonical h

theorem admitCrew_canonical {core : Nat} {sl : List Nat} {a : Admit} {wid0 : W64} : (admitCrew s core sl a wid0).1.canonical := by
  unfold admitCrew
  split
  · exact h
  · next e => exact placeCrew_canonical (modCtx_canonical (takeId_canonical (fresh_canonical (pickFl_canonical h e))))

/-! ### QUIT and FORK -/

theorem endLanes_canonical {bid : Nat} {ls : List Nat} : (endLanes s bid ls).canonical := by
  unfold endLanes
  split
  · exact h
  · split
    · exact delBatch_canonical (canonical_ite (releaseSet_canonical (commitTiles_canonical h)) (commitTiles_canonical h))
    · exact modBatch_canonical (spreadScalars_canonical h)

theorem groupFrozen_canonical {k : Cluster} {g : Nat} {img : Option Nat} : (groupFrozen s k g img).canonical := modNode_canonical h

theorem kindlingQuit_canonical {c : Crew} {f : Fibre} : (kindlingQuit s c f).canonical := by
  unfold kindlingQuit
  split
  · split
    · exact groupFrozen_canonical h
    · exact h
  · exact h

theorem dropMembers_canonical {hdr : List W64} {old keep : Nat} {wid : W64} : (dropMembers s hdr old wid keep).canonical := by
  unfold dropMembers
  exact canonical_foldl exitIfEmpty (fun _ _ h => exitIfEmpty_canonical h) _ _ (canonical_of_eq (s := s) rfl rfl h)

theorem fibreQuit_canonical {c : Crew} {f : Fibre} : (fibreQuit s c f).canonical := by
  unfold fibreQuit
  dsimp only
  split
  · exact canonical_ite (kindlingQuit_canonical h) (dropMembers_canonical (kindlingQuit_canonical h))
  · exact kindlingQuit_canonical h

theorem execQuit_canonical {w : FWord} : Answers (execQuit w s) := by
  unfold execQuit
  refine runF_canonical h fun x hx => ?_
  dsimp only
  split
  · exact hx
  · refine Eff.jump_canonical (reapImages_canonical (exitIfEmpty_canonical ?_))
    refine canonical_foldl _ (fun s l h => fibreQuit_canonical h) _ _ ?_
    exact endLanes_canonical (pushWindow_canonical (advance_canonical (perfAdd_canonical hx)))

theorem forkLane_canonical {x : Exec} {d pk l n : Nat} : (forkLane x d pk s l n).canonical := newRows_canonical h

theorem execFork_canonical {w : FWord} : Answers (execFork w s) := by
  unfold execFork
  refine runF_canonical h fun x hx => ?_
  dsimp only
  split
  · exact hx
  · refine Eff.done_canonical (canonical_foldl_fst (fun p l hp => ?_) _ (x.s, []) hx)
    split
    · exact hp
    · split
      · exact hp
      · exact forkLane_canonical hp

/-! ### Images and FREEZE -/

theorem pickImage_canonical {i : Nat} {t : State} (e : pickImage s = some (i, t)) : t.canonical := by
  unfold pickImage at e
  dsimp only at e
  generalize List.filter _ (List.range _) = cand at e
  obtain ⟨-, e⟩ := Option.ite_none_left_eq_some.mp e
  cases e
  exact freePick_canonical h

theorem makeImages_canonical {ims : List (Nat × Image)} {ids : List (Nat × Nat)} {t : State} (e : makeImages s ims = some (t, ids)) :
    t.canonical := by
  unfold makeImages at e
  split at e
  · cases e
  · refine List.foldlRecOn ims _ (motive := fun o => ∀ r : State × List (Nat × Nat), o = some r → r.1.canonical) (fun r hr => ?_)
      (fun o ho p _ r hr => ?_) _ e
    · cases hr; exact h
    · obtain ⟨q, hq, hr⟩ := Option.bind_eq_some_iff.mp hr
      obtain ⟨i, hi, rfl⟩ := Option.map_eq_some_iff.mp hr
      exact canonical_of_eq (s := i.2) rfl rfl (pickImage_canonical (ho q hq) hi)

theorem stampGroup_canonical {c : Crew} {wid : W64} {img : Nat} : (stampGroup s c wid img).canonical := by
  unfold stampGroup
  dsimp only
  split
  · exact stampFibres_canonical h
  · split
    · exact groupFrozen_canonical h
    · exact h

theorem freezeEnds_canonical {x : Exec} : (freezeEnds x s).canonical :=
  endLanes_canonical (pushWindow_canonical (advance_canonical (perfAdd_canonical h)))

theorem execFreeze_canonical {w : FWord} : Answers (execFreeze w s) := by
  unfold execFreeze
  refine runF_canonical h fun x hx => ?_
  refine Eff.canonical_ite hx (Eff.canonical_ite hx (Eff.canonical_ite hx (Eff.canonical_ite hx ?_)))
  dsimp only
  generalize hr : makeImages _ _ = r
  cases r with
  | none => exact hx
  | some r =>
    refine Eff.jump_canonical (reapImages_canonical (exitIfEmpty_canonical ?_))
    exact canonical_foldl _ (fun _ _ h => by exact stampGroup_canonical h) _ _ (freezeEnds_canonical (makeImages_canonical hx hr))

theorem stampWaiting_canonical {hdr : List W64} {old lvl img : Nat} {wid : W64} : (stampWaiting s hdr old lvl wid img).canonical := by
  unfold stampWaiting
  refine canonical_foldl _ (fun s c h => ?_) _ s h
  exact canonical_ite h (stampFibres_canonical (modCrew_canonical h))

theorem waitMember_canonical {x : Exec} {lvl l : Nat} : (waitMember x lvl s l).canonical := modCrew_canonical h

theorem dropOverdue_canonical {c : Crew} : (dropOverdue s c).canonical :=
  canonical_ite h (reapImages_canonical (exitIfEmpty_canonical (modCrew_canonical h)))

theorem dropLeaderless_canonical {hdr : List W64} {uid : Nat} : (dropLeaderless s hdr uid).canonical := modCrew_canonical h

theorem execFreezeL_canonical {w : FWord} : Answers (execFreezeL w s) := by
  unfold execFreezeL
  refine runF_canonical h fun x hx => ?_
  dsimp only
  split
  · exact hx
  · split
    · exact hx
    · split
      · exact hx
      · next e =>
        refine Eff.jump_canonical (reapImages_canonical (exitIfEmpty_canonical (dropLeaderless_canonical ?_)))
        refine canonical_foldl _ (fun _ _ h => by exact dropMembers_canonical h) _ _ ?_
        refine canonical_foldl _ (fun s l h => ?_) _ _ ?_
        · split
          · exact stampWaiting_canonical h
          · exact h
        · refine canonical_foldl _ (fun _ _ h => by exact stampWaiting_canonical h) _ _ ?_
          exact canonical_foldl _ (fun _ _ h => by exact waitMember_canonical h) _ _
            (freezeEnds_canonical (makeImages_canonical hx e))

/-! ### Events, spawns and timelines -/

theorem releaseAll_canonical {b : Batch} {scope : Nat} : (releaseAll s b scope).canonical := drainCore_canonical _ _ _ _ (bumpEpoch_canonical h)

omit h in
theorem evsigEff_canonical {x : Exec} (hx : x.s.canonical) {n add : Nat} {clr : Bool} : (evsigEff x n add clr).canonical := by
  unfold evsigEff
  split
  · exact hx
  · have hr := releaseAll_canonical (b := x.b) (scope := 2) hx
    exact Eff.canonical_ite (Eff.done_canonical (clearEvent_canonical hr))
      (Eff.done_canonical (signalEvent_canonical (stampEvent_canonical hr)))

theorem execEvsig_canonical {w : FWord} : Answers (execEvsig w s) := runF_canonical h fun _ hx => evsigEff_canonical hx

theorem execEvsigI_canonical {w : IWord} : Answers (execEvsigI w s) := runI_canonical h fun _ hx => evsigEff_canonical hx

theorem execEvsigClr_canonical {w : FWord} : Answers (execEvsigClr w s) := runF_canonical h fun _ hx => evsigEff_canonical hx

omit h in
theorem evwaitEff_canonical {x : Exec} (hx : x.s.canonical) {n thr : Nat} : (evwaitEff x n thr).canonical := by
  unfold evwaitEff
  split
  · exact hx
  · split
    · exact hx
    · split
      · exact Eff.done_canonical (acquire_canonical hx)
      · exact hx
      · split
        · exact Eff.done_canonical (acquire_canonical (acquireStamp_canonical hx))
        · generalize hr : addWaiter _ _ = r
          have hadd : r.canonical := hr ▸ addWaiter_canonical hx
          split <;> exact hadd

theorem execEvwait_canonical {w : FWord} : Answers (execEvwait w s) := runF_canonical h fun _ hx => evwaitEff_canonical hx

theorem execEvwaitI_canonical {w : IWord} : Answers (execEvwaitI w s) := runI_canonical h fun _ hx => evwaitEff_canonical hx

theorem pushTrigger_canonical {v wid : W64} {level : Nat} : AllCanonical (pushTrigger s v level wid) := by
  unfold pushTrigger
  dsimp only
  split
  · exact .none
  · exact .some (modCtx_canonical h)

theorem execSpawn_canonical {w : FWord} : Answers (execSpawn w s) := by
  unfold execSpawn
  refine runF_canonical h fun x hx => ?_
  have hr := releaseAll_canonical (b := x.b) (scope := 2) hx
  dsimp only
  split
  · exact hx
  · split
    · exact hx
    · split
      · next e => exact Eff.done_canonical (pushTrigger_canonical hr _ e)
      · exact Eff.done_canonical hr

theorem addTimeline_canonical {ctx id n : Nat} : (addTimeline s ctx id n).canonical := modCtx_canonical h

theorem execTladv_canonical {w : FWord} : Answers (execTladv w s) := by
  unfold execTladv
  refine runF_canonical h fun x hx => ?_
  dsimp only
  split
  · exact hx
  · exact Eff.canonical_ite hx (Eff.done_canonical (addTimeline_canonical (releaseAll_canonical hx)))

/-! ### Control registers and traps -/

theorem csrSet_canonical {b : Batch} {n : Nat} {v : W64} : (csrSet s b n v).canonical := by
  unfold csrSet
  dsimp only
  split <;> exact h

theorem execCsrwr_canonical {w : FWord} : Answers (execCsrwr w s) := by
  unfold execCsrwr
  refine runF_canonical h fun x hx => ?_
  exact Eff.done_canonical (csrSet_canonical hx)

theorem execCsrswp_canonical {w : FWord} : Answers (execCsrswp w s) := by
  unfold execCsrswp
  refine runF_canonical h fun x hx => ?_
  exact Eff.done_canonical (csrSet_canonical hx)

theorem execTrap_canonical {w : FWord} : Answers (execTrap w s) :=
  runF_canonical h fun _ hx => Eff.trap_canonical (perfAdd_canonical hx)

theorem execBkpt_canonical {w : FWord} : Answers (execBkpt w s) :=
  runF_canonical h fun _ hx => Eff.canonical_ite (Eff.trap_canonical (perfAdd_canonical hx)) hx

theorem trapReturn_canonical {bid wb : Nat} {pc : VA} {prv : Bool} : (trapReturn s bid pc wb prv).canonical := modBatch_canonical h

theorem execTret_canonical {w : FWord} : Answers (execTret w s) := by
  unfold execTret
  refine runF_canonical h fun x hx => ?_
  dsimp only
  split
  · exact hx
  · split
    · exact hx
    · exact Eff.canonical_ite hx (Eff.canonical_ite hx (Eff.canonical_ite hx (Eff.canonical_ite hx
        (Eff.jump_canonical (trapReturn_canonical hx)))))

/-! ### Pages (R238, R239) -/

theorem nextEpoch_canonical {ctx : Nat} : (nextEpoch s ctx).canonical := h

theorem storesOut_canonical {lo hi : Nat} : (storesOut s lo hi).canonical := by
  unfold storesOut
  exact canonical_foldl _ (fun s b h => performThose_canonical s b _ h) _ s h

theorem bumpUpsets_canonical {lo hi : Nat} {new : Bool} : (bumpUpsets s lo hi new).canonical := canonical_ite h h

omit h in
/-- New frames are marked as zero, with a mask that is not the default. -/
theorem kvWf_setAll (fs : List Nat) (t : List (Nat × Nat)) (ht : kvWf 0 t = true) :
    kvWf 0 (fs.foldl (fun t f => kvSet t f (2 ^ 32 - 1)) t) = true := by
  refine List.foldlRecOn fs _ (motive := fun t => kvWf 0 t = true) ht fun t ht f _ => ?_
  have hput := kvPut_wf 0 t f (2 ^ 32 - 1) ht
  rwa [kvPut, if_neg (by decide)] at hput

theorem writeBackAll_canonical {mine : Nat → Bool} :
    ((List.range s.cores.length).foldl (fun s i => (((coreD s i).l1.filter fun p => mine p.1).map (·.1)).foldl
      (fun s k => writeBack s i k) s) s).canonical :=
  canonical_foldl _ (fun _ _ h => canonical_foldl _ (fun _ _ h => writeBack_canonical _ _ _ h) _ _ h) _ _ h

theorem bumpFrames_canonical {pa n : Nat} {new : Bool} : (bumpFrames s pa n new).canonical := by
  have hout := storesOut_canonical (lo := pa) (hi := pa + 4096 * n) h
  cases new with
  | true =>
    obtain ⟨hm, hz⟩ := bumpUpsets_canonical (lo := pa) (hi := pa + 4096 * n) (new := true) hout
    exact ⟨hm, kvWf_setAll _ _ hz⟩
  | false =>
    exact bumpUpsets_canonical (new := false) (writeBackAll_canonical
      (mine := fun k => decide (pa / 128 ≤ k) && decide (k < (pa + 4096 * n) / 128)) hout)

omit h in
theorem pageEff_canonical {x : Exec} (hx : x.s.canonical) {new : Bool} : (pageEff x new).canonical := by
  unfold pageEff
  dsimp only
  split
  · exact hx
  · split
    · exact hx
    · split
      · exact hx
      · exact Eff.done_canonical (nextEpoch_canonical (bumpFrames_canonical hx))

theorem execPgbump_canonical {w : FWord} : Answers (execPgbump w s) := runF_canonical h fun _ hx => pageEff_canonical hx

theorem execPgnew_canonical {w : FWord} : Answers (execPgnew w s) := runF_canonical h fun _ hx => pageEff_canonical hx

theorem execTlbepoch_canonical {w : FWord} : Answers (execTlbepoch w s) :=
  runF_canonical h fun _ hx => Eff.done_canonical (nextEpoch_canonical hx)

/-! ### The device through the system context -/

theorem haltContext_canonical {ctx : Nat} : (haltContext s ctx).canonical := modCtx_canonical h

theorem execHalt_canonical {w : FWord} : Answers (execHalt w s) :=
  runF_canonical h fun _ hx => Eff.done_canonical (haltContext_canonical (recField_canonical _ _ _ _ _ _ hx))

theorem execWsremap_canonical {w : FWord} : Answers (execWsremap w s) := by
  unfold execWsremap
  refine runF_canonical h fun x hx => ?_
  exact Eff.canonical_ite hx (Eff.canonical_ite hx (Eff.canonical_ite
    (Eff.done_canonical (nextRemap_canonical _ (leaveRemaps_canonical hx)))
    (Eff.canonical_ite (Eff.wait_canonical (queueRemap_canonical hx))
      (Eff.done_canonical (startRemap_canonical (leaveRemaps_canonical hx))))))

omit h in
theorem monEff_canonical {x : Exec} (hx : x.s.canonical) {f : Nat → Eff} (hf : ∀ m, (f m).canonical) : (monEff x f).canonical :=
  Eff.canonical_ite hx (Eff.canonical_ite hx (hf _))

theorem setMonitor_canonical {m : Nat} {v : Monitor} : (setMonitor s m v).canonical := h

theorem execMonctlCfg_canonical {w : FWord} : Answers (execMonctlCfg w s) :=
  runF_canonical h fun _ hx => monEff_canonical hx fun _ => Eff.canonical_ite hx (Eff.done_canonical (setMonitor_canonical hx))

theorem execMonctlClr_canonical {w : FWord} : Answers (execMonctlClr w s) :=
  runF_canonical h fun _ hx => monEff_canonical hx fun _ => Eff.done_canonical (setMonitor_canonical hx)

theorem execMonctlRd_canonical {w : FWord} : Answers (execMonctlRd w s) :=
  runF_canonical h fun _ hx => monEff_canonical hx fun _ => trivial

end

/-! Canonical memory through the turns of the Flue (R287 to R325) and the Splitter (R399 to R408). -/

/-- The state with which a turn ends is canonical. -/
def Turn.canonical {α : Type} : Turn α → Prop
  | .ok s _ => s.canonical
  | .stop s _ => s.canonical
  | .wait s => s.canonical
  | .susp => True

theorem Turn.canonical_ite {α : Type} {c : Prop} [Decidable c] {t u : Turn α} (ht : t.canonical) (hu : u.canonical) :
    (if c then t else u).canonical := by split <;> assumption

theorem Turn.andThen_canonical {α β : Type} {t : Turn α} {f : State → α → Turn β} (ht : t.canonical)
    (hf : ∀ s v, s.canonical → (f s v).canonical) : (t.andThen f).canonical := by
  cases t with
  | ok s v => exact hf s v ht
  | stop s h => exact ht
  | wait s => exact ht
  | susp => trivial

theorem turnAll_canonical {α β : Type} {f : State → α → Turn β} (hf : ∀ s a, s.canonical → (f s a).canonical) (l : List α) :
    ∀ {s : State}, s.canonical → (turnAll f s l).canonical := by
  induction l with
  | nil => exact fun h => h
  | cons a l ih => exact fun h => Turn.andThen_canonical (hf _ a h) fun _ _ h => Turn.andThen_canonical (ih h) fun _ _ h => h

theorem ofEng_canonical {α : Type} {e : Eng α} (h : e.canonical) : (ofEng e).canonical := by
  cases e <;> exact h

section
variable {s : State} (h : s.canonical)
include h

/-! ### Accesses of a command -/

theorem modAnyCrew_canonical {uid : Nat} {f : Crew → Crew} : (modAnyCrew s uid f).canonical := h

theorem mapCrews_canonical {f : Crew → Crew} : (mapCrews s f).canonical := h

theorem stopWith_canonical {α : Type} {c : Cause} : (stopWith s c : Turn α).canonical := h

theorem flueRead_canonical {f : FlueCtx} {l : FlueList} {va n : Nat} {inner : Bool} : (flueRead s f l va n inner).canonical := by
  unfold flueRead
  split
  · exact ofEng_canonical (engineRead_canonical h)
  · exact ofEng_canonical (engineRead_canonical h)
  · trivial
  · exact h

theorem flueWrite_canonical {f : FlueCtx} {l : FlueList} {va : Nat} {bs : List Byte} : (flueWrite s f l va bs).canonical := by
  unfold flueWrite
  split
  · exact ofEng_canonical (engineWrite_canonical h)
  · exact ofEng_canonical (engineWrite_canonical h)
  · trivial
  · exact h

theorem bankRead_canonical {uid off n mode : Nat} : (bankRead s uid off n mode).canonical := Turn.canonical_ite h h

theorem bankPut_canonical {uid off mode : Nat} {bs : List Byte} : (bankPut s uid off bs mode).canonical :=
  canonical_foldl _ (fun _ _ h => by exact scratchWrite_canonical _ _ _ _ h) _ _ h

theorem bankWrite_canonical {uid mode : Nat} {runs : List (Nat × List Byte)} : (bankWrite s uid runs mode).canonical := by
  unfold bankWrite
  dsimp only
  split
  · exact h
  · exact canonical_foldl _ (fun _ _ h => by exact bankPut_canonical h) _ _ (coverScratch_canonical h)

theorem windowLoc_canonical {l : FlueList} {va rel n : Nat} : (windowLoc s l va rel n).canonical := by
  unfold windowLoc
  refine Turn.canonical_ite h ?_
  split
  · exact h
  · trivial
  · exact h
  · split
    · exact h
    · exact Turn.canonical_ite h h

theorem tensorRead_canonical {f : FlueCtx} {l : FlueList} {t : Tmr} {va n : Nat} : (tensorRead s f l t va n).canonical :=
  Turn.canonical_ite (Turn.andThen_canonical (windowLoc_canonical h) fun _ _ h => bankRead_canonical h) (flueRead_canonical h)

theorem tensorWrite_canonical {f : FlueCtx} {l : FlueList} {t : Tmr} {va : Nat} {bs : List Byte} : (tensorWrite s f l t va bs).canonical :=
  Turn.canonical_ite h (Turn.canonical_ite
    (Turn.andThen_canonical (windowLoc_canonical h) fun _ _ h => bankWrite_canonical h) (flueWrite_canonical h))

theorem fillElem_canonical {f : FlueCtx} {l : FlueList} {t : Tmr} {i : List Nat} : (fillElem f l t s i).canonical := by
  unfold fillElem
  dsimp only
  split
  · exact h
  · exact h
  · exact tensorRead_canonical h
  · exact h

theorem windowRow_canonical {f : FlueCtx} {l : FlueList} {t : Tmr} {dfmt : Nat} {row : List (List Nat × List Nat × Bool)} :
    (windowRow f l t dfmt s row).canonical := by
  unfold windowRow
  refine Turn.andThen_canonical ?_ fun _ _ h => ?_
  · split
    · exact h
    · exact tensorRead_canonical h
  · exact Turn.andThen_canonical (turnAll_canonical (fun _ _ h => fillElem_canonical h) _ h) fun _ _ h => h

/-! ### Commands -/

theorem cmdDone_canonical {k : Nat} : (cmdDone s k).canonical := modFlue_canonical h

theorem detachAll_canonical {k : Nat} : (detachAll s k).canonical := mapCrews_canonical h

theorem wakeWaiters_canonical : (wakeWaiters s).canonical := h

theorem stopFlue_canonical {k : Nat} {c : Held} : (stopFlue s k c).canonical := by
  unfold stopFlue
  split
  · exact h
  · exact modFlue_canonical (wakeWaiters_canonical (mapCrews_canonical h))

theorem resetFlue_canonical {k : Nat} : (resetFlue s k).canonical := modFlue_canonical (mapCrews_canonical (detachAll_canonical h))

theorem queueList_canonical {k : Nat} {f : FlueCtx} {l : FlueList} : AllCanonical (queueList s k f l) := by
  unfold queueList
  split
  · exact .none
  · exact .some (modFlue_canonical h)

theorem execFluesub_canonical {w : FWord} : Answers (execFluesub w s) := by
  unfold execFluesub
  refine runF_canonical h fun x hx => ?_
  have hr := releaseAll_canonical (b := x.b) (scope := 2) hx
  split
  · exact hx
  · refine Eff.canonical_ite hx (Eff.canonical_ite hx (Eff.canonical_ite hx (Eff.canonical_ite hx ?_)))
    dsimp only
    split
    · next e => exact Eff.done_canonical (queueList_canonical hr _ e)
    · exact Eff.done_canonical hr

theorem execFluesubRst_canonical {w : FWord} : Answers (execFluesubRst w s) := by
  unfold execFluesubRst
  refine runF_canonical h fun x hx => ?_
  split
  · exact hx
  · exact Eff.canonical_ite hx (Eff.done_canonical (resetFlue_canonical hx))

theorem cmdWords_canonical {f : FlueCtx} {l : FlueList} : (cmdWords s f l).canonical := by
  unfold cmdWords
  split
  · exact h
  · exact Turn.canonical_ite h (Turn.andThen_canonical (flueRead_canonical h) fun _ _ h => h)

theorem loadTmr_canonical {f : FlueCtx} {l : FlueList} {va : Nat} : (loadTmr s f l va).canonical := by
  unfold loadTmr
  refine Turn.canonical_ite h (Turn.andThen_canonical (flueRead_canonical h) fun _ _ h => ?_)
  dsimp only
  split
  · exact h
  · exact Turn.canonical_ite h h

theorem streamTurn_canonical {k : Nat} {f : FlueCtx} {l : FlueList} {c : List W64} : (streamTurn s k f l c).canonical := by
  unfold streamTurn
  dsimp only
  split
  · exact h
  · refine Turn.canonical_ite h (Turn.andThen_canonical (loadTmr_canonical h) fun _ _ h => ?_)
    refine Turn.canonical_ite h (Turn.canonical_ite h ?_)
    exact modFlue_canonical (canonical_foldl _ (fun _ _ h => by exact modAnyCrew_canonical h) _ _ h)

theorem deliverTo_canonical {t : Tmr} {e cb : Nat} {els : List (List Nat × List Byte)} {uid : Nat} :
    (deliverTo t e cb els s uid).canonical := by
  unfold deliverTo
  split
  · exact h
  · refine Turn.andThen_canonical (bankWrite_canonical h) fun _ _ h => ?_
    dsimp only
    split
    · exact setBuffer_canonical h
    · exact setBarrier_canonical (setBuffer_canonical h)

theorem allOrStop_canonical {α : Type} {t : Turn α} (ht : t.canonical) : (allOrStop s t).canonical := by
  cases t with
  | ok => exact ht
  | stop => exact h
  | wait => exact canonical_of_eq (s := s) rfl rfl h
  | susp => trivial

theorem windowTurn_canonical {k : Nat} {f : FlueCtx} {l : FlueList} {w : FlueWork} : (windowTurn s k f l w).canonical := by
  unfold windowTurn
  dsimp only
  split
  · exact h
  · refine Turn.canonical_ite h (Turn.canonical_ite trivial (Turn.canonical_ite h ?_))
    refine Turn.andThen_canonical (turnAll_canonical (fun _ _ h => windowRow_canonical h) _ h) fun s rows h => ?_
    refine Turn.andThen_canonical (allOrStop_canonical h (turnAll_canonical (fun _ _ h => deliverTo_canonical h) _ h)) fun s _ h => ?_
    refine Turn.canonical_ite ?_ ?_
    all_goals split
    · exact cmdDone_canonical (detachAll_canonical (canonical_ite (modAnyCrew_canonical h) h))
    · exact cmdDone_canonical (detachAll_canonical h)
    · exact modFlue_canonical (canonical_ite (modAnyCrew_canonical h) h)
    · exact modFlue_canonical h

theorem stepWork_canonical {k : Nat} {w : FlueWork} {n : Nat} : (stepWork s k w n).canonical :=
  canonical_ite (cmdDone_canonical h) (modFlue_canonical h)

theorem copyTurn_canonical {k : Nat} {f : FlueCtx} {l : FlueList} {c : List W64} : (copyTurn s k f l c).canonical := by
  unfold copyTurn
  refine Turn.canonical_ite h ?_
  split
  · exact h
  · exact Turn.andThen_canonical (flueRead_canonical h) fun _ _ h => Turn.andThen_canonical (flueWrite_canonical h) fun _ _ h =>
      stepWork_canonical h

theorem fillvTurn_canonical {k : Nat} {f : FlueCtx} {l : FlueList} {c : List W64} : (fillvTurn s k f l c).canonical := by
  unfold fillvTurn
  refine Turn.canonical_ite h (Turn.canonical_ite h ?_)
  split
  · exact h
  · exact Turn.andThen_canonical (flueWrite_canonical h) fun _ _ h => stepWork_canonical h

/-- The record of a command: the one that its work holds, or the one that is read. -/
theorem tmrTurn_canonical {f : FlueCtx} {l : FlueList} {va : Nat} : (match f.work with
    | some w => (match readTmr w.tmr with
      | .ok t => .ok s (w.tmr, t)
      | .error e => stopWith s e)
    | none => loadTmr s f l va : Turn (List W64 × Tmr)).canonical := by
  split
  · split <;> exact h
  · exact loadTmr_canonical h

theorem storeTurn_canonical {k : Nat} {f : FlueCtx} {l : FlueList} {c : List W64} : (storeTurn s k f l c).canonical := by
  unfold storeTurn
  refine Turn.andThen_canonical (tmrTurn_canonical h) fun s p h => ?_
  refine Turn.canonical_ite h (Turn.canonical_ite h ?_)
  refine Turn.andThen_canonical (allOrStop_canonical h (turnAll_canonical (fun s row h => ?_) _ h)) fun _ _ h => stepWork_canonical h
  split
  · exact h
  · refine Turn.andThen_canonical (turnAll_canonical (fun s q h => ?_) _ h) fun _ _ h => tensorWrite_canonical h
    exact Turn.andThen_canonical (windowLoc_canonical h) fun _ _ h => Turn.andThen_canonical (bankRead_canonical h) fun _ _ h => h

theorem gatherTurn_canonical {k : Nat} {f : FlueCtx} {l : FlueList} {c : List W64} : (gatherTurn s k f l c).canonical := by
  unfold gatherTurn
  refine Turn.andThen_canonical (tmrTurn_canonical h) fun s p h => ?_
  refine Turn.canonical_ite h (Turn.canonical_ite h ?_)
  refine Turn.andThen_canonical (flueRead_canonical h) fun s ib h => ?_
  refine Turn.canonical_ite (Turn.canonical_ite h (stepWork_canonical h)) ?_
  dsimp only
  split
  · exact h
  · exact Turn.andThen_canonical (windowLoc_canonical h) fun _ _ h => Turn.andThen_canonical (bankRead_canonical h) fun _ _ h =>
      Turn.andThen_canonical (tensorWrite_canonical h) fun _ _ h => stepWork_canonical h

theorem loopTurn_canonical {k : Nat} {f : FlueCtx} {c : List W64} : (loopTurn s k f c).canonical :=
  Turn.canonical_ite h (cmdDone_canonical (modFlue_canonical h))

theorem endloopTurn_canonical {k : Nat} {f : FlueCtx} : (endloopTurn s k f).canonical := by
  unfold endloopTurn
  split
  · exact h
  · exact Turn.canonical_ite (modFlue_canonical h) (cmdDone_canonical (modFlue_canonical h))

theorem tlwaitTurn_canonical {k : Nat} {f : FlueCtx} {c : List W64} : (tlwaitTurn s k f c).canonical := by
  unfold tlwaitTurn
  split
  · exact h
  · exact Turn.canonical_ite (cmdDone_canonical h) h

theorem tladvTurn_canonical {k : Nat} {f : FlueCtx} {c : List W64} : (tladvTurn s k f c).canonical :=
  Turn.canonical_ite h (cmdDone_canonical (addTimeline_canonical h))

theorem evsigTurn_canonical {k : Nat} {f : FlueCtx} {c : List W64} : (evsigTurn s k f c).canonical := by
  unfold evsigTurn
  split
  · exact h
  · exact cmdDone_canonical (canonical_ite (clearEvent_canonical h) (signalEvent_canonical h))

theorem bararrTurn_canonical {k : Nat} {l : FlueList} {c : List W64} : (bararrTurn s k l c).canonical := by
  unfold bararrTurn
  dsimp only
  split
  · exact h
  · refine Turn.canonical_ite h ?_
    split
    · exact h
    · split
      · exact cmdDone_canonical h
      · split
        · exact h
        · exact Turn.canonical_ite trivial (Turn.canonical_ite (modFlue_canonical h) (Turn.canonical_ite h
            (cmdDone_canonical (setBarrier_canonical h))))

theorem endTurn_canonical {k : Nat} {f : FlueCtx} {l : FlueList} : (endTurn s k f l).canonical := by
  unfold endTurn
  refine Turn.canonical_ite h ?_
  dsimp only
  split
  · exact modFlue_canonical (modNode_canonical h)
  · exact modFlue_canonical h

theorem flueTurn_canonical {k : Nat} {f : FlueCtx} {l : FlueList} : (flueTurn s k f l).canonical := by
  unfold flueTurn
  refine Turn.andThen_canonical (cmdWords_canonical h) fun s c h => ?_
  refine Turn.canonical_ite h (Turn.canonical_ite h ?_)
  split
  · split
    · exact windowTurn_canonical h
    · exact streamTurn_canonical h
  · exact copyTurn_canonical h
  · exact gatherTurn_canonical h
  · exact storeTurn_canonical h
  · exact fillvTurn_canonical h
  · exact loopTurn_canonical h
  · exact endloopTurn_canonical h
  · exact tlwaitTurn_canonical h
  · exact tladvTurn_canonical h
  · exact evsigTurn_canonical h
  · exact bararrTurn_canonical h
  · exact endTurn_canonical h

theorem tookTurn_canonical {e k : Nat} : (tookTurn s e k).canonical := h

theorem flueStep_canonical {k : Nat} {p : FlueCtx → Option Nat → Bool} : Answers (flueStep k s p) := by
  unfold flueStep
  split
  · exact .next h
  · split
    · exact .next h
    · split
      · exact .next h
      · dsimp only
        generalize hr : flueTurn _ _ _ _ = r
        have hturn : r.canonical := hr ▸ flueTurn_canonical (tookTurn_canonical h)
        split
        · exact .next (modFlue_canonical hturn)
        · exact .next (stopFlue_canonical hturn)
        · exact .next (modFlue_canonical hturn)
        · exact .next (modFlue_canonical (tookTurn_canonical h))

theorem execFlueContextResume_canonical {c : Nat} : Answers (execFlueContextResume c s) := by
  unfold execFlueContextResume
  split
  · exact .next h
  · split
    · exact .next (modFlue_canonical h)
    · exact .next h

/-! ### The Splitter -/

theorem queueJob_canonical {k : Nat} {j : SplitJob} : AllCanonical (queueJob s k j) := by
  unfold queueJob
  split
  · exact .none
  · split
    · exact .none
    · exact .some (modSplit_canonical h)

theorem resetSplit_canonical {k : Nat} : (resetSplit s k).canonical := modSplit_canonical h

theorem execCutsel_canonical {w : FWord} : Answers (execCutsel w s) := by
  unfold execCutsel
  refine runF_canonical h fun x hx => ?_
  have hr := releaseAll_canonical (b := x.b) (scope := 2) hx
  split
  · exact hx
  · refine Eff.canonical_ite hx (Eff.canonical_ite hx (Eff.canonical_ite hx ?_))
    dsimp only
    split
    · next e => exact Eff.done_canonical (queueJob_canonical hr _ e)
    · exact Eff.done_canonical hr

theorem execCutselRst_canonical {w : FWord} : Answers (execCutselRst w s) := by
  unfold execCutselRst
  refine runF_canonical h fun x hx => ?_
  split
  · exact hx
  · exact Eff.canonical_ite hx (Eff.done_canonical (resetSplit_canonical hx))

theorem cutFetch_canonical {k : Nat} {f : SplitCtx} {rs : List (Nat × Nat)} : (cutFetch s k f rs).canonical :=
  Turn.andThen_canonical (ofEng_canonical (engineRead_canonical (freePick_canonical h))) fun _ _ h => modSplit_canonical h

theorem cutDone_canonical {k : Nat} {f : SplitCtx} {j : SplitJob} : (cutDone s k f j).canonical := by
  unfold cutDone
  dsimp only
  split
  · exact modSplit_canonical (addTimeline_canonical (modNode_canonical h))
  · exact modSplit_canonical (addTimeline_canonical h)

theorem cutTurn_canonical {k : Nat} {f : SplitCtx} {j : SplitJob} : (cutTurn s k f j).canonical := by
  unfold cutTurn
  split
  · exact h
  · exact cutFetch_canonical h
  · split
    · exact cutDone_canonical h
    · exact Turn.andThen_canonical (ofEng_canonical (engineWrite_canonical h)) fun _ _ h => modSplit_canonical h

theorem execCutRun_canonical {c : Nat} : Answers (execCutRun c s) := by
  unfold execCutRun
  split
  · exact .next h
  · split
    · exact .next h
    · split
      · exact .next h
      · dsimp only
        generalize hr : cutTurn _ _ _ _ = r
        have hturn : r.canonical := by subst hr; refine cutTurn_canonical ?_; exact h
        split
        · exact .next (modSplit_canonical hturn)
        · exact .next (modSplit_canonical hturn)
        · exact .next (modSplit_canonical hturn)
        · exact .next h

end

/-! Canonical memory through the runs of graphs (R358 to R379) and the save and restore of clusters (R131 to R140). -/

section
variable {s : State} (h : s.canonical)
include h

/-! ### Triggers and runs -/

theorem writeTrigger_canonical {v : W64} : (writeTrigger s v).canonical := by
  unfold writeTrigger
  dsimp only
  split
  · exact h
  · cases hp : pushTrigger s v 0 0 with
    | none => exact recOr_canonical _ _ _ _ h
    | some t => exact pushTrigger_canonical h _ hp

theorem setGraphStatus_canonical {g st code node : Nat} : (setGraphStatus s g st code node).canonical := h

theorem registerWait_canonical {ctx run n i : Nat} {hdr : List W64} : (registerWait s ctx run n hdr i).canonical := by
  unfold registerWait
  refine canonical_ite h ?_
  dsimp only
  split
  · exact modNode_canonical h
  · generalize hr : addWaiter _ _ = r
    have hadd : r.canonical := hr ▸ addWaiter_canonical h
    split
    · exact modNode_canonical hadd
    · exact modNode_canonical hadd
    · exact recOr_canonical _ _ _ _ (modNode_canonical hadd)

theorem registerRun_canonical {run ctx first count : Nat} : (registerRun s run ctx first count).canonical := by
  unfold registerRun
  refine canonical_foldl _ (fun s n h => ?_) _ s h
  exact canonical_foldl _ (fun s i h => registerWait_canonical h) _ s h

omit h in
theorem applyPatches_canonical {first count : Nat} (es : List (Nat × W64)) : ∀ {s : State}, s.canonical →
    (applyPatches first count es s).1.canonical := by
  induction es with
  | nil => exact fun h => h
  | cons e es ih =>
    intro s h
    obtain ⟨e0, e1⟩ := e
    unfold applyPatches
    dsimp only
    split
    · exact h
    · exact ih (canonical_of_eq (s := s) rfl rfl h)

theorem schedDone_canonical {who : Nat} : (schedDone s who).canonical := modParks_canonical h

theorem readPatches_canonical {ctx va : Nat} : (readPatches s ctx va).canonical :=
  Turn.andThen_canonical (ofEng_canonical (engineRead_canonical h)) fun _ _ h =>
    Turn.andThen_canonical (ofEng_canonical (engineRead_canonical h)) fun _ _ h => h

theorem startRun_canonical {ctx : Nat} {t : Trigger} : (startRun s ctx t).canonical := by
  unfold startRun
  dsimp only
  generalize hb : (if t.begun = true then s else _) = u
  have hu : u.canonical := hb ▸ canonical_ite h (setGraphStatus_canonical h)
  generalize hr : (if 4096 * bitsOf t.word 22 42 = 0 then Turn.ok u [] else readPatches u ctx (4096 * bitsOf t.word 22 42)) = r
  have hread : r.canonical := hr ▸ Turn.canonical_ite hu (readPatches_canonical hu)
  split
  · exact hread
  · trivial
  · exact setGraphStatus_canonical hread
  · have happ := fun first count es => applyPatches_canonical (first := first) (count := count) es hread
    split
    · exact setGraphStatus_canonical (happ _ _ _)
    · split
      · exact setGraphStatus_canonical (happ _ _ _)
      · refine registerRun_canonical (s := State.mk ..) ?_
        exact happ _ _ _

theorem popTrigger_canonical {ctx : Nat} : (popTrigger s ctx).canonical := h

theorem triggerTurn_canonical {ctx : Nat} {t : Trigger} : (triggerTurn s ctx t).canonical :=
  Turn.canonical_ite (setGraphStatus_canonical h) (startRun_canonical h)

theorem execGraphRunStart_canonical {ctx : Nat} : Answers (execGraphRunStart ctx s) := by
  unfold execGraphRunStart
  split
  · exact .next h
  · next t _ =>
    have hturn := triggerTurn_canonical (ctx := ctx) (t := t) h
    split
    · next e => rw [e] at hturn; exact .next (popTrigger_canonical (schedDone_canonical hturn))
    · next e => rw [e] at hturn; exact .next hturn.same
    · exact .next h

theorem retryWait_canonical {run n : Nat} : (retryWait s run n).canonical := by
  unfold retryWait
  split
  · exact h
  · split
    · exact h
    · exact canonical_foldl _ (fun _ _ h => by exact registerWait_canonical h) _ _ (modNode_canonical h)

theorem execNodeWaitRetry_canonical {run n : Nat} : Answers (execNodeWaitRetry run n s) := by
  unfold execNodeWaitRetry
  split
  · exact .next (retryWait_canonical h)
  · exact .next h

/-! ### Nodes -/

theorem readHeader_canonical {ctx who va : Nat} : (readHeader s ctx who va).canonical :=
  Turn.andThen_canonical (ofEng_canonical (engineRead_canonical h)) fun _ _ h => h

theorem acquireAll_canonical : (acquireAll s).canonical :=
  canonical_foldl (fun s k => acquireBump s k 2) (fun _ _ h => acquireBump_canonical h) _ s h

theorem releaseCores_canonical : (releaseCores s).canonical :=
  canonical_foldl (fun s k => drainCore s k 2 0xFF) (fun s k h => drainCore_canonical s k 2 0xFF h) _ s h

theorem nodeRunning_canonical {run n : Nat} {f : NodeRun → NodeRun} : (nodeRunning s run n f).canonical := modNode_canonical h

theorem refuseNode_canonical {run n code : Nat} : (refuseNode s run n code).canonical := endFailed_canonical (failRun_canonical h)

theorem prefetchConsts_canonical {run n ctx : Nat} {hdr : List W64} : (prefetchConsts s run n ctx hdr).canonical := by
  unfold prefetchConsts
  refine canonical_ite h (canonical_foldl _ (fun s i h => ?_) _ s h)
  refine canonical_ite h ?_
  split
  · exact countHome_canonical _ _ _ _ h
  · exact h

theorem kernelStart_canonical {run n ctx : Nat} {hdr : List W64} : (kernelStart s run n ctx hdr).canonical :=
  nodeRunning_canonical (prefetchConsts_canonical h)

theorem submitNode_canonical {run n ctx : Nat} {hdr : List W64} : AllCanonical (submitNode s run n hdr ctx) := by
  have hmap : ∀ {o : Option State}, AllCanonical o → AllCanonical (o.map releaseCores) := fun ho t ht => by
    obtain ⟨u, hu, rfl⟩ := Option.map_eq_some_iff.mp ht
    exact releaseCores_canonical (ho u hu)
  unfold submitNode
  dsimp only
  split
  · split
    · exact .none
    · exact hmap (queueList_canonical h)
  · exact hmap (queueJob_canonical h)

theorem submitStart_canonical {run n ctx : Nat} {hdr : List W64} : (submitStart s run n hdr ctx).canonical := by
  unfold submitStart
  refine canonical_ite (refuseNode_canonical h) (canonical_ite (refuseNode_canonical h) (canonical_ite (refuseNode_canonical h) ?_))
  split
  · next e => exact nodeRunning_canonical (submitNode_canonical h _ e)
  · exact modNode_canonical h

theorem pipelineStart_canonical {run n ctx : Nat} {hdr : List W64} : (pipelineStart s run n hdr ctx).canonical := by
  unfold pipelineStart
  dsimp only
  generalize hr : turnAll _ _ _ = r
  have hread : r.canonical := hr ▸ turnAll_canonical (fun _ _ h => readHeader_canonical h) _ h
  split
  · exact hread
  · trivial
  · exact refuseNode_canonical hread
  · refine Turn.canonical_ite ?_ ?_
    · exact refuseNode_canonical hread
    · exact nodeRunning_canonical hread

theorem drawErr_canonical {ctx : Nat} : (drawErr s ctx).canonical := recOr_canonical _ _ _ _ h

theorem drawStart_canonical {run n ctx : Nat} {hdr : List W64} : (drawStart s run n hdr ctx).canonical := by
  unfold drawStart
  generalize hr : readHeader _ _ _ _ = r
  have hread : r.canonical := hr ▸ readHeader_canonical h
  split
  · exact hread
  · trivial
  · exact refuseNode_canonical hread
  · refine Turn.canonical_ite ?_ ?_
    · exact refuseNode_canonical hread
    · dsimp only
      generalize hr : ofEng (engineRead _ _ _ 4) = r
      have hcount : r.canonical := hr ▸ ofEng_canonical (engineRead_canonical hread)
      split
      · exact nodeRunning_canonical hcount
      · exact hcount
      · exact nodeRunning_canonical (drawErr_canonical hcount)
      · trivial

theorem startNode_canonical {r : Run} {n : Nat} : (startNode s r n).canonical := by
  have ha := acquireAll_canonical h
  unfold startNode
  dsimp only
  split
  · exact canonical_ite (kernelStart_canonical ha) (refuseNode_canonical ha)
  · split
    · exact refuseNode_canonical ha
    · split
      · exact pipelineStart_canonical ha
      · exact nodeRunning_canonical ha
      · exact drawStart_canonical ha
      · exact submitStart_canonical ha

theorem drawRecord_canonical {ctx who : Nat} {d : Draw} : (drawRecord s ctx who d).canonical := by
  have hrd : ∀ {t : State} {va n : Nat}, t.canonical → (ofEng (engineRead t (schedAgent ctx who) va n)).canonical :=
    fun ht => ofEng_canonical (engineRead_canonical ht)
  unfold drawRecord
  dsimp only
  generalize hr : Turn.andThen _ _ = r
  have hgo : r.canonical := by
    subst hr
    refine Turn.andThen_canonical (hrd h) fun _ _ h => Turn.andThen_canonical (hrd h) fun _ _ h =>
      Turn.andThen_canonical (hrd h) fun _ _ h => Turn.andThen_canonical (hrd h) fun _ _ h =>
      Turn.andThen_canonical (hrd h) fun _ _ h => ?_
    exact Turn.canonical_ite h (Turn.andThen_canonical (hrd h) fun _ _ h => h)
  split
  · exact hgo
  · exact hgo

theorem fragment_canonical {d : Draw} {t : Nat × Nat × Nat} : (fragment s d t).2.canonical := h

theorem addWaiting_canonical {run n ctx idx age : Nat} {hdr : List W64} {k : Bool} {st : List (Nat × Nat)} {init : List Byte} :
    (addWaiting s run n ctx idx age hdr k st init).canonical := h

theorem launchFragments_canonical {run n ctx : Nat} {d : Draw} : (launchFragments s run n ctx d).canonical :=
  addWaiting_canonical (modNode_canonical h)

theorem drawStep_canonical {r : Run} {n : Nat} {d : Draw} : (drawStep s r n d).canonical := by
  have hb := freeBool_canonical h
  unfold drawStep
  dsimp only
  split
  · exact launchFragments_canonical hb
  · split
    · exact hb
    · split
      · refine Turn.andThen_canonical (drawRecord_canonical hb) fun s ts h => ?_
        exact modNode_canonical (canonical_ite (drawErr_canonical h) h)
      · have hm := freeBool_canonical hb
        split
        · exact modNode_canonical (fragment_canonical hm)
        · exact modNode_canonical hm

theorem nodeTurn_canonical {r : Run} {n : Nat} {t : Turn Unit} (e : nodeTurn s r n = some t) : t.canonical := by
  unfold nodeTurn at e
  split at e
  · cases e; exact startNode_canonical h
  · split at e
    · cases e
    · split at e
      · split at e <;> cases e
        exact drawStep_canonical h
      · cases e

theorem execNodeStart_canonical {run n : Nat} : Answers (execNodeStart run n s) := by
  unfold execNodeStart
  split
  · exact .next h
  · split
    · next e => exact .next (schedDone_canonical (nodeTurn_canonical h e))
    · exact .next h
    · exact .next h

theorem execNodeSubmitDeferred_canonical {run n : Nat} : Answers (execNodeSubmitDeferred run n s) := by
  unfold execNodeSubmitDeferred
  split
  · exact .next h
  · split
    · exact .next h
    · split
      · exact .next h
      · split
        · exact .next (endFailed_canonical (modNode_canonical (failRun_canonical h)))
        · split
          · next e => exact .next (nodeRunning_canonical (submitNode_canonical h _ e))
          · exact .next h

theorem nodeSignals_canonical {ctx : Nat} {hdr : List W64} : (nodeSignals s ctx hdr).canonical := by
  unfold nodeSignals
  refine canonical_foldl _ (fun s i h => ?_) _ s h
  split
  · exact signalEvent_canonical h
  · exact h

theorem countRun_canonical {g : Nat} : (countRun s g).canonical := h

theorem completeNode_canonical {r : Run} {n : Nat} {x : NodeRun} : (completeNode s r n x).canonical := by
  have hd := reapImages_canonical (modNode_canonical (i := r.id) (j := n) (f := fun x => { x with state := .done, kindlings := [] }) h)
  have hsig := nodeSignals_canonical (ctx := r.ctx) (hdr := x.hdr) (releaseCores_canonical hd)
  unfold completeNode
  refine canonical_ite (endFailed_canonical hd) ?_
  dsimp only
  split
  · exact hsig
  · split
    · exact (countRun_canonical (g := r.graph) (setGraphStatus_canonical (g := r.graph) (st := 2) (code := 0) (node := 0) hsig)).same
    · exact hsig

theorem execNodeComplete_canonical {run n : Nat} : Answers (execNodeComplete run n s) := by
  unfold execNodeComplete
  split
  · exact .next h
  · split
    · exact .next h
    · split
      · exact .next (completeNode_canonical h)
      · exact .next h

/-! ### The save of a cluster -/

theorem settleTrap_canonical {bid : Nat} : (settleTrap s bid).canonical := by
  unfold settleTrap
  split
  · exact h
  · split
    · exact h
    · dsimp only
      split
      · exact freeBool_canonical h
      · have hland := fun (qs : List Quarter) core (f : Core → Core) => landAll_canonical (bid := bid) (modCore_canonical (i := core) (f := f)
          (canonical_foldl quarterDone (fun _ _ h => quarterDone_canonical h) qs _ (drainStores_canonical _ bid (freeBool_canonical h))))
        split
        · exact hland _ _ _
        · exact takeTrap_canonical (hland _ _ _)

theorem landOwed_canonical {bid : Nat} : (landOwed s bid).canonical := by
  unfold landOwed
  split
  · exact h
  · refine modBatch_canonical (canonical_foldl _ (fun _ _ h => by exact landPending_canonical h) _ _ ?_)
    exact performStores_canonical _ _ _ (endWait_canonical (canonical_ite (perfAdd_canonical h) h))

theorem dropFibreLocal_canonical {c : Crew} : (dropFibreLocal s c).canonical := h

theorem saveFibreLocal_canonical {c : Crew} : (saveFibreLocal s c).canonical :=
  dropFibreLocal_canonical (canonical_foldl _ (fun _ _ h => by exact writeBack_canonical _ _ _ h) _ _ h)

theorem dropCrewWork_canonical {c : Crew} : (dropCrewWork s c).canonical := h

theorem parkCrew_canonical {c : Crew} : (parkCrew s c).canonical := by
  unfold parkCrew
  refine unbindArray_canonical ?_
  exact h

theorem saveCluster_canonical {id : Nat} : (saveCluster s id).canonical := by
  unfold saveCluster
  dsimp only
  generalize hr : List.foldl _ s _ = t
  have ht : t.canonical := hr ▸ canonical_foldl _ (fun _ _ h => by exact landOwed_canonical (settleTrap_canonical h)) _ _ h
  split
  · exact ht
  · generalize hw : List.foldl _ (List.foldl _ t _) _ = u
    have hu : u.canonical := hw ▸ canonical_foldl _ (fun _ _ h => by exact drainCore_canonical _ _ _ _ h) _ _
      (canonical_foldl _ (fun _ _ h => by exact saveFibreLocal_canonical h) _ _ ht)
    refine canonical_ite hu ?_
    refine canonical_foldl _ (fun _ _ h => by exact parkCrew_canonical h) _ _ (modCluster_canonical ?_)
    exact homeWrite_canonical _ _ _ (canonical_foldl _ (fun _ _ h => by exact homeWrite_canonical _ _ _ h) _ _ hu)

/-! ### The restore of a cluster -/

omit h in
theorem placeRank_canonical {k : Cluster} {core : Nat} (cs : List Crew) : ∀ {s : State}, s.canonical →
    AllCanonical (placeRank s k core cs) := by
  induction cs with
  | nil => exact fun h => .some h
  | cons c cs ih =>
    intro s h
    unfold placeRank
    split
    · exact .none
    · exact ih (placeCrew_canonical h)

omit h in
theorem placeRanks_canonical {k : Cluster} {cc : Nat} (rs : List (Nat × Nat)) : ∀ {s : State} {used : List (Nat × Nat)}, s.canonical →
    ∀ r ∈ placeRanks k cc rs s used, r.1.canonical := by
  induction rs with
  | nil => intro s used h r hr; cases hr; exact h
  | cons q rs ih =>
    intro s used h r hr
    obtain ⟨old, n⟩ := q
    unfold placeRanks at hr
    dsimp only at hr
    split at hr
    · cases hr
    · next t core e =>
      obtain ⟨c, -, e⟩ := List.exists_of_findSome?_eq_some e
      obtain ⟨-, e⟩ := Option.ite_none_left_eq_some.mp e
      obtain ⟨u, hu, e⟩ := Option.map_eq_some_iff.mp e
      cases e
      exact ih (placeRank_canonical _ h _ hu) r hr

theorem restorePlace_canonical {k : Cluster} {cc : Nat} : ∀ r ∈ restorePlace s k cc, r.1.canonical := placeRanks_canonical _ h

theorem stampAtRestore_canonical {uid : Nat} : (stampAtRestore s uid).canonical :=
  canonical_foldl _ (fun _ _ h => by exact stampFibres_canonical h) _ _ (modCrew_canonical h)

theorem joinBatch_canonical {b : SavedBatch} : (joinBatch s b).canonical := canonical_ite h h

theorem clearPlanes_canonical {core : Nat} : (clearPlanes s core).canonical := clearUpsets_canonical h

theorem joinPlanes_canonical {k : Cluster} {r : Nat × Nat} : (joinPlanes k s r).canonical := by
  unfold joinPlanes
  split
  · exact h
  · exact modCore_canonical (canonical_ite h (clearPlanes_canonical h))

theorem restoreCluster_canonical {s' : State} {k : Cluster} {cores : List (Nat × Nat)} {cc : Nat} :
    (restoreCluster s' k s cores cc).canonical := by
  unfold restoreCluster
  dsimp only
  refine reapImages_canonical (canonical_foldl exitIfEmpty (fun _ _ h => exitIfEmpty_canonical h) _ _ ?_)
  refine canonical_foldl stampAtRestore (fun _ _ h => stampAtRestore_canonical h) _ _ (modCluster_canonical ?_)
  refine canonical_foldl joinBatch (fun _ _ h => joinBatch_canonical h) _ _ ?_
  refine canonical_foldl (joinPlanes k) (fun _ _ h => joinPlanes_canonical h) _ _ ?_
  refine State.canonical.same (s := List.foldl _ _ _) ?_ rfl rfl
  refine canonical_foldl _ (fun _ _ h => by exact modCrew_canonical h) _ _ ?_
  exact canonical_foldl _ (fun _ _ h => by exact dropLasting_canonical (acquireBump_canonical h)) _ _ h

end

/-! Canonical memory through the placement of clusters (R141 to R166), the context commands (R440 to R445) and the Hearth
(R380 to R398). -/

section
variable {s : State} (h : s.canonical)
include h

/-! ### Placement -/

theorem yieldReady_canonical {r : Run} {n : Nat} {x : NodeRun} {i : Nat} : (yieldReady s r n x i).canonical :=
  addWaiting_canonical (modNode_canonical h)

theorem yieldNode_canonical {r : Run} {p : Nat × NodeRun} : (yieldNode s r p).canonical := by
  unfold yieldNode
  refine canonical_ite h ?_
  dsimp only
  split
  · exact addWaiting_canonical (modNode_canonical h)
  · exact yieldReady_canonical h
  · exact h

theorem withYield_canonical : (withYield s).canonical := by
  unfold withYield
  refine canonical_foldl _ (fun s r h => ?_) _ s h
  exact canonical_foldl _ (fun _ _ h => by exact yieldNode_canonical h) _ s h

omit h in
theorem admitRanks_canonical {k : Cluster} {cc : Nat} (rs : List Nat) : ∀ {s : State} {us : List (Nat × Nat)}, s.canonical →
    ∀ r ∈ admitRanks k cc rs s us, r.1.canonical := by
  induction rs with
  | nil => intro s us h r hr; cases hr; exact h
  | cons n rs ih =>
    intro s us h r hr
    unfold admitRanks at hr
    dsimp only at hr
    split at hr
    · cases hr
    · exact ih (admitCrew_canonical h) r hr

theorem tryPlace_canonical {k : Cluster} {cc : Nat} : ∀ p ∈ tryPlace s k cc, (placedState p).canonical := by
  intro p hp
  unfold tryPlace at hp
  split at hp
  · obtain ⟨r, hr, rfl⟩ := Option.map_eq_some_iff.mp hp
    exact restorePlace_canonical h r hr
  · obtain ⟨-, hp⟩ := Option.ite_none_left_eq_some.mp hp
    obtain ⟨r, hr, rfl⟩ := Option.map_eq_some_iff.mp hp
    exact admitRanks_canonical _ h r hr

theorem placeAmong_canonical {k : Cluster} {kept : Option Nat} : ∀ p ∈ placeAmong s k kept, (placedState p.2).canonical := by
  intro p hp
  obtain ⟨cc, -, hp⟩ := List.exists_of_findSome?_eq_some hp
  obtain ⟨q, hq, rfl⟩ := Option.map_eq_some_iff.mp hp
  exact tryPlace_canonical h q hq

theorem placeAnywhere_canonical {k : Cluster} : ∀ p ∈ placeAnywhere s k, (placedState p.2).canonical := placeAmong_canonical h

theorem nextPlace_canonical : ∀ p ∈ nextPlace s, (placedState p.2.2).canonical := by
  intro p hp
  unfold nextPlace at hp
  split at hp
  · next q e =>
    cases hp
    obtain ⟨k, -, e⟩ := List.exists_of_findSome?_eq_some e
    split at e
    · next r hr =>
      cases e
      exact placeAnywhere_canonical h r hr
    · obtain ⟨_, _, e⟩ := Option.map_eq_some_iff.mp e
      cases e
  · cases hp

theorem startFibres_canonical {k : Cluster} {p : Nat × Nat} : (startFibres k s p).canonical := by
  have hinit := canonical_ite (c := k.init.isEmpty) h (scratchWrite_canonical s p.2 0 k.init h)
  unfold startFibres
  dsimp only
  refine canonical_ite (launchFibres_canonical hinit) (canonical_ite (launchFibres_canonical hinit)
    (canonical_ite (launchFibres_canonical hinit) ?_))
  split
  · exact hinit
  · refine stampFibres_canonical ?_
    split
    · exact scratchWrite_canonical _ _ _ _ hinit
    · exact hinit

theorem pickSave_canonical {ctx : Nat} : (pickSave s ctx).2.canonical := modCtx_canonical (freePick_canonical h)

theorem beginCluster_canonical {k : Cluster} {cc : Nat} {crews : List (Nat × Nat)} : (beginCluster s k cc crews).canonical :=
  reapImages_canonical (modCluster_canonical (canonical_foldl (startFibres k) (fun _ _ h => startFibres_canonical h) _ _
    (pickSave_canonical h)))

theorem execClassAging_canonical {cl : Nat} : Answers (execClassAging cl s) := by
  unfold execClassAging
  split
  · exact .next h
  · split
    · exact .next (modCluster_canonical h)
    · exact .next h

theorem execClusterPlace_canonical : Answers (execClusterPlace s) := by
  unfold execClusterPlace
  split
  · exact .next (withYield_canonical h)
  · split
    · exact .next h
    · split
      · next e =>
        split
        · exact .next (beginCluster_canonical (nextPlace_canonical h _ e))
        · exact .next h
      · exact .next h
      · split
        · exact .next (yieldReady_canonical h)
        · exact .next h

theorem execClusterRestore_canonical : Answers (execClusterRestore s) := by
  unfold execClusterRestore
  split
  · exact .next h
  · split
    · next e =>
      split
      · exact .next (restoreCluster_canonical (nextPlace_canonical h _ e))
      · exact .next h
    · exact .next h

theorem execPreemptCluster_canonical {cl : Nat} : Answers (execPreemptCluster cl s) := by
  unfold execPreemptCluster
  split
  · exact .next h
  · split
    · split
      · exact .next (fatalError_canonical (countUE_canonical h))
      · exact .next (saveCluster_canonical h)
    · exact .next h

theorem pipeAdmit_canonical {r : Run} {n : Nat} {x : NodeRun} : ∀ a ∈ pipeAdmit s r n x, (placedState a.2.2.2).canonical := by
  intro a ha
  unfold pipeAdmit at ha
  obtain ⟨-, ha⟩ := Option.ite_none_left_eq_some.mp ha
  obtain ⟨p, -, ha⟩ := Option.bind_eq_some_iff.mp ha
  obtain ⟨q, -, ha⟩ := Option.bind_eq_some_iff.mp ha
  obtain ⟨k, -, ha⟩ := Option.bind_eq_some_iff.mp ha
  obtain ⟨pl, hpl, rfl⟩ := Option.map_eq_some_iff.mp ha
  exact placeAnywhere_canonical (addWaiting_canonical h) _ hpl

theorem execPipelineReassign_canonical {run n : Nat} : Answers (execPipelineReassign run n s) := by
  unfold execPipelineReassign
  split
  · next e =>
    obtain ⟨r, -, e⟩ := Option.bind_eq_some_iff.mp e
    obtain ⟨x, -, e⟩ := Option.bind_eq_some_iff.mp e
    have hp := pipeAdmit_canonical h _ e
    split
    · exact .next h
    · refine .next (modNode_canonical (canonical_foldl _ (fun _ _ h => by exact modCrew_canonical h) _ _ (beginCluster_canonical ?_)))
      exact canonical_ite hp (canonical_foldl _ (fun _ _ h => by exact acquireBump_canonical h) _ _ hp)
  · exact .next h

theorem execSlabConvert_canonical {core : Nat} : Answers (execSlabConvert core s) := by
  unfold execSlabConvert
  split
  · exact .next (modCore_canonical (shedLines_canonical h))
  · exact .next h

theorem execSlabReturn_canonical {core : Nat} : Answers (execSlabReturn core s) := by
  unfold execSlabReturn
  split
  · exact .next (modCore_canonical h)
  · exact .next h

/-! ### Contexts -/

theorem readSix_canonical {c : Nat} : (readSix s c).canonical := modCtx_canonical h

theorem writeSix_canonical {c : Nat} : (writeSix s c).canonical :=
  recField_canonical _ _ _ _ _ _ (recField_canonical _ _ _ _ _ _ (recField_canonical _ _ _ _ _ _
    (homeWriteNat_canonical _ _ _ _ (homeWriteNat_canonical _ _ _ _ (homeWriteNat_canonical _ _ _ _ h)))))

theorem makeTimeline_canonical {c j : Nat} {e : W64} : AllCanonical (makeTimeline s c j e) := by
  unfold makeTimeline
  dsimp only
  split
  · exact .none
  · split
    · exact .none
    · split
      · exact .none
      · split
        · exact .some h
        · split <;> exact .some h

theorem setCmdErr_canonical {c : Nat} : (setCmdErr s c).canonical := modCtx_canonical h

theorem makeTimelineOr_canonical {c j : Nat} {e : W64} : ((makeTimeline s c j e).getD (setCmdErr s c)).canonical := by
  cases ht : makeTimeline s c j e with
  | none => exact setCmdErr_canonical h
  | some t => exact makeTimeline_canonical h t ht

theorem makeTimelines_canonical {c : Nat} : (makeTimelines s c).canonical := by
  unfold makeTimelines
  refine canonical_foldl _ (fun s j h => ?_) _ s h
  exact canonical_ite h (makeTimelineOr_canonical h)

theorem clearEvents_canonical {c : Nat} : (clearEvents s c).canonical := h

theorem ctxCreate_canonical {c : Nat} : (ctxCreate s c).canonical := by
  unfold ctxCreate
  refine canonical_ite (setCmdErr_canonical h) ?_
  refine makeTimelines_canonical (clearEvents_canonical (readSix_canonical (modCtx_canonical ?_)))
  exact h

theorem ctxResume_canonical {c : Nat} : (ctxResume s c).canonical :=
  canonical_ite (setCmdErr_canonical h) (modCtx_canonical (recField_canonical _ _ _ _ _ _ (readSix_canonical h)))

theorem dropRuns_canonical {c : Nat} : (dropRuns s c).canonical := by
  unfold dropRuns
  refine State.canonical.same (s := List.foldl _ s _) ?_ rfl rfl
  exact canonical_foldl _ (fun _ _ h => by exact canonical_ite h (setGraphStatus_canonical h)) _ _ h

theorem ctxDestroy_canonical {c : Nat} : (ctxDestroy s c).canonical := by
  unfold ctxDestroy
  refine modCtx_canonical ?_
  refine State.canonical.same (s := List.foldl _ (List.foldl _ (List.foldl _ (dropRuns _ _) _) _) _) ?_ rfl rfl
  refine canonical_foldl _ (fun _ _ h => by exact monSample_canonical _ _ _ _ h) _ _ ?_
  refine canonical_foldl discardCluster (fun _ _ h => discardCluster_canonical h) _ _ ?_
  exact canonical_foldl _ (fun _ _ h => by exact setGraphStatus_canonical h) _ _ (dropRuns_canonical (dropWaiters_canonical h))

theorem ctxTlset_canonical {c j : Nat} : (ctxTlset s c j).canonical := makeTimelineOr_canonical h

theorem ctxCommand_canonical {c code id : Nat} : (ctxCommand s c code id).canonical := by
  unfold ctxCommand
  split
  · exact ctxCreate_canonical h
  · exact haltContext_canonical h
  · exact ctxResume_canonical h
  · exact canonical_ite (ctxDestroy_canonical h) (setCmdErr_canonical h)
  · exact canonical_ite (ctxTlset_canonical h) (setCmdErr_canonical h)
  · exact setCmdErr_canonical h

theorem writeCmd_canonical {c : Nat} {v : W64} : (writeCmd s c v).canonical :=
  canonical_ite (ctxCommand_canonical (modCtx_canonical h)) h

theorem clearCmdErr_canonical {c : Nat} : (clearCmdErr s c).canonical := canonical_ite h h

theorem execCtxCmdInvalid_canonical {c code : Nat} : Answers (execCtxCmdInvalid c code s) := by
  unfold execCtxCmdInvalid
  split
  · exact .next (writeCmd_canonical h)
  · exact .next h

theorem execCtxHalted_canonical {c : Nat} : Answers (execCtxHalted c s) := by
  unfold execCtxHalted
  split
  · exact .next (modCtx_canonical (writeSix_canonical h))
  · exact .next h

theorem execCtxFreed_canonical {c : Nat} : Answers (execCtxFreed c s) := by
  unfold execCtxFreed
  split
  · exact .next (canonical_of_eq (s := s) rfl rfl h)
  · exact .next h

/-! ### The Hearth -/

theorem mapFills_canonical {g : Nat} {f : Fill → Option Fill} : (mapFills s g f).canonical := h

theorem setGenWord_canonical {g j : Nat} {v : W64} : (setGenWord s g j v).canonical := h

theorem addFails_canonical {g : Nat} : (addFails s g).canonical := setGenWord_canonical h

theorem withLines_canonical {ls : List GenLine} {vs : List (Nat × GenLine)} :
    ({ s with genLines := ls, victims := vs } : State).canonical := h

theorem advanceGen_canonical {g : Nat} : (advanceGen s g).canonical := by
  unfold advanceGen
  exact mapFills_canonical (withLines_canonical (setGenWord_canonical h))

theorem endGen_canonical {g : Nat} : (endGen s g).canonical :=
  canonical_foldl _ (fun _ _ h => by exact monSample_canonical _ _ _ _ (addFails_canonical (failRecord_canonical h))) _ _
    (mapFills_canonical h)

theorem rekey_canonical {g : Nat} : (rekey s g).canonical := mapFills_canonical h

theorem entryCode_canonical {i : Nat} {t1 : W64} : (entryCode s i t1).canonical := by
  unfold entryCode
  dsimp only
  split
  · exact h
  · split
    · exact h
    · generalize hr : engineRead _ _ _ _ = r
      have hread : r.canonical := hr ▸ engineRead_canonical h
      split <;> exact hread

theorem withHdrs_canonical {hs : List (Nat × List W64)} : ({ s with genHdrs := hs } : State).canonical := h

theorem submitEntry_canonical {i : Nat} {t1 : W64} : (submitEntry s i t1).canonical := by
  unfold submitEntry
  refine canonical_ite h ?_
  dsimp only
  generalize hr : entryCode _ _ _ = r
  have hcode : r.canonical := hr ▸ entryCode_canonical h
  split
  · exact hcode.same
  · exact hcode
  · have hdone := fun f => modParks_canonical (w := .other 2) (f := f) hcode
    split
    · exact canonical_ite (endGen_canonical (setGenWord_canonical (hdone _))) (setGenWord_canonical (hdone _))
    · have hset := fun f hs => setGenWord_canonical (g := i) (j := 1) (v := entryWord t1 true 0) (withHdrs_canonical (hdone f) (hs := hs))
      exact canonical_ite (rekey_canonical (advanceGen_canonical (hset _ _))) (hset _ _)

theorem invalidateEntry_canonical {i : Nat} {t1 : W64} : (invalidateEntry s i t1).canonical :=
  canonical_ite h (canonical_ite (endGen_canonical (setGenWord_canonical h)) (setGenWord_canonical h))

theorem writeVictimStore_canonical {cfg : Bool} {v : W64} : (writeVictimStore s cfg v).canonical :=
  canonical_ite h (canonical_ite h h)

theorem withCrews_canonical {cs : List Crew} : ({ s with crews := cs } : State).canonical := h

theorem startFill_canonical {core : Nat} {f : Fill} : (startFill s core f).canonical := by
  unfold startFill
  refine launchFibres_canonical (modFill_canonical (acquireStamp_canonical (acquireBump_canonical ?_)))
  exact withCrews_canonical (modCore_canonical (takeId_canonical (fresh_canonical (shedLines_canonical h))))

theorem execFillPlace_canonical {depth core : Nat} : Answers (execFillPlace depth core s) := by
  unfold execFillPlace
  split
  · exact .next h
  · split
    · exact .next (startFill_canonical h)
    · exact .next h

theorem execFillTimeout_canonical {r : Nat} : Answers (execFillTimeout r s) := by
  unfold execFillTimeout
  split
  · exact .next h
  · split
    · exact .next (failFill_canonical h)
    · exact .next h

omit h in
theorem inFill_canonical {x : Exec} (hx : x.s.canonical) {f : Fill → Eff} (hf : ∀ r, (f r).canonical) : (inFill x f).canonical := by
  unfold inFill
  split
  · exact hx
  · exact hf _

theorem execFillarg_canonical {w : FWord} : Answers (execFillarg w s) :=
  runF_canonical h fun _ hx => inFill_canonical hx fun _ => trivial

theorem execFillput_canonical {w : FWord} : Answers (execFillput w s) := by
  unfold execFillput
  refine runF_canonical h fun x hx => inFill_canonical hx fun r => ?_
  exact Eff.canonical_ite hx (Eff.canonical_ite hx (Eff.canonical_ite hx (Eff.done_canonical (modFill_canonical hx))))

theorem acquireFill_canonical {r : Nat} {pairs : List (Nat × Nat) × Bool} : (acquireFill s r pairs).canonical := by
  unfold acquireFill
  refine canonical_foldl _ (fun s k h => ?_) _ _ (canonical_foldl _ (fun s b h => ?_) _ s h)
  · exact canonical_ite (acquireBump_canonical h) h
  · exact acquire_canonical (modCrew_canonical h)

theorem installUnit_canonical {f : Fill} : (installUnit s f).canonical :=
  canonical_foldl _ (fun _ _ h => by exact putGenLine_canonical h) _ s h

theorem endParks_canonical {id : Nat} {g : ParkLine → Option ParkLine} : (endParks s id g).canonical := h

theorem serveParks_canonical {f : Fill} : (serveParks s f).canonical := endParks_canonical h

theorem delFill_canonical {id : Nat} : (delFill s id).canonical := h

theorem fillDone_canonical {b : Batch} {r : Fill} : (fillDone s b r).canonical := by
  unfold fillDone
  refine delFill_canonical (monSample_canonical _ _ _ _ (freeFillTask_canonical (canonical_ite (endParks_canonical h) ?_)))
  exact serveParks_canonical (installUnit_canonical (evictGen_canonical (acquireFill_canonical (releaseAll_canonical h))))

theorem execFilldone_canonical {w : FWord} : Answers (execFilldone w s) :=
  runF_canonical h fun _ hx => inFill_canonical hx fun _ => Eff.jump_canonical (fillDone_canonical hx)

theorem execFillfail_canonical {w : FWord} : Answers (execFillfail w s) := by
  unfold execFillfail
  refine runF_canonical h fun x hx => inFill_canonical hx fun r => ?_
  exact Eff.canonical_ite hx (Eff.jump_canonical (failFill_canonical hx))

theorem execGeninv_canonical {w : FWord} : Answers (execGeninv w s) := by
  unfold execGeninv
  refine runF_canonical h fun x hx => ?_
  refine Eff.canonical_ite hx (Eff.canonical_ite hx (Eff.canonical_ite hx (Eff.done_canonical (advanceGen_canonical ?_))))
  exact (releaseAll_canonical (b := x.b) (scope := 2) hx).same rfl rfl

end

/-! Canonical memory through the device's registers, links, displays, power and reset (R446 to R493). -/

section
variable {s : State} (h : s.canonical)
include h

/-! ### Outputs -/

theorem modOut_canonical {o : Nat} {f : Output → Output} : (modOut s o f).canonical := h

theorem setOutReg_canonical {o off : Nat} {v : W64} : (setOutReg s o off v).canonical := modOut_canonical h

theorem outStatus_canonical {o m : Nat} : (outStatus s o m).canonical := setOutReg_canonical h

theorem modeError_canonical {o : Nat} : (modeError s o).canonical := modOut_canonical (outStatus_canonical h)

theorem judgeMode_canonical {o : Nat} : (judgeMode s o).canonical :=
  canonical_ite (modeError_canonical (modOut_canonical h)) (canonical_ite (modOut_canonical h)
    (canonical_ite (modOut_canonical (modOut_canonical h)) (canonical_ite (modOut_canonical h) (modeError_canonical (modOut_canonical h)))))

theorem takeSurface_canonical {o pa : Nat} : (takeSurface s o pa).canonical := canonical_ite (setOutReg_canonical h) (outStatus_canonical h)

theorem writeOut_canonical {o off : Nat} {v : W64} : (writeOut s o off v).canonical :=
  canonical_ite (modOut_canonical h) (canonical_ite (canonical_ite (modOut_canonical h) (judgeMode_canonical (setOutReg_canonical h)))
    (setOutReg_canonical h))

theorem clearOut_canonical {o : Nat} {v : W64} : (clearOut s o v).canonical := setOutReg_canonical h

theorem withEvents_canonical {es : List (Nat × W32)} : ({ s with events := es } : State).canonical := h

theorem takeFlip_canonical {o : Nat} : (takeFlip s o).canonical := by
  unfold takeFlip
  split
  · exact h
  · have hu := fun es => withEvents_canonical (es := es) (useHome_canonical s (outReg s o 0x38).toNat h)
    exact canonical_ite (outStatus_canonical (hu _)) (takeSurface_canonical (hu _))

theorem blankSignal_canonical {o : Nat} : (blankSignal s o).canonical := by
  unfold blankSignal
  dsimp only
  split
  · exact h
  · exact canonical_ite (signalEvent_canonical h) h

theorem takePending_canonical {o : Nat} : (takePending s o).canonical := by
  have hm := modOut_canonical (o := o) (f := fun p => { p with pending := [] }) h
  have hj := canonical_foldl (fun s p => setOutReg s o p.1 p.2) (fun _ _ h => setOutReg_canonical h)
    ((kvGetD s.outs o {}).pending.filter fun p => p.1 != 0x20) _ hm
  unfold takePending
  dsimp only
  split
  · exact takeSurface_canonical (canonical_ite hm (judgeMode_canonical hj))
  · exact canonical_ite hm (judgeMode_canonical hj)

theorem execVblank_canonical {o : Nat} : Answers (execVblank o s) := by
  unfold execVblank
  split
  · exact .next h
  · exact .next (blankSignal_canonical (takeFlip_canonical (takePending_canonical (canonical_ite (modOut_canonical h) h))))

theorem setLink_canonical {o rate lanes : Nat} : (setLink s o rate lanes).canonical := setOutReg_canonical h

theorem execDpLinkTrain_canonical {o rate lanes : Nat} {fits : Bool} : Answers (execDpLinkTrain o rate lanes fits s) := by
  have hl := modOut_canonical (o := o) (f := fun p => { p with training := false }) (setLink_canonical (o := o) (rate := rate) (lanes := lanes) h)
  unfold execDpLinkTrain
  split
  · exact .next h
  · exact .next (canonical_ite (modeError_canonical hl) hl)

theorem execHpdChange_canonical {o : Nat} {present : Bool} : Answers (execHpdChange o present s) := by
  unfold execHpdChange
  split
  · exact .next h
  · split
    · exact .next (outStatus_canonical h)
    · exact .next (setOutReg_canonical (setLink_canonical h))

/-! ### Registers -/

theorem identWrite_canonical {off : Nat} {v : W64} : (identWrite s off v).canonical :=
  canonical_ite h (canonical_ite h (canonical_ite (canonical_ite h h) (canonical_ite h (canonical_ite h h))))

theorem ctxWrite_canonical {off : Nat} {v : W64} : (ctxWrite s off v).canonical :=
  canonical_ite (modCtx_canonical h) (canonical_ite (writeCmd_canonical h) (canonical_ite (clearCmdErr_canonical h) h))

theorem genWrite_canonical {off : Nat} {v : W64} : (genWrite s off v).canonical :=
  canonical_ite (canonical_ite (submitEntry_canonical h) (invalidateEntry_canonical h)) (canonical_ite h (setGenWord_canonical h))

theorem graphWrite_canonical {off : Nat} {v : W64} : (graphWrite s off v).canonical :=
  canonical_ite (canonical_ite h h) h

theorem ioWrite_canonical {off : Nat} {v : W64} : (ioWrite s off v).canonical := by
  unfold ioWrite
  refine canonical_ite h (canonical_ite (identWrite_canonical h) (canonical_ite (ctxWrite_canonical h)
    (canonical_ite (writeTrigger_canonical h) (canonical_ite (genWrite_canonical h) (canonical_ite (writeVictimStore_canonical h)
    (canonical_ite (writeVictimStore_canonical h) (canonical_ite ?_ (canonical_ite ?_ (canonical_ite (graphWrite_canonical h) h)))))))))
  · exact h
  · exact canonical_ite (clearOut_canonical h) (canonical_ite (writeOut_canonical h) h)

/-! ### Accesses of the host and of peers -/

theorem touchHome_canonical {pa n : Nat} : (touchHome s pa n).canonical := useEngines_canonical h

theorem busUse_canonical {a : BusAccess} : (busUse s a).canonical := noteBanks_canonical (touchHome_canonical h)

theorem busPerform_canonical {a : BusAccess} : (busPerform s a).canonical := by
  have hu := busUse_canonical (a := a) h
  unfold busPerform
  dsimp only
  split
  · exact hu
  · refine homeWrite_canonical _ _ _ ?_
    exact hu
  · refine homeWriteNat_canonical _ _ _ _ ?_
    exact hu

theorem busAccess_canonical {peer : Bool} {a : BusAccess} : Answers (busAccess s peer a) := by
  unfold busAccess
  split
  · exact .next h
  · split
    · exact .next (busPerform_canonical h)
    · exact .next h
    · exact .next h
    · exact .fault

/-! ### Links -/

theorem setLinkState_canonical {k v : Nat} : (setLinkState s k v).canonical := canonical_ite h h

theorem loseStores_canonical {k : Nat} : (loseStores s k).canonical := by
  unfold loseStores
  refine canonical_foldl _ (fun s core h => ?_) _ s h
  exact canonical_foldl _ (fun _ _ h => by exact writeBack_canonical _ _ _ h) _ s h

theorem execLinkFail_canonical {link : Nat} : Answers (execLinkFail link s) := by
  unfold execLinkFail
  split
  · exact .next h
  · exact .next (loseStores_canonical (setLinkState_canonical h))

theorem execLinkRetry_canonical {link : Nat} {up : Bool} : Answers (execLinkRetry link up s) := by
  unfold execLinkRetry
  split
  · exact .next h
  · split
    · exact .next (canonical_ite (setLinkState_canonical h) h)
    · exact .next (setLinkState_canonical h)

/-! ### Power and health -/

theorem scanFloor_canonical : (scanFloor s).2.canonical := by
  unfold scanFloor
  split
  · exact freePick_canonical h
  · exact h

theorem noteWorn_canonical : (noteWorn s).canonical := h

theorem countErrors_canonical {p : PowerSample} : (countErrors s p).canonical := by
  have hc := canonical_foldl (fun s (q : Nat × Nat) => modCore s q.1 fun k => { k with cec := satCount 32 k.cec q.2 })
    (fun _ _ h => modCore_canonical h) p.coreErrors s h
  exact ⟨hc.1, hc.2⟩

theorem withPower_canonical {p : Power} : ({ s with power := p } : State).canonical := h

theorem execPowerInterval_canonical {p : PowerSample} : Answers (execPowerInterval p s) := by
  unfold execPowerInterval
  refine .next (canonical_of_eq (s := noteWorn (List.foldl _ (monSample (monSample (monSample _ _ _ _) _ _ _) _ _ _) _)) rfl rfl
    (noteWorn_canonical (canonical_foldl _ (fun _ _ h => by exact monSample_canonical _ _ _ _ h) _ _ ?_)))
  exact monSample_canonical _ _ _ _ (monSample_canonical _ _ _ _ (monSample_canonical _ _ _ _
    (withPower_canonical (scanFloor_canonical (countErrors_canonical h)))))

theorem tickClock_canonical : (tickClock s).canonical := h

theorem execEngineGate_canonical {e : Engine} : Answers (execEngineGate e s) := by
  unfold execEngineGate; split <;> exact .next h

theorem execEngineWake_canonical {e : Engine} : Answers (execEngineWake e s) :=
  .next (canonical_ite (useEngines_canonical h) h)

theorem execThermalTrip_canonical : Answers (execThermalTrip s) := by
  unfold execThermalTrip
  split
  · exact .next h
  · exact .next (withPower_canonical (canonical_foldl _
      (fun _ _ h => by exact haltContext_canonical (recField_canonical _ _ _ _ _ _ h)) _ _ h))

/-! ### Reset -/

theorem trainLink_canonical {k : Nat} : (trainLink s k).canonical := by
  have hl := fun v => setLinkState_canonical (k := k) (v := v) (freePick_canonical (n := 8) (freeBool_canonical h))
  exact canonical_ite (hl _) (hl _)

theorem resetMemory_canonical : (resetMemory s).canonical := by
  unfold resetMemory
  refine canonical_foldl _ (fun s p h => ?_) _ s h
  split
  · exact h
  · exact h
  · exact ⟨kvWf_filter 0 _ _ h.1, h.2⟩
  · exact ⟨kvPut_wf 0 _ _ _ h.1, h.2⟩

theorem testStack_canonical : (testStack s).canonical := h

theorem withIdent_canonical {i : Ident} : ({ s with ident := i } : State).canonical := h

theorem bringUp_canonical {img : List Byte} : (bringUp s img).canonical := by
  unfold bringUp
  refine withIdent_canonical (trainLink_canonical (trainLink_canonical ?_))
  exact (testStack_canonical (resetMemory_canonical h)).same rfl rfl

theorem afterPowerLoss_canonical : (afterPowerLoss s).canonical := ⟨kvWf_filter 0 _ _ h.1, rfl⟩

theorem execDeviceReset_canonical : Answers (execDeviceReset s) := by
  have hs : ({ afterPowerLoss s with mem := s.mem } : State).canonical := ⟨h.1, rfl⟩
  exact .next (canonical_ite (bringUp_canonical hs) (withIdent_canonical hs))

theorem execFirmwareImage_canonical {img : List Byte} : Answers (execFirmwareImage img s) := by
  unfold execFirmwareImage
  split
  · exact .next h
  · split
    · exact .next (bringUp_canonical h)
    · exact .next h

theorem execAttgo_canonical : Answers (execAttgo s) := by
  unfold execAttgo
  dsimp only
  have ha : ({ s with ident := { s.ident with attgo := false } } : State).canonical := h
  refine .next (canonical_ite ha ?_)
  split
  · exact homeWrite_canonical _ _ _ ha
  · exact homeWrite_canonical _ _ _ ha
  · exact ha

end

/-! Canonical memory through the fetch, the events of a core (R121 to R130, R456 to R465), cross-lane words and ray queries
(R421 to R425). -/

/-- The state with which a fetch answers is canonical. -/
def FetchAns.canonical : FetchAns → Prop
  | .word s _ => s.canonical
  | .fault s _ => s.canonical
  | .wait s _ => s.canonical

/-- The state with which a read of a ray query answers is canonical. -/
def RayAns.canonical {α : Type} : RayAns α → Prop
  | .ok s _ => s.canonical
  | .trap s _ => s.canonical
  | .wait s _ => s.canonical

theorem RayAns.canonical_ite {α : Type} {c : Prop} [Decidable c] {t u : RayAns α} (ht : t.canonical) (hu : u.canonical) :
    (if c then t else u).canonical := by split <;> assumption

theorem RayAns.andThen_canonical {α β : Type} {r : RayAns α} {f : State → α → RayAns β} (hr : r.canonical)
    (hf : ∀ s v, s.canonical → (f s v).canonical) : (r.andThen f).canonical := by
  cases r with
  | ok s v => exact hf s v hr
  | trap s t => exact hr
  | wait s k => exact hr

section
variable {s : State} (h : s.canonical)
include h

/-! ### Fetch -/

theorem readWord_canonical {b : Batch} {va : Nat} : (readWord s b va).canonical := by
  have hloc := locateLane_canonical (x := { hwExec s b with b := b }) (u := .fetch) (bytes := 8) (va := va) (atHome := false) (fl := none) h
  unfold readWord
  split
  · next e => exact canonical_of_fst hloc e
  · next e => exact canonical_of_fst hloc e
  · next e =>
    have ht := canonical_of_fst hloc e
    split
    · exact ht
    · exact loadLoc_canonical _ _ _ _ ht

theorem fetchWord_canonical {b : Batch} : (fetchWord s b).canonical := by
  have hloc := locateLane_canonical (x := { hwExec s b with b := b }) (u := .fetch) (bytes := 8) (va := b.pc.toNat) (atHome := false)
    (fl := none) h
  unfold fetchWord
  split
  · exact readWord_canonical h
  · split
    · next e => exact canonical_of_fst hloc e
    · next e => exact canonical_of_fst hloc e

theorem fetchAhead_canonical {id : Nat} : (fetchAhead s id).canonical := by
  unfold fetchAhead
  split
  · exact h
  · dsimp only
    generalize hr : readWord _ _ _ = r
    have hread : r.canonical := hr ▸ readWord_canonical (freeVal_canonical h)
    split
    · exact modBatch_canonical hread
    · exact freeVal_canonical h

/-! ### Events of a core -/

theorem execBatchMerge_canonical {a b : Nat} : Answers (execBatchMerge a b s) := by
  unfold execBatchMerge
  split
  · split
    · split
      · exact .next (postUE_canonical h)
      · exact .next (joinBatches_canonical h)
    · exact .next h
  · exact .next h

theorem faultWord_canonical {b : Batch} : (faultWord s b).1.canonical := by
  have hf := fetchWord_canonical (b := b) h
  unfold faultWord
  split
  · exact h
  · split
    · next e => rw [e] at hf; exact hf
    · exact freeVal_canonical h

theorem landTrap_canonical {x : Batch} {c : Cause} : (landTrap s x c).canonical := by
  unfold landTrap
  dsimp only
  split
  · exact canonical_ite (modBatch_canonical (countUE_canonical h)) (raise_canonical h)
  · have hw := faultWord_canonical (b := x) h
    exact canonical_ite (modBatch_canonical (countUE_canonical hw)) (raise_canonical hw)

theorem execParkResume_canonical {b : Nat} : Answers (execParkResume b s) := by
  unfold execParkResume
  split
  · exact .next h
  · next x _ =>
    split
    · have hl := modBatch_canonical (i := b) (f := fun c => { c with parked := false })
        (landAll_canonical (bid := b) (drainStores_canonical _ b (perfAdd_canonical (i := x.crew) (j := 2) (n := s.clock - x.parkedAt) h)))
      dsimp only
      split
      · exact .next (landTrap_canonical hl)
      · exact .next hl
    · exact .next h

theorem execSleepEnd_canonical {b : Nat} : Answers (execSleepEnd b s) := by
  unfold execSleepEnd
  split
  · exact .next h
  · split
    · exact .next (modBatch_canonical h)
    · exact .next h

theorem execTrapEntry_canonical {b : Nat} : Answers (execTrapEntry b s) := by
  unfold execTrapEntry
  split
  · exact .next h
  · split
    · exact .next h
    · split
      · exact .next (takeTrap_canonical h)
      · exact .next h

omit h in
theorem reloadReg_canonical {b : Batch} {r : Acc} {i : Nat} (hr : r.canonical) : (reloadReg b r i).canonical := by
  unfold reloadReg
  split
  · dsimp only
    generalize hq : checkMem _ _ _ _ _ _ _ = q
    have hcheck : q.canonical := hq ▸ checkMem_canonical hr
    split
    · exact canonical_foldl _ (fun _ _ h => by exact modBatch_canonical (loadLoc_canonical _ _ _ _ h)) _ _ hcheck
    · exact hcheck
  · exact hr

theorem withBatches_canonical {bs : List Batch} : ({ s with batches := bs } : State).canonical := h

theorem takeSetAgain_canonical {b : Batch} {x : XSet} : AllCanonical (takeSetAgain s b x) := by
  have hout : ∀ out : Acc, out.canonical → ∀ ps : List Batch,
      (ps.foldl (fun r p => (List.range p.xregs.length).foldl (reloadReg p) r) out).canonical :=
    fun out ho ps => Acc.canonical_foldl (fun _ _ h => Acc.canonical_foldl (fun _ _ h => reloadReg_canonical h) _ _ h) ps out ho
  unfold takeSetAgain
  dsimp only
  generalize hr : List.foldl _ _ _ = r
  have hreload : r.canonical := by
    subst hr
    refine hout _ ?_ _
    split
    · exact h
    · have hev := fun n => evict_canonical (x := hwExec s b) (holder := n) h
      split
      · next n _ _ _ _ e => have hn := hev n; rw [e] at hn; exact markEvicted_canonical hn
      · exact hev _
  split
  · exact .none
  · exact .some (raise_canonical (unqueueSet_canonical (faultWord_canonical hreload)))
  · exact .some (withBatches_canonical (modXSet_canonical hreload))

theorem reacquired_canonical {b : Batch} : AllCanonical (reacquired s b) := by
  unfold reacquired
  split
  · exact .none
  · split
    · exact .none
    · split
      · split
        · split
          · exact .some (postUE_canonical h)
          · exact .none
        · exact takeSetAgain_canonical (queueSet_canonical h)
      · split
        · exact .none
        · exact .some (queueSet_canonical h)

theorem execXsetReacquire_canonical {b : Nat} : Answers (execXsetReacquire b s) := by
  unfold execXsetReacquire
  split
  · exact .next h
  · next x _ =>
    cases hr : reacquired s x with
    | none => exact .next h
    | some t => exact .next (reacquired_canonical h t hr)

theorem execWatchdog_canonical {b : Nat} : Answers (execWatchdog b s) := by
  unfold execWatchdog
  split
  · cases findCrew s b with
    | none => exact .next h
    | some c => exact .next (dropOverdue_canonical h)
  · split
    · exact .next h
    · exact .next (raise_canonical (modBatch_canonical (modXSet_canonical (dropWaiters_canonical (endWait_canonical h)))))

theorem performSrc_canonical {b : Batch} {r : LoadSrc} : (performSrc s b r).canonical :=
  modBatch_canonical (withCrews_canonical (loadLoc_canonical _ _ _ _ h))

theorem performLoad_canonical {id i : Nat} : (performLoad s id i).canonical := by
  unfold performLoad
  split
  · exact h
  · exact canonical_ite (canonical_foldl _ (fun _ _ h => by exact performSrc_canonical h) _ _ h) h

theorem performLate_canonical {id i : Nat} : (performLate s id i).canonical := by
  unfold performLate
  split
  · exact h
  · exact canonical_ite (performThose_canonical _ _ _ h) h

theorem deferStores_canonical {id : Nat} : (deferStores s id).canonical := modBatch_canonical h

theorem execNonInstructionEncoding_canonical {w : W64} : Answers (execNonInstructionEncoding w s) := by
  unfold execNonInstructionEncoding
  split
  · exact .refused
  · exact .next (raise_canonical (startRegion_canonical h))

/-! ### Words that only give results -/

theorem laneOp_canonical {w : FWord} {sp : Spec} {f : Exec → Eff} (hf : ∀ x : Exec, x.s.canonical → (f x).canonical) :
    Answers (laneOp s w sp f) := runF_canonical h fun x hx => Eff.canonical_ite hx (hf x hx)

theorem execShfl_canonical {w : FWord} : Answers (execShfl w s) := laneOp_canonical h fun x hx => by
  split
  · exact hx
  · trivial

theorem execVote_canonical {w : FWord} : Answers (execVote w s) := laneOp_canonical h fun x hx => by
  dsimp only
  split <;> trivial

theorem alu_canonical {w : FWord} {sp : Spec} {srcs : List Fld} {f : Exec → Nat → W32} : Answers (alu s w sp srcs f) :=
  runF_canonical h fun _ _ => trivial

theorem arithF_canonical {op : Nat} {w : FWord} {aff : RegVal → RegVal → Option RegVal} {f : Int → Int → Int} :
    Answers (arithF s op w aff f) := runF_canonical h fun _ _ => trivial

theorem arithI_canonical {op : Nat} {w : IWord} {aff : RegVal → RegVal → Option RegVal} {f : Int → Int → Int} :
    Answers (arithI s op w aff f) := runI_canonical h fun _ _ => trivial

theorem aluI_canonical {op : Nat} {w : IWord} {f : W32 → W32 → W32} : Answers (aluI s op w f) := runI_canonical h fun _ _ => trivial

theorem fpu_canonical {w : FWord} {sp : Spec} {srcs : List Fld} {f : Exec → Nat → Nat × Nat} : Answers (fpu s w sp srcs f) :=
  runF_canonical h fun _ _ => trivial

theorem fpuI_canonical {op : Nat} {w : IWord} {f : Nat → Nat → Nat × Nat} : Answers (fpuI s op w f) :=
  runI_canonical h fun _ _ => trivial

theorem execPair_canonical {w : PWord} : Answers (execPair w s) := runWord_canonical h fun _ _ => trivial

theorem execBarq_canonical {w : FWord} : Answers (execBarq w s) := runF_canonical h fun x hx => by
  split
  · exact hx
  · trivial

theorem execCbq_canonical {w : FWord} : Answers (execCbq w s) := runF_canonical h fun x hx => by
  split
  · exact hx
  · trivial

theorem execTlq_canonical {w : FWord} : Answers (execTlq w s) := runF_canonical h fun x hx => by
  split
  · exact hx
  · trivial

theorem execEvq_canonical {w : FWord} : Answers (execEvq w s) := runF_canonical h fun x hx => by
  split
  · exact hx
  · trivial

theorem execSysrd_canonical {w : FWord} : Answers (execSysrd w s) := by
  unfold execSysrd
  refine runF_canonical h fun x hx => ?_
  dsimp only
  split <;> trivial

/-! ### Ray queries -/

theorem rayNode_canonical {α : Type} {x : Exec} {l va : Nat} : (rayNode x s l va : RayAns α).canonical := h

theorem rayPart_canonical {x : Exec} {l va m : Nat} : (rayPart x s l va m).canonical := by
  have haddr := checkAddrs_canonical (x := { x with s := s, act := [l] }) h (u := .load) (bytes := m) (atHome := false) (addr := fun _ => va)
  unfold rayPart
  refine RayAns.canonical_ite (translate_canonical h) ?_
  split
  · next e => rw [e] at haddr; exact haddr
  · next e => rw [e] at haddr; exact haddr
  · next t locs e =>
    rw [e] at haddr
    have hgen := checkGen_canonical (x := { x with s := s, act := [l] }) (atHome := false) (addr := fun _ => va) (locs := locs) haddr
    split
    · next e => rw [e] at hgen; exact hgen
    · next e => rw [e] at hgen; exact hgen
    · next e =>
      rw [e] at hgen
      split
      · exact loadLoc_canonical _ _ _ _ hgen
      · exact hgen

theorem rayRead_canonical {x : Exec} {l va n : Nat} : (rayRead x s l va n).canonical :=
  RayAns.canonical_ite (rayNode_canonical h) (RayAns.andThen_canonical (rayPart_canonical h) fun _ _ h =>
    RayAns.canonical_ite h (RayAns.andThen_canonical (rayPart_canonical h) fun _ _ h => h))

theorem readLeaf_canonical {x : Exec} {l va : Nat} : (readLeaf x s l va).canonical :=
  RayAns.andThen_canonical (rayRead_canonical h) fun _ _ h => RayAns.canonical_ite h (rayNode_canonical h)

theorem readHead_canonical {x : Exec} {l va : Nat} : (readHead x s l va).canonical :=
  RayAns.canonical_ite (rayNode_canonical h) (RayAns.andThen_canonical (rayPart_canonical h) fun _ _ h =>
    RayAns.canonical_ite h (rayNode_canonical h))

omit h in
theorem rayWalk_canonical {x : Exec} {l : Nat} {r : Ray} (fuel : Nat) : ∀ {s : State} {stack : List (Bool × Nat)} {best : Option RayBest}
    {t : Nat}, s.canonical → (rayWalk x l r fuel s stack best t).canonical := by
  induction fuel with
  | zero =>
    intro s stack best t h
    cases stack <;> exact h
  | succ fuel ih =>
    intro s stack best t h
    match stack with
    | [] => exact h
    | (leaf, va) :: stack =>
      unfold rayWalk
      refine RayAns.canonical_ite ?_ ?_
      · exact RayAns.andThen_canonical (readLeaf_canonical h) fun _ _ h => RayAns.canonical_ite h (ih h)
      · refine RayAns.andThen_canonical (rayRead_canonical h) fun _ _ h => ?_
        exact RayAns.canonical_ite (rayNode_canonical h) (RayAns.canonical_ite (rayNode_canonical h) (ih h))

omit h in
theorem rayLanes_canonical {x : Exec} (hx : x.s.canonical) {f : State → Nat → RayAns (List W32)}
    (hf : ∀ s l, s.canonical → (f s l).canonical) {n : Nat} : (rayLanes x f n).canonical := by
  unfold rayLanes
  dsimp only
  generalize hr : List.foldl _ (_, _) x.act = r
  have hfold : r.1.canonical := by
    subst hr
    refine canonical_foldl_fst (fun p l hp => ?_) _ _ (useEngines_canonical hx)
    have hl := hf p.1 l hp
    split
    · next e => rw [e] at hl; exact hl
    · next e => rw [e] at hl; exact hl
    · next e => rw [e] at hl; exact hl
  split
  · exact hfold
  · exact hfold
  · split <;> exact hfold
  · exact hfold

theorem execRayq_canonical {w : FWord} : Answers (execRayq w s) := by
  unfold execRayq
  refine runF_canonical h fun x hx => rayLanes_canonical hx fun s l h => ?_
  exact RayAns.canonical_ite h (RayAns.andThen_canonical (rayWalk_canonical _ h) fun _ _ h => h)

theorem execRayrd_canonical {w : FWord} : Answers (execRayrd w s) := by
  unfold execRayrd
  refine runF_canonical h fun x hx => rayLanes_canonical hx fun s l h => ?_
  exact RayAns.andThen_canonical (readHead_canonical h) fun _ _ h =>
    RayAns.canonical_ite h (RayAns.andThen_canonical (readLeaf_canonical h) fun _ _ h => h)

end

/-! Every instruction and every move keep memory canonical (O8). -/

section
variable {s : State} (h : s.canonical)
include h

theorem logic1_canonical {op : Nat} {w : FWord} {f : W32 → W32} : Answers (logic1 s op w f) := alu_canonical h

theorem logic2_canonical {op : Nat} {w : FWord} {f : W32 → W32 → W32} : Answers (logic2 s op w f) := alu_canonical h

theorem sfu_canonical {op : Nat} {w : FWord} {rnd : Bool} {f : Fmt → Nat → FVal → Nat × Nat} : Answers (sfu s op w rnd f) := fpu_canonical h

/-! ### Instructions and moves -/

theorem exec_canonical (i : Instr) : Answers (exec i s) := by
  cases i with
  | iadd w | isub w | imul w => unfold exec; exact arithF_canonical h
  | iaddI w | imulI w => unfold exec; exact arithI_canonical h
  | iaddx w => unfold exec execIaddx; exact runF_canonical h fun _ _ => trivial
  | imulh w | imad w | idiv w | irem w | imin w | imax w | iabs w | ineg w | iclamp w | lop3 w | fshf w | bfx w | bfi w
  | bperm w | fclass w | idot4 w => unfold exec; exact alu_canonical h
  | imadw w => unfold exec execImadw; exact runF_canonical h fun _ _ => trivial
  | lea w => unfold exec execLea; exact runF_canonical h fun _ _ => trivial
  | add64 w => unfold exec execAdd64; exact runF_canonical h fun _ _ => trivial
  | add64I w => unfold exec execAdd64I; exact runI_canonical h fun _ _ => trivial
  | sub64 w => unfold exec execSub64; exact runF_canonical h fun _ _ => trivial
  | mov w => unfold exec execMov; exact runF_canonical h fun _ _ => trivial
  | movi w => unfold exec execMovi; exact runI_canonical h fun _ _ => trivial
  | movhi w => unfold exec execMovhi; exact runI_canonical h fun _ _ => trivial
  | sel w => unfold exec execSel; exact runF_canonical h fun _ _ => trivial
  | andB w | orB w | xorB w | andnB w | shl w | shr w | shra w | rot w => unfold exec; exact logic2_canonical h
  | andBI w | orBI w | xorBI w | shlI w | shrI w | shraI w => unfold exec; exact aluI_canonical h
  | popc w | clz w | brev w => unfold exec; exact logic1_canonical h
  | icmp w => unfold exec execIcmp; exact runF_canonical h fun _ _ => trivial
  | icmpi w => unfold exec execIcmpi; exact runI_canonical h fun _ _ => trivial
  | plop w => unfold exec execPlop; exact runF_canonical h fun _ _ => trivial
  | pmovr w => unfold exec execPmovr; exact runF_canonical h fun _ _ => trivial
  | pmovp w => unfold exec execPmovp; exact runF_canonical h fun _ _ => trivial
  | bra w => exact execBra_canonical h
  | bri w => exact execBri_canonical h
  | loop w => exact execLoop_canonical h
  | call w => exact execCall_canonical h
  | calli w => exact execCalli_canonical h
  | ret w => exact execRet_canonical h
  | quit w => exact execQuit_canonical h
  | fork w => exact execFork_canonical h
  | gather w => exact execGather_canonical h
  | unpin w | yield w | shapeg w => unfold exec; exact runF_canonical h fun _ hx => Eff.done_canonical (modBatch_canonical hx)
  | sleep w => exact execSleep_canonical h
  | nop w => unfold exec execNop; exact runF_canonical h fun _ _ => trivial
  | pair w => exact execPair_canonical h
  | fadd w | fsub w | fmul w | fma w | fmin w | fmax w | frnd w | fscale w | fcvt w | fpack2 w | funpk2 w | fma2 w | fadd2 w
  | fmul2 w | fdot2 w => unfold exec; exact fpu_canonical h
  | faddI w | fmulI w => unfold exec; exact fpuI_canonical h
  | fcmp w => unfold exec execFcmp; exact runF_canonical h fun _ _ => trivial
  | frcp w | frsq w | fsqrt w | fex2 w | flg2 w | fsin w | fcos w | ftanh w => unfold exec; exact sfu_canonical h
  | fpxrd w => unfold exec execFpxrd; exact runF_canonical h fun _ _ => trivial
  | fpxset w => unfold exec; exact runF_canonical h fun _ hx => Eff.done_canonical (modCrew_canonical hx)
  | shfl w => exact execShfl_canonical h
  | vote w => exact execVote_canonical h
  | redl w | scanl w | matchL w => unfold exec; exact laneOp_canonical h fun _ _ => trivial
  | ld w => exact execLd_canonical h
  | st w => exact execSt_canonical h
  | ldl w => exact execLdl_canonical h
  | stl w => exact execStl_canonical h
  | ldsp w => exact execLdsp_canonical h
  | stsp w => exact execStsp_canonical h
  | lda w => exact execLda_canonical h
  | strel w => exact execStrel_canonical h
  | atom w => exact execAtom_canonical h
  | red w => exact execRed_canonical h
  | fence w => exact execFence_canonical h
  | pref w => exact execPref_canonical h
  | barinit w => exact execBarinit_canonical h
  | bararr w => exact execBararr_canonical h
  | barwait w => exact execBarwait_canonical h
  | barsync w => exact execBarsync_canonical h
  | barexp w => exact execBarexp_canonical h
  | barq w => exact execBarq_canonical h
  | cbinit w => exact execCbinit_canonical h
  | cbacq w => exact execCbacq_canonical h
  | cbrel w => exact execCbrel_canonical h
  | cbput w => exact execCbput_canonical h
  | cbq w => exact execCbq_canonical h
  | tlwait w => exact execTlwait_canonical h
  | tlq w => exact execTlq_canonical h
  | freeze w => exact execFreeze_canonical h
  | freezeL w => exact execFreezeL_canonical h
  | shape w => unfold exec execShape; exact runF_canonical h fun _ _ => trivial
  | xacq w => exact execXacq_canonical h
  | xrel w => exact execXrel_canonical h
  | accgrow w => exact execAccgrow_canonical h
  | accfree w => exact execAccfree_canonical h
  | wload w => exact execWload_canonical h
  | wswap w => exact execWswap_canonical h
  | wtab w => exact execWtab_canonical h
  | wwait w => exact execWwait_canonical h
  | mmq w => exact execMmq_canonical h
  | accz w => exact execAccz_canonical h
  | accrd w => exact execAccrd_canonical h
  | accwr w => exact execAccwr_canonical h
  | drain w => exact execDrain_canonical h
  | drainst w => exact execDrainst_canonical h
  | wstat w => exact execWstat_canonical h
  | wbmap w => unfold exec execWbmap; exact runF_canonical h fun _ _ => trivial
  | fluesub w => exact execFluesub_canonical h
  | fluesubRst w => exact execFluesubRst_canonical h
  | evsig w => exact execEvsig_canonical h
  | evsigI w => exact execEvsigI_canonical h
  | evsigClr w => exact execEvsigClr_canonical h
  | evwait w => exact execEvwait_canonical h
  | evwaitI w => exact execEvwaitI_canonical h
  | evq w => exact execEvq_canonical h
  | spawn w => exact execSpawn_canonical h
  | tladv w => exact execTladv_canonical h
  | fillarg w => exact execFillarg_canonical h
  | fillput w => exact execFillput_canonical h
  | filldone w => exact execFilldone_canonical h
  | fillfail w => exact execFillfail_canonical h
  | geninv w => exact execGeninv_canonical h
  | cutsel w => exact execCutsel_canonical h
  | cutselRst w => exact execCutselRst_canonical h
  | rayq w => exact execRayq_canonical h
  | rayrd w => exact execRayrd_canonical h
  | sysrd w => exact execSysrd_canonical h
  | csrrd w => unfold exec execCsrrd; exact runF_canonical h fun _ _ => trivial
  | csrwr w => exact execCsrwr_canonical h
  | csrswp w => exact execCsrswp_canonical h
  | trap w => exact execTrap_canonical h
  | bkpt w => exact execBkpt_canonical h
  | tret w => exact execTret_canonical h
  | clock w => unfold exec execClock; exact runF_canonical h fun _ _ => trivial
  | perfrd w => unfold exec execPerfrd; exact runF_canonical h fun _ _ => trivial
  | pgbump w => exact execPgbump_canonical h
  | pgnew w => exact execPgnew_canonical h
  | tlbepoch w => exact execTlbepoch_canonical h
  | halt w => exact execHalt_canonical h
  | wsremap w => exact execWsremap_canonical h
  | monctlCfg w => exact execMonctlCfg_canonical h
  | monctlClr w => exact execMonctlClr_canonical h
  | monctlRd w => exact execMonctlRd_canonical h
  | batchMerge a b => exact execBatchMerge_canonical h
  | parkResume b => exact execParkResume_canonical h
  | xsetReacquire b => exact execXsetReacquire_canonical h
  | sleepEnd b => exact execSleepEnd_canonical h
  | trapEntry b => exact execTrapEntry_canonical h
  | watchdog b => exact execWatchdog_canonical h
  | wloadComplete core => exact execWloadComplete_canonical h
  | wtabTableArrival core idx => exact execWtabTableArrival_canonical h
  | planeExchange core => exact execPlaneExchange_canonical h
  | passClose core => exact execPassClose_canonical h
  | passComplete core => exact execPassComplete_canonical h
  | preemptCluster cl => exact execPreemptCluster_canonical h
  | clusterRestore => exact execClusterRestore_canonical h
  | clusterPlace => exact execClusterPlace_canonical h
  | classAging cl => exact execClassAging_canonical h
  | slabConvert core => exact execSlabConvert_canonical h
  | slabReturn core => exact execSlabReturn_canonical h
  | triggerWrite v => unfold exec; exact .next (writeTrigger_canonical h)
  | graphRunStart ctx => exact execGraphRunStart_canonical h
  | nodeStart g n => exact execNodeStart_canonical h
  | nodeSubmitDeferred g n => exact execNodeSubmitDeferred_canonical h
  | nodeComplete g n => exact execNodeComplete_canonical h
  | pipelineReassign g n => exact execPipelineReassign_canonical h
  | nodeWaitRetry g n => exact execNodeWaitRetry_canonical h
  | flueStream c | flueCopy c | flueGatherrows c | flueStore c | flueFillv c | flueLoop c | flueEndloop c | flueTlwait c
  | flueTladv c | flueEvsig c | flueBararr c | flueEnd c | flueCmdInvalid c | flueWindowDelivery c =>
    unfold exec; exact flueStep_canonical h
  | flueContextResume c => exact execFlueContextResume_canonical h
  | cutRun c => exact execCutRun_canonical h
  | fillPlace depth core => exact execFillPlace_canonical h
  | fillArrayBorrow b => exact execFillArrayBorrow_canonical h
  | fillTimeout r => exact execFillTimeout_canonical h
  | genEntrySubmit entry t1 => unfold exec; exact .next (submitEntry_canonical h)
  | genEntryInvalidate entry t1 => unfold exec; exact .next (invalidateEntry_canonical h)
  | victimStoreConfig cfg v => unfold exec; exact .next (writeVictimStore_canonical h)
  | lineWriteback core line => unfold exec; exact .next (writeBack_canonical _ _ _ h)
  | remapStepEnd col => exact execRemapStepEnd_canonical h
  | bankRetire col bank => exact execBankRetire_canonical h
  | engineGate e => exact execEngineGate_canonical h
  | engineWake e => exact execEngineWake_canonical h
  | thermalTrip => exact execThermalTrip_canonical h
  | ctxHalt c | ctxCreate c | ctxResume c | ctxDestroy c | ctxTlset c id => unfold exec; exact .next (writeCmd_canonical h)
  | ctxHalted c => exact execCtxHalted_canonical h
  | ctxFreed c => exact execCtxFreed_canonical h
  | deviceReset => exact execDeviceReset_canonical h
  | powerLoss => unfold exec; exact .next (afterPowerLoss_canonical h)
  | nonInstructionEncoding w => exact execNonInstructionEncoding_canonical h
  | recordLineArrival core => exact execRecordLineArrival_canonical h
  | padFail col pad => exact execPadFail_canonical h
  | powerInterval p => exact execPowerInterval_canonical h
  | ctxCmdInvalid c code => exact execCtxCmdInvalid_canonical h
  | cmderrClear c => unfold exec; exact .next (clearCmdErr_canonical h)
  | registerWrite off v => unfold exec; exact .next (ioWrite_canonical h)
  | hostMemAccess a | peerAccess a => unfold exec; exact busAccess_canonical h
  | linkFail link => exact execLinkFail_canonical h
  | vblank o => exact execVblank_canonical h
  | dpLinkTrain o rate lanes fits => exact execDpLinkTrain_canonical h
  | attgo => exact execAttgo_canonical h
  | firmwareImage img => exact execFirmwareImage_canonical h
  | linkRetry link up => exact execLinkRetry_canonical h
  | hpdChange o present => exact execHpdChange_canonical h

theorem beginIssue_canonical {b : Batch} : (beginIssue s b).canonical := by
  unfold beginIssue
  refine canonical_ite h ?_
  have hw := modBatch_canonical (i := b.id)
    (f := fun c => { c with
      lastIssue := s.clock
      issued := some s.clock
      block := if fetchWaits b then none else c.block })
    (modCore_canonical (i := b.core) (f := fun k => { k with quadLast := kvSet k.quadLast (b.slot / 8) s.clock })
      (canonical_ite (c := fetchWaits b) (endWait_canonical (b := b) h) h))
  exact ⟨hw.1, hw.2⟩

theorem withFills_canonical {fs : List Fill} {n : Nat} : ({ s with fills := fs, nextId := n } : State).canonical := h

theorem fetchWait_canonical {u : State} {b : Batch} {f g : Nat} : (fetchWait s u b f g).canonical :=
  blockOn_canonical (modBatch_canonical (freeVal_canonical (withFills_canonical h)))

theorem issueWord_canonical {id : Nat} : Answers (issueWord s id) := by
  unfold issueWord
  split
  · exact .refused
  · next b _ =>
    have hf := fetchWord_canonical (b := b) (beginIssue_canonical (b := b) h)
    split
    · next e => rw [e] at hf; exact .next (raise_canonical (freeVal_canonical hf))
    · next e =>
      rw [e] at hf
      split
      · exact .next (fetchWait_canonical h)
      · exact .next (blockOn_canonical hf)
    · next t w e =>
      rw [e] at hf
      dsimp only
      generalize hr : ite (b.restored = true) _ t = u
      have hu : u.canonical := hr ▸ canonical_ite (modBatch_canonical hf) hf
      split
      · exact .next (raise_canonical hu)
      · exact exec_canonical hu _

theorem performInput_canonical : Answers (perform s .input) := by
  show Answers (match s.agenda with | [] => .next s | i :: r => exec i { s with agenda := r })
  split
  · exact .next h
  · refine exec_canonical ?_ _
    exact h

theorem performDeliver_canonical : Answers (perform s .deliver) := by
  show Answers (match s.posted with | [] => .next s | (ctx, crew, code) :: r => .next (fatalError { s with posted := r } ctx crew code))
  split
  · exact .next h
  · refine .next (fatalError_canonical ?_)
    exact h

theorem perform_canonical (m : Move) : Answers (perform s m) := by
  cases m with
  | issue b => exact issueWord_canonical h
  | event i => exact exec_canonical h i
  | input => exact performInput_canonical h
  | deliver => exact performDeliver_canonical h
  | tick => exact .next (tickClock_canonical h)
  | perform b i => exact .next (performLoad_canonical h)
  | performStore b i => exact .next (performLate_canonical h)
  | defer b => exact .next (deferStores_canonical h)
  | fetchAhead b => exact .next (fetchAhead_canonical h)
  | replace core key => exact .next (replaceLine_canonical h)

theorem step_canonical : Answers (step s) := by
  unfold step
  split
  · exact perform_canonical h _
  · exact perform_canonical (freePick_canonical h) _

end

/-- Settles O7. -/
theorem resetCanonical : Obligations.ResetCanonical := reset_canonical

/-- Settles O8: every move keeps memory canonical, each instruction by the lemma about it. -/
theorem stepsKeepMemoryCanonical : Obligations.StepsKeepMemoryCanonical := fun _ _ h e => step_canonical h _ e

end Sys2Proof.Machine
end

section
/-! SUPPORT. The home's bytes after a write (O9), and what the raise of a cause leaves (O15, O16). -/
namespace Sys2Proof.Machine
open Sys2Proof

/-! ### Writes at the home (R430, R438, R448) -/

theorem memByte_touchStamps (s : State) (pa n a : Nat) : memByte (touchStamps s pa n) a = memByte s a := by
  unfold touchStamps modStamps
  split <;> rfl

/-- Bytes written one after another from an address on: the fold of `homeWrite`. -/
theorem memByte_putFrom (bs : List Byte) : ∀ (s : State) (pa a : Nat),
    memByte (bs.foldl (fun (p : State × Nat) v => (homePut p.1 p.2 v, p.2 + 1)) (s, pa)).1 a =
      if pa ≤ a ∧ a < pa + bs.length then bs.getD (a - pa) 0 else memByte s a := by
  induction bs with
  | nil => intro s pa a; rw [if_neg (by simp)]; rfl
  | cons v bs ih =>
    intro s pa a
    rw [List.foldl_cons, ih, memByte_homePut, List.length_cons]
    rcases Nat.lt_trichotomy a pa with h | rfl | h
    · rw [if_neg (by omega), if_neg (by omega), if_neg (by omega)]
    · rw [if_neg (by omega), if_pos rfl, if_pos (by omega), Nat.sub_self]; rfl
    · have hnext : a - pa = (a - (pa + 1)) + 1 := by omega
      rw [if_neg (show ¬ a = pa by omega), hnext, List.getD_cons_succ]
      exact if_congr (by omega) rfl rfl

theorem memByte_homeWrite {s : State} {pa : Nat} (h : paLost s pa = false) (bs : List Byte) (a : Nat) :
    memByte (homeWrite s pa bs) a = if pa ≤ a ∧ a < pa + bs.length then bs.getD (a - pa) 0 else memByte s a := by
  unfold homeWrite
  rw [if_neg (by simp [h]), memByte_touchStamps, memByte_mendWords, memByte_putFrom]
  rfl

theorem homeWrite_of_lost {s : State} {pa : Nat} (h : paLost s pa = true) (bs : List Byte) : homeWrite s pa bs = s := if_pos h

theorem homeRead_homeWrite {s : State} {pa : Nat} (h : paLost s pa = false) (bs : List Byte) :
    homeRead (homeWrite s pa bs) pa bs.length = bs := by
  refine List.ext_getElem (by simp [homeRead]) fun i _ hi => ?_
  have hb : memByte (homeWrite s pa bs) (pa + i) = bs[i] := by
    rw [memByte_homeWrite h, if_pos (by omega), Nat.add_sub_cancel_left, List.getD_eq_getElem _ _ hi]
  simpa [homeRead] using (show homeByte (homeWrite s pa bs) (pa + i) = bs[i] from hb)

/-- Settles O9. -/
theorem homeWriteThenRead : Obligations.HomeWriteThenRead := by
  intro s pa bs
  refine ⟨fun h => homeRead_homeWrite h bs, fun a ha => ?_, fun h => homeWrite_of_lost h bs⟩
  cases h : paLost s pa with
  | true => rw [homeWrite_of_lost h]
  | false => rw [memByte_homeWrite h, if_neg (by omega)]

/-! ### A cause that is raised (R457) -/

/-- What counts and notes of errors, and the tiles of a batch, may change: the parts of the machine that a raise leaves open. -/
def Noted (s t : State) : Prop :=
  t = { s with crews := t.crews, cores := t.cores, upsets := t.upsets, bankDue := t.bankDue }

theorem Noted.refl (s : State) : Noted s s := rfl

theorem Noted.eq {s t : State} (h : Noted s t) :
    t = { s with crews := t.crews, cores := t.cores, upsets := t.upsets, bankDue := t.bankDue } := h

theorem Noted.trans {s t u : State} (h : Noted s t) (k : Noted t u) : Noted s u :=
  k.eq.trans (congrArg (fun v : State => { v with crews := u.crews, cores := u.cores, upsets := u.upsets, bankDue := u.bankDue }) h.eq)

theorem Noted.batches {s t : State} (h : Noted s t) : t.batches = s.batches := (congrArg State.batches h.eq).trans rfl

theorem Noted.ctxs {s t : State} (h : Noted s t) : t.ctxs = s.ctxs := (congrArg State.ctxs h.eq).trans rfl

theorem Noted.clock {s t : State} (h : Noted s t) : t.clock = s.clock := (congrArg State.clock h.eq).trans rfl

theorem Noted.findBatch {s t : State} (h : Noted s t) (id : Nat) : findBatch t id = findBatch s id := by
  unfold Machine.findBatch; rw [h.batches]

theorem Noted.of_countUE (s : State) (core : Nat) (c : Cause) : Noted s (countUE s core c) := by
  unfold countUE; split <;> rfl

theorem Noted.of_noteBanks (s : State) (ws : List Nat) : Noted s (noteBanks s ws) := by
  unfold noteBanks; split <;> rfl

theorem Noted.of_clearUpsets (s : State) (p : Upset → Bool) : Noted s (clearUpsets s p) := by
  unfold clearUpsets; split <;> rfl

theorem Noted.of_commitUpsets (s : State) (crew : Nat) (p : Tile → Bool) : Noted s (commitUpsets s crew p) := by
  unfold commitUpsets; split <;> rfl

theorem Noted.of_commitTiles (s : State) (bid : Nat) : Noted s (commitTiles s bid) := by
  unfold commitTiles
  split
  · exact .refl s
  · exact (Noted.of_commitUpsets ..).trans rfl

theorem Noted.of_mendTrapRegs (s : State) (bid : Nat) : Noted s (mendTrapRegs s bid) := by
  unfold mendTrapRegs
  split
  · exact .refl s
  · exact .of_clearUpsets ..

/-- The errors of a cause are noted before the batch parks or its trap is taken. -/
def noted (s : State) (b : Batch) (tr : TrapInfo) : State := noteBanks (if tr.kind = 1 then s else countUE s b.core tr.cause) tr.words

theorem Noted.of_noted (s : State) (b : Batch) (tr : TrapInfo) : Noted s (noted s b tr) := by
  refine Noted.trans ?_ (.of_noteBanks ..)
  split
  · exact .refl s
  · exact .of_countUE ..

theorem noted_crews (s : State) (b : Batch) (tr : TrapInfo) : (noted s b tr).crews = s.crews := by
  have hbanks : ∀ t : State, (noteBanks t tr.words).crews = t.crews := fun t => by
    unfold noteBanks; split <;> rfl
  unfold noted
  rw [hbanks]
  split
  · rfl
  · unfold countUE; split <;> rfl

theorem noted_crewD (s : State) (b : Batch) (tr : TrapInfo) (u : Nat) : crewD (noted s b tr) u = crewD s u := by
  unfold crewD findCrew; rw [noted_crews]

theorem noted_passes (s : State) (b : Batch) (tr : TrapInfo) (core : Nat) : (coreD (noted s b tr) core).passes = (coreD s core).passes := by
  have hue : (coreD (countUE s b.core tr.cause) core).passes = (coreD s core).passes := by
    unfold countUE
    split
    · rw [coreD_modCore]
      split <;> rfl
    · rfl
  have hbanks : ∀ t : State, coreD (noteBanks t tr.words) core = coreD t core := fun t => by
    unfold noteBanks; split <;> rfl
  unfold noted
  rw [hbanks]
  split
  · rfl
  · exact hue

theorem noted_outstanding (s : State) (b : Batch) (tr : TrapInfo) : outstanding (noted s b tr) b = outstanding s b := by
  unfold outstanding hasQuarters; rw [noted_passes]

theorem noted_trapFatal (s : State) (b : Batch) (tr : TrapInfo) : trapFatal (noted s b tr) b tr = trapFatal s b tr := by
  unfold trapFatal ctxD; rw [(Noted.of_noted s b tr).ctxs]

/-- What a raise does: errors are noted, and the batch parks with its cause or takes its trap. -/
theorem raise_eq {s : State} {b : Batch} (hb : findBatch s b.id = some b) (tr : TrapInfo) :
    raise s b.id tr = if outstanding s b then modBatch (noted s b tr) b.id fun b => { b with
        trap := some tr, parked := true, parkedAt := s.clock, block := none, fillWait := [] }
      else takeTrap (noted s b tr) b tr := by
  unfold raise
  rw [hb, ← noted_outstanding s b tr, ← (Noted.of_noted s b tr).clock]
  rfl

/-- Settles O16. -/
theorem trapWaitsForPark : Obligations.TrapWaitsForPark := by
  intro s b tr hb hout
  have hn := Noted.of_noted s b tr
  rw [raise_eq hb, if_pos hout]
  refine ⟨?_, fun id hid => ?_, ?_⟩
  · rw [findBatch_modBatch _ _ _ (by intro _; rfl), hn.findBatch, hb]; rfl
  · rw [findBatch_modBatch_ne _ _ _ _ (by intro _; rfl) hid, hn.findBatch]
  · exact (congrArg State.mem hn.eq).trans rfl

/-! ### Trap entry (R457, Table 20-2) -/

/-- The batch as it enters its handler. -/
def enteredBatch (s : State) (b : Batch) (tr : TrapInfo) : Batch :=
  { b with
    kregs := ((trapRegs b tr).map RegVal.u) ++ b.kregs.drop 10
    window := [], priv := true, pc := BitVec.ofNat 54 ((ctxD s b.ctx).tvec.toNat / 8 * 8), newRegion := true, gatherAt := none
    owed := b.retbuf.length, storesOwed := b.stores.length, parked := false, block := none, trap := none, fillWait := []
    wake := s.clock + 12 }

/-- A batch with nothing outstanding and no task enters its handler once the errors are noted and its tiles committed. -/
theorem raise_enters {s : State} {b : Batch} {tr : TrapInfo} (hb : findBatch s b.id = some b) (hout : outstanding s b = false)
    (hfill : (crewD s b.crew).fill = none) (hfatal : trapFatal s b tr = false) :
    ∃ u, Noted s u ∧ raise s b.id tr = modBatch u b.id fun c => enteredBatch s c tr := by
  have hn := ((Noted.of_noted s b tr).trans (.of_commitTiles _ b.id)).trans (.of_mendTrapRegs _ b.id)
  refine ⟨_, hn, ?_⟩
  rw [raise_eq hb, if_neg (by simp [hout])]
  unfold takeTrap
  rw [noted_crewD, hfill]
  dsimp only
  rw [noted_trapFatal, if_neg (by simp [hfatal])]
  unfold trapEntry enteredBatch ctxD
  dsimp only
  rw [hn.clock, hn.ctxs]

theorem trapRegs_getD (b : Batch) (tr : TrapInfo) (ks : List RegVal) {i : Nat} (hi : i < 10) :
    ((trapRegs b tr).map RegVal.u ++ ks).getD i (.u 0) = .u ((trapRegs b tr).getD i 0) := by
  have hlen : i < (trapRegs b tr).length := hi
  rw [List.getD_append _ _ _ _ (by simpa using hlen), List.getD_eq_getElem _ _ (by simpa using hlen), List.getElem_map,
    List.getD_eq_getElem _ _ hlen]

theorem laneVal_trapRegs (b : Batch) (tr : TrapInfo) (ks : List RegVal) {i : Nat} (hi : i < 10) (l : Nat) :
    laneVal (((trapRegs b tr).map RegVal.u ++ ks).getD i (.u 0)) l = (trapRegs b tr).getD i 0 := by
  rw [trapRegs_getD b tr ks hi]; rfl

/-- A field of a word that is a sum of fields, by the number below it and the fields above it. -/
theorem extract_ofNat {n lo w v : Nat} (hw : lo + w ≤ 32) (h : n / 2 ^ lo % 2 ^ w = v % 2 ^ w) :
    (BitVec.ofNat 32 n).extractLsb' lo w = BitVec.ofNat w v := by
  refine BitVec.eq_of_toNat_eq ?_
  rw [BitVec.extractLsb'_toNat, BitVec.toNat_ofNat, BitVec.toNat_ofNat, Nat.shiftRight_eq_div_pow, ← h]
  have hsplit : 2 ^ 32 = 2 ^ lo * 2 ^ (32 - lo) := by rw [← pow_add]; congr 1; omega
  rw [hsplit, Nat.mod_mul_right_div_self, Nat.mod_mod_of_dvd _ (pow_dvd_pow 2 (by omega))]

theorem ofNat_extract (w : W64) (lo : Nat) : BitVec.ofNat 32 (w.toNat / 2 ^ lo) = w.extractLsb' lo 32 := by
  refine BitVec.eq_of_toNat_eq ?_
  rw [BitVec.extractLsb'_toNat, BitVec.toNat_ofNat, Nat.shiftRight_eq_div_pow]

theorem code_lt (c : Cause) : c.code < 256 := by cases c <;> decide

theorem headLane_lt (m : W32) : (lanesOf m).headD 0 < 32 := by
  cases h : lanesOf m with
  | nil => decide
  | cons l ls =>
    have hl : l ∈ lanesOf m := h ▸ List.mem_cons_self
    exact List.mem_range.mp (List.mem_of_mem_filter hl)

/-- The words of trap entry, as Table 20-2 lays them out. -/
theorem entered_of_modBatch {s u : State} {b : Batch} {tr : TrapInfo} (hb : findBatch s b.id = some b) (hn : Noted s u) :
    Entered s (modBatch u b.id fun c => enteredBatch s c tr) b (enteredBatch s b tr) tr := by
  have hword : ∀ i, i < 10 → ∀ l, laneVal ((enteredBatch s b tr).kregs.getD i (.u 0)) l = (trapRegs b tr).getD i 0 :=
    fun i hi l => laneVal_trapRegs b tr _ hi l
  have hcode := code_lt tr.cause
  have hlane := headLane_lt tr.lanes
  have hvalid : (if tr.lanes = 0 then 0 else 1) < 2 := by split <;> decide
  exact
    { now := by rw [findBatch_modBatch _ _ _ (by intro _; rfl), hn.findBatch, hb]; rfl
      same := rfl
      pc := by
        show (BitVec.ofNat 54 _).toNat = _
        rw [BitVec.toNat_ofNat]
        omega
      rpc := fun l => ⟨hword 0 (by decide) l, hword 1 (by decide) l⟩
      wb := hword 2 (by decide)
      cause := fun l => by
        rw [hword 3 (by decide) l]
        exact extract_ofNat (by decide) (by omega)
      lane := fun l => by
        rw [hword 3 (by decide) l]
        refine ⟨?_, extract_ofNat (by decide) (by omega)⟩
        show (BitVec.ofNat 32 _).getLsbD 13 = _
        rw [BitVec.getLsbD_ofNat, decide_eq_true (by decide), Bool.true_and, Nat.testBit_eq_decide_div_mod_eq]
        refine decide_eq_decide.mpr ?_
        split
        · next hl => exact iff_of_false (by omega) (not_not_intro hl)
        · next hl => exact iff_of_true (by omega) hl
      kind := fun hk l => by
        rw [hword 3 (by decide) l]
        exact ⟨extract_ofNat (by decide) (by omega), extract_ofNat (by decide) (by omega)⟩
      addr := fun l => ⟨hword 4 (by decide) l, hword 5 (by decide) l⟩
      lanes := hword 6 (by decide)
      src := fun h1 h2 h3 h4 l => by
        rw [hword 7 (by decide) l]
        exact ⟨extract_ofNat (by decide) (by omega), extract_ofNat (by decide) (by omega), extract_ofNat (by decide) (by omega),
          extract_ofNat (by decide) (by omega)⟩
      word := fun l => by
        rw [hword 8 (by decide) l, hword 9 (by decide) l]
        exact ⟨(congrArg (BitVec.ofNat 32) (Nat.div_one _).symm).trans (ofNat_extract tr.word 0), ofNat_extract tr.word 32⟩
      uniform := fun i hi => by
        show isUni (((trapRegs b tr).map RegVal.u ++ _).getD i (.u 0)) = true
        rw [trapRegs_getD b tr _ hi]
        rfl
      kept := fun i hi => by
        show ((trapRegs b tr).map RegVal.u ++ b.kregs.drop 10).getD i (.u 0) = _
        rw [List.getD_append_right _ _ _ _ (by simpa [trapRegs] using hi)]
        simp only [List.getD_eq_getElem?_getD, List.getElem?_drop]
        congr 2
        exact Nat.add_sub_cancel' hi
      others := fun id hid => by rw [findBatch_modBatch_ne _ _ _ _ (by intro _; rfl) hid, hn.findBatch]
      rest := congrArg (fun v : State => { v with batches := (modBatch u b.id fun c => enteredBatch s c tr).batches }) hn.eq }

/-- Settles O15. -/
theorem trapEntryHolds : Obligations.TrapEntry := by
  intro s b tr hb hout hfill hfatal
  obtain ⟨u, hn, hr⟩ := raise_enters hb hout hfill hfatal
  exact ⟨_, hr ▸ entered_of_modBatch hb hn⟩

end Sys2Proof.Machine
end

section
/-! SUPPORT. Accesses of the host and of peers (R447, R491), and the command register of the device (R441, R446). -/
namespace Sys2Proof.Machine
open Sys2Proof

/-! ### Accesses of bus agents -/

/-- What an access answers is what the table says of it, where the table says anything. -/
theorem busAccess_of_onBus {s t : State} {peer : Bool} {a : BusAccess} {e : EventEffect} (he : onBus peer a = some e) (ht : e s = some t) :
    busAccess s peer a = .next t := by
  obtain rfl := Option.some.inj he
  dsimp only at ht
  unfold busAccess
  split_ifs at ht ⊢
  · exact congrArg _ (Option.some.inj ht)
  · split at ht
    case h_1 hrange =>
      rw [hrange]
      exact congrArg Host.Outcome.next (Option.some.inj ht)
    case h_2 hrange =>
      rw [hrange]
      exact congrArg Host.Outcome.next (Option.some.inj ht)
    · cases ht

/-- Out of recovery an access to an address that Table 19-1 calls absent stops the model (log 28). -/
theorem busAccess_absent {s : State} {peer : Bool} {a : BusAccess} (hr : s.ident.recov = false)
    (h : busRange s peer a.pa (busBytes a.op) = .absent) : busAccess s peer a = .fault (.absentPA a.pa) := by
  unfold busAccess
  rw [if_neg (by simp [hr]), h]

/-- Settles O58: the two events are one access, of the host or of a peer, and that is the table's row in each of its cases. -/
theorem busEventsHold : Obligations.BusEvents := by
  unfold Obligations.BusEvents
  refine ⟨fun i e he s t ht => ?_, fun a s => busAccess_absent, fun a s => busAccess_absent⟩
  unfold busEvents at he
  split at he
  · exact busAccess_of_onBus he ht
  · exact busAccess_of_onBus he ht
  · cases he

/-! ### A host write to a command register -/

/-- DESTROY by the context's command register gives the slot of the saved crew back, as the command itself does. -/
theorem exec_registerWrite_destroy_frees : nextSlots (exec (.registerWrite 0x10008 4) savedClusterState) = some [] := by decide +kernel

/-- The table keeps it held. -/
theorem registerWritten_destroy_keeps : (ctxD (registerWritten savedClusterState 0x10008 4) 0).flHeld = [5] := by decide +kernel

/-- The write is due: the offset is a multiple of 8 and the device is not in recovery. -/
theorem deviceEvents_registerWrite_destroy {e : EventEffect} (he : deviceEvents (.registerWrite 0x10008 4) = some e) :
    e savedClusterState = some (registerWritten savedClusterState 0x10008 4) := by
  cases Option.some.inj he
  exact if_pos rfl

/-- Refutes O57: a write of DESTROY to the command register of a context with a saved cluster gives back the fibre-local slots of the
cluster's crews, and the table keeps them held. -/
theorem not_deviceEvents : ¬ Obligations.DeviceEvents := by
  unfold Obligations.DeviceEvents
  intro h
  have hnext := (h (.registerWrite 0x10008 4) _ rfl savedClusterState).1 _ (deviceEvents_registerWrite_destroy rfl)
  have hfreed := exec_registerWrite_destroy_frees
  rw [hnext] at hfreed
  exact absurd (registerWritten_destroy_keeps.symm.trans (Option.some.inj hfreed)) (by decide)

end Sys2Proof.Machine
end

section
/-! SUPPORT. The Hearth's events (R381 to R391, R398) against their table. Where the table and the model name the parts of an operation
alike they agree by unfolding; the lemmas below prove the places where the two say one thing in two ways. -/
namespace Sys2Proof.Machine
open Sys2Proof

/-! ### Fill tasks and failed fills (R271, R390, R396) -/

theorem givenBack_eq (k : Core) : givenBack k = match k.lent with
    | some (qa, qs, l) => { restorePlanes k qa qs l k.lentRestored with borrow := none, lent := none, lentRestored := false }
    | none => { k with borrow := none } := by
  unfold givenBack restorePlanes reloadList
  rcases k.lent with _ | ⟨qa, qs, l⟩
  · rfl
  · dsimp only
    rw [List.map_append, List.map_append, apply_ite (List.map _), apply_ite (List.map _)]
    cases l with
    | none => rfl
    | some l =>
      dsimp only
      rw [apply_ite (List.map _)]
      rfl

theorem halfFree_eq (p : Prop) [Decidable p] (b : Bool) : (if p then false else b) = (b && !decide p) := by
  by_cases h : p <;> simp [h]

theorem taskGone_eq : taskGone = freeFillTask := by
  funext s uid
  unfold taskGone freeFillTask
  cases findCrew s uid with
  | none => rfl
  | some c =>
    simp only [halfFree_eq, givenBack_eq]
    rfl

theorem fillFailed_eq : fillFailed = failFill := by
  funext s id cause code
  unfold fillFailed failFill
  rw [taskGone_eq]
  cases findFill s id with
  | none => rfl
  | some f =>
    dsimp only
    refine if_congr Iff.rfl rfl ?_
    unfold addFails failRecord
    generalize monSample _ _ _ _ = u
    cases findFill u id <;> rfl

theorem exec_fillTimeout (r : Nat) (s : State) :
    exec (.fillTimeout r) s = .next (tableNext hearthEvents (.fillTimeout r) s) := by
  show execFillTimeout r s = .next (((findFill s r).bind _).getD s)
  unfold execFillTimeout
  cases findFill s r with
  | none => rfl
  | some f =>
    rw [Option.bind_some, fillFailed_eq, ← next_due]
    exact if_ctx_congr (by simp [fillTimeout]) (fun _ => rfl) fun _ => rfl

/-! ### The start of a fill (R271, R387, R388) -/

theorem fillStarts_eq : fillStarts = startFill := rfl

theorem exec_fillPlace (depth core : Nat) (s : State) :
    exec (.fillPlace depth core) s = .next (tableNext hearthEvents (.fillPlace depth core) s) := by
  show execFillPlace depth core s = .next (((nextFill s depth).bind _).getD s)
  unfold execFillPlace
  cases nextFill s depth with
  | none => rfl
  | some f =>
    rw [Option.bind_some, fillStarts_eq, ← next_due]
    exact if_ctx_congr (by simp) (fun _ => rfl) fun _ => rfl

/-! ### The generator table (R381, R388, R398) -/

/-- The table writes t1 field by field, and the model takes VALID and ERR out of the word and puts the new ones in. -/
theorem entryLeft_eq : entryLeft = entryWord := by
  funext t1 valid err
  unfold entryLeft entryWord bitsOf
  congr 1
  have h := t1.isLt
  cases valid <;> simp <;> omega

theorem failRecord_clock (s : State) (id cause code : Nat) : (failRecord s id cause code).clock = s.clock := by
  unfold failRecord
  split <;> rfl

/-- The table removes the FAILED records of a generator, and the model maps its records. -/
theorem mapFills_failed (s : State) (g : Nat) : mapFills s g (fun r => if r.state = .failed then none else some r) =
    { s with fills := s.fills.filter fun r => !(r.gen == g && r.state == FillState.failed) } := by
  unfold mapFills
  congr 1
  rw [← List.filterMap_eq_filter]
  refine List.filterMap_congr fun r _ => ?_
  by_cases hg : r.gen = g <;> by_cases hs : r.state = .failed <;> simp [Option.guard, hg, hs]

theorem generatorEnds_eq : generatorEnds = endGen := by
  funext s g
  unfold generatorEnds endGen
  rw [mapFills_failed]
  dsimp only
  congr 1
  funext u r
  rw [← failRecord_clock u r.id 0xFF 0xFFFE]
  unfold addFails failRecord
  cases findFill u r.id <;> rfl

theorem generationAdvances_eq : generationAdvances = advanceGen := by
  funext s g
  unfold generationAdvances advanceGen
  dsimp only
  rw [Nat.mod_add_mod]
  rfl

/-- Where the entry exists and the device is not in recovery, the table takes the steps of the model. -/
theorem entrySubmitted_eq {s : State} {i : Nat} (hi : i < 4096) (hr : s.ident.recov = false) (t1 : W64) :
    entrySubmitted s i t1 = submitEntry s i t1 := by
  have hlives : ¬ (4096 ≤ i ∨ s.ident.recov = true) := by simp [hr, hi]
  unfold entrySubmitted submitEntry
  rw [if_neg hlives, generatorEnds_eq, entryLeft_eq, generationAdvances_eq]
  cases entryCode s i t1 <;> rfl

theorem entryInvalidated_eq {s : State} {i : Nat} (hi : i < 4096) (hr : s.ident.recov = false) (t1 : W64) :
    entryInvalidated s i t1 = invalidateEntry s i t1 := by
  have hlives : ¬ (4096 ≤ i ∨ s.ident.recov = true) := by simp [hr, hi]
  unfold entryInvalidated invalidateEntry
  rw [if_neg hlives, generatorEnds_eq, entryLeft_eq]

/-- What a write of an entry is due by: the entry exists and the device is not in recovery. -/
theorem entry_due {s : State} {i : Nat} {f : State → State} {t : State}
    (hlost : 4096 ≤ i ∨ s.ident.recov = true → f s = s) (ht : i < 4096 → s.ident.recov = false → t = f s) :
    f s = (due (decide (i < 4096) && !s.ident.recov) t).getD s := by
  by_cases hi : i < 4096
  · cases hr : s.ident.recov with
    | false => rw [ht hi hr]; simp [due, hi]
    | true => rw [hlost (.inr hr)]; simp [due]
  · rw [hlost (.inl (Nat.not_lt.mp hi))]; simp [due, hi]

theorem exec_genEntrySubmit (i : Nat) (t1 : W64) (s : State) :
    exec (.genEntrySubmit i t1) s = .next (tableNext hearthEvents (.genEntrySubmit i t1) s) :=
  congrArg Host.Outcome.next (entry_due (f := fun s => submitEntry s i t1) (fun h => if_pos h) fun hi hr => entrySubmitted_eq hi hr t1)

theorem exec_genEntryInvalidate (i : Nat) (t1 : W64) (s : State) :
    exec (.genEntryInvalidate i t1) s = .next (tableNext hearthEvents (.genEntryInvalidate i t1) s) :=
  congrArg Host.Outcome.next
    (entry_due (f := fun s => invalidateEntry s i t1) (fun h => if_pos h) fun hi hr => entryInvalidated_eq hi hr t1)

/-! ### The victim store (R383) -/

theorem exec_victimStoreConfig (cfg : Bool) (v : W64) (s : State) :
    exec (.victimStoreConfig cfg v) s = .next (tableNext hearthEvents (.victimStoreConfig cfg v) s) := by
  show Host.Outcome.next (if s.ident.recov = true then s else victimStoreSet s cfg v) = .next ((due _ _).getD s)
  cases hr : s.ident.recov <;> simp [due]

/-- Settles O54: the state that the table writes out for each event is the one that the event gives. -/
theorem hearthEventsHold : Obligations.HearthEvents := by
  unfold Obligations.HearthEvents
  refine happens_of_tableNext fun i e he s => ?_
  unfold hearthEvents at he
  split at he
  · exact exec_fillPlace _ _ s
  · exact exec_fillTimeout _ s
  · exact exec_genEntrySubmit _ _ s
  · exact exec_genEntryInvalidate _ _ s
  · exact exec_victimStoreConfig _ _ s
  · cases he

end Sys2Proof.Machine
end

section
/-! SUPPORT. Repair and power (R463, R479 to R488) against their table. -/
namespace Sys2Proof.Machine
open Sys2Proof

/-! ### Banks and pads -/

/-- The model tests first what keeps an event from being due. -/
theorem next_unless (p : Prop) [Decidable p] (q : Bool) (hq : q = true ↔ ¬ p) (t s : State) :
    (if p then .next s else .next t : Host.Outcome State Fault Refusal) = .next ((due q t).getD s) := by
  rw [← next_due, ← ite_not]
  exact if_ctx_congr hq.symm (fun _ => rfl) fun _ => rfl

theorem next_unless_busy (busy : Bool) (t s : State) :
    (if busy then .next s else .next t : Host.Outcome State Fault Refusal) = .next ((due (!busy) t).getD s) := by
  cases busy <;> rfl

theorem exec_bankRetire (col bank : Nat) (s : State) :
    exec (.bankRetire col bank) s = .next (tableNext healthEvents (.bankRetire col bank) s) := by
  show execBankRetire col bank s = .next ((due _ _).getD s)
  rw [← next_unless (128 ≤ col ∨ 128 ≤ bank ∨ (!s.bankDue.contains (128 * col + bank)) = true) _ (by simp [and_assoc])]
  unfold execBankRetire
  refine if_congr Iff.rfl rfl ?_
  dsimp only
  split <;> rfl

theorem exec_padFail (col pad : Nat) (s : State) :
    exec (.padFail col pad) s = .next (tableNext healthEvents (.padFail col pad) s) :=
  next_unless (128 ≤ col ∨ 560 ≤ pad) _ (by simp) _ s

/-! ### The end of a remap step -/

/-- An error goes with its chunk where the chunk moves, and ends where it is lost. -/
theorem map_const_eq {α β : Type} (o : Option α) (b : β) : (if o.isSome = true then some b else none) = o.map fun _ => b := by
  cases o <;> rfl

theorem exec_remapStepEnd (col : Nat) (s : State) :
    exec (.remapStepEnd col) s = .next (tableNext healthEvents (.remapStepEnd col) s) := by
  show execRemapStepEnd col s = .next (Option.getD (match s.remaps.find? fun r => r.col == col && r.running with
    | none => _
    | some r => _) s)
  unfold execRemapStepEnd
  cases s.remaps.find? fun r => r.col == col && r.running with
  | none => rfl
  | some r =>
    dsimp only
    rw [← next_unless_busy]
    refine if_congr Iff.rfl rfl (congrArg Host.Outcome.next ?_)
    simp only [← Bool.decide_and, decide_eq_true_iff, ← map_const_eq]

/-! ### Gates and the thermal trip -/

theorem exec_engineGate (e : Engine) (s : State) : exec (.engineGate e) s = .next (tableNext healthEvents (.engineGate e) s) :=
  next_due ..

theorem exec_engineWake (e : Engine) (s : State) : exec (.engineWake e) s = .next (tableNext healthEvents (.engineWake e) s) := by
  show execEngineWake e s = .next ((due _ _).getD s)
  rw [← next_due]
  unfold execEngineWake
  by_cases h : isGated s e = true ∧ (!engineIdle s e) = true
  · rw [if_pos h, if_pos (by simpa using h)]
  · rw [if_neg h, if_neg (by simpa using h)]

theorem exec_thermalTrip (s : State) : exec .thermalTrip s = .next (tableNext healthEvents .thermalTrip s) :=
  by
  have h := next_unless_busy (!tripDue s)
  rw [Bool.not_not] at h
  exact h _ s

/-- Settles O55: the state that the table writes out for each event is the one that the event gives. -/
theorem healthEventsHold : Obligations.HealthEvents := by
  unfold Obligations.HealthEvents
  refine happens_of_tableNext fun i e he s => ?_
  unfold healthEvents at he
  split at he
  · exact exec_bankRetire _ _ s
  · exact exec_padFail _ _ s
  · exact exec_remapStepEnd _ s
  · exact exec_engineGate _ s
  · exact exec_engineWake _ s
  · exact exec_thermalTrip s
  · cases he

end Sys2Proof.Machine
end

section
/-! SUPPORT. What the loads of a ray query leave of the batches: all of each but the lines that it is parked on (R382, R418 to R425). -/
namespace Sys2Proof.Machine
open Sys2Proof

/-! ### States of the same batches -/

/-- A batch without the lines that it is parked on. -/
def Batch.unparked (b : Batch) : Batch := { b with fillWait := [] }

/-- The batches of two states differ at most in the lines that they are parked on. -/
def SameLanes (s t : State) : Prop := t.batches.map Batch.unparked = s.batches.map Batch.unparked

theorem SameLanes.refl (s : State) : SameLanes s s := rfl

theorem SameLanes.trans {s t u : State} (h : SameLanes s t) (k : SameLanes t u) : SameLanes s u := Eq.trans k h

theorem SameLanes.of_batches {s t : State} (h : t.batches = s.batches) : SameLanes s t := congrArg (List.map Batch.unparked) h

theorem SameHomes.sameLanes {s t : State} (h : SameHomes s t) : SameLanes s t := .of_batches h.batches

theorem SameLanes.foldl {α β : Type} {f : State × β → α → State × β} (hf : ∀ p a, SameLanes p.1 (f p a).1) (l : List α) :
    ∀ p : State × β, SameLanes p.1 (l.foldl f p).1 := by
  induction l with
  | nil => exact fun p => .refl p.1
  | cons a l ih => exact fun p => (hf p a).trans (ih _)

/-- A batch is found in both, with the same live lanes. -/
theorem SameLanes.findBatch {s t : State} (h : SameLanes s t) {id : Nat} {b : Batch} (hb : findBatch s id = some b) :
    ∃ c, Machine.findBatch t id = some c ∧ liveLanes c = liveLanes b := by
  have hfind : ∀ u : State, ((u.batches.map Batch.unparked).find? fun b => b.id = id) = (Machine.findBatch u id).map Batch.unparked :=
    fun u => List.find?_map ..
  have hsame := hfind t
  rw [h, hfind s, hb] at hsame
  obtain ⟨c, hc, hcb⟩ := Option.map_eq_some_iff.mp hsame.symm
  have hlanes : liveLanes c.unparked = liveLanes b.unparked := by rw [hcb]
  exact ⟨c, hc, hlanes⟩

/-! ### Parked lines and GEN lines (R382 to R386) -/

theorem SameLanes.modParks (s : State) (w : Who) (f : List ParkLine → List ParkLine) : SameLanes s (modParks s w f) := by
  cases w with
  | batch id =>
    show (List.map _ (List.map _ _)) = _
    rw [List.map_map]
    refine List.map_congr_left fun b _ => ?_
    dsimp only [Function.comp_apply]
    split <;> rfl
  | flue k => exact .refl s
  | split k => exact .refl s
  | load c => exact .refl s
  | other n => exact .refl s

theorem SameLanes.parkOn (s : State) (w : Who) (ctx va : Nat) (leaf : Leaf) (r : Option Nat) : SameLanes s (parkOn s w ctx va leaf r) :=
  .modParks ..

theorem raiseClass_batches (cls fuel : Nat) : ∀ (s : State) (id : Nat), (raiseClass s id cls fuel).batches = s.batches := by
  induction fuel with
  | zero => exact fun _ _ => rfl
  | succ fuel ih => exact fun s id => foldl_batches (fun s r => ih s r) _ _

theorem victimGet_batches (s : State) (ctx line g : Nat) : (victimGet s ctx line g).1.batches = s.batches := by
  unfold victimGet
  split <;> rfl

theorem putGenLine_batches (s : State) (l : GenLine) : (putGenLine s l).batches = s.batches := clearUpsets_batches ..

theorem roomForFill_batches {s t : State} {depth : Nat} (h : roomForFill s depth = some t) : t.batches = s.batches := by
  unfold roomForFill at h
  dsimp only at h
  split at h
  · cases h; rfl
  · obtain ⟨f, -, rfl⟩ := Option.map_eq_some_iff.mp h
    rfl

theorem SameLanes.create (who : Who) (ctx depth cls va : Nat) (leaf : Leaf) (s : State) (g unit : Nat) :
    SameLanes s (genAccess.create who ctx depth cls va leaf s g unit).1 := by
  unfold genAccess.create
  split
  · exact .parkOn ..
  · next t ht =>
    refine (of_batches (roomForFill_batches ht)).trans ?_
    exact SameLanes.trans (.of_batches rfl) (.parkOn ..)

theorem SameLanes.genAccess (s : State) (who : Who) (ctx depth cls va : Nat) (leaf : Leaf) :
    SameLanes s (genAccess s who ctx depth cls va leaf).1 := by
  unfold Machine.genAccess
  have hget := of_batches (victimGet_batches s ctx (va / 128 * 128) (leafGenId leaf.e))
  have huse : ∀ (u : State) (f : Fill), SameLanes u (match f.state with
      | .failed => (u, GenAns.failed f)
      | _ => (raiseClass (Machine.parkOn u who ctx va leaf (some f.id)) f.id (max 1 cls) 3, .parked (some f.id))).1 := by
    intro u f
    have hraised := (parkOn u who ctx va leaf (some f.id)).trans (.of_batches (raiseClass_batches (max 1 cls) 3 _ f.id))
    cases f.state with
    | failed => exact .refl u
    | queued => exact hraised
    | running => exact hraised
  dsimp only
  split
  · exact .refl s
  split
  · exact .refl s
  split
  · next u v hu =>
    rw [hu] at hget
    exact hget.trans (.of_batches (putGenLine_batches ..))
  · next u hu =>
    rw [hu] at hget
    split
    · exact hget
    split
    · exact hget.trans (huse u _)
    split
    · split
      · exact hget.trans (.create ..)
      · exact hget.trans (huse u _)
    · exact hget.trans (.create ..)

/-! ### The checks of a load (R156, R382) -/

theorem SameLanes.locateLanes (x : Exec) (u : Use) (bytes : Nat) (atHome : Bool) (fl : Option Nat) (ls : List (Nat × Nat)) :
    ∀ s : State, SameLanes s (locateLanes x u bytes atHome fl s ls).1 := by
  induction ls with
  | nil => exact .refl
  | cons p ls ih => exact fun s => (SameHomes.locateLane x s u bytes p.2 atHome fl).sameLanes.trans (ih _)

theorem checkMem_sameLanes {x : Exec} {s t : State} {u : Use} {bytes : Nat} {atHome : Bool} {fl : Option Nat} {ls : List (Nat × Nat)}
    {locs : List (Nat × Loc)} (h : checkMem x s u bytes atHome fl ls = .ok t locs) : SameLanes s t := by
  unfold checkMem at h
  dsimp only at h
  split at h
  · cases h
  split at h
  · cases h
  split at h
  · cases h
  split at h
  · cases h
  · cases h
    exact .locateLanes ..

theorem checkAddrs_sameLanes {x : Exec} {t : State} {u : Use} {bytes : Nat} {atHome : Bool} {addr : Nat → Nat}
    {locs : List (Nat × Loc)} (h : checkAddrs x u bytes atHome addr = .ok t locs) : SameLanes x.s t := by
  unfold checkAddrs at h
  dsimp only at h
  split at h
  · cases h
  split at h
  · cases h
  split at h
  · cases h
  split at h
  · cases h
  split at h
  · cases h
  split at h
  · next hmem =>
    cases h
    exact checkMem_sameLanes hmem
  · next hno => exact absurd h (hno _ _)

theorem countLlcMiss_batches (s : State) (crew ctx : Nat) : (countLlcMiss s crew ctx).batches = s.batches := rfl

theorem checkGen_sameLanes {x : Exec} {s t : State} {atHome : Bool} {addr : Nat → Nat} {locs out : List (Nat × Loc)}
    (h : checkGen x s atHome addr locs = .ok t out) : SameLanes s t := by
  unfold checkGen at h
  dsimp only at h
  split at h
  · cases h
  · cases h
  split at h
  · cases h
    refine SameLanes.foldl (fun p q => ?_) locs (s, _)
    obtain ⟨i, loc⟩ := q
    cases loc with
    | gen va l line =>
      dsimp only
      split
      · exact .refl p.1
      have haccess := SameLanes.genAccess p.1 (.batch x.b.id) x.b.ctx (accessDepth s x.b.crew) (crewClass s x.b.crew) va l
      generalize Machine.genAccess p.1 _ _ _ _ va l = r at haccess
      obtain ⟨u, ans⟩ := r
      have hcounted : ∀ c : Bool, SameLanes p.1 (if c then u else countLlcMiss u x.b.crew x.b.ctx)
        | true => haccess
        | false => haccess.trans (.of_batches (countLlcMiss_batches ..))
      cases ans <;> exact hcounted _
    | scratch c o => exact .refl p.1
    | checked pa l => exact .refl p.1
    | mem pa l fl => exact .refl p.1
    | xform va l => exact .refl p.1
  · cases h

theorem loadLoc_sameLanes (s : State) (b : Batch) (n : Nat) (loc : Loc) : SameLanes s (loadLoc s b n loc).1 :=
  (SameHomes.loadLoc s b n loc).sameLanes

/-! ### A ray query's loads (R418 to R425) -/

/-- The answer of a ray query, where it is one and not a cause or a wait, leaves the batches of the state. -/
def RayAns.KeepsLanes {α : Type} (s : State) (r : RayAns α) : Prop := ∀ t v, r = .ok t v → SameLanes s t

theorem RayAns.KeepsLanes.ok {α : Type} {s t : State} {v : α} (h : SameLanes s t) : (RayAns.ok t v).KeepsLanes s := by
  rintro _ _ ⟨⟩
  exact h

theorem RayAns.KeepsLanes.rayNode {α : Type} {x : Exec} {s t : State} {l va : Nat} : (rayNode x t l va : RayAns α).KeepsLanes s := nofun

theorem RayAns.KeepsLanes.andThen {α β : Type} {s : State} {r : RayAns α} {f : State → α → RayAns β} (hr : r.KeepsLanes s)
    (hf : ∀ t v, SameLanes s t → (f t v).KeepsLanes s) : (r.andThen f).KeepsLanes s := by
  cases r with
  | ok t v => exact hf t v (hr t v rfl)
  | trap t i => exact nofun
  | wait t k => exact nofun

section

variable {x : Exec} {s t : State} {l va : Nat}

theorem rayPart_keepsLanes (h : SameLanes s t) (m : Nat) : (rayPart x t l va m).KeepsLanes s := by
  unfold rayPart
  dsimp only
  split
  · exact nofun
  split
  · exact nofun
  · exact nofun
  · next u locs haddr =>
    have hu : SameLanes s u := h.trans (checkAddrs_sameLanes haddr)
    split
    · exact nofun
    · exact nofun
    · next v out hgen =>
      have hv := hu.trans (checkGen_sameLanes hgen)
      split
      · exact .ok (hv.trans (loadLoc_sameLanes ..))
      · exact .ok hv

theorem rayRead_keepsLanes (h : SameLanes s t) (n : Nat) : (rayRead x t l va n).KeepsLanes s := by
  unfold rayRead
  split
  · exact .rayNode
  refine .andThen (rayPart_keepsLanes h 128) fun u a hu => ?_
  split
  · exact .ok hu
  · exact .andThen (rayPart_keepsLanes hu 128) fun v b hv => .ok hv

theorem readHead_keepsLanes (h : SameLanes s t) : (readHead x t l va).KeepsLanes s := by
  unfold readHead
  split
  · exact .rayNode
  refine .andThen (rayPart_keepsLanes h 64) fun u b hu => ?_
  split
  · exact .ok hu
  · exact .rayNode

theorem readLeaf_keepsLanes (h : SameLanes s t) : (readLeaf x t l va).KeepsLanes s := by
  unfold readLeaf
  refine .andThen (rayRead_keepsLanes h 256) fun u b hu => ?_
  split
  · exact .ok hu
  · exact .rayNode

theorem rayWalk_keepsLanes (r : Ray) (fuel : Nat) : ∀ {t : State} (stack : List (Bool × Nat)) (best : Option RayBest) (tcur : Nat),
    SameLanes s t → (rayWalk x l r fuel t stack best tcur).KeepsLanes s := by
  induction fuel with
  | zero =>
    intro t stack best tcur h
    cases stack with
    | nil => exact .ok h
    | cons p stack => exact nofun
  | succ fuel ih =>
    intro t stack best tcur h
    rcases stack with _ | ⟨⟨leaf, va⟩, stack⟩
    · exact .ok h
    unfold rayWalk
    split
    · refine .andThen (readLeaf_keepsLanes h) fun u b hu => ?_
      dsimp only
      split
      · exact .ok hu
      · exact ih _ _ _ hu
    · refine .andThen (rayRead_keepsLanes h 128) fun u b hu => ?_
      split
      · exact .rayNode
      dsimp only
      split
      · exact .rayNode
      · exact ih _ _ _ hu

theorem rayqLane_keepsLanes (w : FWord) (h : SameLanes s t) : (rayqLane x w t l).KeepsLanes s := by
  unfold rayqLane
  dsimp only
  split
  · exact .ok h
  · exact .andThen (rayWalk_keepsLanes _ _ _ _ _ h) fun u b hu => .ok hu

theorem rayrdLane_keepsLanes (h : SameLanes s t) : (rayrdLane x t l).KeepsLanes s := by
  unfold rayrdLane
  dsimp only
  refine .andThen (readHead_keepsLanes h) fun u b hu => ?_
  split
  · exact .ok hu
  · exact .andThen (readLeaf_keepsLanes hu) fun v b hv => .ok hv

/-- The queries of all lanes, each of which keeps the batches, keep them. -/
theorem rayAll_sameLanes {f : State → Nat → RayAns (List W32)} (hf : ∀ t l, SameLanes s t → (f t l).KeepsLanes s) (ls : List Nat) :
    ∀ {p q : State × List (Nat × List W32)}, SameLanes s p.1 → rayAll f ls p = some q → SameLanes s q.1 := by
  induction ls with
  | nil =>
    rintro p q h ⟨⟩
    exact h
  | cons l ls ih =>
    intro p q h hall
    unfold rayAll at hall
    split at hall
    · next u v hu => exact ih (hf _ l h u v hu) hall
    · cases hall

end

end Sys2Proof.Machine
end

section
/-! SUPPORT. The words of a fill task, GENINV and the ray words (R394 to R398, R418 to R425): each retires with the effect of its rule. -/
namespace Sys2Proof.Machine
open Sys2Proof

/-! ### A release writes lines back and touches no batch (R327) -/

@[simp] theorem loseBad_batches (s : State) (core key : Nat) : (loseBad s core key).batches = s.batches := by
  unfold loseBad
  split
  · rfl
  split
  · rfl
  dsimp only
  split
  · rfl
  · exact clearLine_batches s core key

@[simp] theorem flushLine_batches (s : State) (core key : Nat) (l : L1Line) : (flushLine s core key l).batches = s.batches := by
  unfold flushLine
  split
  · rfl
  · refine (foldl_batches (fun s w => ?_) _ _).trans (foldl_batches (fun s p => homePut_batches ..) _ _)
    split
    · exact mendWords_batches ..
    · rfl

@[simp] theorem writeBack_batches (s : State) (core key : Nat) : (writeBack s core key).batches = s.batches := by
  unfold writeBack
  have hlost := loseBad_batches s core key
  generalize loseBad s core key = u at hlost
  dsimp only
  split
  · exact hlost
  split
  · exact hlost
  split
  · exact hlost
  · exact (flushLine_batches ..).trans hlost

@[simp] theorem drainCore_batches (s : State) (core scope mask : Nat) : (drainCore s core scope mask).batches = s.batches := by
  unfold drainCore
  split
  · rfl
  · exact foldl_batches (fun s k => writeBack_batches s core k) _ s

@[simp] theorem releaseAll_batches (s : State) (b : Batch) (scope : Nat) : (releaseAll s b scope).batches = s.batches := by
  unfold releaseAll
  rw [drainCore_batches]
  rfl

theorem mapFills_batches (s : State) (g : Nat) (f : Fill → Option Fill) : (mapFills s g f).batches = s.batches := rfl

theorem advanceGen_batches (s : State) (g : Nat) : (advanceGen s g).batches = s.batches := by
  unfold advanceGen setGenWord
  dsimp only
  rw [mapFills_batches]

theorem invalidated_batches (x : Exec) (g : Nat) : (invalidated x g).batches = x.s.batches := by
  unfold invalidated
  dsimp only
  rw [advanceGen_batches]
  exact releaseAll_batches x.s x.b 2

/-! ### Results in several names -/

/-- Scalars in consecutive names are the uniform values that the model writes there. -/
theorem uRegs_scalars (x : Exec) (ws : List W32) :
    List.Forall₂ (fun p q => p.1 = q.1 ∧ LaneVals x p.2 q.2) (uRegs x ws) (scalars x ws).regs :=
  List.forall₂_map_left_iff.mpr (List.forall₂_map_right_iff.mpr
    (List.forall₂_same.mpr fun _ _ => ⟨rfl, nofun, fun _ _ _ => rfl⟩))

/-- The registers that a ray word writes: a word of its record per name, lane by lane. -/
def rayRegs (x : Exec) (n : Nat) (vals : List (Nat × List W32)) : List (Nat × RegVal) :=
  (List.range n).map fun j => (nameOf x .d j, .g (laneList fun l => (kvGetD vals l []).getD j 0))

theorem rayRegs_results (x : Exec) (n : Nat) (vals : List (Nat × List W32)) :
    List.Forall₂ (fun p q => p.1 = q.1 ∧ LaneVals x p.2 q.2) (rayRegs x n vals) (rayResults x n vals).regs :=
  List.forall₂_map_left_iff.mpr (List.forall₂_map_right_iff.mpr
    (List.forall₂_same.mpr fun _ _ => ⟨rfl, nofun, fun l _ h32 => laneVal_laneList _ l h32⟩))

/-! ### The queries of all lanes -/

/-- A fold whose step answers a lane's query goes through the queries of all lanes, without a cause or a wait. -/
theorem foldl_of_rayAll {f : State → Nat → RayAns (List W32)} {σ : Type} {rest : σ}
    {step : State × List (Nat × List W32) × σ → Nat → State × List (Nat × List W32) × σ}
    (hstep : ∀ s vals l u v, f s l = .ok u v → step (s, vals, rest) l = (u, kvSet vals l v, rest)) (ls : List Nat) :
    ∀ {p q : State × List (Nat × List W32)}, rayAll f ls p = some q → ls.foldl step (p.1, p.2, rest) = (q.1, q.2, rest) := by
  induction ls with
  | nil =>
    rintro p q ⟨⟩
    rfl
  | cons l ls ih =>
    intro p q hall
    unfold rayAll at hall
    split at hall
    · next u v hu =>
      rw [List.foldl_cons, hstep _ _ _ _ _ hu]
      exact ih hall
    · cases hall

/-- Where every lane's query gives a record, and no record that the batch was parked on has failed, the word is done. -/
theorem rayLanes_eq {x : Exec} {f : State → Nat → RayAns (List W32)} {n : Nat} {q : State × List (Nat × List W32)}
    (hparked : rayParked x = none) (hall : rayAll f x.act (useEngines x.s [.ray x.b.core], []) = some q) :
    rayLanes x f n = .done q.1 (rayRegs x n q.2) [] [] := by
  unfold rayLanes
  dsimp only
  rw [foldl_of_rayAll (fun s vals l u v hu => by rw [hu]) x.act hall, hparked]
  rfl

/-- A ray word whose lanes' queries all give a record retires with these. -/
theorem finish_shows_ray {x : Exec} {f : State → Nat → RayAns (List W32)} {n : Nat} {u : State} {r : Results}
    (hb : findBatch x.s x.b.id = some x.b) (hlive : ∀ l ∈ x.act, l ∈ liveLanes x.b)
    (hkeeps : ∀ t l, SameLanes x.s t → (f t l).KeepsLanes x.s)
    (hr : (if (rayParked x).isSome = true then none else
      (rayAll f x.act (useEngines x.s [.ray x.b.core], [])).map fun p => (p.1, rayResults x n p.2)) = some (u, r)) :
    Shows x u (finish x (rayLanes x f n)) r := by
  obtain ⟨hparked, hr⟩ := Option.ite_none_left_eq_some.mp hr
  obtain ⟨q, hall, hq⟩ := Option.map_eq_some_iff.mp hr
  obtain ⟨rfl, rfl⟩ := Prod.mk.inj hq
  have hsame : SameLanes x.s q.1 := rayAll_sameLanes hkeeps x.act (.of_batches rfl) hall
  obtain ⟨c, hc, hlanes⟩ := hsame.findBatch hb
  have hregs := rayRegs_results x n q.2
  rw [rayLanes_eq (by simpa using hparked) hall, finish_done]
  obtain ⟨d, hd⟩ := fin_retires x q.1 c _ [] [] hc (hlanes ▸ hlive) (forall₂_left (fun _ _ h => h.2.ne_t) hregs)
  exact ⟨c, d, _, [], hc, hd, hregs.imp fun _ _ h => ⟨h.1, h.2.lanes⟩, .nil⟩

/-! ### The words -/

/-- A word that comes to its own effect, with the effect that the table gives, has it. -/
def HasEffect (i : Instr) : Prop := ∀ {s : State} {f : Form} {e : Effect} {b : Batch} {u : State} {r : Results}, formOf s i = some f →
  unitTable i = some e → f.Ready s b → e (f.start s b) = some (u, r) → ∃ t, exec i s = .next t ∧ Shows (f.start s b) u t r

theorem fillarg_hasEffect (w : FWord) : HasEffect (.fillarg w) := by
  intro s f e b u r hf he hready hr
  obtain ⟨hb, hact, -⟩ := start_lives hf hready
  obtain rfl := Option.some.inj he
  obtain ⟨m, hm, hq⟩ := Option.map_eq_some_iff.mp hr
  obtain ⟨rfl, rfl⟩ := Prod.mk.inj hq
  cases Option.some.inj hf
  refine ⟨_, exec_runF (o := execFillarg w s) rfl hready ?_, finish_shows hb hact (uRegs_scalars ..) .nil (.inl rfl)⟩
  show inFill _ _ = _
  unfold inFill
  rw [hm]

theorem given_eq_some {p : Bool} {q r : State × Results} : given p q = some r ↔ p = true ∧ q = r := by
  unfold given
  cases p <;> simp

theorem fillput_hasEffect (w : FWord) : HasEffect (.fillput w) := by
  intro s f e b u r hf he hready hr
  obtain ⟨hb, hact, -⟩ := start_lives hf hready
  obtain rfl := Option.some.inj he
  dsimp only at hr
  split at hr
  · cases hr
  next m hm =>
  obtain ⟨hgiven, hq⟩ := given_eq_some.mp hr
  obtain ⟨rfl, rfl⟩ := Prod.mk.inj hq
  simp only [Bool.and_eq_true, Bool.or_eq_true, Bool.not_eq_true', decide_eq_true_eq, beq_iff_eq] at hgiven
  obtain ⟨⟨⟨hscratch, hline⟩, hunit⟩, hsound⟩ := hgiven
  cases Option.some.inj hf
  refine ⟨_, exec_runF (o := execFillput w s) (body := ?body) ?_ hready ?_, finish_shows_done hb hact .nil .nil⟩
  rotate_left
  · unfold execFillput
    rfl
  generalize (formF w _).start s b = x at hm hscratch hline hunit hsound ⊢
  show inFill _ _ = _
  unfold inFill
  rw [hm]
  dsimp only
  rw [if_neg, if_neg, if_neg]
  · exact ne_true_of_eq_false hsound
  · omega
  · rintro ⟨hsp, hplace⟩
    obtain ⟨halign, hroom⟩ := hscratch.resolve_left (by simp [hsp])
    omega

theorem geninv_hasEffect (w : FWord) : HasEffect (.geninv w) := by
  intro s f e b u r hf he hready hr
  obtain ⟨hb, hact, -⟩ := start_lives hf hready
  obtain rfl := Option.some.inj he
  obtain ⟨hgiven, hq⟩ := given_eq_some.mp hr
  obtain ⟨rfl, rfl⟩ := Prod.mk.inj hq
  simp only [Bool.and_eq_true, Bool.not_eq_true', decide_eq_true_eq, beq_iff_eq] at hgiven
  obtain ⟨⟨⟨hentry, hvalid⟩, hctx⟩, hfill⟩ := hgiven
  cases Option.some.inj hf
  refine ⟨_, exec_runF (o := execGeninv w s) rfl hready ?_, finish_shows_done ?_ hact .nil .nil⟩
  · generalize (formF w _).start s b = x at hentry hvalid hctx hfill ⊢
    dsimp only
    rw [if_neg, if_neg, if_neg]
    · unfold invalidated
      dsimp only
    · simp [hfill]
    · exact not_not.mpr hctx
    · simp [hentry, hvalid]
  · unfold findBatch
    rw [invalidated_batches]
    exact hb

theorem rayq_hasEffect (w : FWord) : HasEffect (.rayq w) := by
  intro s f e b u r hf he hready hr
  obtain ⟨hb, hact, -⟩ := start_lives hf hready
  obtain rfl := Option.some.inj he
  cases Option.some.inj hf
  exact ⟨_, exec_runF (o := execRayq w s) rfl hready rfl, finish_shows_ray hb hact (fun _ _ => rayqLane_keepsLanes w) hr⟩

theorem rayrd_hasEffect (w : FWord) : HasEffect (.rayrd w) := by
  intro s f e b u r hf he hready hr
  obtain ⟨hb, hact, -⟩ := start_lives hf hready
  obtain rfl := Option.some.inj he
  cases Option.some.inj hf
  exact ⟨_, exec_runF (o := execRayrd w s) rfl hready rfl, finish_shows_ray hb hact (fun _ _ => rayrdLane_keepsLanes) hr⟩

/-- Settles O33: each word's own part, from where its effect starts, leaves its batch with the lanes that it has. -/
theorem fillAndRayWords : Obligations.FillAndRayWords := by
  unfold Obligations.FillAndRayWords
  intro s i f e hf he b hready u r hr
  unfold unitTable at he
  split at he
  · exact fillarg_hasEffect _ hf he hready hr
  · exact fillput_hasEffect _ hf he hready hr
  · exact geninv_hasEffect _ hf he hready hr
  · exact rayq_hasEffect _ hf he hready hr
  · exact rayrd_hasEffect _ hf he hready hr
  · cases he

end Sys2Proof.Machine
end
